-- ==== Sys2Proof/Word.lean ====
section
/-! DEFINITION. Words, bytes and the plainest arithmetic on them (00 R2, R7). -/
namespace Sys2Proof

/-- A 64-bit register or memory word. -/
abbrev Word := BitVec 64

/-- One byte of memory. -/
abbrev Byte := BitVec 8

/-- A mesh position, `32 * y + x` (01 R14). -/
abbrev CoreId := Fin 512

/-- A virtual die number (01 R9). -/
abbrev DieId := Fin 8

/-- A context number on a core (02 R24). -/
abbrev CtxId := Fin 12

/-- Sign extension into a 64-bit word (00 R7). -/
abbrev sext64 {n : Nat} (x : BitVec n) : Word := x.signExtend 64

/-- Zero extension into a 64-bit word (00 R7). -/
abbrev zext64 {n : Nat} (x : BitVec n) : Word := x.setWidth 64

/-- The field `hi:lo` of a word as a number (00 R2). -/
def bits (w : Word) (hi lo : Nat) : Nat := (w.toNat >>> lo) % 2 ^ (hi + 1 - lo)

/-- Bit `i` of a word. -/
def bitAt (w : Word) (i : Nat) : Bool := w.getLsbD i

end Sys2Proof
end

