-- ==== Sys2Proof/Syntax.lean ====
section
/-! DEFINITION. The syntax of Limig instructions, engine commands and device events: the formats of
03 R54, the message of 08 R167, and one constructor for each row of spec/opcode_table.json. -/
namespace Sys2Proof

/-- The guard of a scalar-style instruction with GE = 1 (03 R56). -/
structure Guard where
  gn : Bool
  greg : BitVec 6
  gbit : BitVec 6
  deriving DecidableEq, Repr

/-- STALL and the guard of a scalar-style format; `none` is GE = 0 (03 R53, R56). -/
structure SCtl where
  stall : BitVec 3
  guard : Option Guard
  deriving DecidableEq, Repr

/-- STALL and the vector control of a vector-style format (03 R53, R57). -/
structure VCtl where
  stall : BitVec 3
  ksel : BitVec 4
  kp : Bool
  tp : Bool
  ty : BitVec 5
  rm : BitVec 3
  deriving DecidableEq, Repr

/-- Format SR (03 R54). -/
structure SR where
  ctl : SCtl
  dst : BitVec 6
  sa : BitVec 6
  sb : BitVec 6
  fn : BitVec 8
  ty : BitVec 5
  rm : BitVec 3
  deriving DecidableEq, Repr

/-- Format SI (03 R54). -/
structure SI where
  ctl : SCtl
  dst : BitVec 6
  sa : BitVec 6
  imm : BitVec 27
  deriving DecidableEq, Repr

/-- Format SL (03 R54). -/
structure SL where
  ctl : SCtl
  dst : BitVec 6
  imm : BitVec 33
  deriving DecidableEq, Repr

/-- Format BR (03 R54). -/
structure BR where
  ctl : SCtl
  off : BitVec 39
  deriving DecidableEq, Repr

/-- Format SB (03 R54). -/
structure SB where
  ctl : SCtl
  sa : BitVec 6
  sb : BitVec 6
  off : BitVec 27
  deriving DecidableEq, Repr

/-- Format SQ (03 R54). -/
structure SQ where
  ctl : SCtl
  dst : BitVec 6
  sa : BitVec 6
  sb : BitVec 6
  sc : BitVec 6
  fn : BitVec 8
  ty : BitVec 5
  deriving DecidableEq, Repr

/-- Format SM (03 R54). -/
structure SM where
  ctl : SCtl
  ds : BitVec 6
  base : BitVec 6
  sc : BitVec 6
  off : BitVec 18
  sz : BitVec 3
  deriving DecidableEq, Repr

/-- Format SA (03 R54). -/
structure SA where
  ctl : SCtl
  dst : BitVec 6
  base : BitVec 6
  val : BitVec 6
  sc : BitVec 6
  aop : BitVec 5
  ord : BitVec 2
  prm : Bool
  sz : BitVec 3
  deriving DecidableEq, Repr

/-- Format SAC (03 R54). -/
structure SAC where
  ctl : SCtl
  dst : BitVec 6
  base : BitVec 6
  exp : BitVec 6
  new : BitVec 6
  sc : BitVec 6
  ord : BitVec 2
  prm : Bool
  sz : BitVec 3
  deriving DecidableEq, Repr

/-- Format V (03 R54). -/
structure FV where
  ctl : VCtl
  vd : BitVec 6
  va : BitVec 6
  vb : BitVec 6
  vc : BitVec 6
  fn : BitVec 8
  aux : BitVec 7
  deriving DecidableEq, Repr

/-- Format VS (03 R54). -/
structure VS where
  ctl : VCtl
  vd : BitVec 6
  va : BitVec 6
  sb : BitVec 6
  fn : BitVec 8
  imm : BitVec 13
  deriving DecidableEq, Repr

/-- Format VM (03 R54). -/
structure VM where
  ctl : VCtl
  vd : BitVec 6
  base : BitVec 6
  sx : BitVec 6
  off : BitVec 16
  mode : BitVec 5
  deriving DecidableEq, Repr

/-- Format K (03 R54). -/
structure FK where
  ctl : SCtl
  kd : BitVec 4
  ka : BitVec 4
  kb : BitVec 4
  fn : BitVec 8
  sd : BitVec 6
  off : BitVec 13
  deriving DecidableEq, Repr

/-- Format X (03 R54). -/
structure FX where
  ctl : SCtl
  tile : BitVec 4
  sa : BitVec 6
  sb : BitVec 6
  sc : BitVec 6
  sd : BitVec 6
  ty : BitVec 5
  mode : BitVec 6
  deriving DecidableEq, Repr

/-- Format Y (03 R54). -/
structure FY where
  ctl : SCtl
  dst : BitVec 6
  sa : BitVec 6
  sb : BitVec 6
  imm : BitVec 21
  deriving DecidableEq, Repr

/-- Who sent a message: package, home core, context, domain, and the launch it belongs to
(08 R167, R178; `launch` is none for a context of no launch). -/
structure Sender where
  pkg : Nat
  core : CoreId
  ctx : CtxId
  domain : BitVec 16
  launch : Option Nat
  remote : Bool
  deriving DecidableEq, Repr

/-- The eight words of a message (08 R167). -/
structure Message where
  w0 : Word
  w1 : Word
  w2 : Word
  w3 : Word
  w4 : Word
  w5 : Word
  w6 : Word
  w7 : Word
  deriving DecidableEq, Repr

/-- An entry of a domain's region table: its first and last virtual page and its rights (06 R115). -/
structure RegionSpan where
  first : Nat
  last : Nat
  rights : BitVec 6
  deriving DecidableEq, Repr

/-- A message at an agent of die `die`: `inst` is the agent's place among the die's eight command
queues, 0 to 3 the copy engines, 4 rasteriser, 5 mesh distributor, 6 blend unit, 7 splat unit
(08 R170, R171). -/
structure Command where
  msg : Message
  sender : Sender
  die : DieId
  inst : Fin 8
  regions : List RegionSpan
  deriving DecidableEq, Repr

/-- A message on its way to the core `core`: its inbox (04 R80, code 0x80) or its handler queue. -/
structure Delivery where
  msg : Message
  sender : Sender
  core : CoreId
  deriving DecidableEq, Repr

/-- What a scale-out frame carries: a message to an inner destination, a reply record, the transport's acknowledgement
of a stream up to a sequence number, the request of a copy engine for bytes of a source on the sender's package, or the answer to
one, with its status, VALUE and bytes; the engine's die is named by its site, which no change of map moves (01 R9; 08 R169, R173;
14 R315, R316; log 18). -/
inductive FrameBody where
  | message (dest : Word) (msg : Message) (sender : Sender)
  | reply (sender : Sender) (addr w0 w1 : Word)
  | ack (upTo : Nat)
  | sourceRead (die : DieId) (inst : Fin 8) (sender : Sender) (addr len : Nat)
  | sourceData (die : DieId) (inst : Fin 8) (status : Nat) (value : Word) (data : Nat)
  deriving DecidableEq, Repr

/-- A transport packet of the scale-out ports with its source core and its age at `born`, a TIME of this package in microseconds:
that of its injection, with age 0, for an own packet, and that of its arrival for another's (14 R315). A packet that its package has acknowledged and that waits for a reply record is `acked`, and so
is an acknowledgement. -/
structure Frame where
  src : Nat
  dst : Nat
  cls : Nat
  seq : Nat
  age : Nat
  core : CoreId
  born : Nat
  body : FrameBody
  acked : Bool
  deriving DecidableEq, Repr

/-- An instruction of the core, an engine command in the hand of its agent, or an event of the
device: one constructor for each row of spec/opcode_table.json. -/
inductive Instr where
  -- 04 R79, scalar arithmetic and pointers
  | add (f : SR)
  | addI (f : SI)
  | sub (f : SR)
  | mul (f : SR)
  | mulh (f : SR)
  | div (f : SR)
  | rem (f : SR)
  | and (f : SR)
  | andI (f : SI)
  | or (f : SR)
  | orI (f : SI)
  | xor (f : SR)
  | xorI (f : SI)
  | shl (f : SR)
  | shlI (f : SI)
  | shr (f : SR)
  | shrI (f : SI)
  | sra (f : SR)
  | sraI (f : SI)
  | cmp (f : SR)
  | cmpI (f : SI)
  | min (f : SR)
  | max (f : SR)
  | clz (f : SR)
  | ctz (f : SR)
  | popc (f : SR)
  | brev (f : SR)
  | ext (f : SR)
  | ins (f : SR)
  | mov (f : SR)
  | sel (f : SQ)
  | fma (f : SQ)
  | fdiv (f : SR)
  | fsqrt (f : SR)
  | fcvt (f : SR)
  | padd (f : SR)
  | paddI (f : SI)
  | pmake (f : SR)
  | ptag (f : SR)
  | li (f : SL)
  | lih (f : SL)
  -- control, contexts and launch
  | br (f : BR)
  | jal (f : SI)
  | jr (f : SI)
  | subbr (f : SB)
  | setvl (f : SI)
  | setvlc (f : SQ)
  | trap (f : SI)
  | eret (f : SR)
  | wfe (f : SR)
  | hstart (f : SQ)
  | hjoin (f : SR)
  | hend (f : SR)
  | hkill (f : SR)
  | launch (f : SR)
  | hbind (f : SR)
  | ecall (f : SI)
  -- memory, ordering and atomic regions
  | ld (f : SM)
  | st (f : SM)
  | ldacq (f : SM)
  | strel (f : SM)
  | amo (f : SA)
  | amocas (f : SAC)
  | fence (f : FY)
  | vdrain (f : SR)
  | bara (f : SI)
  | barw (f : SI)
  | abegin (f : BR)
  | aend (f : SR)
  | aabort (f : SR)
  -- messages and circular buffers
  | msg (f : SR)
  | reply (f : SR)
  | notify (f : SR)
  | cbres (f : SI)
  | cbput (f : SI)
  | cbget (f : SI)
  | cbfree (f : SI)
  -- system
  | csrr (f : SI)
  | csrw (f : SI)
  | plbinv (f : SR)
  | pinv (f : SR)
  | cflush (f : SM)
  | hop (f : SR)
  | handoff (f : SR)
  | pmig (f : SR)
  -- vector
  | vadd (f : FV)
  | vsub (f : FV)
  | vmul (f : FV)
  | vmulh (f : FV)
  | vmac (f : FV)
  | vmin (f : FV)
  | vmax (f : FV)
  | vand (f : FV)
  | vor (f : FV)
  | vxor (f : FV)
  | vshl (f : FV)
  | vshr (f : FV)
  | vsra (f : FV)
  | vcmp (f : FV)
  | vmerge (f : FV)
  | vmov (f : FV)
  | vaddS (f : VS)
  | vsubS (f : VS)
  | vmulS (f : VS)
  | vmulhS (f : VS)
  | vmacS (f : VS)
  | vminS (f : VS)
  | vmaxS (f : VS)
  | vandS (f : VS)
  | vorS (f : VS)
  | vxorS (f : VS)
  | vshlS (f : VS)
  | vshrS (f : VS)
  | vsraS (f : VS)
  | vcmpS (f : VS)
  | vmovS (f : VS)
  | vslide (f : VS)
  | vperm (f : FV)
  | viota (f : FV)
  | vext (f : VS)
  | vins (f : VS)
  | vred (f : FV)
  | vdotb (f : FV)
  | vcvt (f : FV)
  | vfmt (f : FV)
  | vfma (f : FV)
  | vfdiv (f : FV)
  | vfsqrt (f : FV)
  | vfest (f : FV)
  | vfexp2 (f : FV)
  | vflog2 (f : FV)
  | vfsin (f : FV)
  | vfclass (f : FV)
  -- vector memory and masks
  | vld (f : VM)
  | vlds (f : VM)
  | vldx (f : VM)
  | vldff (f : VM)
  | vst (f : VM)
  | vsts (f : VM)
  | vstx (f : VM)
  | kld (f : VM)
  | kst (f : VM)
  | klog (f : FK)
  | kmov (f : FK)
  | kpush (f : FK)
  | kpop (f : FK)
  | kelse (f : FK)
  | kcnt (f : FK)
  | kfirst (f : FK)
  | kbr (f : FK)
  -- matrix and texture
  | mlease (f : FX)
  | mfree (f : FX)
  | mtile (f : FX)
  | mshape (f : FX)
  | mzero (f : FX)
  | mlda (f : FX)
  | mldb (f : FX)
  | mma (f : FX)
  | mmab (f : FX)
  | mout (f : FX)
  | mwait (f : FX)
  | msave (f : FX)
  | mrest (f : FX)
  | tex (f : FV)
  | texg (f : FV)
  | rayq (f : FV)
  -- engine commands (04 R80, R81): the command at the head of its agent's queue
  | cpy (c : Command)
  | cpy2d (c : Command)
  | cpyfill (c : Command)
  | cpydec (c : Command)
  | wload (c : Command)
  | rast (c : Command)
  | mesh (c : Command)
  | blend (c : Command)
  | sproj (c : Command)
  | ssort (c : Command)
  | sblend (c : Command)
  | sbwd (c : Command)
  -- messages, handlers and contexts
  | inboxMessage (d : Delivery)
  | handlerMessage (m : Message) (sender : Sender)
  | messageAccept (core : CoreId) (ctx : CtxId)
  | handlerInvocation (core : CoreId)
  | handlerOverrun (core : CoreId)
  | contextWake (core : CoreId) (ctx : CtxId)
  | setvlcReread (core : CoreId) (ctx : CtxId)
  | barrierDieReport (die : DieId) (obj : Nat)
  | regionLengthAbort (core : CoreId) (ctx : CtxId)
  | vectorAdmission (core : CoreId)
  -- Firebox and Hob
  | arrayGrant (die : DieId)
  | quantumExpiry (die : DieId)
  | fireboxCommandRun (die : DieId)
  | hobRefreshStart (die : DieId)
  | hobRefreshEnd (die : DieId)
  -- caches, hops and the Flue
  | l2DirtyWriteback (die : DieId) (va : Nat)
  | l2Eviction (die : DieId) (va : Nat)
  | hopArrival (core : CoreId) (ctx : CtxId)
  | fluePacketAging (idx : Nat)
  | flueInjectionWindow
  -- Bellows
  | hostRingConsume (ring : Fin 16)
  | ringTailWrite (ring : Fin 16) (tail : BitVec 32)
  | ringReset (ring : Fin 16)
  | ringSkip (ring : Fin 16)
  | ringResume (ring : Fin 16)
  | ringConfigWrite (ring : Fin 16) (off : BitVec 6) (value : Word)
  | dependenceTest (arrival : Nat)
  | launchSelection
  | preemptionNoticeTimeout (core : CoreId) (ctx : CtxId)
  | groupRestore (arrival group : Nat)
  | agingStep
  | occupancySample
  | groupCompletion (arrival group : Nat)
  | supervisorEndLaunch (arrival : Nat)
  -- registers, host and boot
  | nqheadWrite (die : DieId) (value : BitVec 32)
  | vdmapWrite (value : Word)
  | registerWrite (addr : Nat) (value : Word)
  | hostApertureRead (off len : Nat)
  | hostApertureWrite (off : Nat) (bytes : List Byte)
  | heldHostWriteRelease (idx : Nat) (granted : Bool)
  | hostSnoop (addr : Nat)
  | moduleReset
  | bootgo
  | attest
  | scaleoutFrameReceive (port : Fin 8) (frame : Frame)
  | scaleoutDeliveryTimeout (idx : Nat)
  | heartbeatMiss (die : DieId)
  | linkLoss (link : Nat)
  | powerInputChange (millivolts : Nat)
  | junctionThrottle
  | powerAverageExceed
  | junctionTrip
  -- fetching and links
  | unassignedOp (word : Word)
  | instructionFetch (cause : BitVec 8) (addr : Word)
  | fluePacketArrival (idx : Nat)
  | linkNegotiation (cxl : Bool)
  | goBackNRetransmission (src dst cls : Nat)
  | stagingSramWrite (off : Nat) (bytes : List Byte)
  deriving DecidableEq, Repr

end Sys2Proof
end

