-- ==== Sys2Proof/WellFormed.lean ====
section
/-! DEFINITION. Which instructions are legal encodings: the field values of 03 R54, R55, R57, R58, the CSR
numbers of 03 R47, and the field values that each reference entry of 15 to 18 accepts. An instruction that
fails a check raises an illegal-instruction trap at step 1 of 03 R60. -/
namespace Sys2Proof

/-- Why an instruction word is no legal encoding. -/
inductive IllFormed where
  | zeroField
  | guardBits
  | vectorRegister
  | maskRegister
  | tileRegister
  | maskSelect
  | typeCode
  | rounding
  | function
  | immediate
  | size
  | pathSet
  | csrNumber
  | overlap
  deriving DecidableEq, Repr

namespace WellFormed

/-- An integer type of 8 to 64 bits (05 R83). -/
def isInt (t : Nat) : Bool := t ≤ 7

/-- f16, bf16, f32 or f64 (05 R85). -/
def isFloat (t : Nat) : Bool := 8 ≤ t && t ≤ 11

/-- Any element type of a vector register, codes 0 to 18 (05 R83, R85, R98). -/
def isElem (t : Nat) : Bool := t ≤ 18

/-- A type that VCVT reads or writes as an integer: 0 to 7, i4, n4, bq8, bq4 and s8 (18 R433). -/
def isInteger (t : Nat) : Bool := isInt t || (14 ≤ t && t ≤ 18)

/-- A rounding code that an entry that rounds accepts (03 R55). -/
def rmOk (rm : Nat) : Bool := rm ≤ 4 || rm == 7

/-- The RM field of an entry that rounds for its floating-point types (03 R55). -/
def rmFor (t rm : Nat) : Bool := if isFloat t || t == 31 then rmOk rm else rm == 0

/-- A vector register number (03 R55). -/
def vreg (r : BitVec 6) : Bool := r.toNat < 48

/-- A KSEL code (03 R57). -/
def kselOk (k : BitVec 4) : Bool := k.toNat ≤ 11 || k.toNat == 15

/-- A CSR number that the map of 03 R47 and R52 lists. -/
def csrListed (n : Nat) : Bool :=
  n ≤ 0x006 || (0x010 ≤ n && n ≤ 0x014) || (0x020 ≤ n && n ≤ 0x031) || (0x040 ≤ n && n ≤ 0x046) ||
  n == 0x050 || n == 0x051 || n == 0x060 || (0x100 ≤ n && n ≤ 0x104) || n == 0x110 ||
  (0x300 ≤ n && n ≤ 0x33F && n % 8 != 7)

/-- The first failing check of a list. -/
def first : List (Bool × IllFormed) → Option IllFormed
  | [] => none
  | (ok, why) :: rest => if ok then first rest else some why

/-- SR with an integer or floating-point TYPE: FN zero, RM by the type. -/
def srArith (f : SR) : Option IllFormed :=
  first [(f.fn == 0, .zeroField), (isInt f.ty.toNat || isFloat f.ty.toNat, .typeCode),
    (rmFor f.ty.toNat f.rm.toNat, .rounding)]

/-- SR whose TYPE satisfies `ok` and that does not round. -/
def srExact (ok : Nat → Bool) (f : SR) : Option IllFormed :=
  first [(f.fn == 0, .zeroField), (ok f.ty.toNat, .typeCode), (f.rm == 0, .rounding)]

/-- SR with one source, TYPE i64. -/
def srUnary (f : SR) : Option IllFormed :=
  first [(f.sb == 0, .zeroField), (f.fn == 0, .zeroField), (f.ty == 6, .typeCode), (f.rm == 0, .rounding)]

/-- SR in which only the named register fields are used. -/
def srBare (dst sa sb : Bool) (f : SR) : Option IllFormed :=
  first [(dst || f.dst == 0, .zeroField), (sa || f.sa == 0, .zeroField), (sb || f.sb == 0, .zeroField),
    (f.fn == 0, .zeroField), (f.ty == 0, .zeroField), (f.rm == 0, .zeroField)]

/-- A shift's immediate (04 R75). -/
def siShift (f : SI) : Option IllFormed := first [(decide (f.imm.toNat < 64), .immediate)]

/-- SI with a code in its low `n` bits and the used register fields named. -/
def siCode (dst sa : Bool) (n : Nat) (f : SI) : Option IllFormed :=
  first [(dst || f.dst == 0, .zeroField), (sa || f.sa == 0, .zeroField), (f.imm.toNat < 2 ^ n, .zeroField)]

/-- SM with the sizes and the scope register it uses. -/
def sm (scope : Bool) (maxSz : Nat) (f : SM) : Option IllFormed :=
  first [(scope || f.sc == 0, .zeroField), (f.sz.toNat ≤ maxSz, .size)]

/-- The registers and KSEL of a V-format instruction. -/
def vRegs (f : FV) : List (Bool × IllFormed) :=
  [(vreg f.vd, .vectorRegister), (vreg f.va, .vectorRegister), (vreg f.vb, .vectorRegister),
   (vreg f.vc, .vectorRegister), (kselOk f.ctl.ksel, .maskSelect)]

/-- The last steps of a V-format check: type, rounding, and the fields that must be zero. -/
def vTail (ty : Bool) (rm : Bool) (f : FV) (fn vb vc aux : Bool) : List (Bool × IllFormed) :=
  [(ty, .typeCode), (rm, .rounding), (fn || f.fn == 0, .zeroField), (vb || f.vb == 0, .zeroField),
   (vc || f.vc == 0, .zeroField), (aux || f.aux == 0, .zeroField)]

/-- TYPE satisfies `ok` or is TAG (03 R43). -/
def orTag (ok : Nat → Bool) (t : BitVec 5) : Bool := ok t.toNat || t == 31

/-- V, two typed sources, rounding for the floating-point types. -/
def vArith (f : FV) : Option IllFormed :=
  first (vRegs f ++ vTail (orTag (fun t => isInt t || isFloat t) f.ctl.ty)
    (rmFor f.ctl.ty.toNat f.ctl.rm.toNat) f false true false false)

/-- V, two sources, TYPE satisfying `ok`, no rounding. -/
def vExact (ok : Nat → Bool) (f : FV) : Option IllFormed :=
  first (vRegs f ++ vTail (orTag ok f.ctl.ty) (f.ctl.rm == 0) f false true false false)

/-- The registers and KSEL of a VS-format instruction. -/
def vsRegs (f : VS) : List (Bool × IllFormed) :=
  [(vreg f.vd, .vectorRegister), (vreg f.va, .vectorRegister), (kselOk f.ctl.ksel, .maskSelect)]

/-- A scalar-operand form (04 R76). -/
def vsForm (ty : Bool) (rm : Bool) (f : VS) : Option IllFormed :=
  first (vsRegs f ++ [(ty, .typeCode), (rm, .rounding), (f.fn == 0, .zeroField), (f.imm == 0, .zeroField)])

/-- A scalar-operand form with exact results. -/
def vsExact (ok : Nat → Bool) (f : VS) : Option IllFormed :=
  vsForm (orTag ok f.ctl.ty) (f.ctl.rm == 0) f

/-- A scalar-operand form that rounds for the floating-point types. -/
def vsArith (f : VS) : Option IllFormed :=
  vsForm (orTag (fun t => isInt t || isFloat t) f.ctl.ty) (rmFor f.ctl.ty.toNat f.ctl.rm.toNat) f

/-- i4, n4, e4... whose elements fill half a byte: i4, n4 and bq4 (05 R83, R98). -/
def isHalfByte (t : Nat) : Bool := t == 14 || t == 15 || t == 17

/-- A vector memory instruction: `strided` for VLDS and VSTS, `indexed` for VLDX and VSTX, `store` for
the stores, whose KP and TP are unused. -/
def vmForm (strided indexed store : Bool) (f : VM) : Option IllFormed :=
  first [(vreg f.vd, .vectorRegister), (kselOk f.ctl.ksel, .maskSelect),
    (orTag isElem f.ctl.ty, .typeCode), (f.ctl.rm == 0, .rounding),
    (!(strided || indexed) || !isHalfByte f.ctl.ty.toNat, .typeCode),
    (strided || indexed || f.sx == 0, .zeroField),
    (!indexed || vreg f.sx, .vectorRegister),
    (!(strided || indexed) || f.off == 0, .zeroField),
    (if indexed then f.mode.toNat ≤ 3 else f.mode == 0, .zeroField),
    (strided || indexed || !isHalfByte f.ctl.ty.toNat || f.off.toNat % 2 == 0, .immediate),
    (!store || (!f.ctl.kp && !f.ctl.tp), .zeroField)]

/-- KLD and KST. -/
def kmForm (store : Bool) (f : VM) : Option IllFormed :=
  first [(decide (f.vd.toNat < 12), .maskRegister), (f.ctl.ksel == 15, .maskSelect), (!f.ctl.kp, .zeroField),
    (!store || !f.ctl.tp, .zeroField), (f.ctl.ty == 0, .zeroField), (f.ctl.rm == 0, .zeroField),
    (f.sx == 0, .zeroField), (f.mode == 0, .zeroField)]

/-- A K-format instruction with the used fields named. -/
def kForm (kd ka kb fn sd off : Bool) (f : FK) : Option IllFormed :=
  first [(decide (f.kd.toNat < 12), .maskRegister), (decide (f.ka.toNat < 12), .maskRegister), (decide (f.kb.toNat < 12), .maskRegister),
    (kd || f.kd == 0, .zeroField), (ka || f.ka == 0, .zeroField), (kb || f.kb == 0, .zeroField),
    (fn || f.fn == 0, .zeroField), (sd || f.sd == 0, .zeroField), (off || f.off == 0, .zeroField)]

/-- An X-format instruction with the used fields named. -/
def xForm (tile sa sb sc sd ty mode : Bool) (f : FX) : Option IllFormed :=
  first [(decide (f.tile.toNat < 12), .tileRegister), (tile || f.tile == 0, .zeroField), (sa || f.sa == 0, .zeroField),
    (sb || f.sb == 0, .zeroField), (sc || f.sc == 0, .zeroField), (sd || f.sd == 0, .zeroField),
    (ty || f.ty == 0, .zeroField), (mode || f.mode == 0, .zeroField)]

/-- The types that MMA multiplies: f16, bf16, e4m3, e5m2 (09 R204; 17 R386). -/
def mmaType (t : Nat) : Bool := t == 8 || t == 9 || t == 12 || t == 13

/-- The types of a matrix stage: those of MMA, bq8 and bq4 (17 R382, R383). -/
def stageType (t : Nat) : Bool := mmaType t || t == 16 || t == 17

/-- The two conditions of `a` and `b` in turn. -/
def also (a b : Option IllFormed) : Option IllFormed := if a.isSome then a else b

/-- The width in bits of an element type (02 R31). -/
def width (t : Nat) : Nat :=
  if t ≤ 1 then 8 else if t ≤ 3 then 16 else if t ≤ 5 then 32 else if t ≤ 7 then 64
  else if t ≤ 9 then 16 else if t == 10 then 32 else if t == 11 then 64 else if t ≤ 13 then 8
  else if t ≤ 15 then 4 else if t == 16 then 8 else if t == 17 then 4 else if t == 18 then 8 else 0

/-- Runs of `m` registers from `a` and `n` from `b` share no register. -/
def disjointRuns (a m b n : Nat) : Bool := a + m ≤ b || b + n ≤ a

end WellFormed

open WellFormed in
/-- The first legality check that an instruction fails, if any. Engine commands and events are no
instruction words, so none of these checks is theirs. -/
def Instr.check : Instr → Option IllFormed
  | .add f => srArith f
  | .addI _ => none
  | .sub f => srArith f
  | .mul f => srArith f
  | .mulh f => srExact isInt f
  | .div f => srExact isInt f
  | .rem f => srExact isInt f
  | .and f => srExact (· == 6) f
  | .andI _ => none
  | .or f => srExact (· == 6) f
  | .orI _ => none
  | .xor f => srExact (· == 6) f
  | .xorI _ => none
  | .shl f => srExact (· == 6) f
  | .shlI f => siShift f
  | .shr f => srExact (· == 6) f
  | .shrI f => siShift f
  | .sra f => srExact (· == 6) f
  | .sraI f => siShift f
  | .cmp f => srExact (fun t => isInt t || isFloat t) f
  | .cmpI _ => none
  | .min f => srExact (fun t => isInt t || isFloat t) f
  | .max f => srExact (fun t => isInt t || isFloat t) f
  | .clz f => srUnary f
  | .ctz f => srUnary f
  | .popc f => srUnary f
  | .brev f => srUnary f
  | .ext f => srExact (fun t => t == 6 || t == 7) f
  | .ins f => srExact (· == 6) f
  | .mov f => srUnary f
  | .sel f => first [(f.fn == 0, .zeroField), (f.ty == 6, .typeCode)]
  | .fma f => first [(f.fn.toNat < 8, .zeroField), (isFloat f.ty.toNat, .typeCode), (rmOk f.fn.toNat, .rounding)]
  | .fdiv f => first [(f.fn == 0, .zeroField), (isFloat f.ty.toNat, .typeCode), (rmOk f.rm.toNat, .rounding)]
  | .fsqrt f => first [(f.sb == 0, .zeroField), (f.fn == 0, .zeroField), (isFloat f.ty.toNat, .typeCode),
      (rmOk f.rm.toNat, .rounding)]
  | .fcvt f => first [(f.sb == 0, .zeroField), (f.fn.toNat < 32, .zeroField), (f.ty.toNat ≤ 13, .typeCode),
      (f.fn.toNat ≤ 13, .typeCode),
      (if isInt f.ty.toNat && isInt f.fn.toNat then f.rm == 0 else rmOk f.rm.toNat, .rounding)]
  | .padd f => srExact (· == 6) f
  | .paddI _ => none
  | .pmake f => srExact (· == 6) f
  | .ptag f => srUnary f
  | .li _ => none
  | .lih f => first [(f.imm.toNat < 2 ^ 31, .immediate)]
  | .br _ => none
  | .jal f => first [(f.sa == 0, .zeroField)]
  | .jr _ => none
  | .subbr _ => none
  | .setvl f => first [(f.imm.toNat < 32, .zeroField), (isElem f.imm.toNat, .typeCode)]
  | .setvlc f => first [(f.fn == 0 || f.fn == 2 || f.fn == 3, .function), (isElem f.ty.toNat, .typeCode)]
  | .trap f => first [(f.dst == 0, .zeroField), (f.sa == 0, .zeroField)]
  | .eret f => srBare false false false f
  | .wfe f => srBare false false false f
  | .hstart f => first [(f.fn.toNat ≤ 1, .function), (f.ty == 0, .zeroField)]
  | .hjoin f => srBare false true false f
  | .hend f => srBare false false false f
  | .hkill f => srBare false true false f
  | .launch f => srBare true true false f
  | .hbind f => srBare false true true f
  | .ecall f => first [(f.dst == 0, .zeroField), (f.sa == 0, .zeroField)]
  | .ld f => sm false 6 f
  | .st f => sm false 3 f
  | .ldacq f => sm true 6 f
  | .strel f => sm true 3 f
  | .amo f => first [(f.aop.toNat ≤ 11, .function), (f.sz.toNat ≤ 3, .size),
      (f.aop.toNat < 9 || 2 ≤ f.sz.toNat, .size)]
  | .amocas f => first [(f.sz.toNat ≤ 3, .size)]
  | .fence f => first [(f.dst == 0, .zeroField), (f.sb == 0, .zeroField), (f.imm.toNat < 4096, .zeroField),
      (f.imm.toNat % 64 != 0 && f.imm.toNat / 64 != 0, .pathSet),
      (!f.imm.getLsbD 5 && !f.imm.getLsbD 11, .pathSet)]
  | .vdrain f => srBare false false false f
  | .bara f => siCode false true 6 f
  | .barw f => siCode false true 6 f
  | .abegin _ => none
  | .aend f => srBare false false false f
  | .aabort f => srBare false false false f
  | .msg f => srBare false true true f
  | .reply f => srBare false true true f
  | .notify f => srBare false true true f
  | .cbres f => siCode true false 3 f
  | .cbput f => siCode false true 3 f
  | .cbget f => siCode true false 3 f
  | .cbfree f => siCode false false 3 f
  | .csrr f => also (siCode true false 12 f) (first [(csrListed f.imm.toNat, .csrNumber)])
  | .csrw f => also (siCode false true 12 f) (first [(csrListed f.imm.toNat, .csrNumber)])
  | .plbinv f => srBare false true false f
  | .pinv f => srBare false true true f
  | .cflush f => first [(f.ds == 0, .zeroField), (f.sc == 0, .zeroField), (f.sz == 0, .zeroField)]
  | .hop f => srBare false true false f
  | .handoff f => srBare false true false f
  | .pmig f => srBare false true true f
  | .vadd f => vArith f
  | .vsub f => vArith f
  | .vmul f => vArith f
  | .vmulh f => vExact isInt f
  | .vmac f => vExact isInt f
  | .vmin f => vExact (fun t => isInt t || isFloat t) f
  | .vmax f => vExact (fun t => isInt t || isFloat t) f
  | .vand f => vExact isElem f
  | .vor f => vExact isElem f
  | .vxor f => vExact isElem f
  | .vshl f => vExact isInt f
  | .vshr f => vExact isInt f
  | .vsra f => vExact isInt f
  | .vcmp f => first ([(decide (f.vd.toNat < 12), .maskRegister), (vreg f.va, .vectorRegister), (vreg f.vb, .vectorRegister),
      (vreg f.vc, .vectorRegister), (kselOk f.ctl.ksel, .maskSelect), (decide (f.fn.toNat ≤ 6), .function)] ++
      vTail (orTag (fun t => isInt t || isFloat t) f.ctl.ty) (f.ctl.rm == 0) f true true false false)
  | .vmerge f => also (vExact isElem f) (first [(!f.ctl.kp, .zeroField)])
  | .vmov f => first (vRegs f ++ vTail (orTag isElem f.ctl.ty) (f.ctl.rm == 0) f false false false false)
  | .vaddS f => vsArith f
  | .vsubS f => vsArith f
  | .vmulS f => vsArith f
  | .vmulhS f => vsExact isInt f
  | .vmacS f => vsExact isInt f
  | .vminS f => vsExact (fun t => isInt t || isFloat t) f
  | .vmaxS f => vsExact (fun t => isInt t || isFloat t) f
  | .vandS f => vsExact isElem f
  | .vorS f => vsExact isElem f
  | .vxorS f => vsExact isElem f
  | .vshlS f => vsExact isInt f
  | .vshrS f => vsExact isInt f
  | .vsraS f => vsExact isInt f
  | .vcmpS f => first [(f.vd.toNat < 12, .maskRegister), (vreg f.va, .vectorRegister), (kselOk f.ctl.ksel, .maskSelect),
      (f.fn.toNat ≤ 6, .function), (orTag (fun t => isInt t || isFloat t) f.ctl.ty, .typeCode),
      (f.ctl.rm == 0, .rounding), (f.imm == 0, .zeroField)]
  | .vmovS f => also (vsForm (isElem f.ctl.ty.toNat) (f.ctl.rm == 0) f) (first [(f.va == 0, .zeroField)])
  | .vslide f => first (vsRegs f ++ [(decide (f.fn.toNat ≤ 1), .function), (orTag isElem f.ctl.ty, .typeCode),
      (f.ctl.rm == 0, .rounding), (f.ctl.ksel == 15, .maskSelect), (!f.ctl.kp, .zeroField), (f.imm == 0, .zeroField)])
  | .vperm f => also (vExact isElem f) (first [(f.ctl.ksel == 15, .maskSelect), (!f.ctl.kp, .zeroField)])
  | .viota f => first (vRegs f ++ (f.va == 0, .zeroField) :: vTail (isInt f.ctl.ty.toNat) (f.ctl.rm == 0) f false false false false)
  | .vext f => first [(vreg f.va, .vectorRegister), (f.ctl.ksel == 15, .maskSelect), (orTag isElem f.ctl.ty, .typeCode),
      (f.ctl.rm == 0, .rounding), (f.fn == 0, .zeroField), (f.imm == 0, .zeroField), (!f.ctl.kp && !f.ctl.tp, .zeroField)]
  | .vins f => first [(vreg f.vd, .vectorRegister), (f.ctl.ksel == 15, .maskSelect), (isElem f.ctl.ty.toNat, .typeCode),
      (f.ctl.rm == 0, .rounding), (f.fn == 0, .zeroField), (f.va == 0, .zeroField), (!f.ctl.kp && !f.ctl.tp, .zeroField)]
  | .vred f => first (vRegs f ++ (decide (f.fn.toNat ≤ 5), .function) ::
      vTail (orTag (fun t => if f.fn.toNat ≤ 2 then isInt t || isFloat t else isInt t) f.ctl.ty)
        (if f.fn == 0 then rmFor f.ctl.ty.toNat f.ctl.rm.toNat else f.ctl.rm == 0) f true false false false)
  | .vdotb f => first (vRegs f ++ [(f.ctl.ksel == 15, .maskSelect), (!f.ctl.kp, .zeroField), (decide (f.aux.toNat < 8), .zeroField)] ++
      vTail (orTag (fun t => t == 16 || t == 17) f.ctl.ty) (f.ctl.rm == 0) f false true true true)
  | .vcvt f => first (vRegs f ++ [(decide (f.fn.toNat < 32), .zeroField), (isElem f.fn.toNat || f.fn == 31, .typeCode)] ++
      vTail (isElem f.ctl.ty.toNat)
        (if isInteger f.ctl.ty.toNat && isInteger f.fn.toNat then f.ctl.rm == 0 else rmOk f.ctl.rm.toNat) f true false false false)
  | .vfmt f => first (vRegs f ++ [(f.ctl.ksel == 15, .maskSelect), (!f.ctl.kp, .zeroField), (decide (f.aux.toNat < 8), .zeroField)] ++
      vTail (isElem f.ctl.ty.toNat) (f.ctl.rm == 0) f false false false true)
  | .vfma f => first (vRegs f ++ vTail (orTag isFloat f.ctl.ty) (rmOk f.ctl.rm.toNat) f false true true false)
  | .vfdiv f => first (vRegs f ++ vTail (orTag isFloat f.ctl.ty) (rmOk f.ctl.rm.toNat) f false true false false)
  | .vfsqrt f => first (vRegs f ++ vTail (orTag isFloat f.ctl.ty) (rmOk f.ctl.rm.toNat) f false false false false)
  | .vfest f => first (vRegs f ++ (decide (f.fn.toNat ≤ 1), .function) ::
      vTail (orTag (· == 10) f.ctl.ty) (f.ctl.rm == 0) f true false false false)
  | .vfexp2 f => first (vRegs f ++ vTail (orTag (· == 10) f.ctl.ty) (rmOk f.ctl.rm.toNat) f false false false false)
  | .vflog2 f => first (vRegs f ++ vTail (orTag (· == 10) f.ctl.ty) (rmOk f.ctl.rm.toNat) f false false false false)
  | .vfsin f => first (vRegs f ++ (decide (f.fn.toNat ≤ 1), .function) ::
      vTail (orTag (· == 10) f.ctl.ty) (rmOk f.ctl.rm.toNat) f true false false false)
  | .vfclass f => first (vRegs f ++ vTail (orTag isFloat f.ctl.ty) (f.ctl.rm == 0) f false false false false)
  | .vld f => vmForm false false false f
  | .vlds f => vmForm true false false f
  | .vldx f => vmForm false true false f
  | .vldff f => vmForm false false false f
  | .vst f => vmForm false false true f
  | .vsts f => vmForm true false true f
  | .vstx f => vmForm false true true f
  | .kld f => kmForm false f
  | .kst f => kmForm true f
  | .klog f => also (kForm true true true true false false f) (first [(f.fn.toNat ≤ 7, .function)])
  | .kmov f => kForm true true false false false false f
  | .kpush f => kForm false true false false false false f
  | .kpop f => kForm false false false false false false f
  | .kelse f => kForm false false false false false false f
  | .kcnt f => kForm false true false false true false f
  | .kfirst f => kForm false true false false true false f
  | .kbr f => also (kForm false false false true false true f) (first [(f.fn.toNat ≤ 1, .function)])
  | .mlease f => xForm false true false false true false false f
  | .mfree f => xForm false false false false false false false f
  | .mtile f => also (xForm false true true true true true true f)
      (first [(stageType f.ty.toNat, .typeCode), (f.mode.toNat ≤ 1, .function)])
  | .mshape f => xForm false false false false true false false f
  | .mzero f => also (xForm true true false false false true false f)
      (first [(f.ty == 10 || f.ty == 19, .typeCode), (f.ty == 19 || f.sa == 0, .zeroField)])
  | .mlda f => also (xForm false true true false false true false f) (first [(stageType f.ty.toNat, .typeCode)])
  | .mldb f => also (xForm false true true false false true false f) (first [(stageType f.ty.toNat, .typeCode)])
  | .mma f => also (xForm true false false true false true true f)
      (first [(mmaType f.ty.toNat, .typeCode), (f.mode.toNat ≤ 1, .function), (f.mode == 1 || f.sc == 0, .zeroField)])
  | .mmab f => also (xForm true true true true false true true f)
      (first [(f.ty == 16 || f.ty == 17, .typeCode), (f.mode.toNat ≤ 1, .function), (f.mode == 1 || f.sc == 0, .zeroField)])
  | .mout f => also (xForm true true true false false true true f)
      (first [(f.ty == 4 || (8 ≤ f.ty.toNat && f.ty.toNat ≤ 10), .typeCode), (rmOk f.mode.toNat, .rounding)])
  | .mwait f => xForm false false false false false false false f
  | .msave f => xForm false true false false false false false f
  | .mrest f => xForm false true false false false false false f
  | .tex f => first (vRegs f ++ [(decide (f.fn.toNat ≤ 1), .function), (decide (f.aux.toNat < 64), .zeroField), (f.ctl.ty == 10, .typeCode),
      (f.ctl.rm == 0, .rounding), (f.vb == 0, .zeroField), (f.vc == 0, .zeroField), (decide (f.va.toNat + 2 < 48), .vectorRegister),
      (decide (f.vd.toNat + 3 < 48), .vectorRegister), (disjointRuns f.va.toNat 3 f.vd.toNat 4, .overlap)])
  | .texg f => first (vRegs f ++ [(decide (f.fn.toNat ≤ 3), .function), (decide (f.aux.toNat < 64), .zeroField), (f.ctl.ty == 10, .typeCode),
      (f.ctl.rm == 0, .rounding), (f.vb == 0, .zeroField), (f.vc == 0, .zeroField), (decide (f.va.toNat + 2 < 48), .vectorRegister),
      (decide (f.vd.toNat + 3 < 48), .vectorRegister), (disjointRuns f.va.toNat 3 f.vd.toNat 4, .overlap)])
  | .rayq f => first (vRegs f ++ [(f.fn == 0, .zeroField), (decide (f.aux.toNat < 64), .zeroField), (f.ctl.ty == 10, .typeCode),
      (f.ctl.rm == 0, .rounding), (f.vb == 0, .zeroField), (f.vc == 0, .zeroField), (decide (f.va.toNat + 7 < 48), .vectorRegister),
      (decide (f.vd.toNat + 3 < 48), .vectorRegister), (disjointRuns f.va.toNat 8 f.vd.toNat 4, .overlap)])
  | .cpy _ => none
  | .cpy2d _ => none
  | .cpyfill _ => none
  | .cpydec _ => none
  | .wload _ => none
  | .rast _ => none
  | .mesh _ => none
  | .blend _ => none
  | .sproj _ => none
  | .ssort _ => none
  | .sblend _ => none
  | .sbwd _ => none
  | .inboxMessage _ => none
  | .handlerMessage _ _ => none
  | .messageAccept _ _ => none
  | .handlerInvocation _ => none
  | .handlerOverrun _ => none
  | .contextWake _ _ => none
  | .setvlcReread _ _ => none
  | .barrierDieReport _ _ => none
  | .regionLengthAbort _ _ => none
  | .vectorAdmission _ => none
  | .arrayGrant _ => none
  | .quantumExpiry _ => none
  | .fireboxCommandRun _ => none
  | .hobRefreshStart _ => none
  | .hobRefreshEnd _ => none
  | .l2DirtyWriteback _ _ => none
  | .l2Eviction _ _ => none
  | .hopArrival _ _ => none
  | .fluePacketAging _ => none
  | .flueInjectionWindow => none
  | .hostRingConsume _ => none
  | .ringTailWrite _ _ => none
  | .ringReset _ => none
  | .ringSkip _ => none
  | .ringResume _ => none
  | .ringConfigWrite _ _ _ => none
  | .dependenceTest _ => none
  | .launchSelection => none
  | .preemptionNoticeTimeout _ _ => none
  | .groupRestore _ _ => none
  | .agingStep => none
  | .occupancySample => none
  | .groupCompletion _ _ => none
  | .supervisorEndLaunch _ => none
  | .nqheadWrite _ _ => none
  | .vdmapWrite _ => none
  | .registerWrite _ _ => none
  | .hostApertureRead _ _ => none
  | .hostApertureWrite _ _ => none
  | .heldHostWriteRelease _ _ => none
  | .hostSnoop _ => none
  | .moduleReset => none
  | .bootgo => none
  | .attest => none
  | .scaleoutFrameReceive _ _ => none
  | .scaleoutDeliveryTimeout _ => none
  | .heartbeatMiss _ => none
  | .linkLoss _ => none
  | .powerInputChange _ => none
  | .junctionThrottle => none
  | .powerAverageExceed => none
  | .junctionTrip => none
  | .unassignedOp _ => none
  | .instructionFetch _ _ => none
  | .fluePacketArrival _ => none
  | .linkNegotiation _ => none
  | .goBackNRetransmission _ _ _ => none
  | .stagingSramWrite _ _ => none

/-- A legal encoding. -/
def Instr.wellFormed (i : Instr) : Bool := i.check.isNone

end Sys2Proof
end

