-- ==== Sys2Proof/Decode.lean ====
section
/-! DEFINITION. The encodings of 03 R53 to R58 and the opcode map of 04 R73: from a 64-bit word to an
instruction or a named refusal, and back; and the engine commands of 04 R80, R81. -/
namespace Sys2Proof

/-- Why a word is no instruction (03 R58). -/
inductive DecodeError where
  /-- A bit of a format's zero field is set (03 R54). -/
  | zeroBits
  /-- GE = 0 with a bit of 51:39 set (03 R56). -/
  | guardBits
  /-- A field value that the entry does not accept (03 R55, R57). -/
  | field (why : IllFormed)
  deriving DecidableEq, Repr

/-- The `n` bits of a word from bit `lo` up. -/
def field (w : Word) (lo n : Nat) : BitVec n := BitVec.ofNat n (w.toNat / 2 ^ lo)

/-- One bit of a word. -/
def flag (w : Word) (i : Nat) : Bool := w.toNat / 2 ^ i % 2 == 1

/-- Bits 63:56 of a word (03 R53). -/
def opcode (w : Word) : Nat := w.toNat / 2 ^ 56 % 256

/-- STALL and the guard, bits 55:39, of a scalar-style word (03 R53, R56). -/
def decodeSCtl (w : Word) : SCtl where
  stall := field w 53 3
  guard := if flag w 52 then some ⟨flag w 51, field w 45 6, field w 39 6⟩ else none

/-- STALL and the vector control, bits 55:39, of a vector-style word (03 R57). -/
def decodeVCtl (w : Word) : VCtl :=
  ⟨field w 53 3, field w 49 4, flag w 48, flag w 47, field w 42 5, field w 39 3⟩

/-- A word of a scalar-style format, with `zero` low bits that must be zero (03 R54, R56). -/
def scalarWord (zero : Nat) (w : Word) (i : Instr) : Except DecodeError Instr :=
  if !flag w 52 && field w 39 13 != 0 then .error .guardBits
  else if field w 0 zero != 0 then .error .zeroBits
  else .ok i

/-- The fields of format SR (03 R54). -/
def decodeSR (w : Word) : SR :=
  ⟨decodeSCtl w, field w 33 6, field w 27 6, field w 21 6, field w 13 8, field w 8 5, field w 5 3⟩

/-- The fields of format SI (03 R54). -/
def decodeSI (w : Word) : SI :=
  ⟨decodeSCtl w, field w 33 6, field w 27 6, field w 0 27⟩

/-- The fields of format SL (03 R54). -/
def decodeSL (w : Word) : SL :=
  ⟨decodeSCtl w, field w 33 6, field w 0 33⟩

/-- The fields of format BR (03 R54). -/
def decodeBR (w : Word) : BR :=
  ⟨decodeSCtl w, field w 0 39⟩

/-- The fields of format SB (03 R54). -/
def decodeSB (w : Word) : SB :=
  ⟨decodeSCtl w, field w 33 6, field w 27 6, field w 0 27⟩

/-- The fields of format SQ (03 R54). -/
def decodeSQ (w : Word) : SQ :=
  ⟨decodeSCtl w, field w 33 6, field w 27 6, field w 21 6, field w 15 6, field w 7 8, field w 2 5⟩

/-- The fields of format SM (03 R54). -/
def decodeSM (w : Word) : SM :=
  ⟨decodeSCtl w, field w 33 6, field w 27 6, field w 21 6, field w 3 18, field w 0 3⟩

/-- The fields of format SA (03 R54). -/
def decodeSA (w : Word) : SA :=
  ⟨decodeSCtl w, field w 33 6, field w 27 6, field w 21 6, field w 15 6, field w 10 5, field w 8 2, flag w 7, field w 4 3⟩

/-- The fields of format SAC (03 R54). -/
def decodeSAC (w : Word) : SAC :=
  ⟨decodeSCtl w, field w 33 6, field w 27 6, field w 21 6, field w 15 6, field w 9 6, field w 7 2, flag w 6, field w 3 3⟩

/-- The fields of format V (03 R54). -/
def decodeFV (w : Word) : FV :=
  ⟨decodeVCtl w, field w 33 6, field w 27 6, field w 21 6, field w 15 6, field w 7 8, field w 0 7⟩

/-- The fields of format VS (03 R54). -/
def decodeVS (w : Word) : VS :=
  ⟨decodeVCtl w, field w 33 6, field w 27 6, field w 21 6, field w 13 8, field w 0 13⟩

/-- The fields of format VM (03 R54). -/
def decodeVM (w : Word) : VM :=
  ⟨decodeVCtl w, field w 33 6, field w 27 6, field w 21 6, field w 5 16, field w 0 5⟩

/-- The fields of format K (03 R54). -/
def decodeFK (w : Word) : FK :=
  ⟨decodeSCtl w, field w 35 4, field w 31 4, field w 27 4, field w 19 8, field w 13 6, field w 0 13⟩

/-- The fields of format X (03 R54). -/
def decodeFX (w : Word) : FX :=
  ⟨decodeSCtl w, field w 35 4, field w 29 6, field w 23 6, field w 17 6, field w 11 6, field w 6 5, field w 0 6⟩

/-- The fields of format Y (03 R54). -/
def decodeFY (w : Word) : FY :=
  ⟨decodeSCtl w, field w 33 6, field w 27 6, field w 21 6, field w 0 21⟩

/-- The instruction whose OP and fields a word holds, whatever the values of the fields; an unassigned OP,
and the two words of 03 R58, give the instruction that only traps (04 R74). -/
def decodeFields (w : Word) : Except DecodeError Instr :=
  match opcode w with
  | 0x01 => scalarWord 5 w (.add (decodeSR w))
  | 0x02 => scalarWord 5 w (.sub (decodeSR w))
  | 0x03 => scalarWord 5 w (.mul (decodeSR w))
  | 0x04 => scalarWord 5 w (.mulh (decodeSR w))
  | 0x05 => scalarWord 5 w (.div (decodeSR w))
  | 0x06 => scalarWord 5 w (.rem (decodeSR w))
  | 0x07 => scalarWord 5 w (.and (decodeSR w))
  | 0x08 => scalarWord 5 w (.or (decodeSR w))
  | 0x09 => scalarWord 5 w (.xor (decodeSR w))
  | 0x0A => scalarWord 5 w (.shl (decodeSR w))
  | 0x0B => scalarWord 5 w (.shr (decodeSR w))
  | 0x0C => scalarWord 5 w (.sra (decodeSR w))
  | 0x0D => scalarWord 5 w (.cmp (decodeSR w))
  | 0x0E => scalarWord 5 w (.min (decodeSR w))
  | 0x0F => scalarWord 5 w (.max (decodeSR w))
  | 0x10 => scalarWord 5 w (.clz (decodeSR w))
  | 0x11 => scalarWord 5 w (.ctz (decodeSR w))
  | 0x12 => scalarWord 5 w (.popc (decodeSR w))
  | 0x13 => scalarWord 5 w (.brev (decodeSR w))
  | 0x14 => scalarWord 5 w (.ext (decodeSR w))
  | 0x15 => scalarWord 5 w (.ins (decodeSR w))
  | 0x16 => scalarWord 5 w (.mov (decodeSR w))
  | 0x17 => scalarWord 2 w (.sel (decodeSQ w))
  | 0x18 => scalarWord 2 w (.fma (decodeSQ w))
  | 0x19 => scalarWord 5 w (.fdiv (decodeSR w))
  | 0x1A => scalarWord 5 w (.fsqrt (decodeSR w))
  | 0x1B => scalarWord 5 w (.fcvt (decodeSR w))
  | 0x1C => scalarWord 5 w (.padd (decodeSR w))
  | 0x1D => scalarWord 5 w (.pmake (decodeSR w))
  | 0x1E => scalarWord 5 w (.ptag (decodeSR w))
  | 0x21 => scalarWord 0 w (.addI (decodeSI w))
  | 0x27 => scalarWord 0 w (.andI (decodeSI w))
  | 0x28 => scalarWord 0 w (.orI (decodeSI w))
  | 0x29 => scalarWord 0 w (.xorI (decodeSI w))
  | 0x2A => scalarWord 0 w (.shlI (decodeSI w))
  | 0x2B => scalarWord 0 w (.shrI (decodeSI w))
  | 0x2C => scalarWord 0 w (.sraI (decodeSI w))
  | 0x2D => scalarWord 0 w (.cmpI (decodeSI w))
  | 0x30 => scalarWord 0 w (.li (decodeSL w))
  | 0x31 => scalarWord 0 w (.lih (decodeSL w))
  | 0x3C => scalarWord 0 w (.paddI (decodeSI w))
  | 0x40 => scalarWord 0 w (.br (decodeBR w))
  | 0x41 => scalarWord 0 w (.jal (decodeSI w))
  | 0x42 => scalarWord 0 w (.jr (decodeSI w))
  | 0x43 => scalarWord 0 w (.subbr (decodeSB w))
  | 0x44 => scalarWord 0 w (.setvl (decodeSI w))
  | 0x45 => scalarWord 2 w (.setvlc (decodeSQ w))
  | 0x46 => scalarWord 0 w (.trap (decodeSI w))
  | 0x47 => scalarWord 5 w (.eret (decodeSR w))
  | 0x48 => scalarWord 5 w (.wfe (decodeSR w))
  | 0x49 => scalarWord 2 w (.hstart (decodeSQ w))
  | 0x4A => scalarWord 5 w (.hjoin (decodeSR w))
  | 0x4B => scalarWord 5 w (.hend (decodeSR w))
  | 0x4C => scalarWord 5 w (.hkill (decodeSR w))
  | 0x4D => scalarWord 5 w (.launch (decodeSR w))
  | 0x4E => scalarWord 5 w (.hbind (decodeSR w))
  | 0x4F => scalarWord 0 w (.ecall (decodeSI w))
  | 0x50 => scalarWord 0 w (.ld (decodeSM w))
  | 0x51 => scalarWord 0 w (.st (decodeSM w))
  | 0x52 => scalarWord 0 w (.ldacq (decodeSM w))
  | 0x53 => scalarWord 0 w (.strel (decodeSM w))
  | 0x54 => scalarWord 4 w (.amo (decodeSA w))
  | 0x55 => scalarWord 3 w (.amocas (decodeSAC w))
  | 0x56 => scalarWord 0 w (.fence (decodeFY w))
  | 0x57 => scalarWord 5 w (.vdrain (decodeSR w))
  | 0x58 => scalarWord 0 w (.bara (decodeSI w))
  | 0x59 => scalarWord 0 w (.barw (decodeSI w))
  | 0x5A => scalarWord 0 w (.abegin (decodeBR w))
  | 0x5B => scalarWord 5 w (.aend (decodeSR w))
  | 0x5C => scalarWord 5 w (.aabort (decodeSR w))
  | 0x60 => scalarWord 5 w (.msg (decodeSR w))
  | 0x61 => scalarWord 5 w (.reply (decodeSR w))
  | 0x62 => scalarWord 5 w (.notify (decodeSR w))
  | 0x63 => scalarWord 0 w (.cbres (decodeSI w))
  | 0x64 => scalarWord 0 w (.cbput (decodeSI w))
  | 0x65 => scalarWord 0 w (.cbget (decodeSI w))
  | 0x66 => scalarWord 0 w (.cbfree (decodeSI w))
  | 0x70 => scalarWord 0 w (.csrr (decodeSI w))
  | 0x71 => scalarWord 0 w (.csrw (decodeSI w))
  | 0x72 => scalarWord 5 w (.plbinv (decodeSR w))
  | 0x73 => scalarWord 5 w (.pinv (decodeSR w))
  | 0x74 => scalarWord 0 w (.cflush (decodeSM w))
  | 0x75 => scalarWord 5 w (.hop (decodeSR w))
  | 0x76 => scalarWord 5 w (.handoff (decodeSR w))
  | 0x77 => scalarWord 5 w (.pmig (decodeSR w))
  | 0x80 => .ok (.vadd (decodeFV w))
  | 0x81 => .ok (.vsub (decodeFV w))
  | 0x82 => .ok (.vmul (decodeFV w))
  | 0x83 => .ok (.vmulh (decodeFV w))
  | 0x84 => .ok (.vmac (decodeFV w))
  | 0x85 => .ok (.vmin (decodeFV w))
  | 0x86 => .ok (.vmax (decodeFV w))
  | 0x87 => .ok (.vand (decodeFV w))
  | 0x88 => .ok (.vor (decodeFV w))
  | 0x89 => .ok (.vxor (decodeFV w))
  | 0x8A => .ok (.vshl (decodeFV w))
  | 0x8B => .ok (.vshr (decodeFV w))
  | 0x8C => .ok (.vsra (decodeFV w))
  | 0x8D => .ok (.vcmp (decodeFV w))
  | 0x8E => .ok (.vmerge (decodeFV w))
  | 0x8F => .ok (.vmov (decodeFV w))
  | 0x90 => .ok (.vslide (decodeVS w))
  | 0x91 => .ok (.vperm (decodeFV w))
  | 0x92 => .ok (.viota (decodeFV w))
  | 0x93 => .ok (.vext (decodeVS w))
  | 0x94 => .ok (.vins (decodeVS w))
  | 0x95 => .ok (.vred (decodeFV w))
  | 0x96 => .ok (.vdotb (decodeFV w))
  | 0x97 => .ok (.vcvt (decodeFV w))
  | 0x98 => .ok (.vfmt (decodeFV w))
  | 0xA0 => .ok (.vaddS (decodeVS w))
  | 0xA1 => .ok (.vsubS (decodeVS w))
  | 0xA2 => .ok (.vmulS (decodeVS w))
  | 0xA3 => .ok (.vmulhS (decodeVS w))
  | 0xA4 => .ok (.vmacS (decodeVS w))
  | 0xA5 => .ok (.vminS (decodeVS w))
  | 0xA6 => .ok (.vmaxS (decodeVS w))
  | 0xA7 => .ok (.vandS (decodeVS w))
  | 0xA8 => .ok (.vorS (decodeVS w))
  | 0xA9 => .ok (.vxorS (decodeVS w))
  | 0xAA => .ok (.vshlS (decodeVS w))
  | 0xAB => .ok (.vshrS (decodeVS w))
  | 0xAC => .ok (.vsraS (decodeVS w))
  | 0xAD => .ok (.vcmpS (decodeVS w))
  | 0xAF => .ok (.vmovS (decodeVS w))
  | 0xB0 => .ok (.vfma (decodeFV w))
  | 0xB1 => .ok (.vfdiv (decodeFV w))
  | 0xB2 => .ok (.vfsqrt (decodeFV w))
  | 0xB3 => .ok (.vfest (decodeFV w))
  | 0xB4 => .ok (.vfexp2 (decodeFV w))
  | 0xB5 => .ok (.vflog2 (decodeFV w))
  | 0xB6 => .ok (.vfsin (decodeFV w))
  | 0xB7 => .ok (.vfclass (decodeFV w))
  | 0xC0 => .ok (.vld (decodeVM w))
  | 0xC1 => .ok (.vlds (decodeVM w))
  | 0xC2 => .ok (.vldx (decodeVM w))
  | 0xC3 => .ok (.vldff (decodeVM w))
  | 0xC4 => .ok (.vst (decodeVM w))
  | 0xC5 => .ok (.vsts (decodeVM w))
  | 0xC6 => .ok (.vstx (decodeVM w))
  | 0xC7 => .ok (.kld (decodeVM w))
  | 0xC8 => .ok (.kst (decodeVM w))
  | 0xD0 => scalarWord 0 w (.klog (decodeFK w))
  | 0xD1 => scalarWord 0 w (.kmov (decodeFK w))
  | 0xD2 => scalarWord 0 w (.kpush (decodeFK w))
  | 0xD3 => scalarWord 0 w (.kpop (decodeFK w))
  | 0xD4 => scalarWord 0 w (.kelse (decodeFK w))
  | 0xD5 => scalarWord 0 w (.kcnt (decodeFK w))
  | 0xD6 => scalarWord 0 w (.kfirst (decodeFK w))
  | 0xD7 => scalarWord 0 w (.kbr (decodeFK w))
  | 0xE0 => scalarWord 0 w (.mlease (decodeFX w))
  | 0xE1 => scalarWord 0 w (.mfree (decodeFX w))
  | 0xE2 => scalarWord 0 w (.mtile (decodeFX w))
  | 0xE3 => scalarWord 0 w (.mshape (decodeFX w))
  | 0xE4 => scalarWord 0 w (.mzero (decodeFX w))
  | 0xE5 => scalarWord 0 w (.mlda (decodeFX w))
  | 0xE6 => scalarWord 0 w (.mldb (decodeFX w))
  | 0xE7 => scalarWord 0 w (.mma (decodeFX w))
  | 0xE8 => scalarWord 0 w (.mmab (decodeFX w))
  | 0xE9 => scalarWord 0 w (.mout (decodeFX w))
  | 0xEA => scalarWord 0 w (.mwait (decodeFX w))
  | 0xEB => scalarWord 0 w (.msave (decodeFX w))
  | 0xEC => scalarWord 0 w (.mrest (decodeFX w))
  | 0xF0 => .ok (.tex (decodeFV w))
  | 0xF1 => .ok (.texg (decodeFV w))
  | 0xF2 => .ok (.rayq (decodeFV w))
  | _ => .ok (.unassignedOp w)

/-- The instruction of a word, or why there is none. -/
def decode (w : Word) : Except DecodeError Instr :=
  match decodeFields w with
  | .error e => .error e
  | .ok i => match i.check with
    | none => .ok i
    | some why => .error (.field why)

/-- A bit as a number. -/
def bitN (b : Bool) : Nat := if b then 1 else 0

/-- Bits 55:39 of a scalar-style word. -/
def encodeSCtl (c : SCtl) : Nat :=
  c.stall.toNat * 2 ^ 53 + match c.guard with
  | none => 0
  | some g => 2 ^ 52 + bitN g.gn * 2 ^ 51 + g.greg.toNat * 2 ^ 45 + g.gbit.toNat * 2 ^ 39

/-- Bits 55:39 of a vector-style word. -/
def encodeVCtl (c : VCtl) : Nat :=
  c.stall.toNat * 2 ^ 53 + c.ksel.toNat * 2 ^ 49 + bitN c.kp * 2 ^ 48 + bitN c.tp * 2 ^ 47 +
    c.ty.toNat * 2 ^ 42 + c.rm.toNat * 2 ^ 39

/-- A word of format SR (03 R54). -/
def encodeSR (op : Nat) (f : SR) : Word :=
  BitVec.ofNat 64 (op * 2 ^ 56 + encodeSCtl f.ctl + f.dst.toNat * 2 ^ 33 + f.sa.toNat * 2 ^ 27 +
    f.sb.toNat * 2 ^ 21 + f.fn.toNat * 2 ^ 13 + f.ty.toNat * 2 ^ 8 + f.rm.toNat * 2 ^ 5)

/-- A word of format SI (03 R54). -/
def encodeSI (op : Nat) (f : SI) : Word :=
  BitVec.ofNat 64 (op * 2 ^ 56 + encodeSCtl f.ctl + f.dst.toNat * 2 ^ 33 + f.sa.toNat * 2 ^ 27 + f.imm.toNat)

/-- A word of format SL (03 R54). -/
def encodeSL (op : Nat) (f : SL) : Word :=
  BitVec.ofNat 64 (op * 2 ^ 56 + encodeSCtl f.ctl + f.dst.toNat * 2 ^ 33 + f.imm.toNat)

/-- A word of format BR (03 R54). -/
def encodeBR (op : Nat) (f : BR) : Word :=
  BitVec.ofNat 64 (op * 2 ^ 56 + encodeSCtl f.ctl + f.off.toNat)

/-- A word of format SB (03 R54). -/
def encodeSB (op : Nat) (f : SB) : Word :=
  BitVec.ofNat 64 (op * 2 ^ 56 + encodeSCtl f.ctl + f.sa.toNat * 2 ^ 33 + f.sb.toNat * 2 ^ 27 + f.off.toNat)

/-- A word of format SQ (03 R54). -/
def encodeSQ (op : Nat) (f : SQ) : Word :=
  BitVec.ofNat 64 (op * 2 ^ 56 + encodeSCtl f.ctl + f.dst.toNat * 2 ^ 33 + f.sa.toNat * 2 ^ 27 +
    f.sb.toNat * 2 ^ 21 + f.sc.toNat * 2 ^ 15 + f.fn.toNat * 2 ^ 7 + f.ty.toNat * 2 ^ 2)

/-- A word of format SM (03 R54). -/
def encodeSM (op : Nat) (f : SM) : Word :=
  BitVec.ofNat 64 (op * 2 ^ 56 + encodeSCtl f.ctl + f.ds.toNat * 2 ^ 33 +
    f.base.toNat * 2 ^ 27 + f.sc.toNat * 2 ^ 21 + f.off.toNat * 2 ^ 3 + f.sz.toNat)

/-- A word of format SA (03 R54). -/
def encodeSA (op : Nat) (f : SA) : Word :=
  BitVec.ofNat 64 (op * 2 ^ 56 + encodeSCtl f.ctl + f.dst.toNat * 2 ^ 33 + f.base.toNat * 2 ^ 27 + f.val.toNat * 2 ^ 21 +
    f.sc.toNat * 2 ^ 15 + f.aop.toNat * 2 ^ 10 + f.ord.toNat * 2 ^ 8 + bitN f.prm * 2 ^ 7 + f.sz.toNat * 2 ^ 4)

/-- A word of format SAC (03 R54). -/
def encodeSAC (op : Nat) (f : SAC) : Word :=
  BitVec.ofNat 64 (op * 2 ^ 56 + encodeSCtl f.ctl + f.dst.toNat * 2 ^ 33 + f.base.toNat * 2 ^ 27 + f.exp.toNat * 2 ^ 21 +
    f.new.toNat * 2 ^ 15 + f.sc.toNat * 2 ^ 9 + f.ord.toNat * 2 ^ 7 + bitN f.prm * 2 ^ 6 + f.sz.toNat * 2 ^ 3)

/-- A word of format V (03 R54). -/
def encodeFV (op : Nat) (f : FV) : Word :=
  BitVec.ofNat 64 (op * 2 ^ 56 + encodeVCtl f.ctl + f.vd.toNat * 2 ^ 33 + f.va.toNat * 2 ^ 27 +
    f.vb.toNat * 2 ^ 21 + f.vc.toNat * 2 ^ 15 + f.fn.toNat * 2 ^ 7 + f.aux.toNat)

/-- A word of format VS (03 R54). -/
def encodeVS (op : Nat) (f : VS) : Word :=
  BitVec.ofNat 64 (op * 2 ^ 56 + encodeVCtl f.ctl + f.vd.toNat * 2 ^ 33 +
    f.va.toNat * 2 ^ 27 + f.sb.toNat * 2 ^ 21 + f.fn.toNat * 2 ^ 13 + f.imm.toNat)

/-- A word of format VM (03 R54). -/
def encodeVM (op : Nat) (f : VM) : Word :=
  BitVec.ofNat 64 (op * 2 ^ 56 + encodeVCtl f.ctl + f.vd.toNat * 2 ^ 33 +
    f.base.toNat * 2 ^ 27 + f.sx.toNat * 2 ^ 21 + f.off.toNat * 2 ^ 5 + f.mode.toNat)

/-- A word of format K (03 R54). -/
def encodeFK (op : Nat) (f : FK) : Word :=
  BitVec.ofNat 64 (op * 2 ^ 56 + encodeSCtl f.ctl + f.kd.toNat * 2 ^ 35 + f.ka.toNat * 2 ^ 31 +
    f.kb.toNat * 2 ^ 27 + f.fn.toNat * 2 ^ 19 + f.sd.toNat * 2 ^ 13 + f.off.toNat)

/-- A word of format X (03 R54). -/
def encodeFX (op : Nat) (f : FX) : Word :=
  BitVec.ofNat 64 (op * 2 ^ 56 + encodeSCtl f.ctl + f.tile.toNat * 2 ^ 35 + f.sa.toNat * 2 ^ 29 +
    f.sb.toNat * 2 ^ 23 + f.sc.toNat * 2 ^ 17 + f.sd.toNat * 2 ^ 11 + f.ty.toNat * 2 ^ 6 + f.mode.toNat)

/-- A word of format Y (03 R54). -/
def encodeFY (op : Nat) (f : FY) : Word :=
  BitVec.ofNat 64 (op * 2 ^ 56 + encodeSCtl f.ctl + f.dst.toNat * 2 ^ 33 +
    f.sa.toNat * 2 ^ 27 + f.sb.toNat * 2 ^ 21 + f.imm.toNat)

/-- The word of an instruction (03 R53, R54; 04 R73). An engine command or an event has none; an unassigned
word stands for itself. -/
def encode : Instr → Word
  | .add f => encodeSR 0x01 f
  | .addI f => encodeSI 0x21 f
  | .sub f => encodeSR 0x02 f
  | .mul f => encodeSR 0x03 f
  | .mulh f => encodeSR 0x04 f
  | .div f => encodeSR 0x05 f
  | .rem f => encodeSR 0x06 f
  | .and f => encodeSR 0x07 f
  | .andI f => encodeSI 0x27 f
  | .or f => encodeSR 0x08 f
  | .orI f => encodeSI 0x28 f
  | .xor f => encodeSR 0x09 f
  | .xorI f => encodeSI 0x29 f
  | .shl f => encodeSR 0x0A f
  | .shlI f => encodeSI 0x2A f
  | .shr f => encodeSR 0x0B f
  | .shrI f => encodeSI 0x2B f
  | .sra f => encodeSR 0x0C f
  | .sraI f => encodeSI 0x2C f
  | .cmp f => encodeSR 0x0D f
  | .cmpI f => encodeSI 0x2D f
  | .min f => encodeSR 0x0E f
  | .max f => encodeSR 0x0F f
  | .clz f => encodeSR 0x10 f
  | .ctz f => encodeSR 0x11 f
  | .popc f => encodeSR 0x12 f
  | .brev f => encodeSR 0x13 f
  | .ext f => encodeSR 0x14 f
  | .ins f => encodeSR 0x15 f
  | .mov f => encodeSR 0x16 f
  | .sel f => encodeSQ 0x17 f
  | .fma f => encodeSQ 0x18 f
  | .fdiv f => encodeSR 0x19 f
  | .fsqrt f => encodeSR 0x1A f
  | .fcvt f => encodeSR 0x1B f
  | .padd f => encodeSR 0x1C f
  | .paddI f => encodeSI 0x3C f
  | .pmake f => encodeSR 0x1D f
  | .ptag f => encodeSR 0x1E f
  | .li f => encodeSL 0x30 f
  | .lih f => encodeSL 0x31 f
  | .br f => encodeBR 0x40 f
  | .jal f => encodeSI 0x41 f
  | .jr f => encodeSI 0x42 f
  | .subbr f => encodeSB 0x43 f
  | .setvl f => encodeSI 0x44 f
  | .setvlc f => encodeSQ 0x45 f
  | .trap f => encodeSI 0x46 f
  | .eret f => encodeSR 0x47 f
  | .wfe f => encodeSR 0x48 f
  | .hstart f => encodeSQ 0x49 f
  | .hjoin f => encodeSR 0x4A f
  | .hend f => encodeSR 0x4B f
  | .hkill f => encodeSR 0x4C f
  | .launch f => encodeSR 0x4D f
  | .hbind f => encodeSR 0x4E f
  | .ecall f => encodeSI 0x4F f
  | .ld f => encodeSM 0x50 f
  | .st f => encodeSM 0x51 f
  | .ldacq f => encodeSM 0x52 f
  | .strel f => encodeSM 0x53 f
  | .amo f => encodeSA 0x54 f
  | .amocas f => encodeSAC 0x55 f
  | .fence f => encodeFY 0x56 f
  | .vdrain f => encodeSR 0x57 f
  | .bara f => encodeSI 0x58 f
  | .barw f => encodeSI 0x59 f
  | .abegin f => encodeBR 0x5A f
  | .aend f => encodeSR 0x5B f
  | .aabort f => encodeSR 0x5C f
  | .msg f => encodeSR 0x60 f
  | .reply f => encodeSR 0x61 f
  | .notify f => encodeSR 0x62 f
  | .cbres f => encodeSI 0x63 f
  | .cbput f => encodeSI 0x64 f
  | .cbget f => encodeSI 0x65 f
  | .cbfree f => encodeSI 0x66 f
  | .csrr f => encodeSI 0x70 f
  | .csrw f => encodeSI 0x71 f
  | .plbinv f => encodeSR 0x72 f
  | .pinv f => encodeSR 0x73 f
  | .cflush f => encodeSM 0x74 f
  | .hop f => encodeSR 0x75 f
  | .handoff f => encodeSR 0x76 f
  | .pmig f => encodeSR 0x77 f
  | .vadd f => encodeFV 0x80 f
  | .vsub f => encodeFV 0x81 f
  | .vmul f => encodeFV 0x82 f
  | .vmulh f => encodeFV 0x83 f
  | .vmac f => encodeFV 0x84 f
  | .vmin f => encodeFV 0x85 f
  | .vmax f => encodeFV 0x86 f
  | .vand f => encodeFV 0x87 f
  | .vor f => encodeFV 0x88 f
  | .vxor f => encodeFV 0x89 f
  | .vshl f => encodeFV 0x8A f
  | .vshr f => encodeFV 0x8B f
  | .vsra f => encodeFV 0x8C f
  | .vcmp f => encodeFV 0x8D f
  | .vmerge f => encodeFV 0x8E f
  | .vmov f => encodeFV 0x8F f
  | .vaddS f => encodeVS 0xA0 f
  | .vsubS f => encodeVS 0xA1 f
  | .vmulS f => encodeVS 0xA2 f
  | .vmulhS f => encodeVS 0xA3 f
  | .vmacS f => encodeVS 0xA4 f
  | .vminS f => encodeVS 0xA5 f
  | .vmaxS f => encodeVS 0xA6 f
  | .vandS f => encodeVS 0xA7 f
  | .vorS f => encodeVS 0xA8 f
  | .vxorS f => encodeVS 0xA9 f
  | .vshlS f => encodeVS 0xAA f
  | .vshrS f => encodeVS 0xAB f
  | .vsraS f => encodeVS 0xAC f
  | .vcmpS f => encodeVS 0xAD f
  | .vmovS f => encodeVS 0xAF f
  | .vslide f => encodeVS 0x90 f
  | .vperm f => encodeFV 0x91 f
  | .viota f => encodeFV 0x92 f
  | .vext f => encodeVS 0x93 f
  | .vins f => encodeVS 0x94 f
  | .vred f => encodeFV 0x95 f
  | .vdotb f => encodeFV 0x96 f
  | .vcvt f => encodeFV 0x97 f
  | .vfmt f => encodeFV 0x98 f
  | .vfma f => encodeFV 0xB0 f
  | .vfdiv f => encodeFV 0xB1 f
  | .vfsqrt f => encodeFV 0xB2 f
  | .vfest f => encodeFV 0xB3 f
  | .vfexp2 f => encodeFV 0xB4 f
  | .vflog2 f => encodeFV 0xB5 f
  | .vfsin f => encodeFV 0xB6 f
  | .vfclass f => encodeFV 0xB7 f
  | .vld f => encodeVM 0xC0 f
  | .vlds f => encodeVM 0xC1 f
  | .vldx f => encodeVM 0xC2 f
  | .vldff f => encodeVM 0xC3 f
  | .vst f => encodeVM 0xC4 f
  | .vsts f => encodeVM 0xC5 f
  | .vstx f => encodeVM 0xC6 f
  | .kld f => encodeVM 0xC7 f
  | .kst f => encodeVM 0xC8 f
  | .klog f => encodeFK 0xD0 f
  | .kmov f => encodeFK 0xD1 f
  | .kpush f => encodeFK 0xD2 f
  | .kpop f => encodeFK 0xD3 f
  | .kelse f => encodeFK 0xD4 f
  | .kcnt f => encodeFK 0xD5 f
  | .kfirst f => encodeFK 0xD6 f
  | .kbr f => encodeFK 0xD7 f
  | .mlease f => encodeFX 0xE0 f
  | .mfree f => encodeFX 0xE1 f
  | .mtile f => encodeFX 0xE2 f
  | .mshape f => encodeFX 0xE3 f
  | .mzero f => encodeFX 0xE4 f
  | .mlda f => encodeFX 0xE5 f
  | .mldb f => encodeFX 0xE6 f
  | .mma f => encodeFX 0xE7 f
  | .mmab f => encodeFX 0xE8 f
  | .mout f => encodeFX 0xE9 f
  | .mwait f => encodeFX 0xEA f
  | .msave f => encodeFX 0xEB f
  | .mrest f => encodeFX 0xEC f
  | .tex f => encodeFV 0xF0 f
  | .texg f => encodeFV 0xF1 f
  | .rayq f => encodeFV 0xF2 f
  | .cpy _ => 0
  | .cpy2d _ => 0
  | .cpyfill _ => 0
  | .cpydec _ => 0
  | .wload _ => 0
  | .rast _ => 0
  | .mesh _ => 0
  | .blend _ => 0
  | .sproj _ => 0
  | .ssort _ => 0
  | .sblend _ => 0
  | .sbwd _ => 0
  | .inboxMessage _ => 0
  | .handlerMessage _ _ => 0
  | .messageAccept _ _ => 0
  | .handlerInvocation _ => 0
  | .handlerOverrun _ => 0
  | .contextWake _ _ => 0
  | .setvlcReread _ _ => 0
  | .barrierDieReport _ _ => 0
  | .regionLengthAbort _ _ => 0
  | .vectorAdmission _ => 0
  | .arrayGrant _ => 0
  | .quantumExpiry _ => 0
  | .fireboxCommandRun _ => 0
  | .hobRefreshStart _ => 0
  | .hobRefreshEnd _ => 0
  | .l2DirtyWriteback _ _ => 0
  | .l2Eviction _ _ => 0
  | .hopArrival _ _ => 0
  | .fluePacketAging _ => 0
  | .flueInjectionWindow => 0
  | .hostRingConsume _ => 0
  | .ringTailWrite _ _ => 0
  | .ringReset _ => 0
  | .ringSkip _ => 0
  | .ringResume _ => 0
  | .ringConfigWrite _ _ _ => 0
  | .dependenceTest _ => 0
  | .launchSelection => 0
  | .preemptionNoticeTimeout _ _ => 0
  | .groupRestore _ _ => 0
  | .agingStep => 0
  | .occupancySample => 0
  | .groupCompletion _ _ => 0
  | .supervisorEndLaunch _ => 0
  | .nqheadWrite _ _ => 0
  | .vdmapWrite _ => 0
  | .registerWrite _ _ => 0
  | .hostApertureRead _ _ => 0
  | .hostApertureWrite _ _ => 0
  | .heldHostWriteRelease _ _ => 0
  | .hostSnoop _ => 0
  | .moduleReset => 0
  | .bootgo => 0
  | .attest => 0
  | .scaleoutFrameReceive _ _ => 0
  | .scaleoutDeliveryTimeout _ => 0
  | .heartbeatMiss _ => 0
  | .linkLoss _ => 0
  | .powerInputChange _ => 0
  | .junctionThrottle => 0
  | .powerAverageExceed => 0
  | .junctionTrip => 0
  | .unassignedOp w => w
  | .instructionFetch _ _ => 0
  | .fluePacketArrival _ => 0
  | .linkNegotiation _ => 0
  | .goBackNRetransmission _ _ _ => 0
  | .stagingSramWrite _ _ => 0

/-- The instruction that the decoder reads from an instruction of `nbits` bits with value `w`, bit 0 the
least significant bit of the little-endian word; the bits above `nbits` are zero. -/
def decodeTableWord (nbits w : Nat) : Option Instr :=
  match decode (BitVec.ofNat 64 (w % 2 ^ nbits)) with
  | .ok i => some i
  | .error _ => none

/-- The command code of a message, header bits 63:56 (08 R167). -/
def Message.cmd (m : Message) : Nat := bits m.w0 63 56

/-- The message requests a reply, header bit 51 (08 R167). -/
def Message.rr (m : Message) : Bool := bitAt m.w0 51

/-- The engine command that an agent's message names, at the agent classes of 04 R80: instances 0 to 3 are
the copy engines, 4 the rasteriser, 5 the mesh distributor, 6 the blend unit, 7 the splat unit. -/
def decodeCommand (c : Command) : Option Instr :=
  if c.inst.val < 4 then
    match c.msg.cmd with
    | 0x10 => some (.cpy c)
    | 0x11 => some (.cpy2d c)
    | 0x12 => some (.cpyfill c)
    | 0x13 => some (.cpydec c)
    | 0x14 => some (.wload c)
    | _ => none
  else if c.inst.val == 4 then if c.msg.cmd == 0x20 then some (.rast c) else none
  else if c.inst.val == 5 then if c.msg.cmd == 0x21 then some (.mesh c) else none
  else if c.inst.val == 6 then if c.msg.cmd == 0x22 then some (.blend c) else none
  else
    match c.msg.cmd with
    | 0x30 => some (.sproj c)
    | 0x31 => some (.ssort c)
    | 0x32 => some (.sblend c)
    | 0x33 => some (.sbwd c)
    | _ => none

end Sys2Proof
end

