-- ==== Sys2Proof/Config.lean ====
section
/-! DEFINITION. What the OXH-5120 fixes (00 R1) and the values that the spec leaves open, as constants
without a body that no proof can see into. -/
namespace Sys2Proof.Config

/-- VLEN in bits (00 R1). -/
def vlen : Nat := 4096

/-- The block-length code L of this part, 3 for 24 elements (00 R1, 05 R100). -/
def blockCode : Nat := 3

/-- Least byte of the local window (06 R111). -/
def localBase : Nat := 0xFFF0000000000

/-- Bytes of a core's local memory (06 R119). -/
def localBytes : Nat := 0x60000

/-- Least byte of the local-memory aliases (06 R111, R112). -/
def aliasBase : Nat := 0xFFE0000000000

/-- One past the last alias (06 R111). -/
def aliasEnd : Nat := 0xFFE0020000000

/-- Least byte of the firmware register blocks (06 R111). -/
def fwBase : Nat := 0xFFE8000000000

/-- One past the last firmware register block (06 R111). -/
def fwEnd : Nat := 0xFFE8000080000

/-- The Bellows register block (06 R111). -/
def bellowsBase : Nat := 0xFFE8100000000

/-- One past the Bellows register block (06 R111). -/
def bellowsEnd : Nat := 0xFFE8100010000

/-- One past paged memory (06 R111). -/
def pagedEnd : Nat := 0xFFE0000000000

/-- Least physical address of host memory (06 R114). -/
def hostPhys : Nat := 0x100000000000

/-- One past the last byte of the device's memory units (06 R114). -/
def unitEnd : Nat := 0x18000000000

/-- Bytes of a Hob (06 R137). -/
def hobBytes : Nat := 0x60000000

/-- The greatest number of instructions of a handler invocation (02 R29). -/
def handlerLimit : Nat := 8192

/-- Bytes of L1 data that one core holds (06 R126). -/
def l1Bytes : Nat := 131072

/-- What the header of a staged image says, the image's length in bytes, and its signature (14 R320, R460); the layout is not
in the spec. -/
structure ImageHeader where
  length : Nat
  publicKey : List Byte
  signature : List Byte
  svn : Nat
  entry : Word
  commit : Bool
  deriving DecidableEq, Repr, Inhabited

/-- The choice for the n-th agnostic element or mask bit: true is all ones, false its old value
(03 R57: no rule is fixed). Free value, log 7. -/
opaque freeBit : Nat → Bool

/-- Channel `c` of a texture sample whose position overflows f32, where 10 R241 states no index. Free value, log 34. -/
opaque freeTexel : Nat → Nat → BitVec 32

/-- The launch identity that the Bellows gives to the n-th accepted record (03 R47). Free value, log 15. -/
opaque launchId : Nat → Word

/-- The header of the image in the staging SRAM (14 R320). Free value, log 14. -/
opaque imageHeader : List Host.Cell → ImageHeader

/-- Whether loading a verified image succeeds (14 R320, error 4). Free value, log 14. -/
opaque loadOk : List Byte → Bool

/-- The fused key hash, 32 bytes (14 R320). Free value, log 14. -/
opaque fusedKeyHash : List Byte

/-- The XMSS signature of the device's identity key over a report's other bytes, with a leaf of the key (14 R321): the key
comes from the fused device secret, which the spec does not give. Free value, log 14. -/
opaque attestSignature : List Byte → Nat → List Byte

/-- The certificate at BAR0 0x1_8000 (14 R321). Free value, log 14. -/
opaque certByte : Nat → Byte

end Sys2Proof.Config
end

