-- ==== Sys2Proof/Machine/State.lean ====
section
/-! DEFINITION. The state of one OXH-5120 package as plain data: contexts, cores, dies, Bellows, host
side and outside world, and the state after module reset. INVENTORY.md lists every field with its rule. -/
namespace Sys2Proof.Machine
open Sys2Proof

/-- The mode of a context (13 R285). -/
inductive Mode where
  | program
  | supervisor
  | firmware
  deriving DecidableEq, Repr, Inhabited

/-- What a waiting context waits for (02 R39, first table). A context restored in a wait waits for what the instruction at
its pc does (13 R306). -/
inductive Wait where
  | helperFree
  | helperEnded (h : Nat)
  | helpersEnded
  | barrier (n : Nat)
  | ringFilled (c : Nat)
  | ringFree (c : Nat)
  | highWater (addr : Nat) (scope taken : Word)
  | event
  | accept
  | lease
  | restored
  deriving DecidableEq, Repr, Inhabited

/-- What a context that stays live waits for in an instruction of 02 R39's second table: its accesses on paths M, X and G
and, with `system`, its writes on other packages, where `first` says that a pre-emption lets the instruction complete; room in its lease's queue; the end of its lease's commands; the end of
the invocations of a handler number. -/
inductive Bounded where
  | accesses (m x g system first : Bool)
  | queueRoom
  | commands
  | handler (n : Nat)
  deriving DecidableEq, Repr, Inhabited

/-- The life-cycle state of a context (02 R24). -/
inductive Status where
  | free
  | live
  | waiting (w : Wait)
  | ended
  deriving DecidableEq, Repr, Inhabited

/-- The tag of a scalar register in an atomic region (08 R186); `unknown` is the spec's opaque. -/
inductive Tag where
  | concrete
  | sym (i : Nat) (c : Word)
  | unknown
  deriving DecidableEq, Repr, Inhabited

/-- A constraint recorded in a region (08 R188). -/
structure Constraint where
  i : Nat
  c : Word
  isGuard : Bool
  bit : Nat
  k : Word
  ty : BitVec 5
  symFirst : Bool
  observed : Word
  deriving DecidableEq, Repr, Inhabited

/-- A store recorded in a region (08 R189): `n` bytes of `val` at `addr`; `tag` is the stored
register's, and `recipe` holds for ST.64 of a symbolic register. -/
structure RStore where
  addr : Nat
  n : Nat
  val : Nat
  tag : Tag
  recipe : Bool
  deriving DecidableEq, Repr, Inhabited

/-- What an open atomic region holds (08 R182, R186 to R189); `moved` holds once a location that it tracks has changed its
home (06 R139, R141). -/
structure Region where
  fallback : Word
  snapS : Vector Word 64
  snapF : BitVec 9
  tags : Vector Tag 64
  tracked : List (Nat × Word)
  cons : List Constraint
  stores : List RStore
  moved : Bool
  deriving DecidableEq, Repr, Inhabited

/-- ASTATE (08 R183); NLOAD, NCON and NST as AEND and aborts leave them. -/
structure AState where
  nins : Nat
  nst : Nat
  ncon : Nat
  nload : Nat
  homev : Bool
  home : Nat
  repaired : Bool
  fragile : Bool
  active : Bool
  deriving DecidableEq, Repr, Inhabited

/-- An outstanding fixed-latency result (03 R62): until cycle `ready`, a trust-mode reader gets `old`. -/
structure Pend where
  reg : BitVec 6
  ready : Nat
  old : Word
  deriving DecidableEq, Repr, Inhabited

/-- MSTAT (09 R200). -/
structure MStat where
  fcause : BitVec 8
  lstate : BitVec 2
  faddr : BitVec 52
  deriving DecidableEq, Repr, Inhabited

/-- MLEASEID (09 R201). -/
structure MLease where
  tflags : BitVec 5
  nslot : BitVec 4
  lease : BitVec 4
  deriving DecidableEq, Repr, Inhabited

/-- One context (02 R24, R25; 03 R41, R47). `outMsg` is the copy that a waiting MSG has taken (17 R402); `midWait`
is what the context waits for, live, in an instruction of 02 R39's second table; `killed` is an HKILL that takes
effect when that wait ends; `noticed` holds once the trap of a pre-emption notice has been taken (13 R304). -/
structure Ctx where
  status : Status
  pc : Word
  mode : Mode
  s : Vector Word 64
  v : Vector (BitVec 4096) 48
  vtag : Vector (BitVec 8) 48
  k : Vector (BitVec 1024) 12
  kstack : List (BitVec 1024 × BitVec 1024)
  vl : Nat
  vstart : Nat
  vlcap : Nat
  fcsr : BitVec 9
  scbmode : BitVec 2
  domain : BitVec 16
  prio : Nat
  launchId : Word
  lvlid : Vector Word 8
  lvlscope : Vector Word 8
  mtm : Word
  mtn : Word
  mtk : Word
  mstat : MStat
  mkvalid : Bool
  mkpos : BitVec 16
  mlease : MLease
  mleaseSaved : Bool
  astate : AState
  tcause : BitVec 8
  acode : BitVec 8
  region : Option Region
  hopPolicy : BitVec 2
  pnote : Bool
  vdirty : Bool
  trapcause : BitVec 11
  trappc : Word
  trapval : Word
  trapvec : Word
  trapscratch : Word
  event : Bool
  arrived : BitVec 64
  myph : BitVec 64
  reserv : List (Nat × Nat)
  pend : List Pend
  nextIssue : Nat
  waitFrom : Nat
  hopped : Option CoreId
  travel : Option CoreId
  sinceHop : Nat
  notice : Option Nat
  noticed : Bool
  vlcapTrap : Option Nat
  stopped : Bool
  outMsg : Option (Word × Message)
  midWait : Option Bounded
  killed : Bool
  deriving DecidableEq, Repr, Inhabited

/-- A reserved slot of a circular buffer (06 R122): published or not, and the context that
reserved it by CBRES, if one did. -/
structure RSlot where
  published : Bool
  owner : Option CtxId
  sender : Option Sender
  deriving DecidableEq, Repr, Inhabited

/-- A circular buffer (03 R52, 06 R122). `res` holds the reserved slots in order; `senders` the
senders of the filled inbox slots, oldest first. -/
structure Ring where
  base : Nat
  szlog : Nat
  cntlog : Nat
  filled : Nat
  free : Nat
  rdidx : Nat
  wridx : Nat
  res : List RSlot
  taken : Nat
  senders : List Sender
  deriving DecidableEq, Repr, Inhabited

/-- A cached grain of an L1, tagged by virtual address (06 R126, R127). -/
structure L1Line where
  va : Nat
  size : Nat
  data : Nat
  deriving DecidableEq, Repr, Inhabited

/-- A cached region entry of the PLB (06 R115, R118). -/
structure PlbEntry where
  domain : BitVec 16
  first : Nat
  last : Nat
  rights : BitVec 6
  deriving DecidableEq, Repr, Inhabited

/-- An instruction in the vector queue (02 R30; 03 R65, R66): its context, the cycle in which it entered, walk slots,
base latency (`none` when not fixed), the vector and mask registers it reads and writes. -/
structure VqEntry where
  ctx : CoreId × CtxId
  since : Nat
  slots : Nat
  latency : Option Nat
  reads : List Nat
  writes : List Nat
  deriving DecidableEq, Repr, Inhabited

/-- An instruction that the vector unit has admitted: its slots are held up to cycle `freeAt`
(exclusive), its results are ready for admission at `ready`, its last element at `done` (03 R65, R66). -/
structure VWalk where
  ctx : CoreId × CtxId
  slots : Nat
  freeAt : Nat
  ready : Nat
  done : Nat
  writes : List Nat
  deriving DecidableEq, Repr, Inhabited

/-- A handler binding (08 R177); `std` names a standard handler of 08 R181. -/
structure Binding where
  entry : Word
  domain : BitVec 16
  std : Option Nat
  deriving DecidableEq, Repr, Inhabited

/-- The invocation in the handler context (08 R178 to R180). -/
structure Invocation where
  msg : Message
  sender : Sender
  number : Nat
  count : Nat
  replied : Bool
  deriving DecidableEq, Repr

/-- A level descriptor (02 R19). -/
structure Level where
  kind : Nat
  parentScope : Bool
  nbar : Nat
  w : Nat
  h : Nat
  count : Nat
  deriving DecidableEq, Repr, Inhabited

/-- What holds a core: the launch (its arrival), its group, the record's HELPERS and LOCAL, and whether the Bellows
starts a context there (12 R279, R280). `path` is the LVLID of the core's control context at each level (02 R21). -/
structure Placement where
  launch : Nat
  group : Nat
  helpers : Nat
  localBytes : Nat
  domain : BitVec 16
  levels : List Level
  path : List Nat
  covered : Bool
  deriving DecidableEq, Repr, Inhabited

/-- One core (02 R24; 03 R52; 06 R115, R122, R126, R127; 08 R176). -/
structure Core where
  ctxs : Vector Ctx 12
  rings : Vector Ring 8
  l1 : List L1Line
  icache : List L1Line
  plb : List PlbEntry
  vqueue : List VqEntry
  walks : List VWalk
  hqueue : List Delivery
  inv : Option Invocation
  placed : Option Placement
  lastHelper : Nat
  deriving DecidableEq, Repr, Inhabited

/-- A line of a die's L2 (06 R128, R129). A home line marks that the home holds the grain; a non-home
copy has its own bytes with valid and dirty masks, and the contexts whose writes are dirty in it. `codec` and `owner`
are those of the leaf that the fill translated by (13 R295). -/
structure L2Line where
  va : Nat
  size : Nat
  pa : Nat
  home : Bool
  codec : Nat
  owner : Bool
  valid : Nat
  dirty : Nat
  data : Nat
  writers : List (CoreId × CtxId)
  deriving DecidableEq, Repr, Inhabited

/-- A leaf of the page table (13 R295), with the virtual base and the address of its entry. -/
structure Leaf where
  vbase : Nat
  size : Nat
  frame : Nat
  grain : Nat
  codec : Nat
  owner : Bool
  queued : Bool
  hot : Nat
  tier : Nat
  pte : Nat
  deriving DecidableEq, Repr, Inhabited

/-- A leaf cached by the translation unit of a slice (13 R296). -/
structure TlbEntry where
  slice : Nat
  leaf : Leaf
  deriving DecidableEq, Repr, Inhabited

/-- A release marker at the home of a grain (07 R154). -/
structure Marker where
  grain : Nat
  die : DieId
  core : CoreId
  scope : Word
  deriving DecidableEq, Repr, Inhabited

/-- The firmware register block of a die (06 R133; 08 R174; 13 R287; 14 R318). -/
structure FwRegs where
  nqbase : Nat
  nqhead : BitVec 32
  nqtail : BitVec 32
  ovf : Bool
  dropped : Nat
  thrl : Nat
  thrh : Nat
  dtbase : Nat
  dtcnt : Nat
  msgerr : Nat
  svec : Word
  fvec : Word
  ptbase : Nat
  hen : Bool
  hly : Nat
  hlx : Nat
  injbase : Nat
  injcnt : Nat
  deriving DecidableEq, Repr, Inhabited

/-- An agent instance (08 R171, 10 R221): its queue, whether the command at its head has started, and
how far it has come: `done`, two further counts, and the words that the command has read and keeps. -/
structure Agent where
  queue : List Command
  started : Bool
  done : Nat
  aux1 : Nat
  aux2 : Nat
  words : List Nat
  deriving DecidableEq, Repr, Inhabited

/-- The state of a lease (09 R197). -/
inductive LeaseState where
  | idle
  | waiting
  | running
  | held
  deriving DecidableEq, Repr, Inhabited

/-- The type of an accumulator slot (09 R209, R220). -/
inductive SlotType where
  | f32
  | q96 (accexp : Int)
  | q96later
  deriving DecidableEq, Repr, Inhabited

/-- The operands of a stage load (09 R199, R208): its rows that the stage really holds, as element
encodings. `count` is K for the A stage and the columns for the B stage. -/
structure Stage where
  addr : Word
  pitch : Word
  ty : BitVec 5
  rows : Nat
  count : Nat
  data : List (List Nat)
  deriving DecidableEq, Repr, Inhabited

/-- A queued matrix command with its captured operands (09 R204, R220). -/
structure MCmd where
  pc : Word
  word : Word
  sa : Word
  sb : Word
  sc : Word
  mtm : Word
  mtn : Word
  mtk : Word
  deriving DecidableEq, Repr, Inhabited

/-- A held matrix fault (09 R216). -/
structure MFault where
  cause : BitVec 8
  faddr : BitVec 52
  pos : Nat
  delivered : Bool
  deriving DecidableEq, Repr, Inhabited

/-- A lease of the Firebox (09 R194 to R217). Tiles hold only elements that are not zero, keyed by
`slot * 2^18 + m * 512 + n`. `loadedA` and `loadedB` hold once an MLDA or an MLDB has issued since the lease was granted or
restored (09 R205). -/
structure Lease where
  num : Nat
  core : CoreId
  ctx : CtxId
  launch : Nat
  domain : BitVec 16
  nslot : Nat
  state : LeaseState
  since : Nat
  queue : List MCmd
  pos : Nat
  pflags : BitVec 5
  types : Vector SlotType 12
  tiles : List (Nat × BitVec 96)
  stageA : Option Stage
  stageB : Option Stage
  loadedA : Bool
  loadedB : Bool
  fault : Option MFault
  deriving DecidableEq, Repr, Inhabited

/-- The Firebox of a die (09 R197 to R199). -/
structure Firebox where
  leases : List Lease
  holder : Option Nat
  commands : Nat
  grantedAt : Nat
  stageOwner : Option Nat
  hobBad : List Nat
  arrayBad : List (Nat × Nat)
  deriving DecidableEq, Repr, Inhabited

/-- A barrier object on a die (02 R22; 07 R157, R158): the launch, the path of level instances that names the
instance, the barrier number, this die's count and phase, whether all its members have arrived and the report is
due, whether an arrival had a scope beyond its die, and on the master die the dies that have reported. -/
structure BarObj where
  launch : Nat
  path : List Nat
  n : Nat
  count : Nat
  phase : Bool
  full : Bool
  wide : Bool
  reported : List DieId
  deriving DecidableEq, Repr, Inhabited

/-- One die, by its virtual number. `injected` holds the flits that domains have still to inject or have injected in this
window (01 R18), `corrected` the single-bit errors that it has corrected; `l2Weak` and `l2Bad` hold the physical addresses of
the bytes of its L2's non-home copies with a single-bit and with an uncorrectable error (06 R130). -/
structure Die where
  l2 : List L2Line
  tlb : List TlbEntry
  markers : List Marker
  fw : FwRegs
  bindings : Vector (Option Binding) 64
  held : List Delivery
  agents : Vector Agent 8
  firebox : Firebox
  bars : List BarObj
  hopSlots : List (CoreId × CtxId)
  injected : List (Nat × Nat)
  corrected : Nat
  l2Weak : List Nat
  l2Bad : List Nat
  deriving DecidableEq, Repr, Inhabited

/-- A launch record that has passed the checks (12 R265). -/
structure Record where
  domain : BitVec 16
  gang : Bool
  prio : Nat
  entry : Word
  args : Word
  helpers : Nat
  slots : Nat
  localBytes : Nat
  levels : List Level
  dep : Bool
  depAddr : Nat
  depVal : Word
  depCmp : Nat
  pred : Bool
  predAddr : Nat
  predMask : Word
  predVal : Word
  thenAddr : Nat
  elseAddr : Nat
  doneAddr : Nat
  doneInc : Word
  inbox : Word
  deriving DecidableEq, Repr, Inhabited

/-- The state of a group (12 R279 to R283): `saved` waits for a place, `restoring` has its place again. -/
inductive GroupState where
  | unplaced
  | running (since : Nat)
  | stopping (since : Nat)
  | saved (images : List (CoreId × Nat))
  | restoring (images : List (CoreId × Nat))
  | done
  deriving DecidableEq, Repr, Inhabited

/-- A group of a launch (12 R268): its rectangle, the LVLIDs of the levels around it and its own, since when it has
waited for a place, the cores that another launch has used since it was saved (12 R281), and the contexts whose leases were
saved with it (13 R307). -/
structure Group where
  x0 : Nat
  y0 : Nat
  w : Nat
  h : Nat
  outer : List Nat
  state : GroupState
  waitFrom : Nat
  displaced : List CoreId
  leased : List (CoreId × CtxId)
  deriving DecidableEq, Repr, Inhabited

/-- A completion counter to be incremented (12 R276, R283). -/
structure Counter where
  addr : Nat
  inc : Word
  domain : BitVec 16
  deriving DecidableEq, Repr, Inhabited

/-- An accepted record in the pending store (12 R273). -/
structure Launch where
  arrival : Nat
  rank : Nat
  record : Record
  arms : Option (Record × Option Record)
  counters : List Counter
  eligibleAt : Option Nat
  groups : List Group
  deriving DecidableEq, Repr, Inhabited

/-- A host ring (12 R269, R271). -/
structure HostRing where
  rbase : Nat
  en : Bool
  pmax : Nat
  rdom : BitVec 16
  rlog : Nat
  head : BitVec 32
  tail : BitVec 32
  errtail : BitVec 32
  ecode : Nat
  err : Bool
  deriving DecidableEq, Repr, Inhabited

/-- The Bellows register block below 0x1000 (12 R278; 13 R305; 14 R319). -/
structure BellowsRegs where
  pthr : Nat
  minrun : Nat
  ageper : Nat
  flbase : Nat
  flcnt : Nat
  spbase : Nat
  splen : Nat
  apen : Bool
  apbase : Nat
  apdom : BitVec 16
  pkgno : Nat
  jobidx : Nat
  vderr : Bool
  vdmap : Nat
  hfault : Nat
  hdeny : Nat
  deriving DecidableEq, Repr, Inhabited

/-- A write-back in flight on the Flue, sent for a write of `core`; it has been in the buffer of die `at_` since cycle
`since` (01 R16, R17). -/
structure Packet where
  src : DieId
  core : CoreId
  dst : DieId
  chan : Nat
  age : Nat
  at_ : DieId
  since : Nat
  pa : Nat
  mask : Nat
  data : Nat
  writers : List (CoreId × CtxId)
  deriving DecidableEq, Repr, Inhabited

/-- A notification to firmware, or a report to the host (14 R322 and the rules that notify firmware). -/
inductive Note where
  | uncorrectable (die : Nat) (pa : Nat)
  | ringError (ring ecode : Nat)
  | handlerTrap (core : Nat) (cause : BitVec 8) (pc : Word) (number : Nat)
  | matrixFaultDropped (die lease : Nat) (cause : BitVec 8)
  | replyFailed (die : Nat) (addr : Nat)
  | depFault (arrival addr : Nat)
  | counterFault (arrival addr : Nat)
  | hostAccessFailed (off : Nat)
  | heldHostWrite (off : Nat)
  | noRoute (pkg : Nat)
  | badImage (arrival : Nat)
  | heartbeatMissed (die : Nat)
  | linkLost (link : Nat)
  | launchFailed (arrival : Nat)
  | trip
  deriving DecidableEq, Repr, Inhabited

/-- A host write within one page that waits at the I/O die for its page or behind one that does (14 R313, R314): firmware has
been notified of it, and has completed PINV of the page with OWNER = 1. -/
structure HeldWrite where
  off : Nat
  bytes : List Byte
  noted : Bool
  ready : Bool
  deriving DecidableEq, Repr, Inhabited

/-- A posted write of the host on the link: to the aperture at BAR2, or to a register or the staging SRAM at BAR0 (14 R310,
R313). -/
inductive Posted where
  | aperture (off : Nat) (bytes : List Byte)
  | register (off : Nat) (value : Word)
  | staging (off : Nat) (bytes : List Byte)
  deriving DecidableEq, Repr, Inhabited

/-- Boot, identity and attestation (14 R310, R320, R321). -/
structure Boot where
  bstate : Nat
  berr : Nat
  staging : List Host.Cell
  nonce : BitVec 256
  report : List Byte
  measurement : List Byte
  fusedSvn : Nat
  boots : Nat
  leaf : Nat
  deriving DecidableEq, Repr, Inhabited

/-- The power states (14 R324). -/
inductive Power where
  | off
  | boot
  | run
  | throttle
  | trip
  deriving DecidableEq, Repr, Inhabited

/-- Whose turn the next step is (log 1). -/
inductive Turn where
  | core (c : CoreId)
  | agent (die : DieId) (inst : Fin 8)
  | event (i : Instr)
  deriving DecidableEq, Repr

/-- The whole package. `bad` and `weak` hold the physical bytes with an uncorrectable and with a single-bit error (06 R130).
`rewritten` holds the cached page-table entries whose HOT and QUEUED bits something other than their page's home has written since
a unit read them (06 R131, R132). `tick` counts the spans of 1,024 cycles whose clocked events have been raised (log 1). `posted` are the host writes that the link
has still to deliver, `inputMv` is the input voltage in millivolts (14 R324). -/
structure State where
  agenda : List Turn
  focus : CoreId
  cur : CoreId × CtxId
  cycle : Nat
  tick : Nat
  time : Nat
  timeFrac : Nat
  freeCtr : Nat
  cores : Vector Core 512
  dies : Vector Die 8
  mem : List Host.Cell
  lmem : List Host.Cell
  hob : List Host.Cell
  bad : List Nat
  weak : List Nat
  rewritten : List Nat
  owners : Vector DieId 8
  flue : List Packet
  rings : Vector HostRing 16
  bregs : BellowsRegs
  launches : List Launch
  nextArrival : Nat
  pool : List (Nat × Nat)
  occupancy : List (Nat × List Nat)
  linkUp : Bool
  cxl : Bool
  heldWrites : List HeldWrite
  posted : List Posted
  hostReads : List (Option (List Byte))
  boot : Boot
  txFrames : List Frame
  rxSeq : List (Nat × Nat × Nat)
  txSeq : List (Nat × Nat × Nat)
  notes : List Note
  power : Power
  clockMhz : Nat
  inputMv : Nat
  deriving DecidableEq, Repr

/-- Why the machine stops. -/
inductive Fault where
  /-- Raised by `step` when the module is off (14 R324: contexts have stopped, the host must reboot the
  module). Safe: the spec gives no further step of a core before a reset. -/
  | poweredOff
  deriving DecidableEq, Repr

/-- Why an instruction is refused. -/
inductive Refusal where
  /-- Raised by an arm of `exec` whose instruction has no meaning yet. Safe: nothing is said of it. -/
  | notModelled (mnemonic : String)
  deriving DecidableEq, Repr

/-- A context before any start: the values of 02 R25, status free, pc 0 (log 5). -/
def Ctx.reset : Ctx where
  status := .free
  pc := 0
  mode := .program
  s := Vector.replicate 64 0
  v := Vector.replicate 48 0
  vtag := Vector.replicate 48 0xF8
  k := Vector.replicate 12 0
  kstack := []
  vl := 0
  vstart := 0
  vlcap := Config.vlen
  fcsr := 0
  scbmode := 0
  domain := 0
  prio := 0
  launchId := 0
  lvlid := Vector.replicate 8 0
  lvlscope := Vector.replicate 8 0
  mtm := 0
  mtn := 0
  mtk := 0
  mstat := ⟨0, 0, 0⟩
  mkvalid := false
  mkpos := 0
  mlease := ⟨0, 0, 0⟩
  mleaseSaved := false
  astate := ⟨0, 0, 0, 0, false, 0, false, false, false⟩
  tcause := 0
  acode := 0
  region := none
  hopPolicy := 0
  pnote := false
  vdirty := false
  trapcause := 0
  trappc := 0
  trapval := 0
  trapvec := 0
  trapscratch := 0
  event := false
  arrived := 0
  myph := 0
  reserv := []
  pend := []
  nextIssue := 0
  waitFrom := 0
  hopped := none
  travel := none
  sinceHop := 0
  notice := none
  noticed := false
  vlcapTrap := none
  stopped := false
  outMsg := none
  midWait := none
  killed := false

/-- A circular buffer at the reset values of 03 R52. -/
def Ring.reset : Ring where
  base := 0
  szlog := 6
  cntlog := 0
  filled := 0
  free := 1
  rdidx := 0
  wridx := 0
  res := []
  taken := 0
  senders := []

/-- A core after module reset. -/
def Core.reset : Core where
  ctxs := Vector.replicate 12 Ctx.reset
  rings := Vector.replicate 8 Ring.reset
  l1 := []
  icache := []
  plb := []
  vqueue := []
  walks := []
  hqueue := []
  inv := none
  placed := none
  lastHelper := 0

/-- The firmware register block at its reset values (06 R133; 08 R174; 13 R287; 14 R318). -/
def FwRegs.reset : FwRegs where
  nqbase := 0
  nqhead := 0
  nqtail := 0
  ovf := false
  dropped := 0
  thrl := 0
  thrh := 0
  dtbase := 0
  dtcnt := 0
  msgerr := 0
  svec := 0
  fvec := 0
  ptbase := 0
  hen := false
  hly := 0
  hlx := 0
  injbase := 0
  injcnt := 0

/-- An agent with nothing to do. -/
def Agent.reset : Agent := ⟨[], false, 0, 0, 0, []⟩

/-- A die after module reset. -/
def Die.reset : Die where
  l2 := []
  tlb := []
  markers := []
  fw := FwRegs.reset
  bindings := Vector.replicate 64 none
  held := []
  agents := Vector.replicate 8 Agent.reset
  firebox := ⟨[], none, 0, 0, none, [], []⟩
  bars := []
  hopSlots := []
  injected := []
  corrected := 0
  l2Weak := []
  l2Bad := []

/-- A host ring at its reset values (12 R269). -/
def HostRing.reset : HostRing := ⟨0, false, 0, 0, 4, 0, 0, 0, 0, false⟩

/-- The Bellows registers at their reset values (12 R278; 13 R305; 14 R319). -/
def BellowsRegs.reset : BellowsRegs where
  pthr := 8
  minrun := 2 ^ 20
  ageper := 2 ^ 16
  flbase := 0
  flcnt := 0
  spbase := 0
  splen := 0
  apen := false
  apbase := 0
  apdom := 0
  pkgno := 0
  jobidx := 0
  vderr := false
  vdmap := 0
  hfault := 0
  hdeny := 0

/-- Boot state WAIT with nothing staged (14 R310, R320); the fused counters are the model's (log 14). -/
def Boot.reset : Boot := ⟨1, 0, [], 0, [], [], 0, 0, 0⟩

/-- The package right after module reset: every register at the value of its table, no context placed,
no line cached, power state BOOT with an input of 48 V (14 R320, R324; log 19). -/
def State.reset : State where
  agenda := []
  focus := 0
  cur := (0, 0)
  cycle := 0
  tick := 0
  time := 0
  timeFrac := 0
  freeCtr := 0
  cores := Vector.replicate 512 Core.reset
  dies := Vector.replicate 8 Die.reset
  mem := []
  lmem := []
  hob := []
  bad := []
  weak := []
  rewritten := []
  owners := Vector.ofFn id
  flue := []
  rings := Vector.replicate 16 HostRing.reset
  bregs := BellowsRegs.reset
  launches := []
  nextArrival := 0
  pool := []
  occupancy := []
  linkUp := false
  cxl := false
  heldWrites := []
  posted := []
  hostReads := []
  boot := Boot.reset
  txFrames := []
  rxSeq := []
  txSeq := []
  notes := []
  power := .boot
  clockMhz := 2100
  inputMv := 48000

end Sys2Proof.Machine
end

