-- ==== Sys2Proof/Machine/Regs.lean ====
section
/-! DEFINITION. Reaching the parts of the state: cores, contexts and dies; the clock; scalar registers with
the scoreboard (03 R42, R61 to R63); vector and mask registers (03 R41, R43); vector admission (03 R65, R66). -/
namespace Sys2Proof.Machine
open Sys2Proof

/-- What a meaning answers. -/
abbrev Out := Host.Outcome State Fault Refusal

/-- A vector with every entry changed. -/
def vmap {α β : Type} {n : Nat} (v : Vector α n) (f : α → β) : Vector β n := Vector.ofFn (fun i => f v[i])

/-- The core at a mesh position. -/
def State.coreAt (s : State) (c : CoreId) : Core := s.cores[c]

/-- Replace a core. -/
def State.setCore (s : State) (c : CoreId) (k : Core) : State := { s with cores := s.cores.set c k }

/-- Change a core. -/
def State.modCore (s : State) (c : CoreId) (f : Core → Core) : State := s.setCore c (f (s.coreAt c))

/-- A context by its home slot. -/
def State.ctxAt (s : State) (c : CoreId) (x : CtxId) : Ctx := (s.coreAt c).ctxs[x]

/-- Change a context by its home slot. -/
def State.modCtxAt (s : State) (c : CoreId) (x : CtxId) (f : Ctx → Ctx) : State :=
  s.modCore c (fun k => { k with ctxs := k.ctxs.set x (f k.ctxs[x]) })

/-- The context that executes. -/
def State.ctx (s : State) : Ctx := s.ctxAt s.cur.1 s.cur.2

/-- Change the context that executes. -/
def State.modCtx (s : State) (f : Ctx → Ctx) : State := s.modCtxAt s.cur.1 s.cur.2 f

/-- A die by its virtual number. -/
def State.dieAt (s : State) (d : DieId) : Die := s.dies[d]

/-- Change a die. -/
def State.modDie (s : State) (d : DieId) (f : Die → Die) : State := { s with dies := s.dies.set d (f s.dies[d]) }

/-- Mesh column of a core (01 R14). -/
def coreX (c : CoreId) : Nat := c.val % 32

/-- Mesh row of a core (01 R14). -/
def coreY (c : CoreId) : Nat := c.val / 32

/-- The core at column `x` and row `y`. -/
def coreOf (x y : Nat) : CoreId := Fin.ofNat 512 (32 * y + x)

/-- The virtual die of a core (01 R14). -/
def dieOf (c : CoreId) : DieId := Fin.ofNat 8 (coreX c / 8 + 4 * (coreY c / 8))

/-- The core at local position (lx, ly) of a die (01 R14). -/
def localCore (d : DieId) (lx ly : Nat) : CoreId := coreOf (8 * (d.val % 4) + lx) (8 * (d.val / 4) + ly)

/-- A core reserved for firmware (01 R15). -/
def isReserved (c : CoreId) : Bool := coreX c % 8 == 7 && coreY c % 8 == 7

/-- The core on which the executing context runs: the one it has hopped to, else its home (13 R302). -/
def State.runCore (s : State) : CoreId := s.ctx.hopped.getD s.cur.1

/-- The die on which the executing context runs. -/
def State.runDie (s : State) : DieId := dieOf s.runCore

/-- The context number of the handler context (02 R24). -/
def handlerCtx : CtxId := 11

/-- The executing context is a handler context. -/
def State.inHandler (s : State) : Bool := s.cur.2 == handlerCtx

/-- Let the clocks run up to cycle `c`: CYCLE counts cycles, TIME counts nanoseconds at the clock in force
(03 R47; log 9). -/
def State.advanceTo (s : State) (c : Nat) : State :=
  if c ≤ s.cycle then s
  else
    let frac := s.timeFrac + (c - s.cycle) * 1000
    { s with cycle := c, time := s.time + frac / s.clockMhz, timeFrac := frac % s.clockMhz }

/-- Draw a free bit (03 R57; log 7). -/
def State.drawBit (s : State) : Bool × State := (Config.freeBit s.freeCtr, { s with freeCtr := s.freeCtr + 1 })

/-! ### Scalar registers -/

/-- Of two outstanding results, the one that is ready first. -/
def earlier (p : Pend) : Option Pend → Option Pend
  | none => some p
  | some q => if p.ready < q.ready then some p else some q

/-- The outstanding result of register `r` that is ready first after cycle `c`. -/
def nextPend (c : Nat) (r : BitVec 6) : List Pend → Option Pend
  | [] => none
  | p :: ps => if p.reg == r && decide (c < p.ready) then earlier p (nextPend c r ps) else nextPend c r ps

/-- The cycle from which every outstanding result of a register is ready. -/
def readyAt (r : BitVec 6) : List Pend → Nat
  | [] => 0
  | p :: ps => if p.reg == r then max p.ready (readyAt r ps) else readyAt r ps

/-- A scalar register as an instruction reads it: s0 is zero (03 R42); in trust mode an unready register
gives its old value (03 R62). -/
def State.rs (s : State) (r : BitVec 6) : Word :=
  if r = 0 then 0
  else if s.ctx.scbmode = 1 then
    match nextPend s.cycle r s.ctx.pend with
    | some p => p.old
    | none => s.ctx.s[r.toNat]
  else s.ctx.s[r.toNat]

/-- The outstanding results after a write that takes `lam` cycles to register `r` (03 R62), and the value
that the register then finally holds. In trust mode the write that completes last stands, and each result's `old` is what
the register holds just before it: the new one takes its place in the order in which they become ready. Of two that become ready in
the same cycle, for which 03 R62 names neither, the later-issued one stands, and check mode raises nothing (DESIGN CHOICE, log
61). -/
def pendWrite (x : Ctx) (cycle lam : Nat) (r : BitVec 6) (v : Word) : List Pend × Word :=
  let live := x.pend.filter (fun p => cycle < p.ready)
  let others := live.filter (fun p => p.reg != r)
  if x.scbmode = 1 then
    match nextPend (cycle + lam) r live with
    | some q =>
      let moved := live.map (fun p => if p = q then { p with old := v } else p)
      (if lam ≤ 1 then moved else ⟨r, cycle + lam, q.old⟩ :: moved, x.s[r.toNat])
    | none => (if lam ≤ 1 then others else ⟨r, cycle + lam, x.s[r.toNat]⟩ :: live, v)
  else
    let shown := match nextPend cycle r live with
      | some p => p.old
      | none => x.s[r.toNat]
    (if lam ≤ 1 then others else ⟨r, cycle + lam, shown⟩ :: others, v)

/-- Write a scalar register with a fixed latency; a write to s0 is discarded (03 R42, R62). -/
def State.ws (s : State) (lam : Nat) (r : BitVec 6) (v : Word) : State :=
  if r = 0 then s
  else s.modCtx (fun x =>
    let pv := pendWrite x s.cycle lam r v
    { x with s := x.s.set r.toNat pv.2, pend := pv.1 })

/-- Write a scalar register with an interlocked result (03 R64). The spec gives it no latency beside an outstanding
fixed-latency result of the same register: here it stands, and that result is dropped (DESIGN CHOICE, log 47). -/
def State.wi (s : State) (r : BitVec 6) (v : Word) : State :=
  if r = 0 then s
  else s.modCtx (fun x => { x with s := x.s.set r.toNat v, pend := x.pend.filter (fun p => p.reg != r) })

/-- OR exceptions into FCSR bits 4:0 (03 R48). -/
def State.orFlags (s : State) (f : BitVec 5) : State := s.modCtx (fun x => { x with fcsr := x.fcsr ||| f.setWidth 9 })

/-- FCSR.FTZ (03 R48). -/
def State.ftz (s : State) : Bool := s.ctx.fcsr.getLsbD 8

/-- FCSR.RM (03 R48). -/
def State.frm (s : State) : Nat := s.ctx.fcsr.toNat / 32 % 8

/-- The rounding code that an RM field selects; none when the dynamic mode is not a rounding mode (03 R48, R88). -/
def State.rounding (s : State) (rm : Nat) : Option Nat :=
  if rm == 7 then (if s.frm ≤ 4 then some s.frm else none) else some rm

/-! ### Vector and mask registers -/

/-- A vector register's bits; numbers from 48 up do not arise in a legal instruction. -/
def Ctx.vreg (x : Ctx) (r : BitVec 6) : BitVec 4096 := x.v[r.toNat]?.getD 0

/-- A vector register's format tag. -/
def Ctx.vtagOf (x : Ctx) (r : BitVec 6) : BitVec 8 := x.vtag[r.toNat]?.getD 0xF8

/-- A mask register. -/
def Ctx.mask (x : Ctx) (k : BitVec 4) : BitVec 1024 := x.k[k.toNat]?.getD 0

/-- Write a vector register and its tag; VDIRTY (13 R299). -/
def Ctx.setVreg (x : Ctx) (r : BitVec 6) (val : BitVec 4096) (tag : BitVec 8) : Ctx :=
  { x with v := x.v.setIfInBounds r.toNat val, vtag := x.vtag.setIfInBounds r.toNat tag, vdirty := true }

/-- Write a mask register; VDIRTY (13 R299). -/
def Ctx.setMask (x : Ctx) (k : BitVec 4) (val : BitVec 1024) : Ctx :=
  { x with k := x.k.setIfInBounds k.toNat val, vdirty := true }

/-- VLMAX in bits: min(VLCAP, VLEN) (03 R47). -/
def Ctx.vlmax (x : Ctx) : Nat := min x.vlcap Config.vlen

/-- Element `e` of width `w` of a register held as a number (05 R83). -/
def elem (v : Nat) (w e : Nat) : Nat := (v >>> (w * e)) % 2 ^ w

/-- Replace element `e` of width `w`. -/
def setElem (v : Nat) (w e x : Nat) : Nat :=
  let low := v % 2 ^ (w * e)
  let high := v >>> (w * e + w)
  (high <<< (w * e + w)) + ((x % 2 ^ w) <<< (w * e)) + low

/-! ### Vector admission -/

/-- The walk slots that are held at cycle `t`. -/
def slotsHeld (t : Nat) : List VWalk → Nat
  | [] => 0
  | w :: ws => (if t < w.freeAt then w.slots else 0) + slotsHeld t ws

/-- Two lists of register numbers share one. -/
def shares (a b : List Nat) : Bool := a.any (fun r => b.contains r)

/-- The cycle from which the registers that a context's instruction reads are ready. -/
def readsReady (ctx : CoreId × CtxId) (reads : List Nat) : List VWalk → Nat
  | [] => 0
  | w :: ws => max (if w.ctx == ctx && shares reads w.writes then w.ready else 0) (readsReady ctx reads ws)

/-- The first cycle from `t` on in which `n` slots are free; every walk ends within ten cycles of the last
admission, so `fuel` of 16 suffices. -/
def slotsFreeFrom (ws : List VWalk) (n : Nat) : Nat → Nat → Nat
  | 0, t => t
  | fuel + 1, t => if slotsHeld t ws + n ≤ 4 then t else slotsFreeFrom ws n fuel (t + 1)

/-- One cycle after the latest admission that the walks record. -/
def lastAdmission : List VWalk → Nat
  | [] => 0
  | w :: ws => max (w.freeAt - 8) (lastAdmission ws)

/-- The cycle in which a core admits the instruction at the head of its vector queue: the first one that 03 R65 and R66
allow. -/
def Core.admitAt (k : Core) (e : VqEntry) : Nat :=
  slotsFreeFrom k.walks e.slots 16 (max (max e.since (lastAdmission k.walks)) (readsReady e.ctx e.reads k.walks))

/-- The walk of an instruction admitted in cycle `t`. -/
def VqEntry.walk (e : VqEntry) (t : Nat) : VWalk :=
  let last := t + (e.slots - 1)
  match e.latency with
  | some l => ⟨e.ctx, e.slots, last + 9, last + l, last + l + 8, e.writes⟩
  | none => ⟨e.ctx, e.slots, last + 9, last + 9, last + 9, e.writes⟩

/-- Admit the instruction at the head of a core's vector queue in its cycle. -/
def Core.takeHead (k : Core) : Core :=
  match k.vqueue with
  | [] => k
  | e :: rest =>
    let t := k.admitAt e
    { k with vqueue := rest, walks := e.walk t :: k.walks.filter (fun w => t < w.done) }

/-- Admit the instructions whose cycle of admission has come by cycle `now`. -/
def Core.admitDue (now : Nat) : Nat → Core → Core
  | 0, k => k
  | fuel + 1, k =>
    match k.vqueue with
    | [] => k
    | e :: _ => if k.admitAt e ≤ now then Core.admitDue now fuel k.takeHead else k

/-- Admit the oldest queued vector instruction of a core. -/
def State.admitOne (s : State) (c : CoreId) : State := s.modCore c Core.takeHead

/-- The vector unit of a core has gone on up to the present cycle. -/
def State.admitDue (s : State) (c : CoreId) : State :=
  s.modCore c (fun k => Core.admitDue s.cycle k.vqueue.length k)

/-- Admit instructions until none of context `x` is queued. -/
def Core.admitAll (x : CoreId × CtxId) : Nat → Core → Core
  | 0, k => k
  | fuel + 1, k => if k.vqueue.any (fun e => e.ctx == x) then Core.admitAll x fuel k.takeHead else k

/-- The cycle by which the admitted instructions of a context are done. -/
def walksDone (x : CoreId × CtxId) : List VWalk → Nat
  | [] => 0
  | w :: ws => max (if w.ctx == x then w.done else 0) (walksDone x ws)

/-- A core once every queued vector instruction of a context is admitted. -/
def Core.drained (k : Core) (x : CoreId × CtxId) : Core := Core.admitAll x k.vqueue.length k

/-- The cycle by which every vector instruction of a context has completed on a core. -/
def Core.vectorsDone (k : Core) (x : CoreId × CtxId) : Nat := walksDone x (k.drained x).walks

/-- Wait until every vector instruction of the executing context has completed (07 R156). A context that comes to such a
wait is not ready before (02 R39), so in a core's turn no cycle passes here. -/
def State.drainVector (s : State) : State :=
  let k := s.coreAt s.runCore
  (s.modCore s.runCore (fun k => k.drained s.cur)).advanceTo (k.vectorsDone s.cur)

/-- The cycle from which a core's vector queue has a free entry (02 R30). -/
def Core.queueFree (k : Core) : Nat :=
  match k.vqueue with
  | [] => 0
  | e :: _ => if k.vqueue.length < 16 then 0 else k.admitAt e

/-- Put an instruction into the vector queue, when it has one of its 16 entries (02 R30, R65). -/
def State.enqueueVector (s : State) (slots : Nat) (latency : Option Nat) (reads writes : List Nat) : State :=
  let c := s.runCore
  let s1 := s.admitDue c
  let s2 := if (s1.coreAt c).vqueue.length < 16 then s1 else (s1.admitOne c).advanceTo (s1.coreAt c).queueFree
  s2.modCore c (fun k => { k with vqueue := k.vqueue ++ [⟨s2.cur, s2.cycle, slots, latency, reads, writes⟩] })

/-- The cycle by which every outstanding fixed-latency result is ready. -/
def resultsReady : List Pend → Nat
  | [] => 0
  | p :: ps => max p.ready (resultsReady ps)

/-- The cycle by which every earlier vector instruction of the executing context has completed and every fixed-latency
result is ready (13 R289). -/
def State.quietFrom (s : State) : Nat := max ((s.coreAt s.runCore).vectorsDone s.cur) (resultsReady s.ctx.pend)

end Sys2Proof.Machine
end

