-- ==== Sys2Proof/Machine/Bytes.lean ====
section
/-! DEFINITION. Memory as a sorted list of cells with little-endian words (00 R2), the three memories of the
state, and the brick codec (06 R134 to R136). An unlisted byte reads zero (log 4). -/
namespace Sys2Proof.Machine
open Sys2Proof

/-- The byte at an address; an unlisted one is zero (log 4). -/
def readByte : List Host.Cell → Nat → Byte
  | [], _ => 0
  | (a, b) :: m, x => if x = a then b else if x < a then 0 else readByte m x

/-- Put a byte in front unless it is what an unlisted address reads as. -/
def consCell (a : Nat) (b : Byte) (m : List Host.Cell) : List Host.Cell := if b = 0 then m else (a, b) :: m

/-- Write one byte, keeping the list canonical. -/
def writeByte : List Host.Cell → Nat → Byte → List Host.Cell
  | [], x, v => consCell x v []
  | (a, b) :: m, x, v =>
    if x = a then consCell x v m
    else if x < a then consCell x v ((a, b) :: m)
    else (a, b) :: writeByte m x v

/-- Every address of the list is above `lo`, addresses rise strictly, and no byte is zero. -/
def cellsAbove : Nat → List Host.Cell → Bool
  | _, [] => true
  | lo, (a, b) :: m => decide (lo ≤ a) && (b != 0) && cellsAbove (a + 1) m

/-- The canonical form of a memory. -/
def memoryWf (m : List Host.Cell) : Bool := cellsAbove 0 m

/-- The `n` bytes from an address as a little-endian number. -/
def readN (m : List Host.Cell) (a : Nat) : Nat → Nat
  | 0 => 0
  | n + 1 => (readByte m a).toNat + 256 * readN m (a + 1) n

/-- Write the low `n` bytes of a number, little-endian. -/
def writeN (m : List Host.Cell) (a : Nat) : Nat → Nat → List Host.Cell
  | 0, _ => m
  | n + 1, v => writeN (writeByte m a (BitVec.ofNat 8 v)) (a + 1) n (v / 256)

/-- Write the bytes of a number whose mask bits are set. -/
def writeMasked (m : List Host.Cell) (a : Nat) : Nat → Nat → Nat → List Host.Cell
  | 0, _, _ => m
  | n + 1, mask, v =>
    writeMasked (if mask % 2 == 1 then writeByte m a (BitVec.ofNat 8 v) else m) (a + 1) n (mask / 2) (v / 256)

/-- The bytes of `new` where the mask is set, else those of `old`. -/
def mergeMasked : Nat → Nat → Nat → Nat → Nat
  | 0, _, _, _ => 0
  | n + 1, mask, new, old =>
    (if mask % 2 == 1 then new % 256 else old % 256) + 256 * mergeMasked n (mask / 2) (new / 256) (old / 256)

/-- Physical memory, `n` bytes. -/
def State.phys (s : State) (pa n : Nat) : Nat := readN s.mem pa n

/-- The rewritten page-table entries after a write that reaches the bytes `reach` names: those whose HOT and QUEUED bits, in
their two lowest bytes, a unit keeps join them (06 R131, R132). -/
def State.rewrittenBy (s : State) (reach : Nat → Bool) : List Nat :=
  s.rewritten ++ ((s.dies.toList.flatMap (fun d => d.tlb.map (fun e => e.leaf.pte))).filter (fun p =>
    (reach p || reach (p + 1)) && !s.rewritten.contains p)).eraseDups

/-- Write physical memory. -/
def State.physWrite (s : State) (pa n v : Nat) : State :=
  { s with mem := writeN s.mem pa n v, rewritten := s.rewrittenBy (fun a => pa ≤ a && a < pa + n) }

/-- Write the masked ones of `n` bytes of physical memory. -/
def State.physMasked (s : State) (pa n mask v : Nat) : State :=
  { s with mem := writeMasked s.mem pa n mask v, rewritten := s.rewrittenBy (fun a => pa ≤ a && mask.testBit (a - pa)) }

/-- The key in `lmem` of byte `o` of a core's local memory: its alias address (06 R112). -/
def localKey (c : CoreId) (o : Nat) : Nat := Config.aliasBase + c.val * 2 ^ 20 + o

/-- `n` bytes of a core's local memory from offset `o` (06 R119). -/
def State.localRead (s : State) (c : CoreId) (o n : Nat) : Nat := readN s.lmem (localKey c o) n

/-- Write a core's local memory. -/
def State.localWrite (s : State) (c : CoreId) (o n v : Nat) : State :=
  { s with lmem := writeN s.lmem (localKey c o) n v }

/-- `n` bytes of a die's Hob (06 R137). -/
def State.hobRead (s : State) (d : DieId) (o n : Nat) : Nat := readN s.hob (d.val * Config.hobBytes + o) n

/-- Write a die's Hob. -/
def State.hobWrite (s : State) (d : DieId) (o n v : Nat) : State :=
  { s with hob := writeN s.hob (d.val * Config.hobBytes + o) n v }

/-! ### The brick codec -/

/-- The next sixteen elements of a delta group, oldest last in the list (06 R135). -/
def deltaElems (w b grp : Nat) : Nat → Nat → List Nat → Nat × List Nat
  | 0, prev, acc => (prev, acc)
  | left + 1, prev, acc =>
    let z := if b == 0 then 0 else (grp >>> (b * (15 - left))) % 2 ^ b
    let d := if z % 2 == 1 then 2 ^ w - 1 - z / 2 else z / 2
    let x := (prev + d) % 2 ^ w
    deltaElems w b grp left x (x :: acc)

/-- The little-endian number of `n` stream bytes. -/
def streamN (byte : Nat → Nat) (p : Nat) : Nat → Nat
  | 0 => 0
  | n + 1 => byte p + 256 * streamN byte (p + 1) n

/-- The groups of a delta stream: the position after the last one and the elements, newest first. -/
def deltaGroups (byte : Nat → Nat) (w : Nat) : Nat → Nat → Nat → List Nat → Option (Nat × List Nat)
  | 0, p, _, acc => some (p, acc)
  | g + 1, p, prev, acc =>
    let b := byte p
    if b > w then none
    else
      let r := deltaElems w b (streamN byte (p + 1) (2 * b)) 16 prev acc
      deltaGroups byte w g (p + 1 + 2 * b) r.1 r.2

/-- The elements, newest first, as one little-endian number. -/
def packElems (w : Nat) (xs : List Nat) : Nat := xs.foldl (fun n x => n * 2 ^ w + x) 0

/-- The number made of `n` copies of an element. -/
def repeatElem (w x : Nat) : Nat → Nat
  | 0 => 0
  | n + 1 => x + 2 ^ w * repeatElem w x n

/-- One brick of 4,096 bytes, decoded from the stream of LEN bytes at OFF; `lo` and `hi` bound it (06 R135,
R136; 15 R353). None is a decode error. -/
def decodeBrick (byte : Nat → Nat) (w off len lo hi : Nat) : Option Nat :=
  let h := byte off
  if off < lo || off + len > hi || h ≥ 4 then none
  else if h == 0 then if len == 4097 then some (streamN byte (off + 1) 4096) else none
  else if h == 1 then
    if len == 1 + w / 8 then some (repeatElem w (streamN byte (off + 1) (w / 8)) (4096 / (w / 8))) else none
  else if h == 2 then
    match deltaGroups byte w (4096 / (w / 8) / 16) (off + 1) 0 [] with
    | some (p, xs) => if p - off == len then some (packElems w xs) else none
    | none => none
  else none

/-- The bytes of a grain as its home supplies them: `size` bytes at physical address `pa` of a page with
codec field `codec`; none is a decode error (06 R134, R135). -/
def State.homeBytes (s : State) (pa size codec : Nat) : Option Nat :=
  if codec == 0 then some (s.phys pa size)
  else
    let frame := pa / 65536 * 65536
    let i := (pa - frame) / 4096
    let off := s.phys (frame + 8 * i) 4
    let len := s.phys (frame + 8 * i + 4) 4
    match decodeBrick (fun p => s.phys (frame + p) 1) (if codec == 1 then 32 else 16) off len 128 65536 with
    | some brick => some ((brick >>> (8 * (pa % 4096))) % 2 ^ (8 * size))
    | none => none

/-- An uncorrectable error lies in the grain (06 R130). -/
def State.isBad (s : State) (pa size : Nat) : Bool := s.bad.any (fun b => pa ≤ b && b < pa + size)

/-- The runs of bytes that the home reads for a grain of a page with a codec field: the grain, or, on a codec page, its brick's
directory entry and stream (06 R134, R135). -/
def State.grainSpans (s : State) (pa size codec : Nat) : List (Nat × Nat) :=
  if codec == 0 then [(pa, size)]
  else
    let frame := pa / 65536 * 65536
    let e := frame + 8 * ((pa - frame) / 4096)
    [(e, 8), (frame + s.phys e 4, min (s.phys (e + 4) 4) 65536)]

/-- The home cannot supply a grain: a byte that it reads for it has an uncorrectable error (06 R130). -/
def State.grainBad (s : State) (pa size codec : Nat) : Bool := (s.grainSpans pa size codec).any (fun r => s.isBad r.1 r.2)

end Sys2Proof.Machine
end

