-- ==== Sys2Proof/Machine/Memory.lean ====
section
/-! DEFINITION. The address space, the PLB, translation, homes, L1 and L2 (06 R111 to R133; 07 R146 to R154;
13 R294 to R296, R300). -/
namespace Sys2Proof.Machine
open Sys2Proof

/-- Why an access is not performed: a trap condition, or a remote home of a path-C access that HOPCTL
governs (13 R300). -/
inductive Stop where
  | trap (cause : BitVec 8) (value : Word)
  | remote (die : DieId) (va : Nat)
  deriving DecidableEq, Repr

/-- An address as a trap value. -/
def addrWord (a : Nat) : Word := BitVec.ofNat 64 a

/-- The cause and address of a stop. -/
def Stop.cause : Stop → BitVec 8 × Word
  | .trap c v => (c, v)
  | .remote _ va => (0x05, addrWord va)

/-! ### Regions of the address space (06 R111) -/

/-- The regions of 06 R111. -/
inductive Area where
  | paged
  | localAlias (core : CoreId) (off : Nat)
  | firmware (die : DieId) (off : Nat)
  | bellows (off : Nat)
  | localWindow (off : Nat)
  | reserved
  deriving DecidableEq, Repr

/-- The region of a virtual address. -/
def regionOf (a : Nat) : Area :=
  if a < Config.pagedEnd then .paged
  else if a < Config.aliasEnd then
    .localAlias (Fin.ofNat 512 ((a - Config.aliasBase) / 2 ^ 20)) ((a - Config.aliasBase) % 2 ^ 20)
  else if a < Config.fwBase then .reserved
  else if a < Config.fwEnd then .firmware (Fin.ofNat 8 ((a - Config.fwBase) / 65536)) ((a - Config.fwBase) % 65536)
  else if a < Config.bellowsBase then .reserved
  else if a < Config.bellowsEnd then .bellows (a - Config.bellowsBase)
  else if a < Config.localBase then .reserved
  else if a < Config.localBase + Config.localBytes then .localWindow (a - Config.localBase)
  else .reserved

/-! ### Units and homes (01 R9 to R12; 06 R114) -/

/-- The ring position of a virtual die under a map code, which is also the virtual die at a ring position:
each accepted map is its own inverse (01 R9). -/
def ringPos (code v : Nat) : Nat :=
  if code == 0 then v else if code == 1 then (v + 4) % 8 else if code == 2 then (11 - v) % 8 else (7 - v) % 8

/-- The site of a virtual die, and the virtual die at a site, under the map in force (01 R9). -/
def State.siteOf (s : State) (d : DieId) : DieId := Fin.ofNat 8 (ringPos s.bregs.vdmap d.val)

/-- The gap of stack Hi, which is also the stack in a gap (01 R10). -/
def gapOf (code i : Nat) : Nat :=
  if code == 0 then i else if code == 1 then (i + 4) % 8 else if code == 2 then (10 - i) % 8 else (14 - i) % 8

/-- The tier of a physical address, or none where no unit lies (06 R114). -/
def tierOf (pa : Nat) : Option Nat :=
  if pa < 0x8000000000 then some 0
  else if pa < Config.unitEnd then some 1
  else if Config.hostPhys ≤ pa then some 2
  else none

/-- The unit code of a physical address (06 R114). -/
def unitCode (pa : Nat) : Nat :=
  if pa < 0x8000000000 then pa / 2 ^ 36
  else if pa < Config.unitEnd then 8 + (pa - 0x8000000000) / 2 ^ 37
  else 16

/-- The die that is the home of a physical address; none for host memory (06 R114). -/
def State.homeOf (s : State) (pa : Nat) : Option DieId :=
  if pa < 0x8000000000 then some s.owners[(Fin.ofNat 8 (gapOf s.bregs.vdmap (pa / 2 ^ 36)))]
  else if pa < Config.unitEnd then some (Fin.ofNat 8 (ringPos s.bregs.vdmap ((pa - 0x8000000000) / 2 ^ 37)))
  else none

/-! ### Single-bit and uncorrectable errors (06 R130) -/

/-- Single-bit errors of the bytes that a die reads are corrected, and it counts them (06 R130). -/
def State.correct (s : State) (h : DieId) (pa size : Nat) : State :=
  let found := s.weak.countP (fun b => pa ≤ b && b < pa + size)
  if found == 0 then s
  else ({ s with weak := s.weak.filter (fun b => !(pa ≤ b && b < pa + size)) }).modDie h (fun x =>
    { x with corrected := x.corrected + found })

/-- The same for runs of bytes that are read at their home. -/
def State.correctRuns (s : State) (runs : List (Nat × Nat)) : State :=
  if s.weak.isEmpty then s
  else runs.foldl (fun t r =>
    match t.homeOf r.1 with
    | some h => t.correct h r.1 r.2
    | none => t) s

/-- A die corrects and counts the single-bit errors of a non-home copy that it reads. -/
def Die.correctCopy (d : Die) (ln : L2Line) : Die :=
  let hit := fun (b : Nat) => decide (ln.pa ≤ b) && decide (b < ln.pa + ln.size)
  { d with l2Weak := d.l2Weak.filter (fun b => !hit b), corrected := d.corrected + d.l2Weak.countP hit }

/-- A byte of a die's non-home copy has an uncorrectable error. -/
def Die.copyBad (d : Die) (ln : L2Line) : Bool := d.l2Bad.any (fun b => ln.pa ≤ b && b < ln.pa + ln.size)

/-! ### The PLB (06 R115 to R118) -/

/-- The rights of a region entry, bits 6:1 of its word 0: R, W, X, A, M, D. -/
def rightR : Nat := 1
/-- Write. -/
def rightW : Nat := 2
/-- Instruction fetch. -/
def rightX : Nat := 4
/-- Atomic operation. -/
def rightA : Nat := 8
/-- Firebox source. -/
def rightM : Nat := 16
/-- Engine or agent operand. -/
def rightD : Nat := 32

/-- Physical base and entry count of a domain's region table; none for an invalid domain (06 R115), or where the entry cannot be
read (06 R130). -/
def State.domainTable (s : State) (d : DieId) (domain : Nat) : Option (Nat × Nat) :=
  let fw := (s.dieAt d).fw
  if domain < fw.dtcnt && !s.isBad (fw.dtbase + 16 * domain) 16 then
    let w0 := s.phys (fw.dtbase + 16 * domain) 8
    let w1 := s.phys (fw.dtbase + 16 * domain + 8) 8
    if w0 / 2 ^ 52 == 0 && w0 % 64 == 0 && w1 ≤ 1024 then some (w0, w1) else none
  else none

/-- The first matching entry for a page among `n` entries from physical address `p`, trimmed to the pages
that no earlier entry matches (06 R116); none from an entry on that cannot be read (06 R130). -/
def State.regionScan (s : State) (domain : BitVec 16) (page : Nat) : Nat → Nat → Nat → Nat → Option PlbEntry
  | 0, _, _, _ => none
  | n + 1, p, lo, hi =>
    let w0 := s.phys p 8
    let w1 := s.phys (p + 8) 8
    let first := w0 / 2 ^ 16
    let last := w1 / 2 ^ 16
    if s.isBad p 16 then none
    else if w0 % 2 == 1 && w0 / 2 ^ 52 == 0 && w0 / 128 % 512 == 0 && w1 / 2 ^ 52 == 0 && w1 % 2 ^ 16 == 0 then
      if first ≤ page && page ≤ last then
        some ⟨domain, max first lo, min last hi, BitVec.ofNat 6 (w0 / 2)⟩
      else if last < page then State.regionScan s domain page n (p + 16) (max lo (last + 1)) hi
      else State.regionScan s domain page n (p + 16) lo (if first == 0 then hi else min hi (first - 1))
    else State.regionScan s domain page n (p + 16) lo hi

/-- The region entry for a page of a domain, read from the tables (06 R115, R116). -/
def State.tableEntry (s : State) (d : DieId) (domain : BitVec 16) (page : Nat) : Option PlbEntry :=
  match s.domainTable d domain.toNat with
  | some (base, n) => s.regionScan domain page n base 0 (2 ^ 36 - 1)
  | none => none

/-- The runs of bytes that a die reads to find a domain's region entries: its entry of the domain table and its region table. -/
def State.tableRuns (s : State) (d : DieId) (domain : BitVec 16) : List (Nat × Nat) :=
  let fw := (s.dieAt d).fw
  if domain.toNat < fw.dtcnt then
    (fw.dtbase + 16 * domain.toNat, 16) ::
      (match s.domainTable d domain.toNat with
      | some (base, n) => [(base, 16 * n)]
      | none => [])
  else []

/-- A byte of these runs that has an uncorrectable error. -/
def State.firstBad (s : State) (runs : List (Nat × Nat)) : Option Nat :=
  s.bad.find? (fun b => runs.any (fun r => r.1 ≤ b && b < r.1 + r.2))

/-- Why an access without the rights it needs is not performed: it consumed an uncorrectable entry (06 R130), or a protection
fault (06 R116). -/
def State.denial (s : State) (d : DieId) (domain : BitVec 16) (va : Nat) : Stop :=
  if (s.tableEntry d domain (va / 65536)).isNone && (s.firstBad (s.tableRuns d domain)).isSome then .trap 0x08 (addrWord va)
  else .trap 0x05 (addrWord va)

/-- The entry holds all the rights needed. -/
def PlbEntry.grants (e : PlbEntry) (need : Nat) : Bool := e.rights.toNat &&& need == need

/-- Rights check through the PLB of a core; a missing entry is loaded, the oldest of 128 making room (log 3). -/
def State.plbCheck (s : State) (c : CoreId) (domain : BitVec 16) (va need : Nat) : Bool × State :=
  let page := va / 65536
  match (s.coreAt c).plb.find? (fun e => e.domain == domain && e.first ≤ page && page ≤ e.last) with
  | some e => (e.grants need, s)
  | none =>
    match s.tableEntry (dieOf c) domain page with
    | some e => (e.grants need, (s.correctRuns (s.tableRuns (dieOf c) domain)).modCore c (fun k =>
        { k with plb := (if k.plb.length < 128 then k.plb else k.plb.drop 1) ++ [e] }))
    | none => (false, s)

/-- Rights check of an access that no PLB serves, from the tables (06 R117). -/
def State.tableCheck (s : State) (d : DieId) (domain : BitVec 16) (va need : Nat) : Bool :=
  match s.tableEntry d domain (va / 65536) with
  | some e => e.grants need
  | none => false

/-- The valid entries of a domain's region table, in its order (06 R115, R116). -/
def State.regionsOf (s : State) (d : DieId) (domain : BitVec 16) : List RegionSpan :=
  match s.domainTable d domain.toNat with
  | some (base, n) => (List.range n).filterMap (fun i =>
      let w0 := s.phys (base + 16 * i) 8
      let w1 := s.phys (base + 16 * i + 8) 8
      if w0 % 2 == 1 && w0 / 2 ^ 52 == 0 && w0 / 128 % 512 == 0 && w1 / 2 ^ 52 == 0 && w1 % 2 ^ 16 == 0 then
        some ⟨w0 / 2 ^ 16, w1 / 2 ^ 16, BitVec.ofNat 6 (w0 / 2)⟩
      else none)
  | none => []

/-- Rights check of an operand of a command, from the region table as its agent read it when it accepted the command
(06 R116, R117; 17 R412). -/
def commandGrants (c : Command) (va need : Nat) : Bool :=
  match c.regions.find? (fun e => e.first ≤ va / 65536 && va / 65536 ≤ e.last) with
  | some e => e.rights.toNat &&& need == need
  | none => false

/-! ### The page table (13 R294, R295) -/

/-- A leaf entry at `pte` whose words are `w0` and `w1`, mapping `size` bytes; none is not present (13 R295). -/
def leafOf (va size pte w0 w1 : Nat) : Option Leaf :=
  let frame := w0 / 2 ^ 16 % 2 ^ 36 * 2 ^ 16
  let grain := w0 / 2 ^ 14 % 4
  let codec := w0 / 2 ^ 12 % 4
  let tier := w1
  if w0 / 2 ^ 52 % 2 ^ 10 != 0 || w0 / 256 % 2 != 0 || grain == 3 || codec == 3 || frame % size != 0 then none
  else if codec != 0 && size != 65536 then none
  else if tierOf frame != some tier then none
  else some ⟨va / size * size, size, frame, if grain == 0 then 32 else if grain == 1 then 128 else 512, codec,
    w0 / 2 ^ 11 % 2 == 1, w0 / 2 ^ 9 % 2 == 1, w0 % 256, tier, pte⟩

/-- Walk `left` more levels from a table (13 R294); an entry that cannot be read gives no leaf (06 R130). -/
def State.walk (s : State) (va : Nat) : Nat → Nat → Option Leaf
  | 0, _ => none
  | left + 1, table =>
    let pte := table + 16 * (va / 2 ^ (16 + 9 * left) % 512)
    if Config.unitEnd ≤ pte || s.isBad pte 16 then none
    else
      let w0 := s.phys pte 8
      let w1 := s.phys (pte + 8) 8
      let kind := w0 / 2 ^ 62
      if kind == 1 then
        if w0 / 2 ^ 52 % 2 ^ 10 != 0 || w0 % 2 ^ 13 != 0 || w1 != 0 then none
        else State.walk s va left (w0 % 2 ^ 52)
      else if kind == 2 && left != 3 then leafOf va (2 ^ (16 + 9 * left)) pte w0 w1
      else none

/-- The entries that a walk of `left` more levels from a table reads. -/
def State.walkRuns (s : State) (va : Nat) : Nat → Nat → List (Nat × Nat)
  | 0, _ => []
  | left + 1, table =>
    let pte := table + 16 * (va / 2 ^ (16 + 9 * left) % 512)
    if Config.unitEnd ≤ pte then []
    else (pte, 16) :: (if s.phys pte 8 / 2 ^ 62 == 1 then State.walkRuns s va left (s.phys pte 8 % 2 ^ 52) else [])

/-- Why an address has no leaf on a die: its walk consumed an uncorrectable entry (06 R130), or the page is not present. -/
def State.notPresent (s : State) (d : DieId) (va : Nat) : Stop :=
  if (s.firstBad (s.walkRuns va 4 (s.dieAt d).fw.ptbase)).isSome then .trap 0x08 (addrWord va) else .trap 0x06 (addrWord va)

/-- The slice of a virtual address (06 R128). -/
def sliceOf (va : Nat) : Nat := (va / 512 % 16) ^^^ (va / 8192 % 16)

/-- The leaf covers the address. -/
def Leaf.covers (l : Leaf) (va : Nat) : Bool := l.vbase ≤ va && va < l.vbase + l.size

/-- The physical address of a virtual address under a leaf. -/
def Leaf.pa (l : Leaf) (va : Nat) : Nat := l.frame + (va - l.vbase)

/-- The unit of a page's home writes HOT and QUEUED of a leaf back to its entry (06 R131). -/
def State.writeHot (s : State) (l : Leaf) : State :=
  let b1 := s.phys (l.pte + 1) 1
  { s with mem := writeN (writeN s.mem l.pte 1 l.hot) (l.pte + 1) 1 (b1 / 4 * 4 + (if l.queued then 2 else 0) + b1 % 2) }

/-- A unit of die `d` gives a leaf up: the page's home, which keeps the counter, writes HOT and QUEUED back (06 R131), unless
firmware has written them since a unit read them, to re-arm the page (06 R132; log 49). -/
def State.giveUpLeaf (s : State) (d : DieId) (l : Leaf) : State :=
  if s.homeOf l.frame == some d && !s.rewritten.contains l.pte then s.writeHot l else s

/-- Rewritten entries of which no unit keeps a leaf any more are forgotten. -/
def State.forgetRewritten (s : State) : State :=
  if s.rewritten.isEmpty then s
  else { s with rewritten := s.rewritten.filter (fun p => s.dies.toList.any (fun d => d.tlb.any (fun e => e.leaf.pte == p))) }

/-- Keep a leaf in the unit of a slice; of 4,096 the oldest is evicted (13 R296; log 3). -/
def State.tlbInsert (s : State) (d : DieId) (slice : Nat) (l : Leaf) : State :=
  let tlb := (s.dieAt d).tlb
  if tlb.countP (fun e => e.slice == slice) < 4096 then s.modDie d (fun x => { x with tlb := tlb ++ [⟨slice, l⟩] })
  else match tlb.find? (fun e => e.slice == slice) with
    | some old => ((s.giveUpLeaf d old.leaf).modDie d (fun x => { x with tlb := tlb.erase old ++ [⟨slice, l⟩] })).forgetRewritten
    | none => s

/-- The leaf that the translation unit of a die uses for an address; a not-present result is not kept. A page
has one hotness counter on a die, whichever slice's unit holds it, until firmware gives the entry a new one (06 R131, R132; 13
R296). -/
def State.translate (s : State) (d : DieId) (va : Nat) : Option (Leaf × State) :=
  let tlb := (s.dieAt d).tlb
  match tlb.find? (fun e => e.slice == sliceOf va && e.leaf.covers va) with
  | some e => some (e.leaf, s)
  | none =>
    match s.walk va 4 (s.dieAt d).fw.ptbase with
    | none => none
    | some l =>
      let s1 := s.correctRuns (s.walkRuns va 4 (s.dieAt d).fw.ptbase)
      let l1 := match tlb.find? (fun e => e.leaf.pte == l.pte && e.leaf.frame == l.frame) with
        | some e => if s.rewritten.contains l.pte then l else { l with hot := e.leaf.hot, queued := e.leaf.queued }
        | none => l
      some (l1, s1.tlbInsert d (sliceOf va) l1)

/-- The leaf of an address as its home translates it: that of the die whose unit of the address's slice finds the page at home
there; for host memory, die 0's (14 R311; 13 R296; log 41). -/
def State.homeTranslate (s : State) (va : Nat) : Option (Leaf × State) :=
  let atHome := fun (d : DieId) => match s.translate d va with
    | some (l, _) => s.homeOf (l.pa va) == some d
    | none => false
  match ((List.range 8).map (Fin.ofNat 8)).find? atHome with
  | some d => s.translate d va
  | none => s.translate 0 va

/-! ### Hotness (06 R131 to R133) -/

/-- Change HOT and QUEUED of every cached copy of a page's leaf on a die. -/
def State.setHot (s : State) (d : DieId) (l : Leaf) (hot : Nat) (queued : Bool) : State :=
  s.modDie d (fun x => { x with tlb := x.tlb.map (fun e =>
    if e.leaf.pte == l.pte then { e with leaf := { e.leaf with hot := hot, queued := queued } } else e) })

/-- A crossing at home `d`: append a notification and set QUEUED, or drop it (06 R132, R133). The spec does not say whether
NQBASE is a physical address; here it is, as DTBASE and PTBASE are (DESIGN CHOICE, log 50). -/
def State.crossing (s : State) (d : DieId) (l : Leaf) (va hot : Nat) : State :=
  let fw := (s.dieAt d).fw
  let count := (fw.nqtail - fw.nqhead).toNat
  if count < 1024 then
    let at_ := fw.nqbase + 16 * (fw.nqtail.toNat % 1024)
    let w0 := l.vbase / 65536 * 65536 + hot * 256 + unitCode (l.pa va) * 8 + d.val
    let s1 := (s.physWrite at_ 8 w0).physWrite (at_ + 8) 8 (s.time % 2 ^ 64)
    let s2 := s1.modDie d (fun x => { x with fw := { x.fw with nqtail := x.fw.nqtail + 1 } })
    (s2.setHot d l hot true).writeHot { l with hot := hot, queued := true }
  else s.modDie d (fun x => { x with fw := { x.fw with
    ovf := true, dropped := min (x.fw.dropped + 1) (2 ^ 32 - 1) } })

/-- Count a fill of a grain of the page from its memory unit at home `d` (06 R131, R132). -/
def State.countFill (s : State) (d : DieId) (va : Nat) : State :=
  match s.translate d va with
  | none => s
  | some (l, s0) =>
    let fw := (s0.dieAt d).fw
    let hot := min (l.hot + 1) 255
    let s1 := s0.setHot d l hot l.queued
    let thr := if l.tier == 0 then fw.thrh else if l.tier == 1 then fw.thrl else 0
    if thr != 0 && hot == thr && l.hot != hot && !l.queued then s1.crossing d l va hot else s1

/-- An access reaches beyond its region or into one that the access may not name (06 R111). -/
def protection (va : Nat) : Stop := .trap 0x05 (addrWord va)

/-! ### L2: home lines, non-home copies and the Flue (06 R128, R129; 07 R146; 01 R16) -/

/-- The line of a die's L2 that holds an address. -/
def Die.line (d : Die) (va : Nat) : Option L2Line := d.l2.find? (fun ln => ln.va ≤ va && va < ln.va + ln.size)

/-- Put a line in place of any line of the same grain. -/
def Die.putLine (d : Die) (ln : L2Line) : Die :=
  if d.l2.any (fun o => o.va == ln.va) then { d with l2 := d.l2.map (fun o => if o.va == ln.va then ln else o) }
  else { d with l2 := d.l2 ++ [ln] }

/-- Drop the line of a grain. -/
def Die.dropLine (d : Die) (va : Nat) : Die := { d with l2 := d.l2.filter (fun o => o.va != va) }

/-! ### Injection limits (01 R18; 14 R318) -/

/-- The flits that a domain may inject at a die in one window; none when unrestricted (14 R318). -/
def State.injectLimit (s : State) (d : DieId) (domain : Nat) : Option Nat :=
  let fw := (s.dieAt d).fw
  let n := if domain < fw.injcnt then s.phys (fw.injbase + 4 * domain) 4 else 0
  if n == 0 then none else some n

/-- The flits of a domain that stand against its allowance at a die. -/
def Die.usedFlits (d : Die) (domain : Nat) : Nat := ((d.injected.find? (fun e => e.1 == domain)).map (fun e => e.2)).getD 0

/-- Count flits of a domain. -/
def Die.countFlits (d : Die) (domain n : Nat) : Die :=
  { d with injected := (domain, d.usedFlits domain + n) :: d.injected.filter (fun e => e.1 != domain) }

/-- A domain injects `n` flits at a die; they count while the domain has a limit there. -/
def State.charge (s : State) (d : DieId) (domain : BitVec 16) (n : Nat) : State :=
  if (s.injectLimit d domain.toNat).isSome then s.modDie d (fun x => x.countFlits domain.toNat n) else s

/-- What leads from `s` to `t` would exceed a domain's limit at a die (01 R18). One step may send more than a whole limit: with
the window's allowance untouched it goes on, and what exceeds it stands against the windows that follow (log 17). -/
def State.overLimit (s t : State) (d : DieId) (domain : BitVec 16) : Bool :=
  let before := (s.dieAt d).usedFlits domain.toNat
  let after := (t.dieAt d).usedFlits domain.toNat
  match s.injectLimit d domain.toNat with
  | some lim => before != 0 && before < after && lim < after
  | none => false

/-- The first cycle of the next window of 1,024 cycles (01 R18). -/
def State.nextWindow (s : State) : Nat := (s.cycle / 1024 + 1) * 1024

/-- The flits of the packets for the masked bytes: a header for each 256 bytes that hold some, and one data flit for each
64 bytes that do (01 R16). -/
def packetFlits (mask : Nat) : Nat :=
  (List.range 2).countP (fun i => (mask >>> (256 * i)) % 2 ^ 256 != 0) + (List.range 8).countP (fun i => (mask >>> (64 * i)) % 2 ^ 64 != 0)

/-- The domain that a line's write-back is charged to: its first writer's; a line of an engine's or agent's bytes alone is
charged to the command's domain before it is written back (log 17). -/
def State.lineDomain (s : State) (ln : L2Line) : Option (BitVec 16) := ln.writers.head?.map (fun p => (s.ctxAt p.1 p.2).domain)

/-- The write-back of a line counts. -/
def State.chargeLine (s : State) (d : DieId) (ln : L2Line) : State :=
  match s.lineDomain ln with
  | some domain => s.charge d domain (packetFlits ln.dirty)
  | none => s

/-! ### Lines and their bytes -/

/-- The mask of `n` bytes from byte `off` of a grain. -/
def byteMask (off n : Nat) : Nat := (2 ^ n - 1) <<< off

/-- A packet arrives: its masked bytes are merged at the home (06 R129). -/
def State.deliver (s : State) (p : Packet) : State := s.physMasked p.pa 512 p.mask p.data

/-- Every write-back in flight from a die arrives, in the order sent (01 R16). -/
def State.drainFlue (s : State) (d : DieId) : State :=
  let mine := s.flue.filter (fun p => p.src == d)
  let s1 := mine.foldl State.deliver s
  { s1 with flue := s1.flue.filter (fun p => p.src != d) }

/-- Write back the dirty bytes of a line and wait for the home's acknowledgement (07 R146). -/
def State.writeBack (s : State) (d : DieId) (ln : L2Line) : State :=
  if ln.dirty == 0 then s
  else
    let s1 := (s.drainFlue d).chargeLine d ln
    (s1.physMasked ln.pa ln.size ln.dirty ln.data).modDie d (fun x => x.putLine { ln with valid := ln.valid ||| ln.dirty, dirty := 0, writers := [] })

/-- Write back every dirty non-home copy of a die (07 R149 step 2). -/
def State.writeBackAll (s : State) (d : DieId) : State :=
  ((s.drainFlue d).dieAt d).l2.foldl (fun t ln => t.writeBack d ln) (s.drainFlue d)

/-- Write back and invalidate a die's non-home copy of the grain that holds an address (06 R129). -/
def State.flushCopy (s : State) (d : DieId) (va : Nat) : State :=
  match (s.dieAt d).line va with
  | some ln => if ln.home then s else (s.writeBack d ln).modDie d (fun x => x.dropLine ln.va)
  | none => s

/-- Bring a grain into its home's L2: from the memory unit unless the home holds it; none where the grain
is uncorrectable (06 R130, R131, R136). -/
def State.homeFill (s : State) (h : DieId) (va pa size codec : Nat) (owner : Bool) : Option (Nat × State) :=
  if s.grainBad pa size codec then none
  else match s.homeBytes pa size codec with
    | none => none
    | some d =>
      let t := s.correctRuns (s.grainSpans pa size codec)
      match (t.dieAt h).line va with
      | some _ => some (d, t)
      | none => some (d, (t.countFill h va).modDie h (fun x => x.putLine ⟨va, size, pa, true, codec, owner, 0, 0, 0, []⟩))

/-- Host memory is cached only under CXL (14 R312). -/
def State.hostCached (s : State) : Bool := s.linkUp && s.cxl

/-- The state of an access that misses in L2: the leaf, and where the grain's home is. A missing leaf is
cause 0x06; `remote` asks for 13 R300's test of a home on another die. -/
def State.miss (s : State) (d : DieId) (remote : Bool) (va : Nat) : Except Stop (Leaf × State) :=
  match s.translate d va with
  | none => .error (s.notPresent d va)
  | some (l, s1) =>
    match s1.homeOf (l.pa va) with
    | some h => if remote && h != d then .error (.remote h va) else .ok (l, s1)
    | none => .ok (l, s1)

/-- Read `n` bytes of one grain through a die's L2 (06 R128, R129). `fresh` has the home serve the read, with
the die's dirty bytes merged (07 R150). -/
def State.l2Read (s : State) (d : DieId) (remote fresh : Bool) (va n : Nat) : Except Stop (Nat × State) :=
  let bad : Except Stop (Nat × State) := .error (.trap 0x08 (addrWord va))
  let take := fun (g data : Nat) => (data >>> (8 * (va - g))) % 2 ^ (8 * n)
  let fill := fun (_ : Unit) =>
    match s.miss d remote va with
    | .error e => .error e
    | .ok (l, s1) =>
      let g := va / l.grain * l.grain
      let pa := l.pa g
      match s1.homeOf pa with
      | none =>
        if s1.grainBad pa l.grain l.codec then bad
        else match s1.homeBytes pa l.grain l.codec with
          | none => bad
          | some supplied =>
            if s1.hostCached then
              let old := ((s1.dieAt d).line va).getD ⟨g, l.grain, pa, false, l.codec, l.owner, 0, 0, 0, []⟩
              let data := mergeMasked l.grain old.dirty old.data supplied
              .ok (take g data, s1.modDie d (fun x => x.putLine { old with valid := byteMask 0 l.grain, data := data }))
            else .ok (take g supplied, s1)
      | some h =>
        if h == d then
          match s1.homeFill d g pa l.grain l.codec l.owner with
          | some (data, s2) => .ok (take g data, s2)
          | none => bad
        else
          match (s1.drainFlue d).homeFill h g pa l.grain l.codec l.owner with
          | some (data, s2) =>
            let old := ((s2.dieAt d).line va).getD ⟨g, l.grain, pa, false, l.codec, l.owner, 0, 0, 0, []⟩
            let merged := mergeMasked l.grain old.dirty old.data data
            .ok (take g merged, s2.modDie d (fun x => x.putLine { old with valid := byteMask 0 l.grain, data := merged }))
          | none => bad
  match (s.dieAt d).line va with
  | some ln =>
    if ln.home then
      if s.grainBad ln.pa ln.size ln.codec then bad
      else match s.homeBytes ln.pa ln.size ln.codec with
        | some data => .ok (take ln.va data, s.correctRuns (s.grainSpans ln.pa ln.size ln.codec))
        | none => bad
    else if (s.dieAt d).copyBad ln then bad
    else if !fresh && (ln.valid ||| ln.dirty) &&& byteMask (va - ln.va) n == byteMask (va - ln.va) n then
      .ok (take ln.va ln.data, if (s.dieAt d).l2Weak.isEmpty then s else s.modDie d (fun x => x.correctCopy ln))
    else fill ()
  | none => fill ()

/-- The line with `n` bytes written at an address. -/
def L2Line.store (ln : L2Line) (va n v : Nat) (writer : Option (CoreId × CtxId)) : L2Line :=
  let m := byteMask (va - ln.va) n
  { ln with
    data := mergeMasked ln.size m (v <<< (8 * (va - ln.va))) ln.data
    dirty := ln.dirty ||| m
    writers := match writer with
      | some w => if ln.writers.contains w then ln.writers else ln.writers ++ [w]
      | none => ln.writers }

/-- Write `n` bytes of one grain at a die's L2: at the home itself, or into a non-home copy, which a store
allocates without a fill (06 R129). A codec page is cause 0x05 (R134), a page the host owns 0x06 (13 R295). At the home the
grain is filled first, and with an uncorrectable error it is cause 0x08: whether such a store consumes the data the spec
does not say (DESIGN CHOICE, log 51). -/
def State.l2Write (s : State) (d : DieId) (remote : Bool) (writer : Option (CoreId × CtxId)) (va n v : Nat) :
    Except Stop State :=
  match (s.dieAt d).line va with
  | some ln =>
    if ln.codec != 0 then .error (.trap 0x05 (addrWord va))
    else if ln.owner then .error (.trap 0x06 (addrWord va))
    else if ln.home then
      if s.isBad ln.pa ln.size then .error (.trap 0x08 (addrWord va))
      else .ok ((s.correctRuns [(ln.pa, ln.size)]).physWrite (ln.pa + (va - ln.va)) n v)
    else .ok (s.modDie d (fun x => x.putLine (ln.store va n v writer)))
  | none =>
    match s.translate d va with
    | none => .error (s.notPresent d va)
    | some (l, s1) =>
      let g := va / l.grain * l.grain
      let pa := l.pa g
      if l.codec != 0 then .error (.trap 0x05 (addrWord va))
      else if l.owner then .error (.trap 0x06 (addrWord va))
      else
        let copy : State := s1.modDie d (fun x =>
          x.putLine ((L2Line.mk g l.grain pa false 0 false 0 0 0 []).store va n v writer))
        match s1.homeOf pa with
        | none => .ok (if s1.hostCached then copy else s1.physWrite (l.pa va) n v)
        | some h =>
          if h == d then
            match s1.homeFill d g pa l.grain 0 false with
            | some (_, s2) => .ok (s2.physWrite (l.pa va) n v)
            | none => .error (.trap 0x08 (addrWord va))
          else if remote then .error (.remote h va)
          else .ok copy

/-- The physical address that an atomic operation or a region's commit reaches at its home, after the issuing
die's copy is written back and invalidated and its earlier write-backs have arrived (01 R16; 06 R129; 15 R333); a codec page or TIER 2 is cause 0x05. -/
def State.atHome (s : State) (d : DieId) (remote write : Bool) (va : Nat) : Except Stop (Nat × State) :=
  match (s.dieAt d).line va with
  | some ln =>
    if ln.codec != 0 || Config.hostPhys ≤ ln.pa then .error (.trap 0x05 (addrWord va))
    else if write && ln.owner then .error (.trap 0x06 (addrWord va))
    else if ln.home then
      if s.isBad ln.pa ln.size then .error (.trap 0x08 (addrWord va))
      else .ok (ln.pa + (va - ln.va), s.correctRuns [(ln.pa, ln.size)])
    else
      let s1 := (s.drainFlue d).flushCopy d va
      match s1.homeOf ln.pa with
      | none => .error (.trap 0x05 (addrWord va))
      | some h =>
        match s1.homeFill h ln.va ln.pa ln.size 0 ln.owner with
        | some (_, s2) => .ok (ln.pa + (va - ln.va), s2)
        | none => .error (.trap 0x08 (addrWord va))
  | none =>
    match s.translate d va with
    | none => .error (s.notPresent d va)
    | some (l, s1) =>
      let g := va / l.grain * l.grain
      if l.codec != 0 || l.tier == 2 then .error (.trap 0x05 (addrWord va))
      else if write && l.owner then .error (.trap 0x06 (addrWord va))
      else match s1.homeOf (l.pa g) with
        | none => .error (.trap 0x05 (addrWord va))
        | some h =>
          if remote && h != d then .error (.remote h va)
          else match (s1.drainFlue d).homeFill h g (l.pa g) l.grain 0 l.owner with
            | some (_, s2) => .ok (l.pa va, s2)
            | none => .error (.trap 0x08 (addrWord va))

/-! ### L1 (06 R126) -/

/-- The L1 copy that holds an address. -/
def l1Find (ls : List L1Line) (va : Nat) : Option L1Line := ls.find? (fun ln => ln.va ≤ va && va < ln.va + ln.size)

/-- The bytes that the lines hold. -/
def l1Size (ls : List L1Line) : Nat := ls.foldl (fun n ln => n + ln.size) 0

/-- Drop the oldest lines until the rest fits `cap` bytes (log 3). -/
def l1Trim (cap : Nat) : List L1Line → List L1Line
  | [] => []
  | ln :: ls => if l1Size (ln :: ls) ≤ cap then ln :: ls else l1Trim cap ls

/-- Update the copies that L1 holds, as a store does (06 R126). -/
def l1Store (ls : List L1Line) (va n v : Nat) : List L1Line :=
  ls.map (fun ln => if ln.va ≤ va && va < ln.va + ln.size then
    { ln with data := mergeMasked ln.size (byteMask (va - ln.va) n) (v <<< (8 * (va - ln.va))) ln.data } else ln)

/-- The whole grain as the die's L2 holds it, where it holds all its bytes. -/
def State.grainData (s : State) (d : DieId) (va : Nat) : Option L1Line :=
  match (s.dieAt d).line va with
  | none => none
  | some ln =>
    if ln.home then (s.homeBytes ln.pa ln.size ln.codec).map (fun x => ⟨ln.va, ln.size, x⟩)
    else if (ln.valid ||| ln.dirty) == byteMask 0 ln.size then some ⟨ln.va, ln.size, ln.data⟩
    else none

/-- Fill the grain of an address into a core's L1 (06 R126, R128). -/
def State.l1Fill (s : State) (c : CoreId) (va : Nat) : State :=
  match s.grainData (dieOf c) va with
  | some ln => s.modCore c (fun k => { k with l1 := l1Trim Config.l1Bytes (k.l1 ++ [ln]) })
  | none => s

/-- Invalidate a core's L1 (07 R150). -/
def State.l1Clear (s : State) (c : CoreId) : State := s.modCore c (fun k => { k with l1 := [] })

/-! ### Accesses of a core's contexts (paths C and V) -/

/-- How a load is served: through L1, or by the die's L2, or by the home (07 R150; 16 R388). -/
inductive Serve where
  | l1
  | l2
  | home
  deriving DecidableEq, Repr

/-- The core whose local memory the executing context's local window names: its home core (13 R302). -/
def State.localCoreOf (s : State) : CoreId := s.cur.1

/-- A read through a die's L2 goes to a home on another die. -/
def State.readsFar (s : State) (d : DieId) (fresh : Bool) (va n : Nat) : Bool :=
  let far := fun (pa : Nat) => match s.homeOf pa with
    | some h => h != d
    | none => false
  match (s.dieAt d).line va with
  | some ln => !ln.home && far ln.pa &&
      (fresh || (ln.valid ||| ln.dirty) &&& byteMask (va - ln.va) n != byteMask (va - ln.va) n)
  | none =>
    match s.translate d va with
    | some (l, _) => far (l.pa va)
    | none => false

/-- The request of a read for a domain counts against its limit: a header flit (01 R16, R18; log 17). -/
def State.chargeRead (s : State) (d : DieId) (domain : BitVec 16) (far : Bool) : State :=
  if far then s.charge d domain 1 else s

/-- A load of `n` bytes by the executing context from local or paged memory (06 R111, R116). `remote` asks for
13 R300's test of a remote home. -/
def State.load (s : State) (serve : Serve) (remote : Bool) (va n : Nat) : Except Stop (Nat × State) :=
  match regionOf va with
  | .localWindow o => .ok (s.localRead s.localCoreOf o n, s)
  | .paged =>
    let c := s.runCore
    let chk := s.plbCheck c s.ctx.domain va rightR
    if !chk.1 then .error (s.denial (dieOf c) s.ctx.domain va)
    else
      let s1 := chk.2
      match (if serve = .l1 then l1Find (s1.coreAt c).l1 va else none) with
      | some ln => .ok ((ln.data >>> (8 * (va - ln.va))) % 2 ^ (8 * n), s1)
      | none =>
        match s1.l2Read (dieOf c) remote (serve = .home) va n with
        | .error e => .error e
        | .ok (v, s2) =>
          let s3 := s2.chargeRead (dieOf c) s.ctx.domain (s1.readsFar (dieOf c) (serve = .home) va n)
          .ok (v, if serve = .l1 then s3.l1Fill c va else s3)
  | _ => .error (protection va)

/-- A store of the low `n` bytes of `v` by the executing context to local or paged memory. -/
def State.store (s : State) (remote : Bool) (va n v : Nat) : Except Stop State :=
  match regionOf va with
  | .localWindow o => .ok (s.localWrite s.localCoreOf o n v)
  | .paged =>
    let c := s.runCore
    let chk := s.plbCheck c s.ctx.domain va rightW
    if !chk.1 then .error (s.denial (dieOf c) s.ctx.domain va)
    else match chk.2.l2Write (dieOf c) remote (some s.cur) va n v with
      | .error e => .error e
      | .ok s1 => .ok (s1.modCore c (fun k => { k with l1 := l1Store k.l1 va n v }))
  | _ => .error (protection va)

/-! ### Scopes, releases and acquires (07 R147 to R154) -/

/-- A scope value that 07 R147 accepts. -/
def scopeOk (w : Word) : Bool :=
  let kind := bits w 59 56
  bits w 63 60 == 0 && kind ≤ 4 && bits w 55 32 == 0 &&
  (if kind == 1 then
    bits w 31 24 ≤ 15 && bits w 15 8 ≤ bits w 31 24 && bits w 23 16 ≤ 31 && bits w 7 0 ≤ bits w 23 16
  else bits w 31 0 == 0)

/-- The kind of a scope: 0 CORE, 1 RECT, 2 DIE, 3 PACKAGE, 4 SYSTEM. -/
def scopeKind (w : Word) : Nat := bits w 59 56

/-- The scope of kind PACKAGE. -/
def packageScope : Word := 0x0300000000000000

/-- A scope, issued on core `c`, contains core `t` (07 R148). -/
def scopeHolds (w : Word) (c t : CoreId) : Bool :=
  match scopeKind w with
  | 0 => c == t
  | 1 => bits w 7 0 ≤ coreX t && coreX t ≤ bits w 23 16 && bits w 15 8 ≤ coreY t && coreY t ≤ bits w 31 24
  | 2 => dieOf c == dieOf t
  | _ => true

/-- A scope reaches beyond the die of its issuer (07 R148). -/
def scopeBeyond (w : Word) (d : DieId) : Bool :=
  match scopeKind w with
  | 0 => false
  | 1 => bits w 7 0 / 8 != d.val % 4 || bits w 23 16 / 8 != d.val % 4 ||
      bits w 15 8 / 8 != d.val / 4 || bits w 31 24 / 8 != d.val / 4
  | 2 => false
  | _ => true

/-- Steps 1 and 2 of a release by a context on core `c` (07 R149): its writes stand at the die's L2; beyond the
die, every dirty non-home copy is written back. Vector stores stand there from their issue, so earlier ones are covered
without a VDRAIN too, which 07 R151 leaves open (DESIGN CHOICE, log 2). -/
def State.releaseSteps (s : State) (c : CoreId) (scope : Word) : State :=
  if scopeBeyond scope (dieOf c) then s.writeBackAll (dieOf c) else s

/-- Discard the clean bytes of every non-home copy of a die (07 R150 step 2). -/
def Die.discardClean (d : Die) : Die :=
  let kept := d.l2.filter (fun ln => ln.home || ln.dirty != 0)
  { d with l2 := kept.map (fun ln => if ln.home then ln else { ln with valid := 0 }) }

/-- The steps of an acquire by a context on core `c` after its read (07 R150). -/
def State.acquireSteps (s : State) (c : CoreId) (scope : Word) : State :=
  let s1 := if scopeKind scope == 0 then s else s.l1Clear c
  if scopeBeyond scope (dieOf c) then s1.modDie (dieOf c) Die.discardClean else s1

/-- The home die and grain of a paged address, as the issuing die's L2 or translation tells. -/
def State.grainHome (s : State) (d : DieId) (va : Nat) : Option (DieId × Nat) :=
  match (s.dieAt d).line va with
  | some ln => (s.homeOf ln.pa).map (fun h => (h, ln.va))
  | none =>
    match s.translate d va with
    | some (l, _) => (s.homeOf (l.pa va)).map (fun h => (h, va / l.grain * l.grain))
    | none => none

/-- Record a release of core `c`, or of a unit of its die, at the home of its grain (07 R154). -/
def State.mark (s : State) (c : CoreId) (scope : Word) (va : Nat) : State :=
  match s.grainHome (dieOf c) va with
  | some (h, g) => s.modDie h (fun x => { x with
      markers := (⟨g, dieOf c, c, scope⟩ : Marker) :: (x.markers.filter (fun m => m.grain != g)) })
  | none => s

/-- Steps 1 and 2 of a promotion by a context on core `c` (07 R154). -/
def State.promote (s : State) (c : CoreId) (va : Nat) : State :=
  match s.grainHome (dieOf c) va with
  | some (h, g) =>
    match (s.dieAt h).markers.find? (fun m => m.grain == g) with
    | some m => if scopeHolds m.scope m.core c then s else s.writeBackAll m.die
    | none => s
  | none => s

end Sys2Proof.Machine
end

