-- ==== Sys2Proof/Machine/Ops.lean ====
section
/-! DEFINITION. The operations that every meaning shares: reply records and reports (08 R173, R174, R459),
atomic-region aborts (08 R192), taking a trap and returning from one (13 R289, R291; 08 R180), and issue:
the checks of 03 R60, the guard, STALL and the clock (03 R56, R61; 02 R30). -/
namespace Sys2Proof.Machine
open Sys2Proof

/-! ### Reports and replies -/

/-- Tell firmware or the host something (14 R322; log 24). -/
def State.report (s : State) (n : Note) : State := { s with notes := s.notes ++ [n] }

/-- Count a failed message without a reply (08 R174). -/
def State.countMsgErr (s : State) (d : DieId) : State :=
  s.modDie d (fun x => { x with fw := { x.fw with msgerr := min (x.fw.msgerr + 1) (2 ^ 32 - 1) } })

/-- The next sequence number of an outgoing stream (14 R315). -/
def nextSeq (t : List (Nat × Nat × Nat)) (dst cls : Nat) : Nat :=
  match t.find? (fun e => e.1 == dst && e.2.1 == cls) with
  | some e => e.2.2
  | none => 0

/-- Set a stream's next sequence number. -/
def setSeq (t : List (Nat × Nat × Nat)) (dst cls n : Nat) : List (Nat × Nat × Nat) :=
  (dst, cls, n) :: t.filter (fun e => !(e.1 == dst && e.2.1 == cls))

/-- TIME in microseconds (14 R315). -/
def State.micros (s : State) : Nat := s.time / 1000

/-- Two packets of one stream, which stay in order (14 R315). -/
def sameStream (f o : Frame) : Bool := f.src == o.src && f.dst == o.dst && f.cls == o.cls

/-- The age of a packet at a TIME in microseconds: 16 bits that saturate (14 R315). -/
def ageAt (now : Nat) (f : Frame) : Nat := min 65535 (f.age + (now - f.born))

/-- Of two packets the one that wins at a TIME: the older; then the one from the lower package, then from the lower core
(14 R315). -/
def olderFrame (now : Nat) (f o : Frame) : Bool :=
  if ageAt now f != ageAt now o then ageAt now o < ageAt now f
  else if f.src != o.src then f.src < o.src else f.core.val < o.core.val

/-- Put a packet among those that the ports send, which the oldest leaves first; none overtakes one of its own stream (14 R315). -/
def placeFrame (now : Nat) (f : Frame) : List Frame → List Frame
  | [] => [f]
  | o :: os =>
    if olderFrame now f o && !(o :: os).any (sameStream f) then f :: o :: os else o :: placeFrame now f os

/-- Hand a frame of a core, or of a unit of a core's die, to the scale-out transport (14 R315). -/
def State.sendFrame (s : State) (core : CoreId) (dst cls : Nat) (body : FrameBody) : State :=
  let n := nextSeq s.txSeq dst cls
  { s with
    txFrames := placeFrame s.micros ⟨s.bregs.pkgno, dst, cls, n, 0, core, s.micros, body, false⟩ s.txFrames
    txSeq := setSeq s.txSeq dst cls (n + 1) }

/-- A core holds a placed launch of a domain (06 R112). -/
def State.holdsDomain (s : State) (c : CoreId) (domain : BitVec 16) : Bool :=
  match (s.coreAt c).placed with
  | some p => p.domain == domain
  | none => false

/-- The core still holds the launch of a sender (08 R459). -/
def State.holdsSender (s : State) (p : Sender) : Bool := ((s.coreAt p.core).placed.map (·.launch)) == p.launch

/-- A write of `n` bytes by a die at PACKAGE scope release: earlier writes of the die are written back first,
and the write itself is performed at the home, whose marker it takes (07 R149, R154). -/
def State.releaseWrite (s : State) (d : DieId) (va n v : Nat) : Except Stop State :=
  match (s.writeBackAll d).l2Write d false none va n v with
  | .error e => .error e
  | .ok s1 =>
    let s2 := match (s1.dieAt d).line va with
      | some ln => if ln.home then s1 else s1.writeBack d ln
      | none => s1
    .ok (s2.mark (localCore d 0 0) packageScope va)

/-- Write the 16 bytes of a reply record at an address of this package (08 R173, R459); none where the write
cannot be made. -/
def State.putReply (s : State) (d : DieId) (p : Sender) (a : Nat) (w0 w1 : Word) : Option State :=
  let v := w0.toNat + w1.toNat * 2 ^ 64
  match regionOf a with
  | .localWindow o =>
    if s.holdsSender p && o + 16 ≤ Config.localBytes then some (s.localWrite p.core o 16 v) else none
  | .localAlias c o =>
    if o + 16 ≤ Config.localBytes && !isReserved c && s.holdsDomain c p.domain then some (s.localWrite c o 16 v) else none
  | .paged =>
    if s.tableCheck d p.domain a rightW then
      match s.releaseWrite d a 16 v with
      | .ok s1 => some s1
      | .error _ => none
    else none
  | _ => none

/-- Word 0 of a reply record (08 R173). -/
def replyWord (m : Message) (status : Nat) : Word :=
  BitVec.ofNat 64 (bits m.w0 31 0 * 2 ^ 32 + m.cmd * 2 ^ 16 + status)

/-- A reply record reaches another die: a header and a data flit (01 R16, R18; log 17). -/
def State.chargeReply (s : State) (d : DieId) (p : Sender) (a : Nat) : State :=
  match regionOf a with
  | .paged => if s.readsFar d true a 16 then s.charge d p.domain 2 else s
  | _ => if dieOf p.core == d then s else s.charge d p.domain 2

/-- End a message with a status and a value, at die `d`: the reply record, or the count of a failure, is a release at PACKAGE
scope, to another package at SYSTEM scope (07 R152, R159; 08 R173, R174, R459; 14 R316; 15 R350). -/
def State.reply (s : State) (d : DieId) (p : Sender) (m : Message) (status : Nat) (value : Word) : State :=
  if !m.rr then if status == 0 then s else (s.writeBackAll d).countMsgErr d
  else
    let t := s.writeBackAll d
    if p.remote then t.sendFrame (localCore d 0 0) p.pkg (bits m.w0 55 52) (.reply p m.w1 (replyWord m status) value)
    else match t.putReply d p (bits m.w1 51 0) (replyWord m status) value with
      | some u => u.chargeReply d p (bits m.w1 51 0)
      | none => (t.countMsgErr d).report (.replyFailed d.val (bits m.w1 51 0))

/-- VALUE of a FAULT reply (08 R173). -/
def faultValue (cause : BitVec 8) (v : Word) : Word := BitVec.ofNat 64 (cause.toNat * 2 ^ 56 + bits v 51 0)

/-! ### Atomic regions: abort (08 R184, R192) -/

/-- Abort the open region of a context. -/
def Ctx.abortRegion (x : Ctx) (code tcause : BitVec 8) : Ctx :=
  match x.region with
  | none => x
  | some r => { x with
      region := none
      s := r.snapS
      fcsr := r.snapF
      pend := []
      acode := code
      tcause := tcause
      astate := { x.astate with active := false }
      pc := r.fallback }

/-- A region is open. -/
def State.inRegion (s : State) : Bool := s.ctx.region.isSome

/-! ### Taking a trap (13 R289) and returning (13 R291) -/

/-- The mode in TRAPCAUSE.PMODE (13 R285, R286). -/
def modeCode : Mode → BitVec 2
  | .program => 0
  | .supervisor => 1
  | .firmware => 2

/-- The mode of a code; 3 is never held (13 R285). -/
def modeOf (c : BitVec 2) : Mode := if c = 0 then .program else if c = 1 then .supervisor else .firmware

/-- End the invocation in the handler context of a core (02 R24; 08 R178, R180). -/
def State.endInvocation (s : State) (c : CoreId) : State :=
  (s.modCore c (fun k => { k with inv := none })).modCtxAt c handlerCtx
    (fun x => { x with status := .ended, event := false, reserv := [], pend := [], waitFrom := 0 })

/-- A trap in the handler context (08 R180): reply FAULT, but not a second reply (08 R173), or count it, and report to the
die's firmware. -/
def State.handlerTrap (s : State) (cause : BitVec 8) (v : Word) : State :=
  let c := s.cur.1
  match (s.coreAt c).inv with
  | none => s.endInvocation c
  | some inv =>
    let s1 := if inv.replied && inv.msg.rr then s else s.reply (dieOf c) inv.sender inv.msg 4 (faultValue cause v)
    (s1.endInvocation c).report (.handlerTrap c.val cause s.ctx.pc inv.number)

/-- The trap registers, mode and pc after a trap with cause `c` and value `v` (13 R289); the context is not ready before
cycle `from_`; a message that MSG has copied is discarded (17 R402). -/
def Ctx.enterTrap (x : Ctx) (fvec : Word) (cause : BitVec 8) (v : Word) (elem : Option Nat) (from_ : Nat) : Ctx :=
  { x with
    vstart := elem.getD x.vstart
    trapcause := (if elem.isSome then 0x400 else 0) + (modeCode x.mode).setWidth 11 * 0x100 + cause.setWidth 11
    trappc := x.pc
    trapval := v
    mode := if x.mode = .program then .supervisor else .firmware
    pc := if x.mode = .program then x.trapvec else fvec
    pend := []
    nextIssue := from_
    waitFrom := from_
    outMsg := none }

/-- Take a trap at the executing context's pc: an open region aborts instead (08 R184), an invocation ends
(08 R180); otherwise the trap registers are written, and the context is live and not ready until its earlier vector
instructions have completed and its fixed-latency results are ready (02 R39; 13 R289). `elem` is the element at which the
instruction stopped. -/
def State.takeTrap (s : State) (cause : BitVec 8) (v : Word) (elem : Option Nat) : State :=
  if s.inRegion then s.modCtx (fun x => x.abortRegion 7 cause)
  else if s.inHandler then s.handlerTrap cause v
  else s.modCtx (fun x => x.enterTrap (s.dieAt s.runDie).fw.fvec cause v elem (max (s.cycle + 1) s.quietFrom))

/-- Return from a trap: the mode and pc that TRAPCAUSE and TRAPPC hold (13 R291), once every fixed-latency result is ready
(03 R62). -/
def State.returnTrap (s : State) : State :=
  s.modCtx (fun x =>
    let from_ := max (s.cycle + 1) (resultsReady x.pend)
    { x with mode := modeOf (x.trapcause.extractLsb' 8 2), pc := x.trappc, pend := [], nextIssue := from_, waitFrom := from_ })

/-! ### Issue -/

/-- What an instruction's own part answers. -/
inductive Effect where
  /-- It completes, and pc := pc + 8 (15 R325). -/
  | next (s : State)
  /-- It completes, and pc is the one given. -/
  | jump (s : State) (pc : Word)
  /-- A trap before any effect. -/
  | trap (s : State) (cause : BitVec 8) (value : Word)
  /-- A trap at element `e`, after the elements below it (13 R292). -/
  | trapElem (s : State) (cause : BitVec 8) (value : Word) (e : Nat)
  /-- The context waits, its pc at the instruction (02 R39). -/
  | wait (s : State) (w : Wait)
  /-- The context is not ready while a bounded wait lasts: it stays live, and the instruction executes again (02 R39,
  second table). -/
  | retry (s : State) (w : Bounded)
  /-- The open region aborts (08 R184). -/
  | abort (s : State) (code : BitVec 8)
  /-- The context does not go on from this instruction by itself: it has ended, moved or executes it again. -/
  | leave (s : State)
  /-- It completes as the context sets out for another core, its pc already written (13 R301). -/
  | hop (s : State)

/-- How a result's region tag is found: by 08 R186's general rule, or by the instruction's own part. -/
inductive Tagging where
  | auto
  | own
  deriving DecidableEq, Repr

/-- What issue must know of an instruction: the scalar registers it reads, the one it writes and its fixed
latency (0 when interlocked), the least mode that may execute it, whether the handler context may (02 R29),
and the abort code with which a region refuses it (08 R184, R185). -/
structure Meta where
  srcs : List (BitVec 6) := []
  dst : Option (BitVec 6) := none
  lam : Nat := 0
  priv : Mode := .program
  handler : Bool := true
  forbid : Option (BitVec 8) := none
  tagging : Tagging := .auto
  deriving DecidableEq, Repr

/-- A mode may execute what needs mode `need` (03 R59). -/
def Mode.allows (m need : Mode) : Bool := modeCode need ≤ modeCode m

/-- The region tag of a register; s0 is concrete. -/
def Region.tag (r : Region) (x : BitVec 6) : Tag := if x = 0 then .concrete else r.tags[x.toNat]

/-- Set the tag of a register; writing s0 records nothing (08 R186). An opaque result makes the region
fragile. -/
def Ctx.setTag (x : Ctx) (d : BitVec 6) (t : Tag) : Ctx :=
  match x.region with
  | none => x
  | some r =>
    if d = 0 then x
    else { x with
      region := some { r with tags := r.tags.set d.toNat t }
      astate := { x.astate with fragile := x.astate.fragile || t == .unknown } }

/-- The tags by the general rule of 08 R186: concrete from concrete operands, else opaque. -/
def Ctx.autoTag (x : Ctx) (srcs : List (BitVec 6)) (dst : Option (BitVec 6)) : Ctx :=
  match x.region, dst with
  | some r, some d =>
    x.setTag d (if srcs.all (fun r' => r.tag r' == .concrete) then .concrete else .unknown)
  | _, _ => x

/-- Record a constraint; none when sixteen are recorded (08 R184, R188). -/
def Ctx.constrain (x : Ctx) (c : Constraint) : Option Ctx :=
  match x.region with
  | none => some x
  | some r =>
    if r.cons.length < 16 then
      some { x with
        region := some { r with cons := r.cons ++ [c] }
        astate := { x.astate with ncon := x.astate.ncon + 1 } }
    else none

/-- The guard's value (03 R56). -/
def State.guardHolds (s : State) (g : Guard) : Bool := bitAt (s.rs g.greg) g.gbit.toNat ^^ g.gn

/-- The registers that an instruction reads, its guard's among them. -/
def allSources (ctl : SCtl) (m : Meta) : List (BitVec 6) :=
  match ctl.guard with
  | some g => g.greg :: m.srcs
  | none => m.srcs

/-- The cycle of issue: STALL has run out, and in interlock mode every source is ready (03 R61, R62). -/
def State.issueCycle (s : State) (srcs : List (BitVec 6)) : Nat :=
  let x := s.ctx
  let t := max s.cycle x.nextIssue
  if x.scbmode = 0 then srcs.foldl (fun c r => if r = 0 then c else max c (readyAt r x.pend)) t else t

/-- The register whose result is unready for a check-mode reader, or would be overtaken by a check-mode
writer (03 R62). -/
def State.underflow (s : State) (srcs : List (BitVec 6)) (dst : Option (BitVec 6)) (lam : Nat) : Option (BitVec 6) :=
  if s.ctx.scbmode = 2 then
    match srcs.find? (fun r => r != 0 && s.cycle < readyAt r s.ctx.pend) with
    | some r => some r
    | none =>
      match dst with
      | some d => if d != 0 && lam != 0 && s.cycle + lam < readyAt d s.ctx.pend then some d else none
      | none => none
  else none

/-- Count an issued instruction: for hops (13 R300), for the invocation (02 R29) and for the region (08 R183). -/
def State.countIssue (s : State) (inRegion : Bool) : State :=
  let s1 := s.modCtx (fun x => { x with
    sinceHop := x.sinceHop + 1
    midWait := none
    astate := if inRegion && x.region.isSome then { x.astate with nins := x.astate.nins + 1 } else x.astate })
  if s1.inHandler then
    s1.modCore s1.cur.1 (fun k => { k with inv := k.inv.map (fun v => { v with count := v.count + 1 }) })
  else s1

/-- After an instruction issued in the present cycle: the next issue of its context, from which its wait counts, and the
next cycle (03 R61; 02 R30). -/
def State.retire (s : State) (stall : BitVec 3) : State :=
  let c := s.cycle
  (s.modCtx (fun x => { x with nextIssue := c + 1 + stall.toNat, waitFrom := c + 1 + stall.toNat })).advanceTo (c + 1)

/-- The instruction has not issued after all, but waits: nothing counts it (02 R39). -/
def State.notIssued (s : State) : State :=
  let t := s.modCtx (fun x => { x with sinceHop := x.sinceHop - 1 })
  if t.inHandler then t.modCore t.cur.1 (fun k => { k with inv := k.inv.map (fun v => { v with count := v.count - 1 }) }) else t

/-- A trap of an instruction with this STALL: taken, it cancels the count; a region aborts instead, and the count applies
(03 R61; 08 R184). -/
def State.trapAt (s : State) (stall : BitVec 3) (cause : BitVec 8) (v : Word) (elem : Option Nat) : State :=
  let t := s.takeTrap cause v elem
  if s.inRegion then t.retire stall else t.advanceTo (s.cycle + 1)

/-- The state after an instruction's own part. The STALL of a MSG that waits counts from its issue, when it took its
message (17 R402). -/
def Effect.finish (stall : BitVec 3) : Effect → State
  | .next s => (s.modCtx (fun x => { x with pc := x.pc + 8 })).retire stall
  | .jump s t => (s.modCtx (fun x => { x with pc := t })).retire stall
  | .trap s c v => s.trapAt stall c v none
  | .trapElem s c v e => s.trapAt stall c v (some e)
  | .wait s w => (s.notIssued.modCtx (fun x => { x with status := .waiting w })).retire (if w = .accept then stall else 0)
  | .retry s w => (s.notIssued.modCtx (fun x => { x with midWait := some w })).retire 0
  | .abort s code => (s.modCtx (fun x => x.abortRegion code 0)).retire stall
  | .leave s => s.advanceTo (s.cycle + 1)
  | .hop s => (s.retire stall).modCtx (fun x => { x with nextIssue := max x.nextIssue s.ctx.nextIssue })

/-- The own part under the checks that follow the guard: a handler context refuses some instructions (02 R29),
a region refuses some (08 R184, R185); results are tagged (08 R186). -/
def State.guarded (s : State) (i : Instr) (m : Meta) (body : State → Effect) : Effect :=
  if !m.handler && s.inHandler then .trap s 0x01 (encode i)
  else match m.forbid, s.inRegion with
    | some code, true => .abort s code
    | _, _ =>
      match m.tagging with
      | .own => body s
      | .auto =>
        match body s with
        | .next t => .next (t.modCtx (fun x => x.autoTag m.srcs m.dst))
        | .jump t pc => .jump (t.modCtx (fun x => x.autoTag m.srcs m.dst)) pc
        | e => e

/-- The guard of a scalar-style instruction: false ends the instruction (03 R56); in a region a symbolic guard
register records a constraint (08 R188). -/
def State.underGuard (s : State) (i : Instr) (ctl : SCtl) (m : Meta) (body : State → Effect) : Effect :=
  match ctl.guard with
  | none => s.guarded i m body
  | some g =>
    let observed := if bitAt (s.rs g.greg) g.gbit.toNat then (1 : Word) else 0
    let con := match s.ctx.region with
      | none => some s
      | some r =>
        match r.tag g.greg with
        | .sym k c => (s.ctx.constrain ⟨k, c, true, g.gbit.toNat, 0, 0, true, observed⟩).map (fun x => s.modCtx (fun _ => x))
        | _ => some s
    match con with
    | none => .abort s 5
    | some s1 => if s.guardHolds g then s1.guarded i m body else .next s1

/-- Steps 2 to 4 of 03 R60 and the own part. -/
def State.attempt (s : State) (i : Instr) (ctl : SCtl) (m : Meta) (body : State → Effect) : Effect :=
  if !s.ctx.mode.allows m.priv then .trap s 0x02 (encode i)
  else match s.underflow (allSources ctl m) m.dst m.lam with
    | some r => .trap s 0x0A (r.setWidth 64)
    | none => s.underGuard i ctl m body

/-- NINS counts an instruction, an AEND only where its guard is false (08 R183; log 11). -/
def State.counted (s : State) (i : Instr) (ctl : SCtl) : Bool :=
  match i with
  | .aend _ => !(ctl.guard.all s.guardHolds)
  | _ => true

/-- Issue a scalar-style instruction. -/
def State.issue (s : State) (i : Instr) (ctl : SCtl) (m : Meta) (body : State → Effect) : Out :=
  let s1 := (s.advanceTo (s.issueCycle (allSources ctl m))).countIssue (s.counted i ctl)
  .next ((s1.attempt i ctl m body).finish ctl.stall)

/-- Issue a vector-style instruction: a region refuses it with VECTOR (08 R184); scalar operands are read as
it enters the vector queue (03 R64). -/
def State.issueVector (s : State) (i : Instr) (ctl : VCtl) (srcs : List (BitVec 6)) (body : State → Effect) : Out :=
  s.issue i ⟨ctl.stall, none⟩ { srcs := srcs, forbid := some 3, tagging := .own } body

end Sys2Proof.Machine
end

