-- ==== Sys2Proof/Machine/Flags.lean ====
section
/-! DEFINITION. Number formats, rounding and exception flags (05 R83 to R97): every value is an exact dyadic
number until the one rounding at the end. -/
namespace Sys2Proof.Machine
open Sys2Proof

/-- A floating-point layout: exponent and fraction bits, and whether it has infinities (05 R85). -/
structure Fmt where
  e : Nat
  f : Nat
  inf : Bool
  deriving DecidableEq, Repr

/-- The layout of a type code; codes that are no floating-point type do not reach it (05 R85). -/
def fmtOf (t : Nat) : Fmt :=
  if t == 8 then ⟨5, 10, true⟩ else if t == 9 then ⟨8, 7, true⟩ else if t == 10 then ⟨8, 23, true⟩
  else if t == 11 then ⟨11, 52, true⟩ else if t == 12 then ⟨4, 3, false⟩ else ⟨5, 2, true⟩

/-- f32. -/
def f32 : Fmt := ⟨8, 23, true⟩
/-- f64. -/
def f64 : Fmt := ⟨11, 52, true⟩
/-- bf16. -/
def bf16 : Fmt := ⟨8, 7, true⟩
/-- f16. -/
def f16 : Fmt := ⟨5, 10, true⟩

/-- Bits of an encoding. -/
def Fmt.width (k : Fmt) : Nat := 1 + k.e + k.f

/-- The exponent bias (05 R85). -/
def Fmt.bias (k : Fmt) : Nat := 2 ^ (k.e - 1) - 1

/-- FTZ acts on f16, bf16, f32 and f64 only (05 R90). -/
def Fmt.flushes (k : Fmt) : Bool := 16 ≤ k.width

/-- The greatest finite magnitude's encoding (05 R86). -/
def Fmt.maxFinite (k : Fmt) : Nat :=
  if k.inf then (2 ^ k.e - 1) * 2 ^ k.f - 1 else 2 ^ (k.e + k.f) - 2

/-- The encoding of +infinity, for a layout that has one. -/
def Fmt.infBits (k : Fmt) : Nat := (2 ^ k.e - 1) * 2 ^ k.f

/-- The canonical NaN (05 R86, R87). -/
def Fmt.nan (k : Fmt) : Nat := if k.inf then k.infBits + 2 ^ (k.f - 1) else 2 ^ (k.e + k.f) - 1

/-- The sign bit set or clear. -/
def Fmt.signed (k : Fmt) (neg : Bool) (mag : Nat) : Nat := if neg then 2 ^ (k.e + k.f) + mag else mag

/-- A value: NaN, signalling or not; an infinity; or (-1)^neg * m * 2^x. -/
inductive FVal where
  | nan (signalling : Bool)
  | inf (neg : Bool)
  | fin (neg : Bool) (m : Nat) (x : Int)
  deriving DecidableEq, Repr

/-- The exception flags, FCSR bits 4:0 (03 R48). -/
def NV : Nat := 16
/-- Division by zero. -/
def DZ : Nat := 8
/-- Overflow. -/
def OF : Nat := 4
/-- Underflow. -/
def UF : Nat := 2
/-- Inexact. -/
def NX : Nat := 1

/-- An encoding and the exceptions that its computation raised. -/
structure FRes where
  bits : Nat
  flags : Nat
  deriving DecidableEq, Repr

/-- Both results' flags. -/
def orFl (a b : Nat) : Nat := a ||| b

/-- Read an encoding; with `ftz` a subnormal is a zero of its sign (05 R85, R87, R90). -/
def Fmt.decode (k : Fmt) (ftz : Bool) (v : Nat) : FVal :=
  let neg := v / 2 ^ (k.e + k.f) % 2 == 1
  let ex := v / 2 ^ k.f % 2 ^ k.e
  let fr := v % 2 ^ k.f
  if k.inf && ex == 2 ^ k.e - 1 then
    if fr == 0 then .inf neg else .nan (k.flushes && fr < 2 ^ (k.f - 1))
  else if !k.inf && ex == 2 ^ k.e - 1 && fr == 2 ^ k.f - 1 then .nan false
  else if ex == 0 then
    if ftz && k.flushes then .fin neg 0 0 else .fin neg fr (1 - (k.bias : Int) - k.f)
  else .fin neg (2 ^ k.f + fr) ((ex : Int) - k.bias - k.f)

/-- Whether a rounding mode goes up in magnitude from `r`, where the discarded part compares with one half as
`c` says (lt, eq, gt) and is not zero when `nz` (05 R88). -/
def roundsUp (mode : Nat) (neg : Bool) (r : Nat) (c : Ordering) (nz : Bool) : Bool :=
  if mode == 0 then c == .gt || (c == .eq && r % 2 == 1)
  else if mode == 1 then false
  else if mode == 2 then neg && nz
  else if mode == 3 then !neg && nz
  else c != .lt

/-- Round (m + s) * 2^x, with 0 < s < 1 where `sticky` and s = 0 elsewhere, to a multiple of 2^q: the multiple
and whether it is inexact. A sticky value has x < q. -/
def roundAt (mode : Nat) (neg : Bool) (m : Nat) (x : Int) (sticky : Bool) (q : Int) : Nat × Bool :=
  if q ≤ x then (m <<< (x - q).toNat, sticky)
  else
    let sh := (q - x).toNat
    let r := m >>> sh
    let rem := m % 2 ^ sh
    let half := 2 ^ (sh - 1)
    let c := if rem < half then Ordering.lt else if rem == half && !sticky then .eq else .gt
    let nz := rem != 0 || sticky
    (if roundsUp mode neg r c nz then r + 1 else r, nz)

/-- The rounded result that exceeds the greatest finite value (05 R88, R92). -/
def Fmt.overflow (k : Fmt) (mode : Nat) (neg : Bool) : FRes :=
  let toMax := !k.inf || mode == 1 || (mode == 2 && !neg) || (mode == 3 && neg)
  ⟨k.signed neg (if toMax then k.maxFinite else k.infBits), OF ||| NX⟩

/-- Round an exact value to a layout in a mode, with its flags (05 R88 to R90). -/
def Fmt.round (k : Fmt) (mode : Nat) (ftz : Bool) (neg : Bool) (m : Nat) (x : Int) (sticky : Bool) : FRes :=
  if m == 0 then ⟨k.signed neg 0, 0⟩
  else
    let top : Int := x + Nat.log2 m
    let emin : Int := 1 - (k.bias : Int)
    let free := roundAt mode neg m x sticky (top - k.f)
    let tiny := top < emin && !(top == emin - 1 && free.1 == 2 ^ (k.f + 1))
    if tiny && ftz && k.flushes then ⟨k.signed neg 0, UF ||| NX⟩
    else
      let q := if top < emin then emin - k.f else top - k.f
      let r := roundAt mode neg m x sticky q
      let mag := if top < emin then r.1 else ((top - emin).toNat) * 2 ^ k.f + r.1
      if mag > k.maxFinite then k.overflow mode neg
      else ⟨k.signed neg mag, if r.2 then (if tiny then UF ||| NX else NX) else 0⟩

/-- NV where an input is signalling (05 R87). -/
def sigFlag : FVal → Nat
  | .nan true => NV
  | _ => 0

/-- An input is a NaN. -/
def FVal.isNan : FVal → Bool
  | .nan _ => true
  | _ => false

/-- The exact sum of two finite values, signed. -/
def exactSum (n1 : Bool) (m1 : Nat) (x1 : Int) (n2 : Bool) (m2 : Nat) (x2 : Int) : Int × Int :=
  let x := min x1 x2
  let a : Int := (m1 <<< (x1 - x).toNat : Nat)
  let b : Int := (m2 <<< (x2 - x).toNat : Nat)
  ((if n1 then -a else a) + (if n2 then -b else b), x)

/-- The rounded sum of two values, neither a NaN (05 R89). -/
def Fmt.sum (k : Fmt) (mode : Nat) (ftz : Bool) : FVal → FVal → FRes
  | .inf a, .inf b => if a == b then ⟨k.signed a k.infBits, 0⟩ else ⟨k.nan, NV⟩
  | .inf a, _ => ⟨k.signed a k.infBits, 0⟩
  | _, .inf b => ⟨k.signed b k.infBits, 0⟩
  | .fin n1 m1 x1, .fin n2 m2 x2 =>
    let t := exactSum n1 m1 x1 n2 m2 x2
    if t.1 == 0 then ⟨k.signed (if n1 == n2 then n1 else mode == 2) 0, 0⟩
    else k.round mode ftz (t.1 < 0) t.1.natAbs t.2 false
  | _, _ => ⟨k.nan, 0⟩

/-- Addition (05 R89). -/
def Fmt.add (k : Fmt) (mode : Nat) (ftz : Bool) (a b : Nat) : FRes :=
  let va := k.decode ftz a
  let vb := k.decode ftz b
  if va.isNan || vb.isNan then ⟨k.nan, sigFlag va ||| sigFlag vb⟩ else k.sum mode ftz va vb

/-- Change the sign of an encoding. -/
def Fmt.negate (k : Fmt) (v : Nat) : Nat := v ^^^ 2 ^ (k.e + k.f)

/-- Subtraction (05 R89): a NaN operand keeps its quietness under the change of sign. -/
def Fmt.sub (k : Fmt) (mode : Nat) (ftz : Bool) (a b : Nat) : FRes := k.add mode ftz a (k.negate b)

/-- The exact product of two values, none where it is 0 times infinity or a NaN is an operand. -/
def exactMul : FVal → FVal → Option FVal
  | .fin n1 m1 x1, .fin n2 m2 x2 => some (.fin (n1 ^^ n2) (m1 * m2) (x1 + x2))
  | .inf a, .inf b => some (.inf (a ^^ b))
  | .inf a, .fin n m _ => if m == 0 then none else some (.inf (a ^^ n))
  | .fin n m _, .inf b => if m == 0 then none else some (.inf (n ^^ b))
  | _, _ => none

/-- Round a value that is no NaN. -/
def Fmt.ofVal (k : Fmt) (mode : Nat) (ftz : Bool) : FVal → FRes
  | .nan _ => ⟨k.nan, 0⟩
  | .inf n => ⟨k.signed n k.infBits, 0⟩
  | .fin n m x => k.round mode ftz n m x false

/-- Multiplication (05 R89). -/
def Fmt.mul (k : Fmt) (mode : Nat) (ftz : Bool) (a b : Nat) : FRes :=
  let va := k.decode ftz a
  let vb := k.decode ftz b
  if va.isNan || vb.isNan then ⟨k.nan, sigFlag va ||| sigFlag vb⟩
  else match exactMul va vb with
    | none => ⟨k.nan, NV⟩
    | some p => k.ofVal mode ftz p

/-- Fused multiply-add with one rounding; 0 times infinity is invalid whatever the addend (05 R89; 16 R365). -/
def Fmt.fma (k : Fmt) (mode : Nat) (ftz : Bool) (a b c : Nat) : FRes :=
  let va := k.decode ftz a
  let vb := k.decode ftz b
  let vc := k.decode ftz c
  let sig := sigFlag va ||| sigFlag vb ||| sigFlag vc
  if va.isNan || vb.isNan then ⟨k.nan, sig⟩
  else match exactMul va vb with
    | none => ⟨k.nan, NV⟩
    | some p => if vc.isNan then ⟨k.nan, sig⟩ else k.sum mode ftz p vc

/-- Division (05 R89; 16 R363). -/
def Fmt.div (k : Fmt) (mode : Nat) (ftz : Bool) (a b : Nat) : FRes :=
  match k.decode ftz a, k.decode ftz b with
  | .fin n1 m1 x1, .fin n2 m2 x2 =>
    let n := n1 ^^ n2
    if m2 == 0 then if m1 == 0 then ⟨k.nan, NV⟩ else ⟨k.signed n k.infBits, DZ⟩
    else if m1 == 0 then ⟨k.signed n 0, 0⟩
    else
      let up := k.f + 4 + Nat.log2 m2
      let num := m1 <<< up
      k.round mode ftz n (num / m2) (x1 - x2 - up) (num % m2 != 0)
  | .inf _, .inf _ => ⟨k.nan, NV⟩
  | .inf n1, .fin n2 _ _ => ⟨k.signed (n1 ^^ n2) k.infBits, 0⟩
  | .fin n1 _ _, .inf n2 => ⟨k.signed (n1 ^^ n2) 0, 0⟩
  | va, vb => ⟨k.nan, sigFlag va ||| sigFlag vb⟩

/-- The integer square root by bits, from bit `i - 1` down. -/
def isqrtBits (n : Nat) : Nat → Nat → Nat
  | 0, r => r
  | i + 1, r => let t := r + 2 ^ i; isqrtBits n i (if t * t ≤ n then t else r)

/-- The integer square root. -/
def isqrt (n : Nat) : Nat := isqrtBits n (Nat.log2 n / 2 + 1) 0

/-- Square root (05 R89; 16 R363). -/
def Fmt.sqrt (k : Fmt) (mode : Nat) (ftz : Bool) (a : Nat) : FRes :=
  match k.decode ftz a with
  | .nan s => ⟨k.nan, if s then NV else 0⟩
  | .inf n => if n then ⟨k.nan, NV⟩ else ⟨k.infBits, 0⟩
  | .fin n m x =>
    if m == 0 then ⟨k.signed n 0, 0⟩
    else if n then ⟨k.nan, NV⟩
    else
      let up := 2 * (k.f + 4) + (if x % 2 == 0 then 0 else 1)
      let num := m <<< up
      let r := isqrt num
      k.round mode ftz false r ((x - up) / 2) (r * r != num)

/-- A key that orders values as R91 orders them, with -0 below +0: doubled value, plus one for +0. -/
def ltVal : FVal → FVal → Bool
  | .inf a, .inf b => a && !b
  | .inf a, .fin _ _ _ => a
  | .fin _ _ _, .inf b => !b
  | .fin n1 m1 x1, .fin n2 m2 x2 =>
    let d := exactSum n1 m1 x1 (!n2) m2 x2
    if d.1 == 0 then m1 == 0 && n1 && !n2 else d.1 < 0
  | _, _ => false

/-- Equal values; +0 and -0 are equal (05 R91). -/
def eqVal : FVal → FVal → Bool
  | .inf a, .inf b => a == b
  | .fin n1 m1 x1, .fin n2 m2 x2 => (exactSum n1 m1 x1 (!n2) m2 x2).1 == 0
  | _, _ => false

/-- An operand as MIN and MAX deliver it: its encoding, or the zero that FTZ read (05 R90). -/
def Fmt.delivered (k : Fmt) (ftz : Bool) (v : Nat) : Nat :=
  match k.decode ftz v with
  | .fin n 0 _ => k.signed n 0
  | _ => v % 2 ^ k.width

/-- Minimum (greater = false) or maximum (05 R91; 17 R391). -/
def Fmt.minMax (k : Fmt) (greater ftz : Bool) (a b : Nat) : FRes :=
  let va := k.decode ftz a
  let vb := k.decode ftz b
  let fl := sigFlag va ||| sigFlag vb
  if va.isNan && vb.isNan then ⟨k.nan, fl⟩
  else if va.isNan then ⟨k.delivered ftz b, fl⟩
  else if vb.isNan then ⟨k.delivered ftz a, fl⟩
  else
    let pickB := if greater then ltVal va vb else ltVal vb va
    ⟨k.delivered ftz (if pickB then b else a), fl⟩

/-- The condition word of CMP from the outcomes of its relations (15 R349). -/
def condWord (eq lt gt un : Bool) : Nat :=
  let nat := fun b : Bool => if b then 1 else 0
  nat eq + 2 * nat (!eq) + 4 * nat lt + 8 * nat (gt || eq) + 16 * nat (lt || eq) + 32 * nat gt + 64 * nat un

/-- CMP of two floating-point operands: any NaN sets NV (15 R349). -/
def Fmt.cmp (k : Fmt) (ftz : Bool) (a b : Nat) : FRes :=
  let va := k.decode ftz a
  let vb := k.decode ftz b
  if va.isNan || vb.isNan then ⟨0x42, NV⟩
  else
    let eq := eqVal va vb
    ⟨condWord eq (!eq && ltVal va vb) (!eq && ltVal vb va) false, 0⟩

/-! ### Integers (05 R83, R84) -/

/-- A signed integer type: the i types, and bq8 and bq4 as VCVT reads them (05 R83; 18 R433). -/
def signedType (t : Nat) : Bool := (t ≤ 7 || t == 14 || t == 15) && t % 2 == 0 || t == 16 || t == 17

/-- The exact value of a w-bit operand. -/
def intVal (sgn : Bool) (w v : Nat) : Int :=
  let u := v % 2 ^ w
  if sgn && 2 ^ (w - 1) ≤ u then (u : Int) - 2 ^ w else u

/-- The low w bits of an exact integer. -/
def wrapInt (w : Nat) (x : Int) : Nat := (x % (2 ^ w : Int)).toNat

/-- The least and greatest values of a type (05 R83). -/
def intRange (sgn : Bool) (w : Nat) : Int × Int :=
  if sgn then (-(2 ^ (w - 1) : Int), 2 ^ (w - 1) - 1) else (0, 2 ^ w - 1)

/-- Round a dyadic value to an integer: the integer and whether it is inexact. -/
def toInteger (mode : Nat) (neg : Bool) (m : Nat) (x : Int) : Int × Bool :=
  let r := roundAt mode neg m x false 0
  (if neg then -(r.1 : Int) else r.1, r.2)

/-- A dyadic value to an integer type: rounded, or saturated with NV (05 R92). -/
def dyadicToInt (sgn : Bool) (w mode : Nat) (neg : Bool) (m : Nat) (x : Int) : FRes :=
  let r := toInteger mode neg m x
  let lim := intRange sgn w
  if r.1 < lim.1 then ⟨wrapInt w lim.1, NV⟩
  else if r.1 > lim.2 then ⟨wrapInt w lim.2, NV⟩
  else ⟨wrapInt w r.1, if r.2 then NX else 0⟩

/-- A floating-point value to an integer type (05 R92). -/
def Fmt.toInt (k : Fmt) (sgn : Bool) (w mode : Nat) (ftz : Bool) (v : Nat) : FRes :=
  match k.decode ftz v with
  | .nan _ => ⟨0, NV⟩
  | .inf n => ⟨wrapInt w (if n then (intRange sgn w).1 else (intRange sgn w).2), NV⟩
  | .fin n m x => dyadicToInt sgn w mode n m x

/-- A type that conversions treat as floating-point. -/
def isFp (t : Nat) : Bool := 8 ≤ t && t ≤ 13

/-- Convert from type `u` to type `t` (05 R92; 16 R362; 18 R433). Of two integer types of one width and other signedness,
which R92 calls neither widening nor narrowing, the value saturates (DESIGN CHOICE, log 48). -/
def convert (t u mode : Nat) (ftz : Bool) (v : Nat) : FRes :=
  let wt := WellFormed.width t
  let wu := WellFormed.width u
  if isFp t then
    let k := fmtOf t
    if isFp u then
      match (fmtOf u).decode ftz v with
      | .nan s => if k.inf then ⟨k.nan, if s then NV else 0⟩ else ⟨k.nan, NV⟩
      | .inf n => if k.inf then ⟨k.signed n k.infBits, 0⟩ else ⟨k.nan, NV⟩
      | .fin n m x => k.round mode ftz n m x false
    else
      let i := intVal (signedType u) wu v
      k.round mode ftz (i < 0) i.natAbs 0 false
  else if isFp u then (fmtOf u).toInt (signedType t) wt mode ftz v
  else
    let i := intVal (signedType u) wu v
    let lim := intRange (signedType t) wt
    ⟨wrapInt wt (if wu < wt then i else if i < lim.1 then lim.1 else if i > lim.2 then lim.2 else i), 0⟩

/-! ### Transcendental functions and estimates (05 R93 to R97)

Values are found to 640 fraction bits and rounded once; a result that no f32 value equals is marked inexact.
The error is far below any distance that an f32 argument leaves to a rounding boundary (log 12). -/

/-- Fraction bits of the fixed-point values. -/
def fixBits : Nat := 640

/-- floor(pi * 2^640). -/
def piFix : Nat := 0x3243F6A8885A308D313198A2E03707344A4093822299F31D0082EFA98EC4E6C89452821E638D01377BE5466CF34E90C6CC0AC29B7C97C50DD3F84D5B5B54709179216D5D98979FB1BD1310BA698DFB5AC

/-- floor(ln 2 * 2^640). -/
def ln2Fix : Nat := 0xB17217F7D1CF79ABC9E3B39803F2F6AF40F343267298B62D8A0D175B8BAAFA2BE7B876206DEBAC98559552FB4AFA1B10ED2EAE35C138214427573B291169B8253E96CA16224AE8C51ACBDA11317C387E

/-- The sum of the series term, term*t/(k+1), ... for e^t. -/
def expSeries (t : Nat) : Nat → Nat → Nat → Nat → Nat
  | 0, _, _, acc => acc
  | fuel + 1, k, term, acc => expSeries t fuel (k + 1) ((term * t) >>> fixBits / (k + 1)) (acc + term)

/-- The sum z + z^3/3 + z^5/5 + ... -/
def atanhSeries (z2 : Nat) : Nat → Nat → Nat → Nat → Nat
  | 0, _, _, acc => acc
  | fuel + 1, k, pw, acc => atanhSeries z2 fuel (k + 2) ((pw * z2) >>> fixBits) (acc + pw / k)

/-- The alternating series of sine (k = 1) or cosine (k = 0) with square t2, as an integer. -/
def trigSeries (t2 : Nat) : Nat → Nat → Nat → Bool → Int → Int
  | 0, _, _, _, acc => acc
  | fuel + 1, k, term, neg, acc =>
    trigSeries t2 fuel (k + 2) ((term * t2) >>> fixBits / ((k + 1) * (k + 2))) (!neg)
      (if neg then acc - term else acc + term)

/-- m * 2^x as a fixed-point number, rounded down. -/
def toFix (m : Nat) (x : Int) : Nat :=
  let sh := x + fixBits
  if 0 ≤ sh then m <<< sh.toNat else m >>> (-sh).toNat

/-- 2^x, correctly rounded (05 R94). -/
def exp2F (mode : Nat) (ftz : Bool) (a : Nat) : FRes :=
  match f32.decode ftz a with
  | .nan s => ⟨f32.nan, if s then NV else 0⟩
  | .inf n => if n then ⟨0, 0⟩ else ⟨f32.infBits, 0⟩
  | .fin n m x =>
    let top : Int := x + Nat.log2 m
    if m == 0 then ⟨0x3F800000, 0⟩
    else if 9 ≤ top then
      if n then f32.round mode ftz false 1 (-512) true else f32.round mode ftz false 1 512 false
    else
      let r := roundAt 1 false m x false 0
      let whole : Int := if n then -(r.1 : Int) else r.1
      if !r.2 then f32.round mode ftz false 1 whole false
      else
        let fr := toFix m x % 2 ^ fixBits
        let frac := if n then 2 ^ fixBits - fr else fr
        let base : Int := if n then whole - 1 else whole
        let t := (frac * ln2Fix) >>> fixBits
        f32.round mode ftz false (expSeries t 160 0 (2 ^ fixBits) 0) (base - fixBits) true

/-- log2 x, correctly rounded (05 R95). -/
def log2F (mode : Nat) (ftz : Bool) (a : Nat) : FRes :=
  match f32.decode ftz a with
  | .nan s => ⟨f32.nan, if s then NV else 0⟩
  | .inf n => if n then ⟨f32.nan, NV⟩ else ⟨f32.infBits, 0⟩
  | .fin n m x =>
    if m == 0 then ⟨f32.signed true f32.infBits, DZ⟩
    else if n then ⟨f32.nan, NV⟩
    else
      let l := Nat.log2 m
      let e : Int := x + l
      if m == 2 ^ l then f32.round mode ftz (e < 0) e.natAbs 0 false
      else
        let y := m <<< (fixBits - l)
        let z := ((y - 2 ^ fixBits) <<< fixBits) / (y + 2 ^ fixBits)
        let ln := 2 * atanhSeries ((z * z) >>> fixBits) 220 1 z 0
        let lg : Int := ((ln <<< fixBits) / ln2Fix : Nat)
        let v : Int := e * (2 ^ fixBits : Nat) + lg
        -- a negative value's magnitude is rounded up by the floor: take one unit off it and keep it sticky
        f32.round mode ftz (v < 0) (if v < 0 then v.natAbs - 1 else v.natAbs) (-(fixBits : Int)) true

/-- sin (cosine = false) or cos of 2*pi*r for 0 <= r <= 1/8, as a fixed-point number. -/
def trigFix (cosine : Bool) (m : Nat) (x : Int) : Nat :=
  let t := (toFix m (x + 1) * piFix) >>> fixBits
  let t2 := (t * t) >>> fixBits
  if cosine then (trigSeries t2 80 0 (2 ^ fixBits) false 0).toNat else (trigSeries t2 80 1 t false 0).toNat

/-- sin or cos of x turns, correctly rounded (05 R96). The turn is reduced exactly to eighths. -/
def sinF (cosine : Bool) (mode : Nat) (ftz : Bool) (a : Nat) : FRes :=
  match f32.decode ftz a with
  | .nan _ => ⟨f32.nan, NV⟩
  | .inf _ => ⟨f32.nan, NV⟩
  | .fin n m x =>
    if m == 0 then (if cosine then ⟨0x3F800000, 0⟩ else ⟨f32.signed n 0, 0⟩)
    else
      -- the fraction of the turn, as r * 2^p with p below -3
      let p : Int := min x (-8)
      let one := 2 ^ (-p).toNat
      let r := (m <<< (x - p).toNat) % one
      let eighth := one / 8
      let oct := r / eighth
      let sub := r % eighth
      -- |value| is sin or cos of an angle in 0 to 1/8
      let q := (oct + (if cosine then 2 else 0)) % 8
      let useCos := q == 1 || q == 2 || q == 5 || q == 6
      let ang := if q % 2 == 0 then sub else eighth - sub
      let negV := 4 ≤ q
      let neg := if cosine then negV else negV ^^ n
      if ang == 0 && !useCos then ⟨if cosine then 0 else f32.signed n 0, 0⟩
      else if ang == 0 && useCos then f32.round mode ftz neg 1 0 false
      else f32.round mode ftz neg (trigFix useCos ang p) (-(fixBits : Int)) true

/-- Round a positive value to 11 significant bits, to nearest even: an integer, its exponent and whether the
rounding was exact. -/
def round11 (m : Nat) (x : Int) (sticky : Bool) : Nat × Int × Bool :=
  let q : Int := x + Nat.log2 m - 10
  let r := roundAt 0 false m x sticky q
  (r.1, q, r.2)

/-- An estimate: the value of 11 significant bits delivered in f32 (05 R97; log 12). -/
def estimate (ftz : Bool) (neg : Bool) (m : Nat) (x : Int) (sticky : Bool) : FRes :=
  let e := round11 m x sticky
  let d := f32.round 0 ftz neg e.1 e.2.1 false
  if e.2.2 then
    let tiny := x + Nat.log2 m < -126 && e.2.1 + Nat.log2 e.1 < -126
    ⟨d.bits, d.flags ||| NX ||| (if tiny then UF else 0)⟩
  else d

/-- 1/x or 1/sqrt x to 11 bits (05 R97). -/
def estF (rsq : Bool) (ftz : Bool) (a : Nat) : FRes :=
  match f32.decode ftz a with
  | .nan s => ⟨f32.nan, if s then NV else 0⟩
  | .inf n => if rsq && n then ⟨f32.nan, NV⟩ else ⟨f32.signed n 0, 0⟩
  | .fin n m x =>
    if m == 0 then ⟨f32.signed n f32.infBits, DZ⟩
    else if !rsq then
      let up := 40 + Nat.log2 m
      estimate ftz n ((1 <<< up) / m) (-x - up) (2 ^ up % m != 0)
    else if n then ⟨f32.nan, NV⟩
    else
      -- 1/sqrt(m * 2^x) = sqrt(2^(2k) / m') * 2^(-k - h) with m * 2^x = m' * 2^(2h)
      let m' := if x % 2 == 0 then m else 2 * m
      let h : Int := if x % 2 == 0 then x / 2 else (x - 1) / 2
      let k := 40 + Nat.log2 m'
      let num := (1 <<< (2 * k)) / m'
      let r := isqrt num
      estimate ftz false r (-(k : Int) - h) (r * r * m' != 2 ^ (2 * k))

end Sys2Proof.Machine
end

