-- ==== Sys2Proof/Machine/Operands.lean ====
section
/-! DEFINITION. Operand forms: scalar operands and results (15 R326), pointers (05 R101), scalar memory
addresses (15 R327), remote homes under HOPCTL (13 R299 to R301). -/
namespace Sys2Proof.Machine
open Sys2Proof

/-- A w-bit integer operand (15 R326). -/
def intOpd (ty : BitVec 5) (v : Word) : Int :=
  intVal (signedType ty.toNat) (WellFormed.width ty.toNat) v.toNat

/-- A w-bit result as a register holds it: sign-extended for i types, else zero-extended (15 R326). -/
def extResult (ty : BitVec 5) (n : Nat) : Word :=
  let w := WellFormed.width ty.toNat
  if signedType ty.toNat then BitVec.ofInt 64 (intVal true w n) else BitVec.ofNat 64 (n % 2 ^ w)

/-- The w-bit encoding of a floating-point operand (15 R326). -/
def fpOpd (ty : BitVec 5) (v : Word) : Nat := v.toNat % 2 ^ WellFormed.width ty.toNat

/-- An integer type, codes 0 to 7. -/
def isIntTy (ty : BitVec 5) : Bool := ty.toNat ≤ 7

/-! ### Pointers and addresses -/

/-- A pointer whose tag 05 R101 accepts. -/
def pointerOk (p : Word) : Bool :=
  if bitAt p 63 then bits p 62 58 ≤ 18 && bits p 54 52 == 0 else bits p 62 52 == 0

/-- Bits 51:0 of a pointer. -/
def pointerAddr (p : Word) : Nat := p.toNat % 2 ^ 52

/-- The format tag of a tagged pointer, FMT ++ BLK (05 R102). -/
def pointerTag (p : Word) : Option (BitVec 8) := if bitAt p 63 then some (p.extractLsb' 55 8) else none

/-- The address base + displacement of a scalar access of `n` bytes (15 R327). -/
def memAddr (base : Word) (off : Int) (n : Nat) : Except Stop Nat :=
  let a : Int := pointerAddr base + off
  if !pointerOk base then .error (.trap 0x05 base)
  else if a < 0 || 2 ^ 52 ≤ a then .error (.trap 0x05 base)
  else if a.toNat % n != 0 then .error (.trap 0x04 (addrWord a.toNat))
  else .ok a.toNat

/-- Bytes of an SZ code (03 R55). -/
def szBytes (sz : BitVec 3) : Nat := 2 ^ (sz.toNat % 4)

/-- The loaded bytes as SZ extends them (03 R55; 16 R387). -/
def szExtend (sz : BitVec 3) (v : Nat) : Word :=
  if 4 ≤ sz.toNat then BitVec.ofInt 64 (intVal true (8 * szBytes sz) v) else BitVec.ofNat 64 v

/-! ### Remote homes and hops (13 R300, R301) -/

/-- Let a turn come up after those already due (log 1). -/
def State.schedule (s : State) (t : Turn) : State := { s with agenda := s.agenda ++ [t] }

/-- The designated hop core of a die (13 R287). -/
def State.hopCore (s : State) (d : DieId) : Option CoreId :=
  let fw := (s.dieAt d).fw
  if fw.hen && !(fw.hlx == 7 && fw.hly == 7) then some (localCore d fw.hlx fw.hly) else none

/-- A context holds a lease: MLEASEID is not 0, or MSAVE has saved it (09 R201; 17 R396). -/
def Ctx.holdsLease (x : Ctx) : Bool := x.mlease.nslot != 0 || x.mlease.lease != 0 || x.mlease.tflags != 0 || x.mleaseSaved

/-- A context is live or waiting (02 R24). -/
def Ctx.active (x : Ctx) : Bool := match x.status with
  | .live => true
  | .waiting _ => true
  | _ => false

/-- A helper of the core is live or waiting. -/
def Core.helperActive (k : Core) : Bool :=
  (List.range 10).any (fun i => (k.ctxs[(Fin.ofNat 12 (i + 1))]).active)

/-- The hop conditions of 13 R300 but for the count of instructions and VDIRTY, towards core `c`; going home
needs no slot. -/
def State.hopAllowed (s : State) (c : CoreId) : Bool :=
  let x := s.ctx
  !s.inHandler && !x.holdsLease && !(s.cur.2 == 0 && (s.coreAt s.cur.1).helperActive) && x.reserv.isEmpty &&
  (c == s.cur.1 || (s.dieAt (dieOf c)).hopSlots.length < 11)

/-- Give up the hop slot that the executing context uses, if any (13 R302). -/
def State.leaveHopSlot (s : State) : State :=
  match s.ctx.hopped with
  | some h => s.modDie (dieOf h) (fun x => { x with hopSlots := x.hopSlots.filter (fun p => p != s.cur) })
  | none => s

/-- Steps 1 and 2 of a hop: an implicit VDRAIN and a release at PACKAGE scope; the scalar state sets out for
core `c` and resumes at `pc`, not before its vector instructions have completed (13 R301; 02 R39). -/
def State.depart (s : State) (c : CoreId) (pc : Word) : State :=
  let s2 := (s.releaseSteps s.runCore packageScope).leaveHopSlot
  let s3 := if c == s2.cur.1 then s2 else s2.modDie (dieOf c) (fun x => { x with hopSlots := x.hopSlots ++ [s2.cur] })
  (s3.modCtx (fun x => { x with travel := some c, pc := pc, pend := [], nextIssue := s.quietFrom })).schedule (.event (.hopArrival s3.cur.1 s3.cur.2))

/-- The launches of this package that have a context, hopped ones among them, or a command on a die (14 R322). -/
def State.launchesOn (s : State) (d : DieId) : List Nat :=
  let onCores := (List.range 64).filterMap (fun i => (s.coreAt (localCore d (i % 8) (i / 8))).placed.map (fun p => p.launch))
  let guests := (s.dieAt d).hopSlots.filterMap (fun p => (s.coreAt p.1).placed.map (fun q => q.launch))
  let commands := (s.dieAt d).agents.toList.flatMap (fun a =>
    a.queue.filterMap (fun c => if c.sender.remote then none else c.sender.launch))
  (onCores ++ guests ++ commands).eraseDups

/-- Change a launch. -/
def State.modLaunch (s : State) (arrival : Nat) (f : Launch → Launch) : State :=
  { s with launches := s.launches.map (fun l => if l.arrival == arrival then f l else l) }

/-- A launch that fails or that the supervisor ends increments no counter, whichever way it ends (12 R283; 14 R322). -/
def State.voidCounters (s : State) (arrival : Nat) : State :=
  s.modLaunch arrival (fun l => { l with counters := [], record := { l.record with doneAddr := 0 } })

/-- Fail the launches of a die: each is ended as the supervisor ends one (14 R322). -/
def State.failLaunches (s : State) (d : DieId) : State :=
  (s.launchesOn d).foldl (fun t a =>
    ((t.report (.launchFailed a)).voidCounters a).schedule (.event (.supervisorEndLaunch a))) s

/-- The physical address of the failing grain of an access to a virtual address: that of an entry of the page table or of the
domain's tables that could not be read, else the access's own (06 R130). -/
def State.badPlace (s : State) (d : DieId) (domain : BitVec 16) (va : Nat) : Nat :=
  match (s.dieAt d).line va with
  | some ln => ln.pa + (va - ln.va)
  | none =>
    match (if (s.tableEntry d domain (va / 65536)).isNone then s.firstBad (s.tableRuns d domain) else none) with
    | some b => b
    | none =>
      match s.translate d va with
      | some (l, _) => l.pa va
      | none => (s.firstBad (s.walkRuns va 4 (s.dieAt d).fw.ptbase)).getD 0

/-- The failing grain is not kept in the L2 of its home; a copy on the consumer's die that has the error goes too (06 R130). -/
def State.dropBad (s : State) (d : DieId) (pa : Nat) : State :=
  let holds := fun (ln : L2Line) => decide (ln.pa ≤ pa) && decide (pa < ln.pa + ln.size)
  let s1 := match s.homeOf pa with
    | some h => s.modDie h (fun x => { x with l2 := x.l2.filter (fun ln => !(ln.home && holds ln)) })
    | none => s
  let bad := ((s1.dieAt d).l2.filter (fun ln => holds ln && !ln.home && (s1.dieAt d).copyBad ln))
  if bad.isEmpty then s1
  else s1.modDie d (fun x => { x with
    l2 := x.l2.filter (fun ln => !bad.contains ln)
    l2Bad := x.l2Bad.filter (fun b => !bad.any (fun ln => ln.pa ≤ b && b < ln.pa + ln.size)) })

/-- An uncorrectable error is reported to firmware on the consumer's die, whose launches fail, and on the home of its
grain, which leaves L2 (06 R130; 14 R322). -/
def State.noteBad (s : State) (d : DieId) (domain : BitVec 16) (va : Nat) : State :=
  let pa := s.badPlace d domain va
  let s1 := ((s.report (.uncorrectable d.val pa)).failLaunches d).dropBad d pa
  match s.homeOf pa with
  | some h => s1.report (.uncorrectable h.val pa)
  | none => s1

/-- The trap of an access that is not performed (06 R130). -/
def State.accessTrap (s : State) (c : BitVec 8) (v : Word) : Effect :=
  .trap (if c = 0x08 then s.noteBad s.runDie s.ctx.domain v.toNat else s) c v

/-- A path-C access under HOPCTL: performed, or trapped, or moved to the home's die (13 R300). In a region the
hop policy performs it remotely (08 R185). -/
def State.pathC {α : Type} (s : State) (access : Bool → Except Stop α) (k : α → Effect) : Effect :=
  let policy := s.ctx.hopPolicy
  match access (policy != 0) with
  | .ok a => k a
  | .error (.trap c v) => s.accessTrap c v
  | .error (.remote d va) =>
    if policy == 2 then .trap s 0x07 (BitVec.ofNat 64 (d.val * 2 ^ 52 + va))
    else
      let again : Effect := match access false with
        | .ok a => k a
        | .error (.trap c v) => s.accessTrap c v
        | .error (.remote _ va) => .trap s 0x05 (addrWord va)
      match s.hopCore d with
      | some c =>
        if !s.inRegion && !s.ctx.vdirty && 257 ≤ s.ctx.sinceHop && s.hopAllowed c && c != s.runCore then
          .leave (s.depart c s.ctx.pc)
        else again
      | none => again

/-- Continue with a result, or trap. -/
def orTrap {α : Type} (s : State) (r : Except Stop α) (k : α → Effect) : Effect :=
  match r with
  | .ok a => k a
  | .error (.trap c v) => s.accessTrap c v
  | .error (.remote _ va) => .trap s 0x05 (addrWord va)

/-- The illegal-instruction trap with the word (03 R46). -/
def illegal (s : State) (i : Instr) : Effect := .trap s 0x01 (encode i)

end Sys2Proof.Machine
end

