-- ==== Sys2Proof/Machine/Life.lean ====
section
/-! DEFINITION. The life cycle of a context (02 R24 to R28): start values, the end of a context with its lease and
hop slot, and the reuse of an ended one. -/
namespace Sys2Proof.Machine
open Sys2Proof

/-- The start state of a context (02 R25) but for the registers given. -/
def Ctx.start (entry s2 s4 trapvec : Word) (domain : BitVec 16) (prio : Nat) (launchId : Word) : Ctx :=
  { Ctx.reset with
    status := .live
    pc := entry
    s := ((Vector.replicate 64 (0 : Word)).set 2 s2).set 4 s4
    domain := domain
    prio := prio
    launchId := launchId
    trapvec := trapvec }

/-- The context is within an instruction that a pre-emption lets complete first (02 R39, second table). -/
def Ctx.completesFirst (x : Ctx) : Bool :=
  match x.midWait with
  | some (.accesses _ _ _ _ first) => first
  | _ => false

/-- Put a started context into its slot; its wait counts from now (02 R30). -/
def State.startAt (s : State) (c : CoreId) (x : CtxId) (v : Ctx) : State :=
  s.modCtxAt c x (fun _ => { v with waitFrom := s.cycle })

/-- No write of the context is on its way to its home (02 R28). -/
def State.writesDone (s : State) (c : CoreId) (x : CtxId) : Bool :=
  s.dies.toList.all (fun d => d.l2.all (fun ln => ln.home || ln.dirty == 0 || !ln.writers.contains (c, x))) &&
    s.flue.all (fun p => !p.writers.contains (c, x))

/-- The context can be started: it is free, or it has ended and every write of it is performed, so that it is free
(02 R24). -/
def State.isFree (s : State) (c : CoreId) (x : CtxId) : Bool :=
  match (s.ctxAt c x).status with
  | .free => true
  | .ended => s.writesDone c x
  | _ => false

/-! ### Leases -/

/-- The lease that a context owns on a die. -/
def Firebox.leaseOf (f : Firebox) (c : CoreId) (x : CtxId) : Option Lease :=
  f.leases.find? (fun l => l.core == c && l.ctx == x)

/-- The lease of that number is gone; the array and the stages are free if it had them (09 R196). -/
def Firebox.remove (f : Firebox) (num : Nat) : Firebox :=
  { f with
    leases := f.leases.filter (fun l => l.num != num)
    holder := if f.holder == some num then none else f.holder
    stageOwner := if f.stageOwner == some num then none else f.stageOwner }

/-- Change the Firebox of a die. -/
def State.modFirebox (s : State) (d : DieId) (f : Firebox → Firebox) : State :=
  s.modDie d (fun x => { x with firebox := f x.firebox })

/-- Free a context's lease without waiting; a waiting lease may get the array (09 R196, R198). -/
def State.dropLease (s : State) (c : CoreId) (x : CtxId) : State :=
  let d := dieOf c
  match ((s.dieAt d).firebox).leaseOf c x with
  | none => s
  | some l =>
    let s1 := s.modFirebox d (fun f => f.remove l.num)
    if (s1.dieAt d).firebox.leases.any (fun o => o.state == .waiting) then s1.schedule (.event (.arrayGrant d)) else s1

/-! ### The end of a context -/

/-- The cores that hold a group of a launch. -/
def State.coresOf (s : State) (launch group : Nat) : List CoreId :=
  ((List.range 512).map (Fin.ofNat 512)).filter (fun c =>
    match (s.coreAt c).placed with
    | some p => p.launch == launch && p.group == group
    | none => false)

/-- No context 0 to 10 of a core is live or waiting. -/
def Core.allEnded (k : Core) : Bool := (List.range 11).all (fun i => !(k.ctxs[(Fin.ofNat 12 i)]).active)

/-- When the last context of a group has ended, its completion comes up (02 R28; 12 R283). -/
def State.checkGroup (s : State) (c : CoreId) : State :=
  match (s.coreAt c).placed with
  | some p =>
    if (s.coresOf p.launch p.group).all (fun k => (s.coreAt k).allEnded) then
      s.schedule (.event (.groupCompletion p.launch p.group))
    else s
  | none => s

/-- Give up the hop slots that a context uses or is on its way to, if any (13 R302). -/
def State.freeHopSlot (s : State) (c : CoreId) (x : CtxId) : State :=
  let y := s.ctxAt c x
  (y.hopped.toList ++ y.travel.toList).foldl (fun t h =>
    t.modDie (dieOf h) (fun d => { d with hopSlots := d.hopSlots.filter (fun p => p != (c, x)) })) s

/-- A context ends: an open region aborts with PREEMPT, its lease is freed, it gives up its hop slot (02 R24, R26;
08 R184; 09 R196; 13 R302). That it had hopped stays known until it starts again, for HJOIN. -/
def State.endContext (s : State) (c : CoreId) (x : CtxId) : State :=
  let s1 := (s.dropLease c x).freeHopSlot c x
  (s1.modCtxAt c x (fun y => { y.abortRegion 8 0 with
    status := .ended, event := false, outMsg := none, midWait := none, killed := false, travel := none
    pend := [], notice := none, noticed := false, vlcapTrap := none })).checkGroup c

end Sys2Proof.Machine
end

