-- ==== Sys2Proof/Machine/Fetch.lean ====
section
/-! DEFINITION. Instruction fetch (15 R340; 06 R127), the contexts that a core issues from, and turns (log 1). -/
namespace Sys2Proof.Machine
open Sys2Proof

/-- Bytes of instructions that a core's instruction L1 holds (06 R127). -/
def icacheBytes : Nat := 65536

/-- The word at the pc of the executing context, or the cause of the fetch trap (15 R340). -/
def State.fetch (s : State) : Except (BitVec 8) (Word × State) :=
  let pc := s.ctx.pc
  let a := pc.toNat
  if a % 8 != 0 then .error 0x04
  else if Config.pagedEnd ≤ a then .error 0x05
  else
    let c := s.runCore
    let chk := s.plbCheck c s.ctx.domain a rightX
    if !chk.1 then .error (s.denial (dieOf c) s.ctx.domain a).cause.1
    else
      let s1 := chk.2
      match l1Find (s1.coreAt c).icache a with
      | some ln => .ok (BitVec.ofNat 64 (ln.data >>> (8 * (a - ln.va))), s1)
      | none =>
        match s1.l2Read (dieOf c) false false a 8 with
        | .error (.trap k _) => .error k
        | .error (.remote _ _) => .error 0x05
        | .ok (w, s2) =>
          let s3 := s2.chargeRead (dieOf c) s.ctx.domain (s1.readsFar (dieOf c) false a 8)
          .ok (BitVec.ofNat 64 w, match s3.grainData (dieOf c) a with
            | some ln => s3.modCore c (fun k => { k with icache := l1Trim icacheBytes (k.icache ++ [ln]) })
            | none => s3)

/-- The contexts that a core issues from: its own that have not hopped away, and, on the designated core, those
in its hop slots (02 R24; 13 R302). -/
def State.residents (s : State) (c : CoreId) : List (CoreId × CtxId) :=
  let own := ((List.range 12).map (fun i => (c, (Fin.ofNat 12 i : CtxId)))).filter
    (fun p => (s.ctxAt p.1 p.2).hopped.isNone)
  let guests := (s.dieAt (dieOf c)).hopSlots.filter (fun p => (s.ctxAt p.1 p.2).hopped == some c)
  own ++ guests

/-- Change an agent of a die. -/
def State.modAgent (s : State) (d : DieId) (n : Fin 8) (f : Agent → Agent) : State :=
  s.modDie d (fun x => { x with agents := x.agents.set n (f x.agents[n]) })

/-- The command at the head is done: the next one, if any, gets its turn (10 R221). -/
def State.popCommand (s : State) (d : DieId) (n : Fin 8) : State :=
  let s1 := s.modAgent d n (fun a => ⟨a.queue.drop 1, false, 0, 0, 0, []⟩)
  if (s1.dieAt d).agents[n].queue.isEmpty then s1 else s1.schedule (.agent d n)

/-- A core has something to do: a resident that is live or waiting, or a message for its handler context. -/
def State.busy (s : State) (c : CoreId) : Bool :=
  (s.residents c).any (fun p => (s.ctxAt p.1 p.2).active) || !(s.coreAt c).hqueue.isEmpty

/-- The core whose turn follows the focus core's: the next busy one in mesh order (log 1). -/
def State.nextFocus (s : State) : CoreId :=
  match ((List.range 512).map (fun i => s.focus + 1 + Fin.ofNat 512 i)).find? s.busy with
  | some c => c
  | none => s.focus

/-- Let the next busy core have its turn before `t`, which cannot go on yet (log 1). -/
def State.deferTurn (s : State) (t : Turn) : State :=
  let c := s.nextFocus
  { s with focus := c, agenda := s.agenda ++ [.core c, t] }

/-- The command at the head of an agent's queue; one that its class does not know is answered BADCMD (04 R80). -/
def State.headCommand (s : State) (d : DieId) (n : Fin 8) : Option (Except State Instr) :=
  match (s.dieAt d).agents[n].queue with
  | [] => none
  | c :: _ =>
    match decodeCommand c with
    | some i => some (.ok i)
    | none => some (.error ((s.reply d c.sender c.msg 2 0).popCommand d n))

/-- The domain of the command at the head of an agent's queue. -/
def State.headDomain (s : State) (d : DieId) (n : Fin 8) : BitVec 16 :=
  match (s.dieAt d).agents[n].queue with
  | [] => 0
  | c :: _ => c.sender.domain

/-- Where `withFetchWord` places its instruction (log 6). -/
def fetchBase : Nat := 0x10000

/-- The machine in RUN with nothing due, core 0's control context live in firmware mode at `fetchBase`, and
the word there in the core's instruction L1 and PLB (log 6). -/
def State.placeWord (s : State) (w : Nat) : State :=
  let s1 := ({ s with power := .run, agenda := [], focus := 0, cur := (0, 0), tick := s.cycle / 1024 }).modCore 0 (fun k =>
    { k with
      icache := [⟨fetchBase, 32, w⟩]
      plb := [⟨0, fetchBase / 65536, fetchBase / 65536, 4⟩]
      vqueue := []
      walks := []
      hqueue := []
      inv := none })
  s1.modCtxAt 0 0 (fun x => { x with
    status := .live, pc := BitVec.ofNat 64 fetchBase, mode := .firmware, domain := 0, hopped := none, travel := none,
    stopped := false, notice := none, noticed := false, vlcapTrap := none, region := none, midWait := none, killed := false, pend := []
    nextIssue := 0, waitFrom := 0 })

end Sys2Proof.Machine
end

