-- ==== Sys2Proof/Machine/Scalar.lean ====
section
/-! DEFINITION. Scalar arithmetic and pointers (04 R79; 15 to 18): one meaning per instruction over shared
operations. -/
namespace Sys2Proof.Machine
open Sys2Proof

/-! ### Shared operations -/

/-- The sources and destination of a two-source SR form. -/
def srMeta (f : SR) (lam : Nat) : Meta := { srcs := [f.sa, f.sb], dst := some f.dst, lam := lam }

/-- The source and destination of a one-source SR form. -/
def srMeta1 (f : SR) (lam : Nat) : Meta := { srcs := [f.sa], dst := some f.dst, lam := lam }

/-- The source and destination of an SI form. -/
def siMeta (f : SI) (lam : Nat) : Meta := { srcs := [f.sa], dst := some f.dst, lam := lam }

/-- sext(IMM, 64) (04 R75). -/
def SI.value (f : SI) : Word := sext64 f.imm

/-- An exact operation of two registers (15 R326). -/
def State.alu2 (s : State) (i : Instr) (f : SR) (lam : Nat) (op : Word → Word → Word) : Out :=
  s.issue i f.ctl (srMeta f lam) (fun t => .next (t.ws lam f.dst (op (t.rs f.sa) (t.rs f.sb))))

/-- An exact operation of one register. -/
def State.alu1 (s : State) (i : Instr) (f : SR) (lam : Nat) (op : Word → Word) : Out :=
  s.issue i f.ctl (srMeta1 f lam) (fun t => .next (t.ws lam f.dst (op (t.rs f.sa))))

/-- An exact operation of a register and an immediate (04 R75). -/
def State.aluI (s : State) (i : Instr) (f : SI) (op : Word → Word → Word) : Out :=
  s.issue i f.ctl (siMeta f 1) (fun t => .next (t.ws 1 f.dst (op (t.rs f.sa) (SI.value f))))

/-- Write a floating-point result and raise its flags (15 R326; 03 R48). -/
def State.wsFlags (s : State) (lam : Nat) (dst : BitVec 6) (r : FRes) : State :=
  (s.ws lam dst (BitVec.ofNat 64 r.bits)).orFlags (BitVec.ofNat 5 r.flags)

/-- The mode that an RM field selects goes to the operation; a dynamic mode that FCSR.RM does not hold is
illegal (03 R48). -/
def State.rounded (s : State) (i : Instr) (rm : Nat) (k : Nat → Effect) : Effect :=
  match s.rounding rm with
  | some mode => k mode
  | none => illegal s i

/-- An arithmetic result by type: exact on integers, else rounded (15 R326, R330). -/
def arith (ty : BitVec 5) (iop : Int → Int → Int) (fop : Fmt → Nat → Nat → FRes) (a b : Word) : Word × Nat :=
  if isIntTy ty then (extResult ty (wrapInt (WellFormed.width ty.toNat) (iop (intOpd ty a) (intOpd ty b))), 0)
  else
    let r := fop (fmtOf ty.toNat) (fpOpd ty a) (fpOpd ty b)
    (BitVec.ofNat 64 r.bits, r.flags)

/-- Latency of an instruction that works on both kinds of types (03 R63). -/
def lamBy (ty : BitVec 5) (intLam : Nat) : Nat := if isIntTy ty then intLam else 4

/-- ADD, SUB and MUL of a register form, with the tag rule given (08 R186). -/
def State.arith2 (s : State) (i : Instr) (f : SR) (intLam : Nat) (iop : Int → Int → Int)
    (fop : Nat → Bool → Fmt → Nat → Nat → FRes) (tag : Option (State → State → Tag)) : Out :=
  let lam := lamBy f.ty intLam
  let m := srMeta f lam
  s.issue i f.ctl { m with tagging := if tag.isSome then .own else .auto } (fun t =>
    t.rounded i (if isIntTy f.ty then 0 else f.rm.toNat) (fun mode =>
      let r := arith f.ty iop (fop mode t.ftz) (t.rs f.sa) (t.rs f.sb)
      let u := (t.ws lam f.dst r.1).orFlags (BitVec.ofNat 5 r.2)
      match tag with
      | some g => .next (u.modCtx (fun x => x.setTag f.dst (g t u)))
      | none => .next u))

/-- The tag of a register in the open region; concrete outside one. -/
def State.tagOf (s : State) (r : BitVec 6) : Tag :=
  match s.ctx.region with
  | some g => g.tag r
  | none => .concrete

/-- The tag of a sum (minus = false) or difference by 08 R186; only i64 and n64 keep a symbol. -/
def sumTag (wide minus : Bool) (ta tb : Tag) (va vb : Word) : Tag :=
  match ta, tb with
  | .concrete, .concrete => .concrete
  | .sym k c, .concrete => if wide then .sym k (if minus then c - vb else c + vb) else .unknown
  | .concrete, .sym k c => if wide && !minus then .sym k (c + va) else .unknown
  | _, _ => .unknown

/-- The types whose sums stay symbolic (08 R186). -/
def isWide (ty : BitVec 5) : Bool := ty == 6 || ty == 7

/-- The condition word of CMP by type, with its flags (15 R349). -/
def cmpWord (ty : BitVec 5) (ftz : Bool) (a b : Word) : Word × Nat :=
  if isIntTy ty then
    let x := intOpd ty a
    let y := intOpd ty b
    (BitVec.ofNat 64 (condWord (x == y) (x < y) (x > y) false), 0)
  else
    let r := (fmtOf ty.toNat).cmp ftz (fpOpd ty a) (fpOpd ty b)
    (BitVec.ofNat 64 r.bits, r.flags)

/-- CMP of a first operand `a` with tag `ta` and a second operand `b` with tag `tb`: a symbol against a concrete
value records a constraint, but for a result to s0, which records nothing (08 R186, R188). -/
def State.compare (s : State) (lam : Nat) (ty : BitVec 5) (dst : BitVec 6) (a b : Word) (ta tb : Tag) : Effect :=
  let r := cmpWord ty s.ftz a b
  let done := fun u : State => (u.ws lam dst r.1).orFlags (BitVec.ofNat 5 r.2)
  let record := fun c : Constraint =>
    if dst = 0 then Effect.next (done s) else
    match s.ctx.constrain c with
    | some x => Effect.next ((done (s.modCtx (fun _ => x))).modCtx (fun y => y.setTag dst .concrete))
    | none => .abort s 5
  match ta, tb with
  | .concrete, .concrete => .next ((done s).modCtx (fun y => y.setTag dst .concrete))
  | .sym k c, .concrete => record ⟨k, c, false, 0, b, ty, true, r.1⟩
  | .concrete, .sym k c => record ⟨k, c, false, 0, a, ty, false, r.1⟩
  | _, _ => .next ((done s).modCtx (fun y => y.setTag dst .unknown))

/-- MIN or MAX (17 R391). -/
def minMaxOf (greater : Bool) (ty : BitVec 5) (ftz : Bool) (a b : Word) : Word × Nat :=
  if isIntTy ty then
    let x := intOpd ty a
    let y := intOpd ty b
    (extResult ty (wrapInt (WellFormed.width ty.toNat) (if greater then max x y else min x y)), 0)
  else
    let r := (fmtOf ty.toNat).minMax greater ftz (fpOpd ty a) (fpOpd ty b)
    (BitVec.ofNat 64 r.bits, r.flags)

/-- MIN and MAX. -/
def State.minMax (s : State) (i : Instr) (f : SR) (greater : Bool) : Out :=
  s.issue i f.ctl (srMeta f (lamBy f.ty 1)) (fun t =>
    let r := minMaxOf greater f.ty t.ftz (t.rs f.sa) (t.rs f.sb)
    .next ((t.ws (lamBy f.ty 1) f.dst r.1).orFlags (BitVec.ofNat 5 r.2)))

/-- DIV's quotient (16 R358): truncated; all ones for a zero divisor; the least value for the overflow. -/
def quotient (ty : BitVec 5) (a b : Word) : Int :=
  let x := intOpd ty a
  let y := intOpd ty b
  if y == 0 then 2 ^ WellFormed.width ty.toNat - 1 else Int.tdiv x y

/-- The count of one bits below bit `n`. -/
def popCount (w : Word) : Nat → Nat
  | 0 => 0
  | n + 1 => (if w.getLsbD n then 1 else 0) + popCount w n

/-- The number of zero bits from bit `n - 1` downward. -/
def leadZeros (w : Word) : Nat → Nat
  | 0 => 0
  | n + 1 => if w.getLsbD n then 0 else 1 + leadZeros w n

/-- The number of zero bits from bit `64 - n` upward. -/
def trailZeros (w : Word) : Nat → Nat
  | 0 => 0
  | n + 1 => if w.getLsbD (63 - n) then 0 else 1 + trailZeros w n

/-- Bits 63 - i at i (15 R342). -/
def bitReverse (w : Word) : Nat → Word
  | 0 => 0
  | n + 1 => (if w.getLsbD (63 - n) then (1 : Word) <<< n else 0) ||| bitReverse w n

/-- POS of a field descriptor (16 R361). -/
def fieldPos (d : Word) : Nat := bits d 5 0

/-- LEN of a field descriptor (16 R361). -/
def fieldLen (d : Word) : Nat := bits d 13 8 + 1

/-- EXT's result (16 R361). -/
def extField (sgn : Bool) (v d : Word) : Word :=
  let f := (v.toNat >>> fieldPos d) % 2 ^ fieldLen d
  if sgn then BitVec.ofInt 64 (intVal true (fieldLen d) f) else BitVec.ofNat 64 f

/-- INS's result (16 R373). -/
def insField (old v d : Word) : Word :=
  let m : Word := BitVec.ofNat 64 ((2 ^ fieldLen d - 1) <<< fieldPos d)
  (old &&& ~~~m) ||| ((v <<< fieldPos d) &&& m)

/-- PADD: the displaced pointer, or none outside 0 to 2^52 - 1 (17 R410). -/
def displaced (p : Word) (disp : Int) : Option Word :=
  let v : Int := pointerAddr p + disp
  if v < 0 || 2 ^ 52 ≤ v then none else some (BitVec.ofNat 64 (bits p 63 52 * 2 ^ 52 + v.toNat))

/-- PADD by a displacement. -/
def State.padd (s : State) (dst : BitVec 6) (p : Word) (disp : Int) : Effect :=
  match displaced p disp with
  | some q => .next (s.ws 1 dst q)
  | none => .trap s 0x09 p

/-! ### The instructions -/

/-- ADD (15 R330). -/
def execAdd (f : SR) (s : State) : Out :=
  s.arith2 (.add f) f 1 (· + ·) (fun mode ftz k => k.add mode ftz)
    (some (fun t _ => sumTag (isWide f.ty) false (t.tagOf f.sa) (t.tagOf f.sb) (t.rs f.sa) (t.rs f.sb)))

/-- ADD with an immediate (15 R330; 04 R75). -/
def execAddI (f : SI) (s : State) : Out :=
  s.issue (.addI f) f.ctl { siMeta f 1 with tagging := .own } (fun t =>
    .next ((t.ws 1 f.dst (t.rs f.sa + SI.value f)).modCtx
      (fun x => x.setTag f.dst (sumTag true false (t.tagOf f.sa) .concrete (t.rs f.sa) (SI.value f)))))

/-- SUB (17 R426). -/
def execSub (f : SR) (s : State) : Out :=
  s.arith2 (.sub f) f 1 (· - ·) (fun mode ftz k => k.sub mode ftz)
    (some (fun t _ => sumTag (isWide f.ty) true (t.tagOf f.sa) (t.tagOf f.sb) (t.rs f.sa) (t.rs f.sb)))

/-- MUL (17 R404). -/
def execMul (f : SR) (s : State) : Out :=
  s.arith2 (.mul f) f 3 (· * ·) (fun mode ftz k => k.mul mode ftz) none

/-- MULH: the high half of the exact product (17 R405). -/
def execMulh (f : SR) (s : State) : Out :=
  s.alu2 (.mulh f) f 3 (fun a b =>
    let w := WellFormed.width f.ty.toNat
    extResult f.ty (wrapInt w ((intOpd f.ty a * intOpd f.ty b) / 2 ^ w)))

/-- DIV (16 R358); its result is interlocked (03 R64). -/
def execDiv (f : SR) (s : State) : Out :=
  s.issue (.div f) f.ctl (srMeta f 0) (fun t =>
    .next (t.wi f.dst (extResult f.ty (wrapInt (WellFormed.width f.ty.toNat) (quotient f.ty (t.rs f.sa) (t.rs f.sb))))))

/-- REM (17 R418): a - b q; interlocked (03 R64). -/
def execRem (f : SR) (s : State) : Out :=
  s.issue (.rem f) f.ctl (srMeta f 0) (fun t =>
    .next (t.wi f.dst (extResult f.ty (wrapInt (WellFormed.width f.ty.toNat)
      (intOpd f.ty (t.rs f.sa) - intOpd f.ty (t.rs f.sb) * quotient f.ty (t.rs f.sa) (t.rs f.sb))))))

/-- AND (15 R335). -/
def execAnd (f : SR) (s : State) : Out :=
  s.alu2 (.and f) f 1 (fun a b => a &&& b)

/-- AND with an immediate (15 R335). -/
def execAndI (f : SI) (s : State) : Out :=
  s.aluI (.andI f) f (fun a b => a &&& b)

/-- OR (17 R409). -/
def execOr (f : SR) (s : State) : Out :=
  s.alu2 (.or f) f 1 (fun a b => a ||| b)

/-- OR with an immediate (17 R409). -/
def execOrI (f : SI) (s : State) : Out :=
  s.aluI (.orI f) f (fun a b => a ||| b)

/-- XOR (18 R456). -/
def execXor (f : SR) (s : State) : Out :=
  s.alu2 (.xor f) f 1 (fun a b => a ^^^ b)

/-- XOR with an immediate (18 R456). -/
def execXorI (f : SI) (s : State) : Out :=
  s.aluI (.xorI f) f (fun a b => a ^^^ b)

/-- SHL (17 R423). -/
def execShl (f : SR) (s : State) : Out :=
  s.alu2 (.shl f) f 1 (fun a b => a <<< (bits b 5 0))

/-- SHL with an immediate (17 R423). -/
def execShlI (f : SI) (s : State) : Out :=
  s.aluI (.shlI f) f (fun a b => a <<< (bits b 5 0))

/-- SHR (17 R423). -/
def execShr (f : SR) (s : State) : Out :=
  s.alu2 (.shr f) f 1 (fun a b => a >>> (bits b 5 0))

/-- SHR with an immediate (17 R423). -/
def execShrI (f : SI) (s : State) : Out :=
  s.aluI (.shrI f) f (fun a b => a >>> (bits b 5 0))

/-- SRA (17 R423). -/
def execSra (f : SR) (s : State) : Out :=
  s.alu2 (.sra f) f 1 (fun a b => a.sshiftRight (bits b 5 0))

/-- SRA with an immediate (17 R423). -/
def execSraI (f : SI) (s : State) : Out :=
  s.aluI (.sraI f) f (fun a b => a.sshiftRight (bits b 5 0))

/-- CMP (15 R349). -/
def execCmp (f : SR) (s : State) : Out :=
  s.issue (.cmp f) f.ctl { srMeta f (lamBy f.ty 1) with tagging := .own } (fun t =>
    t.compare (lamBy f.ty 1) f.ty f.dst (t.rs f.sa) (t.rs f.sb) (t.tagOf f.sa) (t.tagOf f.sb))

/-- CMP with an immediate, as i64 (15 R349). -/
def execCmpI (f : SI) (s : State) : Out :=
  s.issue (.cmpI f) f.ctl { siMeta f 1 with tagging := .own } (fun t =>
    t.compare 1 6 f.dst (t.rs f.sa) (SI.value f) (t.tagOf f.sa) .concrete)

/-- MIN (17 R391). -/
def execMin (f : SR) (s : State) : Out :=
  s.minMax (.min f) f false

/-- MAX (17 R391). -/
def execMax (f : SR) (s : State) : Out :=
  s.minMax (.max f) f true

/-- CLZ (15 R348). -/
def execClz (f : SR) (s : State) : Out :=
  s.alu1 (.clz f) f 2 (fun a => BitVec.ofNat 64 (leadZeros a 64))

/-- CTZ (15 R348). -/
def execCtz (f : SR) (s : State) : Out :=
  s.alu1 (.ctz f) f 2 (fun a => BitVec.ofNat 64 (trailZeros a 64))

/-- POPC (17 R415). -/
def execPopc (f : SR) (s : State) : Out :=
  s.alu1 (.popc f) f 2 (fun a => BitVec.ofNat 64 (popCount a 64))

/-- BREV (15 R342). -/
def execBrev (f : SR) (s : State) : Out :=
  s.alu1 (.brev f) f 2 (fun a => bitReverse a 64)

/-- EXT (16 R361). -/
def execExt (f : SR) (s : State) : Out :=
  s.alu2 (.ext f) f 1 (fun a b => extField (f.ty == 6) a b)

/-- INS, which reads its destination (16 R373). -/
def execIns (f : SR) (s : State) : Out :=
  s.issue (.ins f) f.ctl { srcs := [f.sa, f.sb, f.dst], dst := some f.dst, lam := 1 } (fun t =>
    .next (t.ws 1 f.dst (insField (t.rs f.dst) (t.rs f.sa) (t.rs f.sb))))

/-- MOV, which copies the region tag (17 R400; 08 R186). -/
def execMov (f : SR) (s : State) : Out :=
  s.issue (.mov f) f.ctl { srMeta1 f 1 with tagging := .own } (fun t =>
    .next ((t.ws 1 f.dst (t.rs f.sa)).modCtx (fun x => x.setTag f.dst (t.tagOf f.sa))))

/-- SEL (17 R420). -/
def execSel (f : SQ) (s : State) : Out :=
  s.issue (.sel f) f.ctl { srcs := [f.sa, f.sb, f.sc], dst := some f.dst, lam := 1 } (fun t =>
    .next (t.ws 1 f.dst (if t.rs f.sa = 0 then t.rs f.sc else t.rs f.sb)))

/-- FMA (16 R365). -/
def execFma (f : SQ) (s : State) : Out :=
  s.issue (.fma f) f.ctl { srcs := [f.sa, f.sb, f.sc], dst := some f.dst, lam := 4 } (fun t =>
    t.rounded (.fma f) f.fn.toNat (fun mode => .next (t.wsFlags 4 f.dst
      ((fmtOf f.ty.toNat).fma mode t.ftz (fpOpd f.ty (t.rs f.sa)) (fpOpd f.ty (t.rs f.sb)) (fpOpd f.ty (t.rs f.sc))))))

/-- Write an interlocked floating-point result and raise its flags. -/
def State.wiFlags (s : State) (dst : BitVec 6) (r : FRes) : State :=
  (s.wi dst (BitVec.ofNat 64 r.bits)).orFlags (BitVec.ofNat 5 r.flags)

/-- FDIV (16 R363); interlocked (03 R64). -/
def execFdiv (f : SR) (s : State) : Out :=
  s.issue (.fdiv f) f.ctl (srMeta f 0) (fun t =>
    t.rounded (.fdiv f) f.rm.toNat (fun mode => .next (t.wiFlags f.dst
      ((fmtOf f.ty.toNat).div mode t.ftz (fpOpd f.ty (t.rs f.sa)) (fpOpd f.ty (t.rs f.sb))))))

/-- FSQRT (16 R363); interlocked (03 R64). -/
def execFsqrt (f : SR) (s : State) : Out :=
  s.issue (.fsqrt f) f.ctl (srMeta1 f 0) (fun t =>
    t.rounded (.fsqrt f) f.rm.toNat (fun mode => .next (t.wiFlags f.dst
      ((fmtOf f.ty.toNat).sqrt mode t.ftz (fpOpd f.ty (t.rs f.sa))))))

/-- FCVT from type FN to type TYPE (16 R362). -/
def execFcvt (f : SR) (s : State) : Out :=
  s.issue (.fcvt f) f.ctl (srMeta1 f 3) (fun t =>
    t.rounded (.fcvt f) f.rm.toNat (fun mode =>
      let r := convert f.ty.toNat f.fn.toNat mode t.ftz (t.rs f.sa).toNat
      .next ((t.ws 3 f.dst (extResult f.ty r.bits)).orFlags (BitVec.ofNat 5 r.flags))))

/-- PADD (17 R410). -/
def execPadd (f : SR) (s : State) : Out :=
  s.issue (.padd f) f.ctl (srMeta f 1) (fun t => t.padd f.dst (t.rs f.sa) (t.rs f.sb).toInt)

/-- PADD with an immediate (17 R410). -/
def execPaddI (f : SI) (s : State) : Out :=
  s.issue (.paddI f) f.ctl (siMeta f 1) (fun t => t.padd f.dst (t.rs f.sa) (SI.value f).toInt)

/-- PMAKE (17 R413). -/
def execPmake (f : SR) (s : State) : Out :=
  s.alu2 (.pmake f) f 1 (fun a b => BitVec.ofNat 64 (bits b 11 0 * 2 ^ 52 + pointerAddr a))

/-- PTAG (17 R413). -/
def execPtag (f : SR) (s : State) : Out :=
  s.alu1 (.ptag f) f 1 (fun a => BitVec.ofNat 64 (bits a 63 52))

/-- LI (16 R389). -/
def execLi (f : SL) (s : State) : Out :=
  s.issue (.li f) f.ctl { dst := some f.dst, lam := 1 } (fun t => .next (t.ws 1 f.dst (sext64 f.imm)))

/-- LIH, which reads its destination (16 R390). -/
def execLih (f : SL) (s : State) : Out :=
  s.issue (.lih f) f.ctl { srcs := [f.dst], dst := some f.dst, lam := 1 } (fun t =>
    .next (t.ws 1 f.dst (BitVec.ofNat 64 (f.imm.toNat % 2 ^ 31 * 2 ^ 33 + (t.rs f.dst).toNat % 2 ^ 33))))

end Sys2Proof.Machine
end

