-- ==== Sys2Proof/Machine/Control.lean ====
section
/-! DEFINITION. Branches, calls, traps and vector length (04 R79; 02 R33, R34; 13 R291; 15 to 18). -/
namespace Sys2Proof.Machine
open Sys2Proof

/-- pc + 8 * distance, wrapping (15 R339). -/
def branchTarget (pc : Word) (words : Word) : Word := pc + 8 * words

/-- BR; the guard makes it conditional (15 R339). -/
def execBr (f : BR) (s : State) : Out :=
  s.issue (.br f) f.ctl {} (fun t => .jump t (branchTarget t.ctx.pc (sext64 f.off)))

/-- JAL: the link, concrete in a region, and the jump (16 R374). -/
def execJal (f : SI) (s : State) : Out :=
  s.issue (.jal f) f.ctl { dst := some f.dst, lam := 1, tagging := .own } (fun t =>
    .jump ((t.ws 1 f.dst (t.ctx.pc + 8)).modCtx (fun x => x.setTag f.dst .concrete))
      (branchTarget t.ctx.pc (SI.value f)))

/-- The region becomes fragile (08 R186). -/
def Ctx.makeFragile (x : Ctx) : Ctx :=
  if x.region.isSome then { x with astate := { x.astate with fragile := true } } else x

/-- JR: to s[SA] + IMM, with the link; a target that is no multiple of 8 traps. In a region a target from a symbolic or
opaque register makes the link opaque, like any other result of such an operand, and the region fragile even where the
link goes to s0 (16 R375; 08 R186). -/
def execJr (f : SI) (s : State) : Out :=
  s.issue (.jr f) f.ctl { srcs := [f.sa], dst := some f.dst, lam := 1, tagging := .own } (fun t =>
    let target := t.rs f.sa + SI.value f
    if target.toNat % 8 != 0 then .trap t 0x04 target
    else
      let exact := t.tagOf f.sa == .concrete
      .jump ((t.ws 1 f.dst (t.ctx.pc + 8)).modCtx (fun x =>
        if exact then x.setTag f.dst .concrete else (x.setTag f.dst .unknown).makeFragile)) target)

/-- SUBBR: the difference to s[SA], and a branch while it is positive (02 R34; 17 R427). -/
def execSubbr (f : SB) (s : State) : Out :=
  s.issue (.subbr f) f.ctl { srcs := [f.sa, f.sb], dst := some f.sa, lam := 1, tagging := .own } (fun t =>
    let d := t.rs f.sa - t.rs f.sb
    let exact := t.tagOf f.sa == .concrete && t.tagOf f.sb == .concrete
    let u := (t.ws 1 f.sa d).modCtx (fun x =>
      if exact then x.setTag f.sa .concrete else (x.setTag f.sa .unknown).makeFragile)
    .jump u (if 0 < d.toInt then branchTarget t.ctx.pc (sext64 f.off) else t.ctx.pc + 8))

/-- Grant a vector length: VL and VSTART (02 R33). -/
def State.grantVl (s : State) (n : Nat) : State := s.modCtx (fun x => { x with vl := n, vstart := 0 })

/-- SETVL (02 R33; 17 R421): it waits for earlier vector instructions (R357). -/
def execSetvl (f : SI) (s : State) : Out :=
  s.issue (.setvl f) f.ctl { srcs := [f.sa], dst := some f.dst, lam := 1, forbid := some 3 } (fun t =>
    let u := t.drainVector
    let n := min (t.rs f.sa).toNat (t.ctx.vlmax / WellFormed.width f.imm.toNat)
    .next ((u.grantVl n).ws 1 f.dst (BitVec.ofNat 64 n)))

/-- TRAP (13 R291; 18 R429). -/
def execTrap (f : SI) (s : State) : Out :=
  s.issue (.trap f) f.ctl { forbid := some 10 } (fun t => .trap t 0x11 (SI.value f))

/-- ECALL (13 R291; 16 R359). -/
def execEcall (f : SI) (s : State) : Out :=
  s.issue (.ecall f) f.ctl { forbid := some 10 } (fun t => .trap t 0x10 (SI.value f))

/-- A context that has taken the trap of its pre-emption notice stops for its save after its next ERET; one whose notice came
in its trap code goes on to the trap in program mode (13 R304, R308). -/
def State.heedNotice (s : State) : State :=
  if s.ctx.notice.isSome && s.ctx.noticed then
    (s.modCtx (fun x => { x with stopped := true })).schedule (.event (.preemptionNoticeTimeout s.cur.1 s.cur.2))
  else s

/-- ERET (13 R291; 16 R360). -/
def execEret (f : SR) (s : State) : Out :=
  s.issue (.eret f) f.ctl { priv := .supervisor, forbid := some 10 } (fun t =>
    let x := t.ctx
    if (modeCode x.mode) < x.trapcause.extractLsb' 8 2 then .trap t 0x02 (encode (.eret f))
    else if x.trappc.toNat % 8 != 0 then .trap t 0x04 x.trappc
    else .leave t.returnTrap.heedNotice)

/-- WFE: take the event bit, or wait for it (18 R454). -/
def execWfe (f : SR) (s : State) : Out :=
  s.issue (.wfe f) f.ctl { handler := false, forbid := some 10 } (fun t =>
    if t.ctx.event then
      .next ((t.modCtx (fun x => { x with event := false })).acquireSteps t.runCore packageScope)
    else .wait t .event)

/-- VDRAIN (07 R156; 18 R435). -/
def execVdrain (f : SR) (s : State) : Out :=
  s.issue (.vdrain f) f.ctl { forbid := some 10 } (fun t => .next t.drainVector)

/-- An unassigned OP, or one of the two words of 03 R58 (04 R74): the illegal-instruction trap with the word. -/
def execUnassignedOp (word : Word) (s : State) : Out :=
  .next (s.trapAt 0 0x01 word none)

/-- A fetch that fails traps at the instruction to be fetched (15 R340, R341). -/
def execInstructionFetch (cause : BitVec 8) (addr : Word) (s : State) : Out :=
  let s1 := if cause = 0x08 then s.noteBad s.runDie s.ctx.domain addr.toNat else s
  .next (s1.trapAt 0 cause addr none)

/-- The 8,193rd instruction of an invocation is not issued: the invocation ends (02 R29; 08 R180). -/
def execHandlerOverrun (core : CoreId) (s : State) : Out :=
  let number := match (s.coreAt core).inv with
    | some v => v.number
    | none => 0
  .next (({ s with cur := (core, handlerCtx) }).takeTrap 0x0F (addrWord number) none)

/-- A region's 257th instruction is not issued: the region aborts with LENGTH (08 R184). -/
def execRegionLengthAbort (core : CoreId) (ctx : CtxId) (s : State) : Out :=
  .next (s.modCtxAt core ctx (fun x => x.abortRegion 6 0))

end Sys2Proof.Machine
end

