-- ==== Sys2Proof/Machine/Csr.lean ====
section
/-! DEFINITION. The special registers of 03 R47 to R52, read by CSRR and written by CSRW (15 R355 to R357; 09
R200 to R203; 13 R286, R299). -/
namespace Sys2Proof.Machine
open Sys2Proof

/-- A flag as a number. -/
def bit01 (b : Bool) : Nat := if b then 1 else 0

/-- WSREF at a cycle (09 R203). -/
def wsref (cycle : Nat) : Nat :=
  if cycle % 32768 < 32512 then 32512 - cycle % 32768 else 2 ^ 16 + (32768 - cycle % 32768)

/-- CCOORD of a core (03 R51). -/
def ccoord (c : CoreId) : Nat := (dieOf c).val * 2 ^ 16 + coreY c * 2 ^ 8 + coreX c

/-- MSTAT as a word (09 R200). -/
def MStat.word (m : MStat) : Word :=
  BitVec.ofNat 64 (m.fcause.toNat * 2 ^ 56 + m.lstate.toNat * 2 ^ 54 + m.faddr.toNat)

/-- MLEASEID as a word (09 R201). -/
def MLease.word (m : MLease) : Word :=
  BitVec.ofNat 64 (m.tflags.toNat * 2 ^ 16 + m.nslot.toNat * 2 ^ 4 + m.lease.toNat)

/-- ASTATE as a word (08 R183). -/
def AState.word (a : AState) : Word :=
  BitVec.ofNat 64 (a.nins % 512 * 2 ^ 32 + a.nst % 32 * 2 ^ 24 + a.ncon % 32 * 2 ^ 16 + a.nload % 16 * 2 ^ 8 +
    bit01 a.homev * 2 ^ 7 + a.home % 8 * 2 ^ 4 + bit01 a.repaired * 4 + bit01 a.fragile * 2 + bit01 a.active)

/-- HOPCTL as a word (13 R299). -/
def Ctx.hopctl (x : Ctx) : Word := BitVec.ofNat 64 (bit01 x.pnote * 2 ^ 8 + bit01 x.vdirty * 2 ^ 4 + x.hopPolicy.toNat)

/-- Field `f` of a circular buffer (03 R52). -/
def Ring.field (r : Ring) (f : Nat) : Nat :=
  if f == 0 then r.base else if f == 1 then r.szlog else if f == 2 then r.cntlog else if f == 3 then r.filled
  else if f == 4 then r.free else if f == 5 then r.rdidx else r.wridx

/-- The value of CSR `n`, one that 03 R47 lists, to the executing context. -/
def State.csrRead (s : State) (n : Nat) : Word :=
  let x := s.ctx
  if n == 0x000 then BitVec.ofNat 64 x.vl
  else if n == 0x001 then BitVec.ofNat 64 x.vstart
  else if n == 0x002 then BitVec.ofNat 64 x.vlmax
  else if n == 0x003 then BitVec.ofNat 64 x.vlcap
  else if n == 0x004 then x.fcsr.setWidth 64
  else if n == 0x005 then x.scbmode.setWidth 64
  else if n == 0x006 then BitVec.ofNat 64 x.kstack.length
  else if n == 0x010 then BitVec.ofNat 64 (ccoord s.runCore)
  else if n == 0x011 then BitVec.ofNat 64 s.cur.2.val
  else if n == 0x012 then x.domain.setWidth 64
  else if n == 0x013 then BitVec.ofNat 64 x.prio
  else if n == 0x014 then x.launchId
  else if n < 0x028 then x.lvlid[n - 0x020]?.getD 0
  else if n < 0x030 then x.lvlscope[n - 0x028]?.getD 0
  else if n == 0x030 then BitVec.ofNat 64 s.cycle
  else if n == 0x031 then BitVec.ofNat 64 s.time
  else if n == 0x040 then x.mtm
  else if n == 0x041 then x.mtn
  else if n == 0x042 then x.mtk
  else if n == 0x043 then x.mstat.word
  else if n == 0x044 then BitVec.ofNat 64 (bit01 x.mkvalid * 2 ^ 63 + x.mkpos.toNat)
  else if n == 0x045 then BitVec.ofNat 64 (wsref s.cycle)
  else if n == 0x046 then x.mlease.word
  else if n == 0x050 then x.astate.word
  else if n == 0x051 then BitVec.ofNat 64 (x.tcause.toNat * 2 ^ 8 + x.acode.toNat)
  else if n == 0x060 then x.hopctl
  else if n == 0x100 then x.trapcause.setWidth 64
  else if n == 0x101 then x.trappc
  else if n == 0x102 then x.trapval
  else if n == 0x103 then x.trapvec
  else if n == 0x104 then x.trapscratch
  else if n == 0x110 then BitVec.ofNat 64 (dieOf s.runCore).val
  else BitVec.ofNat 64 ((s.coreAt s.runCore).rings[(Fin.ofNat 8 ((n - 0x300) / 8))].field (n % 8))

/-- The slots of a ring. -/
def Ring.slots (r : Ring) : Nat := 2 ^ r.cntlog

/-- The offset of a slot in local memory (06 R122). -/
def Ring.slotOff (r : Ring) (i : Nat) : Nat := r.base + i * 2 ^ r.szlog

/-- A message read from local memory at an offset (08 R167). -/
def State.readMessage (s : State) (c : CoreId) (o : Nat) : Message :=
  let w := fun i => BitVec.ofNat 64 (s.localRead c (o + 8 * i) 8)
  ⟨w 0, w 1, w 2, w 3, w 4, w 5, w 6, w 7⟩

/-- The unread messages of an inbox that is emptied are answered REJECTED where they ask for a reply: each receives exactly
one (08 R173; 12 R283; log 46). -/
def State.rejectUnread (s : State) (c : CoreId) (r : Ring) : State :=
  ((List.range r.filled).zip r.senders).foldl (fun u p =>
    let m := s.readMessage c (r.slotOff ((r.rdidx + p.1) % r.slots))
    if m.rr then u.reply (dieOf c) p.2 m 5 0 else u) s

/-- The descriptor with one field replaced and the ring emptied; none where 03 R52 rejects the value. -/
def Ring.describe (r : Ring) (f v : Nat) : Option Ring :=
  let q := if f == 0 then { r with base := v } else if f == 1 then { r with szlog := v } else { r with cntlog := v }
  if 6 ≤ q.szlog && q.szlog ≤ 12 && q.cntlog ≤ 10 && q.base % 2 ^ q.szlog == 0 &&
      q.base + 2 ^ (q.szlog + q.cntlog) ≤ Config.localBytes then
    some { q with filled := 0, free := 2 ^ q.cntlog, rdidx := 0, wridx := 0, res := [], taken := 0, senders := [] }
  else none

/-- Replace ring `c` of a core. -/
def State.setRing (s : State) (core : CoreId) (c : Fin 8) (r : Ring) : State :=
  s.modCore core (fun k => { k with rings := k.rings.set c r })

/-- A descriptor write of the executing context (03 R52): the reservations in the ring are gone. -/
def State.describeRing (s : State) (c : Fin 8) (f v : Nat) : Option State :=
  let core := s.runCore
  let old := (s.coreAt core).rings[c]
  match old.describe f v with
  | none => none
  | some r => some (((s.rejectUnread core old).setRing core c r).modCore core (fun k =>
      { k with ctxs := vmap k.ctxs (fun x => { x with reserv := x.reserv.filter (fun p => p.1 != c.val) }) }))

/-- The powers of two from 512 to VLEN (03 R49). -/
def vlcapOk (v : Nat) : Bool := v == 512 || v == 1024 || v == 2048 || v == 4096

/-- The state after the value `v` is written to CSR `n` by the executing context: unchanged where the CSR is
read-only in its mode, none where the CSR's rule rejects the value (03 R46; 15 R356). -/
def State.csrWrite (s : State) (n : Nat) (v : Word) : Option State :=
  let super := s.ctx.mode != .program
  let accept := fun (ok : Bool) (f : Ctx → Ctx) => if ok then some (s.modCtx f) else none
  if n == 0x000 then accept (v.toNat ≤ 1024) (fun x => { x with vl := v.toNat })
  else if n == 0x001 then accept (v.toNat ≤ 1024) (fun x => { x with vstart := v.toNat })
  else if n == 0x004 then accept true (fun x => { x with fcsr := v.setWidth 9 })
  else if n == 0x003 && super then accept (vlcapOk v.toNat) (fun x => { x with vlcap := v.toNat })
  else if n == 0x005 && super then accept (v.toNat ≤ 2) (fun x => { x with scbmode := v.setWidth 2 })
  else if n == 0x044 && super then accept true (fun x => { x with mkvalid := bitAt v 63, mkpos := v.setWidth 16 })
  else if n == 0x060 && super then
    accept (bits v 63 9 == 0 && bits v 7 5 == 0 && bits v 3 2 == 0 && bits v 1 0 != 3)
      (fun x => { x with pnote := bitAt v 8, hopPolicy := v.setWidth 2 })
  else if n == 0x100 then accept (bits v 63 11 == 0 && bits v 9 8 != 3) (fun x => { x with trapcause := v.setWidth 11 })
  else if n == 0x101 then accept true (fun x => { x with trappc := v })
  else if n == 0x102 then accept true (fun x => { x with trapval := v })
  else if n == 0x103 then accept (bits v 63 52 == 0) (fun x => { x with trapvec := v >>> 3 <<< 3 })
  else if n == 0x104 then accept true (fun x => { x with trapscratch := v })
  else if 0x300 ≤ n && n % 8 ≤ 2 && (0x320 ≤ n || super) then s.describeRing (Fin.ofNat 8 ((n - 0x300) / 8)) (n % 8) v.toNat
  else some s

/-- The least mode that may reach CSR `n` at all: "S only" is supervisor (03 R46). -/
def csrMode (n : Nat) : Mode := if 0x100 ≤ n && n ≤ 0x104 then .supervisor else .program

/-- CSRR and CSRW of VL, VSTART, VLCAP and FCSR wait for earlier vector instructions (15 R357). -/
def csrWaits (n : Nat) : Bool := n == 0x000 || n == 0x001 || n == 0x003 || n == 0x004

/-- The wait of a CSRR or CSRW of CSR `n` (15 R357). -/
def State.csrWait (s : State) (n : Nat) : State := if csrWaits n then s.drainVector else s

/-- CSRR (15 R355); its result is concrete in a region. -/
def execCsrr (f : SI) (s : State) : Out :=
  let n := f.imm.toNat
  s.issue (.csrr f) f.ctl { dst := some f.dst, lam := 2, priv := csrMode n, tagging := .own } (fun t =>
    let u := t.csrWait n
    .next ((u.ws 2 f.dst (u.csrRead n)).modCtx (fun x => x.setTag f.dst .concrete)))

/-- CSRW (15 R356). -/
def execCsrw (f : SI) (s : State) : Out :=
  let n := f.imm.toNat
  s.issue (.csrw f) f.ctl { srcs := [f.sa], priv := csrMode n, forbid := some 10 } (fun t =>
    let u := t.csrWait n
    match u.csrWrite n (t.rs f.sa) with
    | some w => .next w
    | none => illegal t (.csrw f))

end Sys2Proof.Machine
end

