-- ==== Sys2Proof/Machine/Registers.lean ====
section
/-! DEFINITION. The firmware register block of each die (06 R133; 08 R174; 13 R287; 14 R318), the Bellows
register block (12 R269, R271, R278; 13 R305; 14 R319), and a change of the virtual-die map (01 R9, R10). -/
namespace Sys2Proof.Machine
open Sys2Proof

/-- The field `hi:lo` of a written value, kept at its place. -/
def inPlace (v hi lo : Nat) : Nat := (v >>> lo % 2 ^ (hi + 1 - lo)) <<< lo

/-- The 8 bytes of a register after a write of `n` bytes of `v` at byte `o` of it (log 13). -/
def patchWord (old o n v : Nat) : Nat := mergeMasked 8 (byteMask o n) (v <<< (8 * o)) old

/-! ### The firmware register block of a die -/

/-- The register at an offset; one that no table lists reads zero (00 R5). -/
def FwRegs.read (f : FwRegs) (off : Nat) : Nat :=
  if off == 0x000 then f.nqbase
  else if off == 0x008 then f.nqhead.toNat
  else if off == 0x010 then f.nqtail.toNat
  else if off == 0x018 then bit01 f.ovf * 2 ^ 63 + f.dropped
  else if off == 0x020 then f.thrl * 256 + f.thrh
  else if off == 0x028 then f.dtbase
  else if off == 0x030 then f.dtcnt
  else if off == 0x038 then f.msgerr
  else if off == 0x040 then f.svec.toNat
  else if off == 0x048 then f.fvec.toNat
  else if off == 0x050 then f.ptbase
  else if off == 0x058 then bit01 f.hen * 2 ^ 63 + f.hly * 8 + f.hlx
  else if off == 0x060 then f.injbase
  else if off == 0x068 then f.injcnt
  else 0

/-- NQHEAD: a value that would leave NQTAIL - NQHEAD above 1,024 is ignored (06 R133). -/
def FwRegs.writeNqhead (f : FwRegs) (v : BitVec 32) : FwRegs :=
  if (f.nqtail - v).toNat ≤ 1024 then { f with nqhead := v } else f

/-- Write a register; OVF is cleared by a one, read-only and unlisted registers ignore the write. -/
def FwRegs.write (f : FwRegs) (off v : Nat) : FwRegs :=
  if off == 0x000 then { f with nqbase := inPlace v 51 14 }
  else if off == 0x008 then f.writeNqhead (BitVec.ofNat 32 v)
  else if off == 0x018 then { f with ovf := f.ovf && v / 2 ^ 63 % 2 == 0, dropped := v % 2 ^ 32 }
  else if off == 0x020 then { f with thrl := v / 256 % 256, thrh := v % 256 }
  else if off == 0x028 then { f with dtbase := inPlace v 51 4 }
  else if off == 0x030 then { f with dtcnt := v % 2 ^ 16 }
  else if off == 0x038 then { f with msgerr := v % 2 ^ 32 }
  else if off == 0x040 then { f with svec := BitVec.ofNat 64 (inPlace v 51 3) }
  else if off == 0x048 then { f with fvec := BitVec.ofNat 64 (inPlace v 51 3) }
  else if off == 0x050 then { f with ptbase := inPlace v 51 13 }
  else if off == 0x058 then { f with hen := v / 2 ^ 63 % 2 == 1, hly := v / 8 % 8, hlx := v % 8 }
  else if off == 0x060 then { f with injbase := inPlace v 51 4 }
  else if off == 0x068 then { f with injcnt := v % 2 ^ 16 }
  else f

/-- What a partial write leaves in the bytes it does not write: W1C bits are not written (log 13). -/
def FwRegs.keep (f : FwRegs) (off : Nat) : Nat := if off == 0x018 then f.dropped else f.read off

/-! ### Host rings (12 R269, R271) -/

/-- A ring register. -/
def HostRing.read (r : HostRing) (off : Nat) : Nat :=
  if off == 0x00 then r.rbase
  else if off == 0x08 then bit01 r.en * 2 ^ 63 + r.pmax * 2 ^ 48 + r.rdom.toNat * 2 ^ 32 + r.rlog
  else if off == 0x10 then r.head.toNat
  else if off == 0x18 then r.tail.toNat
  else if off == 0x20 then r.errtail.toNat * 2 ^ 32 + r.ecode * 16 + bit01 r.err
  else 0

/-- A TAIL write (12 R271). -/
def HostRing.writeTail (r : HostRing) (v : BitVec 32) : HostRing :=
  if r.err then r
  else if (v - r.head).toNat ≤ 2 ^ r.rlog then { r with tail := v }
  else { r with errtail := v, ecode := 1, err := true }

/-- RESET (12 R269). -/
def HostRing.reset' (r : HostRing) : HostRing := { r with head := 0, tail := 0, ecode := 0, err := false }

/-- RESUME (12 R269). -/
def HostRing.resume (r : HostRing) : HostRing := if r.err then { r with ecode := 0, err := false } else r

/-- SKIP: with ECODE 2 to 4 past the rejected slot, else as RESUME (12 R269, R271). -/
def HostRing.skip (r : HostRing) : HostRing :=
  if r.err && 2 ≤ r.ecode && r.ecode ≤ 4 then { r with head := r.head + 1 }.resume else r.resume

/-- Firmware's write of RBASE, or of EN, PMAX, RDOM and RLOG (12 R269). -/
def HostRing.config (r : HostRing) (off v : Nat) : HostRing :=
  let open_ := !r.en || r.err
  if off == 0x00 then if open_ then { r with rbase := inPlace v 51 8 } else r
  else if off == 0x08 then
    let on := v / 2 ^ 63 % 2 == 1
    { r with
      en := if on then r.en || open_ else false
      pmax := v / 2 ^ 48 % 64
      rdom := BitVec.ofNat 16 (v / 2 ^ 32)
      rlog := if open_ && 4 ≤ v % 16 && v % 16 ≤ 14 then v % 16 else r.rlog }
  else r

/-- The ring has a slot to consume (12 R270, R271). -/
def HostRing.pending (r : HostRing) : Bool := r.en && !r.err && r.head != r.tail

/-- Change a ring; entry into the error state is reported to firmware (12 R271), and a ring with a slot to
consume gets its turn (log 1). -/
def State.changeRing (s : State) (n : Fin 16) (f : HostRing → HostRing) : State :=
  let old := s.rings[n]
  let new := f old
  let s1 := { s with rings := s.rings.set n new }
  let s2 := if new.err && !old.err then s1.report (.ringError n.val new.ecode) else s1
  if new.pending then s2.schedule (.event (.hostRingConsume n)) else s2

/-- Write RCTL: RESET, then SKIP, then RESUME (12 R269). -/
def HostRing.control (r : HostRing) (v : Nat) : HostRing :=
  let r1 := if v / 4 % 2 == 1 then r.reset' else r
  let r2 := if v / 2 % 2 == 1 then r1.skip else r1
  if v % 2 == 1 then r2.resume else r2

/-! ### The virtual-die map (01 R9, R10; 14 R319) -/

/-- A context is placed on the package: some core is held by a launch. -/
def State.anyPlaced (s : State) : Bool := (List.range 512).any (fun i => (s.coreAt (Fin.ofNat 512 i)).placed.isSome)

/-- The new virtual number of a die. -/
def moveDie (old new : Nat) (d : DieId) : DieId := Fin.ofNat 8 (ringPos new (ringPos old d.val))

/-- The new mesh position of a core: its local position on its die's new number (01 R14). -/
def moveCore (old new : Nat) (c : CoreId) : CoreId := localCore (moveDie old new (dieOf c)) (coreX c % 8) (coreY c % 8)

/-- The cells of a memory with their addresses moved. -/
def moveCells (f : Nat → Nat) (m : List Host.Cell) : List Host.Cell := m.foldl (fun t c => writeByte t (f c.1) c.2) []

/-- Every die writes back and invalidates its L2, its translations and its cores' L1s (01 R9). -/
def State.quiesce (s : State) : State :=
  let s1 := (List.range 8).foldl (fun t i => t.writeBackAll (Fin.ofNat 8 i)) s
  { s1 with
    dies := vmap s1.dies (fun d => { d with l2 := [], tlb := [] })
    cores := vmap s1.cores (fun k => { k with l1 := [], icache := [] }) }

/-- What moves with a change of map: the new virtual number of a die and the new position of a core. -/
structure Renumber where
  die : DieId → DieId
  core : CoreId → CoreId

/-- A sender of this package under new numbers: a context of a launch keeps its position, to which its saved group returns (01
R9). -/
def Sender.moved (r : Renumber) (p : Sender) : Sender :=
  if p.remote || p.launch.isSome then p else { p with core := r.core p.core }

/-- A message in the queue of a core's handler context, or held for it. -/
def Delivery.moved (r : Renumber) (d : Delivery) : Delivery := { d with sender := Sender.moved r d.sender, core := r.core d.core }

/-- A command at its agent. -/
def Command.moved (r : Renumber) (c : Command) : Command := { c with sender := Sender.moved r c.sender, die := r.die c.die }

/-- What a frame of this package names of it; a source read names its die by its site. -/
def Frame.moved (r : Renumber) (f : Frame) : Frame :=
  { f with
    core := r.core f.core
    body := match f.body with
      | .message dest m p => .message dest m (Sender.moved r p)
      | b => b }

/-- A scheduled event under new numbers; a message to an inbox has named its core by its number. -/
def movedEvent (r : Renumber) : Instr → Instr
  | .arrayGrant d => .arrayGrant (r.die d)
  | .barrierDieReport d n => .barrierDieReport (r.die d) n
  | .fireboxCommandRun d => .fireboxCommandRun (r.die d)
  | .hobRefreshEnd d => .hobRefreshEnd (r.die d)
  | .quantumExpiry d => .quantumExpiry (r.die d)
  | .l2Eviction d va => .l2Eviction (r.die d) va
  | .l2DirtyWriteback d va => .l2DirtyWriteback (r.die d) va
  | .hopArrival c x => .hopArrival (r.core c) x
  | .preemptionNoticeTimeout c x => .preemptionNoticeTimeout (r.core c) x
  | .handlerMessage m p => .handlerMessage m (Sender.moved r p)
  | .inboxMessage d => .inboxMessage { d with sender := Sender.moved r d.sender }
  | i => i

/-- A turn under new numbers. -/
def Turn.moved (r : Renumber) : Turn → Turn
  | .core c => .core (r.core c)
  | .agent d n => .agent (r.die d) n
  | .event i => .event (movedEvent r i)

/-- A ring under new numbers. -/
def Ring.moved (r : Renumber) (q : Ring) : Ring :=
  { q with
    res := q.res.map (fun e => { e with sender := e.sender.map (Sender.moved r) })
    senders := q.senders.map (Sender.moved r) }

/-- What a core holds that names cores. The inboxes, cb0 to cb3, are those of the position: there a saved group finds its
messages again (01 R9; 12 R281). -/
def Core.moved (r : Renumber) (position k : Core) : Core :=
  { k with
    ctxs := vmap k.ctxs (fun x => { x with hopped := x.hopped.map r.core, travel := x.travel.map r.core })
    rings := Vector.ofFn (fun n => Ring.moved r (if n.val < 4 then position.rings[n] else k.rings[n]))
    vqueue := k.vqueue.map (fun e => { e with ctx := (r.core e.ctx.1, e.ctx.2) })
    walks := k.walks.map (fun w => { w with ctx := (r.core w.ctx.1, w.ctx.2) })
    hqueue := k.hqueue.map (Delivery.moved r)
    inv := k.inv.map (fun v => { v with sender := Sender.moved r v.sender }) }

/-- What a die holds that names dies and cores. -/
def Die.moved (r : Renumber) (d : Die) : Die :=
  { d with
    markers := d.markers.map (fun m => { m with die := r.die m.die, core := r.core m.core })
    held := d.held.map (Delivery.moved r)
    agents := vmap d.agents (fun a => { a with queue := a.queue.map (Command.moved r) })
    firebox := { d.firebox with leases := d.firebox.leases.map (fun l => { l with core := r.core l.core }) }
    bars := d.bars.map (fun b => { b with reported := b.reported.map r.die })
    hopSlots := d.hopSlots.map (fun p => (r.core p.1, p.2)) }

/-- A saved group is to return to a core. -/
def State.savedOn (s : State) (c : CoreId) : Bool :=
  s.launches.any (fun l => l.groups.any (fun g =>
    match g.state with
    | .saved images => images.any (fun p => p.1 == c)
    | .restoring images => images.any (fun p => p.1 == c)
    | _ => false))

/-- A cell of local memory lies in an inbox of a core to which a saved group is to return. -/
def State.inboxCell (s : State) (a : Nat) : Bool :=
  let c : CoreId := Fin.ofNat 512 ((a - Config.aliasBase) / 2 ^ 20)
  let o := (a - Config.aliasBase) % 2 ^ 20
  s.savedOn c && (List.range 4).any (fun n =>
    let r := (s.coreAt c).rings[(Fin.ofNat 8 n)]
    r.base ≤ o && o < r.base + 2 ^ (r.szlog + r.cntlog))

/-- The local memories under a new map: each moves with its core, but for the messages of saved groups, which stay with their
position (01 R9). -/
def State.movedLocal (s : State) (core : CoreId → CoreId) : List Host.Cell :=
  (s.lmem.filter (fun c => s.inboxCell c.1)).foldl (fun t c => writeByte t c.1 c.2)
    ((moveCells (fun a =>
      localKey (core (Fin.ofNat 512 ((a - Config.aliasBase) / 2 ^ 20))) ((a - Config.aliasBase) % 2 ^ 20)) s.lmem).filter
        (fun c => !s.inboxCell c.1))

/-- Bring a map into force: dies and cores take their new virtual numbers, and ownership stays with the
physical stacks and dies; work that is under way goes on under the new numbers (01 R9, R10; log 13). Each map is its own
inverse. -/
def State.remap (s : State) (code : Nat) : State :=
  let old := s.bregs.vdmap
  let q := s.quiesce
  let die := moveDie old code
  let from_ := moveDie code old
  let core := moveCore old code
  let r : Renumber := ⟨die, core⟩
  { q with
    agenda := q.agenda.map (Turn.moved r)
    txFrames := q.txFrames.map (Frame.moved r)
    bregs := { q.bregs with vdmap := code }
    dies := Vector.ofFn (fun v => Die.moved r q.dies[(from_ v)])
    cores := Vector.ofFn (fun c => Core.moved r q.cores[c] q.cores[(moveCore code old c)])
    owners := Vector.ofFn (fun i => die q.owners[(Fin.ofNat 8 (gapOf old (gapOf code i.val)))])
    lmem := q.movedLocal core
    hob := moveCells (fun a => (die (Fin.ofNat 8 (a / Config.hobBytes))).val * Config.hobBytes + a % Config.hobBytes) q.hob
    cur := (core q.cur.1, q.cur.2)
    focus := core q.focus }

/-- A write of the map register at 0x060 (14 R319). -/
def State.writeVdmap (s : State) (v : Nat) : State :=
  let s1 := { s with bregs := { s.bregs with vderr := s.bregs.vderr && v / 2 ^ 63 % 2 == 0 } }
  let code := v % 8
  if code == s.bregs.vdmap then s1
  else if 4 ≤ code || s.anyPlaced then { s1 with bregs := { s1.bregs with vderr := true } }
  else s1.remap code

/-! ### The Bellows register block -/

/-- A register below 0x1000; one that no table lists reads zero. -/
def State.bellowsLow (s : State) (off : Nat) : Nat :=
  let b := s.bregs
  if off == 0x000 then b.pthr
  else if off == 0x008 then b.minrun
  else if off == 0x010 then b.ageper
  else if off == 0x018 then b.flbase
  else if off == 0x020 then b.flcnt
  else if off == 0x028 then s.launches.length % 2 ^ 13
  else if off == 0x030 then b.spbase
  else if off == 0x038 then b.splen
  else if off == 0x040 then bit01 b.apen * 2 ^ 63 + b.apbase
  else if off == 0x048 then b.apdom.toNat
  else if off == 0x050 then b.pkgno
  else if off == 0x058 then b.jobidx
  else if off == 0x060 then bit01 b.vderr * 2 ^ 63 + b.vdmap
  else if off == 0x068 then b.hfault
  else if off == 0x070 then b.hdeny
  else 0

/-- The ring that an offset of the block names, if one (12 R269). -/
def ringAt (off : Nat) : Option (Fin 16 × Nat) :=
  if 0x1000 ≤ off && off < 0x1400 then some (Fin.ofNat 16 ((off - 0x1000) / 64), off % 64) else none

/-- A register of the Bellows block. -/
def State.bellowsRead (s : State) (off : Nat) : Nat :=
  match ringAt off with
  | some (n, o) => s.rings[n].read o
  | none => s.bellowsLow off

/-- A register with no behaviour beyond its fields. -/
def BellowsRegs.write (b : BellowsRegs) (off v : Nat) : BellowsRegs :=
  if off == 0x000 then { b with pthr := v % 64 }
  else if off == 0x008 then { b with minrun := v % 2 ^ 32 }
  else if off == 0x010 then { b with ageper := v % 2 ^ 32 }
  else if off == 0x018 then { b with flbase := inPlace v 51 0 }
  else if off == 0x020 then { b with flcnt := v % 2 ^ 16 }
  else if off == 0x030 then { b with spbase := inPlace v 51 12 }
  else if off == 0x038 then { b with splen := inPlace v 47 12 }
  else if off == 0x040 then { b with apen := v / 2 ^ 63 % 2 == 1, apbase := inPlace v 51 16 }
  else if off == 0x048 then { b with apdom := BitVec.ofNat 16 v }
  else if off == 0x050 then { b with pkgno := v % 2 ^ 19 }
  else if off == 0x058 then { b with jobidx := v % 2 ^ 19 }
  else if off == 0x068 then { b with hfault := v % 2 ^ 32 }
  else if off == 0x070 then { b with hdeny := v % 2 ^ 32 }
  else b

/-- Firmware writes a register of a host ring. -/
def State.writeRing (s : State) (n : Fin 16) (o v : Nat) : State :=
  if o == 0x18 then s.changeRing n (fun r => r.writeTail (BitVec.ofNat 32 v))
  else if o == 0x28 then s.changeRing n (fun r => r.control v)
  else if o == 0x00 || o == 0x08 then s.changeRing n (fun r => r.config o v)
  else s

/-- Firmware writes a register of the Bellows block. -/
def State.bellowsWrite (s : State) (off v : Nat) : State :=
  match ringAt off with
  | some (n, o) => s.writeRing n o v
  | none => if off == 0x060 then s.writeVdmap v else { s with bregs := s.bregs.write off v }

/-- What a partial write leaves in the bytes it does not write. -/
def State.bellowsKeep (s : State) (off : Nat) : Nat := if off == 0x060 then s.bregs.vdmap else s.bellowsRead off

/-! ### Firmware's accesses (14 R310; 06 R458) -/

/-- Read `n` bytes of a block register, naturally aligned (log 13). -/
def partOf (w off n : Nat) : Nat := (w >>> (8 * (off % 8))) % 2 ^ (8 * n)

/-- Write `n` bytes at a byte offset of a die's firmware register block. -/
def State.fwWrite (s : State) (d : DieId) (off n v : Nat) : State :=
  let o := off / 8 * 8
  s.modDie d (fun x => { x with fw := x.fw.write o (patchWord (x.fw.keep o) (off % 8) n v) })

/-- Write `n` bytes at a byte offset of the Bellows register block. -/
def State.bellowsPatch (s : State) (off n v : Nat) : State :=
  let o := off / 8 * 8
  s.bellowsWrite o (patchWord (s.bellowsKeep o) (off % 8) n v)

/-- A load by LD or LDACQ: the register blocks answer firmware mode (06 R458), the rest is `State.load`. -/
def State.loadC (s : State) (serve : Serve) (remote : Bool) (va n : Nat) : Except Stop (Nat × State) :=
  match regionOf va, s.ctx.mode with
  | .firmware d off, .firmware => .ok (partOf ((s.dieAt d).fw.read (off / 8 * 8)) off n, s)
  | .bellows off, .firmware => .ok (partOf (s.bellowsRead (off / 8 * 8)) off n, s)
  | _, _ => s.load serve remote va n

/-- A store by ST or STREL. -/
def State.storeC (s : State) (remote : Bool) (va n v : Nat) : Except Stop State :=
  match regionOf va, s.ctx.mode with
  | .firmware d off, .firmware => .ok (s.fwWrite d off n v)
  | .bellows off, .firmware => .ok (s.bellowsPatch off n v)
  | _, _ => s.store remote va n v

/-! ### The events -/

/-- A firmware write of NQHEAD (06 R133). -/
def execNqheadWrite (die : DieId) (value : BitVec 32) (s : State) : Out :=
  .next (s.modDie die (fun x => { x with fw := x.fw.writeNqhead value }))

/-- A firmware write of the map register (14 R319). -/
def execVdmapWrite (value : Word) (s : State) : Out := .next (s.writeVdmap value.toNat)

/-- A firmware write of a ring's RBASE or of its control register (12 R269). -/
def execRingConfigWrite (ring : Fin 16) (off : BitVec 6) (value : Word) (s : State) : Out :=
  .next (s.changeRing ring (fun r => r.config off.toNat value.toNat))

end Sys2Proof.Machine
end

