-- ==== Sys2Proof/Machine/Region.lean ====
section
/-! DEFINITION. Atomic regions: ABEGIN, tracked loads, recorded stores, AEND and AABORT (08 R182 to R193; 15
R328, R329, R331). -/
namespace Sys2Proof.Machine
open Sys2Proof

/-- The scope of kind DIE. -/
def dieScope : Word := 0x0200000000000000

/-- The home of an access of the open region (08 R187), with the checks that the access makes: rights R, W and A
(06 R117), a present page that is plain and not of the host tier (06 R134; 14 R312), for a store one that the
device owns (14 R314). -/
def State.regionHome (s : State) (write remote : Bool) (va : Nat) : Except Stop (Nat × State) :=
  let d := s.runDie
  let chk := s.plbCheck s.runCore s.ctx.domain va (rightR + rightW + rightA)
  if !chk.1 then .error (s.denial d s.ctx.domain va)
  else match (chk.2.dieAt d).line va with
    | some ln =>
      match chk.2.homeOf ln.pa with
      | none => .error (protection va)
      | some h =>
        if ln.codec != 0 then .error (protection va)
        else if write && ln.owner then .error (.trap 0x06 (addrWord va))
        else .ok (h.val, chk.2)
    | none =>
      match chk.2.translate d va with
      | none => .error (chk.2.notPresent d va)
      | some (l, s1) =>
        if l.codec != 0 || l.tier == 2 then .error (protection va)
        else if write && l.owner then .error (.trap 0x06 (addrWord va))
        else match s1.homeOf (l.pa va) with
          | some h => if remote && h != d then .error (.remote h va) else .ok (h.val, s1)
          | none => .error (protection va)

/-- An access homed on a die: the first one sets HOME; none is a SPAN (08 R187). -/
def Ctx.regionAt (x : Ctx) (home : Nat) : Option Ctx :=
  if x.astate.homev then (if x.astate.home == home then some x else none)
  else some { x with astate := { x.astate with homev := true, home := home } }

/-- Bytes that a recorded store and `n` bytes at `a` share. -/
def RStore.meets (r : RStore) (a n : Nat) : Bool := decide (r.addr < a + n) && decide (a < r.addr + r.n)

/-- The word at `w` with the region's stores merged in program order (08 R187). -/
def mergeStores (w : Nat) : List RStore → Nat → Nat
  | [], v => v
  | r :: rs, v =>
    mergeStores w rs (if w ≤ r.addr && r.addr < w + 8 then
      mergeMasked 8 (byteMask (r.addr - w) r.n) (r.val <<< (8 * (r.addr - w))) v else v)

/-- The latest recorded store that meets `n` bytes at `a`. -/
def lastStore (a n : Nat) (rs : List RStore) : Option RStore := (rs.filter (fun r => r.meets a n)).getLast?

/-- The tag that an `n`-byte load at `a` gives, where tracked word `i` contains it (08 R186, R187). -/
def Region.loadTag (r : Region) (i a n : Nat) (concreteBase : Bool) : Tag :=
  if n != 8 || !concreteBase then .unknown
  else match lastStore a 8 r.stores with
    | none => .sym i 0
    | some st => if st.n == 8 then st.tag else .unknown

/-- A load of the open region, from its tracked word (08 R186, R187). -/
def State.regionLoad (s : State) (f : SM) (a : Nat) : Effect :=
  let n := szBytes f.sz
  let w := a / 8 * 8
  match regionOf a, s.ctx.region with
  | .paged, some r =>
    s.pathC (fun remote => s.regionHome false remote a) (fun hs =>
      match hs.2.ctx.regionAt hs.1 with
      | none => .abort hs.2 4
      | some x =>
        let t := hs.2.modCtx (fun _ => x)
        let finish := fun (u : State) (q : Region) (i lv : Nat) =>
          let v := (mergeStores w q.stores lv >>> (8 * (a - w))) % 2 ^ (8 * n)
          let tag := q.loadTag i a n (q.tag f.base == .concrete)
          Effect.next ((u.wi f.ds (szExtend f.sz v)).modCtx (fun y => y.setTag f.ds tag))
        match r.tracked.findIdx? (fun p => p.1 == w) with
        | some i => finish t r i ((r.tracked[i]?.getD (0, 0)).2.toNat)
        | none =>
          if 8 ≤ r.tracked.length then .abort t 5
          else orTrap t (t.load .l1 false w 8) (fun vu =>
            let q := { r with tracked := r.tracked ++ [(w, BitVec.ofNat 64 vu.1)] }
            finish (vu.2.modCtx (fun y => { y with
              region := some q, astate := { y.astate with nload := q.tracked.length } }))
              q r.tracked.length vu.1))
  | .reserved, _ => .trap s 0x05 (addrWord a)
  | _, _ => .abort s 4

/-- A store of the open region, recorded and not performed (08 R187, R189). -/
def State.regionStore (s : State) (f : SM) (a : Nat) : Effect :=
  let n := szBytes f.sz
  match regionOf a, s.ctx.region with
  | .paged, some r =>
    s.pathC (fun remote => s.regionHome true remote a) (fun hs =>
      match hs.2.ctx.regionAt hs.1 with
      | none => .abort hs.2 4
      | some x =>
        let t := hs.2.modCtx (fun _ => x)
        if 16 ≤ r.stores.length then .abort t 5
        else
          let concreteBase := r.tag f.base == .concrete
          let own := r.tag f.ds
          let tag := if n == 8 && concreteBase then own else if own == .concrete && concreteBase then .concrete else .unknown
          let recipe := match tag with
            | .sym _ _ => true
            | _ => false
          let st : RStore := ⟨a, n, (s.rs f.ds).toNat % 2 ^ (8 * n), tag, recipe⟩
          .next (t.modCtx (fun y => { y with
            region := some { r with stores := r.stores ++ [st] }
            astate := { y.astate with
              nst := r.stores.length + 1
              fragile := y.astate.fragile || tag == .unknown } })))
  | .reserved, _ => .trap s 0x05 (addrWord a)
  | _, _ => .abort s 4

/-- ABEGIN (08 R182; 15 R329). -/
def execAbegin (f : BR) (s : State) : Out :=
  s.issue (.abegin f) f.ctl { handler := false, forbid := some 11 } (fun t =>
    if t.ctx.hopped.isSome && t.ctx.holdsLease then illegal t (.abegin f)
    else .next (t.modCtx (fun x => { x with
      astate := ⟨0, 0, 0, 0, false, 0, false, false, true⟩
      region := some ⟨branchTarget x.pc (sext64 f.off), x.s, x.fcsr, Vector.replicate 64 .concrete, [], [], [], false⟩ })))

/-- AABORT (15 R328). -/
def execAabort (f : SR) (s : State) : Out :=
  s.issue (.aabort f) f.ctl {} (fun t => if t.inRegion then .abort t 9 else .trap t 0x13 0)

/-! ### AEND (08 R190) -/

/-- Physical addresses of the words at their homes, the issuing die's copies written back and gone. -/
def State.gather (s : State) (write : Bool) : List Nat → Except Stop (List Nat × State)
  | [] => .ok ([], s)
  | a :: as =>
    match s.atHome s.runDie false write a with
    | .error e => .error e
    | .ok (pa, s1) =>
      match s1.gather write as with
      | .error e => .error e
      | .ok (pas, s2) => .ok (pa :: pas, s2)

/-- No location of the region has changed its home, and each whose page is present is homed on HOME (06 R139, R141). -/
def State.stillHome (s : State) (r : Region) (home : Nat) (as : List Nat) : Bool :=
  !r.moved && as.all (fun a =>
    match s.grainHome s.runDie a with
    | some p => p.1.val == home
    | none => true)

/-- A fresh value by tracking index. -/
def freshAt (fs : List Word) (i : Nat) : Word := fs[i]?.getD 0

/-- The constraint's outcome on the fresh values is the one observed (08 R190). -/
def Constraint.holds (c : Constraint) (ftz : Bool) (fs : List Word) : Bool :=
  let x := freshAt fs c.i + c.c
  if c.isGuard then (if bitAt x c.bit then (1 : Word) else 0) == c.observed
  else (if c.symFirst then (cmpWord c.ty ftz x c.k).1 else (cmpWord c.ty ftz c.k x).1) == c.observed

/-- The value that a recorded store writes at the commit (08 R190). -/
def RStore.value (r : RStore) (fs : List Word) : Nat :=
  match r.recipe, r.tag with
  | true, .sym i c => (freshAt fs i + c).toNat
  | _, _ => r.val

/-- Write the recorded stores at their homes, in program order. -/
def State.commitStores (s : State) (fs : List Word) : List (RStore × Nat) → State
  | [] => s
  | (r, pa) :: rest => (s.physWrite pa r.n (r.value fs)).commitStores fs rest

/-- A register after the commit: one tagged sym(i, c) is computed from the fresh value. -/
def Region.repaired (r : Region) (fs : List Word) (s : Vector Word 64) : Vector Word 64 :=
  Vector.ofFn (fun i => match r.tags[i] with
    | .sym k c => freshAt fs k + c
    | _ => s[i])

/-- What a region's commit sends to its home on another die counts: a read a header, a store a data flit too (01 R16, R18; log
17). -/
def State.chargeCommit (s : State) (flits : Nat) : State :=
  if s.ctx.astate.homev && s.ctx.astate.home != s.runDie.val then s.charge s.runDie s.ctx.domain flits else s

/-- The commit engine's steps after the addresses are gathered (08 R190, R193). -/
def State.commit (s : State) (r : Region) (lpas spas : List Nat) : Effect :=
  let fs := lpas.map (fun pa => BitVec.ofNat 64 (s.phys pa 8))
  let changed := fs != r.tracked.map (fun p => p.2)
  if changed && s.ctx.astate.fragile then .abort s 2
  else if changed && !(r.cons.all (fun c => c.holds s.ftz fs)) then .abort s 1
  else
    let t := (s.chargeCommit (2 * r.stores.length)).commitStores fs (r.stores.zip spas)
    let u := t.modCtx (fun x => { x with
      region := none
      s := r.repaired fs x.s
      pend := x.pend.filter (fun p => match r.tag p.reg with
        | .sym _ _ => false
        | _ => true)
      astate := { x.astate with repaired := changed, active := false } })
    let v := (u.acquireSteps u.runCore dieScope).releaseSteps u.runCore dieScope
    .next (r.stores.foldl (fun m st => m.mark m.runCore dieScope st.addr) v)

/-- AEND (08 R190; 15 R331). -/
def execAend (f : SR) (s : State) : Out :=
  s.issue (.aend f) f.ctl { tagging := .own } (fun t =>
    match t.ctx.region with
    | none => .trap t 0x13 0
    | some r =>
      let words := r.tracked.map (fun p => p.1)
      let targets := r.stores.map (fun st => st.addr)
      if !(t.stillHome r t.ctx.astate.home (words ++ targets)) then .abort t 4
      else orTrap t (t.gather false words) (fun lu =>
        orTrap t (lu.2.gather true targets) (fun su => (su.2.chargeCommit r.tracked.length).commit r lu.1 su.1)))

end Sys2Proof.Machine
end

