-- ==== Sys2Proof/Machine/ScalarMem.lean ====
section
/-! DEFINITION. Scalar memory: LD, ST, LDACQ, STREL, AMO, AMOCAS, CFLUSH and FENCE (15 R332 to R334, R347; 16
R364, R387, R388; 17 R424, R425). -/
namespace Sys2Proof.Machine
open Sys2Proof

/-- LD (16 R387). -/
def execLd (f : SM) (s : State) : Out :=
  s.issue (.ld f) f.ctl { srcs := [f.base], dst := some f.ds, tagging := .own } (fun t =>
    orTrap t (memAddr (t.rs f.base) f.off.toInt (szBytes f.sz)) (fun a =>
      if t.inRegion then t.regionLoad f a
      else t.pathC (fun remote => t.loadC .l1 remote a (szBytes f.sz)) (fun vu =>
        .next (vu.2.wi f.ds (szExtend f.sz vu.1)))))

/-! ### Commands under way -/

/-- Commands that the executing context has sent to agents of other packages and that are not answered, or without a
reply not acknowledged (08 R169; 14 R315): X the copy engines, G the others. -/
def State.remoteOut (s : State) (x g : Bool) : Bool :=
  s.txFrames.any (fun f =>
    match f.body with
    | .message dest _ p => p.core == s.cur.1 && p.ctx == s.cur.2 && bits dest 63 60 == 2 && (if bits dest 11 8 == 0 then x else g)
    | _ => false)

/-- Commands that the executing context has sent and that their agents have not finished, on the paths of a
FENCE's first set: X the copy engines, G the others (07 R142, R155). -/
def State.commandsOut (s : State) (x g : Bool) : Bool :=
  s.remoteOut x g || s.dies.toList.any (fun d => (List.range 8).any (fun i =>
    (if i < 4 then x else g) && (d.agents[(Fin.ofNat 8 i)]).queue.any (fun c =>
      c.sender.core == s.cur.1 && c.sender.ctx == s.cur.2 && !c.sender.remote)))

/-- A release at SYSTEM scope still waits for writes on other packages (07 R149 step 2). -/
def State.systemWait (s : State) (scope : Word) : Bool := scopeKind scope == 4 && s.remoteOut true true

/-- ST (17 R424). -/
def execSt (f : SM) (s : State) : Out :=
  s.issue (.st f) f.ctl { srcs := [f.base, f.ds], tagging := .own } (fun t =>
    orTrap t (memAddr (t.rs f.base) f.off.toInt (szBytes f.sz)) (fun a =>
      if t.inRegion then t.regionStore f a
      else t.pathC (fun remote => t.storeC remote a (szBytes f.sz) (t.rs f.ds).toNat) (fun u => .next u)))

/-- How an acquiring read at a scope is served (07 R150; 16 R388). -/
def acquireServe (scope : Word) (d : DieId) : Serve :=
  if scopeBeyond scope d then .home else if scopeKind scope == 0 then .l1 else .l2

/-- LDACQ (16 R388). -/
def execLdacq (f : SM) (s : State) : Out :=
  s.issue (.ldacq f) f.ctl { srcs := [f.base, f.sc], dst := some f.ds, forbid := some 10 } (fun t =>
    let scope := t.rs f.sc
    if !scopeOk scope then illegal t (.ldacq f)
    else orTrap t (memAddr (t.rs f.base) f.off.toInt (szBytes f.sz)) (fun a =>
      t.pathC (fun remote => t.loadC (acquireServe scope t.runDie) remote a (szBytes f.sz)) (fun vu =>
        .next ((vu.2.acquireSteps vu.2.runCore scope).wi f.ds (szExtend f.sz vu.1)))))

/-- The releasing store of `n` bytes: checks, release steps, then the write, at the home when the scope reaches
beyond the die (07 R149; 17 R425), and the release marker (07 R154). -/
def State.storeRelease (s : State) (scope : Word) (remote : Bool) (va n v : Nat) : Except Stop State :=
  match s.storeC remote va n v with
  | .error e => .error e
  | .ok _ =>
    let c := s.runCore
    match (s.releaseSteps c scope).storeC remote va n v with
    | .error e => .error e
    | .ok s1 =>
      match regionOf va with
      | .paged =>
        let s2 := if scopeBeyond scope (dieOf c) then
            match (s1.dieAt (dieOf c)).line va with
            | some ln => if ln.home then s1 else s1.writeBack (dieOf c) ln
            | none => s1
          else s1
        .ok (s2.mark c scope va)
      | _ => .ok s1

/-- STREL (17 R425). -/
def execStrel (f : SM) (s : State) : Out :=
  s.issue (.strel f) f.ctl { srcs := [f.base, f.ds, f.sc], forbid := some 10 } (fun t =>
    let scope := t.rs f.sc
    if !scopeOk scope then illegal t (.strel f)
    else orTrap t (memAddr (t.rs f.base) f.off.toInt (szBytes f.sz)) (fun a =>
      t.pathC (fun remote => t.storeRelease scope remote a (szBytes f.sz) (t.rs f.ds).toNat) (fun u =>
        if t.systemWait scope then .retry t (.accesses false false false true true) else .next u)))

/-! ### AMO and AMOCAS -/

/-- The new value of an atomic operation on `n` bytes (15 R332). Floating-point forms round to nearest even, keep
subnormals and raise no flag. -/
def amoValue (aop n old v : Nat) : Nat :=
  let w := 8 * n
  let fmt := if n == 4 then f32 else f64
  let less := fun sgn : Bool => decide (intVal sgn w old ≤ intVal sgn w v)
  if aop == 0 then v
  else if aop == 1 then (old + v) % 2 ^ w
  else if aop == 2 then old &&& v
  else if aop == 3 then old ||| v
  else if aop == 4 then old ^^^ v
  else if aop == 5 then (if less true then old else v)
  else if aop == 6 then (if less true then v else old)
  else if aop == 7 then (if less false then old else v)
  else if aop == 8 then (if less false then v else old)
  else if aop == 9 then (fmt.add 0 false old v).bits
  else if aop == 10 then (fmt.minMax false false old v).bits
  else (fmt.minMax true false old v).bits

/-- Where an atomic operation of the executing context finds its location: local memory or the home's physical
address (06 R117, R119; 15 R333). -/
inductive AtomicSite where
  | scratch (off : Nat)
  | home (pa : Nat)
  deriving DecidableEq, Repr

/-- Find the location, with the checks of rights and of the page. -/
def State.atomicSite (s : State) (remote : Bool) (va : Nat) : Except Stop (AtomicSite × State) :=
  match regionOf va with
  | .localWindow o => .ok (.scratch o, s)
  | .paged =>
    let chk := s.plbCheck s.runCore s.ctx.domain va (rightR + rightW + rightA)
    if !chk.1 then .error (s.denial s.runDie s.ctx.domain va)
    else match chk.2.atHome s.runDie remote true va with
      | .error e => .error e
      | .ok (pa, s1) => .ok (.home pa, s1)
  | _ => .error (protection va)

/-- The old value at the location. -/
def State.atomicRead (s : State) (site : AtomicSite) (n : Nat) : Nat :=
  match site with
  | .scratch o => s.localRead s.localCoreOf o n
  | .home pa => s.phys pa n

/-- Write the new value; a copy in the issuing core's L1 takes it too (06 R126; 07 R143). -/
def State.atomicWrite (s : State) (site : AtomicSite) (va n v : Nat) : State :=
  match site with
  | .scratch o => s.localWrite s.localCoreOf o n v
  | .home pa => (s.physWrite pa n v).modCore s.runCore (fun k => { k with l1 := l1Store k.l1 va n v })

/-- The access of an AMO or AMOCAS with its release, promotion and acquire (15 R333, R334). `new` gives the value
written for the old one, if any. For local memory no write-back reaches beyond the die. -/
def State.atomic (s : State) (ord : Nat) (prm : Bool) (scope : Word) (n : Nat) (new : Nat → Option Nat)
    (remote : Bool) (va : Nat) : Except Stop (Nat × State) :=
  match s.atomicSite remote va with
  | .error e => .error e
  | .ok _ =>
    let c := s.runCore
    let paged := regionOf va == .paged
    let far := paged && s.readsFar s.runDie true va n
    let s1 := if 2 ≤ ord && paged then s.releaseSteps c scope else s
    let s2 := if prm && paged then s1.promote c va else s1
    match s2.atomicSite remote va with
    | .error e => .error e
    | .ok (site, s3) =>
      let old := s3.atomicRead site n
      let s4 := match new old with
        | none => s3
        | some v =>
          let t := s3.atomicWrite site va n v
          if 2 ≤ ord && paged then t.mark c scope va else t
      let s5 := if far then s4.charge s.runDie s.ctx.domain 2 else s4
      .ok (old, if ord % 2 == 1 then s5.acquireSteps c scope else s5)

/-- The checks of 15 R333 in its order, then the access. -/
def State.amoEffect (s : State) (i : Instr) (dst base sc : BitVec 6) (ord : BitVec 2) (prm : Bool) (sz : BitVec 3)
    (new : Nat → Option Nat) : Effect :=
  let scope := s.rs sc
  if !scopeOk scope then illegal s i
  else if prm && (ord == 0 || ord == 2) then illegal s i
  else orTrap s (memAddr (s.rs base) 0 (szBytes sz)) (fun a =>
    s.pathC (fun remote => s.atomic ord.toNat prm scope (szBytes sz) new remote a) (fun vu =>
      if 2 ≤ ord.toNat && s.systemWait scope then .retry s (.accesses false false false true true) else .next (vu.2.wi dst (BitVec.ofNat 64 vu.1))))

/-- AMO (15 R332, R333). -/
def execAmo (f : SA) (s : State) : Out :=
  s.issue (.amo f) f.ctl { srcs := [f.base, f.val, f.sc], dst := some f.dst, forbid := some 10 } (fun t =>
    let n := szBytes f.sz
    t.amoEffect (.amo f) f.dst f.base f.sc f.ord f.prm f.sz (fun old =>
      some (amoValue f.aop.toNat n old ((t.rs f.val).toNat % 2 ^ (8 * n)))))

/-- AMOCAS: a failed comparison writes nothing; its release and acquire steps run (15 R334). -/
def execAmocas (f : SAC) (s : State) : Out :=
  s.issue (.amocas f) f.ctl { srcs := [f.base, f.exp, f.new, f.sc], dst := some f.dst, forbid := some 10 } (fun t =>
    let w := 8 * szBytes f.sz
    t.amoEffect (.amocas f) f.dst f.base f.sc f.ord f.prm f.sz (fun old =>
      if old == (t.rs f.exp).toNat % 2 ^ w then some ((t.rs f.new).toNat % 2 ^ w) else none))

/-! ### CFLUSH and FENCE -/

/-- CFLUSH: the grain's copy in L1 goes, then the die's non-home copy; nothing is translated (15 R347). -/
def execCflush (f : SM) (s : State) : Out :=
  s.issue (.cflush f) f.ctl { srcs := [f.base], forbid := some 10 } (fun t =>
    orTrap t (memAddr (t.rs f.base) f.off.toInt 1) (fun a =>
      match regionOf a with
      | .localWindow _ => .next t
      | .paged =>
        let c := t.runCore
        let chk := t.plbCheck c t.ctx.domain a rightR
        if !chk.1 then t.accessTrap (t.denial (dieOf c) t.ctx.domain a).cause.1 (addrWord a)
        else
          let u := chk.2.modCore c (fun k => { k with l1 := k.l1.filter (fun ln => !(ln.va ≤ a && a < ln.va + ln.size)) })
          .next (u.flushCopy (dieOf c) a)
      | _ => .trap t 0x05 (addrWord a)))

/-- The executing context's lease on its home die. -/
def State.lease (s : State) : Option Lease :=
  ((s.dieAt (dieOf s.cur.1)).firebox.leases).find? (fun l => l.core == s.cur.1 && l.ctx == s.cur.2)

/-- The lease has commands whose accesses are still to come: queued, and not held by a fault (07 R155; 16 R364). -/
def State.matrixOut (s : State) : Bool :=
  match s.lease with
  | some l => !l.queue.isEmpty && l.state != .held
  | none => false

/-- Accesses of the executing context on paths M, X and G are still to come, or writes on other packages that a release at
SYSTEM scope waits for (07 R149, R155). -/
def State.accessesOut (s : State) (m x g system : Bool) : Bool :=
  (m && s.matrixOut) || s.commandsOut x g || (system && s.remoteOut true true)

/-- FENCE (07 R155; 16 R364). -/
def execFence (f : FY) (s : State) : Out :=
  s.issue (.fence f) f.ctl { srcs := [f.sa], forbid := some 10 } (fun t =>
    let scope := t.rs f.sa
    let first := fun i => f.imm.getLsbD i
    if !scopeOk scope then illegal t (.fence f)
    else
      let u := if first 1 then t.drainVector else t
      if u.accessesOut (first 2) (first 3) (first 4) (scopeKind scope == 4) then
        .retry u (.accesses (first 2) (first 3) (first 4) (scopeKind scope == 4) false)
      else .next ((u.releaseSteps u.runCore scope).acquireSteps u.runCore scope))

end Sys2Proof.Machine
end

