-- ==== Sys2Proof/Machine/Rings.lean ====
section
/-! DEFINITION. Circular buffers: reserving, publishing, taking and freeing slots (06 R122 to R125; 15 R343 to
R346), and the fills of engines and agents. -/
namespace Sys2Proof.Machine
open Sys2Proof

/-- The local-window address of a slot (15 R343). -/
def Ring.slotAddr (r : Ring) (i : Nat) : Word := BitVec.ofNat 64 (Config.localBase + r.slotOff i)

/-- Reserve slot WRIDX (06 R122). -/
def Ring.reserve (r : Ring) (owner : Option CtxId) (sender : Option Sender) : Ring :=
  { r with
    wridx := (r.wridx + 1) % r.slots
    free := r.free - 1
    res := r.res ++ [⟨false, owner, sender⟩] }

/-- FILLED grows over the published slots that follow the last filled one (06 R122). -/
def Ring.settle (r : Ring) : Ring :=
  let run := r.res.takeWhile (fun q => q.published)
  { r with
    filled := r.filled + run.length
    res := r.res.drop run.length
    senders := r.senders ++ run.filterMap (fun q => q.sender) }

/-- Publish the `j`-th reserved slot. -/
def Ring.publish (r : Ring) (j : Nat) : Ring :=
  ({ r with res := r.res.modify j (fun q => { q with published := true }) }).settle

/-- Where a slot stands among the reserved ones, which follow the filled ones in order. -/
def Ring.place (r : Ring) (slot : Nat) : Nat := (slot + 2 * r.slots - (r.rdidx + r.filled) % r.slots) % r.slots

/-- Take slot RDIDX (06 R122). -/
def Ring.take (r : Ring) : Ring :=
  { r with
    rdidx := (r.rdidx + 1) % r.slots
    filled := r.filled - 1
    taken := r.taken + 1
    senders := r.senders.drop 1 }

/-- Return the oldest taken slot (06 R122). -/
def Ring.giveBack (r : Ring) : Ring := { r with taken := r.taken - 1, free := r.free + 1 }

/-- A ring of a core. -/
def State.ringAt (s : State) (c : CoreId) (n : Nat) : Ring := (s.coreAt c).rings[(Fin.ofNat 8 n)]

/-- Replace a ring of a core. -/
def State.putRing (s : State) (c : CoreId) (n : Nat) (r : Ring) : State := s.setRing c (Fin.ofNat 8 n) r

/-- A writer fills a whole slot with the low bytes of `v` and publishes it; `bytes` says how many are written
(06 R122, R124, R125). The ring must have a free slot. -/
def State.fillSlot (s : State) (c : CoreId) (n : Nat) (sender : Option Sender) (bytes v : Nat) : State :=
  let r := s.ringAt c n
  let s1 := s.localWrite c (r.slotOff r.wridx) bytes v
  let q := r.reserve none sender
  s1.putRing c n (q.publish (q.res.length - 1))

/-- CBFREE (15 R343). -/
def execCbfree (f : SI) (s : State) : Out :=
  s.issue (.cbfree f) f.ctl { forbid := some 10 } (fun t =>
    let n := f.imm.toNat % 8
    let r := t.ringAt t.runCore n
    if t.ctx.hopped.isSome || r.taken == 0 then illegal t (.cbfree f)
    else .next (t.putRing t.runCore n r.giveBack))

/-- The inbox message in the slot that CBGET takes is answered OK, if it asks for a reply (08 R173; log 46). -/
def State.answerTaken (s : State) (c : CoreId) (r : Ring) : State :=
  match r.senders with
  | [] => s
  | p :: _ =>
    let m := s.readMessage c (r.slotOff r.rdidx)
    if m.rr then s.reply (dieOf c) p m 0 0 else s

/-- CBGET (15 R344). Its acquire makes every clean copy stale (log 26). -/
def execCbget (f : SI) (s : State) : Out :=
  s.issue (.cbget f) f.ctl { dst := some f.dst, handler := false, forbid := some 10 } (fun t =>
    let n := f.imm.toNat % 8
    let r := t.ringAt t.runCore n
    if t.ctx.hopped.isSome then illegal t (.cbget f)
    else if r.filled == 0 then .wait t (.ringFilled n)
    else .next ((((t.answerTaken t.runCore r).putRing t.runCore n r.take).acquireSteps t.runCore packageScope).wi f.dst
      (r.slotAddr r.rdidx)))

/-- CBRES (15 R346). -/
def execCbres (f : SI) (s : State) : Out :=
  s.issue (.cbres f) f.ctl { dst := some f.dst, handler := false, forbid := some 10 } (fun t =>
    let n := f.imm.toNat % 8
    let r := t.ringAt t.runCore n
    if t.ctx.hopped.isSome || n < 4 then illegal t (.cbres f)
    else if r.free == 0 then .wait t (.ringFree n)
    else
      let u := (t.putRing t.runCore n (r.reserve (some t.cur.2) none)).modCtx (fun x =>
        { x with reserv := x.reserv ++ [(n, r.wridx)] })
      .next (u.wi f.dst (r.slotAddr r.wridx)))

/-- The filling form of CBPUT from the local window (15 R345). -/
def State.cbputFill (s : State) (f : SI) (n : Nat) : Effect :=
  let src := s.rs f.sa
  let r := s.ringAt s.runCore n
  if src.toNat % 8 != 0 then .trap s 0x04 src
  else if src.toNat < Config.localBase || Config.localBase + Config.localBytes < src.toNat + 2 ^ r.szlog then
    .trap s 0x05 src
  else if r.free == 0 then if s.inHandler then illegal s (.cbput f) else .wait s (.ringFree n)
  else
    let v := s.localRead s.runCore (src.toNat - Config.localBase) (2 ^ r.szlog)
    .next (s.fillSlot s.runCore n none (2 ^ r.szlog) v)

/-- The publishing form of CBPUT (15 R345; 06 R122). -/
def State.cbputPublish (s : State) (f : SI) (n : Nat) : Effect :=
  let r := s.ringAt s.runCore n
  match s.ctx.reserv.find? (fun p => p.1 == n) with
  | none => illegal s (.cbput f)
  | some p =>
    .next ((s.putRing s.runCore n (r.publish (r.place p.2))).modCtx (fun x => { x with reserv := x.reserv.erase p }))

/-- CBPUT (15 R345). -/
def execCbput (f : SI) (s : State) : Out :=
  s.issue (.cbput f) f.ctl { srcs := [f.sa], forbid := some 10 } (fun t =>
    let n := f.imm.toNat % 8
    if t.ctx.hopped.isSome || n < 4 then illegal t (.cbput f)
    else if f.sa = 0 then t.cbputPublish f n
    else t.cbputFill f n)

end Sys2Proof.Machine
end

