-- ==== Sys2Proof/Machine/Messages.lean ====
section
/-! DEFINITION. Messages: destinations and acceptance, inboxes, handler queues, the standard handlers, MSG, REPLY,
NOTIFY and HBIND (08 R167 to R181; 16 R367; 17 R402, R407). -/
namespace Sys2Proof.Machine
open Sys2Proof

/-! ### Sending -/

/-- The sender that a message of the executing context carries (08 R178). -/
def State.sender (s : State) : Sender :=
  ⟨s.bregs.pkgno, s.cur.1, s.cur.2, s.ctx.domain, (s.coreAt s.cur.1).placed.map (fun p => p.launch), false⟩

/-- The message's class (08 R167). -/
def msgClass (m : Message) : Nat := bits m.w0 55 52

/-- The least of the kinds CORE, DIE and PACKAGE that contains both cores (07 R152, R153). -/
def leastScope (a b : CoreId) : Word := if a == b then 0 else if dieOf a == dieOf b then dieScope else packageScope

/-- The fields of an inner destination of kind `k` (08 R169, R170). -/
def innerOk (k : Nat) (w : Nat) : Bool :=
  if k == 0 then w / 2 ^ 16 == 0 && w % 256 ≤ 31 && w / 256 % 256 ≤ 15
  else if k == 1 then w == 0
  else if k == 2 then
    w / 2 ^ 19 == 0 && w / 2 ^ 12 % 16 == 0 && w / 4 % 64 == 0 && w / 256 % 16 ≤ 4 && (w / 256 % 16 == 0 || w % 4 == 0)
  else false

/-- A destination that 08 R169 and R170 accept. -/
def destOk (d : Word) : Bool :=
  let k := bits d 63 60
  if k == 3 then bits d 55 51 == 0 && innerOk (bits d 59 56) (bits d 31 0)
  else innerOk k (bits d 59 0)

/-- The place among a die's eight command queues that a kind-2 destination names (08 R170). -/
def agentIndex (w : Nat) : Fin 8 := if w / 256 % 16 == 0 then Fin.ofNat 8 (w % 4) else Fin.ofNat 8 (w / 256 % 16 + 3)

/-- Deliver a message to a core inbox; none while no slot of its class can be reserved (08 R171; 06 R125). A reserved core and
one that holds no placed launch answer REJECTED (01 R15; 12 R280), whatever the command code: that this comes before the BADCMD of
a code other than 0x80 (04 R80) is the model's order (DESIGN CHOICE, log 62). -/
def State.toInbox (s : State) (p : Sender) (c : CoreId) (m : Message) : Option State :=
  let n := msgClass m
  if isReserved c || (s.coreAt c).placed.isNone then some (s.reply (dieOf c) p m 5 0)
  else if (s.ringAt c n).free == 0 then none
  else if m.cmd != 0x80 then some (s.reply (dieOf c) p m 2 0)
  else
    let v := [m.w0, m.w1, m.w2, m.w3, m.w4, m.w5, m.w6, m.w7].foldr (fun w acc => w.toNat + 2 ^ 64 * acc) 0
    some (s.fillSlot c n (some p) 64 v)

/-- The home core of a word-2 address, or the cause for which the reply is FAULT (08 R175). Where the page is not present
and the domain lacks right R besides, both of R175's causes apply: the right is tested first, 0x05 (DESIGN CHOICE, log 53). -/
def State.homeCore (s : State) (d : DieId) (domain : BitVec 16) (va : Nat) : Except (BitVec 8) CoreId :=
  match regionOf va with
  | .paged =>
    if !s.tableCheck d domain va rightR then .error (s.denial d domain va).cause.1
    else match s.translate d va with
      | none => .error (s.notPresent d va).cause.1
      | some (l, _) =>
        match s.homeOf (l.pa va) with
        | some h => .ok (localCore h (sliceOf va % 8) (sliceOf va / 8))
        | none => .error 0x05
  | _ => .error 0x05

/-- The handler number of a kind-1 message (08 R176). -/
def handlerNumber (m : Message) : Nat := m.cmd - 0x40

/-- The messages that a die holds for a number (08 R176). -/
def Die.heldFor (d : Die) (n : Nat) : Nat := d.held.countP (fun h => handlerNumber h.msg == n)

/-- Deliver a kind-1 message from die `d`; none while the home core's queue is full (08 R171, R175, R176). -/
def State.toHandler (s : State) (d : DieId) (p : Sender) (m : Message) : Option State :=
  let va := pointerAddr m.w2
  match (if pointerOk m.w2 then s.homeCore d p.domain va else .error 0x05) with
  | .error cause => some (s.reply d p m 4 (faultValue cause (addrWord va)))
  | .ok c =>
    let h := dieOf c
    if 32 ≤ (s.coreAt c).hqueue.length then none
    else if m.cmd < 0x40 || 0x7F < m.cmd then some (s.reply h p m 2 0)
    else
      let n := handlerNumber m
      match (s.dieAt h).bindings[(Fin.ofNat 64 n)] with
      | none =>
        if (s.dieAt h).heldFor n < 64 then
          some (s.modDie h (fun x => { x with held := x.held ++ [⟨m, p, c⟩] }))
        else some (s.reply h p m 1 (BitVec.ofNat 64 n))
      | some _ => some (s.modCore c (fun k => { k with hqueue := k.hqueue ++ [⟨m, p, c⟩] }))

/-- Deliver a message to an agent of die `v`; none while its queue is full (08 R171). The command's reads see what the
message's release covers: clean copies at the die are discarded (07 R153, R159). -/
def State.toAgent (s : State) (v : DieId) (n : Fin 8) (p : Sender) (m : Message) : Option State :=
  let a := (s.dieAt v).agents[n]
  if 16 ≤ a.queue.length then none
  else
    let s1 := (s.modDie v Die.discardClean).modAgent v n (fun b => { b with queue := b.queue ++ [⟨m, p, v, n, s.regionsOf v p.domain⟩] })
    some (if a.queue.isEmpty then s1.schedule (.agent v n) else s1)

/-- Deliver a message to a destination within this package. -/
def State.deliverTo (s : State) (d : DieId) (p : Sender) (kind w : Nat) (m : Message) : Option State :=
  if kind == 0 then s.toInbox p (coreOf (w % 256) (w / 256 % 256)) m
  else if kind == 1 then s.toHandler d p m
  else s.toAgent (Fin.ofNat 8 (w / 2 ^ 16 % 8)) (agentIndex w) p m

/-- The word of an inner destination: its kind in bits 63:60. -/
def innerWord (dest : Word) : Word := BitVec.ofNat 64 (bits dest 59 56 * 2 ^ 60 + bits dest 31 0)

/-- An earlier message of a sender context to the same destination in another package that its transport still carries; all
handler messages to a package count as one destination, since only that package knows their home cores (08 R172). -/
def State.carriesEarlier (s : State) (p : Sender) (dest : Word) : Bool :=
  s.txFrames.any (fun f =>
    match f.body with
    | .message inner _ q => f.dst == bits dest 50 32 && !f.acked && q.core == p.core && q.ctx == p.ctx &&
        (inner == innerWord dest || (bits inner 63 60 == 1 && bits dest 59 56 == 1))
    | _ => false)

/-- Send a message of the executing context; none until the destination accepts it (08 R169, R171). The transport takes a
message with ORD = 1 only when every earlier one to its destination has arrived (08 R172). -/
def State.send (s : State) (p : Sender) (dest : Word) (m : Message) : Option State :=
  let k := bits dest 63 60
  if k != 3 then s.deliverTo s.runDie p k (bits dest 59 0) m
  else if bits dest 50 32 == s.bregs.pkgno then s.deliverTo s.runDie p (bits dest 59 56) (bits dest 31 0) m
  else if bitAt m.w0 50 && s.carriesEarlier p dest then none
  else some (s.sendFrame p.core (bits dest 50 32) (msgClass m) (.message (innerWord dest) m p))

/-- The scope of kind SYSTEM. -/
def systemScope : Word := 0x0400000000000000

/-- The release that delivery of the message is (07 R153). -/
def State.sendScope (s : State) (dest : Word) (m : Message) : Word :=
  let k := bits dest 63 60
  let inner := if k == 3 then bits dest 59 56 else k
  let w := bits dest 31 0
  if k == 3 && bits dest 50 32 != s.bregs.pkgno then systemScope
  else if inner == 0 then leastScope s.runCore (coreOf (w % 256) (w / 256 % 256))
  else if inner == 1 then
    match s.homeCore s.runDie s.ctx.domain (pointerAddr m.w2) with
    | .ok c => leastScope s.runCore c
    | .error _ => packageScope
  else if w / 2 ^ 16 % 8 == s.runDie.val then dieScope else packageScope

/-- Check 6 of MSG: the reply address may be written by the sender (08 R168). -/
def State.replyAddrOk (s : State) (a : Word) : Bool :=
  pointerOk a && (match regionOf (pointerAddr a) with
    | .paged => s.tableCheck s.runDie s.ctx.domain (pointerAddr a) rightW
    | .localWindow _ => true
    | .localAlias _ _ => true
    | _ => false)

/-- A message beyond the sender's die: a header and a data flit (01 R16, R18; log 17). -/
def State.chargeSend (s : State) (scope : Word) : State :=
  if scopeBeyond scope s.runDie then s.charge s.runDie s.ctx.domain 2 else s

/-- The send of a message as the release that its delivery is (07 R149, R153): none until the writes on other packages that
the release waits for are acknowledged and the destination accepts it. -/
def State.sendReleased (s : State) (dest : Word) (m : Message) : Option State :=
  let scope := s.sendScope dest m
  if s.systemWait scope then none
  else ((s.releaseSteps s.runCore scope).send s.sender dest m).map (fun t => t.chargeSend scope)

/-- The send of a copied message: it completes, or the context waits with the copy (17 R402). -/
def State.sendOrWait (s : State) (dest : Word) (m : Message) : Effect :=
  match s.sendReleased dest m with
  | some v => .next (v.modCtx (fun x => { x with outMsg := none }))
  | none => .wait (s.modCtx (fun x => { x with outMsg := some (dest, m) })) .accept

/-- The checks of MSG in the order of 08 R168, then the send. -/
def State.msgEffect (s : State) (i : Instr) (dest at_ : Word) : Effect :=
  let o := at_.toNat - Config.localBase
  if at_.toNat < Config.localBase || Config.localBase + 0x5FFC0 < at_.toNat then .trap s 0x05 at_
  else if at_.toNat % 64 != 0 then .trap s 0x04 at_
  else
    let m := s.readMessage s.localCoreOf o
    if !destOk dest || 4 ≤ msgClass m || bits m.w0 49 32 != 0 then illegal s i
    else if m.rr != (m.w1 != 0) then illegal s i
    else if m.w1.toNat % 16 != 0 then .trap s 0x04 m.w1
    else if m.rr && !s.replyAddrOk m.w1 then .trap s 0x05 m.w1
    else s.sendOrWait dest m

/-- MSG (08 R168; 17 R402). -/
def execMsg (f : SR) (s : State) : Out :=
  s.issue (.msg f) f.ctl { srcs := [f.sa, f.sb], handler := false, forbid := some 10 } (fun t =>
    match t.ctx.outMsg with
    | some (dest, m) => t.sendOrWait dest m
    | none => t.msgEffect (.msg f) (t.rs f.sa) (t.rs f.sb))

/-- A destination has room for the message of a waiting MSG: it is delivered and the MSG completes (08 R171). -/
def execMessageAccept (core : CoreId) (ctx : CtxId) (s : State) : Out :=
  let t := { s with cur := (core, ctx) }
  .next (match t.ctx.status, t.ctx.outMsg with
    | .waiting .accept, some (dest, m) =>
      match t.sendReleased dest m with
      | some v => v.modCtx (fun x => { x with
          status := .live, outMsg := none, pc := x.pc + 8, waitFrom := max t.cycle x.nextIssue })
      | none => s
    | _, _ => s)

/-- A message reaches a core's inbox; while its class has no free slot it waits (06 R125; 08 R171). -/
def execInboxMessage (d : Delivery) (s : State) : Out :=
  .next (match s.toInbox d.sender d.core d.msg with
    | some t => t
    | none => s.deferTurn (.event (.inboxMessage d)))

/-- A kind-1 message finds its home core (08 R175); while the core's queue is full it waits. The sender's die
translates; a message of another package is translated on this package's die 0 (log 18). -/
def execHandlerMessage (m : Message) (sender : Sender) (s : State) : Out :=
  .next (match s.toHandler (if sender.remote then 0 else dieOf sender.core) sender m with
    | some t => t
    | none => s.deferTurn (.event (.handlerMessage m sender)))

/-! ### Replies and notifications by programs -/

/-- REPLY (08 R179). -/
def execReply (f : SR) (s : State) : Out :=
  s.issue (.reply f) f.ctl { srcs := [f.sa, f.sb], forbid := some 10 } (fun t =>
    let st := t.rs f.sa
    match (t.coreAt t.cur.1).inv with
    | some v =>
      if !t.inHandler || v.replied || 5 < st.toNat then illegal t (.reply f)
      else
        let u := t.reply t.runDie v.sender v.msg st.toNat (t.rs f.sb)
        .next (u.modCore u.cur.1 (fun k => { k with inv := k.inv.map (fun w => { w with replied := true }) }))
    | none => illegal t (.reply f))

/-- The images of saved groups of a domain that hold a core's contexts (13 R305). -/
def State.savedImages (s : State) (c : CoreId) (domain : BitVec 16) : List Nat :=
  (s.launches.filter (fun l => l.record.domain == domain)).flatMap (fun l => l.groups.flatMap (fun g =>
    match g.state with
    | .saved images => (images.filter (fun p => p.1 == c)).map (fun p => p.2)
    | .restoring images => (images.filter (fun p => p.1 == c)).map (fun p => p.2)
    | _ => []))

/-- Set the event bit in the saved image of a context whose domain matches (13 R306; 17 R407): bit 3 of the
image's word at 0x010. -/
def State.eventInImage (s : State) (c : CoreId) (x : CtxId) (domain : BitVec 16) : State :=
  (s.savedImages c domain).foldl (fun t img =>
    let off := t.phys (img + 0x10 + 8 * x.val) 8
    if x.val == 11 || t.phys img 8 / 2 ^ x.val % 2 == 0 || off == 0 then t
    else
      let w := t.phys (img + off + 0x10) 8
      t.physWrite (img + off + 0x10) 8 (w / 16 * 16 + w % 8 + 8)) s

/-- Give an event to a context of the issuer's domain: the active one of the slot, else those saved from it, whatever context
of another domain has the slot now (17 R407). -/
def State.postEvent (s : State) (c : CoreId) (x : CtxId) : State :=
  let y := s.ctxAt c x
  if isReserved c && s.ctx.mode != .firmware then s
  else if y.active && y.domain == s.ctx.domain then s.modCtxAt c x (fun z => { z with event := true })
  else s.eventInImage c x s.ctx.domain

/-- The least scope that contains the issuer and the target of a NOTIFY, the cores to which a target has hopped or is on its way
among its places (07 R152; 17 R407). -/
def State.notifyScope (s : State) (c : CoreId) (x : CtxId) : Word :=
  let y := s.ctxAt c x
  (y.hopped.toList ++ y.travel.toList).foldl (fun w h =>
    let far := leastScope s.runCore h
    if scopeKind w < scopeKind far then far else w) (leastScope s.runCore c)

/-- NOTIFY (17 R407). -/
def execNotify (f : SR) (s : State) : Out :=
  s.issue (.notify f) f.ctl { srcs := [f.sa, f.sb], forbid := some 10 } (fun t =>
    let a := (t.rs f.sa).toNat
    let n := (t.rs f.sb).toNat
    if 2 ^ 16 ≤ a || 31 < a % 256 || 15 < a / 256 || 11 < n then illegal t (.notify f)
    else
      let c := coreOf (a % 256) (a / 256)
      let scope := t.notifyScope c (Fin.ofNat 12 n)
      let u := (t.releaseSteps t.runCore scope).postEvent c (Fin.ofNat 12 n)
      .next (if scopeBeyond scope t.runDie then u.charge t.runDie t.ctx.domain 1 else u))

/-! ### Handlers -/

/-- Held messages whose number is bound enter handler queues in arrival order, where there is room (08 R176). -/
def State.releaseHeld (s : State) (d : DieId) : State :=
  (s.dieAt d).held.foldl (fun t h =>
    match (t.dieAt d).bindings[(Fin.ofNat 64 (handlerNumber h.msg))] with
    | some _ =>
      if (t.coreAt h.core).hqueue.length < 32 then
        (t.modCore h.core (fun k => { k with hqueue := k.hqueue ++ [h] })).modDie d (fun x =>
          { x with held := x.held.erase h })
      else t
    | none => t) s

/-- A running invocation of a handler number on a die (08 R177). -/
def State.numberRuns (s : State) (d : DieId) (n : Nat) : Bool :=
  (List.range 64).any (fun i =>
    match (s.coreAt (localCore d (i % 8) (i / 8))).inv with
    | some v => v.number == n
    | none => false)

/-- Invalidate the instruction L1 of every core of a die (06 R127). -/
def State.dropCode (s : State) (d : DieId) : State :=
  (List.range 64).foldl (fun t i => t.modCore (localCore d (i % 8) (i / 8)) (fun k => { k with icache := [] })) s

/-- HBIND (08 R177; 16 R367). -/
def execHbind (f : SR) (s : State) : Out :=
  s.issue (.hbind f) f.ctl { srcs := [f.sa, f.sb], priv := .supervisor, forbid := some 10 } (fun t =>
    let w := t.rs f.sa
    let entry := t.rs f.sb
    let n := bits w 5 0
    let d := t.runDie
    if n < 8 && t.ctx.mode != .firmware then .trap t 0x02 (encode (.hbind f))
    else if bits w 15 6 != 0 || bits w 63 32 != 0 || entry.toNat % 8 != 0 then illegal t (.hbind f)
    else if t.numberRuns d n then .retry t (.handler n)
    else
      let b : Option Binding := if entry = 0 then none else some ⟨entry, w.extractLsb' 16 16, none⟩
      .next (((t.dropCode d).modDie d (fun x => { x with bindings := x.bindings.set (Fin.ofNat 64 n) b })).releaseHeld d))

/-! ### Standard handlers (08 R181) -/

/-- How one step of a standard handler ends. -/
inductive StdResult where
  | done (s : State) (value : Word)
  | trapped (s : State) (cause : BitVec 8) (addr : Nat)
  | misaligned (addr : Nat)
  | badCommand

/-- The bytes of an element of a vector handler, and its operation. -/
def stdElem (n : Nat) : Nat × (Nat → Nat → Nat) :=
  if n == 0 then (4, fun t v => (f32.add 0 false t v).bits)
  else if n == 2 then (4, fun t v => (f32.minMax true false t v).bits)
  else if n == 3 then (4, fun t v => (f32.minMax false false t v).bits)
  else if n == 4 then (8, fun t v => (f64.add 0 false t v).bits)
  else if n == 5 then (4, fun t v => (t + v) % 2 ^ 32)
  else (2, fun t v => (bf16.add 0 false t v).bits)

/-- A load and then a store of `n` bytes at a target, as the executing handler context makes them on path V. -/
def State.stdUpdate (s : State) (va n : Nat) (op : Nat → Nat) : Except Stop (Nat × State) :=
  match s.load .l1 false va n with
  | .error e => .error e
  | .ok (old, s1) =>
    match s1.store false va n (op old) with
    | .error e => .error e
    | .ok s2 => .ok (old, s2)

/-- `left` further elements of a vector handler. -/
def State.stdLoop (s : State) (size : Nat) (op : Nat → Nat → Nat) : Nat → Nat → Nat → StdResult
  | 0, _, _ => .done s 0
  | left + 1, t, src =>
    match (if regionOf src == .paged then s.load .l1 false src size else .error (protection src)) with
    | .error (.trap c v) => .trapped s c v.toNat
    | .error (.remote _ va) => .trapped s 0x05 va
    | .ok (x, s1) =>
      match s1.stdUpdate t size (fun old => op old x) with
      | .error (.trap c v) => .trapped s1 c v.toNat
      | .error (.remote _ va) => .trapped s1 0x05 va
      | .ok (_, s2) => State.stdLoop s2 size op left (t + size) (src + size)

/-- A single-word handler. -/
def State.stdWord (s : State) (size : Nat) (va : Nat) (op : Nat → Nat) : StdResult :=
  match s.stdUpdate va size op with
  | .ok (old, s1) => .done s1 (BitVec.ofNat 64 old)
  | .error (.trap c v) => .trapped s c v.toNat
  | .error (.remote _ a) => .trapped s 0x05 a

/-- Standard handler `n` on a message, run by the executing handler context. -/
def State.stdHandler (s : State) (n : Nat) (m : Message) : StdResult :=
  let t := pointerAddr m.w2
  if n == 1 || n == 6 then
    let size := if n == 1 then 8 else 4
    if m.w4 != 0 || m.w5 != 0 || m.w6 != 0 || m.w7 != 0 then .badCommand
    else if t % size != 0 then .misaligned t
    else s.stdWord size t (fun old =>
      if n == 1 then (old + m.w3.toNat) % 2 ^ 64 else (f32.add 0 false old (m.w3.toNat % 2 ^ 32)).bits)
  else
    let e := stdElem n
    let src := pointerAddr m.w3
    if m.w5 != 0 || m.w6 != 0 || m.w7 != 0 || m.w4 = 0 || 16384 < m.w4.toNat then .badCommand
    else if t % e.1 != 0 then .misaligned t
    else if !pointerOk m.w3 then .trapped s 0x05 src
    else if src % e.1 != 0 then .misaligned src
    else s.stdLoop e.1 e.2 m.w4.toNat t src

/-- A standard handler runs to its end and writes its reply (08 R181; log 14). Its start synchronises with the message
(07 R153); an uncorrectable error is reported (06 R130). -/
def State.runStd (s : State) (c : CoreId) (d : Delivery) (n : Nat) : State :=
  let t := (({ s with cur := (c, handlerCtx) }).startAt c handlerCtx
    (Ctx.start 0 0 0 0 d.sender.domain 0 0)).acquireSteps c packageScope
  let u := match t.stdHandler n d.msg with
    | .done r v => r.reply (dieOf c) d.sender d.msg 0 v
    | .trapped q k a =>
      let r := if k = 0x08 then q.noteBad (dieOf c) d.sender.domain a else q
      (r.reply (dieOf c) d.sender d.msg 4 (faultValue k (addrWord a))).report (.handlerTrap c.val k 0 n)
    | .misaligned a => t.reply (dieOf c) d.sender d.msg 4 (faultValue 0x04 (addrWord a))
    | .badCommand => t.reply (dieOf c) d.sender d.msg 2 0
  u.endInvocation c

/-- The oldest message of the lowest class among `n` and below (08 R176). -/
def lowestClass (q : List Delivery) : Option Delivery :=
  match q.find? (fun d => msgClass d.msg == 0) with
  | some d => some d
  | none =>
    match q.find? (fun d => msgClass d.msg == 1) with
    | some d => some d
    | none =>
      match q.find? (fun d => msgClass d.msg == 2) with
      | some d => some d
      | none => q.head?

/-- s12 of an invocation (08 R178). -/
def senderWord (p : Sender) : Word :=
  BitVec.ofNat 64 (bit01 p.remote * 2 ^ 63 + p.pkg % 2 ^ 19 * 2 ^ 32 + p.ctx.val * 2 ^ 24 +
    (dieOf p.core).val * 2 ^ 16 + coreY p.core * 2 ^ 8 + coreX p.core)

/-- The start of an invocation (08 R178; 02 R25). -/
def handlerStart (b : Binding) (svec : Word) (d : Delivery) : Ctx :=
  let x := Ctx.start b.entry 0 d.msg.w0 svec (if b.domain = 0xFFFF then d.sender.domain else b.domain) 0 0
  { x with
    s := (((((((((x.s.set 5 d.msg.w1).set 6 d.msg.w2).set 7 d.msg.w3).set 8 d.msg.w4).set 9 d.msg.w5).set 10 d.msg.w6).set
      11 d.msg.w7).set 12 (senderWord d.sender)).set 13 (d.sender.domain.setWidth 64)) }

/-- The handler context takes the oldest message of the lowest class and starts its invocation, which synchronises with
the message's delivery (07 R153; 08 R176, R178);
without a binding the message is answered NOHANDLER (16 R367). -/
def execHandlerInvocation (core : CoreId) (s : State) : Out :=
  let k := s.coreAt core
  .next (match k.inv, lowestClass k.hqueue with
    | none, some d =>
      let v := dieOf core
      let n := handlerNumber d.msg
      let t := s.modCore core (fun x => { x with hqueue := x.hqueue.erase d })
      let u := match (s.dieAt v).bindings[(Fin.ofNat 64 n)] with
        | none => t.reply v d.sender d.msg 1 (BitVec.ofNat 64 n)
        | some b =>
          match b.std with
          | some i => t.runStd core d i
          | none =>
            ((t.modCore core (fun x => { x with inv := some ⟨d.msg, d.sender, n, 0, false⟩ })).startAt core handlerCtx
              (handlerStart b (s.dieAt v).fw.svec d)).acquireSteps core packageScope
      u.releaseHeld v
    | _, _ => s)

end Sys2Proof.Machine
end

