-- ==== Sys2Proof/Machine/Levels.lean ====
section
/-! DEFINITION. Levels, groups and where their instances lie: LVLID, LVLSCOPE and the members of an instance (02 R19
to R22; 12 R268). Level kinds are numbered as 02 R20 has them: 0 LANE, 1 HELPER, 2 CORE, 3 RECT, 4 DIE, 5 PACKAGE,
6 SYSTEM. -/
namespace Sys2Proof.Machine
open Sys2Proof

/-- A rectangle of cores: corner and size. -/
structure Rect where
  x : Nat
  y : Nat
  w : Nat
  h : Nat
  deriving DecidableEq, Repr

/-- The rectangle of a group. -/
def Group.rect (g : Group) : Rect := ⟨g.x0, g.y0, g.w, g.h⟩

/-- The cores of a rectangle, row-major. -/
def Rect.cores (r : Rect) : List CoreId :=
  (List.range' r.y r.h).flatMap (fun y => (List.range' r.x r.w).map (fun x => coreOf x y))

/-- The scope of a rectangle (07 R147). -/
def Rect.scope (r : Rect) : Word :=
  BitVec.ofNat 64 (2 ^ 56 + (r.y + r.h - 1) * 2 ^ 24 + (r.x + r.w - 1) * 2 ^ 16 + r.y * 2 ^ 8 + r.x)

/-- The natural scope of a level (02 R20). -/
def naturalScope (kind : Nat) (r : Rect) : Word :=
  if kind ≤ 2 then 0 else if kind == 3 then r.scope else BitVec.ofNat 64 ((kind - 2) * 2 ^ 56)

/-- The nested instance that covers a core inside a parent rectangle: its number and its rectangle (02 R20). -/
def nestedRect (l : Level) (p : Rect) (c : CoreId) : Option (Nat × Rect) :=
  let per := p.w / l.w
  let jx := (coreX c - p.x) / l.w
  let j := (coreY c - p.y) / l.h * per + jx
  if jx < per && j < l.count then some (j, ⟨p.x + l.w * jx, p.y + l.h * (j / per), l.w, l.h⟩) else none

/-- LVLID of a control context at a HELPER level (02 R21). -/
def noHelper : Nat := 2 ^ 64 - 1

/-- LVLID and LVLSCOPE of the control context of core `c` at each level: `outer` holds the LVLIDs of the levels
outside the group and of the group itself, `r` the rectangle around the core, `prev` the scope of the level above.
None where a nested RECT does not cover the core (02 R20, R21). -/
def levelWalk (c : CoreId) : List Level → List Nat → Rect → Word → Option (List (Nat × Word))
  | [], _, _, _ => some []
  | l :: ls, id :: outer, r, prev =>
    let sc := if l.parentScope then prev else naturalScope l.kind r
    (levelWalk c ls outer r sc).map (fun t => (id, sc) :: t)
  | l :: ls, [], r, prev =>
    if l.kind == 3 then
      match nestedRect l r c with
      | none => none
      | some (j, q) =>
        let sc := if l.parentScope then prev else q.scope
        (levelWalk c ls [] q sc).map (fun t => (j, sc) :: t)
    else
      let sc := if l.parentScope then prev else naturalScope l.kind r
      let id := if l.kind == 2 then (coreY c - r.y) * r.w + (coreX c - r.x) else if l.kind == 1 then noHelper else 0
      (levelWalk c ls [] r sc).map (fun t => (id, sc) :: t)

/-- The walk for a core of a group. -/
def Group.walk (g : Group) (levels : List Level) (c : CoreId) : Option (List (Nat × Word)) :=
  levelWalk c levels g.outer g.rect 0

/-- What holds a core of a group of a launch. -/
def Launch.placement (l : Launch) (gi : Nat) (g : Group) (c : CoreId) : Placement :=
  let w := g.walk l.record.levels c
  { launch := l.arrival, group := gi, helpers := l.record.helpers, localBytes := l.record.localBytes
    domain := l.record.domain, levels := l.record.levels, path := (w.getD []).map (fun p => p.1), covered := w.isSome }

/-- A launch by its arrival. -/
def State.launchAt (s : State) (arrival : Nat) : Option Launch := s.launches.find? (fun l => l.arrival == arrival)

/-- Change a group of a launch. -/
def State.modGroup (s : State) (arrival gi : Nat) (f : Group → Group) : State :=
  s.modLaunch arrival (fun l => { l with groups := l.groups.modify gi f })

/-- The groups of a launch with their numbers. -/
def Launch.numbered (l : Launch) : List (Nat × Group) := (List.range l.groups.length).zip l.groups

/-- The group has had a place. -/
def Group.hasPlace (g : Group) : Bool := g.state != .unplaced

/-- The cores of a launch's groups that have had a place. -/
def Launch.cores (l : Launch) : List CoreId := l.groups.flatMap (fun g => if g.hasPlace then g.rect.cores else [])

/-- The placements on a die of a launch's groups, completed ones among them. -/
def Launch.placementsOn (l : Launch) (d : DieId) : List Placement :=
  l.numbered.flatMap (fun p =>
    if p.2.hasPlace then (p.2.rect.cores.filter (fun c => dieOf c == d)).map (fun c => l.placement p.1 p.2 c) else [])

end Sys2Proof.Machine
end

