-- ==== Sys2Proof/Machine/Barriers.lean ====
section
/-! DEFINITION. Barriers: which instance a number names, arrival, the dies' reports and the flip of the phase (02
R22; 07 R157, R158; 15 R336, R337), and SETVLC (02 R35; 17 R422). -/
namespace Sys2Proof.Machine
open Sys2Proof

/-- The instances of the HELPER level, if there is one (02 R20). -/
def helperCount (levels : List Level) : Option Nat := (levels.find? (fun l => l.kind == 1)).map (fun l => l.count)

/-- The level whose instances hold barrier `n`, counting NBAR outward in (02 R22). -/
def barrierLevel : List Level → Nat → Option Nat
  | [], _ => none
  | l :: ls, n => if n < l.nbar then some 0 else (barrierLevel ls (n - l.nbar)).map (· + 1)

/-- The instance of level `i` that contains context `x` of a core: the path of LVLIDs down to it. The control
context lies in no HELPER instance (02 R22). -/
def Placement.instanceOf (p : Placement) (x : CtxId) (i : Nat) : Option (List Nat) :=
  match p.levels[i]? with
  | none => none
  | some l =>
    if l.kind == 1 then
      if 1 ≤ x.val && x.val ≤ l.count then some (p.path.take i ++ [x.val - 1]) else none
    else some (p.path.take (i + 1))

/-- Context `x` is a context of the innermost level that is not LANE (02 R22). -/
def Placement.isMember (p : Placement) (x : CtxId) : Bool :=
  match helperCount p.levels with
  | some n => 1 ≤ x.val && x.val ≤ n
  | none => x.val == 0

/-- The members of an instance on one core. -/
def Placement.membersIn (p : Placement) (launch : Nat) (path : List Nat) : Nat :=
  let helpers := (helperCount p.levels).getD 1
  let isHelper := (p.levels[path.length - 1]?).any (fun l => l.kind == 1)
  if p.launch != launch || !p.covered then 0
  else if isHelper then (if p.path.take (path.length - 1) == path.dropLast then 1 else 0)
  else if p.path.take path.length == path then helpers
  else 0

/-- The members of an instance on a die, those of completed groups among them (02 R22). -/
def State.membersOn (s : State) (d : DieId) (launch : Nat) (path : List Nat) : Nat :=
  match s.launchAt launch with
  | some l => (l.placementsOn d).foldl (fun n p => n + p.membersIn launch path) 0
  | none => 0

/-- The dies on which an instance has members, in increasing number: the first is the master (02 R22). -/
def State.spannedDies (s : State) (launch : Nat) (path : List Nat) : List DieId :=
  ((List.range 8).map (Fin.ofNat 8)).filter (fun d => 0 < s.membersOn d launch path)

/-- A die's object for barrier `n` of an instance; one not in use yet counts nothing in phase 0. -/
def Die.barrier (d : Die) (launch : Nat) (path : List Nat) (n : Nat) : BarObj :=
  (d.bars.find? (fun b => b.launch == launch && b.path == path && b.n == n)).getD ⟨launch, path, n, 0, false, false, false, []⟩

/-- Put an object in place of the one it names. -/
def Die.putBarrier (d : Die) (b : BarObj) : Die :=
  { d with bars := b :: d.bars.filter (fun o => !(o.launch == b.launch && o.path == b.path && o.n == b.n)) }

/-- Flip the phase of barrier `n` on the dies of an instance (07 R158). -/
def State.flipBarrier (s : State) (dies : List DieId) (launch : Nat) (path : List Nat) (n : Nat) : State :=
  dies.foldl (fun t d => t.modDie d (fun x =>
    let b := x.barrier launch path n
    x.putBarrier { b with phase := !b.phase, wide := false, reported := [] })) s

/-- Count an arrival on die `d`, whose scope reaches beyond the die if `wide`; the last one of the die flips the phase or
reports to the master (07 R158). -/
def State.countArrival (s : State) (d : DieId) (launch : Nat) (path : List Nat) (n : Nat) (wide : Bool) : State :=
  let o := (s.dieAt d).barrier launch path n
  let b := { o with wide := o.wide || wide }
  if b.count + 1 < s.membersOn d launch path then
    s.modDie d (fun x => x.putBarrier { b with count := b.count + 1 })
  else
    let single := s.spannedDies launch path == [d]
    let s1 := s.modDie d (fun x => x.putBarrier { b with count := 0, full := !single })
    if single then s1.flipBarrier [d] launch path n else s1.schedule (.event (.barrierDieReport d 0))

/-- A die reports an object to the master, which flips the phase on every die of the instance once all have
reported: a release at the widest scope of the arrivals (07 R158). -/
def State.reportBarrier (s : State) (d : DieId) (b : BarObj) : State :=
  let dies := s.spannedDies b.launch b.path
  let master := dies.headD d
  let s0 := s.modDie d (fun x => x.putBarrier { b with full := false })
  let m := (s0.dieAt master).barrier b.launch b.path b.n
  let reported := if m.reported.contains d then m.reported else m.reported ++ [d]
  let wide := m.wide || b.wide
  let s1 := s0.modDie master (fun x => x.putBarrier { m with wide := wide, reported := reported })
  if dies.all (fun e => reported.contains e) then
    (if wide then dies.foldl (fun t e => t.writeBackAll e) s1 else s1).flipBarrier dies b.launch b.path b.n
  else s1

/-- The object whose report is due: the one at place `obj`, else the first one. -/
def Die.dueBarrier (d : Die) (obj : Nat) : Option BarObj :=
  match d.bars[obj]? with
  | some b => if b.full then some b else d.bars.find? (fun o => o.full)
  | none => d.bars.find? (fun o => o.full)

/-- The report of a die whose members have all arrived (07 R158). -/
def execBarrierDieReport (die : DieId) (obj : Nat) (s : State) : Out :=
  .next (match (s.dieAt die).dueBarrier obj with
    | some b => s.reportBarrier die b
    | none => s)

/-- Barrier `n` as the executing context sees it: its launch and instance; none where `n` is allocated to no instance
that contains the context (07 R157). -/
def State.barrierOf (s : State) (n : Nat) : Option (Placement × List Nat) :=
  match (s.coreAt s.cur.1).placed with
  | none => none
  | some p =>
    match barrierLevel p.levels n with
    | none => none
    | some i => (p.instanceOf s.cur.2 i).map (fun path => (p, path))

/-- The barrier-misuse trap: N and the reason (07 R157). -/
def misuse (s : State) (reason n : Nat) : Effect := .trap s 0x14 (BitVec.ofNat 64 (reason * 256 + n))

/-- BARA (07 R157; 15 R336). -/
def execBara (f : SI) (s : State) : Out :=
  s.issue (.bara f) f.ctl { srcs := [f.sa], handler := false, forbid := some 10 } (fun t =>
    let scope := t.rs f.sa
    let n := f.imm.toNat % 64
    let d := dieOf t.cur.1
    if !scopeOk scope then illegal t (.bara f)
    else match t.barrierOf n with
      | none => misuse t 0 n
      | some (p, path) =>
        if !p.isMember t.cur.2 then misuse t 1 n
        else if t.ctx.arrived.getLsbD n then misuse t 2 n
        else if t.systemWait scope then .retry t (.accesses false false false true false)
        else
          let u := t.drainVector.releaseSteps t.runCore scope
          let phase := ((u.dieAt d).barrier p.launch path n).phase
          let bit : BitVec 64 := 1 <<< n
          let v := u.modCtx (fun x => { x with
            arrived := x.arrived ||| bit
            myph := if phase then x.myph ||| bit else x.myph &&& ~~~bit })
          .next (v.countArrival d p.launch path n (scopeBeyond scope t.runDie)))

/-- BARW (07 R157; 15 R337). -/
def execBarw (f : SI) (s : State) : Out :=
  s.issue (.barw f) f.ctl { srcs := [f.sa], handler := false, forbid := some 10 } (fun t =>
    let scope := t.rs f.sa
    let n := f.imm.toNat % 64
    if !scopeOk scope then illegal t (.barw f)
    else match t.barrierOf n with
      | none => misuse t 0 n
      | some (p, path) =>
        if !t.ctx.arrived.getLsbD n then misuse t 3 n
        else if ((t.dieAt (dieOf t.cur.1)).barrier p.launch path n).phase == t.ctx.myph.getLsbD n then .wait t (.barrier n)
        else .next ((t.modCtx (fun x => { x with arrived := x.arrived &&& ~~~((1 : BitVec 64) <<< n) })).acquireSteps
          t.runCore scope))

/-! ### SETVLC -/

/-- The scope that FN names in SETVLC (02 R35). -/
def chainScope (fn : BitVec 8) : Word := BitVec.ofNat 64 (fn.toNat % 8 * 2 ^ 56)

/-- The grant of SETVLC from the counts that are left and available (02 R35). -/
def chainGrant (x : Ctx) (ty : BitVec 5) (avl : Nat) (avail : Int) : Nat :=
  min (min avl (x.vlmax / WellFormed.width ty.toNat)) avail.toNat

/-- SETVLC (02 R35; 17 R422). -/
def execSetvlc (f : SQ) (s : State) : Out :=
  s.issue (.setvlc f) f.ctl { srcs := [f.sa, f.sb, f.sc], dst := some f.dst, handler := false, forbid := some 3 } (fun t =>
    let avl := (t.rs f.sa).toNat
    let grant := fun (u : State) (avail : Int) =>
      let v := u.drainVector
      let n := chainGrant v.ctx f.ty avl avail
      Effect.next ((v.grantVl n).wi f.dst (BitVec.ofNat 64 n))
    if avl == 0 then grant t 0
    else orTrap t (memAddr (t.rs f.sb) 0 8) (fun a =>
      let scope := chainScope f.fn
      t.pathC (fun remote => t.load (acquireServe scope t.runDie) remote a 8) (fun vu =>
        let u := vu.2.acquireSteps vu.2.runCore scope
        let avail := (BitVec.ofNat 64 vu.1 - t.rs f.sc).toInt
        if avail ≤ 0 then .wait u (.highWater a scope (t.rs f.sc)) else grant u avail)))

end Sys2Proof.Machine
end

