-- ==== Sys2Proof/Machine/Contexts.lean ====
section
/-! DEFINITION. Helpers, the end of a context, and hopping: HSTART, HJOIN, HKILL, HOP and their events
(02 R24 to R29; 13 R301, R302; 16 R368 to R372). -/
namespace Sys2Proof.Machine
open Sys2Proof

/-- The executing context is the control context and runs at home (02 R26; 13 R302). -/
def State.isControl (s : State) : Bool := s.cur.2.val == 0 && s.ctx.hopped.isNone

/-- The record's HELPERS on the executing context's core; 0 on a core that no launch holds. -/
def State.helperQuota (s : State) : Nat :=
  match (s.coreAt s.cur.1).placed with
  | some p => p.helpers
  | none => 0

/-- The lowest helper number whose context is free (02 R26). -/
def State.freeHelper (s : State) : Option CtxId :=
  ((List.range s.helperQuota).map (fun i => (Fin.ofNat 12 (i + 1) : CtxId))).find? (fun h => s.isFree s.cur.1 h)

/-- The place of the HELPER level, if the launch has one. -/
def helperLevel (levels : List Level) : Option Nat := levels.findIdx? (fun l => l.kind == 1)

/-- LVLID of a helper: the control context's but for its own index at the HELPER level (02 R21). -/
def helperLvlid (levels : List Level) (h : CtxId) (ids : Vector Word 8) : Vector Word 8 :=
  match helperLevel levels with
  | some i => ids.setIfInBounds i (BitVec.ofNat 64 (h.val - 1))
  | none => ids

/-- The start state of a helper (02 R25, R26). -/
def State.helperStart (s : State) (h : CtxId) (entry s2 s4 : Word) : Ctx :=
  let x := s.ctx
  let levels := match (s.coreAt s.cur.1).placed with
    | some p => p.levels
    | none => []
  { Ctx.start entry s2 s4 (s.dieAt (dieOf s.cur.1)).fw.svec x.domain x.prio x.launchId with
    lvlid := helperLvlid levels h x.lvlid
    lvlscope := x.lvlscope }

/-- HSTART (02 R26; 16 R372). FN bit 0 is .try. -/
def execHstart (f : SQ) (s : State) : Out :=
  s.issue (.hstart f) f.ctl { srcs := [f.sa, f.sb, f.sc], dst := some f.dst, handler := false, forbid := some 10 } (fun t =>
    if !t.isControl then illegal t (.hstart f)
    else if (t.rs f.sa).toNat % 8 != 0 then .trap t 0x04 (t.rs f.sa)
    else match t.freeHelper with
      | some h =>
        .next ((t.startAt t.cur.1 h (t.helperStart h (t.rs f.sa) (t.rs f.sc) (t.rs f.sb))).wi f.dst (BitVec.ofNat 64 h.val))
      | none => if f.fn.getLsbD 0 then .next (t.wi f.dst 0) else .wait t .helperFree)

/-- The acquire of a return from HJOIN: at PACKAGE scope when a helper of those named ended while hopped, else at CORE
scope (16 R369). -/
def State.joinAcquire (s : State) (hs : List CtxId) : State :=
  s.acquireSteps s.runCore (if hs.any (fun h => (s.ctxAt s.cur.1 h).hopped.isSome) then packageScope else 0)

/-- The ten helper numbers. -/
def helperNumbers : List CtxId := (List.range 10).map (fun i => Fin.ofNat 12 (i + 1))

/-- The helper that HJOIN or HKILL names (02 R26). -/
def helperNumber (w : Word) : Option CtxId := if 1 ≤ w.toNat && w.toNat ≤ 10 then some (Fin.ofNat 12 w.toNat) else none

/-- HJOIN (16 R369). -/
def execHjoin (f : SR) (s : State) : Out :=
  s.issue (.hjoin f) f.ctl { srcs := [f.sa], handler := false, forbid := some 10 } (fun t =>
    if !t.isControl then illegal t (.hjoin f)
    else if f.sa = 0 then
      if (t.coreAt t.cur.1).helperActive then .wait t .helpersEnded else .next (t.joinAcquire helperNumbers)
    else match helperNumber (t.rs f.sa) with
      | none => illegal t (.hjoin f)
      | some h => if (t.ctxAt t.cur.1 h).active then .wait t (.helperEnded h.val) else .next (t.joinAcquire [h]))

/-- HKILL: the helper ends now, or at the end of a bounded wait (02 R26, R39; 16 R370). -/
def execHkill (f : SR) (s : State) : Out :=
  s.issue (.hkill f) f.ctl { srcs := [f.sa], handler := false, forbid := some 10 } (fun t =>
    if !t.isControl then illegal t (.hkill f)
    else match helperNumber (t.rs f.sa) with
      | none => illegal t (.hkill f)
      | some h =>
        let x := t.ctxAt t.cur.1 h
        if !x.active then .next t
        else if x.midWait.isSome then .next (t.modCtxAt t.cur.1 h (fun y => { y with killed := true }))
        else .next (t.endContext t.cur.1 h))

/-- HEND of the handler context: the invocation ends with its pending reply (08 R178). -/
def State.endHandler (s : State) : State :=
  match (s.coreAt s.cur.1).inv with
  | some v => (if v.replied then s else s.reply s.runDie v.sender v.msg 0 0).endInvocation s.cur.1
  | none => s.endInvocation s.cur.1

/-! ### Hops (13 R301, R302) -/

/-- HOP (13 R301; 16 R371). -/
def execHop (f : SR) (s : State) : Out :=
  s.issue (.hop f) f.ctl { srcs := [f.sa], forbid := some 10 } (fun t =>
    let n := (t.rs f.sa).toNat
    if 8 < n then illegal t (.hop f)
    else
      let target := if n == 8 then some t.cur.1 else t.hopCore (Fin.ofNat 8 n)
      let stay := Effect.next (t.drainVector.releaseSteps t.runCore packageScope)
      match target with
      | none => stay
      | some c =>
        if c != t.runCore && t.hopAllowed c && 257 ≤ t.ctx.sinceHop then .hop (t.depart c (t.ctx.pc + 8)) else stay)

/-- The vector state after a hop: zero, untagged, VL, VSTART, KDEPTH and VDIRTY 0 (13 R301). -/
def Ctx.clearVector (x : Ctx) : Ctx :=
  { x with
    v := Vector.replicate 48 0
    vtag := Vector.replicate 48 0xF8
    k := Vector.replicate 12 0
    kstack := []
    vl := 0
    vstart := 0
    vdirty := false }

/-- The scalar state of a hopping context arrives: it resumes there with an acquire at PACKAGE scope (13 R301). -/
def execHopArrival (core : CoreId) (ctx : CtxId) (s : State) : Out :=
  .next (match (s.ctxAt core ctx).travel with
    | none => s
    | some c =>
      (s.modCtxAt core ctx (fun x => { x.clearVector with
        hopped := if c == core then none else some c
        travel := none
        sinceHop := 0
        waitFrom := max s.cycle x.nextIssue })).acquireSteps c packageScope)

end Sys2Proof.Machine
end

