-- ==== Sys2Proof/Machine/System.lean ====
section
/-! DEFINITION. PLBINV, PINV, HANDOFF and PMIG (06 R118, R139 to R141; 13 R297; 16 R366; 17 R411 to R414). -/
namespace Sys2Proof.Machine
open Sys2Proof

/-- PLBINV (17 R412). -/
def execPlbinv (f : SR) (s : State) : Out :=
  s.issue (.plbinv f) f.ctl { srcs := [f.sa], priv := .supervisor, forbid := some 10 } (fun t =>
    let drop := fun (keep : PlbEntry → Bool) =>
      Effect.next (t.modCore t.runCore (fun k => { k with plb := k.plb.filter keep }))
    if f.sa = 0 then drop (fun _ => false)
    else
      let w := t.rs f.sa
      if 2 ^ 16 ≤ w.toNat then illegal t (.plbinv f) else drop (fun e => e.domain != w.setWidth 16))

/-- The eight dies. -/
def allDies : List DieId := (List.range 8).map (Fin.ofNat 8)

/-- Every earlier access of the context is performed at its home: vector stores, and the die's dirty copies (13 R297;
16 R366). -/
def State.performAll (s : State) : State := let t := s.drainVector; t.writeBackAll t.runDie

/-- An earlier command of the context, on path M, X or G, is still to make its accesses. -/
def State.commandsPending (s : State) : Bool := s.accessesOut true true true false

/-- Write back and drop the non-home copies, and drop the home lines, of the grains that `hit` names, on every die. -/
def State.dropGrains (s : State) (hit : L2Line → Bool) : State :=
  allDies.foldl (fun t d =>
    let u := ((t.dieAt d).l2.filter (fun ln => hit ln && !ln.home)).foldl (fun v ln => v.writeBack d ln) (t.drainFlue d)
    u.modDie d (fun x => { x with l2 := x.l2.filter (fun ln => !hit ln) })) s

/-- Remove the cached leaves that `hit` names on every die; when asked, a page's home writes HOT and QUEUED back (06 R131). -/
def State.dropLeaves (s : State) (hit : Leaf → Bool) (writeHot : Bool) : State :=
  (allDies.foldl (fun t d =>
    let gone := (t.dieAt d).tlb.filter (fun e => hit e.leaf)
    let u := if writeHot then gone.foldl (fun v e => v.giveUpLeaf d e.leaf) t else t
    u.modDie d (fun x => { x with tlb := x.tlb.filter (fun e => !hit e.leaf) })) s).forgetRewritten

/-- Invalidate the data and instruction L1 copies of a range of addresses on every core (13 R297). -/
def State.dropL1Range (s : State) (lo hi : Nat) : State :=
  { s with cores := vmap s.cores (fun k =>
    let keep := fun (ln : L1Line) => !(decide (lo < ln.va + ln.size) && decide (ln.va < hi))
    { k with l1 := k.l1.filter keep, icache := k.icache.filter keep }) }

/-- The leaf of a host write that is not refused (14 R311; 06 R134). -/
def State.hostLeaf (s : State) (va : Nat) : Option Leaf :=
  match regionOf va with
  | .paged =>
    if s.bregs.apen && s.tableCheck 0 s.bregs.apdom va rightW then
      match s.homeTranslate va with
      | some (l, _) => if l.codec == 0 then some l else none
      | none => none
    else none
  | _ => none

/-- PINV of a range is complete: host writes that wait for a page of it that now has OWNER = 1 may go on (14 R314). -/
def State.grantHeld (s : State) (lo hi : Nat) : State :=
  if s.heldWrites.isEmpty then s
  else
    let ready := fun (h : HeldWrite) =>
      let va := s.bregs.apbase + h.off
      h.ready || (h.noted && decide (lo ≤ va) && decide (va < hi) && (s.hostLeaf va).any (fun l => l.owner))
    let held := s.heldWrites.map (fun h => { h with ready := ready h })
    ({ s with heldWrites := held }).schedule (.event (.heldHostWriteRelease 0 true))

/-- The invalidation of a range of addresses by PINV (13 R297). -/
def State.invalidate (s : State) (lo hi : Nat) : State :=
  let t := (s.dropGrains (fun ln => lo ≤ ln.va && ln.va < hi)).dropL1Range lo hi
  (t.dropLeaves (fun l => decide (lo < l.vbase + l.size) && decide (l.vbase < hi)) true).grantHeld lo hi

/-- PINV (13 R297; 17 R411). -/
def execPinv (f : SR) (s : State) : Out :=
  s.issue (.pinv f) f.ctl { srcs := [f.sa, f.sb], priv := .supervisor, forbid := some 10 } (fun t =>
    let p := (t.rs f.sa).toNat
    let n := (t.rs f.sb).toNat
    if 2 ^ 36 ≤ p || (n != 0 && 2 ^ 36 < p + n) then illegal t (.pinv f)
    else if t.commandsPending then .retry t (.accesses true true true false true)
    else if n == 0 then .next (t.performAll.invalidate 0 (2 ^ 52))
    else .next (t.performAll.invalidate (p * 65536) ((p + n) * 65536)))

/-! ### HANDOFF -/

/-- A physical address lies in stack Hi under the map in force (01 R10; 06 R114). -/
def State.inStack (s : State) (i : Nat) (pa : Nat) : Bool :=
  pa < 0x8000000000 && gapOf s.bregs.vdmap (pa / 2 ^ 36) == i

/-- A marker's grain lies in stack Hi, by the page table. -/
def State.markerIn (s : State) (i : Nat) (m : Marker) : Bool :=
  match s.walk m.grain 4 (s.dieAt m.die).fw.ptbase with
  | some l => s.inStack i (l.pa m.grain)
  | none => false

/-- The open regions that track or store to a location of a page that `hit` names are marked: its home changes (06 R139,
R141). -/
def State.moveRegions (s : State) (hit : Leaf → Bool) : State :=
  let tracks := fun (r : Region) => (r.tracked.map (fun q => q.1) ++ r.stores.map (fun q => q.addr)).any (fun a =>
    match s.walk a 4 (s.dieAt 0).fw.ptbase with
    | some l => hit l
    | none => false)
  { s with cores := vmap s.cores (fun k => { k with ctxs := vmap k.ctxs (fun x =>
      { x with region := x.region.map (fun r => { r with moved := r.moved || tracks r }) }) }) }

/-- Steps 1 to 7 of 06 R139: writes in flight and copies reach the home, leaves go, and the stack passes to its other
wired die, which takes over the release markers (07 R164). -/
def State.handOver (s : State) (i : Nat) : State :=
  let s1 := allDies.foldl (fun t d => t.drainFlue d) s
  let s2 := s1.dropGrains (fun ln => s1.inStack i ln.pa)
  let s3 := s2.dropLeaves (fun l => s2.inStack i l.frame) true
  let old := s3.owners[(Fin.ofNat 8 i)]
  let new : DieId := if old.val == i then Fin.ofNat 8 (i + 1) else Fin.ofNat 8 i
  let moved := (s3.dieAt old).markers.filter (s3.markerIn i)
  let s4 := s3.modDie old (fun x => { x with markers := x.markers.filter (fun m => !moved.contains m) })
  let s5 := s4.modDie new (fun x => { x with markers := moved ++ x.markers })
  ({ s5 with owners := s5.owners.set (Fin.ofNat 8 i) new }).moveRegions (fun l => s5.inStack i l.frame)

/-- HANDOFF (16 R366). -/
def execHandoff (f : SR) (s : State) : Out :=
  s.issue (.handoff f) f.ctl { srcs := [f.sa], priv := .firmware, forbid := some 10 } (fun t =>
    let i := (t.rs f.sa).toNat
    if 7 < i || (t.runDie.val != i && t.runDie.val != (i + 1) % 8) then illegal t (.handoff f)
    else if t.commandsPending then .retry t (.accesses true true true false true)
    else .next (t.performAll.handOver i))

/-! ### PMIG -/

/-- `n` bytes from `a` lie wholly in one memory unit (06 R114). -/
def inOneUnit (a n : Nat) : Bool :=
  (tierOf a).isSome && tierOf a == tierOf (a + n - 1) && unitCode a == unitCode (a + n - 1)

/-- The cells of a range moved to another base. -/
def movedCells (m : List Host.Cell) (src dst n : Nat) : List Host.Cell :=
  (m.filter (fun c => src ≤ c.1 && c.1 < src + n)).map (fun c => (c.1 - src + dst, c.2))

/-- Copy `n` bytes of physical memory. -/
def State.copyFrame (s : State) (src dst n : Nat) : State :=
  let kept := s.mem.filter (fun c => !(dst ≤ c.1 && c.1 < dst + n))
  { s with mem := (movedCells s.mem src dst n).foldl (fun t c => writeByte t c.1 c.2) kept }

/-- The new words of a migrated page's entry: FRAME and TIER are the target's, HOT, QUEUED and MIG are 0 (17 R414). -/
def migratedEntry (w0 dst : Nat) : Nat :=
  w0 / 2 ^ 52 * 2 ^ 52 + dst % 2 ^ 52 / 2 ^ 16 * 2 ^ 16 + w0 % 2 ^ 16 / 2 ^ 11 * 2 ^ 11 + w0 / 256 % 2 * 256

/-- Release markers of a page's grains take effect at the old home before the copy (07 R164). -/
def State.settleMarkers (s : State) (h : DieId) (lo hi : Nat) : State :=
  let mine := (s.dieAt h).markers.filter (fun m => lo ≤ m.grain && m.grain < hi)
  (mine.foldl (fun t m => t.writeBackAll m.die) s).modDie h (fun x =>
    { x with markers := x.markers.filter (fun m => !(lo ≤ m.grain && m.grain < hi)) })

/-- Steps 1 to 6 of 06 R140 for a leaf, whose page may change its home (06 R141); none when an uncorrectable grain keeps the page where it is (13 R308), with the
virtual address of that grain. -/
def State.migrate (s : State) (l : Leaf) (dst : Nat) : Except Nat State :=
  let s1 := match s.homeOf l.frame with
    | some h => s.settleMarkers h l.vbase (l.vbase + l.size)
    | none => s
  let s2 := s1.dropGrains (fun ln => l.covers ln.va)
  match s2.bad.find? (fun b => l.frame ≤ b && b < l.frame + l.size) with
  | some b => .error (l.vbase + (b - l.frame) / l.grain * l.grain)
  | none =>
    let s3 := (if s2.homeOf l.frame == s2.homeOf dst then s2 else s2.moveRegions (fun o => o.pte == l.pte)).correctRuns [(l.frame, l.size)]
    let s3 := s3.copyFrame l.frame dst l.size
    let w0 := migratedEntry (s3.phys l.pte 8) dst
    let s4 := (s3.physWrite l.pte 8 w0).physWrite (l.pte + 8) 8 ((tierOf dst).getD 0)
    .ok (s4.dropLeaves (fun o => o.pte == l.pte) false)

/-- PMIG (06 R140, R141; 17 R414). -/
def execPmig (f : SR) (s : State) : Out :=
  s.issue (.pmig f) f.ctl { srcs := [f.sa, f.sb], priv := .supervisor, forbid := some 10 } (fun t =>
    let va := (t.rs f.sa).toNat
    let dst := (t.rs f.sb).toNat
    if 2 ^ 52 ≤ va then illegal t (.pmig f)
    else match t.walk va 4 (t.dieAt t.runDie).fw.ptbase with
      | none => t.accessTrap (t.notPresent t.runDie va).cause.1 (t.rs f.sa)
      | some l =>
        if dst % l.size != 0 then .trap t 0x04 (t.rs f.sb)
        else if !inOneUnit dst l.size || 2 ^ 52 ≤ dst then illegal t (.pmig f)
        else match t.migrate l dst with
          | .ok u => .next u
          | .error a => t.accessTrap 0x08 (addrWord a))

end Sys2Proof.Machine
end

