-- ==== Sys2Proof/Machine/Vector.lean ====
section
/-! DEFINITION. Vector arithmetic (04; 18 R430 to R452; 05 R93 to R97, R108, R109): one walk over the element
classes of 03 R57, and one element operation per instruction. An instruction takes its effect when it issues
into the vector queue (log 2). -/
namespace Sys2Proof.Machine
open Sys2Proof

/-! ### Types and tags -/

/-- The tags of typed sources, the first in the low byte (03 R43). -/
def Ctx.tagBytes (x : Ctx) : List (BitVec 6) → Nat
  | [] => 0
  | r :: rs => (x.vtagOf r).toNat + 256 * x.tagBytes rs

/-- bq8, bq4 and s8 (05 R98). -/
def isBlocky (t : Nat) : Bool := t == 16 || t == 17 || t == 18

/-- A tag of a block-scaled type with another block length than this part's (05 R100). -/
def wrongBlock (tag : BitVec 8) : Bool := isBlocky (tag.toNat / 8) && tag.toNat % 8 != Config.blockCode

/-- The type and block-length code that TYPE and the typed sources give, or TRAPVAL of a format mismatch
(03 R43; 05 R100; 18 R430). -/
def Ctx.elemType (x : Ctx) (ok : Nat → Bool) (ty : BitVec 5) (typed : List (BitVec 6)) : Except Word (Nat × Nat) :=
  let bad : Except Word (Nat × Nat) := .error (BitVec.ofNat 64 (x.tagBytes typed))
  let t := ty.toNat
  if t == 31 then
    match typed with
    | [] => bad
    | r :: rs =>
      let g := x.vtagOf r
      if g.toNat / 8 == 31 || rs.any (fun q => x.vtagOf q != g) || !ok (g.toNat / 8) || wrongBlock g then bad
      else .ok (g.toNat / 8, g.toNat % 8)
  else if isBlocky t && typed.any (fun q => wrongBlock (x.vtagOf q)) then bad
  else .ok (t, if isBlocky t then Config.blockCode else 0)

/-- A format tag (03 R43). -/
def tagByte (t l : Nat) : BitVec 8 := BitVec.ofNat 8 (t * 8 + l)

/-- The tag of a type whose block length nothing gives (18 R430). -/
def plainTag (t : Nat) : BitVec 8 := tagByte t (if isBlocky t then Config.blockCode else 0)

/-- An instruction with typed sources: its type goes to the body, or it meets a format mismatch (03 R43). -/
def State.vectorTyped (s : State) (i : Instr) (ctl : VCtl) (ty : BitVec 5) (scalars : List (BitVec 6)) (ok : Nat → Bool)
    (typed : List (BitVec 6)) (body : State → Nat → Nat → Effect) : Out :=
  s.issueVector i ctl scalars (fun t =>
    match t.ctx.elemType ok ty typed with
    | .error v => .trap t 0x03 v
    | .ok r => body t r.1 r.2)

/-- VL elements of width `w` fit (02 R32). -/
def Ctx.fits (x : Ctx) (w : Nat) : Bool := x.vl * w ≤ x.vlmax

/-- An instruction with typed sources that R32 checks at its type's width, before a format mismatch where TYPE alone gives
that width (03 R60 step 5; log 20). -/
def State.vectorOp (s : State) (i : Instr) (ctl : VCtl) (scalars : List (BitVec 6)) (ok : Nat → Bool)
    (typed : List (BitVec 6)) (body : State → Nat → Nat → Effect) : Out :=
  s.issueVector i ctl scalars (fun t =>
    if ctl.ty != 31 && !t.ctx.fits (WellFormed.width ctl.ty.toNat) then illegal t i
    else match t.ctx.elemType ok ctl.ty typed with
    | .error v => .trap t 0x03 v
    | .ok (ty, l) => if t.ctx.fits (WellFormed.width ty) then body t ty l else illegal t i)

/-- The rounding mode of an instruction that rounds when `rounds` holds (18 R430). -/
def State.vrounded (s : State) (i : Instr) (rounds : Bool) (rm : BitVec 3) (k : Nat → Effect) : Effect :=
  if rounds then s.rounded i rm.toNat k else k 0

/-! ### The vector queue (03 R65, R66) -/

/-- The key of a mask register among the vector unit's registers. -/
def maskKey (k : BitVec 4) : Nat := 64 + k.toNat

/-- The mask that KSEL names, if it names one (03 R57). -/
def maskReads (ctl : VCtl) : List Nat := if ctl.ksel = 15 then [] else [maskKey ctl.ksel]

/-- The old destination counts as a read (03 R65). -/
def Ctx.readsOld (x : Ctx) (ctl : VCtl) (w : Nat) : Bool :=
  (ctl.ksel != 15 && !ctl.kp) || (!ctl.tp && x.vl * w % 512 != 0)

/-- The walk slots of an instruction with `n` register reads, three a slot (03 R65). -/
def walkSlots (n : Nat) : Nat := max 1 (min 4 ((n + 2) / 3))

/-- Enter the vector queue with a vector destination; `acc` marks one that is also a source. -/
def State.queueVector (s : State) (ctl : VCtl) (w : Nat) (srcs : List (BitVec 6)) (vd : BitVec 6) (acc : Bool)
    (latency : Option Nat) : State :=
  let old := acc || s.ctx.readsOld ctl w
  let n := srcs.length + (if old then 1 else 0)
  s.enqueueVector (walkSlots n) latency
    (srcs.map (·.toNat) ++ maskReads ctl ++ (if old then [vd.toNat] else [])) [vd.toNat]

/-- Enter the vector queue with a mask destination. -/
def State.queueMask (s : State) (ctl : VCtl) (w : Nat) (srcs : List (BitVec 6)) (kd : BitVec 4) (latency : Option Nat) : State :=
  s.enqueueVector 1 latency
    (srcs.map (·.toNat) ++ maskReads ctl ++ (if s.ctx.readsOld ctl w then [maskKey kd] else [])) [maskKey kd]

/-- Base latency 2 for integers and 5 for floating-point elements (03 R66). -/
def addLatency (t : Nat) : Option Nat := some (if t ≤ 7 then 2 else 5)

/-- Base latency of a product (03 R66). -/
def mulLatency (t : Nat) : Option Nat := some (if t ≤ 7 then 4 else 5)

/-! ### The walk over the elements (03 R57) -/

/-- The mask bit of an element; KSEL 15 selects every one. -/
def Ctx.selects (x : Ctx) (ctl : VCtl) (e : Nat) : Bool := ctl.ksel == 15 || (x.mask ctl.ksel).getLsbD e

/-- An agnostic element of width `w`: its old value or all ones (log 7). -/
def agnostic (ctr w e old : Nat) : Nat := if Config.freeBit (ctr + e) then 2 ^ w - 1 else old

/-- What element `e` receives: the body is `lo` to `hi - 1`. -/
def placeElem (ctl : VCtl) (ctr w lo hi old : Nat) (act : Nat → Bool) (res : Nat → FRes) (e : Nat) : FRes :=
  let o := elem old w e
  if e < lo then ⟨o, 0⟩
  else if e < hi then
    if act e then res e else ⟨if ctl.kp then agnostic ctr w e o else o, 0⟩
  else ⟨if ctl.tp then agnostic ctr w e o else o, 0⟩

/-- `n` elements from element `e` packed, with the flags of all of them. -/
def packElements (w : Nat) (f : Nat → FRes) : Nat → Nat → FRes
  | 0, _ => ⟨0, 0⟩
  | n + 1, e =>
    let x := f e
    let r := packElements w f n (e + 1)
    ⟨x.bits % 2 ^ w + r.bits <<< w, x.flags ||| r.flags⟩

/-- The first `n` elements of width `w` replaced, and what is above them kept. -/
def replaceLow (old w n new : Nat) : Nat := ((old >>> (w * n)) <<< (w * n)) + new

/-- Write the body `lo` to `hi - 1` of a vector register of `n` elements, with its tag; flags go to FCSR and
VSTART becomes 0. -/
def State.writeElems (s : State) (ctl : VCtl) (vd : BitVec 6) (tag : BitVec 8) (w lo hi n : Nat) (act : Nat → Bool)
    (res : Nat → FRes) : State :=
  let old := (s.ctx.vreg vd).toNat
  let r := packElements w (placeElem ctl s.freeCtr w lo hi old act res) n 0
  (({ s with freeCtr := s.freeCtr + n }).modCtx (fun x =>
    { x.setVreg vd (BitVec.ofNat 4096 (replaceLow old w n r.bits)) tag with vstart := 0 })).orFlags (BitVec.ofNat 5 r.flags)

/-- Write the tag alone: an instruction whose VSTART is at or above VL (03 R57; 18 R430). -/
def State.writeTag (s : State) (vd : BitVec 6) (tag : BitVec 8) : State :=
  s.modCtx (fun x => { x.setVreg vd (x.vreg vd) tag with vstart := 0 })

/-- Write the active body elements, VSTART to VL - 1, of results of width `w`; `wide` is the width that the
element count takes. -/
def State.writeBody (s : State) (ctl : VCtl) (vd : BitVec 6) (tag : BitVec 8) (w wide : Nat) (act : Nat → Bool)
    (res : Nat → FRes) : State :=
  let x := s.ctx
  if x.vl ≤ x.vstart then s.writeTag vd tag
  else s.writeElems ctl vd tag w x.vstart x.vl (x.vlmax / wide) act res

/-- Write bits `lo` to `hi - 1` of a mask register, those from `hi` to `n - 1` as tail; bits from `n` up are kept
(03 R57). -/
def State.writeMaskBits (s : State) (ctl : VCtl) (kd : BitVec 4) (lo hi n : Nat) (act : Nat → Bool) (res : Nat → FRes) :
    State :=
  let old := (s.ctx.mask kd).toNat
  let r := packElements 1 (placeElem ctl s.freeCtr 1 lo hi old act res) n 0
  (({ s with freeCtr := s.freeCtr + n }).modCtx (fun y =>
    { y.setMask kd (BitVec.ofNat 1024 (replaceLow old 1 n r.bits)) with vstart := 0 })).orFlags (BitVec.ofNat 5 r.flags)

/-- VSTART becomes 0 and nothing else is written. -/
def State.clearVstart (s : State) : State := s.modCtx (fun y => { y with vstart := 0 })

/-- Write a mask register's body bits (18 R432). -/
def State.writeMaskBody (s : State) (ctl : VCtl) (kd : BitVec 4) (n : Nat) (res : Nat → FRes) : State :=
  let x := s.ctx
  if x.vl ≤ x.vstart then s.clearVstart else s.writeMaskBits ctl kd x.vstart x.vl n (x.selects ctl) res

/-! ### Element-wise instructions -/

/-- An element operation: FTZ, mode, type, a, b and the old d. -/
abbrev ElemOp := Bool → Nat → Nat → Nat → Nat → Nat → FRes

/-- What an element-wise instruction is: the types it takes, its latency, whether it rounds for floating-point
types, whether vd is a source, and its operation. -/
structure Elementwise where
  ok : Nat → Bool
  latency : Nat → Option Nat
  rounds : Bool := false
  acc : Bool := false
  op : ElemOp

/-- A V form of an element-wise instruction with sources va and vb; `both` says that vb is typed too. -/
def State.elementsV (s : State) (i : Instr) (f : FV) (both : Bool) (g : Elementwise) : Out :=
  s.vectorOp i f.ctl [] g.ok (if both then [f.va, f.vb] else [f.va]) (fun t ty l =>
    t.vrounded i (g.rounds && isFp ty) f.ctl.rm (fun mode =>
      let w := WellFormed.width ty
      let u := t.queueVector f.ctl w [f.va, f.vb] f.vd g.acc (g.latency ty)
      let a := (u.ctx.vreg f.va).toNat
      let b := (u.ctx.vreg f.vb).toNat
      let d := (u.ctx.vreg f.vd).toNat
      .next (u.writeBody f.ctl f.vd (tagByte ty l) w w (u.ctx.selects f.ctl)
        (fun e => g.op u.ftz mode ty (elem a w e) (elem b w e) (elem d w e)))))

/-- A V form with the one source va. -/
def State.elementsV1 (s : State) (i : Instr) (f : FV) (g : Elementwise) : Out :=
  s.vectorOp i f.ctl [] g.ok [f.va] (fun t ty l =>
    t.vrounded i (g.rounds && isFp ty) f.ctl.rm (fun mode =>
      let w := WellFormed.width ty
      let u := t.queueVector f.ctl w [f.va] f.vd g.acc (g.latency ty)
      let a := (u.ctx.vreg f.va).toNat
      .next (u.writeBody f.ctl f.vd (tagByte ty l) w w (u.ctx.selects f.ctl)
        (fun e => g.op u.ftz mode ty (elem a w e) 0 0))))

/-- A scalar-operand form: b is the low w bits of s[SB] (04 R76). -/
def State.elementsS (s : State) (i : Instr) (f : VS) (g : Elementwise) : Out :=
  s.vectorOp i f.ctl [f.sb] g.ok [f.va] (fun t ty l =>
    t.vrounded i (g.rounds && isFp ty) f.ctl.rm (fun mode =>
      let w := WellFormed.width ty
      let b := (t.rs f.sb).toNat % 2 ^ w
      let u := t.queueVector f.ctl w [f.va] f.vd g.acc (g.latency ty)
      let a := (u.ctx.vreg f.va).toNat
      let d := (u.ctx.vreg f.vd).toNat
      .next (u.writeBody f.ctl f.vd (tagByte ty l) w w (u.ctx.selects f.ctl)
        (fun e => g.op u.ftz mode ty (elem a w e) b (elem d w e)))))

/-- An exact integer result of two elements (05 R84). -/
def intElem (op : Nat → Int → Int → Int) (ty a b : Nat) : FRes :=
  let w := WellFormed.width ty
  ⟨wrapInt w (op w (intVal (signedType ty) w a) (intVal (signedType ty) w b)), 0⟩

/-- An operation by type: exact on integers, else one rounding. -/
def elemArith (iop : Int → Int → Int) (fop : Fmt → Nat → Bool → Nat → Nat → FRes) : ElemOp :=
  fun ftz mode ty a b _ =>
    if ty ≤ 7 then intElem (fun _ => iop) ty a b else fop (fmtOf ty) mode ftz a b

/-- Types 0 to 11. -/
def numTypes (t : Nat) : Bool := t ≤ 11

/-- VADD (18 R431). -/
def vaddG : Elementwise := { ok := numTypes, latency := addLatency, rounds := true, op := elemArith (· + ·) Fmt.add }

/-- VSUB (18 R431). -/
def vsubG : Elementwise := { ok := numTypes, latency := addLatency, rounds := true, op := elemArith (· - ·) Fmt.sub }

/-- VMUL (18 R431). -/
def vmulG : Elementwise := { ok := numTypes, latency := mulLatency, rounds := true, op := elemArith (· * ·) Fmt.mul }

/-- VMULH (18 R431). -/
def vmulhG : Elementwise :=
  { ok := WellFormed.isInt, latency := mulLatency, op := fun _ _ ty a b _ => intElem (fun w x y => x * y / 2 ^ w) ty a b }

/-- VMAC (18 R431). -/
def vmacG : Elementwise :=
  { ok := WellFormed.isInt, latency := mulLatency, acc := true
    op := fun _ _ ty a b d => intElem (fun w x y => intVal (signedType ty) w d + x * y) ty a b }

/-- The lesser or greater element (05 R91; 18 R431). -/
def elemMinMax (greater : Bool) : ElemOp := fun ftz _ ty a b _ =>
  if ty ≤ 7 then intElem (fun _ x y => if greater then max x y else min x y) ty a b
  else (fmtOf ty).minMax greater ftz a b

/-- VMIN (18 R431). -/
def vminG : Elementwise := { ok := numTypes, latency := addLatency, op := elemMinMax false }

/-- VMAX (18 R431). -/
def vmaxG : Elementwise := { ok := numTypes, latency := addLatency, op := elemMinMax true }

/-- A sign-free bit operation of any type (18 R431; 05 R87). -/
def bitwiseG (op : Nat → Nat → Nat) : Elementwise :=
  { ok := WellFormed.isElem, latency := fun _ => some 2, op := fun _ _ _ a b _ => ⟨op a b, 0⟩ }

/-- A shift of an element of width `w` by `b` mod w (18 R431). -/
def shiftG (op : Nat → Nat → Nat → Nat) : Elementwise :=
  { ok := WellFormed.isInt, latency := fun _ => some 2
    op := fun _ _ ty a b _ => ⟨op (WellFormed.width ty) a (b % WellFormed.width ty), 0⟩ }

/-- Shift left, in w bits. -/
def shlElem (w a n : Nat) : Nat := (a <<< n) % 2 ^ w

/-- Shift right, zero-filled. -/
def shrElem (_ a n : Nat) : Nat := a >>> n

/-- Shift right, filled with bit w - 1, whatever the type (18 R431; log 31). -/
def sraElem (w a n : Nat) : Nat := wrapInt w (intVal true w a / 2 ^ n)

/-- VADD (18 R431). -/
def execVadd (f : FV) (s : State) : Out := s.elementsV (.vadd f) f true vaddG

/-- VSUB (18 R431). -/
def execVsub (f : FV) (s : State) : Out := s.elementsV (.vsub f) f true vsubG

/-- VMUL (18 R431). -/
def execVmul (f : FV) (s : State) : Out := s.elementsV (.vmul f) f true vmulG

/-- VMULH (18 R431). -/
def execVmulh (f : FV) (s : State) : Out := s.elementsV (.vmulh f) f true vmulhG

/-- VMAC (18 R431). -/
def execVmac (f : FV) (s : State) : Out := s.elementsV (.vmac f) f true vmacG

/-- VMIN (18 R431). -/
def execVmin (f : FV) (s : State) : Out := s.elementsV (.vmin f) f true vminG

/-- VMAX (18 R431). -/
def execVmax (f : FV) (s : State) : Out := s.elementsV (.vmax f) f true vmaxG

/-- VAND (18 R431). -/
def execVand (f : FV) (s : State) : Out := s.elementsV (.vand f) f true (bitwiseG (· &&& ·))

/-- VOR (18 R431). -/
def execVor (f : FV) (s : State) : Out := s.elementsV (.vor f) f true (bitwiseG (· ||| ·))

/-- VXOR (18 R431). -/
def execVxor (f : FV) (s : State) : Out := s.elementsV (.vxor f) f true (bitwiseG (· ^^^ ·))

/-- VSHL; only va is typed (18 R431). -/
def execVshl (f : FV) (s : State) : Out := s.elementsV (.vshl f) f false (shiftG shlElem)

/-- VSHR (18 R431). -/
def execVshr (f : FV) (s : State) : Out := s.elementsV (.vshr f) f false (shiftG shrElem)

/-- VSRA (18 R431). -/
def execVsra (f : FV) (s : State) : Out := s.elementsV (.vsra f) f false (shiftG sraElem)

/-- VADD with a scalar (18 R431; 04 R76). -/
def execVaddS (f : VS) (s : State) : Out := s.elementsS (.vaddS f) f vaddG

/-- VSUB with a scalar. -/
def execVsubS (f : VS) (s : State) : Out := s.elementsS (.vsubS f) f vsubG

/-- VMUL with a scalar. -/
def execVmulS (f : VS) (s : State) : Out := s.elementsS (.vmulS f) f vmulG

/-- VMULH with a scalar. -/
def execVmulhS (f : VS) (s : State) : Out := s.elementsS (.vmulhS f) f vmulhG

/-- VMAC with a scalar. -/
def execVmacS (f : VS) (s : State) : Out := s.elementsS (.vmacS f) f vmacG

/-- VMIN with a scalar. -/
def execVminS (f : VS) (s : State) : Out := s.elementsS (.vminS f) f vminG

/-- VMAX with a scalar. -/
def execVmaxS (f : VS) (s : State) : Out := s.elementsS (.vmaxS f) f vmaxG

/-- VAND with a scalar. -/
def execVandS (f : VS) (s : State) : Out := s.elementsS (.vandS f) f (bitwiseG (· &&& ·))

/-- VOR with a scalar. -/
def execVorS (f : VS) (s : State) : Out := s.elementsS (.vorS f) f (bitwiseG (· ||| ·))

/-- VXOR with a scalar. -/
def execVxorS (f : VS) (s : State) : Out := s.elementsS (.vxorS f) f (bitwiseG (· ^^^ ·))

/-- VSHL by a scalar. -/
def execVshlS (f : VS) (s : State) : Out := s.elementsS (.vshlS f) f (shiftG shlElem)

/-- VSHR by a scalar. -/
def execVshrS (f : VS) (s : State) : Out := s.elementsS (.vshrS f) f (shiftG shrElem)

/-- VSRA by a scalar. -/
def execVsraS (f : VS) (s : State) : Out := s.elementsS (.vsraS f) f (shiftG sraElem)

/-- VMOV of a vector (18 R431). -/
def execVmov (f : FV) (s : State) : Out :=
  s.elementsV1 (.vmov f) f { ok := WellFormed.isElem, latency := fun _ => some 2, op := fun _ _ _ a _ _ => ⟨a, 0⟩ }

/-- VMOV of a scalar: the pattern in every active body element; no source is typed (18 R431; 04 R76). -/
def execVmovS (f : VS) (s : State) : Out :=
  s.vectorOp (.vmovS f) f.ctl [f.sb] WellFormed.isElem [] (fun t ty l =>
    let w := WellFormed.width ty
    let b := (t.rs f.sb).toNat % 2 ^ w
    let u := t.queueVector f.ctl w [] f.vd false (some 2)
    .next (u.writeBody f.ctl f.vd (tagByte ty l) w w (u.ctx.selects f.ctl) (fun _ => ⟨b, 0⟩)))

/-- VFMA (18 R441). -/
def execVfma (f : FV) (s : State) : Out :=
  s.vectorOp (.vfma f) f.ctl [] WellFormed.isFloat [f.va, f.vb, f.vc] (fun t ty l =>
    t.vrounded (.vfma f) true f.ctl.rm (fun mode =>
      let w := WellFormed.width ty
      let u := t.queueVector f.ctl w [f.va, f.vb, f.vc] f.vd false (some 5)
      let a := (u.ctx.vreg f.va).toNat
      let b := (u.ctx.vreg f.vb).toNat
      let c := (u.ctx.vreg f.vc).toNat
      .next (u.writeBody f.ctl f.vd (tagByte ty l) w w (u.ctx.selects f.ctl)
        (fun e => (fmtOf ty).fma mode u.ftz (elem a w e) (elem b w e) (elem c w e)))))

/-- VFDIV (18 R438). -/
def execVfdiv (f : FV) (s : State) : Out :=
  s.elementsV (.vfdiv f) f true { ok := WellFormed.isFloat, latency := fun _ => none, rounds := true
                                  op := fun ftz mode ty a b _ => (fmtOf ty).div mode ftz a b }

/-- VFSQRT (18 R438). -/
def execVfsqrt (f : FV) (s : State) : Out :=
  s.elementsV1 (.vfsqrt f) f { ok := WellFormed.isFloat, latency := fun _ => none, rounds := true
                               op := fun ftz mode ty a _ _ => (fmtOf ty).sqrt mode ftz a }

/-- VFEST (18 R439; 05 R97). -/
def execVfest (f : FV) (s : State) : Out :=
  s.elementsV1 (.vfest f) f { ok := fun t => t == 10, latency := fun _ => some 5
                              op := fun ftz _ _ a _ _ => estF (f.fn == 1) ftz a }

/-- VFEXP2 (18 R440; 05 R94). -/
def execVfexp2 (f : FV) (s : State) : Out :=
  s.elementsV1 (.vfexp2 f) f { ok := fun t => t == 10, latency := fun _ => some 8, rounds := true
                               op := fun ftz mode _ a _ _ => exp2F mode ftz a }

/-- VFLOG2 (18 R440; 05 R95). -/
def execVflog2 (f : FV) (s : State) : Out :=
  s.elementsV1 (.vflog2 f) f { ok := fun t => t == 10, latency := fun _ => some 8, rounds := true
                               op := fun ftz mode _ a _ _ => log2F mode ftz a }

/-- VFSIN (18 R440; 05 R96). -/
def execVfsin (f : FV) (s : State) : Out :=
  s.elementsV1 (.vfsin f) f { ok := fun t => t == 10, latency := fun _ => some 8, rounds := true
                              op := fun ftz mode _ a _ _ => sinF (f.fn == 1) mode ftz a }

/-- The class bit of an encoding (18 R437). -/
def classBit (k : Fmt) (v : Nat) : Nat :=
  match k.decode false v with
  | .inf n => if n then 0 else 7
  | .nan sig => if sig then 8 else 9
  | .fin n m _ =>
    if m == 0 then (if n then 3 else 4)
    else if m < 2 ^ k.f then (if n then 2 else 5)
    else if n then 1 else 6

/-- VFCLASS (18 R437). -/
def execVfclass (f : FV) (s : State) : Out :=
  s.vectorOp (.vfclass f) f.ctl [] WellFormed.isFloat [f.va] (fun t ty _ =>
    let w := WellFormed.width ty
    let u := t.queueVector f.ctl w [f.va] f.vd false (some 5)
    let a := (u.ctx.vreg f.va).toNat
    let out := if w == 16 then 3 else if w == 32 then 5 else 7
    .next (u.writeBody f.ctl f.vd (plainTag out) w w (u.ctx.selects f.ctl)
      (fun e => ⟨2 ^ classBit (fmtOf ty) (elem a w e), 0⟩)))

/-! ### Comparison -/

/-- The relation of VCMP with its flags (18 R432; 05 R91). -/
def relation (fn ty : Nat) (ftz : Bool) (a b : Nat) : FRes :=
  let bit := fun p : Bool => if p then 1 else 0
  if ty ≤ 7 then
    let w := WellFormed.width ty
    let x := intVal (signedType ty) w a
    let y := intVal (signedType ty) w b
    ⟨condWord (x == y) (x < y) (x > y) false / 2 ^ fn % 2, 0⟩
  else
    let k := fmtOf ty
    let va := k.decode ftz a
    let vb := k.decode ftz b
    if va.isNan || vb.isNan then
      ⟨bit (fn == 1 || fn == 6), if 2 ≤ fn && fn ≤ 5 then NV else sigFlag va ||| sigFlag vb⟩
    else
      let eq := eqVal va vb
      ⟨condWord eq (!eq && ltVal va vb) (!eq && ltVal vb va) false / 2 ^ fn % 2, 0⟩

/-- The mask number in a vector register field. -/
def maskOf (r : BitVec 6) : BitVec 4 := r.setWidth 4

/-- VCMP (18 R432). -/
def execVcmp (f : FV) (s : State) : Out :=
  s.vectorOp (.vcmp f) f.ctl [] numTypes [f.va, f.vb] (fun t ty _ =>
    let w := WellFormed.width ty
    let u := t.queueMask f.ctl w [f.va, f.vb] (maskOf f.vd) (addLatency ty)
    let a := (u.ctx.vreg f.va).toNat
    let b := (u.ctx.vreg f.vb).toNat
    .next (u.writeMaskBody f.ctl (maskOf f.vd) (u.ctx.vlmax / w)
      (fun e => relation f.fn.toNat ty u.ftz (elem a w e) (elem b w e))))

/-- VCMP with a scalar (18 R432; 04 R76). -/
def execVcmpS (f : VS) (s : State) : Out :=
  s.vectorOp (.vcmpS f) f.ctl [f.sb] numTypes [f.va] (fun t ty _ =>
    let w := WellFormed.width ty
    let b := (t.rs f.sb).toNat % 2 ^ w
    let u := t.queueMask f.ctl w [f.va] (maskOf f.vd) (addLatency ty)
    let a := (u.ctx.vreg f.va).toNat
    .next (u.writeMaskBody f.ctl (maskOf f.vd) (u.ctx.vlmax / w)
      (fun e => relation f.fn.toNat ty u.ftz (elem a w e) b)))

/-! ### Selection and movement -/

/-- VMERGE: va where the mask bit is 1, vb where it is 0 (18 R431, R449). -/
def execVmerge (f : FV) (s : State) : Out :=
  s.vectorOp (.vmerge f) f.ctl [] WellFormed.isElem [f.va, f.vb] (fun t ty l =>
    let w := WellFormed.width ty
    let u := t.enqueueVector 2 (some 2) ([f.va.toNat, f.vb.toNat, f.vd.toNat] ++ maskReads f.ctl) [f.vd.toNat]
    let a := (u.ctx.vreg f.va).toNat
    let b := (u.ctx.vreg f.vb).toNat
    .next (u.writeBody f.ctl f.vd (tagByte ty l) w w (fun _ => true)
      (fun e => ⟨if u.ctx.selects f.ctl e then elem a w e else elem b w e, 0⟩)))

/-- VSLIDE (18 R452). -/
def execVslide (f : VS) (s : State) : Out :=
  s.vectorOp (.vslide f) f.ctl [f.sb] WellFormed.isElem [f.va] (fun t ty l =>
    if f.vd == f.va then illegal t (.vslide f) else
    let w := WellFormed.width ty
    let n := (t.rs f.sb).toNat
    let u := t.queueVector f.ctl w [f.va] f.vd (f.fn == 0) none
    let a := (u.ctx.vreg f.va).toNat
    let d := (u.ctx.vreg f.vd).toNat
    let count := u.ctx.vlmax / w
    .next (u.writeBody f.ctl f.vd (tagByte ty l) w w (fun _ => true) (fun e =>
      ⟨if f.fn == 0 then (if n ≤ e then elem a w (e - n) else elem d w e)
       else if e + n < count then elem a w (e + n) else 0, 0⟩)))

/-- VPERM (18 R450). -/
def execVperm (f : FV) (s : State) : Out :=
  s.vectorOp (.vperm f) f.ctl [] WellFormed.isElem [f.va] (fun t ty l =>
    if f.vd == f.va || f.vd == f.vb then illegal t (.vperm f) else
    let w := WellFormed.width ty
    let u := t.queueVector f.ctl w [f.va, f.vb] f.vd false none
    let a := (u.ctx.vreg f.va).toNat
    let b := (u.ctx.vreg f.vb).toNat
    let count := u.ctx.vlmax / w
    .next (u.writeBody f.ctl f.vd (tagByte ty l) w w (fun _ => true) (fun e =>
      ⟨if elem b w e < count then elem a w (elem b w e) else 0, 0⟩)))

/-- VIOTA (18 R443). -/
def execViota (f : FV) (s : State) : Out :=
  s.vectorOp (.viota f) f.ctl [] WellFormed.isInt [] (fun t ty l =>
    let w := WellFormed.width ty
    let u := t.queueVector f.ctl w [] f.vd false (some 2)
    .next (u.writeBody f.ctl f.vd (tagByte ty l) w w (u.ctx.selects f.ctl) (fun e => ⟨e % 2 ^ w, 0⟩)))

/-- The value of VEXT: an element extended by its type, 0 from VLMAX / w up (18 R436). -/
def extElem (x : Ctx) (va : BitVec 6) (ty i : Nat) : Word :=
  let w := WellFormed.width ty
  if i < x.vlmax / w then BitVec.ofInt 64 (intVal (signedType ty) w (elem (x.vreg va).toNat w i)) else 0

/-- VEXT: R32 does not apply; VSTART := 0 (18 R436). -/
def execVext (f : VS) (s : State) : Out :=
  s.vectorTyped (.vext f) f.ctl f.ctl.ty [f.sb] WellFormed.isElem [f.va] (fun t ty _ =>
    let i := (t.rs f.sb).toNat
    let u := t.enqueueVector 1 none [f.va.toNat] []
    .next ((u.wi f.vd (extElem u.ctx f.va ty i)).modCtx (fun x => { x with vstart := 0 })))

/-- VINS: one element, the tag, VSTART := 0 (18 R444). -/
def execVins (f : VS) (s : State) : Out :=
  s.vectorTyped (.vins f) f.ctl f.ctl.ty [f.sb] WellFormed.isElem [] (fun t ty l =>
    let w := WellFormed.width ty
    let i := f.imm.toNat
    if t.ctx.vlmax / w ≤ i then illegal t (.vins f)
    else
      let b := (t.rs f.sb).toNat
      let u := t.enqueueVector 1 (some 2) [f.vd.toNat] [f.vd.toNat]
      .next (u.modCtx (fun x =>
        { x.setVreg f.vd (BitVec.ofNat 4096 (setElem (x.vreg f.vd).toNat w i b)) (tagByte ty l) with vstart := 0 })))

/-- VFMT: bits copied and a new tag; no source tag is read (18 R442). -/
def execVfmt (f : FV) (s : State) : Out :=
  s.vectorOp (.vfmt f) f.ctl [] WellFormed.isElem [] (fun t ty _ =>
    let w := WellFormed.width ty
    let u := t.queueVector f.ctl w [f.va] f.vd false (some 5)
    let a := (u.ctx.vreg f.va).toNat
    .next (u.writeBody f.ctl f.vd (tagByte ty f.aux.toNat) w w (fun _ => true) (fun e => ⟨elem a w e, 0⟩)))

/-- VCVT: from the type u of FN, or of va's tag, to TYPE (18 R433; 05 R92). Element positions take the wider
type's count. -/
def execVcvt (f : FV) (s : State) : Out :=
  s.issueVector (.vcvt f) f.ctl [] (fun t =>
    let ty := f.ctl.ty.toNat
    let wt := WellFormed.width ty
    if f.fn != 31 && !t.ctx.fits (max wt (WellFormed.width f.fn.toNat)) then illegal t (.vcvt f)
    else match t.ctx.elemType WellFormed.isElem (f.fn.setWidth 5) [f.va] with
    | .error v => .trap t 0x03 v
    | .ok (u, _) =>
    let wu := WellFormed.width u
    let w := max wt wu
    if !t.ctx.fits w || (wt != wu && f.vd == f.va) then illegal t (.vcvt f)
    else t.vrounded (.vcvt f) (isFp ty || isFp u) f.ctl.rm (fun mode =>
      let q := t.queueVector f.ctl w [f.va] f.vd false (some 5)
      let a := (q.ctx.vreg f.va).toNat
      .next (q.writeBody f.ctl f.vd (plainTag ty) wt w (q.ctx.selects f.ctl)
        (fun e => convert ty u mode q.ftz (elem a wu e)))))

/-! ### Reductions -/

/-- The identity of a reduction (05 R109). -/
def redIdentity (fn ty : Nat) : Nat :=
  let w := WellFormed.width ty
  if ty ≤ 7 then
    if fn == 1 then wrapInt w (intRange (signedType ty) w).2
    else if fn == 2 then wrapInt w (intRange (signedType ty) w).1
    else if fn == 3 then 2 ^ w - 1 else 0
  else if fn == 1 then (fmtOf ty).infBits
  else if fn == 2 then (fmtOf ty).signed true (fmtOf ty).infBits
  else 0

/-- One step of a reduction (05 R109). -/
def redStep (fn : Nat) (ftz : Bool) (mode ty r v : Nat) : FRes :=
  if fn == 0 then elemArith (· + ·) Fmt.add ftz mode ty r v 0
  else if fn == 1 then elemMinMax false ftz mode ty r v 0
  else if fn == 2 then elemMinMax true ftz mode ty r v 0
  else if fn == 3 then ⟨r &&& v, 0⟩
  else if fn == 4 then ⟨r ||| v, 0⟩
  else ⟨r ^^^ v, 0⟩

/-- A value from which a reduction or a sum of blocks starts, and which it delivers where nothing is added: unrounded, but for a
NaN, which is canonical and raises NV when it signals, and for the zero that FTZ reads for a subnormal (05 R87, R90, R108, R109; log
59). -/
def firstValue (ftz : Bool) (ty v : Nat) : FRes :=
  if ty ≤ 7 then ⟨v, 0⟩
  else
    let x := (fmtOf ty).decode ftz v
    if x.isNan then ⟨(fmtOf ty).nan, sigFlag x⟩ else ⟨(fmtOf ty).delivered ftz v, 0⟩

/-- Reduce `n` elements from element `e`, in order: the value, if an element was active, and the flags. -/
def reduce (first : Nat → FRes) (step : Nat → Nat → FRes) (act : Nat → Bool) (a : Nat → Nat) :
    Nat → Nat → Option FRes → Option FRes
  | 0, _, r => r
  | n + 1, e, r =>
    if !act e then reduce first step act a n (e + 1) r
    else match r with
      | none => reduce first step act a n (e + 1) (some (first (a e)))
      | some q =>
        let x := step q.bits (a e)
        reduce first step act a n (e + 1) (some ⟨x.bits, x.flags ||| q.flags⟩)

/-- VRED (18 R451; 05 R109). -/
def execVred (f : FV) (s : State) : Out :=
  s.vectorOp (.vred f) f.ctl [] (fun t => if f.fn.toNat ≤ 2 then numTypes t else WellFormed.isInt t) [f.va] (fun t ty l =>
    if f.vd == f.va then illegal t (.vred f)
    else t.vrounded (.vred f) (f.fn == 0 && isFp ty) f.ctl.rm (fun mode =>
      let w := WellFormed.width ty
      let u := t.queueVector f.ctl w [f.va] f.vd false none
      let x := u.ctx
      let a := (x.vreg f.va).toNat
      let r := reduce (firstValue u.ftz ty) (redStep f.fn.toNat u.ftz mode ty) (x.selects f.ctl) (elem a w) (x.vl - x.vstart) x.vstart none
      let v := r.getD ⟨redIdentity f.fn.toNat ty, 0⟩
      .next (if x.vl ≤ x.vstart then u.writeTag f.vd (tagByte ty l)
             else u.writeElems f.ctl f.vd (tagByte ty l) w 0 1 (x.vlmax / w) (fun _ => true) (fun _ => v))))

/-- The exact sum of the products of `n` elements from element `i` (05 R108). -/
def blockSum (w a b : Nat) : Nat → Nat → Int
  | 0, _ => 0
  | n + 1, i => intVal true w (elem a w i) * intVal true w (elem b w i) + blockSum w a b n (i + 1)

/-- rne32(r + v * 2^x) (05 R108). -/
def addExact (ftz : Bool) (r : Nat) (v x : Int) : FRes :=
  let vr := f32.decode ftz r
  if vr.isNan then ⟨f32.nan, sigFlag vr⟩ else f32.sum 0 ftz vr (.fin (v < 0) v.natAbs x)

/-- The blocks of one result element: `n` blocks from block `j`, with the scale bytes of vc (05 R108, R99). -/
def dotBlocks (ftz : Bool) (w h a b c : Nat) : Nat → Nat → FRes → FRes
  | 0, _, r => r
  | n + 1, j, r =>
    let sa := elem c 8 j
    let sb := elem c 8 (h + j)
    if sa == 255 || sb == 255 then dotBlocks ftz w h a b c n (j + 1) ⟨r.bits, r.flags ||| NV⟩
    else
      let x := addExact ftz r.bits (blockSum w a b 24 (24 * j)) ((sa : Int) + sb - 254)
      dotBlocks ftz w h a b c n (j + 1) ⟨x.bits, x.flags ||| r.flags⟩

/-- VDOTB (18 R434). -/
def execVdotb (f : FV) (s : State) : Out :=
  s.vectorOp (.vdotb f) f.ctl [] (fun t => t == 16 || t == 17) [f.va, f.vb] (fun t ty _ =>
    let w := WellFormed.width ty
    let g := f.aux.toNat % 8 + 1
    if t.ctx.vtagOf f.vc != 0x93 then .trap t 0x03 (BitVec.ofNat 64 ((t.ctx.vtagOf f.vc).toNat + 0x9300))
    else if t.ctx.vl % (24 * g) != 0 || f.vd == f.va || f.vd == f.vb || f.vd == f.vc then illegal t (.vdotb f)
    else
      let u := t.queueVector f.ctl 32 [f.va, f.vb, f.vc] f.vd true (some 4)
      let x := u.ctx
      let a := (x.vreg f.va).toNat
      let b := (x.vreg f.vb).toNat
      let c := (x.vreg f.vc).toNat
      let d := (x.vreg f.vd).toNat
      .next (if x.vl ≤ x.vstart then u.writeTag f.vd (plainTag 10)
             else u.writeElems f.ctl f.vd (plainTag 10) 32 x.vstart (x.vl / 24 / g) (x.vlmax / 32) (fun _ => true)
               (fun r => dotBlocks u.ftz w (x.vlmax / 16) a b c g (r * g) (firstValue u.ftz 10 (elem d 32 r)))))

end Sys2Proof.Machine
end

