-- ==== Sys2Proof/Machine/VectorMem.lean ====
section
/-! DEFINITION. Vector memory and masks (18 R445 to R448, R453, R457; 16 R376 to R385; 10 R237; 13 R292). -/
namespace Sys2Proof.Machine
open Sys2Proof

/-! ### Addresses and types -/

/-- How element addresses are formed (18 R445). -/
inductive Shape where
  | unit
  | strided
  | indexed
  deriving DecidableEq, Repr

/-- Width of an index element (18 R448); 0 for a form without one. -/
def indexWidth (shape : Shape) (f : VM) : Nat :=
  match shape with
  | .indexed => if f.mode.toNat % 4 < 2 then 32 else 64
  | _ => 0

/-- The address of element `e` of width `w`, before its range check (18 R445, R448). -/
def State.elemAddr (s : State) (shape : Shape) (f : VM) (w e : Nat) : Int :=
  let base : Int := pointerAddr (s.rs f.base)
  match shape with
  | .unit => if w == 4 then base + (f.off.toInt + e) / 2 else base + (f.off.toInt + e) * (w / 8 : Nat)
  | .strided => base + e * (s.rs f.sx).toInt
  | .indexed =>
    let wi := indexWidth shape f
    base + intVal (f.mode != 0) wi (elem (s.ctx.vreg f.sx).toNat wi e)

/-- The range and alignment checks of an element of `n` bytes (18 R445). -/
def elementAt (base : Word) (a : Int) (n : Nat) : Except Stop Nat :=
  if a < 0 || 2 ^ 52 ≤ a then .error (.trap 0x05 base)
  else if a.toNat % n != 0 then .error (.trap 0x04 (addrWord a.toNat))
  else .ok a.toNat

/-- TRAPVAL of 05 R102: the pointer's tag and the tag required. -/
def mismatch (p : Word) (required : BitVec 8) : Word := BitVec.ofNat 64 (bits p 62 55 + required.toNat * 256)

/-- The type and block-length code of a vector load (05 R102). TRAPVAL of an untagged pointer with TYPE TAG holds 0 and, as
no tag is required there, 0xF8 (DESIGN CHOICE, log 21). -/
def loadType (p : Word) (ty : BitVec 5) : Except Word (Nat × Nat) :=
  match pointerTag p with
  | none => if ty = 31 then .error (mismatch p 0xF8) else .ok (ty.toNat, (plainTag ty.toNat).toNat % 8)
  | some g => if ty = 31 || ty.toNat == g.toNat / 8 then .ok (g.toNat / 8, g.toNat % 8) else .error (mismatch p (plainTag ty.toNat))

/-- The type of a vector store from a register whose tag is `vs` (05 R457). -/
def storeType (p : Word) (ty : BitVec 5) (vs : BitVec 8) : Except Word (Nat × Nat) :=
  match pointerTag p with
  | none =>
    if ty != 31 then .ok (ty.toNat, 0)
    else if 18 < vs.toNat / 8 then .error (vs.setWidth 64)
    else .ok (vs.toNat / 8, 0)
  | some g =>
    if ty = 31 then if vs == g then .ok (g.toNat / 8, 0) else .error (mismatch p vs)
    else if ty.toNat == g.toNat / 8 then .ok (ty.toNat, 0)
    else .error (mismatch p (plainTag ty.toNat))

/-- Bytes of an element access; a 4-bit element lies in one byte (05 R83). -/
def elemBytes (w : Nat) : Nat := if w == 4 then 1 else w / 8

/-! ### The walk -/

/-- What a walk over elements has done: the state, the loaded elements in their places, and where it stopped. -/
structure Walked where
  s : State
  vals : Nat
  stop : Option (Nat × BitVec 8 × Word)

/-- Where an element stops, with its cause; an access that no policy governs meets no other stop. -/
def stopAt (e : Nat) : Stop → Nat × BitVec 8 × Word
  | .trap c v => (e, c, v)
  | .remote _ va => (e, 0x05, addrWord va)

/-- Load the active ones of `n` elements from element `e` in order (07 R143; 13 R292). -/
def walkLoads (w : Nat) (act : Nat → Bool) (one : State → Nat → Except Stop (Nat × State)) : Nat → Nat → Walked → Walked
  | 0, _, r => r
  | n + 1, e, r =>
    if act e then
      match one r.s e with
      | .ok (v, t) => walkLoads w act one n (e + 1) ⟨t, r.vals + v <<< (w * e), none⟩
      | .error x => { r with stop := some (stopAt e x) }
    else walkLoads w act one n (e + 1) r

/-- Store the active ones of `n` elements from element `e` in order. -/
def walkStores (act : Nat → Bool) (one : State → Nat → Except Stop State) : Nat → Nat → State → Walked
  | 0, _, s => ⟨s, 0, none⟩
  | n + 1, e, s =>
    if act e then
      match one s e with
      | .ok t => walkStores act one n (e + 1) t
      | .error x => ⟨s, 0, some (stopAt e x)⟩
    else walkStores act one n (e + 1) s

/-- Load one element on path V: a remote home is reached remotely (13 R300). -/
def State.loadElement (s : State) (shape : Shape) (f : VM) (w e : Nat) : Except Stop (Nat × State) :=
  match elementAt (s.rs f.base) (s.elemAddr shape f w e) (elemBytes w) with
  | .error x => .error x
  | .ok a =>
    match s.load .l1 false a (elemBytes w) with
    | .error x => .error x
    | .ok (v, t) => .ok (if w == 4 then v / 2 ^ (4 * (e % 2)) % 16 else v, t)

/-- The byte that a 4-bit store shares with its neighbour. -/
def State.sharedByte (s : State) (va : Nat) : Except Stop (Nat × State) :=
  match regionOf va with
  | .localWindow o => .ok (s.localRead s.localCoreOf o 1, s)
  | _ => s.l2Read s.runDie false false va 1

/-- Store one element on path V; a 4-bit element replaces its half of the byte (05 R83; log 32). -/
def State.storeElement (s : State) (shape : Shape) (f : VM) (w v e : Nat) : Except Stop State :=
  match elementAt (s.rs f.base) (s.elemAddr shape f w e) (elemBytes w) with
  | .error x => .error x
  | .ok a =>
    if w == 4 then
      match s.store false a 1 0 with
      | .error x => .error x
      | .ok _ =>
        match s.sharedByte a with
        | .error x => .error x
        | .ok (b, t) =>
          let kept := if e % 2 == 0 then b / 16 * 16 + v % 16 else b % 16 + v % 16 * 16
          t.store false a 1 kept
    else s.store false a (elemBytes w) v

/-- Report an uncorrectable error that an element met (06 R130). -/
def State.noteStop (s : State) (c : BitVec 8) (v : Word) : State := if c = 0x08 then s.noteBad s.runDie s.ctx.domain v.toNat else s

/-- The element width for which a vector memory instruction checks R32 fits. -/
def Ctx.fitsAccess (x : Ctx) (shape : Shape) (f : VM) (ty : Nat) : Bool := x.fits (max (WellFormed.width ty) (indexWidth shape f))

/-- Step 5 of 03 R60 for a vector memory instruction, `vs` being the tag of a store's source: R32 where TYPE gives the width; with
TYPE TAG of a store the format of its source (03 R43; 05 R457) and R32 at that format's width. TRAPVAL tells of the pointer's tag
where the pointer has one (05 R102). -/
def State.accessFormat (s : State) (i : Instr) (shape : Shape) (f : VM) (vs : Option (BitVec 8)) : Option Effect :=
  let p := s.rs f.base
  if f.ctl.ty != 31 then (if s.ctx.fitsAccess shape f f.ctl.ty.toNat then none else some (illegal s i))
  else match vs with
    | none => none
    | some g =>
      if 18 < g.toNat / 8 then
        some (.trap s 0x03 (if pointerOk p && (pointerTag p).isSome then mismatch p g else g.setWidth 64))
      else if s.ctx.fitsAccess shape f (g.toNat / 8) then none
      else some (illegal s i)

/-- Checks of a vector memory instruction: step 5 of 03 R60, then the pointer's tag (05 R101), its format, R32 for a load with TYPE
TAG and the uses of 4-bit types (18 R445; log 20). They are made with VSTART ≥ VL too: 03 R57 then allows the traps of R60, and
step 6 is read as one of them (DESIGN CHOICE, log 58). -/
def State.vectorAccess (s : State) (i : Instr) (shape : Shape) (f : VM) (vs : Option (BitVec 8))
    (types : Word → BitVec 5 → Except Word (Nat × Nat)) (body : State → Nat → Nat → Effect) : Effect :=
  let p := s.rs f.base
  match s.accessFormat i shape f vs with
  | some e => e
  | none =>
  if !pointerOk p then .trap s 0x05 p
  else match types p f.ctl.ty with
    | .error v => .trap s 0x03 v
    | .ok (ty, l) =>
      if !s.ctx.fitsAccess shape f ty then illegal s i
      else if WellFormed.width ty == 4 && (shape != .unit || f.off.toNat % 2 != 0) then illegal s i
      else body s ty l

/-- The scalar registers of a vector memory instruction. -/
def vmScalars (shape : Shape) (f : VM) : List (BitVec 6) := if shape = .strided then [f.base, f.sx] else [f.base]

/-- The vector registers that its addresses read. -/
def vmIndex (shape : Shape) (f : VM) : List (BitVec 6) := if shape = .indexed then [f.sx] else []

/-- Write what a load has read up to element `stop`: body elements from there keep their old values; tail elements
follow TP only when the instruction completes (13 R292; 18 R447). -/
def State.writeLoaded (s : State) (ctl : VCtl) (vd : BitVec 6) (tag : BitVec 8) (w vals stop : Nat) : State :=
  let x := s.ctx
  let old := (x.vreg vd).toNat
  if x.vl ≤ x.vstart then s.writeTag vd tag
  else s.writeElems ctl vd tag w x.vstart x.vl (x.vlmax / w) (fun e => stop ≤ e || x.selects ctl e)
    (fun e => ⟨if e < stop then elem vals w e else elem old w e, 0⟩)

/-- A vector load; `trims` is VLDFF's rule (18 R445, R447). -/
def State.vectorLoad (s : State) (i : Instr) (shape : Shape) (trims : Bool) (f : VM) : Out :=
  s.issueVector i f.ctl (vmScalars shape f) (fun t =>
    t.vectorAccess i shape f none loadType (fun t ty l =>
      if shape == .indexed && f.vd == f.sx then illegal t i else
      let w := WellFormed.width ty
      let x := t.ctx
      let tag := tagByte ty l
      let r := walkLoads w (x.selects f.ctl) (fun u e => u.loadElement shape f w e) (x.vl - x.vstart) x.vstart ⟨t, 0, none⟩
      let q := r.s.queueVector f.ctl w (vmIndex shape f) f.vd false none
      match r.stop with
      | none => .next (q.writeLoaded f.ctl f.vd tag w r.vals x.vl)
      | some (e, c, v) =>
        let u := q.noteStop c v
        if trims && 0 < e then
          .next ((u.writeLoaded f.ctl f.vd tag w r.vals e).modCtx (fun y => { y with vl := e }))
        else .trapElem (u.writeLoaded { f.ctl with tp := false } f.vd tag w r.vals e) c v e))

/-- A vector store (18 R445, R453). Its elements are performed as it issues, so a later scalar load of the context without a
VDRAIN, which 07 R144 lets return either value, returns the new one (DESIGN CHOICE, log 2). -/
def State.vectorStore (s : State) (i : Instr) (shape : Shape) (f : VM) : Out :=
  s.issueVector i f.ctl (vmScalars shape f) (fun t =>
    t.vectorAccess i shape f (some (t.ctx.vtagOf f.vd)) (fun p ty => storeType p ty (t.ctx.vtagOf f.vd)) (fun t ty _ =>
      let w := WellFormed.width ty
      let x := t.ctx
      let vals := (x.vreg f.vd).toNat
      let r := walkStores (x.selects f.ctl) (fun u e => u.storeElement shape f w (elem vals w e) e)
        (x.vl - x.vstart) x.vstart t
      let q := r.s.enqueueVector 1 none ((f.vd :: vmIndex shape f).map (·.toNat) ++ maskReads f.ctl) []
      match r.stop with
      | none => .next q.clearVstart
      | some (e, c, v) => .trapElem (q.noteStop c v) c v e))

/-- VLD (18 R445). -/
def execVld (f : VM) (s : State) : Out := s.vectorLoad (.vld f) .unit false f

/-- VLDS (18 R445). -/
def execVlds (f : VM) (s : State) : Out := s.vectorLoad (.vlds f) .strided false f

/-- VLDX (18 R445, R448). -/
def execVldx (f : VM) (s : State) : Out := s.vectorLoad (.vldx f) .indexed false f

/-- VLDFF (18 R447). -/
def execVldff (f : VM) (s : State) : Out := s.vectorLoad (.vldff f) .unit true f

/-- VST (18 R445; 05 R457). -/
def execVst (f : VM) (s : State) : Out := s.vectorStore (.vst f) .unit f

/-- VSTS (18 R445). -/
def execVsts (f : VM) (s : State) : Out := s.vectorStore (.vsts f) .strided f

/-- VSTX (18 R448, R453). -/
def execVstx (f : VM) (s : State) : Out := s.vectorStore (.vstx f) .indexed f

/-! ### KLD and KST -/

/-- The address of mask byte `j` (16 R381), its range checked as an element's is. -/
def maskByteAt (base : Word) (off : BitVec 16) (j : Nat) : Except Stop Nat :=
  elementAt base ((pointerAddr base : Int) + off.toInt + j) 1

/-- The number of mask bytes from VSTART's to VL - 1's. -/
def maskBytes (x : Ctx) : Nat := if x.vl ≤ x.vstart then 0 else (x.vl - 1) / 8 - x.vstart / 8 + 1

/-- The checks of KLD and KST: R32 at width 4, then the pointer's tag (16 R381). -/
def State.maskAccess (s : State) (i : Instr) (f : VM) (body : State → Effect) : Effect :=
  if !s.ctx.fits 4 then illegal s i
  else if !pointerOk (s.rs f.base) then .trap s 0x05 (s.rs f.base)
  else body s

/-- KLD (16 R381). -/
def execKld (f : VM) (s : State) : Out :=
  s.issueVector (.kld f) f.ctl [f.base] (fun t =>
    t.maskAccess (.kld f) f (fun t =>
      let x := t.ctx
      let kd := maskOf f.vd
      let r := walkLoads 8 (fun _ => true) (fun u j =>
          match maskByteAt (u.rs f.base) f.off j with
          | .error e => .error e
          | .ok a => u.load .l1 false a 1) (maskBytes x) (x.vstart / 8) ⟨t, 0, none⟩
      let q := r.s.enqueueVector 1 none [maskKey kd] [maskKey kd]
      let wr := fun (ctl : VCtl) (hi : Nat) =>
        q.writeMaskBits ctl kd x.vstart hi (x.vlmax / 4) (fun _ => true) (fun e => ⟨elem r.vals 1 e, 0⟩)
      match r.stop with
      | none => .next (if x.vl ≤ x.vstart then q.clearVstart else wr f.ctl x.vl)
      | some (j, c, v) =>
        let e := max x.vstart (8 * j)
        .trapElem ((wr { f.ctl with tp := false } e).noteStop c v) c v e))

/-- KST (16 R385). -/
def execKst (f : VM) (s : State) : Out :=
  s.issueVector (.kst f) f.ctl [f.base] (fun t =>
    t.maskAccess (.kst f) f (fun t =>
      let x := t.ctx
      let ks := (x.mask (maskOf f.vd)).toNat % 2 ^ x.vl
      let r := walkStores (fun _ => true) (fun u j =>
          match maskByteAt (u.rs f.base) f.off j with
          | .error e => .error e
          | .ok a => u.store false a 1 (elem ks 8 j)) (maskBytes x) (x.vstart / 8) t
      let q := r.s.enqueueVector 1 none [maskKey (maskOf f.vd)] []
      match r.stop with
      | none => .next q.clearVstart
      | some (j, c, v) => .trapElem (q.noteStop c v) c v (max x.vstart (8 * j))))

/-! ### Mask instructions (16 R376) -/

/-- The masks that a K-format instruction reads or writes (16 R376 to R384; 10 R237). -/
def masksUsed : Instr → List (BitVec 4)
  | .klog f => [f.kd, f.ka, f.kb]
  | .kmov f => [f.kd, f.ka]
  | .kpush f => [0, f.ka]
  | .kpop _ | .kelse _ | .kbr _ => [0]
  | .kcnt f | .kfirst f => [f.ka]
  | _ => []

/-- An earlier vector instruction of a context on a core uses one of the masks (16 R376). -/
def Core.usesMask (k : Core) (x : CoreId × CtxId) (ks : List (BitVec 4)) : Bool :=
  let keys := ks.map maskKey
  k.vqueue.any (fun e => e.ctx == x && (shares keys e.reads || shares keys e.writes)) ||
    k.walks.any (fun w => w.ctx == x && shares keys w.writes)

/-- Wait for the vector instructions that use one of the masks (16 R376). -/
def State.awaitMasks (s : State) (ks : List (BitVec 4)) : State :=
  if (s.coreAt s.runCore).usesMask s.cur ks then s.drainVector else s

/-- A K-format instruction. -/
def State.maskOp (s : State) (i : Instr) (f : FK) (dst : Option (BitVec 6)) (body : State → Effect) : Out :=
  s.issue i f.ctl { dst := dst, forbid := some 3 } (fun t => body (t.awaitMasks (masksUsed i)))

/-- KLOG's function (16 R382). -/
def maskLogic (fn : Nat) (a b : BitVec 1024) : BitVec 1024 :=
  if fn == 0 then a &&& b
  else if fn == 1 then a ||| b
  else if fn == 2 then a ^^^ b
  else if fn == 3 then a &&& ~~~b
  else if fn == 4 then a ||| ~~~b
  else if fn == 5 then ~~~(a &&& b)
  else if fn == 6 then ~~~(a ||| b)
  else ~~~(a ^^^ b)

/-- KLOG (16 R382). -/
def execKlog (f : FK) (s : State) : Out :=
  s.maskOp (.klog f) f none (fun t =>
    .next (t.modCtx (fun x => x.setMask f.kd (maskLogic f.fn.toNat (x.mask f.ka) (x.mask f.kb)))))

/-- KMOV (16 R383). -/
def execKmov (f : FK) (s : State) : Out :=
  s.maskOp (.kmov f) f none (fun t =>
    .next (if f.kd = f.ka then t else t.modCtx (fun x => x.setMask f.kd (x.mask f.ka))))

/-- KPUSH (10 R237; 16 R384; 03 R44). The newest entry is the head of the list. -/
def execKpush (f : FK) (s : State) : Out :=
  s.maskOp (.kpush f) f none (fun t =>
    let x := t.ctx
    if 16 ≤ x.kstack.length then .trap t 0x0B (BitVec.ofNat 64 x.kstack.length)
    else .next (t.modCtx (fun y =>
      { y.setMask 0 (y.mask 0 &&& y.mask f.ka) with kstack := (y.mask 0, y.mask f.ka) :: y.kstack })))

/-- KPOP (10 R237; 03 R44). -/
def execKpop (f : FK) (s : State) : Out :=
  s.maskOp (.kpop f) f none (fun t =>
    match t.ctx.kstack with
    | [] => .trap t 0x0C 0
    | top :: rest => .next (t.modCtx (fun y => { y.setMask 0 top.1 with kstack := rest })))

/-- KELSE (10 R237; 16 R379). -/
def execKelse (f : FK) (s : State) : Out :=
  s.maskOp (.kelse f) f none (fun t =>
    match t.ctx.kstack with
    | [] => .trap t 0x0C 0
    | top :: _ => .next (t.modCtx (fun y => y.setMask 0 (top.1 &&& ~~~top.2))))

/-- The number of set bits among the first `n` (16 R378). -/
def maskCount (k : BitVec 1024) : Nat → Nat
  | 0 => 0
  | n + 1 => maskCount k n + (if k.getLsbD n then 1 else 0)

/-- KCNT (16 R378). -/
def execKcnt (f : FK) (s : State) : Out :=
  s.maskOp (.kcnt f) f (some f.sd) (fun t =>
    .next (t.wi f.sd (BitVec.ofNat 64 (maskCount (t.ctx.mask f.ka) t.ctx.vl))))

/-- The least set bit among the first `n` (16 R380). -/
def maskFirst (k : BitVec 1024) : Nat → Option Nat
  | 0 => none
  | n + 1 =>
    match maskFirst k n with
    | some e => some e
    | none => if k.getLsbD n then some n else none

/-- KFIRST (16 R380). -/
def execKfirst (f : FK) (s : State) : Out :=
  s.maskOp (.kfirst f) f (some f.sd) (fun t =>
    .next (t.wi f.sd (match maskFirst (t.ctx.mask f.ka) t.ctx.vl with
      | some e => BitVec.ofNat 64 e
      | none => BitVec.allOnes 64)))

/-- KBR (10 R237; 16 R377). -/
def execKbr (f : FK) (s : State) : Out :=
  s.maskOp (.kbr f) f none (fun t =>
    let empty := maskCount (t.ctx.mask 0) t.ctx.vl == 0
    .jump t (if empty == (f.fn == 0) then branchTarget t.ctx.pc (sext64 f.off) else t.ctx.pc + 8))

/-- VECTOR_ADMISSION: the oldest queued instruction of a core takes its walk slots (03 R65, R66). -/
def execVectorAdmission (core : CoreId) (s : State) : Out := .next (s.admitOne core)

end Sys2Proof.Machine
end

