-- ==== Sys2Proof/Machine/Spans.lean ====
section
/-! DEFINITION. Accesses to runs of bytes by the Firebox, the engines and the agents: pieces of at most 32 bytes,
each within one grain (06 R117, R126, R128), and the accumulator tiles as sparse lists. -/
namespace Sys2Proof.Machine
open Sys2Proof

/-- The bytes from `va` to the next multiple of 32, at most `n`. -/
def pieceLen (va n : Nat) : Nat := min n (32 - va % 32)

/-- Read `n` bytes from `va` upward as one little-endian number; `fuel` of n / 32 + 2 suffices. -/
def spanRead (one : State → Nat → Nat → Except Stop (Nat × State)) : Nat → State → Nat → Nat → Except Stop (Nat × State)
  | 0, s, _, _ => .ok (0, s)
  | fuel + 1, s, va, n =>
    if n == 0 then .ok (0, s)
    else
      let k := pieceLen va n
      match one s va k with
      | .error e => .error e
      | .ok (v, s1) =>
        match spanRead one fuel s1 (va + k) (n - k) with
        | .error e => .error e
        | .ok (w, s2) => .ok (v + w <<< (8 * k), s2)

/-- Write the low `n` bytes of `v` from `va` upward. -/
def spanWrite (one : State → Nat → Nat → Nat → Except Stop State) : Nat → State → Nat → Nat → Nat → Except Stop State
  | 0, s, _, _, _ => .ok s
  | fuel + 1, s, va, n, v =>
    if n == 0 then .ok s
    else
      let k := pieceLen va n
      match one s va k (v % 2 ^ (8 * k)) with
      | .error e => .error e
      | .ok s1 => spanWrite one fuel s1 (va + k) (n - k) (v >>> (8 * k))

/-- The number of pieces that `n` bytes may take, and one more. -/
def spanFuel (n : Nat) : Nat := n / 32 + 2

/-- A read of paged memory by a unit of die `d` for a domain, with the rights `need`; any other region is a
protection fault (09 R214). -/
def State.unitRead (s : State) (d : DieId) (domain : BitVec 16) (need va n : Nat) : Except Stop (Nat × State) :=
  match regionOf va with
  | .paged =>
    if s.tableCheck d domain va need then
      (s.l2Read d false false va n).map (fun r =>
        (r.1, (r.2.chargeRead d domain (s.readsFar d false va n)).correctRuns (s.tableRuns d domain)))
    else .error (s.denial d domain va)
  | _ => .error (protection va)

/-- A write of paged memory by a unit of die `d`, as a write of the context that `writer` names. -/
def State.unitWrite (s : State) (d : DieId) (domain : BitVec 16) (need : Nat) (writer : Option (CoreId × CtxId))
    (va n v : Nat) : Except Stop State :=
  match regionOf va with
  | .paged =>
    if s.tableCheck d domain va need then (s.correctRuns (s.tableRuns d domain)).l2Write d false writer va n v
    else .error (s.denial d domain va)
  | _ => .error (protection va)

/-- Read `n` bytes at an address that may lie outside 0 to 2^52 - 1: a protection fault there has the address modulo 2^52, which is
all that FADDR can hold (09 R200; DESIGN CHOICE, log 65). -/
def State.unitReadAt (s : State) (d : DieId) (domain : BitVec 16) (need : Nat) (a : Int) (n : Nat) : Except Stop (Nat × State) :=
  if n == 0 then .ok (0, s)
  else if a < 0 || 2 ^ 52 < a + n then .error (.trap 0x05 (BitVec.ofInt 64 (a % 2 ^ 52)))
  else spanRead (fun t va k => t.unitRead d domain need va k) (spanFuel n) s a.toNat n

/-- Write `n` bytes at such an address. -/
def State.unitWriteAt (s : State) (d : DieId) (domain : BitVec 16) (need : Nat) (writer : Option (CoreId × CtxId))
    (a : Int) (n v : Nat) : Except Stop State :=
  if n == 0 then .ok s
  else if a < 0 || 2 ^ 52 < a + n then .error (.trap 0x05 (BitVec.ofInt 64 (a % 2 ^ 52)))
  else spanWrite (fun t va k x => t.unitWrite d domain need writer va k x) (spanFuel n) s a.toNat n v

/-- `n` elements of width `w` as a list. -/
def unpackElems (w n v : Nat) : List Nat := (List.range n).map (elem v w)

/-- Elements of width `w` as one little-endian number. -/
def packList (w : Nat) : List Nat → Nat
  | [] => 0
  | x :: xs => x % 2 ^ w + packList w xs <<< w

/-! ### Tiles -/

/-- The key of element (m, n) of a slot. -/
def tileKey (slot m n : Nat) : Nat := slot * 2 ^ 18 + m * 512 + n

/-- An element; what is not listed is zero. -/
def tileGet (t : List (Nat × BitVec 96)) (k : Nat) : BitVec 96 :=
  match t with
  | [] => 0
  | (a, v) :: rest => if a = k then v else tileGet rest k

/-- Set an element, keeping keys rising and no value zero. -/
def tileSet (t : List (Nat × BitVec 96)) (k : Nat) (v : BitVec 96) : List (Nat × BitVec 96) :=
  match t with
  | [] => if v = 0 then [] else [(k, v)]
  | (a, b) :: rest =>
    if k = a then (if v = 0 then rest else (k, v) :: rest)
    else if k < a then (if v = 0 then (a, b) :: rest else (k, v) :: (a, b) :: rest)
    else (a, b) :: tileSet rest k v

/-- Drop every element of slots `s` to `s + count - 1`. -/
def tileClear (t : List (Nat × BitVec 96)) (s count : Nat) : List (Nat × BitVec 96) :=
  t.filter (fun e => e.1 / 2 ^ 18 < s || s + count ≤ e.1 / 2 ^ 18)

end Sys2Proof.Machine
end

