-- ==== Sys2Proof/Machine/Matrix.lean ====
section
/-! DEFINITION. The matrix instructions as they issue (09 R194 to R209, R215 to R220; 17 R393 to R406): leases, the
checks of R205, the delivery and resumption of matrix faults, and the queue that the Firebox runs. -/
namespace Sys2Proof.Machine
open Sys2Proof

/-! ### Leases -/

/-- Replace a lease. -/
def Firebox.putLease (f : Firebox) (l : Lease) : Firebox :=
  { f with leases := f.leases.map (fun o => if o.num == l.num then l else o) }

/-- The lease of that number. -/
def Firebox.find (f : Firebox) (num : Nat) : Option Lease := f.leases.find? (fun l => l.num == num)

/-- Put a lease of a die back. -/
def State.putLease (s : State) (d : DieId) (l : Lease) : State := s.modFirebox d (fun f => f.putLease l)

/-- Slots that leases of a die hold. -/
def Firebox.slotsUsed (f : Firebox) : Nat := f.leases.foldl (fun n l => n + l.nslot) 0

/-- The lowest free lease number from 1 to 8. -/
def Firebox.freeNumber (f : Firebox) : Option Nat := (List.range' 1 8).find? (fun n => (f.find n).isNone)

/-- The count of free lease numbers. -/
def Firebox.freeCount (f : Firebox) : Nat := (List.range' 1 8).countP (fun n => (f.find n).isNone)

/-- The slots that a launch's record reserves on each die (09 R195). -/
def State.reservation (s : State) (launch : Nat) : Nat :=
  match s.launches.find? (fun l => l.arrival == launch) with
  | some l => l.record.slots
  | none => 0

/-- A launch holds a core of a die. -/
def State.launchOn (s : State) (launch : Nat) (d : DieId) : Bool :=
  (List.range 64).any (fun i =>
    match (s.coreAt (localCore d (i % 8) (i / 8))).placed with
    | some p => p.launch == launch
    | none => false)

/-- Launches of a die, other than `launch`, that hold a reservation and no lease there (09 R194). -/
def State.claimants (s : State) (d : DieId) (launch : Option Nat) : Nat :=
  s.launches.countP (fun l => some l.arrival != launch && l.record.slots != 0 && s.launchOn l.arrival d &&
    !((s.dieAt d).firebox.leases.any (fun o => o.launch == l.arrival)))

/-- A lease with `n` zero f32 tiles. -/
def Lease.fresh (num n : Nat) (core : CoreId) (ctx : CtxId) (launch : Nat) (domain : BitVec 16) : Lease where
  num := num
  core := core
  ctx := ctx
  launch := launch
  domain := domain
  nslot := n
  state := .idle
  since := 0
  queue := []
  pos := 0
  pflags := 0
  types := Vector.replicate 12 .f32
  tiles := []
  stageA := none
  stageB := none
  loadedA := false
  loadedB := false
  fault := none

/-- The number that MLEASE grants for `n` slots, if any; a context of no launch has no reservation (09 R194). -/
def State.grantNumber (s : State) (d : DieId) (n : Nat) : Option (Nat × Nat) :=
  let f := (s.dieAt d).firebox
  match (s.coreAt s.cur.1).placed, f.freeNumber with
  | some p, some num =>
    let own := (f.leases.filter (fun l => l.launch == p.launch)).foldl (fun k l => k + l.nslot) 0
    if f.freeCount - 1 < s.claimants d (some p.launch) || 12 < f.slotsUsed + n || s.reservation p.launch < own + n then none
    else some (num, p.launch)
  | _, _ => none

/-! ### The array (09 R197, R198) -/

/-- Let the Firebox of a die go on with its next command, unless that is due already. -/
def State.runFirebox (s : State) (d : DieId) : State :=
  if s.agenda.contains (.event (.fireboxCommandRun d)) then s else s.schedule (.event (.fireboxCommandRun d))

/-- A lease gets the array: its quantum begins (09 R198). -/
def State.grantArray (s : State) (d : DieId) (num : Nat) : State :=
  (s.modFirebox d (fun f => { f with
    leases := f.leases.map (fun l => if l.num == num then { l with state := .running } else l)
    holder := some num
    commands := 0
    grantedAt := s.cycle })).runFirebox d

/-- An idle or held lease with commands asks for the array (09 R197). -/
def State.enterArray (s : State) (d : DieId) (l : Lease) : State :=
  match (s.dieAt d).firebox.holder with
  | none => (s.putLease d l).grantArray d l.num
  | some _ => s.putLease d { l with state := .waiting, since := s.cycle }

/-! ### Tiles and stages as the queued commands leave them -/

/-- The q96 tile that slot `n` belongs to, if any (09 R205, R209). -/
def q96Base (types : Vector SlotType 12) (n : Nat) : Option Nat :=
  match types[n]?, types[n - n % 3]? with
  | some (.q96 _), _ => some n
  | some .q96later, some (.q96 _) => some (n - n % 3)
  | _, _ => none

/-- Slots `n` up to `n + count - 1` become f32, with the whole of every q96 tile that one of them belongs to. -/
def releaseSlots (types : Vector SlotType 12) (n : Nat) : Nat → Vector SlotType 12
  | 0 => types
  | count + 1 =>
    let slot := n + count
    let t := match q96Base types slot with
      | some b => ((types.setIfInBounds b .f32).setIfInBounds (b + 1) .f32).setIfInBounds (b + 2) .f32
      | none => types.setIfInBounds slot .f32
    releaseSlots t n count

/-- The types that MZERO leaves (09 R209). -/
def zeroTypes (types : Vector SlotType 12) (n : Nat) (q96 : Bool) (accexp : Int) : Vector SlotType 12 :=
  if q96 then
    (((releaseSlots types n 3).setIfInBounds n (.q96 accexp)).setIfInBounds (n + 1) .q96later).setIfInBounds (n + 2) .q96later
  else releaseSlots types n 1

/-- What the checks of R205 ask of a stage load: type, rows, and K or columns. -/
structure StageShape where
  ty : BitVec 5
  rows : Nat
  count : Nat
  deriving DecidableEq, Repr

/-- The tile types and last stage loads that the lease will have once its queued commands have run (09 R205). -/
structure LeaseView where
  types : Vector SlotType 12
  a : Option StageShape
  b : Option StageShape

/-- The view after one queued command. -/
def LeaseView.after (v : LeaseView) (c : MCmd) : LeaseView :=
  match decode c.word with
  | .ok (.mzero f) => { v with types := zeroTypes v.types f.tile.toNat (f.ty == 19) (c.sa.extractLsb' 0 16).toInt }
  | .ok (.mlda f) => { v with a := some ⟨f.ty, c.mtm.toNat, c.mtk.toNat⟩ }
  | .ok (.mldb f) => { v with b := some ⟨f.ty, c.mtk.toNat, c.mtn.toNat⟩ }
  | _ => v

/-- The shape of a stage. -/
def Stage.shape (g : Stage) : StageShape := ⟨g.ty, g.rows, g.count⟩

/-- The view of a lease. -/
def Lease.view (l : Lease) : LeaseView :=
  l.queue.foldl LeaseView.after ⟨l.types, l.stageA.map Stage.shape, l.stageB.map Stage.shape⟩

/-! ### Faults (09 R216, R217) -/

/-- Deliver a held fault: a precise trap at the executing instruction (09 R216). -/
def State.deliverFault (s : State) (d : DieId) (l : Lease) (q : MFault) : Effect :=
  let t := (s.putLease d { l with fault := some { q with delivered := true } }).modCtx (fun x => { x with
    mkvalid := true
    mkpos := BitVec.ofNat 16 q.pos
    mstat := ⟨q.cause, 1, q.faddr⟩ })
  .trap t q.cause (match l.queue with
    | c :: _ => c.pc
    | [] => 0)

/-- The stage of a load's command with those of the `first` lowest rows that it has; the rows from there up are read, or read
as zero (09 R217; 17 R395). -/
def MCmd.stage (c : MCmd) (old : Option Stage) (ty : BitVec 5) (isA : Bool) (first : Nat) : Stage :=
  let rows := if isA then c.mtm.toNat else c.mtk.toNat
  let data := match old with
    | some g => g.data
    | none => []
  ⟨c.sa, c.sb, ty, rows, if isA then c.mtk.toNat else c.mtn.toNat, (List.range (min first rows)).map (fun i => data[i]?.getD [])⟩

/-- The lease without its held commands: a stage load that faulted keeps its rows and K, and its elements below its POS
(09 R217). -/
def Lease.discard (l : Lease) : Lease :=
  let load := match l.queue with
    | c :: _ => match decode c.word with
      | .ok (.mlda f) => { l with stageA := some (c.stage l.stageA f.ty true l.pos) }
      | .ok (.mldb f) => { l with stageB := some (c.stage l.stageB f.ty false l.pos) }
      | _ => l
    | [] => l
  { load with fault := none, pos := 0, queue := [], state := .idle }

/-- After delivery: resume from MKSTART.POS, or discard the held commands (09 R217). -/
def State.resumeLease (s : State) (d : DieId) (l : Lease) : State :=
  let x := s.ctx
  let t := s.modCtx (fun y => { y with mkvalid := false, mkpos := 0 })
  if x.mkvalid && !l.queue.isEmpty then t.enterArray d { l with fault := none, pos := x.mkpos.toNat }
  else t.putLease d l.discard

/-- Steps 1 and 2 of R205: a lease is held, and a fault that it holds is delivered, or its commands resume. -/
def State.withLease (s : State) (i : Instr) (k : State → DieId → Lease → Effect) : Effect :=
  let x := s.ctx
  let d := dieOf s.cur.1
  match s.lease with
  | none =>
    if x.mstat.lstate == 3 then .trap (s.modCtx (fun y => { y with mstat := { y.mstat with lstate := 0 } })) 0x0E 0
    else illegal s i
  | some l =>
    match l.fault with
    | none => k s d l
    | some q =>
      if !q.delivered then s.deliverFault d l q
      else
        let t := s.resumeLease d l
        match t.lease with
        | some m => k t d m
        | none => illegal t i

/-- A matrix instruction: no handler context executes one, and a region aborts with VECTOR (17 R393). -/
def State.issueMatrix (s : State) (i : Instr) (f : FX) (srcs : List (BitVec 6)) (dst : Option (BitVec 6)) (priv : Mode)
    (body : State → Effect) : Out :=
  s.issue i f.ctl { srcs := srcs, dst := dst, priv := priv, handler := false, forbid := some 3 } body

/-! ### Pointers and operands (09 R205 steps 4 and 5) -/

/-- The pointer of MLDA, MLDB and MOUT against TYPE by the table of 05 R102, as 09 R205 step 4 says; a pointer tagged bq8 or bq4 is
accepted with any BLK, though 05 R100 asks for L = 3 (DEDUCED, log 63). -/
def pointerStop (p : Word) (ty : BitVec 5) : Option (BitVec 8 × Word) :=
  if !pointerOk p then some (0x05, p)
  else match loadType p ty with
    | .ok _ => none
    | .error v => some (0x03, v)

/-- A scale-array pointer of MMAB: untagged, or tagged s8 with L = 3. -/
def scaleStop (p : Word) : Option (BitVec 8 × Word) :=
  if !pointerOk p then some (0x05, p)
  else match pointerTag p with
    | none => none
    | some g => if g == 0x93 then none else some (0x03, mismatch p 0x93)

/-- An operand that is no multiple of the element size: the operand is TRAPVAL. -/
def alignStop (v : Word) (address : Bool) (n : Nat) : Option (BitVec 8 × Word) :=
  if (if address then pointerAddr v else v.toInt.natAbs) % n == 0 then none else some (0x04, v)

/-- The first stop of a list, or the rest. -/
def orStop (s : State) (stops : List (Option (BitVec 8 × Word))) (k : Effect) : Effect :=
  match stops.findSome? (fun o => o) with
  | some (c, v) => .trap s c v
  | none => k

/-- Bytes of an element of a matrix operand, 1 for bq4 (09 R205; 17 R395, R399). -/
def matrixBytes (ty : BitVec 5) : Nat := elemBytes (WellFormed.width ty.toNat)

/-- The K elements of an array step, 16 / w (09 R207). -/
def stepElems (ty : BitVec 5) : Nat := 16 / WellFormed.width ty.toNat

/-- Steps 1 and 2 of R205 for a queued instruction, whose context is not ready while the lease's queue holds 16 commands
(09 R204). -/
def State.withRoom (s : State) (i : Instr) (k : State → DieId → Lease → Effect) : Effect :=
  s.withLease i (fun t d l => if 16 ≤ l.queue.length then .retry t .queueRoom else k t d l)

/-- Queue a command with its captured operands (09 R204). -/
def State.queueMatrix (s : State) (d : DieId) (l : Lease) (word : Word) (sa sb sc : Word) : Effect :=
  let x := s.ctx
  let m := { l with queue := l.queue ++ [⟨x.pc, word, sa, sb, sc, x.mtm, x.mtn, x.mtk⟩] }
  .next (if l.state = .idle then s.enterArray d m else s.putLease d m)

/-! ### The instructions -/

/-- MLEASE (09 R194; 17 R396). -/
def execMlease (f : FX) (s : State) : Out :=
  s.issueMatrix (.mlease f) f [f.sa] (some f.sd) .program (fun t =>
    let v := t.rs f.sa
    let n := v.toNat
    let x := t.ctx
    if x.hopped.isSome || n == 0 || 12 < n || x.holdsLease then illegal t (.mlease f)
    else
      let d := dieOf t.cur.1
      let u := if x.mstat.lstate == 3 then t.modCtx (fun y => { y with mstat := { y.mstat with lstate := 0 } }) else t
      match u.grantNumber d n with
      | none => .next (u.wi f.sd 0)
      | some (num, launch) =>
        let w := u.modFirebox d (fun g =>
          { g with leases := g.leases ++ [Lease.fresh num n u.cur.1 u.cur.2 launch x.domain] })
        .next ((w.modCtx (fun y => { y with
          mlease := ⟨0, BitVec.ofNat 4 n, BitVec.ofNat 4 num⟩
          mstat := { y.mstat with lstate := 1 } })).wi f.sd (BitVec.ofNat 64 num)))

/-- MSHAPE (09 R206). -/
def execMshape (f : FX) (s : State) : Out :=
  s.issueMatrix (.mshape f) f [] (some f.sd) .program (fun t => .next (t.wi f.sd 0x1000200002000200))

/-- The K that MTILE grants (09 R207). -/
def tileK (ty : BitVec 5) (hob : Bool) (cycle k : Nat) : Nat :=
  let w := WellFormed.width ty.toNat
  let step := stepElems ty
  let q := if isBlocky ty.toNat then 24 else step
  let ka := 65536 / w
  let kb := 32768 / w
  let kmax := if hob then ka else min ka kb
  let granted := min k (kmax - kmax % q)
  if hob then
    let c := cycle % 32768
    let room := if c + 32 < 32512 then 32512 - c - 32 else 32512
    if 64 ≤ room then min granted (room * step - room * step % q) else granted
  else granted

/-- MTILE (09 R207; 17 R403). -/
def execMtile (f : FX) (s : State) : Out :=
  s.issueMatrix (.mtile f) f [f.sa, f.sb, f.sc] (some f.sd) .program (fun t =>
    t.withLease (.mtile f) (fun t _ _ =>
      let k := tileK f.ty (f.mode == 1) t.cycle (t.rs f.sc).toNat
      let u := t.modCtx (fun y => { y with
        mtm := BitVec.ofNat 64 (min (t.rs f.sa).toNat 512)
        mtn := BitVec.ofNat 64 (min (t.rs f.sb).toNat 512)
        mtk := BitVec.ofNat 64 k })
      .next (u.wi f.sd (BitVec.ofNat 64 k))))

/-- MZERO (09 R205, R209). -/
def execMzero (f : FX) (s : State) : Out :=
  s.issueMatrix (.mzero f) f [f.sa] none .program (fun t =>
    t.withRoom (.mzero f) (fun t d l =>
      let n := f.tile.toNat
      let v := t.rs f.sa
      let q96 := f.ty == 19
      if l.nslot ≤ n || (q96 && (n % 3 != 0 || l.nslot ≤ n + 2 || (v.extractLsb' 0 16).signExtend 64 != v)) then
        illegal t (.mzero f)
      else t.queueMatrix d l (encode (.mzero f)) v 0 0))

/-- A stage load: the checks of R205 and the queue entry; `mark` notes the load in the lease. -/
def State.stageLoad (s : State) (i : Instr) (f : FX) (mark : Lease → Lease) : Out :=
  s.issueMatrix i f [f.sa, f.sb] none .program (fun t =>
    t.withRoom i (fun t d l =>
      let n := matrixBytes f.ty
      orStop t [pointerStop (t.rs f.sa) f.ty, alignStop (t.rs f.sa) true n, alignStop (t.rs f.sb) false n]
        (t.queueMatrix d (mark l) (encode i) (t.rs f.sa) (t.rs f.sb) 0)))

/-- MLDA (17 R395). -/
def execMlda (f : FX) (s : State) : Out := s.stageLoad (.mlda f) f (fun l => { l with loadedA := true })

/-- MLDB (17 R395). -/
def execMldb (f : FX) (s : State) : Out := s.stageLoad (.mldb f) f (fun l => { l with loadedB := true })

/-- The illegal operands of MMA (block = false) and MMAB (09 R205 step 3). -/
def badProduct (x : Ctx) (l : Lease) (f : FX) (block : Bool) (hb : Nat) : Bool :=
  let n := f.tile.toNat
  let v := l.view
  let m := x.mtm.toNat
  let nn := x.mtn.toNat
  let k := x.mtk.toNat
  let hob := f.mode == 1
  let tileBad := match v.types[n]? with
    | some .f32 => block
    | some (.q96 _) => !block || n % 3 != 0 || l.nslot ≤ n + 2
    | _ => true
  let aBad := match v.a with
    | some g => g.ty != f.ty || g.rows < m || g.count < k
    | none => true
  let bBad := match v.b with
    | some g => g.ty != f.ty || g.rows < k || g.count < nn
    | none => true
  let d := stepElems f.ty
  l.nslot ≤ n || tileBad || (block && k % 24 != 0) || !l.loadedA || aBad || (!hob && (!l.loadedB || bBad)) ||
    (hob && 1572864 < hb + (k + d - 1) / d)

/-- MMA (17 R397). -/
def execMma (f : FX) (s : State) : Out :=
  s.issueMatrix (.mma f) f (if f.mode == 1 then [f.sc] else []) none .program (fun t =>
    t.withRoom (.mma f) (fun t d l =>
      if badProduct t.ctx l f false (t.rs f.sc).toNat then illegal t (.mma f)
      else t.queueMatrix d l (encode (.mma f)) 0 0 (t.rs f.sc)))

/-- MMAB (17 R398). -/
def execMmab (f : FX) (s : State) : Out :=
  s.issueMatrix (.mmab f) f (if f.mode == 1 then [f.sa, f.sb, f.sc] else [f.sa, f.sb]) none .program (fun t =>
    t.withRoom (.mmab f) (fun t d l =>
      if badProduct t.ctx l f true (t.rs f.sc).toNat then illegal t (.mmab f)
      else orStop t [scaleStop (t.rs f.sa), scaleStop (t.rs f.sb)]
        (t.queueMatrix d l (encode (.mmab f)) (t.rs f.sa) (t.rs f.sb) (t.rs f.sc))))

/-- MOUT: a dynamic mode is resolved into the captured word (09 R213; 17 R399). -/
def execMout (f : FX) (s : State) : Out :=
  s.issueMatrix (.mout f) f [f.sa, f.sb] none .program (fun t =>
    t.withRoom (.mout f) (fun t d l =>
      let n := f.tile.toNat
      let tileBad := match l.view.types[n]? with
        | some .f32 => false
        | some (.q96 _) => n % 3 != 0 || l.nslot ≤ n + 2
        | _ => true
      if l.nslot ≤ n || tileBad then illegal t (.mout f)
      else
        let size := matrixBytes f.ty
        orStop t [pointerStop (t.rs f.sa) f.ty, alignStop (t.rs f.sa) true size, alignStop (t.rs f.sb) false size]
          (t.rounded (.mout f) f.mode.toNat (fun mode =>
            t.queueMatrix d l (encode (.mout { f with mode := BitVec.ofNat 6 mode })) (t.rs f.sa) (t.rs f.sb) 0))))

/-- The lease has commands that have not completed (09 R215). -/
def Lease.pending (l : Lease) : Bool := !l.queue.isEmpty

/-- DIE scope (07 R147). -/
def dieScopeWord : Word := 0x0200000000000000

/-- MWAIT (09 R215; 17 R406). -/
def execMwait (f : FX) (s : State) : Out :=
  s.issueMatrix (.mwait f) f [] none .program (fun t =>
    t.withLease (.mwait f) (fun t d l =>
      if l.pending then .wait t .lease
      else
        let u := (t.putLease d { l with pflags := 0 }).modCtx (fun y => { y with mlease := { y.mlease with tflags := l.pflags } })
        .next (u.acquireSteps u.runCore dieScopeWord)))

/-- The context holds no lease any more (09 R196). -/
def Ctx.clearLease (x : Ctx) : Ctx := { x with mlease := ⟨0, 0, 0⟩, mstat := ⟨0, 0, 0⟩, mleaseSaved := false }

/-- MFREE (09 R196; 17 R394). -/
def execMfree (f : FX) (s : State) : Out :=
  s.issueMatrix (.mfree f) f [] none .program (fun t =>
    t.withLease (.mfree f) (fun t _ l =>
      if l.pending then .retry t .commands else .next ((t.dropLease t.cur.1 t.cur.2).modCtx Ctx.clearLease)))

/-! ### Saving and restoring a lease (09 R219, R220; 17 R401) -/

/-- Bytes of a lease image. -/
def leaseImageBytes (nslot : Nat) : Nat := 4096 + nslot * 2 ^ 20

/-- The two-bit codes of the tile types. -/
def typeCodes (l : Lease) : Nat :=
  (List.range 12).foldl (fun n i => n + (match l.types[i]? with
    | some (.q96 _) => 1
    | some .q96later => 2
    | _ => 0) * 4 ^ i) 0

/-- ACCEXP of each q96 tile, lowest first, 16 bits each. -/
def accexpWord (l : Lease) : Nat :=
  packList 16 ((List.range 12).filterMap (fun i =>
    let ty : Option SlotType := l.types[i]?
    match ty with
    | some (.q96 e) => some (e % 2 ^ 16).toNat
    | _ => none))

/-- The four words of a stage load. The third holds type, rows, K and columns in 16 bits each, the type highest;
the count that the load does not have holds the rows that the stage really holds (log 33). -/
def stageWords (g : Option Stage) (isA : Bool) : List Nat :=
  match g with
  | none => [0, 0, 0, 0]
  | some g =>
    let kept := g.data.length
    [g.addr.toNat, g.pitch.toNat,
     g.ty.toNat * 2 ^ 48 + (if isA then g.rows * 2 ^ 32 + g.count * 2 ^ 16 + kept else kept * 2 ^ 32 + g.rows * 2 ^ 16 + g.count), 0]

/-- The eight words of a queued command. -/
def MCmd.words (c : MCmd) : List Nat :=
  [c.pc.toNat, c.word.toNat, c.sa.toNat, c.sb.toNat, c.sc.toNat, c.mtm.toNat, c.mtn.toNat, c.mtk.toNat]

/-- A fault of the lease has been delivered, and its commands are still held (09 R217). -/
def Lease.delivered (l : Lease) : Bool := l.fault.any (fun q => q.delivered)

/-- The header of a lease image. MSTAT has a fault that is held and not yet delivered, with LSTATE 2. Above the register's VALID
and POS, bit 62 of the word of MKSTART says that a delivered fault holds the commands, and bits 47:32 have the position that the
first command has reached (log 33). -/
def leaseHeader (x : Ctx) (l : Lease) : List Nat :=
  let mstat := match l.fault with
    | some q => if q.delivered then x.mstat else ⟨q.cause, 2, q.faddr⟩
    | none => x.mstat
  let mk := bit01 x.mkvalid * 2 ^ 63 + bit01 l.delivered * 2 ^ 62 + l.pos % 2 ^ 16 * 2 ^ 32 + x.mkpos.toNat
  [x.mlease.word.toNat, mstat.word.toNat, mk, l.pflags.toNat, typeCodes l, accexpWord l] ++
  stageWords l.stageA true ++ stageWords l.stageB false ++ [l.queue.length] ++ List.replicate 17 0 ++
  l.queue.flatMap MCmd.words

/-- The tile elements in their places in an image. -/
def tileBytes (l : Lease) : Nat :=
  l.tiles.foldl (fun n e =>
    let slot := e.1 / 2 ^ 18
    let size := match l.types[slot]? with
      | some (.q96 _) => 12
      | _ => 4
    n + e.2.toNat <<< (8 * (slot * 2 ^ 20 + size * (e.1 % 2 ^ 18)))) 0

/-- A lease image as one little-endian number. -/
def leaseImage (x : Ctx) (l : Lease) : Nat := packList 64 (leaseHeader x l) + tileBytes l <<< (8 * 4096)

/-- Word `i` of an image. -/
def imageWord (img i : Nat) : Nat := (img >>> (64 * i)) % 2 ^ 64

/-- The words that the table does not name, or the commands beyond the count, are not all zero. -/
def leaseImageBad (img : Nat) : Bool :=
  let count := imageWord img 14
  16 < count || (List.range 512).any (fun i =>
    imageWord img i != 0 && (i == 9 || i == 13 || (15 ≤ i && i < 32) || 32 + 8 * count ≤ i))

/-- The tile types that an image holds. -/
def imageTypes (img : Nat) : Vector SlotType 12 :=
  let code := fun i => imageWord img 4 / 4 ^ i % 4
  Vector.ofFn (fun i =>
    if code i.val == 1 then
      let order := (List.range i.val).countP (fun j => code j == 1)
      .q96 ((BitVec.ofNat 16 (imageWord img 5 / 2 ^ (16 * order))).toInt)
    else if code i.val == 2 then .q96later else .f32)

/-- A stage that an image holds; its rows, zeros here, are read again before the next command. -/
def imageStage (img i : Nat) (isA : Bool) : Option Stage :=
  let w := imageWord img (i + 2)
  let field := fun k => w / 2 ^ (16 * k) % 2 ^ 16
  if field 3 == 0 then none
  else
    let kept := if isA then field 0 else field 2
    some ⟨BitVec.ofNat 64 (imageWord img i), BitVec.ofNat 64 (imageWord img (i + 1)), BitVec.ofNat 5 (field 3),
      if isA then field 2 else field 1, if isA then field 1 else field 0,
      List.replicate kept (List.replicate (if isA then field 1 else field 0) 0)⟩

/-- Command `i` of an image. -/
def imageCommand (img i : Nat) : MCmd :=
  let w := fun k => BitVec.ofNat 64 (imageWord img (32 + 8 * i + k))
  ⟨w 0, w 1, w 2, w 3, w 4, w 5, w 6, w 7⟩

/-- The elements of slot `slot` of an image, as the list of a lease holds them. -/
def imageTiles (img : Nat) (types : Vector SlotType 12) (nslot : Nat) : List (Nat × BitVec 96) :=
  let data := img >>> (8 * 4096)
  (List.range nslot).flatMap (fun slot =>
    let ty : Option SlotType := types[slot]?
    match ty with
    | some .q96later => []
    | t =>
      let size := match t with
        | some (.q96 _) => 12
        | _ => 4
      ((List.range (2 ^ 18)).map (fun i =>
        (slot * 2 ^ 18 + i, BitVec.ofNat 96 ((data >>> (8 * (slot * 2 ^ 20 + size * i))) % 2 ^ (8 * size))))).filter
          (fun e => e.2 != 0))

/-- The lease that an image holds, under another number. -/
def imageLease (img num nslot : Nat) (core : CoreId) (ctx : CtxId) (launch : Nat) (domain : BitVec 16) : Lease :=
  let pos := imageWord img 2 / 2 ^ 32 % 2 ^ 16
  let delivered := imageWord img 2 / 2 ^ 62 % 2 == 1
  let held : Option MFault :=
    if imageWord img 1 / 2 ^ 54 % 4 == 2 || delivered then
      some ⟨BitVec.ofNat 8 (imageWord img 1 / 2 ^ 56), BitVec.ofNat 52 (imageWord img 1), pos, delivered⟩
    else none
  { Lease.fresh num nslot core ctx launch domain with
    state := if held.isSome then .held else .idle
    queue := (List.range (imageWord img 14)).map (imageCommand img)
    pos := pos
    pflags := BitVec.ofNat 5 (imageWord img 3)
    types := imageTypes img
    tiles := imageTiles img (imageTypes img) nslot
    stageA := imageStage img 6 true
    stageB := imageStage img 10 false
    fault := held }

/-- Put a restored lease on its die; it asks for the array when it has commands and no fault is held. -/
def State.restoreLease (s : State) (d : DieId) (l : Lease) : State :=
  let t := s.modFirebox d (fun f => { f with leases := f.leases ++ [l] })
  if l.fault.isNone && !l.queue.isEmpty then t.enterArray d l else t

/-- The context holds a restored lease under its number (09 R220). -/
def Ctx.relet (x : Ctx) (num : Nat) : Ctx :=
  { x with mlease := { x.mlease with lease := BitVec.ofNat 4 num }, mleaseSaved := false }

/-- The matrix registers that MREST rebuilds: FCAUSE and FADDR stay those of the last fault delivered (09 R200) where the
image holds another (log 33). -/
def Ctx.restoreMatrix (x : Ctx) (img num : Nat) : Ctx :=
  { x.relet num with
    mlease := ⟨BitVec.ofNat 5 (imageWord img 0 / 2 ^ 16), x.mlease.nslot, BitVec.ofNat 4 num⟩
    mstat := if imageWord img 1 / 2 ^ 54 % 4 == 2 then { x.mstat with lstate := 2 }
      else ⟨BitVec.ofNat 8 (imageWord img 1 / 2 ^ 56), BitVec.ofNat 2 (imageWord img 1 / 2 ^ 54), BitVec.ofNat 52 (imageWord img 1)⟩
    mkvalid := imageWord img 2 / 2 ^ 63 == 1
    mkpos := BitVec.ofNat 16 (imageWord img 2) }

/-- The lease is revoked (09 R219). -/
def Ctx.revoke (x : Ctx) : Ctx :=
  { x with mlease := ⟨0, 0, 0⟩, mstat := { x.mstat with lstate := 3 }, mleaseSaved := false }

/-- MSAVE (09 R220; 17 R401). One step runs a whole command of the array, so none is in progress between two steps, and the
queued commands travel in the image (log 33). -/
def execMsave (f : FX) (s : State) : Out :=
  s.issueMatrix (.msave f) f [f.sa] none .supervisor (fun t =>
    t.withLease (.msave f) (fun t d l =>
      let p := t.rs f.sa
      orStop t [if pointerOk p then none else some (0x05, p), alignStop p true 4096]
        (match t.unitWriteAt d l.domain rightW (some t.cur) (pointerAddr p) (leaseImageBytes l.nslot) (leaseImage t.ctx l) with
         | .error e => t.accessTrap e.cause.1 e.cause.2
         | .ok u => .next ((u.dropLease u.cur.1 u.cur.2).modCtx (fun y => { y with mleaseSaved := true })))))

/-- MREST (09 R220; 17 R401). -/
def execMrest (f : FX) (s : State) : Out :=
  s.issueMatrix (.mrest f) f [f.sa] none .supervisor (fun t =>
    let x := t.ctx
    let d := dieOf t.cur.1
    let p := t.rs f.sa
    if !x.mleaseSaved then t.withLease (.mrest f) (fun u _ _ => illegal u (.mrest f))
    else orStop t [if pointerOk p then none else some (0x05, p), alignStop p true 4096]
      (let n := x.mlease.nslot.toNat
       let g := (t.dieAt d).firebox
       match g.freeNumber with
       | none => .next (t.modCtx Ctx.revoke)
       | some num =>
         if 12 < g.slotsUsed + n then .next (t.modCtx Ctx.revoke)
         else match t.unitReadAt d x.domain rightR (pointerAddr p) (leaseImageBytes n) with
           | .error e => t.accessTrap e.cause.1 e.cause.2
           | .ok (img, u) =>
             if leaseImageBad img then illegal u (.mrest f)
             else
               let launch := match (u.coreAt u.cur.1).placed with
                 | some q => q.launch
                 | none => 0
               .next ((u.restoreLease d (imageLease img num n u.cur.1 u.cur.2 launch x.domain)).modCtx
                 (fun y => y.restoreMatrix img num))))

/-! ### The end of a context -/

/-- The end of the executing context, its lease given up as MFREE would: its commands complete first, and a fault
that it holds is reported to the die's firmware (09 R196; 16 R368). -/
def State.endSelf (s : State) : Effect :=
  let d := dieOf s.cur.1
  let done := fun t : State =>
    Effect.leave ((if t.ctx.hopped.isSome then t.releaseSteps t.runCore packageScope else t).endContext t.cur.1 t.cur.2)
  match s.lease with
  | none => done s
  | some l =>
    match l.fault with
    | some q =>
      if q.delivered then .retry (s.resumeLease d l) .commands
      else done (s.report (.matrixFaultDropped d.val l.num q.cause))
    | none => if l.pending then .retry s .commands else done s

/-- HEND (02 R26; 16 R368). -/
def execHend (f : SR) (s : State) : Out :=
  s.issue (.hend f) f.ctl { forbid := some 10 } (fun t =>
    let u := t.drainVector
    if u.inHandler then .leave u.endHandler
    else if u.cur.2.val == 0 && (u.coreAt u.cur.1).helperActive then .wait u .helpersEnded
    else u.endSelf)

end Sys2Proof.Machine
end

