-- ==== Sys2Proof/Machine/Firebox.lean ====
section
/-! DEFINITION. The Firebox at work: one command at a time for the lease that holds the array, stage refills, and
the events of the array and the Hob (05 R103 to R107, R110; 06 R138; 09 R197 to R199, R208 to R217). -/
namespace Sys2Proof.Machine
open Sys2Proof

/-- What a command has done: the state, its lease, and the fault that stopped it with its cause, data address and
restart position (09 R216). -/
structure Ran where
  s : State
  l : Lease
  fault : Option (BitVec 8 × Word × Nat) := none

/-- A memory access stopped the command at position `pos`; an uncorrectable error is reported (06 R130). -/
def Ran.stopped (r : Ran) (d : DieId) (s : State) (e : Stop) (pos : Nat) : Ran :=
  { r with
    s := if e.cause.1 = 0x08 then s.noteBad d r.l.domain e.cause.2.toNat else s
    fault := some (e.cause.1, e.cause.2, pos) }

/-- The owner of a lease, as a writer. -/
def Lease.owner (l : Lease) : CoreId × CtxId := (l.core, l.ctx)

/-! ### Stages (09 R199, R208; 17 R395) -/

/-- Read one row of a stage. -/
def State.readRow (s : State) (d : DieId) (l : Lease) (g : Stage) (row : Nat) : Except Stop (List Nat × State) :=
  let w := WellFormed.width g.ty.toNat
  match s.unitReadAt d l.domain (rightR + rightM) ((pointerAddr g.addr : Int) + row * g.pitch.toInt) ((g.count * w + 7) / 8) with
  | .error e => .error e
  | .ok (v, t) => .ok (unpackElems w g.count v, t)

/-- Read `n` rows from row `r` into a stage, after the rows it has: the rows read, and the stop that ended it early. -/
def State.readRows (d : DieId) (l : Lease) : Nat → Nat → State → Stage → State × Stage × Option Stop
  | 0, _, s, g => (s, g, none)
  | n + 1, r, s, g =>
    match s.readRow d l g r with
    | .error e => (s, g, some e)
    | .ok (xs, t) => State.readRows d l n (r + 1) t { g with data := g.data ++ [xs] }

/-- Read those of a stage's rows again that it holds, from row `r` up; a row without elements was never loaded
(09 R199, R217). -/
def State.rereadRows (d : DieId) (l : Lease) (g : Stage) : List (List Nat) → Nat → State → State × Except Stop (List (List Nat))
  | [], _, s => (s, .ok [])
  | x :: xs, r, s =>
    let row := if x.isEmpty then .ok ([], s) else s.readRow d l g r
    match row with
    | .error e => (s, .error e)
    | .ok (y, t) =>
      let rest := State.rereadRows d l g xs (r + 1) t
      (rest.1, rest.2.map (fun ys => y :: ys))

/-- Read a stage's rows again. Of the two values that 09 R199 allows a word to hold, the one first read and the one that the refill
reads, it is always the refill's (DESIGN CHOICE, log 64). -/
def State.refillStage (s : State) (d : DieId) (l : Lease) (g : Option Stage) : State × Option Stage × Option Stop :=
  match g with
  | none => (s, none, none)
  | some g =>
    match State.rereadRows d l g g.data 0 s with
    | (t, .ok rows) => (t, some { g with data := rows }, none)
    | (t, .error e) => (t, some g, some e)

/-- Refill both stages when another lease has used the array since (09 R199). -/
def State.refill (s : State) (d : DieId) (l : Lease) : State × Lease × Option Stop :=
  if (s.dieAt d).firebox.stageOwner == some l.num then (s, l, none)
  else
    match s.refillStage d l l.stageA with
    | (t, _, some e) => (t, l, some e)
    | (t, a, none) =>
      match t.refillStage d l l.stageB with
      | (u, _, some e) => (u, l, some e)
      | (u, b, none) => (u, { l with stageA := a, stageB := b }, none)

/-- A stage load from row `pos`; rows below it that were not loaded stay empty (09 R217; 17 R395). -/
def runStageLoad (d : DieId) (s : State) (l : Lease) (c : MCmd) (ty : BitVec 5) (isA : Bool) : Ran :=
  let g := c.stage (if isA then l.stageA else l.stageB) ty isA l.pos
  let r := State.readRows d l (g.rows - g.data.length) g.data.length s g
  let m := if isA then { l with stageA := some r.2.1 } else { l with stageB := some r.2.1 }
  match r.2.2 with
  | none => ⟨r.1, m, none⟩
  | some e => (Ran.mk r.1 m none).stopped d r.1 e r.2.1.data.length

/-- Element `j` of row `i` of a stage; a row that the stage does not hold reads as zero (09 R217). -/
def Stage.at_ (g : Option Stage) (i j : Nat) : Nat :=
  match g with
  | some h => (h.data[i]?.getD [])[j]?.getD 0
  | none => 0

/-- B[k][n] of a Hob operand with base row `hb` (09 R208). -/
def State.hobElem (s : State) (d : DieId) (ty : BitVec 5) (hb k n : Nat) : Nat :=
  let w := WellFormed.width ty.toNat
  let step := stepElems ty
  (s.hobRead d ((hb + k / step) * 1024 + 2 * n) 2 >>> (k % step * w)) % 2 ^ w

/-- The least slice below `n` whose cell in Hob row `row` is uncorrectable. -/
def State.hobBadSlice (s : State) (d : DieId) (row n : Nat) : Option Nat :=
  (List.range n).find? (fun j => (s.dieAt d).firebox.hobBad.any (fun o => o / 1024 == row && o / 2 % 512 == j))

/-! ### MMA (05 R107; 09 R210) -/

/-- The exact product of two elements, with the flags of an invalid one. -/
def exactProduct (k : Fmt) (a b : Nat) : FVal × Nat :=
  let va := k.decode false a
  let vb := k.decode false b
  if va.isNan || vb.isNan then (.nan false, sigFlag va ||| sigFlag vb)
  else match exactMul va vb with
    | some p => (p, 0)
    | none => (.nan false, NV)

/-- rne32 of a sum of exact values (05 R107). -/
def sumF32 (a b : FVal) : FRes := if a.isNan || b.isNan then ⟨f32.nan, sigFlag a ||| sigFlag b⟩ else f32.sum 0 false a b

/-- The products from step `k` below `kend` added to an accumulator, one by one or in pairs. -/
def mmaSum (k : Fmt) (pairs : Bool) (a b : Nat → Nat) (kend : Nat) : Nat → Nat → FRes → FRes
  | 0, _, acc => acc
  | fuel + 1, i, acc =>
    if kend ≤ i then acc
    else
      let p := exactProduct k (a i) (b i)
      if pairs then
        let q := if i + 1 < kend then exactProduct k (a (i + 1)) (b (i + 1)) else (.fin false 0 0, 0)
        let t := sumF32 p.1 q.1
        let r := sumF32 (f32.decode false acc.bits) (f32.decode false t.bits)
        mmaSum k pairs a b kend fuel (i + 2) ⟨r.bits, acc.flags ||| p.2 ||| q.2 ||| t.flags ||| r.flags⟩
      else
        let r := sumF32 (f32.decode false acc.bits) p.1
        mmaSum k pairs a b kend fuel (i + 1) ⟨r.bits, acc.flags ||| p.2 ||| r.flags⟩

/-- Change the elements (m, n), m below `rows` and n below `cols`, of a tile; flags are collected. -/
def tileMap (tiles : List (Nat × BitVec 96)) (slot rows cols : Nat) (g : Nat → Nat → BitVec 96 → BitVec 96 × Nat) :
    List (Nat × BitVec 96) × Nat :=
  (List.range rows).foldl (fun r m => (List.range cols).foldl (fun q n =>
    let key := tileKey slot m n
    let x := g m n (tileGet tiles key)
    (tileSet q.1 key x.1, q.2 ||| x.2)) r) (tiles, 0)

/-- The first step of array rows, from step `pos`, whose Hob row is uncorrectable, with the failing cell's byte
offset (09 R200, R216). -/
def State.hobStop (s : State) (d : DieId) (ty : BitVec 5) (hb cols kmax : Nat) : Nat → Nat → Option (Nat × Nat)
  | 0, _ => none
  | fuel + 1, k =>
    if kmax ≤ k then none
    else match s.hobBadSlice d (hb + k / stepElems ty) cols with
      | some j => some (k, (hb + k / stepElems ty) * 1024 + 2 * j)
      | none => s.hobStop d ty hb cols kmax fuel (k + stepElems ty)

/-- Run MMA from K step `pos` (09 R210; 17 R397). -/
def runMma (d : DieId) (s : State) (l : Lease) (c : MCmd) (f : FX) : Ran :=
  let m := c.mtm.toNat
  let n := c.mtn.toNat
  let k := c.mtk.toNat
  if m == 0 || n == 0 || k == 0 then ⟨s, l, none⟩
  else
    let hob := f.mode == 1
    let hb := c.sc.toNat
    let stop := if hob then s.hobStop d f.ty hb n k (k + 1) l.pos else none
    let kend := match stop with
      | some q => q.1
      | none => k
    let b := fun i j => if hob then s.hobElem d f.ty hb i j else Stage.at_ l.stageB i j
    let r := tileMap l.tiles f.tile.toNat m n (fun i j old =>
      let x := mmaSum (fmtOf f.ty.toNat) (f.ty == 12 || f.ty == 13) (fun q => Stage.at_ l.stageA i q) (fun q => b q j) kend
        (kend + 1) l.pos ⟨old.toNat, 0⟩
      (BitVec.ofNat 96 x.bits, x.flags))
    ⟨s, { l with tiles := r.1, pflags := l.pflags ||| BitVec.ofNat 5 r.2 },
      stop.map (fun q => (0x08, BitVec.ofNat 64 q.2, q.1))⟩

/-! ### MMAB (05 R103 to R106; 09 R211) -/

/-- The channel residue of 24 products for a modulus (05 R103). -/
def residue (md : Int) (a b : Nat → Int) : Nat → Int → Int
  | 0, r => r
  | n + 1, r => residue md a b n ((r + (a (23 - n) % md) * (b (23 - n) % md)) % md)

/-- The sum that the three main channels give (05 R104). -/
def reconstruct (r127 r128 r129 : Int) : Int :=
  let x := (r127 * 1056768 + r128 * 2080641 + r129 * 1056640) % 2097024
  if 1048512 ≤ x then x - 2097024 else x

/-- The block sum with its check; `err` is what a soft error adds to channel 127. None is an array check
(05 R105). -/
def blockResult (a b : Nat → Int) (err : Int) : Option Int :=
  let x := reconstruct ((residue 127 a b 24 0 + err) % 127) (residue 128 a b 24 0) (residue 129 a b 24 0)
  if x % 125 == residue 125 a b 24 0 then some x else none

/-- Add a block to a q96 element (05 R106): the new value and the flags. -/
def q96Add (acc : Int) (sum : Int) (sa sb : Nat) (accexp : Int) : Int × Nat :=
  let void := sa == 255 || sb == 255
  let sh : Int := (sa : Int) + sb - 254 - accexp
  let r := roundAt 0 (sum < 0) sum.natAbs sh false 0
  let v : Int := if void then 0 else if sum < 0 then -(r.1 : Int) else r.1
  let t := acc + v
  let lim : Int := 2 ^ 95 - 1
  (max (-lim) (min lim t), (if void then NV else 0) ||| (if lim < t || t < -lim then OF else 0))

/-- Read the scale bytes of block `j` for `n` rows or columns. -/
def State.readScales (d : DieId) (l : Lease) (p : Word) (blocks j : Nat) : Nat → Nat → State → Except Stop (List Nat × State)
  | 0, _, s => .ok ([], s)
  | n + 1, i, s =>
    match s.unitReadAt d l.domain (rightR + rightM) ((pointerAddr p : Int) + i * blocks + j) 1 with
    | .error e => .error e
    | .ok (v, t) =>
      match State.readScales d l p blocks j n (i + 1) t with
      | .error e => .error e
      | .ok (vs, u) => .ok (v :: vs, u)

/-- The soft error that strikes block `j`, if any. -/
def Firebox.softError (f : Firebox) (j : Nat) : Int :=
  match f.arrayBad.find? (fun e => e.1 == j) with
  | some e => e.2
  | none => 0

/-- Add the blocks from block `j` up (09 R211). Where one block meets several faults, the one recorded is the first of an
uncorrectable Hob cell, the scales of A, those of B, and the residue check: no rule orders them (DESIGN CHOICE, log 66). -/
def runBlocks (d : DieId) (c : MCmd) (f : FX) (accexp : Int) (b : State → Nat → Nat → Nat) : Nat → Nat → Ran → Ran
  | 0, _, r => r
  | n + 1, j, r =>
    let w := WellFormed.width f.ty.toNat
    let rows := c.mtm.toNat
    let cols := c.mtn.toNat
    let blocks := c.mtk.toNat / 24
    let hobStop := if f.mode == 1 then r.s.hobStop d f.ty c.sc.toNat cols (24 * j + 24) 25 (24 * j) else none
    match hobStop with
    | some q => { r with fault := some (0x08, BitVec.ofNat 64 q.2, 24 * j) }
    | none =>
      match State.readScales d r.l c.sa blocks j rows 0 r.s with
      | .error e => r.stopped d r.s e (24 * j)
      | .ok (sa, s1) =>
        match State.readScales d r.l c.sb blocks j cols 0 s1 with
        | .error e => r.stopped d s1 e (24 * j)
        | .ok (sb, s2) =>
          let err := (s2.dieAt d).firebox.softError j
          let sum := fun i k => blockResult (fun q => intVal true w (Stage.at_ r.l.stageA i (24 * j + q)))
            (fun q => intVal true w (b s2 (24 * j + q) k)) err
          if (List.range rows).any (fun i => (List.range cols).any (fun k => (sum i k).isNone)) then
            { r with
              s := s2.modFirebox d (fun g => { g with arrayBad := g.arrayBad.filter (fun e => e.1 != j) })
              fault := some (0x0D, 0, 24 * j) }
          else
            let t := tileMap r.l.tiles f.tile.toNat rows cols (fun i k old =>
              let x := q96Add old.toInt ((sum i k).getD 0) (sa[i]?.getD 0) (sb[k]?.getD 0) accexp
              (BitVec.ofInt 96 x.1, x.2))
            runBlocks d c f accexp b n (j + 1)
              { r with s := s2, l := { r.l with tiles := t.1, pflags := r.l.pflags ||| BitVec.ofNat 5 t.2 } }

/-- Run MMAB from position `pos` (17 R398). -/
def runMmab (d : DieId) (s : State) (l : Lease) (c : MCmd) (f : FX) : Ran :=
  if c.mtm == 0 || c.mtn == 0 then ⟨s, l, none⟩
  else
    let accexp := match l.types[f.tile.toNat]? with
      | some (.q96 e) => e
      | _ => 0
    let b := fun (t : State) (i j : Nat) =>
      if f.mode == 1 then t.hobElem d f.ty c.sc.toNat i j else Stage.at_ l.stageB i j
    runBlocks d c f accexp b (c.mtk.toNat / 24 - l.pos / 24) (l.pos / 24) ⟨s, l, none⟩

/-! ### MOUT (05 R110; 17 R399) -/

/-- One tile element in the destination type. -/
def outElem (ty : BitVec 5) (mode : Nat) (slot : Option SlotType) (v : BitVec 96) : FRes :=
  match slot with
  | some (.q96 e) =>
    let a := v.toInt
    if ty == 4 then dyadicToInt true 32 mode (a < 0) a.natAbs e else (fmtOf ty.toNat).round mode false (a < 0) a.natAbs e false
  | _ => if ty == 10 then ⟨v.toNat % 2 ^ 32, 0⟩ else convert ty.toNat 10 mode false (v.toNat % 2 ^ 32)

/-- Write `n` rows from row `m`. -/
def runRows (d : DieId) (c : MCmd) (f : FX) : Nat → Nat → Ran → Ran
  | 0, _, r => r
  | n + 1, m, r =>
    let cols := c.mtn.toNat
    let size := matrixBytes f.ty
    let slot := r.l.types[f.tile.toNat]?
    let xs := (List.range cols).map (fun j => outElem f.ty f.mode.toNat slot (tileGet r.l.tiles (tileKey f.tile.toNat m j)))
    match r.s.unitWriteAt d r.l.domain rightW (some r.l.owner) ((pointerAddr c.sa : Int) + m * c.sb.toInt) (cols * size)
        (packList (8 * size) (xs.map (fun x => x.bits))) with
    | .error e => r.stopped d r.s e m
    | .ok t =>
      runRows d c f n (m + 1)
        { r with s := t, l := { r.l with pflags := r.l.pflags ||| BitVec.ofNat 5 (xs.foldl (fun a x => a ||| x.flags) 0) } }

/-- Run MZERO: the tiles of the slots, and of every q96 tile that ends, are zero (09 R209). -/
def runMzero (l : Lease) (c : MCmd) (f : FX) : Lease :=
  let n := f.tile.toNat
  let q96 := f.ty == 19
  let bases := ((List.range (if q96 then 3 else 1)).filterMap (fun i => q96Base l.types (n + i)))
  let cleared := bases.foldl (fun t b => tileClear t b 3) (tileClear l.tiles n (if q96 then 3 else 1))
  { l with tiles := cleared, types := zeroTypes l.types n q96 (c.sa.extractLsb' 0 16).toInt }

/-- Run one command of a lease from its position. -/
def runMatrix (d : DieId) (s : State) (l : Lease) (c : MCmd) : Ran :=
  match decode c.word with
  | .ok (.mzero f) => ⟨s, runMzero l c f, none⟩
  | .ok (.mlda f) => runStageLoad d s l c f.ty true
  | .ok (.mldb f) => runStageLoad d s l c f.ty false
  | .ok (.mma f) => runMma d s l c f
  | .ok (.mmab f) => runMmab d s l c f
  | .ok (.mout f) => runRows d c f (c.mtm.toNat - l.pos) l.pos ⟨s, l, none⟩
  | _ => ⟨s, l, none⟩

/-- The word is a Hob form of MMA or MMAB. -/
def readsHob (w : Word) : Bool :=
  match decode w with
  | .ok (.mma f) => f.mode == 1
  | .ok (.mmab f) => f.mode == 1
  | _ => false

/-- The refresh window of 06 R138. -/
def inWindow (cycle : Nat) : Bool := 32512 ≤ cycle % 32768

/-! ### The array's events -/

/-- The lease that has waited longest for the array; of equals the lower number (09 R198). -/
def Firebox.nextWaiting (f : Firebox) : Option Lease :=
  (f.leases.filter (fun l => l.state == .waiting)).foldl (fun best l =>
    match best with
    | none => some l
    | some b => if l.since < b.since || (l.since == b.since && l.num < b.num) then some l else some b) none

/-- Give the free array to the lease that has waited longest. -/
def State.arbitrate (s : State) (d : DieId) : State :=
  let f := (s.dieAt d).firebox
  match f.holder, f.nextWaiting with
  | none, some l => s.grantArray d l.num
  | _, _ => s

/-- The holder's quantum is spent (09 R198). -/
def Firebox.spent (f : Firebox) (cycle : Nat) : Bool := 256 ≤ f.commands || f.grantedAt + 2 ^ 20 ≤ cycle

/-- ARRAY_GRANT (09 R197, R198). -/
def execArrayGrant (die : DieId) (s : State) : Out := .next (s.arbitrate die)

/-- QUANTUM_EXPIRY: another waiting lease gets the array, or the quantum begins again (09 R197, R198). -/
def execQuantumExpiry (die : DieId) (s : State) : Out :=
  let f := (s.dieAt die).firebox
  .next (match f.holder with
    | none => s
    | some num =>
      if !f.spent s.cycle then s
      else match f.find num, f.nextWaiting with
        | some l, some o =>
          (s.modFirebox die (fun g => { g.putLease { l with state := .waiting, since := s.cycle } with holder := none })).grantArray die o.num
        | _, _ => (s.modFirebox die (fun g => { g with commands := 0, grantedAt := s.cycle })).runFirebox die)

/-- The boundary after a command of the holder: with its quantum spent, the array is arbitrated before another command runs
(09 R197, R198). -/
def State.commandBoundary (s : State) (d : DieId) (l : Lease) : State :=
  if l.queue.isEmpty then
    (s.modFirebox d (fun g => { g.putLease { l with state := .idle } with holder := none })).arbitrate d
  else
    let t := s.putLease d l
    if (t.dieAt d).firebox.spent t.cycle then t.schedule (.event (.quantumExpiry d)) else t.runFirebox d

/-- A command has faulted: the lease is HELD, the array is free, and MSTAT.LSTATE is 2 (09 R197, R216). -/
def State.holdFault (s : State) (d : DieId) (l : Lease) (q : BitVec 8 × Word × Nat) : State :=
  let faddr : BitVec 52 := if q.1 = 0x0D then 0 else q.2.1.extractLsb' 0 52
  let m := { l with state := .held, pos := q.2.2, fault := some ⟨q.1, faddr, q.2.2, false⟩ }
  let t := (s.modFirebox d (fun g => { g.putLease m with holder := none })).modCtxAt l.core l.ctx
    (fun x => { x with mstat := { x.mstat with lstate := 2 } })
  t.arbitrate d

/-- Run the command at the head of the holder's queue. -/
def State.runHead (s : State) (d : DieId) (l : Lease) (c : MCmd) : State :=
  match s.refill d l with
  | (t, m, some e) =>
    let r := (Ran.mk t m none).stopped d t e l.pos
    r.s.holdFault d m (e.cause.1, e.cause.2, l.pos)
  | (t, m, none) =>
    let u := t.modFirebox d (fun g => { g with stageOwner := some l.num })
    let r := runMatrix d u m c
    match r.fault with
    | some q => r.s.holdFault d r.l q
    | none =>
      (r.s.modFirebox d (fun g => { g with commands := g.commands + 1 })).commandBoundary d
        { r.l with queue := l.queue.drop 1, pos := 0 }

/-- FIREBOX_COMMAND_RUN: the holder's next command; a Hob-sourced one waits for the end of a refresh window
(09 R212 to R214; 06 R138). -/
def execFireboxCommandRun (die : DieId) (s : State) : Out :=
  let f := (s.dieAt die).firebox
  .next (match f.holder.bind f.find with
    | none => s
    | some l =>
      match l.queue with
      | [] => s.commandBoundary die l
      | c :: _ =>
        if readsHob c.word && inWindow s.cycle then s.schedule (.event (.hobRefreshEnd die)) else s.runHead die l c)

/-- HOB_REFRESH_START: the clock reaches the next refresh window; until its end the Hob serves no reads
(06 R138). -/
def execHobRefreshStart (die : DieId) (s : State) : Out :=
  .next ((if inWindow s.cycle then s else s.advanceTo (s.cycle / 32768 * 32768 + 32512)).schedule (.event (.hobRefreshEnd die)))

/-- HOB_REFRESH_END: the clock reaches the end of the window, and a command that waited for it goes on
(06 R138; 09 R212). -/
def execHobRefreshEnd (die : DieId) (s : State) : Out :=
  .next ((if inWindow s.cycle then s.advanceTo (s.cycle / 32768 * 32768 + 32768) else s).runFirebox die)

end Sys2Proof.Machine
end

