-- ==== Sys2Proof/Machine/Texture.lean ====
section
/-! DEFINITION. TEX, TEXG and RAYQ (10 R238 to R249; 17 R417; 18 R428). -/
namespace Sys2Proof.Machine
open Sys2Proof

/-! ### Reads on path G -/

/-- Read `n` bytes of one grain on path G: paged memory with right R, through L2 (10 R243; 06 R117). -/
def State.texPiece (s : State) (va n : Nat) : Except Stop (Nat × State) :=
  match regionOf va with
  | .paged =>
    let chk := s.plbCheck s.runCore s.ctx.domain va rightR
    if chk.1 then
      (chk.2.l2Read (dieOf s.runCore) false false va n).map (fun r =>
        (r.1, r.2.chargeRead (dieOf s.runCore) s.ctx.domain (chk.2.readsFar (dieOf s.runCore) false va n)))
    else .error (s.denial (dieOf s.runCore) s.ctx.domain va)
  | _ => .error (protection va)

/-- Read `n` bytes on path G. -/
def State.texRead (s : State) (va n : Nat) : Except Stop (Nat × State) :=
  spanRead State.texPiece (spanFuel n) s va n

/-- Four f32 results. -/
abbrev Quad := Nat × Nat × Nat × Nat

/-- What a walk with four outputs has done. -/
structure Walked4 where
  s : State
  o0 : Nat := 0
  o1 : Nat := 0
  o2 : Nat := 0
  o3 : Nat := 0
  stop : Option (Nat × BitVec 8 × Word) := none

/-- Put the results of element `e` in their places. -/
def Walked4.put (r : Walked4) (s : State) (e : Nat) (q : Quad) : Walked4 :=
  { s := s, o0 := r.o0 + q.1 <<< (32 * e), o1 := r.o1 + q.2.1 <<< (32 * e), o2 := r.o2 + q.2.2.1 <<< (32 * e)
    o3 := r.o3 + q.2.2.2 <<< (32 * e) }

/-- Compute the active ones of `n` elements from element `e` in order. -/
def walkQuads (act : Nat → Bool) (one : State → Nat → Except Stop (Quad × State)) : Nat → Nat → Walked4 → Walked4
  | 0, _, r => r
  | n + 1, e, r =>
    if act e then
      match one r.s e with
      | .ok (q, t) => walkQuads act one n (e + 1) (r.put t e q)
      | .error x => { r with stop := some (stopAt e x) }
    else walkQuads act one n (e + 1) r

/-- Write one register of a run: elements from `stop` up to VL - 1 keep their old values; `x` is the context before
the instruction (10 R238, R243). -/
def State.writeRun (s : State) (x : Ctx) (ctl : VCtl) (vd : BitVec 6) (tag : BitVec 8) (vals stop : Nat) : State :=
  let old := (s.ctx.vreg vd).toNat
  if x.vl ≤ x.vstart then s.writeTag vd tag
  else s.writeElems ctl vd tag 32 x.vstart x.vl (x.vlmax / 32) (fun e => stop ≤ e || x.selects ctl e)
    (fun e => ⟨if e < stop then elem vals 32 e else elem old 32 e, 0⟩)

/-- Enter the vector queue with a run of inputs from va and a run of four outputs from vd, whose old values are read as 03 R65 has
it; that more than six reads take a slot for each three, and the four writes none of their own, is the model's reading (DEDUCED,
log 60). -/
def State.queueQuad (s : State) (f : FV) (inputs : Nat) : State :=
  let run := fun (r : BitVec 6) (n : Nat) => (List.range n).map (fun k => r.toNat + k)
  let reads := run f.va inputs ++ (if s.ctx.readsOld f.ctl 32 then run f.vd 4 else [])
  s.enqueueVector (walkSlots reads.length) none (reads ++ maskReads f.ctl) (run f.vd 4)

/-- An instruction with a run of four outputs, the second with tag `tag1` (10 R238, R243, R244). -/
def State.quadOp (s : State) (i : Instr) (f : FV) (inputs : Nat) (tag1 : BitVec 8)
    (prepare : State → Word → Except Stop (State × (State → Nat → Except Stop (Quad × State)))) : Out :=
  let reg : BitVec 6 := f.aux.setWidth 6
  s.issueVector i f.ctl [reg] (fun t =>
    let x := t.ctx
    if !x.fits 32 then illegal t i
    else
      let act := x.selects f.ctl
      let body := (List.range' x.vstart (x.vl - x.vstart)).find? act
      let r : Walked4 := match body with
        | none => { s := t }
        | some e =>
          match prepare t (t.rs reg) with
          | .error stop => { s := t, stop := some (stopAt e stop) }
          | .ok (u, one) => walkQuads act one (x.vl - x.vstart) x.vstart { s := u }
      let q := r.s.queueQuad f inputs
      let write := fun (ctl : VCtl) (stop : Nat) =>
        (((q.writeRun x ctl f.vd 0x50 r.o0 stop).writeRun x ctl (f.vd + 1) tag1 r.o1 stop).writeRun x ctl (f.vd + 2) 0x50 r.o2
          stop).writeRun x ctl (f.vd + 3) 0x50 r.o3 stop
      match r.stop with
      | none => .next (write f.ctl x.vl)
      | some (e, c, v) => .trapElem ((write { f.ctl with tp := false } e).noteStop c v) c v e)

/-- Element `e` of register `va + k` of a run. -/
def Ctx.runElem (x : Ctx) (va : BitVec 6) (k : Nat) (e : Nat) : Nat := elem (x.vreg (va + BitVec.ofNat 6 k)).toNat 32 e

/-! ### Textures (10 R239 to R242) -/

/-- A texture descriptor (10 R239). -/
structure Texture where
  base : Nat
  w : Nat
  h : Nat
  d : Nat
  fmt : Nat
  au : Nat
  av : Nat
  aw : Nat
  brick : Bool
  rp : Nat
  sp : Nat
  deriving DecidableEq, Repr

/-- Bytes of a texel (10 R240). -/
def texelBytes (fmt : Nat) : Nat :=
  if fmt == 0 then 1 else if fmt == 1 then 4 else if fmt == 2 then 2 else if fmt == 3 then 8 else if fmt == 4 then 4 else 16

/-- Field `hi:lo` of 64-bit word `i` of a structure. -/
def fieldOf (v i hi lo : Nat) : Nat := imageWord v i / 2 ^ lo % 2 ^ (hi + 1 - lo)

/-- The descriptor, or none when it breaks the table (10 R239). -/
def textureOf (v : Nat) : Option Texture :=
  let t : Texture := ⟨fieldOf v 0 51 0, fieldOf v 1 15 0, fieldOf v 1 31 16, fieldOf v 1 47 32, fieldOf v 2 3 0, fieldOf v 2 5 4,
    fieldOf v 2 7 6, fieldOf v 2 9 8, fieldOf v 2 10 10 == 1, fieldOf v 3 47 0, fieldOf v 4 47 0⟩
  let size := texelBytes t.fmt
  let sizeOk := fun n => 1 ≤ n && n ≤ 16384
  let reserved := fieldOf v 0 63 52 == 0 && fieldOf v 1 63 48 == 0 && fieldOf v 2 63 11 == 0 && fieldOf v 3 63 48 == 0 &&
    fieldOf v 4 63 48 == 0 && imageWord v 5 == 0 && imageWord v 6 == 0 && imageWord v 7 == 0
  if reserved && sizeOk t.w && sizeOk t.h && sizeOk t.d && t.fmt ≤ 5 && t.au != 3 && t.av != 3 && t.aw != 3 &&
      (if t.brick then (t.fmt == 2 || t.fmt == 4) && t.rp == 0 && t.sp == 0 && t.base % 4096 == 0
       else t.base % size == 0 && t.rp % size == 0 && t.sp % size == 0) then some t
  else none

/-- The address of texel (i, j, k) (10 R240). -/
def Texture.texel (t : Texture) (i j k : Nat) : Nat :=
  let size := texelBytes t.fmt
  if t.brick then
    let bw := 16
    let bh := if t.fmt == 4 then 8 else 16
    let bd := 8
    let nbx := (t.w + bw - 1) / bw
    let nby := (t.h + bh - 1) / bh
    t.base + 4096 * (i / bw + nbx * (j / bh + nby * (k / bd))) + size * ((k % bd * bh + j % bh) * bw + i % bw)
  else t.base + k * t.sp + j * t.rp + i * size

/-- rne32 of a natural number. -/
def natF32 (n : Nat) : Nat := (f32.round 0 false false n 0 false).bits

/-- 1.0. -/
def oneF32 : Nat := 0x3F800000

/-- rne32(v / 255). -/
def unorm8 (v : Nat) : Nat := (f32.div 0 false (natF32 v) (natF32 255)).bits

/-- The four channels of a texel (10 R240). -/
def channels (fmt v : Nat) : Quad :=
  let half := fun i => (convert 10 8 0 false (elem v 16 i)).bits
  if fmt == 0 then (unorm8 (v % 256), 0, 0, oneF32)
  else if fmt == 1 then (unorm8 (elem v 8 0), unorm8 (elem v 8 1), unorm8 (elem v 8 2), unorm8 (elem v 8 3))
  else if fmt == 2 then (half 0, 0, 0, oneF32)
  else if fmt == 3 then (half 0, half 1, half 2, half 3)
  else if fmt == 4 then (v % 2 ^ 32, 0, 0, oneF32)
  else (elem v 32 0, elem v 32 1, elem v 32 2, elem v 32 3)

/-- Read a texel; an index that is none is the border, which reads no memory. -/
def State.texelAt (s : State) (t : Texture) (i j k : Option Nat) : Except Stop (Quad × State) :=
  match i, j, k with
  | some i, some j, some k =>
    match s.texRead (t.texel i j k) (texelBytes t.fmt) with
    | .error e => .error e
    | .ok (v, u) => .ok (channels t.fmt v, u)
  | _, _, _ => .ok ((0, 0, 0, 0), s)

/-- How a coordinate of an axis falls: indices and weight; not a number; or a position beyond f32 (10 R241). -/
inductive Axis where
  | one (i : Option Nat)
  | two (i0 i1 : Option Nat) (weight : FVal)
  | nan
  | beyond
  deriving DecidableEq, Repr

/-- Resolve an index by the address mode of an axis of size `n` (10 R241). -/
def resolveIndex (mode n : Nat) (i : Int) : Option Nat :=
  if mode == 0 then some (max 0 (min i (n - 1))).toNat
  else if mode == 1 then some (i % n).toNat
  else if 0 ≤ i && i < n then some i.toNat else none

/-- floor of (-1)^neg * m * 2^x, and the fraction left above it. -/
def floorOf (neg : Bool) (m : Nat) (x : Int) : Int × FVal :=
  let v : Int := if neg then -(m : Int) else m
  if 0 ≤ x then (v * 2 ^ x.toNat, .fin false 0 0)
  else
    let d : Int := 2 ^ (-x).toNat
    (v / d, .fin false (v % d).toNat x)

/-- Map a coordinate to an axis of size `n` (10 R241). -/
def mapAxis (linear : Bool) (mode n : Nat) (u : Nat) : Axis :=
  if n == 1 then .one (some 0)
  else match f32.decode false u with
    | .fin _ _ _ =>
      let x := if linear then (f32.fma 0 false u (natF32 n) 0xBF000000).bits else (f32.mul 0 false u (natF32 n)).bits
      match f32.decode false x with
      | .fin neg m e =>
        let q := floorOf neg m e
        if linear then .two (resolveIndex mode n q.1) (resolveIndex mode n (q.1 + 1)) q.2 else .one (resolveIndex mode n q.1)
      | _ => .beyond
    | _ => .nan

/-- The first index of an axis. -/
def Axis.lo : Axis → Option Nat
  | .one i => i
  | .two i _ _ => i
  | _ => none

/-- The second index; an axis of size 1 uses its one index. -/
def Axis.hi : Axis → Option Nat
  | .one i => i
  | .two _ i _ => i
  | _ => none

/-- lerp(a, b, t) (10 R242). -/
def lerp (t : FVal) (a b : Nat) : Nat :=
  let d := (f32.sub 0 false b a).bits
  let vd := f32.decode false d
  let va := f32.decode false a
  if vd.isNan || va.isNan then f32.nan
  else match exactMul t vd with
    | some p => (f32.sum 0 false p va).bits
    | none => f32.nan

/-- lerp of each channel. -/
def lerp4 (t : FVal) (a b : Quad) : Quad := (lerp t a.1 b.1, lerp t a.2.1 b.2.1, lerp t a.2.2.1 b.2.2.1, lerp t a.2.2.2 b.2.2.2)

/-- Filter along an axis what `get` reads at its indices; an axis of size 1 skips its step (10 R242). -/
def alongAxis (a : Axis) (s : State) (get : State → Option Nat → Except Stop (Quad × State)) : Except Stop (Quad × State) :=
  match a with
  | .two i0 i1 w =>
    match get s i0 with
    | .error e => .error e
    | .ok (p, t) =>
      match get t i1 with
      | .error e => .error e
      | .ok (q, u) => .ok (lerp4 w p q, u)
  | _ => get s a.lo

/-- TEX.near and TEX.lin at mapped coordinates (10 R242). -/
def State.sample (s : State) (t : Texture) (x y z : Axis) : Except Stop (Quad × State) :=
  alongAxis z s (fun s k => alongAxis y s (fun s j => alongAxis x s (fun s i => s.texelAt t i j k)))

/-- Channel `c` of a texel. -/
def Quad.channel (q : Quad) (c : Nat) : Nat :=
  if c == 0 then q.1 else if c == 1 then q.2.1 else if c == 2 then q.2.2.1 else q.2.2.2

/-- TEXG at mapped coordinates (10 R242). -/
def State.gatherTexels (s : State) (t : Texture) (c : Nat) (x y z : Axis) : Except Stop (Quad × State) :=
  match s.texelAt t x.lo y.lo z.lo with
  | .error e => .error e
  | .ok (p0, s0) =>
    match s0.texelAt t x.hi y.lo z.lo with
    | .error e => .error e
    | .ok (p1, s1) =>
      match s1.texelAt t x.lo y.hi z.lo with
      | .error e => .error e
      | .ok (p2, s2) =>
        match s2.texelAt t x.hi y.hi z.lo with
        | .error e => .error e
        | .ok (p3, s3) => .ok ((Quad.channel p0 c, Quad.channel p1 c, Quad.channel p2 c, Quad.channel p3 c), s3)

/-- One element of TEX or TEXG: NaN for a coordinate that is none; free values where a position overflows f32
(10 R241; log 34). -/
def State.texElement (s : State) (t : Texture) (linear : Bool) (u v w : Nat)
    (get : State → Axis → Axis → Axis → Except Stop (Quad × State)) : Except Stop (Quad × State) :=
  let x := mapAxis linear t.au t.w u
  let y := mapAxis linear t.av t.h v
  let z := mapAxis linear t.aw t.d w
  if x = .nan || y = .nan || z = .nan then .ok ((f32.nan, f32.nan, f32.nan, f32.nan), s)
  else if x = .beyond || y = .beyond || z = .beyond then
    let free := fun c => (Config.freeTexel s.freeCtr c).toNat
    .ok ((free 0, free 1, free 2, free 3), { s with freeCtr := s.freeCtr + 1 })
  else get s x y z

/-- Read the descriptor that a pointer names (10 R239; 18 R428). -/
def State.readTexture (s : State) (p : Word) : Except Stop (Texture × State) :=
  let a := pointerAddr p
  if !pointerOk p then .error (.trap 0x05 p)
  else if a % 64 != 0 then .error (.trap 0x05 (addrWord a))
  else match s.texRead a 64 with
    | .error e => .error e
    | .ok (v, t) =>
      match textureOf v with
      | some d => .ok (d, t)
      | none => .error (.trap 0x05 (addrWord a))

/-- TEX and TEXG on the elements of va, va + 1 and va + 2. -/
def State.texOp (s : State) (i : Instr) (f : FV) (linear : Bool)
    (get : Texture → State → Axis → Axis → Axis → Except Stop (Quad × State)) : Out :=
  s.quadOp i f 3 0x50 (fun t p =>
    match t.readTexture p with
    | .error e => .error e
    | .ok (d, u) => .ok (u, fun v e =>
        v.texElement d linear (v.ctx.runElem f.va 0 e) (v.ctx.runElem f.va 1 e) (v.ctx.runElem f.va 2 e) (get d)))

/-- TEX (10 R242; 18 R428). -/
def execTex (f : FV) (s : State) : Out := s.texOp (.tex f) f (f.fn == 1) (fun d t x y z => t.sample d x y z)

/-- TEXG (10 R242). -/
def execTexg (f : FV) (s : State) : Out := s.texOp (.texg f) f true (fun d t x y z => t.gatherTexels d f.fn.toNat x y z)

/-! ### Ray queries (10 R244 to R249) -/

/-- A vector of three f32 values. -/
structure V3 where
  x : Nat
  y : Nat
  z : Nat
  deriving DecidableEq, Repr

/-- rne32(a - b). -/
def subF (a b : Nat) : Nat := (f32.sub 0 false a b).bits

/-- rne32(a * b). -/
def mulF (a b : Nat) : Nat := (f32.mul 0 false a b).bits

/-- rne32(a * b + c). -/
def fmaF (a b c : Nat) : Nat := (f32.fma 0 false a b c).bits

/-- a <= b, false on NaN. -/
def leF (a b : Nat) : Bool :=
  let va := f32.decode false a
  let vb := f32.decode false b
  !va.isNan && !vb.isNan && (eqVal va vb || ltVal va vb)

/-- A value is NaN. -/
def nanF (a : Nat) : Bool := (f32.decode false a).isNan

/-- The lesser and the greater (05 R91). -/
def minF (a b : Nat) : Nat := (f32.minMax false false a b).bits

/-- The greater. -/
def maxF (a b : Nat) : Nat := (f32.minMax true false a b).bits

/-- Componentwise difference. -/
def V3.sub (a b : V3) : V3 := ⟨subF a.x b.x, subF a.y b.y, subF a.z b.z⟩

/-- cross(a, b) (10 R248). -/
def V3.cross (a b : V3) : V3 :=
  let part := fun p q r t => fmaF p q (f32.negate (mulF r t))
  ⟨part a.y b.z a.z b.y, part a.z b.x a.x b.z, part a.x b.y a.y b.x⟩

/-- dot(a, b) (10 R248). -/
def V3.dot (a b : V3) : Nat := fmaF a.z b.z (fmaF a.y b.y (mulF a.x b.x))

/-- A ray (10 R244). -/
structure Ray where
  o : V3
  d : V3
  tmin : Nat
  tmax : Nat
  deriving DecidableEq, Repr

/-- The near and far distances of one axis of a box (10 R247). -/
def slab (o d lo hi : Nat) : Nat × Nat :=
  let inv := (f32.div 0 false oneF32 d).bits
  let t1 := mulF (subF lo o) inv
  let t2 := mulF (subF hi o) inv
  (minF t1 t2, maxF t1 t2)

/-- A child box passes (10 R247, R249). -/
def boxPasses (r : Ray) (lo hi : V3) : Bool :=
  let sx := slab r.o.x r.d.x lo.x hi.x
  let sy := slab r.o.y r.d.y lo.y hi.y
  let sz := slab r.o.z r.d.z lo.z hi.z
  !(nanF lo.x || nanF lo.y || nanF lo.z || nanF hi.x || nanF hi.y || nanF hi.z) &&
  leF (maxF (maxF (maxF sx.1 sy.1) sz.1) r.tmin) (minF (minF (minF sx.2 sy.2) sz.2) r.tmax)

/-- A hit. -/
structure Hit where
  t : Nat
  prim : Nat
  addr : Nat
  u : Nat
  v : Nat
  deriving DecidableEq, Repr

/-- The test of a triangle: t, u and v (10 R248). -/
def triangleHit (r : Ray) (v0 v1 v2 : V3) : Option (Nat × Nat × Nat) :=
  let e1 := v1.sub v0
  let e2 := v2.sub v0
  let s := r.o.sub v0
  let p := r.d.cross e2
  let det := e1.dot p
  let vdet := f32.decode false det
  if vdet.isNan || eqVal vdet (.fin false 0 0) then none
  else
    let inv := (f32.div 0 false oneF32 det).bits
    let u := mulF (s.dot p) inv
    let q := s.cross e1
    let v := mulF (r.d.dot q) inv
    let t := mulF (e2.dot q) inv
    if leF 0 u && leF 0 v && leF (f32.add 0 false u v).bits oneF32 && leF r.tmin t && leF t r.tmax then some (t, u, v) else none

/-- The better of two hits: the least t, then the least primitive index, then the least record address (10 R249). -/
def betterHit (best : Option Hit) (h : Hit) : Option Hit :=
  match best with
  | none => some h
  | some b =>
    let vb := f32.decode false b.t
    let vh := f32.decode false h.t
    let less := if eqVal vh vb then h.prim < b.prim || (h.prim == b.prim && h.addr < b.addr) else ltVal vh vb
    if less then some h else some b

/-- Three f32 values from value `i` of a structure. -/
def vec3At (v i : Nat) : V3 := ⟨elem v 32 i, elem v 32 (i + 1), elem v 32 (i + 2)⟩

/-- A node error: a protection trap with the node's or record's address. -/
def nodeError {α : Type} (a : Nat) : Except Stop α := .error (.trap 0x05 (addrWord a))

/-- Test `n` triangle records from address `a` (10 R246). -/
def State.leafHits (ray : Ray) : Nat → Nat → State → Option Hit → Except Stop (Option Hit × State)
  | 0, _, s, best => .ok (best, s)
  | n + 1, a, s, best =>
    match s.texRead a 48 with
    | .error e => .error e
    | .ok (v, t) =>
      if elem v 64 5 != 0 then nodeError a
      else
        let h := (triangleHit ray (vec3At v 0) (vec3At v 3) (vec3At v 6)).map (fun q => Hit.mk q.1 (elem v 32 9) a q.2.1 q.2.2)
        State.leafHits ray n (a + 48) t (match h with
          | some h => betterHit best h
          | none => best)

/-- A child reference that breaks its table (10 R245). -/
def badReference (w : Nat) : Bool :=
  let kind := w / 2 ^ 62
  let n := w / 2 ^ 56 % 64
  let a := w % 2 ^ 52
  kind == 3 || w / 2 ^ 52 % 16 != 0 || (kind == 2 && (n == 0 || a % 16 != 0)) || (kind != 2 && n != 0) || (kind == 1 && a % 128 != 0)

/-- The children `c` to 3 of a node `v`, with what `down` does for a child node. -/
def childHits (ray : Ray) (v : Nat) (down : Nat → State → Option Hit → Except Stop (Option Hit × State)) :
    Nat → Nat → State → Option Hit → Except Stop (Option Hit × State)
  | 0, _, s, best => .ok (best, s)
  | n + 1, c, s, best =>
    let w := elem v 64 (12 + c)
    let here : Except Stop (Option Hit × State) :=
      if w / 2 ^ 62 == 0 || !boxPasses ray (vec3At v (6 * c)) (vec3At v (6 * c + 3)) then .ok (best, s)
      else if w / 2 ^ 62 == 1 then down (w % 2 ^ 52) s best
      else State.leafHits ray (w / 2 ^ 56 % 64) (w % 2 ^ 52) s best
    match here with
    | .error e => .error e
    | .ok (b, t) => childHits ray v down n (c + 1) t b

/-- The hits below the node at `a`, which may still be `left` levels deep; the root is at depth 1 and a node at depth
65 traps (10 R245, R249; log 35). Every reference of a node that is read is checked. -/
def nodeHits (ray : Ray) : Nat → Nat → State → Option Hit → Except Stop (Option Hit × State)
  | 0, a, _, _ => nodeError a
  | left + 1, a, s, best =>
    if a % 128 != 0 then nodeError a
    else match s.texRead a 128 with
      | .error e => .error e
      | .ok (v, t) =>
        if (List.range 4).any (fun c => badReference (elem v 64 (12 + c))) then nodeError a
        else childHits ray v (nodeHits ray left) 4 0 t best

/-- RAYQ's outputs (10 R249). -/
def hitOutputs (h : Option Hit) : Quad :=
  match h with
  | some h => (h.t, h.prim, h.u, h.v)
  | none => (0x7F800000, 0xFFFFFFFF, 0, 0)

/-- RAYQ (10 R244; 17 R417). -/
def execRayq (f : FV) (s : State) : Out :=
  s.quadOp (.rayq f) f 8 0x28 (fun t p =>
    if !pointerOk p then .error (.trap 0x05 p)
    else .ok (t, fun u e =>
      let g := fun k => u.ctx.runElem f.va k e
      let ray : Ray := ⟨⟨g 0, g 1, g 2⟩, ⟨g 3, g 4, g 5⟩, g 6, g 7⟩
      match nodeHits ray 64 (pointerAddr p) u none with
      | .error x => .error x
      | .ok (h, v) => .ok (hitOutputs h, v)))

end Sys2Proof.Machine
end

