-- ==== Sys2Proof/Machine/Engines.lean ====
section
/-! DEFINITION. Operands of engine and agent commands, the end of a command, and the copy engines (06 R112, R116,
R117, R137, R138; 10 R221, R222; 14 R316; 15 R350 to R354; 18 R455). A command runs to its end in one step, but
where it waits (log 10). -/
namespace Sys2Proof.Machine
open Sys2Proof

/-- Status and VALUE of a reply (08 R173). -/
abbrev Verdict := Nat × Word

/-- BADCMD. -/
def badCmd : Verdict := (2, 0)

/-- FAULT with a cause and an address. -/
def faultAt (cause : BitVec 8) (v : Word) : Verdict := (4, faultValue cause v)

/-- REJECTED. -/
def rejected : Verdict := (5, 0)

/-- OK with a value. -/
def okValue (n : Nat) : Verdict := (0, BitVec.ofNat 64 n)

/-! ### Operand places -/

/-- Where an operand address lies. -/
inductive Place where
  | paged
  | loc (c : CoreId) (o : Nat)
  deriving DecidableEq, Repr

/-- The place of an operand address of a command (06 R112, R116; 08 R459; log 37). A command of another package
names no local window here (14 R316). -/
def State.place (s : State) (c : Command) (va need : Nat) : Except Verdict Place :=
  match regionOf va with
  | .paged =>
    if commandGrants c va need then .ok .paged
    else .error (faultAt (s.denial c.die c.sender.domain va).cause.1 (addrWord va))
  | .localWindow o =>
    if c.sender.remote then .error (faultAt 0x05 (addrWord va))
    else if s.holdsSender c.sender then .ok (.loc c.sender.core o)
    else .error rejected
  | .localAlias k o =>
    if Config.localBytes ≤ o then .error (faultAt 0x05 (addrWord va))
    else if isReserved k || !s.holdsDomain k c.sender.domain then .error rejected
    else .ok (.loc k o)
  | _ => .error (faultAt 0x05 (addrWord va))

/-- A failed access of a command: an uncorrectable error is reported (06 R130; 10 R222). -/
def State.accessFault (s : State) (c : Command) (e : Stop) : State × Verdict :=
  (if e.cause.1 = 0x08 then s.noteBad c.die c.sender.domain e.cause.2.toNat else s, faultAt e.cause.1 e.cause.2)

/-- The outcome of an access of a command. -/
abbrev Access (α : Type) := Except (State × Verdict) α

/-- Read `n` bytes within one grain: paged sources through the L2 of the agent's die (15 R350; 10 R221). -/
def State.operandRead (s : State) (c : Command) (need va n : Nat) : Access (Nat × State) :=
  match s.place c va need with
  | .error v => .error (s, v)
  | .ok (.loc k o) => .ok (s.localRead k o n, s)
  | .ok .paged =>
    match s.l2Read c.die false false va n with
    | .ok (v, t) => .ok (v, t.chargeRead c.die c.sender.domain (s.readsFar c.die false va n))
    | .error e => .error (s.accessFault c e)

/-- Write `n` bytes within one grain. -/
def State.operandWrite (s : State) (c : Command) (va n v : Nat) : Access State :=
  match s.place c va (rightW + rightD) with
  | .error w => .error (s, w)
  | .ok (.loc k o) => .ok (s.localWrite k o n v)
  | .ok .paged =>
    match s.l2Write c.die false none va n v with
    | .ok t => .ok t
    | .error e => .error (s.accessFault c e)

/-- Read `n` bytes in pieces; `fuel` of n / 32 + 2 suffices. -/
def State.readPieces (c : Command) (need : Nat) : Nat → State → Nat → Nat → Access (Nat × State)
  | 0, s, _, _ => .ok (0, s)
  | fuel + 1, s, va, n =>
    if n == 0 then .ok (0, s)
    else
      match s.operandRead c need va (pieceLen va n) with
      | .error e => .error e
      | .ok (v, t) =>
        match State.readPieces c need fuel t (va + pieceLen va n) (n - pieceLen va n) with
        | .error e => .error e
        | .ok (w, u) => .ok (v + w <<< (8 * pieceLen va n), u)

/-- Write the low `n` bytes of `v` in pieces; those before a failing one stay (10 R222). -/
def State.writePieces (c : Command) : Nat → State → Nat → Nat → Nat → Access State
  | 0, s, _, _, _ => .ok s
  | fuel + 1, s, va, n, v =>
    if n == 0 then .ok s
    else
      match s.operandWrite c va (pieceLen va n) (v % 2 ^ (8 * pieceLen va n)) with
      | .error e => .error e
      | .ok t => State.writePieces c fuel t (va + pieceLen va n) (n - pieceLen va n) (v >>> (8 * pieceLen va n))

/-- An extent leaves the address space: the first address beyond it. -/
def outside (a : Int) (n : Nat) : Option Verdict :=
  if n != 0 && (a < 0 || 2 ^ 52 < a + n) then
    some (faultAt 0x05 (BitVec.ofInt 64 ((if a < 0 then a else max a (2 ^ 52)) % 2 ^ 52)))
  else none

/-- Read `n` bytes of a source at an address that may lie outside the address space. -/
def State.sourceRead (s : State) (c : Command) (a : Int) (n : Nat) : Access (Nat × State) :=
  match outside a n with
  | some v => .error (s, v)
  | none => State.readPieces c (rightR + rightD) (spanFuel n) s a.toNat n

/-- Write `n` bytes of a destination. -/
def State.destWrite (s : State) (c : Command) (a : Int) (n v : Nat) : Access State :=
  match outside a n with
  | some w => .error (s, w)
  | none => State.writePieces c (spanFuel n) s a.toNat n v

/-! ### Checks before any write (06 R112; 05 R101) -/

/-- An extent of local memory that a command names may not be accessed: nothing is then written (06 R112). -/
def State.extentStop (s : State) (c : Command) (a : Int) (n : Nat) : Option Verdict :=
  if n == 0 || a < 0 then none
  else
    let lo := max a.toNat Config.aliasBase
    let end_ := a.toNat + n
    if lo < end_ && lo < Config.aliasEnd then
      let o := (lo - Config.aliasBase) % 2 ^ 20
      let k : CoreId := Fin.ofNat 512 ((lo - Config.aliasBase) / 2 ^ 20)
      if Config.localBytes < o + (end_ - lo) then some (faultAt 0x05 (addrWord (max lo (lo - o + Config.localBytes))))
      else if isReserved k || !s.holdsDomain k c.sender.domain then some rejected
      else none
    else if regionOf a.toNat matches .localWindow _ then
      if c.sender.remote then some (faultAt 0x05 (addrWord a.toNat))
      else if s.holdsSender c.sender then none else some rejected
    else none

/-- A pointer whose tag breaks 05 R101. -/
def tagStop (p : Word) : Option Verdict := if pointerOk p then none else some (faultAt 0x05 p)

/-- The first verdict of a list. -/
def firstStop : List (Option Verdict) → Option Verdict
  | [] => none
  | some v :: _ => some v
  | none :: rest => firstStop rest

/-- The bytes of an extent as spans of addresses, first and end: those in the local window of a core are the bytes of its
alias (15 R350). -/
def byteSpans (k : CoreId) (a : Int) (n : Nat) : List (Int × Int) :=
  let window : Int := Config.localBase
  let top : Int := window + Config.localBytes
  let shift : Int := localKey k 0 - window
  [(a, min (a + n) window), (max a window + shift, min (a + n) top + shift), (max a top, a + n)]

/-- Two spans share a byte. -/
def spansMeet (p q : Int × Int) : Bool := p.1 < p.2 && q.1 < q.2 && p.1 < q.2 && q.1 < p.2

/-- Two extents of a command share a byte. -/
def overlap (c : Command) (a : Int) (n : Nat) (b : Int) (m : Nat) : Bool :=
  (byteSpans c.sender.core a n).any (fun p => (byteSpans c.sender.core b m).any (spansMeet p))

/-! ### The end of a command -/

/-- The writes that a command has made are performed at their homes, charged to its domain: a fence that covers the command's
path, a save and a HANDOFF find them there, whether the command asks for a reply or not (07 R152, R155, R164; 16 R366). -/
def State.flushUnit (s : State) (c : Command) : State :=
  ((s.dieAt c.die).l2.foldl (fun t ln =>
    if ln.home || !ln.writers.isEmpty then t else t.charge c.die c.sender.domain (packetFlits ln.dirty)) s).writeBackAll c.die

/-- Reply, once the writes are performed, and go on to the next command of the queue (10 R221; 15 R350). -/
def State.endCommand (s : State) (c : Command) (v : Verdict) : State :=
  ((s.flushUnit c).reply c.die c.sender c.msg v.1 v.2).popCommand c.die c.inst

/-- The command goes on later: its agent has started it (10 R221). -/
def State.laterCommand (s : State) (c : Command) : State :=
  (s.modAgent c.die c.inst (fun a => { a with started := true })).deferTurn (.agent c.die c.inst)

/-- The agent that holds a command. -/
def State.agentOf (s : State) (c : Command) : Agent := (s.dieAt c.die).agents[c.inst]

/-- Keep the place of a command that cannot go on now; what it has written since it last waited is performed. -/
def State.pauseCommand (s : State) (c : Command) (done aux1 aux2 : Nat) (words : List Nat) : State :=
  ((if done == (s.agentOf c).done then s else s.flushUnit c).modAgent c.die c.inst (fun a =>
    { a with done := done, aux1 := aux1, aux2 := aux2, words := words })).laterCommand c

/-- End with the verdict that stopped a command, or go on. -/
def State.unless (s : State) (c : Command) (stop : Option Verdict) (k : Unit → State) : Out :=
  .next (match stop with
    | some v => s.endCommand c v
    | none => k ())

/-- End after the writes of a command: its completion is a release of them all (15 R350). -/
def State.complete (c : Command) (ok : Verdict) : Access State → State
  | .ok t => t.endCommand c ok
  | .error e => e.1.endCommand c e.2

/-- A word that 04 R81 marks zero is not, or another condition of BADCMD holds. -/
def badIf (b : Bool) : Option Verdict := if b then some badCmd else none

/-- An operand that is not a multiple of `n` (15 R350). -/
def misaligned (w : Word) (n : Nat) : Option Verdict := if w.toNat % n != 0 then some (faultAt 0x04 w) else none

/-! ### CPY, CPY2D, CPYFILL -/

/-- Bytes that a copy engine moves at a time. -/
def copyChunk : Nat := 512

/-- Copy `n` bytes in chunks. -/
def copyBytes (c : Command) : Nat → State → Int → Int → Nat → Access State
  | 0, s, _, _, _ => .ok s
  | fuel + 1, s, a, b, n =>
    if n == 0 then .ok s
    else
      match s.sourceRead c a (min n copyChunk) with
      | .error e => .error e
      | .ok (v, t) =>
        match t.destWrite c b (min n copyChunk) v with
        | .error e => .error e
        | .ok u => copyBytes c fuel u (a + copyChunk) (b + copyChunk) (n - copyChunk)

/-- One turn of a CPY or CPY2D of another package over `total` pieces, each a source, a destination and a length: each piece is
asked of the sender's package, and written when it has come (14 R316; log 36). -/
def State.copyRemote (s : State) (c : Command) (value total : Nat) (piece : Nat → Int × Int × Nat) : State :=
  let a := s.agentOf c
  let p := piece a.done
  if total ≤ a.done then s.endCommand c (okValue value)
  else match outside p.1 p.2.2, a.words with
    | some v, _ => s.endCommand c v
    | none, status :: v :: data :: _ =>
      if status != 0 then s.endCommand c (status, BitVec.ofNat 64 v)
      else match s.destWrite c p.2.1 p.2.2 data with
        | .error e => e.1.endCommand c e.2
        | .ok t => t.pauseCommand c (a.done + 1) 0 0 []
    | none, _ =>
      if a.aux1 == 1 then s.laterCommand c
      else (s.sendFrame (localCore c.die 0 0) c.sender.pkg (bits c.msg.w0 55 52)
        (.sourceRead (s.siteOf c.die) c.inst c.sender p.1.toNat p.2.2)).pauseCommand c a.done 1 0 []

/-- Piece `i` of a copy of `n` bytes. -/
def copyPiece (a b : Int) (n i : Nat) : Int × Int × Nat :=
  (a + i * copyChunk, b + i * copyChunk, min copyChunk (n - i * copyChunk))

/-- CPY (15 R351). -/
def execCpy (c : Command) (s : State) : Out :=
  let m := c.msg
  let n := m.w4.toNat
  let a := pointerAddr m.w2
  let b := pointerAddr m.w3
  let live := n != 0
  let away := c.sender.remote
  s.unless c (if away && (s.agentOf c).started then none else firstStop [
    badIf (m.w5 != 0 || m.w6 != 0 || m.w7 != 0 || 2 ^ 40 < n),
    badIf (!away && overlap c a n b n),
    if live then tagStop m.w2 else none,
    if live then tagStop m.w3 else none,
    if away then none else s.extentStop c a n,
    s.extentStop c b n]) (fun _ =>
    if away then s.copyRemote c n ((n + copyChunk - 1) / copyChunk) (copyPiece a b n)
    else State.complete c (okValue n) (copyBytes c (n / copyChunk + 1) s a b n))

/-- Copy `n` rows of `bytes` bytes. -/
def copyRows (c : Command) (bytes : Nat) (pa pb : Int) : Nat → State → Int → Int → Access State
  | 0, s, _, _ => .ok s
  | n + 1, s, a, b =>
    match copyBytes c (bytes / copyChunk + 1) s a b bytes with
    | .error e => .error e
    | .ok t => copyRows c bytes pa pb n t (a + pa) (b + pb)

/-- Some destination row shares a byte with a source row or with another destination row (15 R352). -/
def rowsOverlap (c : Command) (bytes n : Nat) (a b pa pb : Int) : Bool :=
  (List.range n).any (fun i => (List.range n).any (fun j =>
    (!c.sender.remote && overlap c (b + i * pb) bytes (a + j * pa) bytes) ||
    (j != i && overlap c (b + i * pb) bytes (b + j * pb) bytes)))

/-- The first row whose extent a command may not name (06 R112). -/
def State.rowsStop (s : State) (c : Command) (bytes n : Nat) (a p : Int) : Option Verdict :=
  (List.range n).findSome? (fun i => s.extentStop c (a + i * p) bytes)

/-- CPY2D (15 R352). -/
def execCpy2d (c : Command) (s : State) : Out :=
  let m := c.msg
  let bytes := bits m.w4 31 0
  let n := bits m.w4 63 32
  let a : Int := pointerAddr m.w2
  let b : Int := pointerAddr m.w3
  let pa := m.w5.toInt
  let pb := m.w6.toInt
  let per := (bytes + copyChunk - 1) / copyChunk
  let remote := fun (_ : Unit) =>
    s.copyRemote c (bytes * n) (n * per) (fun i => copyPiece (a + (i / per : Nat) * pa) (b + (i / per : Nat) * pb) bytes (i % per))
  if c.sender.remote && (s.agentOf c).started then .next (remote ())
  else s.unless c (badIf (m.w7 != 0 || 2 ^ 40 < bytes * n)) (fun _ =>
    if bytes == 0 || n == 0 then s.endCommand c (okValue 0)
    else match firstStop [
        badIf (rowsOverlap c bytes n a b pa pb), tagStop m.w2, tagStop m.w3,
        if c.sender.remote then none else s.rowsStop c bytes n a pa, s.rowsStop c bytes n b pb] with
      | some v => s.endCommand c v
      | none =>
        if c.sender.remote then remote ()
        else State.complete c (okValue (bytes * n)) (copyRows c bytes pa pb n s a b))

/-- Write `n` bytes of a repeated 8-byte pattern in chunks. -/
def fillBytes (c : Command) (pattern : Nat) : Nat → State → Int → Nat → Access State
  | 0, s, _, _ => .ok s
  | fuel + 1, s, b, n =>
    if n == 0 then .ok s
    else match s.destWrite c b (min n copyChunk) (repeatElem 64 pattern (copyChunk / 8)) with
      | .error e => .error e
      | .ok t => fillBytes c pattern fuel t (b + copyChunk) (n - copyChunk)

/-- CPYFILL (15 R354). -/
def execCpyfill (c : Command) (s : State) : Out :=
  let m := c.msg
  let n := m.w3.toNat
  let b := pointerAddr m.w2
  s.unless c (firstStop [
    badIf (m.w5 != 0 || m.w6 != 0 || m.w7 != 0 || 2 ^ 40 < n),
    if n != 0 then tagStop m.w2 else none,
    s.extentStop c b n])
    (fun _ => State.complete c (okValue n) (fillBytes c m.w4.toNat (n / copyChunk + 1) s b n))

/-! ### CPYDEC -/

/-- The greatest LEN that a stream of element width `w` can have (06 R135). -/
def longestStream (w : Nat) : Nat := max 4097 (1 + 4096 / (w / 8) / 16 * (1 + 2 * w))

/-- Decode brick `i` and write it; a brick is written whole or not at all (15 R353). -/
def decodeOne (c : Command) (w n : Nat) (a b : Int) (dir i : Nat) (s : State) : Access State :=
  let off := dir >>> (64 * i) % 2 ^ 32
  let len := dir >>> (64 * i + 32) % 2 ^ 32
  let bad : Access State := .error (s, faultAt 0x08 (BitVec.ofInt 64 (a + 8 * i)))
  if off < 8 * n || 2 ^ 32 < off + len || len == 0 || longestStream w < len then bad
  else
    match s.sourceRead c (a + off) len with
    | .error e => .error e
    | .ok (v, t) =>
      match decodeBrick (fun p => v >>> (8 * (p - off)) % 256) w off len (8 * n) (2 ^ 32) with
      | none => bad
      | some brick =>
        match t.destWrite c (b + 4096 * i) 4096 brick with
        | .ok u => .ok u
        | .error e => .error (t, e.2)

/-- Decode `k` bricks from brick `i`. -/
def decodeBricks (c : Command) (w n : Nat) (a b : Int) (dir : Nat) : Nat → Nat → State → Access State
  | 0, _, s => .ok s
  | k + 1, i, s =>
    match decodeOne c w n a b dir i s with
    | .error e => .error e
    | .ok t => decodeBricks c w n a b dir k (i + 1) t

/-- The bytes from S that CPYDEC reads (15 R353). -/
def readExtent (n dir : Nat) : Nat :=
  (List.range n).foldl (fun m i => max m (dir >>> (64 * i) % 2 ^ 32 + dir >>> (64 * i + 32) % 2 ^ 32)) (8 * n)

/-- CPYDEC (15 R353). -/
def execCpydec (c : Command) (s : State) : Out :=
  let m := c.msg
  let n := bits m.w4 16 0
  let codec := bits m.w4 33 32
  let a : Int := pointerAddr m.w2
  let b : Int := pointerAddr m.w3
  s.unless c (firstStop [
    badIf (m.w5 != 0 || m.w6 != 0 || m.w7 != 0 || bits m.w4 31 17 != 0 || bits m.w4 63 34 != 0 ||
      n == 0 || 65536 < n || codec == 0 || codec == 3),
    misaligned m.w2 8, misaligned m.w3 8, tagStop m.w2, s.extentStop c a (8 * n)]) (fun _ =>
    match s.sourceRead c a (8 * n) with
    | .error e => e.1.endCommand c e.2
    | .ok (dir, t) =>
      match firstStop [
          badIf (overlap c a (readExtent n dir) b (4096 * n)), tagStop m.w3, t.extentStop c b (4096 * n)] with
      | some v => t.endCommand c v
      | none => State.complete c (okValue n) (decodeBricks c (if codec == 1 then 32 else 16) n a b dir n 0 t))

/-! ### WLOAD -/

/-- A group of the launch stands on a die or was saved from it (04 R82). -/
def State.fireboxLaunch (s : State) (d : DieId) : Bool :=
  s.launches.any (fun l => l.record.slots != 0 && (s.launchOn l.arrival d || l.groups.any (fun g =>
    match g.state with
    | .saved images => images.any (fun p => dieOf p.1 == d)
    | _ => false)))

/-- Write Hob bytes; a cell written holds no uncorrectable error any more. -/
def State.hobLoad (s : State) (d : DieId) (o n v : Nat) : State :=
  (s.hobWrite d o n v).modFirebox d (fun f => { f with hobBad := f.hobBad.filter (fun b => b < o || o + n ≤ b) })

/-- Load `n` bytes into the Hob in chunks. -/
def loadBytes (c : Command) : Nat → State → Int → Nat → Nat → Access State
  | 0, s, _, _, _ => .ok s
  | fuel + 1, s, a, o, n =>
    if n == 0 then .ok s
    else match s.sourceRead c a (min n copyChunk) with
      | .error e => .error e
      | .ok (v, t) =>
        loadBytes c fuel (t.hobLoad c.die o (min n copyChunk) v) (a + copyChunk) (o + copyChunk) (n - copyChunk)

/-- WLOAD (04 R82; 06 R137; 18 R455). In a refresh window it has started and waits (06 R138). After its completion
the Bellows may place what it held back. -/
def execWload (c : Command) (s : State) : Out :=
  let m := c.msg
  let a := pointerAddr m.w2
  let o := m.w3.toNat
  let n := m.w4.toNat
  let started := (s.dieAt c.die).agents[c.inst].started
  let checks := firstStop [
    badIf (m.w5 != 0 || m.w6 != 0 || m.w7 != 0), misaligned m.w2 8,
    misaligned m.w3 64, misaligned m.w4 64,
    if Config.hobBytes < o + n then some (faultAt 0x05 m.w3) else none,
    if !(s.dieAt c.die).firebox.leases.isEmpty || s.fireboxLaunch c.die then some rejected else none,
    if n != 0 then tagStop m.w2 else none, s.extentStop c a n]
  s.unless c (if started then none else checks) (fun _ =>
    if n == 0 then s.endCommand c (okValue 0)
    else if inWindow s.cycle then s.laterCommand c
    else
      let t := State.complete c (okValue n) (loadBytes c (n / copyChunk + 1) s a o n)
      if t.launches.isEmpty then t else t.schedule (.event .launchSelection))

end Sys2Proof.Machine
end

