-- ==== Sys2Proof/Machine/Graphics.lean ====
section
/-! DEFINITION. The rasteriser, the mesh distributor and the blend unit (06 R124; 10 R224 to R236; 15 R338; 17 R392,
R416). A command whose ring or inbox is not ready keeps its place in its agent and goes on later. -/
namespace Sys2Proof.Machine
open Sys2Proof

/-! ### Ring designators (06 R124) -/

/-- The ring number and the core of a designator, or the verdict on one that names none: FAULT. So is a mesh x above 31 or y
above 15, for which the spec gives no fate (DESIGN CHOICE, log 55). -/
def designated (w : Word) : Except Verdict (Nat × CoreId) :=
  let n := bits w 2 0
  let x := bits w 15 8
  let y := bits w 23 16
  if bits w 7 3 != 0 || bits w 63 24 != 0 || n < 4 || 31 < x || 15 < y then .error (4, 0) else .ok (n, coreOf x y)

/-- The ring of a designator may be used for the sender's domain. -/
def State.ringStop (s : State) (c : Command) (w : Word) : Option Verdict :=
  match designated w with
  | .error v => some v
  | .ok (_, k) => if s.holdsDomain k c.sender.domain then none else some rejected

/-- A fill is a release to the reader's core by the agent's die (07 R152). -/
def State.releaseTo (s : State) (c : Command) (k : CoreId) : State := if dieOf k == c.die then s else s.flushUnit c

/-! ### The rasteriser -/

/-- The first f32 of a primitive record is number 0. -/
def primWord (v i : Nat) : Nat := elem v 32 i

/-- A vertex coordinate in fixed point with 8 fractional bits (10 R226). -/
def fixedPoint (b : Nat) : Int :=
  match f32.decode false b with
  | .fin n m x => (toInteger 0 n m (x + 8)).1
  | _ => 0

/-- A coordinate that is a NaN, an infinity or at least 32,768 in magnitude: its exponent is 15 or more (10 R224). -/
def wildCoord (b : Nat) : Bool := 142 ≤ b / 2 ^ 23 % 256

/-- A primitive that the rasteriser discards and counts (10 R224). -/
def invalidPrim (v : Nat) : Bool :=
  elem v 64 7 != 0 || (List.range 3).any (fun i => wildCoord (primWord v (4 * i)) || wildCoord (primWord v (4 * i + 1)))

/-- A triangle in fixed point. -/
structure Tri where
  x0 : Int
  y0 : Int
  x1 : Int
  y1 : Int
  x2 : Int
  y2 : Int
  deriving DecidableEq, Repr

/-- The triangle of a primitive record. -/
def triOf (v : Nat) : Tri :=
  let f := fun i => fixedPoint (primWord v i)
  ⟨f 0, f 1, f 4, f 5, f 8, f 9⟩

/-- The edge function (10 R226). -/
def edge (xa ya xb yb px py : Int) : Int := (xb - xa) * (py - ya) - (yb - ya) * (px - xa)

/-- Twice the signed area, A of 10 R226. -/
def Tri.area (t : Tri) : Int := (t.x1 - t.x0) * (t.y2 - t.y0) - (t.y1 - t.y0) * (t.x2 - t.x0)

/-- A point is on the covered side of an edge, or on a line that the edge owns; `sg` is the sign of A (10 R227). -/
def insideEdge (sg xa ya xb yb px py : Int) : Bool :=
  let e := sg * edge xa ya xb yb px py
  let dx := xb - xa
  let dy := yb - ya
  0 < e || (e == 0 && (0 < sg * dy || (sg * dy == 0 && sg * dx < 0)))

/-- The scissor and CULL of a raster state block (10 R225). -/
structure RasterState where
  sx0 : Nat
  sy0 : Nat
  sx1 : Nat
  sy1 : Nat
  cull : Nat
  deriving DecidableEq, Repr

/-- The raster state in a 64-byte block, none where it breaks 10 R225. -/
def rasterState (v : Nat) : Option RasterState :=
  let r : RasterState := ⟨elem v 16 0, elem v 16 1, elem v 16 2, elem v 16 3, elem v 64 1⟩
  if r.sy1 < r.sy0 || 16383 < r.sy1 || r.sx1 < r.sx0 || 16383 < r.sx1 || 2 < r.cull || v >>> 128 != 0 then none
  else some r

/-- A pixel is covered (10 R227). -/
def covered (r : RasterState) (t : Tri) (px py : Nat) : Bool :=
  let sg := t.area.sign
  let x : Int := 256 * px + 128
  let y : Int := 256 * py + 128
  r.sx0 ≤ px && px ≤ r.sx1 && r.sy0 ≤ py && py ≤ r.sy1 &&
    insideEdge sg t.x1 t.y1 t.x2 t.y2 x y && insideEdge sg t.x2 t.y2 t.x0 t.y0 x y && insideEdge sg t.x0 t.y0 t.x1 t.y1 x y

/-- The coverage of a block, bit 4r + c for pixel (c, r) (10 R228). -/
def coverage (r : RasterState) (t : Tri) (bx by_ : Nat) : Nat :=
  (List.range 16).foldl (fun m e => if covered r t (4 * bx + e % 4) (4 * by_ + e / 4) then m + 2 ^ e else m) 0

/-- The exact quotient num / den * 2^x rounded once to f32. -/
def ratioF32 (num den x : Int) : Nat :=
  let neg := (num < 0) != (den < 0)
  let up := 28 + Nat.log2 den.natAbs
  let n := num.natAbs <<< up
  if num == 0 then 0 else (f32.round 0 false neg (n / den.natAbs) (x - up) (n % den.natAbs != 0)).bits

/-- A vertex value as a multiple of 2^-149, none for a NaN or an infinity. -/
def planeValue (b : Nat) : Option Int :=
  match f32.decode false b with
  | .fin n m x => some ((if n then -1 else 1) * (m <<< (x + 149).toNat : Nat))
  | _ => none

/-- The three coefficients of the plane of values `f0`, `f1`, `f2`, in units of 2^-149, at a block (10 R229). -/
def plane (t : Tri) (bx by_ : Nat) (f : Option (Int × Int × Int)) : List Nat :=
  match f with
  | none => [f32.nan, f32.nan, f32.nan]
  | some (f0, f1, f2) =>
    let d1 := f1 - f0
    let d2 := f2 - f0
    let na := d1 * (t.y2 - t.y0) - d2 * (t.y1 - t.y0)
    let nb := d2 * (t.x1 - t.x0) - d1 * (t.x2 - t.x0)
    let nc := f0 * t.area + na * (1024 * bx + 128 - t.x0) + nb * (1024 * by_ + 128 - t.y0)
    [ratioF32 na t.area (-141), ratioF32 nb t.area (-141), ratioF32 nc t.area (-149)]

/-- The values of a plane at the three vertices. -/
def threeValues (v i : Nat) : Option (Int × Int × Int) :=
  match planeValue (primWord v i), planeValue (primWord v (i + 4)), planeValue (primWord v (i + 8)) with
  | some a, some b, some c => some (a, b, c)
  | _, _, _ => none

/-- A fragment record of 64 bytes (10 R229). -/
def fragment (v : Nat) (t : Tri) (bx by_ cov : Nat) : Nat :=
  let one : Int := 2 ^ 149
  packList 32 ([bx + 2 ^ 16 * by_, cov, primWord v 12, primWord v 13] ++ plane t bx by_ (some (0, one, 0)) ++
    plane t bx by_ (some (0, 0, one)) ++ plane t bx by_ (threeValues v 2) ++ plane t bx by_ (threeValues v 3))

/-- The blocks between two clipped pixel coordinates, from a bounding range in fixed point. -/
def blockRange (lo hi : Int) (s0 s1 : Nat) : List Nat :=
  let a := max (s0 : Int) ((lo - 128) / 256)
  let b := min (s1 : Int) ((hi - 128) / 256)
  if b < a then [] else List.range' (a.toNat / 4) (b.toNat / 4 + 1 - a.toNat / 4)

/-- The fragment records of a valid primitive in emission order (10 R228). -/
def fragments (r : RasterState) (v : Nat) : List Nat :=
  let t := triOf v
  let a := t.area
  if a == 0 || (r.cull == 1 && a < 0) || (r.cull == 2 && 0 < a) then []
  else
    let xs := blockRange (min t.x0 (min t.x1 t.x2)) (max t.x0 (max t.x1 t.x2)) r.sx0 r.sx1
    let ys := blockRange (min t.y0 (min t.y1 t.y2)) (max t.y0 (max t.y1 t.y2)) r.sy0 r.sy1
    ys.flatMap (fun y => xs.filterMap (fun x =>
      let cov := coverage r t x y
      if cov == 0 then none else some (fragment v t x y cov)))

/-- Fill slots with records while the ring has room: the state and the records left (10 R230). A record goes to the first 64
bytes of its slot; what the slot's further bytes hold after the fill of a whole slot the spec does not say, and here they stay
as they were (DESIGN CHOICE, log 56). -/
def fillRecords (c : Command) (k : CoreId) (n : Nat) : List Nat → State → List Nat × State
  | [], s => ([], s)
  | v :: rest, s =>
    if (s.ringAt k n).free == 0 then (v :: rest, s)
    else fillRecords c k n rest ((s.releaseTo c k).fillSlot k n none 64 v)

/-- Rasterise from primitive `i` of `count`: `done` records written, `bad` invalid ones, `left` still to be written. Where the
reader's core loses the sender domain's launch after earlier fills, for which the spec names no status, the command ends REJECTED
(DESIGN CHOICE, log 67). -/
def rastFrom (c : Command) (k : CoreId) (n : Nat) (block : Nat) (r : RasterState) (count : Nat) :
    Nat → State → Nat → Nat → Nat → List Nat → State
  | 0, s, _, _, _, _ => s
  | fuel + 1, s, i, done, bad, left =>
    if !s.holdsDomain k c.sender.domain then s.endCommand c rejected
    else
      let q := fillRecords c k n left s
      let done' := done + (left.length - q.1.length)
      if !q.1.isEmpty then q.2.pauseCommand c i done' bad (block :: q.1)
      else if count ≤ i then q.2.endCommand c (okValue (done' + 2 ^ 32 * bad))
      else
        match q.2.sourceRead c (pointerAddr c.msg.w2 + 64 * i) 64 with
        | .error e => e.1.endCommand c e.2
        | .ok (v, t) =>
          if invalidPrim v then rastFrom c k n block r count fuel t (i + 1) done' (bad + 1) []
          else rastFrom c k n block r count fuel t (i + 1) done' bad (fragments r v)

/-- Go on with a RAST whose state block is read. -/
def State.rastResume (s : State) (c : Command) (block i done bad : Nat) (left : List Nat) : State :=
  match rasterState block, designated c.msg.w5 with
  | some r, .ok (n, k) =>
    rastFrom c k n block r c.msg.w3.toNat (c.msg.w3.toNat + 1 - i) s i done bad left
  | _, _ => s.endCommand c badCmd

/-- RAST (10 R224 to R230; 17 R416). -/
def execRast (c : Command) (s : State) : Out :=
  let m := c.msg
  let a := s.agentOf c
  if a.started then
    .next (match a.words with
      | block :: left => s.rastResume c block a.done a.aux1 a.aux2 left
      | [] => s.endCommand c badCmd)
  else
    s.unless c (firstStop [
      badIf (m.w6 != 0 || m.w7 != 0 || 16777216 < m.w3.toNat), misaligned m.w2 64, misaligned m.w4 64, tagStop m.w4])
      (fun _ =>
        match s.sourceRead c (pointerAddr m.w4) 64 with
        | .error e => e.1.endCommand c e.2
        | .ok (block, t) =>
          match firstStop [badIf (rasterState block).isNone, t.ringStop c m.w5] with
          | some v => t.endCommand c v
          | none =>
            if m.w3 == 0 then t.endCommand c (okValue 0)
            else match firstStop [tagStop m.w2, t.extentStop c (pointerAddr m.w2) (64 * m.w3.toNat)] with
              | some v => t.endCommand c v
              | none => t.rastResume c block 0 0 0 [])

/-! ### The mesh distributor -/

/-- The program cores of a rectangle, row-major (10 R231). -/
def rectCores (w : Word) : List CoreId :=
  (List.range' (bits w 15 8) (bits w 31 24 + 1 - bits w 15 8)).flatMap (fun y =>
    (List.range' (bits w 7 0) (bits w 23 16 + 1 - bits w 7 0)).filterMap (fun x =>
      if isReserved (coreOf x y) then none else some (coreOf x y)))

/-- A message of 64 bytes. -/
def messageOf (v : Nat) : Message :=
  let w := fun i => BitVec.ofNat 64 (elem v 64 i)
  ⟨w 0, w 1, w 2, w 3, w 4, w 5, w 6, w 7⟩

/-- The state block of MESH is as 10 R231 has it. -/
def meshStateOk (v : Nat) : Bool := elem v 64 0 / 4 % 2 ^ 30 == 0 && v >>> 64 == 0

/-- Deliver descriptors from number `i`. -/
def meshFrom (c : Command) (block : Nat) (cores : List CoreId) (count : Nat) : Nat → State → Nat → Nat → State
  | 0, s, _, _ => s
  | fuel + 1, s, i, done =>
    if count ≤ i then s.endCommand c (okValue done)
    else
      match s.sourceRead c (pointerAddr c.msg.w2 + 64 * i) 64 with
      | .error e => e.1.endCommand c e.2
      | .ok (v, t) =>
        let k := cores[(block / 2 ^ 32 + i) % cores.length]?.getD 0
        if !t.holdsDomain k c.sender.domain then
          meshFrom c block cores count fuel (t.countMsgErr (dieOf k)) (i + 1) done
        else
          let header := BitVec.ofNat 64 (0x80 * 2 ^ 56 + block % 4 * 2 ^ 52 + i)
          match (t.releaseTo c k).toInbox c.sender k { messageOf v with w0 := header } with
          | some u => meshFrom c block cores count fuel u (i + 1) (done + 1)
          | none => t.pauseCommand c i done 0 [block]

/-- MESH (10 R231; 17 R392). -/
def execMesh (c : Command) (s : State) : Out :=
  let m := c.msg
  let a := s.agentOf c
  let count := m.w3.toNat
  let cores := rectCores m.w5
  if a.started then
    .next (match a.words with
      | block :: _ => meshFrom c block cores count (count + 1 - a.done) s a.done a.aux1
      | [] => s.endCommand c badCmd)
  else
    s.unless c (firstStop [
      badIf (m.w6 != 0 || m.w7 != 0 || 1048576 < count), misaligned m.w2 64, misaligned m.w4 64, tagStop m.w4]) (fun _ =>
        match s.sourceRead c (pointerAddr m.w4) 64 with
        | .error e => e.1.endCommand c e.2
        | .ok (block, t) =>
          match firstStop [
              badIf (!meshStateOk block || !scopeOk m.w5 || scopeKind m.w5 != 1 || cores.isEmpty),
              if count != 0 then tagStop m.w2 else none, t.extentStop c (pointerAddr m.w2) (64 * count)] with
          | some v => t.endCommand c v
          | none => meshFrom c block cores count (count + 1) t 0 0)

/-! ### The blend unit -/

/-- A target descriptor and a blend state (10 R234). -/
structure Blend where
  cbase : Nat
  zbase : Nat
  width : Nat
  height : Nat
  cfmt : Nat
  cpitch : Nat
  zpitch : Nat
  srcc : Nat
  dstc : Nat
  opc : Nat
  srca : Nat
  dsta : Nat
  opa : Nat
  zfunc : Nat
  zwrite : Bool
  count : Nat
  deriving DecidableEq, Repr

/-- Bytes of a texel of a colour format. -/
def Blend.texel (b : Blend) : Nat := if b.cfmt == 0 then 4 else if b.cfmt == 1 then 8 else 16

/-- The blend of two 64-byte blocks. -/
def blendRecord (t v : Nat) : Blend :=
  { cbase := fieldOf t 0 51 0, zbase := fieldOf t 1 51 0, width := fieldOf t 2 15 0, height := fieldOf t 2 31 16
    cfmt := fieldOf t 2 35 32, cpitch := fieldOf t 3 31 0, zpitch := fieldOf t 4 31 0
    srcc := fieldOf v 0 2 0, dstc := fieldOf v 0 6 4, opc := fieldOf v 0 10 8
    srca := fieldOf v 0 14 12, dsta := fieldOf v 0 18 16, opa := fieldOf v 0 22 20
    zfunc := fieldOf v 0 26 24, zwrite := fieldOf v 0 28 28 == 1, count := fieldOf v 1 31 0 }

/-- The bits that 10 R234 leaves zero are zero. -/
def blendReserved (t v : Nat) : Bool :=
  fieldOf t 0 63 52 == 0 && fieldOf t 1 63 52 == 0 && fieldOf t 2 63 36 == 0 && fieldOf t 3 63 32 == 0 &&
  fieldOf t 4 63 32 == 0 && t >>> 320 == 0 && imageWord v 0 &&& 0xFFFFFFFFE8888888 == 0 && fieldOf v 1 63 32 == 0 &&
  v >>> 128 == 0

/-- The values that 10 R234 admits. -/
def Blend.ok (b : Blend) : Bool :=
  b.cfmt ≤ 2 && b.cbase % b.texel == 0 && b.zbase % 4 == 0 && 1 ≤ b.width && b.width ≤ 16384 && 1 ≤ b.height &&
  b.height ≤ 16384 && b.cpitch % b.texel == 0 && b.zpitch % 4 == 0 && b.srcc ≤ 5 && b.dstc ≤ 5 && b.srca ≤ 5 &&
  b.dsta ≤ 5 && b.opc ≤ 4 && b.opa ≤ 4 && 1 ≤ b.count && b.count ≤ 16777216

/-- A blend factor (10 R234). -/
def factor (code sa da : Nat) : Nat :=
  if code == 0 then 0 else if code == 1 then oneF32 else if code == 2 then sa
  else if code == 3 then subF oneF32 sa else if code == 4 then da else subF oneF32 da

/-- One channel (10 R235). -/
def blendChannel (src dst op sa da s d : Nat) : Nat :=
  let p := mulF s (factor src sa da)
  let q := mulF d (factor dst sa da)
  if op == 0 then (f32.add 0 false p q).bits else if op == 1 then subF p q else if op == 2 then subF q p
  else if op == 3 then minF s d else maxF s d

/-- A stored channel as f32 (10 R235). -/
def loadChannel (fmt v : Nat) : Nat := if fmt == 0 then unorm8 v else if fmt == 1 then (convert 10 8 0 false v).bits else v

/-- An f32 channel as it is stored (10 R235). -/
def storeChannel (fmt r : Nat) : Nat :=
  if fmt == 0 then
    match f32.decode false r with
    | .nan _ => 0
    | .inf n => if n then 0 else 255
    | .fin n m x => if n then 0 else min 255 (roundAt 0 false (255 * m) x false 0).1
  else if fmt == 1 then (convert 8 10 0 false r).bits
  else r

/-- The texel after a blend of four source channels in f32. -/
def blendTexel (b : Blend) (s d : Nat) : Nat :=
  let w := 2 * b.texel
  let sc := fun i => elem s 32 i
  let dc := fun i => loadChannel b.cfmt (elem d w i)
  packList w ((List.range 4).map (fun i => storeChannel b.cfmt
    (if i == 3 then blendChannel b.srca b.dsta b.opa (sc 3) (dc 3) (sc i) (dc i)
    else blendChannel b.srcc b.dstc b.opc (sc 3) (dc 3) (sc i) (dc i))))

/-- The depth test of ZFUNC (10 R234, R235). -/
def depthPasses (zfunc new old : Nat) : Bool :=
  let w := (f32.cmp false new old).bits
  if zfunc == 0 then false else if zfunc == 1 then w / 4 % 2 == 1 else if zfunc == 2 then w % 2 == 1
  else if zfunc == 3 then w / 16 % 2 == 1 else if zfunc == 4 then w / 32 % 2 == 1 else if zfunc == 5 then w / 2 % 2 == 1
  else if zfunc == 6 then w / 8 % 2 == 1 else true

/-- Blend element `e` of a record (10 R235). With no depth buffer no depth is written (log 39). -/
def blendElement (c : Command) (b : Blend) (rcd e : Nat) (s : State) : Access State :=
  let px := 4 * (rcd % 2 ^ 16) + e % 4
  let py := 4 * (elem rcd 16 1) + e / 4
  if rcd >>> (32 + e) % 2 == 0 || b.width ≤ px || b.height ≤ py then .ok s
  else
    let za : Int := (b.zbase + py * b.zpitch + 4 * px : Nat)
    let depth := elem rcd 32 (16 + e)
    let test : Access (Bool × State) :=
      if b.zbase == 0 then .ok (true, s)
      else match s.sourceRead c za 4 with
        | .ok (old, t) => .ok (depthPasses b.zfunc depth old, t)
        | .error x => .error x
    match test with
    | .error x => .error x
    | .ok (false, t) => .ok t
    | .ok (true, t) =>
      let ca : Int := (b.cbase + py * b.cpitch + b.texel * px : Nat)
      match t.sourceRead c ca b.texel with
      | .error x => .error x
      | .ok (d, u) =>
        let src := packList 32 ((List.range 4).map (fun i => (convert 10 8 0 false (elem (elem rcd 64 (16 + e)) 16 i)).bits))
        match u.destWrite c ca b.texel (blendTexel b src d) with
        | .error x => .error x
        | .ok v => if b.zwrite && b.zbase != 0 then v.destWrite c za 4 depth else .ok v

/-- Blend elements from `e` up. -/
def blendElements (c : Command) (b : Blend) (rcd : Nat) : Nat → Nat → State → Access State
  | 0, _, s => .ok s
  | n + 1, e, s =>
    match blendElement c b rcd e s with
    | .error x => .error x
    | .ok t => blendElements c b rcd n (e + 1) t

/-- A record that is skipped and counted (10 R233). -/
def skippedRecord (rcd : Nat) : Bool := fieldOf rcd 0 63 48 != 0 || (rcd >>> 64) % 2 ^ 448 != 0

/-- Take and blend records until COUNT are done or the ring is empty (10 R232; 15 R338). Where the ring's core loses the sender
domain's launch between records, for which the spec names no status, the command ends REJECTED (DESIGN CHOICE, log 67). -/
def blendFrom (c : Command) (k : CoreId) (n : Nat) (words : List Nat) (b : Blend) : Nat → State → Nat → Nat → State
  | 0, s, _, _ => s
  | fuel + 1, s, done, skipped =>
    if b.count ≤ done + skipped then s.endCommand c (okValue (done + 2 ^ 32 * skipped))
    else if !s.holdsDomain k c.sender.domain then s.endCommand c rejected
    else
      let r := s.ringAt k n
      if r.filled == 0 then s.pauseCommand c done skipped 0 words
      else
        let t := (s.putRing k n r.take).modDie c.die Die.discardClean
        let rcd := t.localRead k (r.slotOff r.rdidx) 256
        let back := fun (u : State) => u.putRing k n (u.ringAt k n).giveBack
        if skippedRecord rcd then blendFrom c k n words b fuel (back t) done (skipped + 1)
        else match blendElements c b rcd 16 0 t with
          | .error x => (back x.1).endCommand c x.2
          | .ok u => blendFrom c k n words b fuel (back u) (done + 1) skipped

/-- Go on with a BLEND whose descriptor and state are read. -/
def State.blendResume (s : State) (c : Command) (words : List Nat) (done skipped : Nat) : State :=
  match words, designated c.msg.w2 with
  | [t, v], .ok (n, k) =>
    let b := blendRecord t v
    blendFrom c k n words b (b.count + 1 - (done + skipped)) s done skipped
  | _, _ => s.endCommand c badCmd

/-- The first row of a render target or of its depth buffer that a command may not name (06 R112). -/
def State.targetStop (s : State) (c : Command) (b : Blend) : Option Verdict :=
  firstStop [s.rowsStop c (b.width * b.texel) b.height b.cbase b.cpitch,
    if b.zbase == 0 then none else s.rowsStop c (4 * b.width) b.height b.zbase b.zpitch]

/-- BLEND (10 R232 to R236; 15 R338). -/
def execBlend (c : Command) (s : State) : Out :=
  let m := c.msg
  let a := s.agentOf c
  if a.started then .next (s.blendResume c a.words a.done a.aux1)
  else
    let slot := match designated m.w2 with
      | .ok (n, k) => (s.ringAt k n).szlog
      | .error _ => 0
    s.unless c (firstStop [
      badIf (m.w5 != 0 || m.w6 != 0 || m.w7 != 0), s.ringStop c m.w2,
      badIf (slot < 8 || m.w3.toNat % 64 != 0 || m.w4.toNat % 64 != 0), tagStop m.w3, tagStop m.w4]) (fun _ =>
        match s.sourceRead c (pointerAddr m.w3) 64 with
        | .error e => e.1.endCommand c e.2
        | .ok (t, s1) =>
          match s1.sourceRead c (pointerAddr m.w4) 64 with
          | .error e => e.1.endCommand c e.2
          | .ok (v, s2) =>
            if !blendReserved t v || !(blendRecord t v).ok then s2.endCommand c badCmd
            else match s2.targetStop c (blendRecord t v) with
              | some w => s2.endCommand c w
              | none => s2.blendResume c [t, v] 0 0)

end Sys2Proof.Machine
end

