-- ==== Sys2Proof/Machine/Splat.lean ====
section
/-! DEFINITION. The splat unit (11 R250 to R264; 17 R419). -/
namespace Sys2Proof.Machine
open Sys2Proof

/-! ### Arithmetic (11 R256) -/

/-- f32 addition. -/
def addF (a b : Nat) : Nat := (f32.add 0 false a b).bits

/-- f32 division. -/
def divF (a b : Nat) : Nat := (f32.div 0 false a b).bits

/-- f32 square root. -/
def sqrtF (a : Nat) : Nat := (f32.sqrt 0 false a).bits

/-- The exact change of sign. -/
def negF (a : Nat) : Nat := f32.negate a

/-- 2 to the power of an f32. -/
def powF (a : Nat) : Nat := (exp2F 0 false a).bits

/-- a < b; false with a NaN. -/
def ltF (a b : Nat) : Bool := !nanF a && !nanF b && ltVal (f32.decode false a) (f32.decode false b) &&
  !eqVal (f32.decode false a) (f32.decode false b)

/-- A finite f32. -/
def finF (a : Nat) : Bool := a / 2 ^ 23 % 256 != 255

/-- fm of three terms: x3 * y3 + (x2 * y2 + x1 * y1), each step rounded once. -/
def dot3 (x1 y1 x2 y2 x3 y3 : Nat) : Nat := fmaF x3 y3 (fmaF x2 y2 (mulF x1 y1))

/-- D, the dilation. -/
def splatD : Nat := 0x3E99999A
/-- L2E. -/
def splatL2E : Nat := 0x3FB8AA3B
/-- AMAX. -/
def splatAmax : Nat := 0x3F7D70A4
/-- AMIN. -/
def splatAmin : Nat := 0x3B808081
/-- The default TCUT. -/
def splatTcut : Nat := 0x39000000
/-- -0.5. -/
def minusHalf : Nat := 0xBF000000

/-! ### Checks (11 R251) -/

/-- An extent of a command: base, bytes, and whether it is written. -/
abbrev Extent := Int × Nat × Bool

/-- A destination overlaps another extent (11 R251). -/
def extentsOverlap (c : Command) (xs : List Extent) : Bool :=
  (List.range xs.length).any (fun i => (List.range xs.length).any (fun j =>
    match xs[i]?, xs[j]? with
    | some a, some b => i != j && a.2.2 && overlap c a.1 a.2.1 b.1 b.2.1
    | _, _ => false))

/-- The first extent that the command may not name (06 R112). -/
def State.extentsStop (s : State) (c : Command) (xs : List Extent) : Option Verdict :=
  xs.findSome? (fun x => s.extentStop c x.1 x.2.1)

/-- WIDTH and HEIGHT of an image (11 R254, R258). -/
def sizeOk (w h : Nat) : Bool := 1 ≤ w && w ≤ 4096 && 1 ≤ h && h ≤ 4096

/-- Tiles along a side (11 R254). -/
def tilesOf (w : Nat) : Nat := (w + 15) / 16

/-- A camera block of 128 bytes is as 11 R254 has it. -/
def cameraOk (v : Nat) : Bool :=
  (List.range 17).all (fun i => finF (elem v 32 i)) && ltF 0 (elem v 32 16) && sizeOk (elem v 32 17) (elem v 32 18) &&
  v >>> (32 * 19) == 0

/-! ### SPROJ (11 R253 to R257) -/

/-- An input record of 64 bytes is invalid (11 R253). -/
def invalidSplat (v : Nat) : Bool :=
  v >>> 384 != 0 || (List.range 6).any (fun i => !finF (elem v 32 i)) ||
  (List.range 4).any (fun i => elem v 16 (12 + i) / 1024 % 32 == 31)

/-- A 3-by-3 matrix or a pair of rows, by row and column. -/
abbrev Grid := Nat → Nat → Nat

/-- The rotation matrix R of 11 R257, from the quaternion and g. -/
def rotation (g qw qx qy qz : Nat) : Grid := fun i j =>
  let diag := fun a b => subF oneF32 (mulF g (addF a b))
  let xy := mulF qx qy
  let xz := mulF qx qz
  let yz := mulF qy qz
  let wx := mulF qw qx
  let wy := mulF qw qy
  let wz := mulF qw qz
  let xx := mulF qx qx
  let yy := mulF qy qy
  let zz := mulF qz qz
  match i, j with
  | 0, 0 => diag yy zz
  | 0, 1 => mulF g (subF xy wz)
  | 0, _ => mulF g (addF xz wy)
  | 1, 0 => mulF g (addF xy wz)
  | 1, 1 => diag xx zz
  | 1, _ => mulF g (subF yz wx)
  | _, 0 => mulF g (subF xz wy)
  | _, 1 => mulF g (addF yz wx)
  | _, _ => diag xx yy

/-- floor((u + k) / 16) for a finite f32 u and an integer k (11 R257). -/
def tileFloor (u : Nat) (k : Int) : Int :=
  match f32.decode false u with
  | .fin n m x =>
    let t := exactSum n m x (k < 0) k.natAbs 0
    if 0 ≤ t.2 then t.1 * 2 ^ t.2.toNat / 16 else t.1 / (16 * 2 ^ (-t.2).toNat)
  | _ => 0

/-- The radius from rr: its ceiling, at most 4,096; none for a NaN (11 R257). -/
def radiusOf (rr : Nat) : Option Nat :=
  match f32.decode false rr with
  | .nan _ => none
  | .inf _ => some 4096
  | .fin n m x => if n then some 0 else some (min 4096 (roundAt 3 false m x false 0).1)

/-- A screen box in tiles, clipped; none when it lies outside. -/
def tileBox (u v rad ntx nty : Nat) : Option (Nat × Nat × Nat × Nat) :=
  let x0 := tileFloor u (-rad)
  let x1 := tileFloor u rad
  let y0 := tileFloor v (-rad)
  let y1 := tileFloor v rad
  if x1 < 0 || y1 < 0 || (ntx : Int) - 1 < x0 || (nty : Int) - 1 < y0 then none
  else some (x0.toNat, y0.toNat, min x1.toNat (ntx - 1), min y1.toNat (nty - 1))

/-- The covariance Q of 11 R257 in screen space: (Q00, Q01, Q11). -/
def screenCov (wv : Grid) (scale : Nat → Nat) (r : Grid) (j00 j02 j11 j12 : Nat) : Nat × Nat × Nat :=
  let m : Grid := fun i k => mulF (r i k) (scale k)
  let s3 : Grid := fun i k => dot3 (m i 0) (m k 0) (m i 1) (m k 1) (m i 2) (m k 2)
  let t : Grid := fun i k => if i == 0 then fmaF j02 (wv 2 k) (mulF j00 (wv 0 k)) else fmaF j12 (wv 2 k) (mulF j11 (wv 1 k))
  let u : Grid := fun i k => dot3 (t i 0) (s3 0 k) (t i 1) (s3 1 k) (t i 2) (s3 2 k)
  let q : Grid := fun i k => dot3 (u i 0) (t k 0) (u i 1) (t k 1) (u i 2) (t k 2)
  (q 0 0, q 0 1, q 1 1)

/-- The conic and the radius from the covariance (11 R257): (a, b, c, RAD). -/
def conicOf (q : Nat × Nat × Nat) : Option (Nat × Nat × Nat × Nat) :=
  let a1 := addF q.1 splatD
  let c1 := addF q.2.2 splatD
  let b1 := q.2.1
  let det := fmaF a1 c1 (negF (mulF b1 b1))
  if !ltF 0 det || det == f32.infBits then none
  else
    let ia := divF oneF32 det
    let mid := mulF 0x3F000000 (addF a1 c1)
    let q0 := fmaF mid mid (negF det)
    let lam := addF mid (sqrtF (if ltF 0 q0 then q0 else 0))
    match radiusOf (mulF 0x40400000 (sqrtF lam)) with
    | some rad => some (mulF c1 ia, negF (mulF b1 ia), mulF a1 ia, rad)
    | none => none

/-- The projected record of an input record under a camera block, none when culled (11 R255, R257). -/
def project (cam v : Nat) : Option Nat :=
  let f := fun i => elem v 32 i
  let wv : Grid := fun r k => elem cam 32 (4 * r + k)
  let h := fun i => (convert 10 8 0 false (elem v 16 (12 + i))).bits
  let p := fun r => addF (wv r 3) (dot3 (wv r 0) (f 0) (wv r 1) (f 1) (wv r 2) (f 2))
  let xv := p 0
  let yv := p 1
  let zv := p 2
  let fx := elem cam 32 12
  let fy := elem cam 32 13
  let n2 := fmaF (h 3) (h 3) (dot3 (h 0) (h 0) (h 1) (h 1) (h 2) (h 2))
  if !ltF (elem cam 32 16) zv || zv == f32.infBits || !ltF 0 n2 then none
  else
    let r := rotation (divF 0x40000000 n2) (h 0) (h 1) (h 2) (h 3)
    let j00 := divF fx zv
    let j11 := divF fy zv
    let q := screenCov wv (fun k => f (3 + k)) r j00 (negF (divF (mulF j00 xv) zv)) j11 (negF (divF (mulF j11 yv) zv))
    match conicOf q with
    | none => none
    | some (a, b, c, rad) =>
      let u := addF (mulF fx (divF xv zv)) (elem cam 32 14)
      let w := addF (mulF fy (divF yv zv)) (elem cam 32 15)
      if !finF u || !finF w || rad == 0 then none
      else match tileBox u w rad (tilesOf (elem cam 32 17)) (tilesOf (elem cam 32 18)) with
        | none => none
        | some (x0, y0, x1, y1) =>
          some (packList 32 [u, w, zv, a, b, c, f 8, f 9, f 10, f 11, rad, x0 + 2 ^ 8 * y0 + 2 ^ 16 * x1 + 2 ^ 24 * y1])

/-- Project `n` records from record `i`. -/
def projectFrom (c : Command) (cam : Nat) (a b : Int) : Nat → Nat → State → Nat → Nat → State
  | 0, _, s, kept, bad => s.endCommand c (okValue (kept + 2 ^ 32 * bad))
  | n + 1, i, s, kept, bad =>
    match s.sourceRead c (a + 64 * i) 64 with
    | .error e => e.1.endCommand c e.2
    | .ok (v, t) =>
      let out := if invalidSplat v then none else project cam v
      match t.destWrite c (b + 48 * i) 48 (out.getD 0) with
      | .error e => e.1.endCommand c e.2
      | .ok u =>
        projectFrom c cam a b n (i + 1) u (if out.isSome then kept + 1 else kept) (if invalidSplat v then bad + 1 else bad)

/-- SPROJ (11 R257). With a count of 0 the camera block is read and checked too, before the OK reply: 11 R251 does not say whether
its check 3 comes before 'at once' (DESIGN CHOICE, log 68). -/
def execSproj (c : Command) (s : State) : Out :=
  let m := c.msg
  let n := m.w3.toNat
  let a : Int := pointerAddr m.w2
  let b : Int := pointerAddr m.w5
  let p : Int := pointerAddr m.w4
  let xs : List Extent := [(a, 64 * n, false), (p, 128, false), (b, 48 * n, true)]
  s.unless c (firstStop [
    badIf (m.w6 != 0 || m.w7 != 0 || 16777216 < n), misaligned m.w2 64, misaligned m.w4 64, misaligned m.w5 16,
    tagStop m.w4, s.extentStop c p 128]) (fun _ =>
      match s.sourceRead c p 128 with
      | .error e => e.1.endCommand c e.2
      | .ok (cam, t) =>
        match firstStop [
            badIf (!cameraOk cam), badIf (extentsOverlap c xs), if n != 0 then tagStop m.w2 else none,
            if n != 0 then tagStop m.w5 else none, t.extentsStop c xs] with
        | some v => t.endCommand c v
        | none => projectFrom c cam a b n 0 t 0 0)

/-! ### SSORT (11 R258, R259) -/

/-- An entry of the sort: its key and its splat index. -/
abbrev Entry := Nat × Nat

/-- The entries of a projected record, tile by tile (11 R259). -/
def entriesOf (ntx nty i v : Nat) : List Entry :=
  if elem v 32 10 == 0 then []
  else
    let box := elem v 32 11
    let x0 := box % 256
    let y0 := box / 2 ^ 8 % 256
    let x1 := min (box / 2 ^ 16 % 256) (ntx - 1)
    let y1 := min (box / 2 ^ 24 % 256) (nty - 1)
    (List.range' y0 (y1 + 1 - y0)).flatMap (fun y => (List.range' x0 (x1 + 1 - x0)).map (fun x =>
      ((y * ntx + x) * 2 ^ 32 + elem v 32 2, i)))

/-- Insert an entry behind those of no greater key. -/
def insertEntry (e : Entry) : List Entry → List Entry
  | [] => [e]
  | x :: xs => if x.1 ≤ e.1 then x :: insertEntry e xs else e :: x :: xs

/-- The stable sort by key (11 R259). -/
def sortEntries (es : List Entry) : List Entry := es.foldl (fun r e => insertEntry e r) []

/-- Collect the entries of `n` records from record `i`. -/
def collectEntries (c : Command) (a : Int) (ntx nty : Nat) : Nat → Nat → State → List Entry → Access (List Entry × State)
  | 0, _, s, acc => .ok (acc, s)
  | n + 1, i, s, acc =>
    match s.sourceRead c (a + 48 * i) 48 with
    | .error e => .error e
    | .ok (v, t) => collectEntries c a ntx nty n (i + 1) t (acc ++ entriesOf ntx nty i v)

/-- The ranges of the tiles of sorted entries as 8-byte words (11 R258). -/
def rangesOf (es : List Entry) (tiles : Nat) : List Nat :=
  (List.range tiles).map (fun t =>
    es.countP (fun e => e.1 / 2 ^ 32 < t) + 2 ^ 32 * es.countP (fun e => e.1 / 2 ^ 32 ≤ t))

/-- SSORT (11 R259). -/
def execSsort (c : Command) (s : State) : Out :=
  let m := c.msg
  let n := m.w3.toNat
  let cap := m.w5.toNat
  let a : Int := pointerAddr m.w2
  let b : Int := pointerAddr m.w4
  let r : Int := pointerAddr m.w6
  s.unless c (firstStop [
    badIf (m.w7 != 0 || 16777216 < n || 2 ^ 32 ≤ cap), misaligned m.w2 16, misaligned m.w4 4, misaligned m.w6 8,
    tagStop m.w6, s.extentStop c r 16]) (fun _ =>
      match s.sourceRead c r 16 with
      | .error e => e.1.endCommand c e.2
      | .ok (hd, t) =>
        let ntx := tilesOf (elem hd 32 0)
        let nty := tilesOf (elem hd 32 1)
        let xs : List Extent := [(a, 48 * n, false), (r, 16 + 8 * (ntx * nty), true), (b, 4 * cap, true)]
        match firstStop [
            badIf (!sizeOk (elem hd 32 0) (elem hd 32 1) || hd >>> 64 != 0), badIf (extentsOverlap c xs),
            if n != 0 then tagStop m.w2 else none, if cap != 0 then tagStop m.w4 else none, t.extentsStop c xs] with
        | some v => t.endCommand c v
        | none =>
          match collectEntries c a ntx nty n 0 t [] with
          | .error e => e.1.endCommand c e.2
          | .ok (es, u) =>
            if cap < es.length then u.endCommand c (3, BitVec.ofNat 64 es.length)
            else
              let sorted := sortEntries es
              match u.destWrite c b (4 * es.length) (packList 32 (sorted.map (fun e => e.2))) with
              | .error e => e.1.endCommand c e.2
              | .ok w => State.complete c (okValue es.length)
                  (w.destWrite c (r + 16) (8 * (ntx * nty)) (packList 64 (rangesOf sorted (ntx * nty)))))

/-! ### The tables of SBLEND and SBWD -/

/-- What SBLEND and SBWD have read before their checks end: the image size, the ranges and the list. -/
structure SplatTable where
  width : Nat
  height : Nat
  ranges : List (Nat × Nat)
  list : Nat

/-- The largest range end. -/
def SplatTable.top (t : SplatTable) : Nat := t.ranges.foldl (fun m r => max m r.2) 0

/-- List entry `j`. -/
def SplatTable.entry (t : SplatTable) (j : Nat) : Nat := elem t.list 32 j

/-- Bytes of projected records that the ranges reach (11 R251). -/
def SplatTable.recordBytes (t : SplatTable) : Nat :=
  t.ranges.foldl (fun m r => (List.range' r.1 (r.2 - r.1)).foldl (fun k j => max k (48 * (t.entry j + 1))) m) 0

/-- The range of a tile. -/
def SplatTable.range (t : SplatTable) (i : Nat) : Nat × Nat := t.ranges[i]?.getD (0, 0)

/-- Read the list entries of the ranges into one number, entry `j` at its place; equal positions are read again. -/
def readLists (c : Command) (base : Int) : List (Nat × Nat) → State → Nat → Access (Nat × State)
  | [], s, acc => .ok (acc, s)
  | r :: rest, s, acc =>
    match s.sourceRead c (base + 4 * r.1) (4 * (r.2 - r.1)) with
    | .error e => .error e
    | .ok (v, t) =>
      let gap := 2 ^ (32 * (r.2 - r.1))
      let kept := acc % 2 ^ (32 * r.1) + (acc >>> (32 * r.1) / gap * gap) <<< (32 * r.1)
      readLists c base rest t (kept + v <<< (32 * r.1))

/-- Steps 3 and 4 of 11 R251 and the list reads of step 5, for SBLEND and SBWD. -/
def State.readSplatTable (s : State) (c : Command) : Access (SplatTable × State) :=
  let m := c.msg
  let base : Int := pointerAddr m.w2
  match firstStop [tagStop m.w2, s.extentStop c base 16] with
  | some v => .error (s, v)
  | none =>
    match s.sourceRead c base 16 with
    | .error e => .error e
    | .ok (hd, t) =>
      let w := elem hd 32 0
      let h := elem hd 32 1
      let n := tilesOf w * tilesOf h
      if !sizeOk w h || hd >>> 64 != 0 then .error (t, badCmd)
      else match t.extentStop c base (16 + 8 * n) with
        | some v => .error (t, v)
        | none =>
          match t.sourceRead c (base + 16) (8 * n) with
          | .error e => .error e
          | .ok (tab, u) =>
            let ranges := (List.range n).map (fun i => (elem tab 32 (2 * i), elem tab 32 (2 * i + 1)))
            if ranges.any (fun r => r.2 < r.1) then .error (u, badCmd)
            else if ranges.all (fun r => r.1 == r.2) then .ok (⟨w, h, ranges, 0⟩, u)
            else match firstStop [tagStop m.w3, u.extentStop c (pointerAddr m.w3) (4 * (ranges.foldl (fun k r => max k r.2) 0))] with
              | some v => .error (u, v)
              | none =>
                match readLists c (pointerAddr m.w3) ranges u 0 with
                | .error e => .error e
                | .ok (l, x) => .ok (⟨w, h, ranges, l⟩, x)

/-- Read the projected records of list positions `j` to `j + n - 1`. -/
def readSplats (c : Command) (t : SplatTable) (base : Int) : Nat → Nat → State → Access (List Nat × State)
  | 0, _, s => .ok ([], s)
  | n + 1, j, s =>
    match s.sourceRead c (base + 48 * t.entry j) 48 with
    | .error e => .error e
    | .ok (v, u) =>
      match readSplats c t base n (j + 1) u with
      | .error e => .error e
      | .ok (vs, x) => .ok (v :: vs, x)

/-- What eval of 11 R261 returns for a splat that is not skipped. -/
structure Eval where
  alpha : Nat
  clamp : Bool
  e : Nat
  a0 : Nat
  dx : Nat
  dy : Nat

/-- eval of 11 R261 for a projected record and a pixel. -/
def evalSplat (v px py : Nat) : Option Eval :=
  let f := fun i => elem v 32 i
  let half := fun (p : Nat) => (f32.round 0 false false (2 * p + 1) (-1) false).bits
  let dx := subF (half px) (f 0)
  let dy := subF (half py) (f 1)
  let q1 := mulF (mulF (f 3) dx) dx
  let q2 := mulF (mulF (f 5) dy) dy
  let q3 := mulF (mulF (f 4) dx) dy
  let power := subF (mulF minusHalf (addF q1 q2)) q3
  if ltF 0 power then none
  else
    let e := powF (mulF power splatL2E)
    let a0 := mulF (f 6) e
    if !leF splatAmin a0 then none
    else if ltF splatAmax a0 then some ⟨splatAmax, true, e, a0, dx, dy⟩
    else some ⟨a0, false, e, a0, dx, dy⟩

/-- Colour channel `ch` of a projected record. -/
def splatColour (v ch : Nat) : Nat := elem v 32 (7 + ch)

/-! ### SBLEND (11 R261) -/

/-- A pixel in the course of SBLEND: T, the colours and n. -/
structure Pixel where
  t : Nat
  r : Nat
  g : Nat
  b : Nat
  n : Nat

/-- The splats of a tile from number `k`, blended at a pixel. -/
def blendSplats (tcut px py : Nat) : List Nat → Nat → Pixel → Pixel
  | [], _, p => p
  | v :: vs, k, p =>
    match evalSplat v px py with
    | none => blendSplats tcut px py vs (k + 1) p
    | some e =>
      let tn := mulF p.t (subF oneF32 e.alpha)
      if ltF tn tcut then p
      else
        let w := mulF e.alpha p.t
        blendSplats tcut px py vs (k + 1)
          ⟨tn, addF p.r (mulF (splatColour v 0) w), addF p.g (mulF (splatColour v 1) w),
            addF p.b (mulF (splatColour v 2) w), k + 1⟩

/-- The pixels of tile `i` inside the image, in raster order. -/
def SplatTable.pixels (t : SplatTable) (i : Nat) : List (Nat × Nat) :=
  let x0 := 16 * (i % tilesOf t.width)
  let y0 := 16 * (i / tilesOf t.width)
  (List.range' y0 (min 16 (t.height - y0))).flatMap (fun y =>
    (List.range' x0 (min 16 (t.width - x0))).map (fun x => (x, y)))

/-- Write the image and the state of each pixel of a tile. -/
def blendPixels (c : Command) (tab : SplatTable) (tcut : Nat) (img st : Int) (vs : List Nat) :
    List (Nat × Nat) → State → Access State
  | [], s => .ok s
  | (x, y) :: rest, s =>
    let p := blendSplats tcut x y vs 0 ⟨oneF32, 0, 0, 0, 0⟩
    let k : Int := (y * tab.width + x : Nat)
    match s.destWrite c (img + 16 * k) 16 (packList 32 [p.r, p.g, p.b, subF oneF32 p.t]) with
    | .error e => .error e
    | .ok t =>
      match t.destWrite c (st + 8 * k) 8 (packList 32 [p.t, p.n]) with
      | .error e => .error e
      | .ok u => blendPixels c tab tcut img st vs rest u

/-- Blend `n` tiles from tile `i`. -/
def blendTiles (c : Command) (tab : SplatTable) (tcut : Nat) (rcds img st : Int) : Nat → Nat → State → Access State
  | 0, _, s => .ok s
  | n + 1, i, s =>
    let r := tab.range i
    match readSplats c tab rcds (r.2 - r.1) r.1 s with
    | .error e => .error e
    | .ok (vs, t) =>
      match blendPixels c tab tcut img st vs (tab.pixels i) t with
      | .error e => .error e
      | .ok u => blendTiles c tab tcut rcds img st n (i + 1) u

/-- SBLEND (11 R261). A TCUT of -0, of which 11 R251 does not say whether it is zero, gives BADCMD: its word is neither zero nor
in the range (DESIGN CHOICE, log 69). -/
def execSblend (c : Command) (s : State) : Out :=
  let m := c.msg
  let cut := m.w7.toNat
  let tcut := if cut == 0 then splatTcut else cut
  s.unless c (firstStop [
    misaligned m.w2 8, misaligned m.w3 4, misaligned m.w4 16, misaligned m.w5 16, misaligned m.w6 8,
    badIf (oneF32 < cut)]) (fun _ =>
      match s.readSplatTable c with
      | .error e => e.1.endCommand c e.2
      | .ok (tab, t) =>
        let area := tab.width * tab.height
        let xs : List Extent := [(pointerAddr m.w2, 16 + 8 * tab.ranges.length, false),
          (pointerAddr m.w3, 4 * tab.top, false), (pointerAddr m.w4, tab.recordBytes, false),
          (pointerAddr m.w5, 16 * area, true), (pointerAddr m.w6, 8 * area, true)]
        match firstStop [
            badIf (extentsOverlap c xs), if tab.recordBytes != 0 then tagStop m.w4 else none, tagStop m.w5, tagStop m.w6,
            t.extentsStop c xs] with
        | some v => t.endCommand c v
        | none => State.complete c (okValue 0)
            (blendTiles c tab tcut (pointerAddr m.w4) (pointerAddr m.w5) (pointerAddr m.w6) tab.ranges.length 0 t))

/-! ### SBWD (11 R262) -/

/-- The nine fields that a pixel adds to the record of a list position. -/
abbrev Gradient := List Nat

/-- The contributions of a pixel from splat `n - 1` down to 0, with their numbers; `sr`, `sg`, `sb` are S. -/
def pixelGradients (px py : Nat) (gr gg gb : Nat) (vs : List Nat) : Nat → Nat → Nat → Nat → Nat → List (Nat × Gradient)
  | 0, _, _, _, _ => []
  | k + 1, t0, sr, sg, sb =>
    let v := vs[k]?.getD 0
    match evalSplat v px py with
    | none => pixelGradients px py gr gg gb vs k t0 sr sg sb
    | some e =>
      let f := fun i => elem v 32 i
      let om := subF oneF32 e.alpha
      let t := divF t0 om
      let w := mulF e.alpha t
      let d := fun ch sc => subF (mulF (splatColour v ch) t) (divF sc om)
      let ga := addF (addF (mulF gr (d 0 sr)) (mulF gg (d 1 sg))) (mulF gb (d 2 sb))
      let go := if e.clamp then 0 else mulF ga e.e
      let gp := if e.clamp then 0 else mulF ga e.a0
      let fields := [mulF gr w, mulF gg w, mulF gb w, go,
        mulF gp (addF (mulF (f 3) e.dx) (mulF (f 4) e.dy)), mulF gp (addF (mulF (f 5) e.dy) (mulF (f 4) e.dx)),
        mulF gp (mulF minusHalf (mulF e.dx e.dx)), negF (mulF gp (mulF e.dx e.dy)),
        mulF gp (mulF minusHalf (mulF e.dy e.dy))]
      (k, fields) :: pixelGradients px py gr gg gb vs k t
        (addF sr (mulF (splatColour v 0) w)) (addF sg (mulF (splatColour v 1) w)) (addF sb (mulF (splatColour v 2) w))

/-- Add a contribution to the record of list position `j`. -/
def addGradient (acc : List (Nat × Gradient)) (j : Nat) (g : Gradient) : List (Nat × Gradient) :=
  match acc with
  | [] => [(j, g.map (fun x => addF 0 x))]
  | (i, h) :: rest => if i == j then (i, List.zipWith addF h g) :: rest else (i, h) :: addGradient rest j g

/-- Read the projected records of every range, tile by tile. -/
def readTiles (c : Command) (tab : SplatTable) (rcds : Int) : List (Nat × Nat) → State → Access (List (List Nat) × State)
  | [], s => .ok ([], s)
  | r :: rest, s =>
    match readSplats c tab rcds (r.2 - r.1) r.1 s with
    | .error e => .error e
    | .ok (vs, t) =>
      match readTiles c tab rcds rest t with
      | .error e => .error e
      | .ok (all, u) => .ok (vs :: all, u)

/-- Add the contributions of `n` pixels from pixel number `k` of the image in raster order (log 40). -/
def imageGradients (c : Command) (tab : SplatTable) (st grad : Int) (tiles : List (List Nat)) :
    Nat → Nat → State → List (Nat × Gradient) → Access (List (Nat × Gradient) × State)
  | 0, _, s, acc => .ok (acc, s)
  | n + 1, k, s, acc =>
    let x := k % tab.width
    let y := k / tab.width
    let i := y / 16 * tilesOf tab.width + x / 16
    let vs := tiles[i]?.getD []
    match s.sourceRead c (st + 8 * k) 8 with
    | .error e => .error e
    | .ok (p, t) =>
      match t.sourceRead c (grad + 16 * k) 16 with
      | .error e => .error e
      | .ok (g, u) =>
        let cs := pixelGradients x y (elem g 32 0) (elem g 32 1) (elem g 32 2) vs (min (elem p 32 1) vs.length)
          (elem p 32 0) 0 0 0
        imageGradients c tab st grad tiles n (k + 1) u (cs.foldl (fun a q => addGradient a ((tab.range i).1 + q.1) q.2) acc)

/-- Write the records of list positions `j` to `j + n - 1`. -/
def writeGradients (c : Command) (out : Int) (acc : List (Nat × Gradient)) : Nat → Nat → State → Access State
  | 0, _, s => .ok s
  | n + 1, j, s =>
    match s.destWrite c (out + 48 * j) 48 (packList 32 (((acc.find? (fun p => p.1 == j)).map (fun p => p.2)).getD [])) with
    | .error e => .error e
    | .ok t => writeGradients c out acc n (j + 1) t

/-- Write the records of every range. -/
def writeRanges (c : Command) (out : Int) (acc : List (Nat × Gradient)) : List (Nat × Nat) → State → Access State
  | [], s => .ok s
  | r :: rest, s =>
    match writeGradients c out acc (r.2 - r.1) r.1 s with
    | .error e => .error e
    | .ok t => writeRanges c out acc rest t

/-- SBWD (11 R262). Where two ranges share a list position, its record sums the pixels of both tiles (log 40). -/
def execSbwd (c : Command) (s : State) : Out :=
  let m := c.msg
  s.unless c (firstStop [
    misaligned m.w2 8, misaligned m.w3 4, misaligned m.w4 16, misaligned m.w5 8, misaligned m.w6 16, misaligned m.w7 16])
    (fun _ =>
      match s.readSplatTable c with
      | .error e => e.1.endCommand c e.2
      | .ok (tab, t) =>
        let area := tab.width * tab.height
        let xs : List Extent := [(pointerAddr m.w2, 16 + 8 * tab.ranges.length, false),
          (pointerAddr m.w3, 4 * tab.top, false), (pointerAddr m.w4, tab.recordBytes, false),
          (pointerAddr m.w5, 8 * area, false), (pointerAddr m.w6, 16 * area, false), (pointerAddr m.w7, 48 * tab.top, true)]
        match firstStop [
            badIf (extentsOverlap c xs), if tab.recordBytes != 0 then tagStop m.w4 else none, tagStop m.w5, tagStop m.w6,
            if tab.top != 0 then tagStop m.w7 else none, t.extentsStop c xs] with
        | some v => t.endCommand c v
        | none =>
          match readTiles c tab (pointerAddr m.w4) tab.ranges t with
          | .error e => e.1.endCommand c e.2
          | .ok (tiles, u) =>
            match imageGradients c tab (pointerAddr m.w5) (pointerAddr m.w6) tiles area 0 u [] with
            | .error e => e.1.endCommand c e.2
            | .ok (acc, w) => State.complete c (okValue 0) (writeRanges c (pointerAddr m.w7) acc tab.ranges w))

end Sys2Proof.Machine
end

