-- ==== Sys2Proof/Machine/Images.lean ====
section
/-! DEFINITION. Save images of pre-empted groups: the save pool, core and context images, saving and restoring a group
(07 R164; 12 R281; 13 R303 to R307). -/
namespace Sys2Proof.Machine
open Sys2Proof

/-! ### Context images (13 R306) -/

/-- Bytes of a context image. -/
def ctxImageBytes (v depth : Nat) : Nat := 1024 + 51 * v / 8 + v / 16 * depth

/-- The context is waiting (02 R24). -/
def Ctx.isWaiting (x : Ctx) : Bool := x.active && x.status != .live

/-- The words from 0x000 to 0x0C0; `phases` are the barriers of the context's own HELPER instance. -/
def Ctx.imageHeader (x : Ctx) (phases : Nat) : List Nat :=
  [x.vlcap, x.pc.toNat,
    (modeCode x.mode).toNat + 4 * bit01 x.isWaiting + 8 * bit01 x.event + 16 * bit01 x.hopped.isSome,
    x.vl, x.vstart, x.fcsr.toNat, x.scbmode.toNat, x.kstack.length, x.astate.word.toNat,
    x.tcause.toNat * 2 ^ 8 + x.acode.toNat, x.hopctl.toNat, x.mtm.toNat, x.mtn.toNat, x.mtk.toNat, x.mstat.word.toNat,
    bit01 x.mkvalid * 2 ^ 63 + x.mkpos.toNat, x.mlease.word.toNat, x.trapcause.toNat, x.trappc.toNat, x.trapval.toNat,
    x.trapvec.toNat, x.trapscratch.toNat, x.arrived.toNat, x.myph.toNat, phases]

/-- A context image as one little-endian number. -/
def Ctx.image (x : Ctx) (phases : Nat) : Nat :=
  let v := x.vlcap
  packList 64 (x.imageHeader phases) +
  packList 64 (0 :: (x.s.toList.map (fun w => w.toNat)).drop 1) <<< (8 * 0x100) +
  packList 8 (x.vtag.toList.map (fun t => t.toNat)) <<< (8 * 0x300) +
  packList (v / 4) (x.k.toList.map (fun m => m.toNat)) <<< (8 * 0x400) +
  packList v (x.v.toList.map (fun r => r.toNat)) <<< (8 * (0x400 + 3 * v / 8)) +
  packList (v / 4) (x.kstack.flatMap (fun p => [p.1.toNat, p.2.toNat])) <<< (8 * (0x400 + 51 * v / 8))

/-- The zero fields, MODE and KDEPTH of a context image break 13 R306 or R307. -/
def ctxImageBad (img : Nat) : Bool :=
  imageWord img 0 / 2 ^ 17 != 0 || imageWord img 2 / 32 != 0 || imageWord img 2 % 4 == 3 || 16 < imageWord img 7 ||
  (List.range' 25 7).any (fun i => imageWord img i != 0) || (List.range' 102 26).any (fun i => imageWord img i != 0)

/-- The mask-stack entries of an image, the newest first. -/
def imageStack (img v n : Nat) : List (BitVec 1024 × BitVec 1024) :=
  let at_ := fun i => BitVec.ofNat 1024 ((img >>> (8 * (0x400 + 51 * v / 8) + v / 4 * i)) % 2 ^ (v / 4))
  (List.range n).map (fun i => (at_ (2 * i), at_ (2 * i + 1)))

/-- ASTATE from its word (08 R183). -/
def AState.ofWord (w : Nat) : AState :=
  ⟨w / 2 ^ 32 % 512, w / 2 ^ 24 % 32, w / 2 ^ 16 % 32, w / 2 ^ 8 % 16, w / 2 ^ 7 % 2 == 1, w / 2 ^ 4 % 8, w / 4 % 2 == 1,
    w / 2 % 2 == 1, w % 2 == 1⟩

/-- The scalar state and CSRs of an image, over a context that has its launch's identity; a waiting context waits
again (02 R24). The vector state is zero. -/
def Ctx.scalarOf (x : Ctx) (img : Nat) : Ctx :=
  let w := imageWord img
  let b := fun i => BitVec.ofNat 64 (w i)
  { x with
    status := if w 2 / 4 % 2 == 1 then .waiting .restored else .live
    pc := b 1
    mode := modeOf (BitVec.ofNat 2 (w 2))
    event := w 2 / 8 % 2 == 1
    fcsr := BitVec.ofNat 9 (w 5)
    scbmode := BitVec.ofNat 2 (w 6)
    astate := AState.ofWord (w 8)
    tcause := BitVec.ofNat 8 (w 9 / 2 ^ 8)
    acode := BitVec.ofNat 8 (w 9)
    hopPolicy := BitVec.ofNat 2 (w 10)
    vdirty := w 10 / 16 % 2 == 1
    pnote := w 10 / 256 % 2 == 1
    mtm := b 11
    mtn := b 12
    mtk := b 13
    mstat := ⟨BitVec.ofNat 8 (w 14 / 2 ^ 56), BitVec.ofNat 2 (w 14 / 2 ^ 54), BitVec.ofNat 52 (w 14)⟩
    mkvalid := w 15 / 2 ^ 63 == 1
    mkpos := BitVec.ofNat 16 (w 15)
    mlease := ⟨BitVec.ofNat 5 (w 16 / 2 ^ 16), BitVec.ofNat 4 (w 16 / 2 ^ 4), BitVec.ofNat 4 (w 16)⟩
    trapcause := BitVec.ofNat 11 (w 17)
    trappc := b 18
    trapval := b 19
    trapvec := b 20
    trapscratch := b 21
    arrived := b 22
    myph := b 23
    s := (Vector.ofFn (fun i => BitVec.ofNat 64 (imageWord img (32 + i.val)))).set 0 0 }

/-- The context that an image restores (13 R307): with more than VLEN bits of VLCAP the vector state reads zero and
cause 0x15 comes first, before the instruction of a context that was waiting executes again. -/
def Ctx.ofImage (x : Ctx) (img : Nat) : Ctx :=
  let v := imageWord img 0
  let y := x.scalarOf img
  if Config.vlen < v then { y with status := .live, vlcap := Config.vlen, vlcapTrap := some v }
  else { y with
    vlcap := v
    vl := imageWord img 3
    vstart := imageWord img 4
    vtag := Vector.ofFn (fun i => BitVec.ofNat 8 (img >>> (8 * (0x300 + i.val))))
    k := Vector.ofFn (fun i => BitVec.ofNat 1024 ((img >>> (8 * 0x400 + v / 4 * i.val)) % 2 ^ (v / 4)))
    v := Vector.ofFn (fun i => BitVec.ofNat 4096 ((img >>> (8 * (0x400 + 3 * v / 8) + v * i.val)) % 2 ^ v))
    kstack := imageStack img v (imageWord img 7) }

/-! ### The save pool (13 R305; log 16) -/

/-- The least place at or above `a` for `size` bytes beside the extents, tried once for each extent. -/
def poolPlace (ext : List (Nat × Nat)) (size : Nat) : Nat → Nat → Nat
  | 0, a => a
  | fuel + 1, a =>
    match ext.find? (fun e => a < e.1 + e.2 && e.1 < a + size) with
    | some e => poolPlace ext size fuel (e.1 + e.2)
    | none => a

/-- Take `size` bytes, in 4 KiB units, from the pool; none where it cannot hold them. -/
def State.poolTake (s : State) (size : Nat) : Option (Nat × State) :=
  let n := (size + 4095) / 4096 * 4096
  let a := poolPlace s.pool n (s.pool.length + 1) s.bregs.spbase
  if a + n ≤ s.bregs.spbase + s.bregs.splen then some (a, { s with pool := s.pool ++ [(a, n)] }) else none

/-- Give extents back. -/
def State.poolGive (s : State) (bases : List Nat) : State := { s with pool := s.pool.filter (fun e => !bases.contains e.1) }

/-! ### Core images (13 R305) -/

/-- Round up to a multiple of `n`. -/
def roundUp (a n : Nat) : Nat := (a + n - 1) / n * n

/-- The contexts of a core that are saved. -/
def Core.saved (k : Core) : List CtxId := ((List.range 11).map (Fin.ofNat 12)).filter (fun x => k.ctxs[x].active)

/-- The offsets of the context images, from `off` up, and the end of the last one. -/
def ctxOffsets (k : Core) : List CtxId → Nat → List (CtxId × Nat) × Nat
  | [], off => ([], off)
  | x :: xs, off =>
    let r := ctxOffsets k xs (off + roundUp (ctxImageBytes k.ctxs[x].vlcap k.ctxs[x].kstack.length) 64)
    ((x, off) :: r.1, r.2)

/-- The leases of a core's contexts, in context order. -/
def State.coreLeases (s : State) (c : CoreId) : List Lease :=
  (s.coreAt c).saved.filterMap (fun x => (s.dieAt (dieOf c)).firebox.leaseOf c x)

/-- The leases with the offsets of their images, one after another (log 43). -/
def leaseOffsets : List Lease → Nat → List (Lease × Nat) × Nat
  | [], off => ([], off)
  | l :: ls, off =>
    let r := leaseOffsets ls (off + leaseImageBytes l.nslot)
    ((l, off) :: r.1, r.2)

/-- Where the context images of a core's image begin. -/
def firstCtxOffset (localBytes : Nat) : Nat := 0x2000 + roundUp localBytes 64

/-- Bytes of a core's image. -/
def State.coreImageBytes (s : State) (c : CoreId) (localBytes : Nat) : Nat :=
  let e := (ctxOffsets (s.coreAt c) (s.coreAt c).saved (firstCtxOffset localBytes)).2
  (leaseOffsets (s.coreLeases c) (roundUp e 4096)).2

/-- The state byte of the `i`-th slot of a ring (13 R305). -/
def Ring.slotByte (r : Ring) (i : Nat) : Nat :=
  match r.res[r.place i]? with
  | some q =>
    match q.owner with
    | some o => 32 + 16 * bit01 q.published + o.val
    | none => 0
  | none => 0

/-- The words of a ring in a core image. -/
def Ring.imageWords (r : Ring) : List Nat :=
  [r.base, r.szlog, r.cntlog, r.filled, r.free, r.rdidx, r.wridx, r.res.length + 2 ^ 32 * r.taken]

/-- B of each level: the number of its first barrier (02 R22). -/
def barrierBase (levels : List Level) (i : Nat) : Nat := (levels.take i).foldl (fun n l => n + l.nbar) 0

/-- The words of the barriers whose instance has its first core on the die here (13 R305). -/
def State.barrierWords (s : State) (l : Launch) (g : Group) (gi : Nat) (c : CoreId) : List (Nat × Nat) :=
  let p := l.placement gi g c
  let here := (l.numbered.filter (fun q => q.2.hasPlace && q.2.state != .done)).flatMap (fun q =>
    (q.2.rect.cores.filter (fun k => dieOf k == dieOf c)).map (fun k => (k, l.placement q.1 q.2 k)))
  if !p.covered then []
  else (List.range p.levels.length).flatMap (fun i =>
    match p.levels[i]? with
    | none => []
    | some lv =>
      let path := p.path.take (i + 1)
      let later := fun (q : CoreId × Placement) => q.2.covered && q.2.path.take (i + 1) == path && q.1.val < c.val
      if lv.kind == 1 || lv.nbar == 0 || here.any later then []
      else (List.range lv.nbar).map (fun j =>
        let n := barrierBase p.levels i + j
        let b := (s.dieAt (dieOf c)).barrier l.arrival path n
        (n, b.count + 2 ^ 32 * bit01 b.phase)))

/-- The phases of the barriers of a helper's own HELPER instance (13 R306). -/
def State.helperPhases (s : State) (p : Placement) (c : CoreId) (x : CtxId) : Nat :=
  match helperLevel p.levels with
  | none => 0
  | some i =>
    match p.instanceOf x i, p.levels[i]? with
    | some path, some lv =>
      (List.range lv.nbar).foldl (fun m j =>
        let n := barrierBase p.levels i + j
        m + bit01 ((s.dieAt (dieOf c)).barrier p.launch path n).phase * 2 ^ n) 0
    | _, _ => 0

/-- Write parts of an image: offset, bytes and value. -/
def State.writeParts (s : State) (base : Nat) (parts : List (Nat × Nat × Nat)) : State :=
  parts.foldl (fun t p => t.physWrite (base + p.1) p.2.1 p.2.2) s

/-- Copy a range of one memory into another. -/
def copyRange (src dst : List Host.Cell) (a b n : Nat) : List Host.Cell :=
  (movedCells src a b n).foldl (fun t c => writeByte t c.1 c.2) (dst.filter (fun c => !(b ≤ c.1 && c.1 < b + n)))

/-- Write the image of a core at a pool address. -/
def State.writeCoreImage (s : State) (l : Launch) (gi : Nat) (g : Group) (c : CoreId) (base : Nat) : State :=
  let k := s.coreAt c
  let p := l.placement gi g c
  let ctxs := ctxOffsets k k.saved (firstCtxOffset l.record.localBytes)
  let leases := leaseOffsets (s.coreLeases c) (roundUp ctxs.2 4096)
  let first := match leases.1 with
    | q :: _ => q.2
    | [] => 0
  let s1 := { s with mem := copyRange s.lmem s.mem (localKey c 0) (base + 0x2000) l.record.localBytes }
  let s2 := s1.writeParts base ([(0, 0x2000, k.saved.foldl (fun m x => m + 2 ^ x.val) 0 + first <<< 64)] ++
    ctxs.1.map (fun q => (0x10 + 8 * q.1.val, 8, q.2)) ++
    (List.range 4).map (fun j => (0x100 + 64 * j, 64, packList 64 (s.ringAt c (4 + j)).imageWords)) ++
    (s.barrierWords l g gi c).map (fun b => (0x200 + 8 * b.1, 8, b.2)) ++
    (List.range 4).map (fun j => (0x1000 + 0x400 * j, 0x400,
      packList 8 ((List.range (s.ringAt c (4 + j)).slots).map (s.ringAt c (4 + j)).slotByte))))
  let s3 := s2.writeParts base (ctxs.1.map (fun q =>
    let x := k.ctxs[q.1]
    (q.2, ctxImageBytes x.vlcap x.kstack.length, x.image (s.helperPhases p c q.1))))
  s3.writeParts base (leases.1.map (fun q => (q.2, leaseImageBytes q.1.nslot, leaseImage k.ctxs[q.1.ctx] q.1)))

/-! ### Saving a group (12 R281; 13 R303) -/

/-- Bring the contexts of a core to their saved form: regions abort with PREEMPT, earlier results are ready (08 R184;
13 R303). -/
def State.settleCore (s : State) (c : CoreId) : State :=
  s.modCore c (fun k => { k with
    vqueue := []
    walks := []
    ctxs := vmap k.ctxs (fun x => { x.abortRegion 8 0 with pend := [] }) })

/-- Give a saved core up: its leases and hop slots are free, its contexts too. -/
def State.leaveCore (s : State) (c : CoreId) : State :=
  let s1 := (s.coreAt c).saved.foldl (fun t x => (t.dropLease c x).freeHopSlot c x) s
  s1.modCore c (fun k => { k with
    placed := none
    ctxs := Vector.ofFn (fun i => if i.val == 11 then k.ctxs[i] else Ctx.reset) })

/-- The dies on which the contexts of a core run. -/
def State.runDies (s : State) (c : CoreId) : List DieId :=
  dieOf c :: (s.coreAt c).saved.filterMap (fun x => ((s.ctxAt c x).hopped).map dieOf)

/-- Every barrier report that is due on a die for a launch reaches the master before the save. -/
def State.sendReports (s : State) (launch : Nat) : State :=
  allDies.foldl (fun t d => ((t.dieAt d).bars.filter (fun b => b.full && b.launch == launch)).foldl
    (fun u b => u.reportBarrier d b) t) s

/-- Save the cores of a group one after another: the images' addresses, or none where the pool cannot hold them. -/
def saveCores (l : Launch) (gi : Nat) (g : Group) : List CoreId → State → Option (List (CoreId × Nat) × State)
  | [], s => some ([], s)
  | c :: cs, s =>
    match s.poolTake (s.coreImageBytes c l.record.localBytes) with
    | none => none
    | some (base, t) =>
      match saveCores l gi g cs ((t.writeCoreImage l gi g c base).leaveCore c) with
      | none => none
      | some (imgs, u) => some ((c, base) :: imgs, u)

/-- The contexts of a core whose leases are saved with a group. -/
def Group.leasedOn (g : Group) (c : CoreId) : List CtxId :=
  g.leased.filterMap (fun q => if q.1 == c then some q.2 else none)

/-- Save a group whose contexts have stopped, with a release at PACKAGE scope (07 R164); none where the pool cannot hold
its images. -/
def State.saveGroup (s : State) (l : Launch) (gi : Nat) (g : Group) : Option State :=
  let cores := g.rect.cores
  let s1 := (s.sendReports l.arrival)
  let s2 := cores.foldl (fun t c => t.settleCore c) s1
  let s3 := ((cores.flatMap s2.runDies).eraseDups).foldl (fun t d => t.writeBackAll d) s2
  match saveCores l gi g cores s3 with
  | none => none
  | some (imgs, t) =>
    let leased := cores.flatMap (fun c => (s3.coreLeases c).map (fun o => (c, o.ctx)))
    some (t.modGroup l.arrival gi (fun x =>
      { x with state := .saved imgs, waitFrom := t.cycle, displaced := [], leased := leased }))

/-! ### Restoring a group (13 R307) -/

/-- The inbox rings of a record (12 R267). -/
def inboxRings (inbox : Word) : List Ring :=
  (List.range 4).map (fun c =>
    let f := bits inbox (16 * c + 15) (16 * c)
    let q := if inbox == 0 then (0x5FC00 + 0x100 * c, 6, 2) else (f / 2 ^ 7 * 1024, f / 2 ^ 4 % 8 + 6, f % 16)
    { Ring.reset with base := q.1, szlog := q.2.1, cntlog := q.2.2, free := 2 ^ q.2.2 })

/-- Write a record's inbox descriptors, which empties cb0 to cb3 (12 R280). -/
def State.setInboxes (s : State) (c : CoreId) (inbox : Word) : State :=
  ((List.range 4).zip (inboxRings inbox)).foldl (fun t q => (t.rejectUnread c (t.ringAt c q.1)).putRing c q.1 q.2) s

/-- Ring cb `n` from a core image. -/
def State.imageRing (s : State) (base n : Nat) : Ring :=
  let w := fun i => s.phys (base + 0x100 + 64 * (n - 4) + 8 * i) 8
  let slots := 2 ^ (w 2 % 16)
  let byte := fun i => s.phys (base + 0x1000 + 0x400 * (n - 4) + i) 1
  { base := w 0, szlog := w 1, cntlog := w 2, filled := w 3, free := w 4, rdidx := w 5, wridx := w 6
    res := (List.range (w 7 % 2 ^ 32)).map (fun j =>
      let b := byte ((w 5 + w 3 + j) % slots)
      ⟨b / 16 % 2 == 1, if b / 32 % 2 == 1 then some (Fin.ofNat 12 (b % 16)) else none, none⟩)
    taken := w 7 / 2 ^ 32, senders := [] }

/-- The reservations of a context in a ring, in order (13 R305). -/
def Ring.reservedBy (r : Ring) (n : Nat) (x : CtxId) : List (Nat × Nat) :=
  ((List.range r.res.length).zip r.res).filterMap (fun p =>
    if !p.2.published && p.2.owner == some x then some (n, (r.rdidx + r.filled + p.1) % r.slots) else none)

/-- The slots of the lease that a context's image tells of: NSLOT of its MLEASEID. -/
def State.imageSlots (s : State) (base : Nat) (x : CtxId) : Nat :=
  s.phys (base + s.phys (base + 0x10 + 8 * x.val) 8 + 0x80) 8 / 2 ^ 4 % 2 ^ 4

/-- The lease images of contexts one after another have a word that is not zero and has to be (09 R220). -/
def State.leaseImagesBad (s : State) (base : Nat) : List CtxId → Nat → Bool
  | [], _ => false
  | x :: xs, off => leaseImageBad (s.phys (base + off) 4096) || s.leaseImagesBad base xs (off + leaseImageBytes (s.imageSlots base x))

/-- The zero fields of a core image, or an image of one of its contexts or leases, break 13 R305 to R307; `leased` are the
contexts whose leases are saved with them. -/
def State.coreImageBad (s : State) (base : Nat) (leased : List CtxId) : Bool :=
  let mask := s.phys base 8
  s.leaseImagesBad base leased (s.phys (base + 8) 8) || mask / 2 ^ 11 != 0 || s.phys (base + 0x68) 0x98 != 0 || s.phys (base + 0x400) 0xC00 != 0 ||
  (List.range 11).any (fun i => mask / 2 ^ i % 2 == 1 && ctxImageBad (s.phys (base + s.phys (base + 0x10 + 8 * i) 8) 1024))

/-- Restore the lease of a context from the images that are left, as MREST does: the context, the state and the
images left (09 R220; log 43). A lease that was not saved with the context is revoked (09 R219). -/
def State.restoreCtxLease (s : State) (c : CoreId) (x : CtxId) (y : Ctx) (launch : Nat) (leased : Bool) (off : Nat) :
    Ctx × State × Nat :=
  let d := dieOf c
  let n := y.mlease.nslot.toNat
  if n == 0 then (y, s, off)
  else if !leased then (y.revoke, s, off)
  else
    let f := (s.dieAt d).firebox
    let next := off + leaseImageBytes n
    match f.freeNumber with
    | none => (y.revoke, s, next)
    | some num =>
      if 12 < f.slotsUsed + n then (y.revoke, s, next)
      else
        let img := s.phys off (leaseImageBytes n)
        (y.relet num, s.restoreLease d (imageLease img num n c x launch y.domain), next)

/-- Restore the contexts of a core in order, from the offset of the lease images left. -/
def restoreCtxs (l : Launch) (p : Placement) (w : List (Nat × Word)) (c : CoreId) (leased : List CtxId) (base : Nat) :
    List CtxId → State → Nat → State
  | [], s, _ => s
  | x :: xs, s, off =>
    let here := base + s.phys (base + 0x10 + 8 * x.val) 8
    let depth := s.phys (here + 0x38) 8
    let img := s.phys here (ctxImageBytes (min (s.phys here 8) Config.vlen) depth)
    let ids : Vector Word 8 := Vector.ofFn (fun i => BitVec.ofNat 64 ((w[i.val]?.map (fun q => q.1)).getD 0))
    let y := { (Ctx.ofImage { Ctx.reset with
        domain := l.record.domain, prio := l.record.prio, launchId := Config.launchId l.arrival } img) with
      lvlid := if x.val == 0 then ids else helperLvlid p.levels x ids
      lvlscope := Vector.ofFn (fun i => (w[i.val]?.map (fun q => q.2)).getD 0)
      reserv := (List.range 4).flatMap (fun j => (s.ringAt c (4 + j)).reservedBy (4 + j) x) }
    let r := s.restoreCtxLease c x y l.arrival (leased.contains x) off
    let phases := imageWord img 24
    let t := match helperLevel p.levels with
      | none => r.2.1
      | some i =>
        match p.instanceOf x i, p.levels[i]? with
        | some path, some lv => (List.range lv.nbar).foldl (fun u j =>
            let n := barrierBase p.levels i + j
            u.modDie (dieOf c) (fun d => d.putBarrier { d.barrier l.arrival path n with phase := phases / 2 ^ n % 2 == 1 })) r.2.1
        | _, _ => r.2.1
    restoreCtxs l p w c leased base xs (t.startAt c x r.1) r.2.2

/-- Restore the barriers whose instance has its first core on the die here. -/
def State.restoreBarriers (s : State) (l : Launch) (g : Group) (gi : Nat) (c : CoreId) (base : Nat) : State :=
  let p := l.placement gi g c
  (s.barrierWords l g gi c).foldl (fun t b =>
    match barrierLevel p.levels b.1 with
    | none => t
    | some i =>
      let w := t.phys (base + 0x200 + 8 * b.1) 8
      t.modDie (dieOf c) (fun d => d.putBarrier
        { d.barrier l.arrival (p.path.take (i + 1)) b.1 with count := w % 2 ^ 32, phase := w / 2 ^ 32 % 2 == 1 })) s

/-- Saved groups of other launches learn that a core has been used (12 R281). -/
def State.noteUse (s : State) (arrival : Nat) (c : CoreId) : State :=
  { s with launches := s.launches.map (fun l =>
    if l.arrival == arrival then l
    else { l with groups := l.groups.map (fun g =>
      match g.state with
      | .saved images => if images.any (fun q => q.1 == c) then { g with displaced := c :: g.displaced } else g
      | _ => g) }) }

/-- Restore one core of a group from its image. -/
def State.restoreCore (s : State) (l : Launch) (gi : Nat) (g : Group) (c : CoreId) (base : Nat) : State :=
  let p := l.placement gi g c
  let w := (g.walk l.record.levels c).getD []
  let mask := s.phys base 8
  let off := s.phys (base + 8) 8
  let s0 := s.noteUse l.arrival c
  let s1 := if g.displaced.contains c then s0.setInboxes c l.record.inbox else s0
  let s2 := (List.range 4).foldl (fun t j => t.putRing c (4 + j) (s.imageRing base (4 + j))) s1
  let s3 := { s2 with lmem := copyRange s2.mem s2.lmem (base + 0x2000) (localKey c 0) l.record.localBytes }
  let s4 := (s3.restoreBarriers l g gi c base).modCore c (fun k => { k with placed := some p })
  let s5 := restoreCtxs l p w c (g.leasedOn c) base (((List.range 11).filter (fun i => mask / 2 ^ i % 2 == 1)).map (Fin.ofNat 12)) s4
    (base + off)
  s5.acquireSteps c packageScope

/-- Restore a group from its images, or end its launch where one is bad (13 R307). -/
def State.restoreGroup (s : State) (l : Launch) (gi : Nat) (g : Group) (images : List (CoreId × Nat)) : State :=
  if images.any (fun q => s.coreImageBad q.2 (g.leasedOn q.1)) then
    (s.report (.badImage l.arrival)).schedule (.event (.supervisorEndLaunch l.arrival))
  else
    let t := images.foldl (fun t q => t.restoreCore l gi g q.1 q.2) s
    (t.poolGive (images.map (fun q => q.2))).modGroup l.arrival gi (fun x =>
      { x with state := .running t.cycle, displaced := [] })

/-- GROUP_RESTORE: a saved group is restored at its positions (13 R307). -/
def execGroupRestore (arrival group : Nat) (s : State) : Out :=
  .next (match s.launchAt arrival with
    | none => s
    | some l =>
      match l.groups[group]? with
      | some g =>
        match g.state with
        | .saved images => s.restoreGroup l group g images
        | .restoring images => s.restoreGroup l group g images
        | _ => s
      | none => s)

end Sys2Proof.Machine
end

