-- ==== Sys2Proof/Machine/Launch.lean ====
section
/-! DEFINITION. Launch records and their acceptance, dependence words and branch records (02 R19 to R22; 12 R265 to
R276; 14 R317; 16 R386). The Bellows uses die 0's tables (log 41). -/
namespace Sys2Proof.Machine
open Sys2Proof

/-! ### Reads by the I/O die -/

/-- Read `n` bytes of one grain at its home, for a domain and with the rights `need` (12 R270, R275; 14 R311). -/
def State.homeRead (s : State) (domain : BitVec 16) (need va n : Nat) : Except Stop (Nat × State) :=
  match regionOf va with
  | .paged =>
    if !s.tableCheck 0 domain va need then .error (s.denial 0 domain va)
    else match s.homeTranslate va with
      | none => .error (s.notPresent 0 va)
      | some (l, s) =>
        let g := va / l.grain * l.grain
        match s.homeOf (l.pa g) with
        | none =>
          if s.grainBad (l.pa g) l.grain l.codec then .error (.trap 0x08 (addrWord va))
          else match s.homeBytes (l.pa g) l.grain l.codec with
            | some data => .ok ((data >>> (8 * (va - g))) % 2 ^ (8 * n), s)
            | none => .error (.trap 0x08 (addrWord va))
        | some h =>
          match s.homeFill h g (l.pa g) l.grain l.codec l.owner with
          | some (data, t) => .ok ((data >>> (8 * (va - g))) % 2 ^ (8 * n), t)
          | none => .error (.trap 0x08 (addrWord va))
  | _ => .error (protection va)

/-- Read a run of bytes at their homes. -/
def State.homeSpan (s : State) (domain : BitVec 16) (va n : Nat) : Except Stop (Nat × State) :=
  spanRead (fun t a k => t.homeRead domain rightR a k) (spanFuel n) s va n

/-! ### Records (12 R265 to R268) -/

/-- Word `i` of a record of 256 bytes. -/
def recWord (v i : Nat) : Word := BitVec.ofNat 64 (elem v 64 i)

/-- A level descriptor (02 R19). -/
def levelOf (w : Word) : Level :=
  ⟨bits w 63 60, bits w 59 58 == 1, bits w 55 48, bits w 47 40, bits w 39 32, bits w 31 0⟩

/-- The fields of a record as they stand. -/
def recordOf (v : Nat) : Record :=
  let w := recWord v
  let w0 := w 0
  let w3 := w 3
  { domain := BitVec.ofNat 16 (bits w0 47 32), gang := bitAt w0 16, prio := bits w0 15 8, entry := w 1, args := w 2
    helpers := bits w3 27 24, slots := bits w3 23 20, localBytes := bits w3 18 0
    levels := (List.range (bits w0 55 48)).map (fun i => levelOf (w (4 + i)))
    dep := bitAt w0 18, depAddr := (w 12).toNat, depVal := w 13, depCmp := (w 14).toNat
    pred := bitAt w0 17, predAddr := (w 15).toNat, predMask := w 16, predVal := w 17, thenAddr := (w 18).toNat
    elseAddr := (w 19).toNat, doneAddr := (w 20).toNat, doneInc := w 21, inbox := w 22 }

/-- Words `i` to `j - 1` of a record are zero. -/
def zeroWords (v i j : Nat) : Bool := (v >>> (64 * i)) % 2 ^ (64 * (j - i)) == 0

/-- The fields are as the table of 12 R265 has them, for a package that defines domains below `dtcnt`. -/
def fieldsOk (v dtcnt : Nat) : Bool :=
  let w0 := recWord v 0
  let w3 := recWord v 3
  let r := recordOf v
  let nlev := bits w0 55 48
  let version := bits w0 7 0
  bits w0 63 56 == 0 && bits w0 31 19 == 0 && r.prio ≤ 63 && (version == 1 || version == 2) && r.domain.toNat < dtcnt &&
  (if r.pred then
    nlev == 0 && r.entry == 0 && w3 == 0 && zeroWords v 4 12 && r.inbox == 0 && r.predAddr % 8 == 0 &&
      r.thenAddr % 256 == 0 && r.elseAddr % 256 == 0 && (version == 2 || r.elseAddr == 0)
  else
    1 ≤ nlev && nlev ≤ 8 && r.entry != 0 && r.entry.toNat % 8 == 0 && bits w3 63 28 == 0 && bits w3 19 19 == 0 &&
      r.helpers ≤ 10 && r.slots ≤ 12 && r.localBytes ≤ Config.localBytes && zeroWords v (4 + nlev) 12 && zeroWords v 15 20) &&
  (if r.dep then r.depAddr % 8 == 0 && r.depCmp ≤ 5 else zeroWords v 12 15) &&
  r.doneAddr % 8 == 0 && (version == 2 || r.inbox == 0) && zeroWords v 23 32

/-- The reserved bits and SCOPE of a level descriptor (02 R19). -/
def levelWordOk (w : Word) (first : Bool) : Bool :=
  bits w 63 60 ≤ 6 && bits w 57 56 == 0 && (bits w 59 58 == 0 || (bits w 59 58 == 1 && !first))

/-- What surrounds a level: the kind of the level above, its rectangle's size, its program cores and its dies. -/
structure Around where
  kind : Option Nat
  w : Nat
  h : Nat
  cores : Nat
  dies : Nat

/-- COUNT, W and H of a level (02 R20). -/
def levelSizeOk (l : Level) (a : Around) (helpers : Nat) : Bool :=
  if l.kind == 3 then
    1 ≤ l.w && l.w ≤ 32 && 1 ≤ l.h && l.h ≤ 16 && 1 ≤ l.count && l.count * l.w * l.h ≤ a.cores &&
      (a.kind != some 3 || (l.w ≤ a.w && l.h ≤ a.h && l.count ≤ a.w / l.w * (a.h / l.h)))
  else
    l.w == 0 && l.h == 0 && 1 ≤ l.count &&
    (if l.kind == 2 then (if a.kind == some 3 then l.count == a.w * a.h else l.count ≤ 63 * a.dies)
    else if l.kind == 0 then l.count ≤ Config.vlen / 8
    else if l.kind == 1 then l.count ≤ helpers
    else if l.kind == 4 then l.count ≤ 8
    else if l.kind == 5 then l.count ≤ 524288
    else l.count == 1)

/-- What surrounds the levels inside a level. -/
def Around.inside (a : Around) (l : Level) : Around :=
  if l.kind == 3 then ⟨some 3, l.w, l.h, l.w * l.h, a.dies⟩
  else if l.kind == 4 then ⟨some 4, a.w, a.h, 63, 1⟩
  else if l.kind ≤ 2 then ⟨some l.kind, a.w, a.h, 1, 1⟩
  else { a with kind := some l.kind }

/-- The order and the sizes of levels (02 R20). -/
def levelsOk (helpers : Nat) : Around → List Level → Bool
  | _, [] => true
  | a, l :: ls =>
    (match a.kind with
      | none => true
      | some k => l.kind < k || (l.kind == 3 && k == 3)) &&
    levelSizeOk l a helpers && !(l.kind == 0 && l.nbar != 0) && levelsOk helpers (a.inside l) ls

/-- The group level: the outermost RECT, else the outermost CORE (12 R268). -/
def groupLevel (levels : List Level) : Option Level :=
  match levels.find? (fun l => l.kind == 3) with
  | some l => some l
  | none => levels.find? (fun l => l.kind == 2)

/-- The levels outside the groups. -/
def outerLevels (levels : List Level) : List Level := levels.filter (fun l => 4 ≤ l.kind)

/-- The inbox descriptors are ones that 03 R52 accepts and leave bytes 0 to LOCAL - 1 alone (12 R266, R267). -/
def inboxOk (inbox : Word) (localBytes : Nat) : Bool :=
  (inboxRings inbox).all (fun r => r.szlog ≤ 12 && r.cntlog ≤ 10 && r.base % 2 ^ r.szlog == 0 &&
    r.base + 2 ^ (r.szlog + r.cntlog) ≤ Config.localBytes && localBytes ≤ r.base)

/-- The levels, barriers and inboxes of a record that starts contexts (02 R19 to R22; 12 R266 to R268; 14 R317). -/
def shapeOk (v jobidx : Nat) (r : Record) : Bool :=
  (List.range r.levels.length).all (fun i => levelWordOk (recWord v (4 + i)) (i == 0)) &&
  levelsOk r.helpers ⟨none, 0, 0, 504, 8⟩ r.levels && r.levels.foldl (fun n l => n + l.nbar) 0 ≤ 64 &&
  inboxOk r.inbox r.localBytes && (r.gang || (outerLevels r.levels).all (fun l => l.nbar == 0)) &&
  r.levels.all (fun l => l.kind != 5 || jobidx < l.count)

/-- A word address of a record lies in paged memory with the rights needed by its domain (12 R266). -/
def State.recordAddrOk (s : State) (r : Record) (a need : Nat) : Bool :=
  match regionOf a with
  | .paged => s.tableCheck 0 r.domain a need
  | _ => false

/-- The addresses of a record (12 R266). -/
def State.addressesOk (s : State) (r : Record) : Bool :=
  (!r.dep || s.recordAddrOk r r.depAddr rightR) && (!r.pred || s.recordAddrOk r r.predAddr rightR) &&
  (r.doneAddr == 0 || s.recordAddrOk r r.doneAddr (rightW + rightA))

/-- The groups of a record in increasing LVLID (12 R268; 02 R21). CORE instances that are groups are numbered in the order in
which they are placed, as RECT instances are; with GANG = 0 that order can differ from increasing y and x (DESIGN CHOICE,
log 54). -/
def groupsOf (r : Record) (jobidx : Nat) : List Group :=
  let gl := groupLevel r.levels
  let per := (gl.map (fun l => l.count)).getD 1
  let dies := ((r.levels.find? (fun l => l.kind == 4)).map (fun l => l.count)).getD 1
  let rect := match gl with
    | some l => if l.kind == 3 then (l.w, l.h) else (1, 1)
    | none => (1, 1)
  (List.range (dies * per)).map (fun k =>
    { x0 := 0, y0 := 0, w := rect.1, h := rect.2
      outer := (outerLevels r.levels).map (fun l => if l.kind == 5 then jobidx else if l.kind == 4 then k / per else 0) ++
        (match gl with
          | some _ => [k % per]
          | none => [])
      state := .unplaced, waitFrom := 0, displaced := [], leased := [] })

/-! ### Placement (12 R279) -/

/-- The DIE instance of a group, if the record has a DIE level. -/
def Launch.dieInstance (l : Launch) (g : Group) : Option Nat :=
  match (outerLevels l.record.levels).findIdx? (fun x => x.kind == 4) with
  | some i => g.outer[i]?
  | none => none

/-- The die of a DIE instance whose place is known. -/
def Launch.instanceDie (l : Launch) (j : Nat) : Option DieId :=
  (l.groups.find? (fun g => g.hasPlace && l.dieInstance g == some j)).map (fun g => dieOf (coreOf g.x0 g.y0))

/-- The dies on which a group of DIE instance `j` may lie: distinct instances take distinct dies in increasing number (12 R279).
Which of several dies an instance takes is the model's choice: the first on which its first group fits, with dies left for the
instances after it, and no other die where its further groups do not fit there (DESIGN CHOICE, log 70). -/
def Launch.diesFor (l : Launch) (j : Nat) : List DieId :=
  match l.instanceDie j with
  | some d => [d]
  | none =>
    let known := fun i => (l.instanceDie i).map (fun d => d.val)
    let lo := if j == 0 then some 0 else (known (j - 1)).map (fun d => d + 1)
    let later := ((l.record.levels.find? (fun x => x.kind == 4)).map (fun x => x.count - 1 - j)).getD 0
    let hi := ((List.range' (j + 1) 8).filterMap known).foldl min (8 - later)
    match lo with
    | some a => (List.range' a (hi - a)).map (Fin.ofNat 8)
    | none => []

/-- A core is the designated hop core of its die (13 R287). -/
def State.isHopCore (s : State) (c : CoreId) : Bool := s.hopCore (dieOf c) == some c

/-- The floor of a domain (12 R278); FLBASE is physical (log 23). -/
def State.floorOf (s : State) (domain : BitVec 16) : Nat :=
  if domain.toNat < s.bregs.flcnt then s.phys (s.bregs.flbase + domain.toNat) 1 else 0

/-- A domain is below its floor: 256 times the average of its 4,096 samples is below FLOOR times 504 (12 R278). A
sample not yet taken counts as zero (log 25). -/
def State.belowFloor (s : State) (domain : BitVec 16) : Bool :=
  let sum := match s.occupancy.find? (fun e => e.1 == domain.toNat) with
    | some e => e.2.foldl (fun n x => n + x) 0
    | none => 0
  256 * sum < s.floorOf domain * 504 * 4096

/-- A record of a domain and effective priority `ep` may pre-empt groups of a launch, their time aside (12 R281). -/
def State.mayPreempt (s : State) (ep : Nat) (domain : BitVec 16) (l : Launch) : Bool :=
  !s.belowFloor l.record.domain && (l.record.prio + s.bregs.pthr ≤ ep || (ep == 63 && s.belowFloor domain))

/-- Another saved group keeps a core from group `gi` of a launch: one of the same launch always, one of another launch from a
record of effective priority `ep` that could not pre-empt it, or that finds a message in the core's inboxes (12 R279, R281;
log 42). -/
def State.keptBySaved (s : State) (arrival ep gi : Nat) (c : CoreId) : Bool :=
  let domain := ((s.launchAt arrival).map (fun l => l.record.domain)).getD 0
  s.launches.any (fun l => l.numbered.any (fun p =>
    match p.2.state with
    | .saved images => images.any (fun q => q.1 == c) &&
        (if l.arrival == arrival then p.1 != gi
        else !s.mayPreempt ep domain l || (List.range 4).any (fun i => (s.ringAt c i).filled != 0))
    | _ => false))

/-- A position is free for group `gi` of a launch (12 R279). -/
def State.positionFree (s : State) (arrival ep gi : Nat) (c : CoreId) : Bool :=
  !isReserved c && !s.isHopCore c && (s.coreAt c).placed.isNone && s.isFree c 0 && !s.keptBySaved arrival ep gi c

/-- A group occupies cores now. -/
def Group.stands (g : Group) : Bool :=
  match g.state with
  | .running _ => true
  | .stopping _ => true
  | .restoring _ => true
  | _ => false

/-- The physical barrier objects of a launch on a die: one per number for each instance with contexts there, and those
of completed groups' outer instances (02 R22; 12 R283). -/
def Launch.objectsOn (l : Launch) (d : DieId) : Nat :=
  let outer := (outerLevels l.record.levels).length
  let keys := l.numbered.flatMap (fun p =>
    if p.2.stands || p.2.state == .done then
      (p.2.rect.cores.filter (fun c => dieOf c == d)).flatMap (fun c =>
        let q := l.placement p.1 p.2 c
        if !q.covered then []
        else (List.range (if p.2.stands then q.levels.length else outer)).filterMap (fun i =>
          match q.levels[i]? with
          | some lv =>
            if lv.nbar == 0 then none
            else if lv.kind == 1 then some (i, q.path.take i ++ [c.val], lv.nbar * lv.count)
            else some (i, q.path.take (i + 1), lv.nbar)
          | none => none))
    else [])
  (keys.eraseDups).foldl (fun n k => n + k.2.2) 0

/-- The slots and the barrier objects on a die suffice, with the groups of launch `arrival` as they now stand
(09 R195; 12 R279). -/
def State.dieHasRoom (s : State) (arrival : Nat) (d : DieId) : Bool :=
  let here := s.launches.filter (fun l => l.record.slots != 0 &&
    l.groups.any (fun g => g.stands && g.rect.cores.any (fun c => dieOf c == d)))
  let slots := here.foldl (fun n l => n + l.record.slots) 0
  let uses := here.any (fun l => l.arrival == arrival)
  let loading := (List.range 4).any (fun i =>
    let a := (s.dieAt d).agents[(Fin.ofNat 8 i)]
    a.started && (a.queue.head?).any (fun c => c.msg.cmd == 0x14))
  (!uses || (slots ≤ 12 && here.length ≤ 8 && !loading)) && s.launches.foldl (fun n l => n + l.objectsOn d) 0 ≤ 64

/-- Put a group of a launch at a place: its cores are reserved (12 R280 step 1). -/
def State.reserveGroup (s : State) (arrival gi x0 y0 : Nat) : State :=
  let t := s.modGroup arrival gi (fun g => { g with
    x0 := x0
    y0 := y0
    state := match g.state with
      | .saved images => .restoring images
      | _ => .running s.cycle })
  match t.launchAt arrival with
  | none => t
  | some l =>
    match l.groups[gi]? with
    | none => t
    | some g => g.rect.cores.foldl (fun u c => u.modCore c (fun k => { k with placed := some (l.placement gi g c) })) t

/-- The state with a group at a place, if it fits there (12 R279). -/
def State.tryPlace (s : State) (arrival ep gi : Nat) (g : Group) (x0 y0 : Nat) : Option State :=
  let cores := (Rect.mk x0 y0 g.w g.h).cores
  if cores.all (s.positionFree arrival ep gi) then
    let t := s.reserveGroup arrival gi x0 y0
    if ((cores.map dieOf).eraseDups).all (t.dieHasRoom arrival) then some t else none
  else none

/-- The corners of a `w` by `h` rectangle within columns `x` to `x + nx - 1` and rows `y` to `y + ny - 1`, rows first. -/
def corners (x y nx ny w h : Nat) : List (Nat × Nat) :=
  (List.range' y (ny + 1 - h)).flatMap (fun b => (List.range' x (nx + 1 - w)).map (fun a => (a, b)))

/-- The corners at which a group is tried, in order (12 R279). -/
def Launch.cornersFor (l : Launch) (g : Group) : List (Nat × Nat) :=
  match l.dieInstance g with
  | none => corners 0 0 32 16 g.w g.h
  | some j => (l.diesFor j).flatMap (fun d => corners (8 * (d.val % 4)) (8 * (d.val / 4)) 8 8 g.w g.h)

/-- Place one waiting group, or bring a saved one back to its positions; none where it does not fit. A saved group's
restore follows as an event. -/
def State.placeGroup (s : State) (arrival ep gi : Nat) : Option State :=
  match s.launchAt arrival with
  | none => none
  | some l =>
    match l.groups[gi]? with
    | none => none
    | some g =>
      match g.state with
      | .unplaced => (l.cornersFor g).findSome? (fun p => s.tryPlace arrival ep gi g p.1 p.2)
      | .saved _ => s.tryPlace arrival ep gi g g.x0 g.y0
      | _ => none

/-- The numbers of the groups that wait for a place. -/
def Launch.waitingGroups (l : Launch) : List Nat :=
  l.numbered.filterMap (fun p =>
    match p.2.state with
    | .unplaced => some p.1
    | .saved _ => some p.1
    | _ => none)

/-- Place groups in order: with `all` every one of them or none, else as many as fit. The groups placed come with
the state. -/
def State.placeGroups (arrival ep : Nat) (all : Bool) : List Nat → State → Option (List Nat × State)
  | [], s => some ([], s)
  | gi :: rest, s =>
    match s.placeGroup arrival ep gi with
    | some t => (State.placeGroups arrival ep all rest t).map (fun r => (gi :: r.1, r.2))
    | none => if all then none else State.placeGroups arrival ep all rest s

/-- The package with every program core free and one launch in it. -/
def State.emptied (s : State) (l : Launch) : State :=
  { s with
    cores := Vector.replicate 512 Core.reset
    dies := vmap s.dies (fun d => { d with l2 := [], agents := Vector.replicate 8 Agent.reset, firebox := ⟨[], none, 0, 0, none, [], []⟩ })
    flue := []
    launches := [l] }

/-- A launch of a record, before it is known to hold its dependence. -/
def newLaunch (arrival : Nat) (r : Record) (jobidx : Nat) : Launch where
  arrival := arrival
  rank := arrival
  record := r
  arms := none
  counters := []
  eligibleAt := none
  groups := if r.pred then [] else groupsOf r jobidx

/-- The record can be placed on an empty package: all its groups together with GANG = 1, and with GANG = 0, where groups come and
go, one group of each of its DIE instances together (12 R266; log 44). -/
def State.placeable (s : State) (r : Record) : Bool :=
  let l := newLaunch 0 r s.bregs.jobidx
  let t := s.emptied l
  let per := ((groupLevel r.levels).map (fun g => g.count)).getD 1
  let gs := if r.gang then l.waitingGroups else l.waitingGroups.filter (fun gi => gi % per == 0)
  (State.placeGroups 0 63 true gs t).isSome

/-- The record of 256 bytes, none where 12 R266 rejects it. -/
def State.checkRecord (s : State) (v : Nat) : Option Record :=
  let r := recordOf v
  if fieldsOk v (s.dieAt 0).fw.dtcnt && s.addressesOk r && (r.pred || (shapeOk v s.bregs.jobidx r && s.placeable r)) then some r
  else none

/-! ### Acceptance (12 R270 to R276) -/

/-- Read and check an arm of a branch record with the rights of its source (12 R276; log 45). -/
def State.readArm (s : State) (r : Record) (domain : BitVec 16) (a : Nat) : Option (Record × State) :=
  match s.homeSpan domain a 256 with
  | .error _ => none
  | .ok (v, t) =>
    match t.checkRecord v with
    | some arm => if arm.pred || arm.domain != r.domain then none else some (arm, t)
    | none => none

/-- Both arms of a branch record. -/
def State.readArms (s : State) (r : Record) (domain : BitVec 16) : Option ((Record × Option Record) × State) :=
  match s.readArm r domain r.thenAddr with
  | none => none
  | some (a, t) =>
    if r.elseAddr == 0 then some ((a, none), t)
    else match t.readArm r domain r.elseAddr with
      | some (b, u) => some ((a, some b), u)
      | none => none

/-- Drop a launch from the pending store. -/
def State.dropLaunch (s : State) (arrival : Nat) : State :=
  { s with launches := s.launches.filter (fun l => l.arrival != arrival) }

/-- A dependence comparison (12 R275). -/
def depCompare (code : Nat) (w v : Word) : Bool :=
  if code == 0 then w == v else if code == 1 then w != v else if code == 2 then v.toNat ≤ w.toNat
  else if code == 3 then w.toNat < v.toNat else if code == 4 then v.toInt ≤ w.toInt else w.toInt < v.toInt

/-- The counter of a record, if it has one. -/
def Record.counter (r : Record) : List Counter :=
  if r.doneAddr == 0 then [] else [⟨r.doneAddr, r.doneInc, r.domain⟩]

/-- Increment a counter as an AMO at the home, a release at PACKAGE scope; a fault leaves it and notifies firmware (07 R154,
R161; 12 R283 step 4). -/
def State.increment (s : State) (arrival : Nat) (k : Counter) : State :=
  let failed := s.report (.counterFault arrival k.addr)
  if !s.tableCheck 0 k.domain k.addr (rightW + rightA) then failed
  else match s.atHome 0 false true k.addr with
    | .ok (pa, t) => (t.physWrite pa 8 ((t.phys pa 8 + k.inc.toNat) % 2 ^ 64)).mark 0 packageScope k.addr
    | .error _ => failed

/-- A launch whose dependence holds and that is no branch record becomes eligible (12 R277). -/
def State.makeEligible (s : State) (arrival : Nat) : State :=
  (s.modLaunch arrival (fun l => { l with
    eligibleAt := some s.cycle
    groups := l.groups.map (fun g => { g with waitFrom := s.cycle }) })).schedule (.event .launchSelection)

/-- Read and test a dependence word: none where the read faults. -/
def State.depTest (s : State) (r : Record) : Option (Bool × State) :=
  if !r.dep then some (true, s)
  else match s.homeSpan r.domain r.depAddr 8 with
    | .ok (w, t) => some (depCompare r.depCmp (BitVec.ofNat 64 w) r.depVal, t)
    | .error _ => none

/-- The test of a launch that is no branch record: it becomes eligible, waits or is discarded (12 R275). -/
def State.testPlain (s : State) (l : Launch) : State :=
  match s.depTest l.record with
  | none => (s.dropLaunch l.arrival).report (.depFault l.arrival l.record.depAddr)
  | some (true, t) => t.makeEligible l.arrival
  | some (false, t) =>
    t.deferTurn (.event (.dependenceTest l.arrival))

/-- The choice of a branch record whose dependence holds (12 R276). -/
def State.chooseArm (s : State) (l : Launch) : State :=
  let r := l.record
  match s.homeSpan r.domain r.predAddr 8, l.arms with
  | .ok (w, t), some (a, b) =>
    let taken := if BitVec.ofNat 64 w &&& r.predMask == r.predVal then some a else b
    match taken with
    | none => r.counter.foldl (fun u k => u.increment l.arrival k) (t.dropLaunch l.arrival)
    | some arm =>
      let m := { l with
        record := arm, arms := none, counters := r.counter, groups := groupsOf arm t.bregs.jobidx }
      (t.modLaunch l.arrival (fun _ => m)).testPlain m
  | _, _ => (s.dropLaunch l.arrival).report (.depFault l.arrival r.predAddr)

/-- Test the dependence of a launch that is not eligible yet (12 R275, R276). -/
def State.testLaunch (s : State) (l : Launch) : State :=
  if l.record.pred then
    match s.depTest l.record with
    | none => (s.dropLaunch l.arrival).report (.depFault l.arrival l.record.depAddr)
    | some (true, t) => t.chooseArm l
    | some (false, t) =>
      t.deferTurn (.event (.dependenceTest l.arrival))
  else s.testPlain l

/-- Offer a record: its status and the state; an accepted one is tested at once (12 R266, R272, R273, R275). -/
def State.offer (s : State) (v : Nat) (domain : BitVec 16) (pmax : Nat) : Nat × State :=
  match s.checkRecord v with
  | none => (2, s)
  | some r =>
    let arms := if r.pred then (s.readArms r domain).map (fun p => (some p.1, p.2)) else some (none, s)
    match arms with
    | none => (2, s)
    | some (two, t) =>
      if r.domain != domain || pmax < r.prio then (4, t)
      else if 4096 ≤ t.launches.length then (5, t)
      else
        let l := { newLaunch t.nextArrival r t.bregs.jobidx with arms := two }
        (0, ({ t with launches := t.launches ++ [l], nextArrival := t.nextArrival + 1 }).testLaunch l)

/-- The record that LAUNCH reads, on path C (12 R274). -/
def State.readRecord (s : State) (a : Word) : Except Stop (Nat × State) :=
  if !pointerOk a then .error (.trap 0x05 a)
  else spanRead (fun t va k => t.load .l1 false va k) (spanFuel 256) s (pointerAddr a) 256

/-- LAUNCH (12 R274; 16 R386). -/
def execLaunch (f : SR) (s : State) : Out :=
  s.issue (.launch f) f.ctl { srcs := [f.sa], dst := some f.dst, handler := false, forbid := some 10 } (fun t =>
    let a := t.rs f.sa
    if a.toNat % 256 != 0 then .trap t 0x04 a
    else
      let u := t.drainVector.releaseSteps t.runCore packageScope
      orTrap u (u.readRecord a) (fun r =>
        let x := r.2.ctx
        let o := r.2.offer r.1 x.domain x.prio
        .next (o.2.wi f.dst (BitVec.ofNat 64 o.1))))

/-- HOST_RING_CONSUME: the record at HEAD is read with RDOM's rights and offered (12 R270 to R272). A full pending store
pauses consumption; before RUN the Bellows accepts no record (14 R320). -/
def execHostRingConsume (ring : Fin 16) (s : State) : Out :=
  let r := s.rings[ring]
  let failed := fun (t : State) (code : Nat) => t.changeRing ring (fun q => { q with err := true, ecode := code })
  .next (if !r.pending || s.boot.bstate != 4 then s
    else if 4096 ≤ s.launches.length then s.deferTurn (.event (.hostRingConsume ring))
    else match s.homeSpan r.rdom (r.rbase + 256 * (r.head.toNat % 2 ^ r.rlog)) 256 with
      | .error _ => failed s 3
      | .ok (v, t) =>
        let o := t.offer v r.rdom r.pmax
        if o.1 == 0 then o.2.changeRing ring (fun q => { q with head := q.head + 1 }) else failed o.2 o.1)

/-- DEPENDENCE_TEST (12 R275). -/
def execDependenceTest (arrival : Nat) (s : State) : Out :=
  .next (match s.launchAt arrival with
    | some l => if l.eligibleAt.isSome then s else s.testLaunch l
    | none => s)

end Sys2Proof.Machine
end

