-- ==== Sys2Proof/Machine/Bellows.lean ====
section
/-! DEFINITION. Selection, start, pre-emption and completion of launches (12 R277 to R284; 13 R303, R304). -/
namespace Sys2Proof.Machine
open Sys2Proof

/-- The Bellows considers its records again. -/
def State.needSelection (s : State) : State :=
  if s.agenda.contains (.event .launchSelection) then s else s.schedule (.event .launchSelection)

/-- The Bellows considers its records again after another turn. -/
def State.laterSelection (s : State) : State :=
  if s.agenda.contains (.event .launchSelection) then s else s.deferTurn (.event .launchSelection)

/-! ### Rank (12 R277, R278) -/

/-- Since when the waiting groups of a launch have waited. -/
def Launch.waitingSince (l : Launch) : Option Nat :=
  (l.groups.filter (fun g =>
    match g.state with
    | .unplaced => true
    | .saved _ => true
    | _ => false)).foldl (fun m g => some (min (m.getD g.waitFrom) g.waitFrom)) none

/-- EP of a launch (12 R278). -/
def State.effective (s : State) (l : Launch) : Nat :=
  match l.waitingSince with
  | none => l.record.prio
  | some w =>
    if s.bregs.ageper == 0 || !s.belowFloor l.record.domain then l.record.prio
    else min 63 (l.record.prio + (s.cycle - w) / s.bregs.ageper)

/-- The first-ranked record that waits for a place (12 R277). -/
def State.firstRanked (s : State) : Option Launch :=
  (s.launches.filter (fun l => l.eligibleAt.isSome && !l.waitingGroups.isEmpty)).foldl (fun best l =>
    match best with
    | none => some l
    | some b =>
      if s.effective b < s.effective l || (s.effective b == s.effective l && l.rank < b.rank) then some l else some b) none

/-! ### Start (12 R280) -/

/-- The control context that the Bellows starts on a core (02 R21, R25). -/
def State.controlStart (s : State) (l : Launch) (w : List (Nat × Word)) (c : CoreId) : Ctx :=
  let r := l.record
  { Ctx.start r.entry (BitVec.ofNat 64 (Config.localBase + r.localBytes)) r.args (s.dieAt (dieOf c)).fw.svec r.domain r.prio
      (Config.launchId l.arrival) with
    lvlid := Vector.ofFn (fun i => BitVec.ofNat 64 ((w[i.val]?.map (fun q => q.1)).getD 0))
    lvlscope := Vector.ofFn (fun i => (w[i.val]?.map (fun q => q.2)).getD 0) }

/-- Steps 2 to 4 on one core of a group. -/
def State.startCore (s : State) (l : Launch) (g : Group) (c : CoreId) : State :=
  let s1 := (s.noteUse l.arrival c).setInboxes c l.record.inbox
  let s2 := (List.range 4).foldl (fun t j => t.putRing c (4 + j) Ring.reset) s1
  let s3 := s2.modCore c (fun k => { k with icache := [] })
  match g.walk l.record.levels c with
  | some w => (s3.startAt c 0 (s3.controlStart l w c)).acquireSteps c packageScope
  | none => s3

/-- Start a group that has just been placed, or let a saved one be restored. -/
def State.startGroup (s : State) (arrival gi : Nat) : State :=
  match s.launchAt arrival with
  | none => s
  | some l =>
    match l.groups[gi]? with
    | none => s
    | some g =>
      match g.state with
      | .restoring _ => s.schedule (.event (.groupRestore arrival gi))
      | _ => g.rect.cores.foldl (fun t c => t.startCore l g c) s

/-! ### Pre-emption (12 R281; 13 R303, R304) -/

/-- Groups that are pre-empted together: their priority, their start, their launch and their numbers. -/
structure Unit_ where
  prio : Nat
  since : Nat
  arrival : Nat
  groups : List Nat

/-- The running groups of a launch with their starts. -/
def Launch.runningGroups (l : Launch) : List (Nat × Nat) :=
  l.numbered.filterMap (fun p =>
    match p.2.state with
    | .running t => some (p.1, t)
    | _ => none)

/-- The candidates against a record, groups of its own launch among them (12 R281). -/
def State.candidateUnits (s : State) (ep : Nat) (rcd : Launch) : List Unit_ :=
  s.launches.flatMap (fun l =>
    let gs := l.runningGroups
    let old := gs.filter (fun p => p.2 + s.bregs.minrun ≤ s.cycle)
    if !s.mayPreempt ep rcd.record.domain l || gs.isEmpty then []
    else if l.record.gang then
      if old.length == gs.length && l.groups.all (fun g => !g.stands || (g.state matches .running _)) then
        [⟨l.record.prio, gs.foldl (fun m p => max m p.2) 0, l.arrival, gs.map (fun p => p.1)⟩]
      else []
    else old.map (fun p => ⟨l.record.prio, p.2, l.arrival, [p.1]⟩))

/-- Insert a candidate: increasing PRIO, then latest start first. -/
def insertUnit (u : Unit_) : List Unit_ → List Unit_
  | [] => [u]
  | x :: xs => if x.prio < u.prio || (x.prio == u.prio && u.since ≤ x.since) then x :: insertUnit u xs else u :: x :: xs

/-- The state as it would be with a group saved: none where the pool cannot hold its images. -/
def State.supposeSaved (s : State) (arrival gi : Nat) : Option State :=
  match s.launchAt arrival with
  | none => none
  | some l =>
    match l.groups[gi]? with
    | none => none
    | some g =>
      let cores := g.rect.cores
      let room := cores.foldl (fun t c => t.bind (fun u => (u.poolTake (s.coreImageBytes c l.record.localBytes)).map (fun q => q.2))) (some s)
      room.map (fun t => (cores.foldl (fun u c => u.leaveCore c) t).modGroup arrival gi (fun x =>
        { x with state := .saved (cores.map (fun c => (c, 0))) }))

/-- The shortest prefix of the candidates after which the record fits. -/
def State.victims (rcd : Launch) (ep : Nat) : List Unit_ → State → Option (List Unit_)
  | [], _ => none
  | u :: us, s =>
    match u.groups.foldl (fun t gi => t.bind (fun x => x.supposeSaved u.arrival gi)) (some s) with
    | none => none
    | some t =>
      match State.placeGroups rcd.arrival ep rcd.record.gang rcd.waitingGroups t with
      | some (_ :: _, _) => some [u]
      | _ => (State.victims rcd ep us t).map (fun r => u :: r)

/-- Begin to stop the victims' groups. -/
def State.stopUnits (s : State) (us : List Unit_) : State :=
  us.foldl (fun t u => u.groups.foldl (fun x gi =>
    x.modGroup u.arrival gi (fun g => { g with state := .stopping t.cycle })) t) s

/-- Consider pre-emption for the first-ranked record. -/
def State.considerPreemption (s : State) (l : Launch) : State :=
  let ep := s.effective l
  let us := (s.candidateUnits ep l).foldl (fun r u => insertUnit u r) []
  match State.victims l ep us s with
  | some vs => (s.stopUnits vs).needSelection
  | none => s.laterSelection

/-- An extent that a core names lies in part in the local memory of one of some cores. -/
def extentTouches (cores : List CoreId) (sender : CoreId) (e : Int × Nat) : Bool :=
  (byteSpans sender e.1 e.2).any (fun p => cores.any (fun k => spansMeet p (localKey k 0, localKey k Config.localBytes)))

/-- The bytes of a source, 0 where it cannot be read. -/
def State.peekSource (s : State) (c : Command) (w : Word) (n : Nat) : Nat :=
  match s.sourceRead c (pointerAddr w) n with
  | .ok (v, _) => v
  | .error _ => 0

/-- The rows of BLEND's target, whose descriptor the unit has read or is to read (10 R234). -/
def State.blendExtents (s : State) (c : Command) : List (Int × Nat) :=
  let a := s.agentOf c
  let own := if a.started && a.queue.head? == some c then a.words.head? else none
  let b := blendRecord (own.getD (s.peekSource c c.msg.w3 64)) 0
  (List.range b.height).flatMap (fun y =>
    let row : Int × Nat := ((b.cbase + y * b.cpitch : Nat), b.texel * b.width)
    if b.zbase == 0 then [row] else [row, ((b.zbase + y * b.zpitch : Nat), 4 * b.width)])

/-- The extents that a command of the package writes at its operands (10 R234; 11 R251; 15 R351 to R354). -/
def State.writtenExtents (s : State) (c : Command) : List (Int × Nat) :=
  let m := c.msg
  let area := fun (v : Nat) => elem v 32 0 * elem v 32 1
  match decodeCommand c with
  | some (.cpy _) => [(pointerAddr m.w3, m.w4.toNat)]
  | some (.cpy2d _) =>
    (List.range (bits m.w4 63 32)).map (fun i => ((pointerAddr m.w3 : Int) + i * m.w6.toInt, bits m.w4 31 0))
  | some (.cpyfill _) => [(pointerAddr m.w2, m.w3.toNat)]
  | some (.cpydec _) => [(pointerAddr m.w3, 4096 * bits m.w4 16 0)]
  | some (.blend _) => s.blendExtents c
  | some (.sproj _) => [(pointerAddr m.w5, 48 * m.w3.toNat)]
  | some (.ssort _) =>
    let v := s.peekSource c m.w6 16
    [(pointerAddr m.w6, 16 + 8 * (tilesOf (elem v 32 0) * tilesOf (elem v 32 1))), (pointerAddr m.w4, 4 * m.w5.toNat)]
  | some (.sblend _) =>
    let v := s.peekSource c m.w2 16
    [(pointerAddr m.w5, 16 * area v), (pointerAddr m.w6, 8 * area v)]
  | some (.sbwd _) =>
    match s.readSplatTable c with
    | .ok (tab, _) => [(pointerAddr m.w7, 48 * tab.top)]
    | .error _ => []
  | _ => []

/-- The ring of a core that a command fills, or reads as a BLEND does (10 R230, R232). -/
def commandRing (c : Command) : Option CoreId :=
  let core := fun w => match designated w with
    | .ok (_, k) => some k
    | .error _ => none
  match decodeCommand c with
  | some (.rast _) => core c.msg.w5
  | some (.blend _) => core c.msg.w2
  | _ => none

/-- The reply record of a message lies in part in the local memory of one of some cores. -/
def replyTouches (cores : List CoreId) (m : Message) (p : Sender) : Bool :=
  m.rr && extentTouches cores p.core ((bits m.w1 51 0 : Nat), 16)

/-- A command may still fill a ring of a group, or write local memory of its cores at an operand or as its reply record. A BLEND
that reads a ring of the group counts as well, so that the ring stays while it does (10 R223; log 67). -/
def State.touchesGroup (s : State) (c : Command) (cores : List CoreId) : Bool :=
  (commandRing c).any cores.contains || (s.writtenExtents c).any (extentTouches cores c.sender.core) ||
  (!c.sender.remote && replyTouches cores c.msg c.sender)

/-- Commands that any agent has accepted. -/
def State.acceptedCommands (s : State) : List Command := s.dies.toList.flatMap (fun d => d.agents.toList.flatMap (fun a => a.queue))

/-- The commands of this package that agents of others have, or are to have: their messages and senders (08 R169; 14 R315). -/
def State.commandsAway (s : State) : List (Message × Sender) :=
  s.txFrames.filterMap (fun f =>
    match f.body with
    | .message dest m p => if bits dest 63 60 == 2 then some (m, p) else none
    | _ => none)

/-- Commands are under way that keep a group from being saved (10 R223). -/
def State.holdsSave (s : State) (cores : List CoreId) : Bool :=
  s.acceptedCommands.any (fun c => s.touchesGroup c cores) || s.commandsAway.any (fun q => replyTouches cores q.1 q.2)

/-- Change the contexts of a group that are live or waiting. -/
def State.modActive (s : State) (cores : List CoreId) (f : Ctx → Ctx) : State :=
  cores.foldl (fun t c => (t.coreAt c).saved.foldl (fun u x => u.modCtxAt c x f) t) s

/-- Stop a context, or give it notice first (13 R304); an instruction that completes first is waited for (02 R39), and so is the
trap that is the first event after a restore with a larger VLCAP (13 R307), which the context's next image has no place for. -/
def Ctx.askToStop (cycle : Nat) (x : Ctx) : Ctx :=
  if x.stopped || x.notice.isSome || x.vlcapTrap.isSome then x
  else if x.pnote then { x with notice := some cycle }
  else if x.completesFirst then x
  else { x with stopped := true }

/-- The contexts of a group. -/
def State.activeOf (s : State) (cores : List CoreId) : List (CoreId × CtxId) :=
  cores.flatMap (fun c => (s.coreAt c).saved.map (fun x => (c, x)))

/-- The timeouts of the contexts that have just been given notice. -/
def State.noticeTimers (s : State) (cores : List CoreId) : State :=
  (s.activeOf cores).foldl (fun t p =>
    if (s.ctxAt p.1 p.2).notice == some s.cycle && !(s.ctxAt p.1 p.2).stopped then
      t.schedule (.event (.preemptionNoticeTimeout p.1 p.2))
    else t) s

/-- The cores whose contexts stop before a group is saved: those of the group, and with GANG = 1 those of every group that
is pre-empted with it (12 R281). -/
def Launch.stoppingWith (l : Launch) (g : Group) : List CoreId :=
  if l.record.gang then (l.groups.filter (fun o => (o.state matches .stopping _))).flatMap (fun o => o.rect.cores)
  else g.rect.cores

/-- Go on with the pre-emption of a group: while commands still touch it its contexts run; then they stop, and the group
is saved (10 R223; 12 R281). A group all of whose contexts have ended completes instead (12 R284). -/
def State.progressStop (s : State) (l : Launch) (gi : Nat) (g : Group) : State :=
  let cores := l.stoppingWith g
  let runOn := fun (t : State) => t.modActive cores (fun x => { x with stopped := false, notice := none, noticed := false })
  if (s.activeOf g.rect.cores).isEmpty then s.laterSelection
  else if s.holdsSave cores then (runOn s).laterSelection
  else
    let t := (s.modActive cores (Ctx.askToStop s.cycle)).noticeTimers cores
    if (t.activeOf cores).all (fun p => (t.ctxAt p.1 p.2).stopped && (t.ctxAt p.1 p.2).travel.isNone) then
      match t.saveGroup l gi g with
      | some u => u.needSelection
      | none => (runOn t).modLaunch l.arrival (fun x => { x with groups := x.groups.map (fun o =>
          if o.state matches .stopping _ then { o with state := .running t.cycle } else o) })
    else t.laterSelection

/-- The first group that is being stopped. -/
def State.firstStopping (s : State) : Option (Launch × Nat × Group) :=
  s.launches.findSome? (fun l => l.numbered.findSome? (fun p =>
    match p.2.state with
    | .stopping _ => some (l, p.1, p.2)
    | _ => none))

/-- LAUNCH_SELECTION: a pre-emption in progress goes on; else the first-ranked record is placed, as far as it fits, or
pre-emption is considered (12 R277, R280, R281). -/
def execLaunchSelection (s : State) : Out :=
  .next (match s.firstStopping with
    | some (l, gi, g) => s.progressStop l gi g
    | none =>
      match s.firstRanked with
      | none => s
      | some l =>
        match State.placeGroups l.arrival (s.effective l) l.record.gang l.waitingGroups s with
        | some (gi :: gs, t) => ((gi :: gs).foldl (fun u k => u.startGroup l.arrival k) t).needSelection
        | _ => s.considerPreemption l)

/-- PREEMPTION_NOTICE_TIMEOUT: 65,536 cycles after its notice a context stops, if no ERET came first (13 R304). -/
def execPreemptionNoticeTimeout (core : CoreId) (ctx : CtxId) (s : State) : Out :=
  let x := s.ctxAt core ctx
  .next (match x.notice with
    | none => s
    | some t =>
      if x.stopped then s.needSelection
      else if t + 65536 ≤ s.cycle && !x.completesFirst then (s.modCtxAt core ctx (fun y => { y with stopped := true })).needSelection
      else s.deferTurn (.event (.preemptionNoticeTimeout core ctx)))

/-- AGING_STEP: effective priorities have risen, and the ranks are considered again (12 R278). -/
def execAgingStep (s : State) : Out := .next (if s.firstRanked.isSome then s.needSelection else s)

/-- The domains of the live and waiting control contexts on program cores, one for each core. -/
def State.occupants (s : State) : List Nat :=
  (List.range 512).filterMap (fun i =>
    let x := s.ctxAt (Fin.ofNat 512 i) 0
    if !isReserved (Fin.ofNat 512 i) && x.active then some x.domain.toNat else none)

/-- No sample of any domain's occupancy would be other than zero, now or in the last ones. -/
def State.occupancySilent (s : State) : Bool := s.occupancy.isEmpty && s.occupants.isEmpty

/-- OCCUPANCY_SAMPLE: the newest of the 4,096 samples of each domain; one whose samples are all zero is not kept (12 R278). -/
def execOccupancySample (s : State) : Out :=
  let now := s.occupants
  let domains := (s.occupancy.map (fun e => e.1) ++ now).eraseDups
  .next { s with occupancy := domains.filterMap (fun d =>
    let old := ((s.occupancy.find? (fun e => e.1 == d)).map (fun e => e.2)).getD []
    let new := (now.count d :: old).take 4096
    if new.all (fun n => n == 0) then none else some (d, new)) }

/-! ### Completion (12 R283, R284) -/

/-- Discard the unread messages of an inbox; those with RR = 1 are answered REJECTED. -/
def State.discardInbox (s : State) (c : CoreId) (n : Nat) : State :=
  let r := s.ringAt c n
  (s.rejectUnread c r).putRing c n { r with filled := 0, free := r.slots, rdidx := 0, wridx := 0, res := [], taken := 0, senders := [] }

/-- Discard the unread messages of the inboxes of some cores (12 R283). -/
def State.discardInboxes (s : State) (cores : List CoreId) : State :=
  cores.foldl (fun t c => (List.range 4).foldl (fun u n => u.discardInbox c n) t) s

/-- A command of a launch's contexts on some of its cores has not made its completion write (02 R28). -/
def State.commandsOf (s : State) (arrival : Nat) (cores : List CoreId) : Bool :=
  s.acceptedCommands.any (fun c => c.sender.launch == some arrival && cores.contains c.sender.core) ||
  s.commandsAway.any (fun q => q.2.launch == some arrival && cores.contains q.2.core)

/-- Every write on any die is performed at its home, those that contexts made away from their own dies and those of the units
among them (02 R28; 07 R161). -/
def State.performEverywhere (s : State) : State := allDies.foldl (fun t d => t.writeBackAll d) s

/-- A group's cores are free: its writes performed, L1s invalidated, inboxes discarded, and the barrier objects of
instances within the group gone (02 R28; 12 R283 steps 1 to 3). -/
def State.freeGroup (s : State) (l : Launch) (gi : Nat) (g : Group) : State :=
  let cores := g.rect.cores
  let s2 := cores.foldl (fun t c => t.l1Clear c) s.performEverywhere
  let s4 := cores.foldl (fun t c => t.leaveCore c) (s2.discardInboxes cores)
  let inside := fun (b : BarObj) => b.launch == l.arrival && b.path.take g.outer.length == g.outer && g.outer.length ≤ b.path.length
  let s5 := { s4 with dies := vmap s4.dies (fun (d : Die) => { d with bars := d.bars.filter (fun b => !inside b) }) }
  s5.modGroup l.arrival gi (fun x => { x with state := .done })

/-- A launch all of whose groups have completed leaves the pending store: the L1s of its cores are invalidated, every write is
performed at its home, and its counters are incremented (07 R161; 12 R276, R283). The end of one whose saved groups the
supervisor ended waits for the commands that they sent. -/
def State.finishLaunch (s : State) (arrival : Nat) : State :=
  match s.launchAt arrival with
  | none => s
  | some l =>
    if l.groups.all (fun g => g.state == .done) then
      if s.commandsOf arrival l.cores then s.deferTurn (.event (.supervisorEndLaunch arrival))
      else
        let s1 := l.cores.foldl (fun t c => t.l1Clear c) s.performEverywhere
        let t := { s1 with dies := vmap s1.dies (fun (d : Die) => { d with bars := d.bars.filter (fun b => b.launch != arrival) }) }
        (l.record.counter ++ l.counters).foldl (fun u k => u.increment arrival k) (t.dropLaunch arrival)
    else s

/-- GROUP_COMPLETION: every context of the group has ended; its completion waits for its commands (12 R283). -/
def execGroupCompletion (arrival group : Nat) (s : State) : Out :=
  .next (match s.launchAt arrival with
    | none => s
    | some l =>
      match l.groups[group]? with
      | none => s
      | some g =>
        let cores := g.rect.cores
        if !g.stands || (g.state matches .restoring _) || !(s.activeOf cores).isEmpty then s
        else if s.commandsOf arrival cores then s.deferTurn (.event (.groupCompletion arrival group))
        else ((s.freeGroup l group g).finishLaunch arrival).needSelection)

/-- End a standing group's contexts; its completion follows. -/
def State.endGroup (s : State) (arrival gi : Nat) (g : Group) : State :=
  let t := (s.activeOf g.rect.cores).foldl (fun u p => u.endContext p.1 p.2) s
  let turn := Turn.event (.groupCompletion arrival gi)
  if t.agenda.contains turn then t else t.schedule turn

/-- The end of a saved group: its images are discarded, and so are the unread messages of those of its cores that no other launch
holds, since what reaches such a core is that launch's (12 R281, R283, R284). -/
def State.endSaved (s : State) (arrival gi : Nat) (g : Group) (images : List (CoreId × Nat)) : State :=
  let idle := g.rect.cores.filter (fun c => (s.coreAt c).placed.isNone)
  ((s.poolGive (images.map (fun q => q.2))).discardInboxes idle).modGroup arrival gi (fun x => { x with state := .done })

/-- SUPERVISOR_END_LAUNCH: contexts end, saved images are discarded, and no counter is incremented (12 R283, R284). A group that
was never placed is done and has no core. -/
def execSupervisorEndLaunch (arrival : Nat) (s : State) : Out :=
  .next (match s.launchAt arrival with
    | none => s
    | some l =>
      let u := l.numbered.foldl (fun u p =>
        match p.2.state with
        | .unplaced => u.modGroup arrival p.1 (fun g => { g with state := .done, w := 0, h := 0 })
        | .saved images => u.endSaved arrival p.1 p.2 images
        | .restoring images =>
          ((u.poolGive (images.map (fun q => q.2))).modGroup arrival p.1 (fun g => { g with state := .running u.cycle })).endGroup
            arrival p.1 p.2
        | .running _ => u.endGroup arrival p.1 p.2
        | .stopping _ => u.endGroup arrival p.1 p.2
        | .done => u) (s.voidCounters arrival)
      (u.finishLaunch arrival).needSelection)

end Sys2Proof.Machine
end

