-- ==== Sys2Proof/Machine/Caches.lean ====
section
/-! DEFINITION. The L2s and the Flue as they act by themselves: write-backs, evictions, packets and injection windows
(01 R16 to R18; 06 R129; 07 R146, R154), and the events that the passing of cycles raises (log 1). -/
namespace Sys2Proof.Machine
open Sys2Proof

/-! ### Write-backs -/

/-- A die sends the masked bytes of a line in 256-byte packets (01 R16); the line is clean in its L2. Which core R17's tie counts
as the source of such a packet the spec does not say: here it is that of the line's first writer, and core (0,0) of the die for
an engine's or agent's bytes (DESIGN CHOICE, log 71). -/
def State.inject (s : State) (d h : DieId) (ln : L2Line) : State :=
  let half := 2 ^ 256
  let core := (ln.writers.head?.map (fun p => p.1)).getD (localCore d 0 0)
  let parts := [(0, ln.dirty % half), (256, ln.dirty / half % half)].filter (fun p => p.2 != 0)
  let packets := parts.map (fun p =>
    (⟨d, core, h, 0, 0, d, s.cycle, ln.pa + p.1, p.2, ln.data >>> (8 * p.1), ln.writers⟩ : Packet))
  let s1 := packets.foldl (fun t _ => t.schedule (.event (.fluePacketArrival 0))) { s with flue := s.flue ++ packets }
  s1.modDie d (fun x => x.putLine { ln with valid := ln.valid ||| ln.dirty, dirty := 0, writers := [] })

/-- L2_DIRTY_WRITEBACK: a dirty non-home copy is sent to its home (07 R146). It counts against its domain's limit, but the L2
is no core, copy engine or agent and does not wait (01 R18; log 17). Bytes of host memory go to the host (14 R312). -/
def execL2DirtyWriteback (die : DieId) (va : Nat) (s : State) : Out :=
  .next (match (s.dieAt die).line va with
    | none => s
    | some ln =>
      if ln.home || ln.dirty == 0 then s
      else match s.homeOf ln.pa with
        | none => s.writeBack die ln
        | some h => (s.chargeLine die ln).inject die h ln)

/-- Carry out step 2 of a promotion for a grain's marker, and drop it (07 R154). -/
def State.retireMarker (s : State) (h : DieId) (va : Nat) : State :=
  match (s.dieAt h).markers.find? (fun m => m.grain == va) with
  | none => s
  | some m => (s.writeBackAll m.die).modDie h (fun x => { x with markers := x.markers.filter (fun o => o.grain != va) })

/-- L2_EVICTION: a copy is written back and dropped; with a home line its grain's marker goes too (07 R146, R154). -/
def execL2Eviction (die : DieId) (va : Nat) (s : State) : Out :=
  .next (match (s.dieAt die).line va with
    | none => s
    | some ln =>
      let t := if ln.home then s.retireMarker die ln.va else s.writeBack die ln
      t.modDie die (fun x => x.dropLine ln.va))

/-! ### Packets (01 R16, R17) -/

/-- The die to which a packet goes from die `a` on its way to die `b`: the ring neighbour on the shorter side. The route is
firmware's choice, and programs see it only as timing (01 R16; DESIGN CHOICE, log 52). -/
def State.nextHop (s : State) (a b : DieId) : DieId :=
  let code := s.bregs.vdmap
  let p := ringPos code a.val
  let q := ringPos code b.val
  Fin.ofNat 8 (ringPos code ((if (q + 8 - p) % 8 ≤ 4 then p + 1 else p + 7) % 8))

/-- Two packets of one virtual channel: they keep their order (01 R16). -/
def Packet.sameChannel (p q : Packet) : Bool := p.src == q.src && p.dst == q.dst && p.chan == q.chan

/-- The packets that wait in a buffer of the Flue for the link that `p` waits for, but for those behind another of their
channel in that buffer. -/
def State.contenders (s : State) (p : Packet) : List Packet :=
  s.flue.filter (fun q => q.at_ == p.at_ && s.nextHop q.at_ q.dst == s.nextHop p.at_ p.dst &&
    (s.flue.find? (fun o => o.at_ == q.at_ && o.sameChannel q)) == some q)

/-- The age field of a packet at a cycle: one more for each 256 cycles that it has waited in its buffer, saturating (01 R17). -/
def Packet.ageAt (p : Packet) (cycle : Nat) : Nat := min (p.age + (cycle - p.since) / 256) 1023

/-- The winner of an arbitration in a cycle: the oldest; then the one from the lower ring position, then from the lower core (01
R17). -/
def olderPacket (code cycle : Nat) (a b : Packet) : Bool :=
  if a.ageAt cycle != b.ageAt cycle then b.ageAt cycle < a.ageAt cycle
  else if a.src != b.src then ringPos code a.src.val < ringPos code b.src.val
  else a.core.val < b.core.val

/-- The winner among packets, if any. -/
def winner (code cycle : Nat) : List Packet → Option Packet
  | [] => none
  | p :: ps =>
    match winner code cycle ps with
    | some q => some (if olderPacket code cycle q p then q else p)
    | none => some p

/-- FLUE_PACKET_AGING: a packet that has waited for 256 cycles in one buffer grows older (01 R17). -/
def execFluePacketAging (idx : Nat) (s : State) : Out :=
  .next (match s.flue[idx]? with
    | none => s
    | some p =>
      if p.since + 256 ≤ s.cycle then { s with flue := s.flue.set idx { p with age := min (p.age + 1) 1023, since := p.since + 256 } }
      else s)

/-- FLUE_PACKET_ARRIVAL: where the packet waits, the winner of the arbitration takes the link, one hop older (01 R17). At its
destination its bytes are merged (06 R129); elsewhere it waits for the next link. -/
def execFluePacketArrival (idx : Nat) (s : State) : Out :=
  .next (match s.flue[idx]? with
    | none => s
    | some p =>
      match winner s.bregs.vdmap s.cycle (s.contenders p) with
      | none => s
      | some q =>
        let next := s.nextHop q.at_ q.dst
        if next == q.dst then { s.deliver q with flue := s.flue.erase q }
        else
          let moved := { q with age := min (q.ageAt s.cycle + 1) 1023, at_ := next, since := s.cycle }
          ({ s with flue := s.flue.replace q moved }).schedule (.event (.fluePacketArrival idx)))

/-- FLUE_INJECTION_WINDOW: a window of 1,024 cycles begins: of each domain's flits one allowance has gone, and what is beyond
it stands against the new one (01 R18; log 17). -/
def execFlueInjectionWindow (s : State) : Out :=
  let left := fun (d : DieId) => (s.dieAt d).injected.filterMap (fun e =>
    match s.injectLimit d e.1 with
    | some lim => if e.2 ≤ lim then none else some (e.1, e.2 - lim)
    | none => none)
  .next { s with dies := Vector.ofFn (fun d => { s.dieAt d with injected := left d }) }

/-! ### The clock (log 1) -/

/-- Bytes of a slice of an L2 (06 R128). -/
def sliceBytes : Nat := 6 * 2 ^ 20

/-- The bytes of a slice's lines. -/
def Die.sliceHeld (d : Die) (i : Nat) : Nat :=
  (d.l2.filter (fun ln => sliceOf ln.va == i)).foldl (fun n ln => n + ln.size) 0

/-- The oldest line of a slice that holds more than its bytes (log 3). -/
def Die.overflow (d : Die) : Option Nat :=
  if d.l2.length * 512 ≤ sliceBytes then none
  else match (List.range 16).find? (fun i => sliceBytes < d.sliceHeld i) with
    | some i => (d.l2.find? (fun ln => sliceOf ln.va == i)).map (fun ln => ln.va)
    | none => none

/-- The evictions that the slices need and that are not due yet (06 R128). -/
def State.dueEvictions (s : State) : List Turn :=
  ((List.range 8).filterMap (fun i =>
    ((s.dieAt (Fin.ofNat 8 i)).overflow).map (fun va => Turn.event (.l2Eviction (Fin.ofNat 8 i) va)))).filter
      (fun t => !s.agenda.contains t)

/-- Cycles have passed that raise events, or a slice holds more than its bytes. -/
def State.clockDue (s : State) : Bool := s.tick < s.cycle / 1024 || !s.dueEvictions.isEmpty

/-- The write-backs of every die's dirty copies, or only of those that an ended context has written (02 R24). -/
def State.dueWritebacks (s : State) (ended : Bool) : List Turn :=
  (List.range 8).flatMap (fun i =>
    ((s.dieAt (Fin.ofNat 8 i)).l2.filter (fun ln => !ln.home && ln.dirty != 0 &&
      (!ended || ln.writers.any (fun p => (s.ctxAt p.1 p.2).status == .ended)))).map (fun ln =>
        .event (.l2DirtyWriteback (Fin.ofNat 8 i) ln.va)))

/-- The packets in flight that have waited for 256 cycles or more in a buffer, once for each 256 cycles (01 R17). -/
def State.dueAging (s : State) : List Turn :=
  ((List.range s.flue.length).zip s.flue).flatMap (fun p =>
    List.replicate ((s.cycle - p.2.since) / 256) (.event (.fluePacketAging p.1)))

/-- The events of the spans of 1,024 cycles that have passed since the last ones: injection windows (01 R18), the aging of
packets (01 R17), a sample every 4,096 cycles (12 R278), an aging step while a record waits (12 R278), the write-back of what
ended contexts have written (02 R24), and every 32,768 cycles that of all dirty copies, which keeps the bound of 07 R146. -/
def State.clockEvents (s : State) : List Turn :=
  let now := s.cycle / 1024
  let windows := if s.dies.toList.any (fun d => !d.injected.isEmpty) then min 4096 (now - s.tick) else 0
  let due := s.tick < now
  List.replicate windows (.event .flueInjectionWindow) ++
    (if due then s.dueAging else []) ++
    (if s.occupancySilent then [] else List.replicate (min 4096 (now / 4 - s.tick / 4)) (.event .occupancySample)) ++
    (if due && s.bregs.ageper != 0 && s.firstRanked.isSome then [.event .agingStep] else []) ++
    (if s.tick / 32 < now / 32 then s.dueWritebacks false else if due then s.dueWritebacks true else [])

/-- Raise the events of the cycles that have passed; what must leave a full slice leaves first. -/
def State.raiseClock (s : State) : State :=
  { s with tick := s.cycle / 1024, agenda := s.dueEvictions ++ s.agenda ++ s.clockEvents }

end Sys2Proof.Machine
end

