-- ==== Sys2Proof/Machine/Boot.lean ====
section
/-! DEFINITION. Module reset, boot, attestation, the host's registers, and the link (14 R309, R310, R320, R321, R460;
08 R181), with SHAKE256. -/
namespace Sys2Proof.Machine
open Sys2Proof

/-! ### SHAKE256 (14 R320) -/

/-- The lane at (x, y) of a Keccak state of 25 lanes. -/
def lane (a : List Word) (x y : Nat) : Word := a.getD (x % 5 + 5 * (y % 5)) 0

/-- Rotation distances, lane by lane. -/
def keccakTurns : List Nat :=
  [0, 1, 62, 28, 27, 36, 44, 6, 55, 20, 3, 10, 43, 25, 39, 41, 45, 15, 21, 8, 18, 2, 61, 56, 14]

/-- Round constants. -/
def keccakConstants : List Word :=
  [0x0000000000000001, 0x0000000000008082, 0x800000000000808A, 0x8000000080008000, 0x000000000000808B,
   0x0000000080000001, 0x8000000080008081, 0x8000000000008009, 0x000000000000008A, 0x0000000000000088,
   0x0000000080008009, 0x000000008000000A] ++
  [0x000000008000808B, 0x800000000000008B, 0x8000000000008089, 0x8000000000008003, 0x8000000000008002,
   0x8000000000000080, 0x000000000000800A, 0x800000008000000A, 0x8000000080008081, 0x8000000000008080,
   0x0000000080000001, 0x8000000080008008]

/-- One round. -/
def keccakRound (a : List Word) (k : Word) : List Word :=
  let c := (List.range 5).map (fun x => lane a x 0 ^^^ lane a x 1 ^^^ lane a x 2 ^^^ lane a x 3 ^^^ lane a x 4)
  let d := fun x => c.getD ((x + 4) % 5) 0 ^^^ (c.getD ((x + 1) % 5) 0).rotateLeft 1
  let b := (List.range 25).map (fun i =>
    let x := (i % 5 + 3 * (i / 5)) % 5
    let y := i % 5
    (lane a x y ^^^ d x).rotateLeft (keccakTurns.getD (x + 5 * y) 0))
  (List.range 25).map (fun i =>
    lane b i (i / 5) ^^^ (~~~(lane b (i + 1) (i / 5)) &&& lane b (i + 2) (i / 5)) ^^^ (if i == 0 then k else 0))

/-- The permutation. -/
def keccak (a : List Word) : List Word := keccakConstants.foldl keccakRound a

/-- A little-endian lane of a block of bytes. -/
def blockLane (block : List Byte) (i : Nat) : Word :=
  BitVec.ofNat 64 (((block.drop (8 * i)).take 8).foldr (fun b n => b.toNat + 256 * n) 0)

/-- The message with the padding of SHAKE, in whole blocks of 136 bytes. -/
def shakePad (m : List Byte) : List Byte :=
  let fill := 136 - m.length % 136
  if fill == 1 then m ++ [0x9F] else m ++ [0x1F] ++ List.replicate (fill - 2) 0 ++ [0x80]

/-- Absorb `n` blocks. -/
def absorb : Nat → List Byte → List Word → List Word
  | 0, _, a => a
  | n + 1, m, a =>
    absorb n (m.drop 136) (keccak ((List.range 25).map (fun i => a.getD i 0 ^^^ (if i < 17 then blockLane m i else 0))))

/-- The first 32 bytes of SHAKE256. -/
def shake256 (m : List Byte) : List Byte :=
  let p := shakePad m
  let a := absorb (p.length / 136) p (List.replicate 25 0)
  (List.range 32).map (fun i => BitVec.ofNat 8 ((a.getD (i / 8) 0).toNat >>> (8 * (i % 8))))

/-- The bytes of a little-endian number. -/
def bytesOf (v : Nat) (n : Nat) : List Byte := (List.range n).map (fun i => BitVec.ofNat 8 (v >>> (8 * i)))

/-! ### XMSS (14 R320; RFC 8391 with SHAKE256 and n = 32, as the rule names it) -/

/-- The bytes of a number, the highest first. -/
def bigEndian (v n : Nat) : List Byte := (bytesOf v n).reverse

/-- The bitwise difference of two strings. -/
def xorBytes (a b : List Byte) : List Byte := List.zipWith (fun x y => x ^^^ y) a b

/-- A keyed hash: its kind (0 F, 1 H, 2 H_msg, 3 PRF), the key and the message. -/
def keyedHash (kind : Nat) (key m : List Byte) : List Byte := shake256 (bigEndian kind 32 ++ key ++ m)

/-- An address: its type and its four last words; the layer and the tree are 0. -/
def hashAddress (ty a b c d : Nat) : List Byte :=
  bigEndian 0 12 ++ bigEndian ty 4 ++ bigEndian a 4 ++ bigEndian b 4 ++ bigEndian c 4 ++ bigEndian d 4

/-- The hash of two nodes at an address. -/
def nodeHash (seed : List Byte) (ty a b c : Nat) (l r : List Byte) : List Byte :=
  let prf := fun k => keyedHash 3 seed (hashAddress ty a b c k)
  keyedHash 1 (prf 0) (xorBytes l (prf 1) ++ xorBytes r (prf 2))

/-- `n` steps of chain `c` of one-time key `ots`, from step `i`. -/
def chainHash (seed : List Byte) (ots c : Nat) : Nat → Nat → List Byte → List Byte
  | 0, _, x => x
  | n + 1, i, x =>
    let prf := fun k => keyedHash 3 seed (hashAddress 0 ots c i k)
    chainHash seed ots c n (i + 1) (keyedHash 0 (prf 0) (xorBytes x (prf 1)))

/-- The 67 base-16 digits that a one-time signature signs: those of the digest, and of its checksum. -/
def otsDigits (m : List Byte) : List Nat :=
  let d := m.flatMap (fun b => [b.toNat / 16, b.toNat % 16])
  let sum := d.foldl (fun n x => n + (15 - x)) 0
  d ++ [sum / 256 % 16, sum / 16 % 16, sum % 16]

/-- Pairs of nodes hashed; an odd one goes up as it is. -/
def pairUp (f : Nat → List Byte → List Byte → List Byte) : Nat → List (List Byte) → List (List Byte)
  | i, l :: r :: rest => f i l r :: pairUp f (i + 1) rest
  | _, rest => rest

/-- The root of the L-tree over the ends of the chains, from height `h` up. -/
def lTree (seed : List Byte) (ots : Nat) : Nat → Nat → List (List Byte) → List Byte
  | 0, _, ns => ns.headD []
  | fuel + 1, h, ns =>
    if ns.length ≤ 1 then ns.headD []
    else lTree seed ots fuel (h + 1) (pairUp (fun i l r => nodeHash seed 1 ots h i l r) 0 ns)

/-- The root over a leaf: at each height the node and its sibling. -/
def authRoot (seed : List Byte) : Nat → Nat → List Byte → List (List Byte) → List Byte
  | _, _, node, [] => node
  | h, idx, node, a :: rest =>
    let up := if idx % 2 == 0 then nodeHash seed 2 0 h (idx / 2) node a else nodeHash seed 2 0 h (idx / 2) a node
    authRoot seed (h + 1) (idx / 2) up rest

/-- The XMSS signature of 2,820 bytes over a message verifies under a key of 64 bytes, root and seed. -/
def xmssVerify (key sig m : List Byte) : Bool :=
  let part := fun i => (sig.drop (36 + 32 * i)).take 32
  let idx := (sig.take 4).foldl (fun n b => 256 * n + b.toNat) 0
  let root := key.take 32
  let seed := (key.drop 32).take 32
  let digest := keyedHash 2 ((sig.drop 4).take 32 ++ root ++ bigEndian idx 32) m
  let digits := otsDigits digest
  let ends := (List.range 67).map (fun i =>
    let d := digits.getD i 0
    chainHash seed idx i (15 - d) d (part i))
  sig.length == 2820 && key.length == 64 &&
    authRoot seed 0 idx (lTree seed idx 8 0 ends) ((List.range 20).map (fun i => part (67 + i))) == root

/-! ### Reset and boot (14 R320, R460) -/

/-- MODULE_RESET: everything at its reset value, but for the fuses, what is broken, and what has been reported; a
module without power in its limits stays off (14 R320, R324; log 14). -/
def execModuleReset (s : State) : Out :=
  .next { State.reset with
    boot := { Boot.reset with fusedSvn := s.boot.fusedSvn, boots := s.boot.boots }
    freeCtr := s.freeCtr
    bad := s.bad
    weak := s.weak
    notes := s.notes
    hostReads := s.hostReads
    inputMv := s.inputMv
    power := if s.inputMv < 40000 || 60000 < s.inputMv then .off else .boot }

/-- Bytes of the staging SRAM (14 R310). -/
def stagingBytes : Nat := 0x800000

/-- Place bytes in the staging SRAM; none lies above its end. -/
def stage (m : List Host.Cell) : Nat → List Byte → List Host.Cell
  | _, [] => m
  | off, b :: bs => if off < stagingBytes then stage (writeByte m off b) (off + 1) bs else m

/-- The standard handler bindings of a die (08 R181; log 14). -/
def standardBindings (b : Vector (Option Binding) 64) : Vector (Option Binding) 64 :=
  (List.range 8).foldl (fun t n => t.set (Fin.ofNat 64 n) (some ⟨0, 0xFFFF, some n⟩)) b

/-- The state in which a firmware core starts (14 R460). -/
def firmwareStart (entry : Word) (d : DieId) : Ctx :=
  { Ctx.start entry (BitVec.ofNat 64 (Config.localBase + Config.localBytes)) (BitVec.ofNat 64 d.val) 0 0 0 0 with
    mode := .firmware }

/-- Start the firmware core of a die. -/
def State.startFirmware (s : State) (entry : Word) (d : DieId) : State :=
  (s.modDie d (fun x => { x with bindings := standardBindings x.bindings })).startAt (localCore d 7 7) 0 (firmwareStart entry d)

/-- Back to WAIT with an error code. -/
def State.bootError (s : State) (code : Nat) : State := { s with boot := { s.boot with bstate := 1, berr := code } }

/-- LOAD of an image with a header, and RUN. -/
def State.load' (s : State) (h : Config.ImageHeader) (image : List Byte) : State :=
  let b := { s.boot with
    bstate := 4, berr := 0, measurement := shake256 image, boots := s.boot.boots + 1, leaf := 0
    fusedSvn := if h.commit then max s.boot.fusedSvn h.svn else s.boot.fusedSvn }
  (List.range 8).foldl (fun t i => t.startFirmware h.entry (Fin.ofNat 8 i))
    { s with boot := b, power := if s.power = .boot then .run else s.power }

/-- BOOTGO in WAIT: VERIFY, then LOAD, then RUN (14 R320); in another state nothing waits for it (log 14). -/
def State.bootGo (s : State) : State :=
  let h := Config.imageHeader s.boot.staging
  let image := (List.range (min h.length stagingBytes)).map (readByte s.boot.staging)
  if s.boot.bstate != 1 then s
  else if shake256 h.publicKey != Config.fusedKeyHash then s.bootError 1
  else if !xmssVerify h.publicKey h.signature image then s.bootError 2
  else if h.svn < s.boot.fusedSvn then s.bootError 3
  else if !Config.loadOk image then s.bootError 4
  else s.load' h image

/-! ### Attestation (14 R321) -/

/-- A request for a report: in RUN, with a leaf of this boot and of the key left, the report is written; without one the
error is 5. -/
def State.attestGo (s : State) : State :=
  let b := s.boot
  let nonce := (List.range 32).map (fun i => BitVec.ofNat 8 (b.nonce.toNat >>> (8 * i)))
  if b.bstate != 4 then s
  else if 256 ≤ b.leaf || 4096 < b.boots then { s with boot := { b with berr := 5 } }
  else
    let leaf := (b.boots - 1) * 256 + b.leaf
    let body := nonce ++ b.measurement ++ bytesOf b.fusedSvn 8 ++ bytesOf s.bregs.pkgno 8 ++ bytesOf leaf 8
    { s with boot := { b with leaf := b.leaf + 1, report := body ++ Config.attestSignature body leaf } }

/-! ### The host's registers (14 R310; 12 R269) -/

/-- The 8 bytes of a list from byte `o`; beyond its end they are zero. -/
def bytesAt (bs : List Byte) (o : Nat) : Nat := ((bs.drop o).take 8).foldr (fun b n => b.toNat + 256 * n) 0

/-- What a host read of 8 bytes at an aligned BAR0 offset returns (14 R310). -/
def State.bar0Read (s : State) (off : Nat) : Nat :=
  let b := s.boot
  if off < 0x1000 then 0
  else if off < 0x10000 then s.bellowsRead off
  else if off == 0x10008 then b.berr * 256 + b.bstate
  else if 0x10100 ≤ off && off < 0x10120 then (b.nonce.toNat >>> (8 * (off - 0x10100))) % 2 ^ 64
  else if 0x10200 ≤ off && off < 0x11000 then bytesAt b.report (off - 0x10200)
  else if 0x18000 ≤ off && off < 0x20000 then bytesAt ((List.range 8).map (fun i => Config.certByte (off - 0x18000 + i))) 0
  else if 0x800000 ≤ off && off < 0x1000000 then readN b.staging (off - 0x800000) 8
  else 0

/-- A host write of 8 bytes at an aligned BAR0 offset: of a ring TAIL and RCTL, of the boot block BOOTGO, ATTEST and
NONCE, and the staging SRAM; others are ignored (12 R269; 14 R310). -/
def State.bar0Write (s : State) (off v : Nat) : State :=
  let b := s.boot
  match Machine.ringAt off with
  | some (n, o) => if o == 0x18 || o == 0x28 then s.writeRing n o v else s
  | none =>
    if off == 0x10000 then
      let t := if v % 2 == 1 then s.bootGo else s
      if v / 2 % 2 == 1 then t.attestGo else t
    else if 0x10100 ≤ off && off < 0x10120 then
      let o := off - 0x10100
      { s with boot := { b with nonce := BitVec.ofNat 256 (mergeMasked 32 (byteMask o 8) (v <<< (8 * o)) b.nonce.toNat) } }
    else if 0x800000 ≤ off && off < 0x1000000 then
      { s with boot := { b with staging := writeN b.staging (off - 0x800000) 8 v } }
    else s

/-! ### The host link and its caches (14 R309, R312) -/

/-- The lines of a die that hold host memory. -/
def Die.hostLines (d : Die) : List L2Line := d.l2.filter (fun ln => Config.hostPhys ≤ ln.pa)

/-- Every copy of host memory that satisfies a test is written back. -/
def State.flushHost (s : State) (p : L2Line → Bool) : State :=
  (List.range 8).foldl (fun t i =>
    let d : DieId := Fin.ofNat 8 i
    ((t.dieAt d).hostLines.filter p).foldl (fun u ln => u.writeBack d ln) t) s

/-- A virtual address lies in host memory, by the page table. -/
def State.inHost (s : State) (va : Nat) : Bool :=
  match s.walk va 4 (s.dieAt 0).fw.ptbase with
  | some l => Config.hostPhys ≤ l.pa va
  | none => false

/-- LINK_NEGOTIATION: the link is up, with CXL.cache or as a plain endpoint, and then no host line stays cached, in an L2 or in a
core's L1s (14 R309, R312). -/
def execLinkNegotiation (cxl : Bool) (s : State) : Out :=
  let t := { s.flushHost (fun _ => true) with linkUp := true, cxl := cxl }
  let keep := fun (ln : L1Line) => !t.inHost ln.va
  .next (if cxl then t
    else { t with
      dies := vmap t.dies (fun d => { d with l2 := d.l2.filter (fun ln => ln.pa < Config.hostPhys) })
      cores := vmap t.cores (fun k => { k with l1 := k.l1.filter keep, icache := k.icache.filter keep }) })

/-- HOST_SNOOP of the host line at a host address: every die's dirty bytes of it are written back (14 R312). -/
def execHostSnoop (addr : Nat) (s : State) : Out :=
  let pa := Config.hostPhys + addr
  .next (s.flushHost (fun ln => ln.pa ≤ pa && pa < ln.pa + ln.size))

end Sys2Proof.Machine
end

