-- ==== Sys2Proof/Machine/Outside.lean ====
section
/-! DEFINITION. The host aperture (14 R311 to R314), scale-out (14 R315, R316), failures (14 R322) and power (14 R324). -/
namespace Sys2Proof.Machine
open Sys2Proof

/-! ### The aperture (14 R311, R313, R314) -/

/-- A host access has failed: counted in HFAULT, and firmware is notified (14 R311). -/
def State.hostFault (s : State) (off : Nat) : State :=
  ({ s with bregs := { s.bregs with hfault := min (s.bregs.hfault + 1) (2 ^ 32 - 1) } }).report (.hostAccessFailed off)

/-- The physical address of the grain that fails a host access: an entry of the aperture domain's tables or of the page table
that could not be read, else the access's own (06 R130). -/
def State.hostBadPlace (s : State) (va : Nat) : Option Nat :=
  if !s.tableCheck 0 s.bregs.apdom va rightR then s.firstBad (s.tableRuns 0 s.bregs.apdom)
  else match s.homeTranslate va with
    | some (l, _) => some (l.pa va)
    | none => s.firstBad (s.walkRuns va 4 (s.dieAt 0).fw.ptbase)

/-- The home of a grain with an uncorrectable error records it, and firmware there is notified; the grain leaves its L2 (06
R130). -/
def State.noteHome (s : State) (va : Nat) : State :=
  match s.hostBadPlace va with
  | some pa =>
    match s.homeOf pa with
    | some h => (s.report (.uncorrectable h.val pa)).dropBad h pa
    | none => s
  | none => s

/-- HOST_APERTURE_READ: the value at the home, or Unsupported Request (14 R311, R313). An uncorrectable grain gives none,
and firmware of its home is told (06 R130; log 24). -/
def execHostApertureRead (off len : Nat) (s : State) : Out :=
  let answer := fun (t : State) (r : Option (List Byte)) => { t with hostReads := t.hostReads ++ [r] }
  .next (if !s.bregs.apen then answer (s.hostFault off) none
    else match s.homeSpan s.bregs.apdom (s.bregs.apbase + off) len with
      | .ok (v, t) => answer t (some (bytesOf v len))
      | .error (.trap 0x08 a) => answer (s.noteHome a.toNat) none
      | .error _ => answer (s.hostFault off) none)

/-- Perform a host write within one page at the homes (14 R313): each grain is in its home's L2. -/
def State.hostStore (s : State) (l : Leaf) (va : Nat) (bytes : List Byte) : State :=
  let g := va / l.grain * l.grain
  let n := (va + bytes.length - g + l.grain - 1) / l.grain
  let t := (List.range n).foldl (fun u i =>
    let a := g + i * l.grain
    match u.homeOf (l.pa a) with
    | some h =>
      match u.homeFill h a (l.pa a) l.grain 0 l.owner with
      | some (_, w) => w
      | none => u.report (.uncorrectable h.val (l.pa a))
    | none => u) s
  t.physWrite (l.pa va) bytes.length (bytes.foldr (fun b m => b.toNat + 256 * m) 0)

/-- Hold a host write at the I/O die; firmware is notified of one whose page has OWNER = 0 (14 R314). -/
def State.holdWrite (s : State) (off : Nat) (bytes : List Byte) (owner : Bool) : State :=
  let t := { s with heldWrites := s.heldWrites ++ [⟨off, bytes, !owner, false⟩] }
  if owner then t else t.report (.heldHostWrite off)

/-- A host write within one page: dropped, performed, or held for its page or behind a held one; with 64 writes held it stays on
the link, whose credits are withheld (14 R311, R313, R314). None is the last. -/
def State.hostWrite (s : State) (off : Nat) (bytes : List Byte) : Option State :=
  let va := s.bregs.apbase + off
  match s.hostLeaf va with
  | none => some (s.hostFault off)
  | some l =>
    if l.owner && s.heldWrites.isEmpty then some (s.hostStore l va bytes)
    else if s.heldWrites.length < 64 then some (s.holdWrite off bytes l.owner)
    else none

/-- Take posted writes from the link in order, an aperture write page by page: one to BAR0 waits until every earlier aperture
write is performed (14 R313). -/
def State.takePosted : Nat → State → State
  | 0, s => s
  | fuel + 1, s =>
    match s.posted with
    | [] => s
    | .register off v :: rest =>
      if s.heldWrites.isEmpty then State.takePosted fuel ({ s with posted := rest }.bar0Write off v.toNat) else s
    | .staging off bytes :: rest =>
      if s.heldWrites.isEmpty then
        State.takePosted fuel { s with posted := rest, boot := { s.boot with staging := stage s.boot.staging off bytes } }
      else s
    | .aperture off bytes :: rest =>
      let n := 65536 - (s.bregs.apbase + off) % 65536
      let left := if bytes.length ≤ n then rest else .aperture (off + n) (bytes.drop n) :: rest
      match { s with posted := left }.hostWrite off (bytes.take n) with
      | some t => State.takePosted fuel t
      | none => s

/-- Steps that suffice to take every posted write. -/
def postedFuel (ps : List Posted) : Nat := ps.foldl (fun n p =>
  match p with
  | .aperture _ bytes => n + bytes.length / 65536 + 2
  | _ => n + 1) 1

/-- Take what the link has to deliver. -/
def State.drainLink (s : State) : State := State.takePosted (postedFuel s.posted) s

/-- The link brings a posted write (14 R313). -/
def State.hostPost (s : State) (p : Posted) : State := ({ s with posted := s.posted ++ [p] }).drainLink

/-- HOST_APERTURE_WRITE (14 R311, R313, R314). -/
def execHostApertureWrite (off : Nat) (bytes : List Byte) (s : State) : Out := .next (s.hostPost (.aperture off bytes))

/-- Perform held writes in order while they can be: one whose page has OWNER = 1, after a PINV if firmware was notified of it
(14 R313, R314). A write that is refused by now is dropped and counted. -/
def State.freeHeld : Nat → State → State
  | 0, s => s
  | fuel + 1, s =>
    match s.heldWrites with
    | [] => s
    | h :: rest =>
      let t := { s with heldWrites := rest }
      match s.hostLeaf (s.bregs.apbase + h.off) with
      | none => State.freeHeld fuel (t.hostFault h.off)
      | some l =>
        if l.owner && (h.ready || !h.noted) then State.freeHeld fuel (t.hostStore l (s.bregs.apbase + h.off) h.bytes)
        else if l.owner || h.noted then s
        else ({ s with heldWrites := { h with noted := true } :: rest }).report (.heldHostWrite h.off)

/-- Held writes go on, and then what the link has to deliver. -/
def State.releaseWrites (s : State) : State := (State.freeHeld (s.heldWrites.length + 1) s).drainLink

/-- HELD_HOST_WRITE_RELEASE: with ownership granted, writes are performed in order as far as their pages allow; a declined one is
dropped and counted in HDENY (14 R314). -/
def execHeldHostWriteRelease (idx : Nat) (granted : Bool) (s : State) : Out :=
  .next (match s.heldWrites[idx]? with
    | none => s
    | some _ =>
      if granted then s.releaseWrites
      else ({ s with
        heldWrites := s.heldWrites.eraseIdx idx
        bregs := { s.bregs with hdeny := min (s.bregs.hdeny + 1) (2 ^ 32 - 1) } }).releaseWrites)

/-! ### Host writes of registers (12 R269; 14 R310, R313) -/

/-- STAGING_SRAM_WRITE (14 R310, R320). -/
def execStagingSramWrite (off : Nat) (bytes : List Byte) (s : State) : Out := .next (s.hostPost (.staging off bytes))

/-- BOOTGO, bit 0 of 0x1_0000 (14 R310, R320). -/
def execBootgo (s : State) : Out := .next (s.hostPost (.register 0x10000 1))

/-- ATTEST, bit 1 of 0x1_0000 (14 R310, R321). -/
def execAttest (s : State) : Out := .next (s.hostPost (.register 0x10000 2))

/-- The BAR0 offset of a register of a ring. -/
def ringReg (ring : Fin 16) (o : Nat) : Nat := 0x1000 + 64 * ring.val + o

/-- A TAIL write of the host (12 R271). -/
def execRingTailWrite (ring : Fin 16) (tail : BitVec 32) (s : State) : Out :=
  .next (s.hostPost (.register (ringReg ring 0x18) (tail.setWidth 64)))

/-- RESET of a ring (12 R269). -/
def execRingReset (ring : Fin 16) (s : State) : Out := .next (s.hostPost (.register (ringReg ring 0x28) 4))

/-- SKIP of a ring (12 R269). -/
def execRingSkip (ring : Fin 16) (s : State) : Out := .next (s.hostPost (.register (ringReg ring 0x28) 2))

/-- RESUME of a ring (12 R269). -/
def execRingResume (ring : Fin 16) (s : State) : Out := .next (s.hostPost (.register (ringReg ring 0x28) 1))

/-- REGISTER_WRITE, of the 8-byte register at an address: below 2^52 by firmware at its virtual address (14 R310), from
2^52 on by the host at the BAR0 offset above it; where no register lies nothing is written (00 R5; log 13). -/
def execRegisterWrite (addr : Nat) (value : Word) (s : State) : Out :=
  .next (if 2 ^ 52 ≤ addr then s.hostPost (.register ((addr - 2 ^ 52) / 8 * 8) value)
    else match regionOf addr with
      | .firmware d off => s.fwWrite d (off / 8 * 8) 8 value.toNat
      | .bellows off => s.bellowsWrite (off / 8 * 8) value.toNat
      | _ => s)

/-! ### Scale-out (14 R315, R316; 08 R169, R173) -/

/-- Serve the source read of a CPY or CPY2D that a context of this package has sent to a copy engine of another: with rights R
and D of the context's domain, through the L2 of its die (14 R316). -/
def State.serveSource (s : State) (src cls : Nat) (die : DieId) (inst : Fin 8) (p : Sender) (addr len : Nat) : State :=
  let d := dieOf p.core
  let c : Command := ⟨⟨0, 0, 0, 0, 0, 0, 0, 0⟩, { p with remote := false }, d, 0, s.regionsOf d p.domain⟩
  match s.sourceRead c addr len with
  | .ok (v, t) => t.sendFrame (localCore d 0 0) src cls (.sourceData die inst 0 0 v)
  | .error (t, v) => t.sendFrame (localCore d 0 0) src cls (.sourceData die inst v.1 v.2 0)

/-- Deliver what a frame of a stream carries; none while its destination has no room (08 R171, R459). -/
def State.deliverFrame (s : State) (src cls : Nat) (b : FrameBody) : Option State :=
  match b with
  | .message dest m p => s.deliverTo 0 { p with remote := true } (bits dest 63 60) (bits dest 31 0) m
  | .reply p addr w0 w1 =>
    let d := dieOf p.core
    match s.putReply d p (bits addr 51 0) w0 w1 with
    | some t => some t
    | none => some ((s.countMsgErr d).report (.replyFailed d.val (bits addr 51 0)))
  | .ack _ => some s
  | .sourceRead die inst p addr len => some (s.serveSource src cls die inst p addr len)
  | .sourceData die inst status value data =>
    some (s.modAgent (s.siteOf die) inst (fun a =>
      if a.aux1 == 1 && a.words.isEmpty then { a with words := [status, value.toNat, data] } else a))

/-- A frame waits for a reply record. -/
def wantsReply (f : Frame) : Bool :=
  match f.body with
  | .message _ m _ => m.rr
  | _ => false

/-- A package has the packets of a stream up to number `n`: they leave, but for the messages that wait for a reply
(14 R315; log 18). -/
def State.ackStream (s : State) (dst cls n : Nat) : State :=
  { s with txFrames := s.txFrames.filterMap (fun o =>
    if o.dst == dst && o.cls == cls && o.seq ≤ n && !o.acked then (if wantsReply o then some { o with acked := true } else none)
    else some o) }

/-- A reply from a package shows that its message has arrived there, and every earlier one of its stream (14 R315). -/
def State.acknowledge (s : State) (f : Frame) : State :=
  match f.body with
  | .reply p addr _ _ =>
    match s.txFrames.find? (fun t => t.dst == f.src && t.cls == f.cls && (match t.body with
      | .message _ m q => q == { p with remote := false } && m.w1 == addr
      | _ => false)) with
    | none => s
    | some t =>
      let u := { s with txFrames := s.txFrames.erase t }
      if t.acked then u else u.ackStream t.dst t.cls t.seq
  | _ => s

/-- Acknowledge a stream's packets up to number `n` to the package that sends it; only the last acknowledgement of a stream
stands (14 R315). -/
def State.sendAck (s : State) (src cls n : Nat) : State :=
  let ack : Frame := ⟨s.bregs.pkgno, src, cls, 0, 0, 0, s.micros, .ack n, true⟩
  let old := fun (o : Frame) => o.dst == src && o.cls == cls && (match o.body with
    | .ack _ => true
    | _ => false)
  { s with txFrames := s.txFrames.filter (fun o => !old o) ++ [ack] }

/-- Take an arrived packet; none while its destination has no room. The next one of its stream is delivered and acknowledged;
one out of order is not delivered, since its sender goes back to the first lost one. An acknowledgement has no place in a stream. A
packet for another package is none of this one's (14 R315). -/
def State.takeFrame (s : State) (f : Frame) : Option State :=
  let next := nextSeq s.rxSeq f.src f.cls
  if f.dst != s.bregs.pkgno then some s
  else if let .ack n := f.body then some (s.ackStream f.src f.cls n)
  else if f.seq != next then some (if f.seq < next then s.sendAck f.src f.cls (next - 1) else s)
  else ((s.acknowledge f).deliverFrame f.src f.cls f.body).map (fun t =>
    { t with rxSeq := setSeq t.rxSeq f.src f.cls (f.seq + 1) }.sendAck f.src f.cls f.seq)

/-- The packet that wins among one and others that have arrived after it; none overtakes one of its own stream. -/
def firstFrame (now : Nat) (p : Fin 8 × Frame) : List (Fin 8 × Frame) → List Frame → Fin 8 × Frame
  | [], _ => p
  | q :: qs, seen =>
    firstFrame now (if seen.any (sameStream q.2) || !olderFrame now q.2 p.2 then p else q) qs (q.2 :: seen)

/-- The packets that have arrived and wait for their turn. -/
def State.arrivedFrames (s : State) : List (Fin 8 × Frame) :=
  s.agenda.filterMap (fun t =>
    match t with
    | .event (.scaleoutFrameReceive q f) => some (q, f)
    | _ => none)

/-- SCALEOUT_FRAME_RECEIVE: of the packets that have arrived the oldest is taken, and this one takes its turn; where the oldest
has no room, this one is tried (14 R315). -/
def execScaleoutFrameReceive (port : Fin 8) (frame : Frame) (s : State) : Out :=
  let event := fun (p : Fin 8 × Frame) => Turn.event (.scaleoutFrameReceive p.1 p.2)
  let best := firstFrame s.micros (port, frame) s.arrivedFrames [frame]
  let own := match s.takeFrame frame with
    | some t => t
    | none => s.deferTurn (event (port, frame))
  .next (if best == (port, frame) then own
    else match { s with agenda := s.agenda.map (fun t => if t == event best then event (port, frame) else t) }.takeFrame best.2 with
      | some t => t
      | none => own)

/-- A packet leaves its stream undelivered: the later ones of the stream take its place. -/
def State.dropFrame (s : State) (f : Frame) : State :=
  { s with
    txFrames := (s.txFrames.erase f).map (fun o =>
      if o.dst == f.dst && o.cls == f.cls && f.seq < o.seq then { o with seq := o.seq - 1 } else o)
    txSeq := setSeq s.txSeq f.dst f.cls (nextSeq s.txSeq f.dst f.cls - 1) }

/-- SCALEOUT_DELIVERY_TIMEOUT: a message that no route delivered is answered FAULT with VALUE 0, or counted, and firmware
is notified (14 R315). -/
def execScaleoutDeliveryTimeout (idx : Nat) (s : State) : Out :=
  .next (match s.txFrames[idx]? with
    | none => s
    | some f =>
      let t := (s.dropFrame f).report (.noRoute f.dst)
      if f.acked then s
      else match f.body with
        | .message _ m p => t.reply (dieOf p.core) p m 4 0
        | .reply p _ _ _ => t.countMsgErr (dieOf p.core)
        | _ => t)

/-- GO_BACK_N_RETRANSMISSION: the unacknowledged packets of an own stream are sent again, in order; each takes the place that
its age gives it among what the ports have to send (14 R315). -/
def execGoBackNRetransmission (src dst cls : Nat) (s : State) : Out :=
  let mine := fun (f : Frame) => f.src == src && f.dst == dst && f.cls == cls && !f.acked
  .next { s with txFrames :=
    (s.txFrames.filter mine).foldl (fun fs f => placeFrame s.micros f fs) (s.txFrames.filter (fun f => !mine f)) }

/-! ### Failures (14 R322) -/

/-- HEARTBEAT_MISS: reported to the host. -/
def execHeartbeatMiss (die : DieId) (s : State) : Out := .next (s.report (.heartbeatMissed die.val))

/-- LINK_LOSS: reported to the host. -/
def execLinkLoss (link : Nat) (s : State) : Out := .next (s.report (.linkLost link))

/-! ### Power (14 R324) -/

/-- The module trips: contexts stop (14 R324). -/
def State.tripOff (s : State) : State := if s.power = .off || s.power = .trip then s else { s.report .trip with power := .trip }

/-- Enter THROTTLE: the clock falls by 100 MHz, to no less than 1.2 GHz (14 R324). -/
def State.throttleDown (s : State) : State :=
  if s.power = .run || s.power = .throttle then { s with power := .throttle, clockMhz := max 1200 (s.clockMhz - 100) } else s

/-- POWER_INPUT_CHANGE: below 40 V the module is off; power between the limits boots it where it was below; above 60 V it trips
(14 R324; log 19). -/
def execPowerInputChange (millivolts : Nat) (s : State) : Out :=
  let t := { s with inputMv := millivolts }
  if millivolts < 40000 then .next { t.tripOff with power := .off }
  else if 60000 < millivolts then .next t.tripOff
  else if s.power = .off && s.inputMv < 40000 then execModuleReset t
  else .next t

/-- JUNCTION_THROTTLE: a junction has reached 95 °C. -/
def execJunctionThrottle (s : State) : Out := .next s.throttleDown

/-- POWER_AVERAGE_EXCEED: the 10 ms average power is above 3,600 W. -/
def execPowerAverageExceed (s : State) : Out := .next s.throttleDown

/-- JUNCTION_TRIP: a junction has reached 110 °C. -/
def execJunctionTrip (s : State) : Out := .next s.tripOff

/-- Without power, or tripped, contexts have stopped, and only a reset or a change of the input is taken (14 R324). -/
def State.halted (s : State) : Bool :=
  (s.power == .off || s.power == .trip) &&
    (match s.agenda with
      | .event .moduleReset :: _ => false
      | .event (.powerInputChange _) :: _ => false
      | _ => true)

end Sys2Proof.Machine
end

