-- ==== Sys2Proof/Machine/Choice.lean ====
section
/-! DEFINITION. Which context of a core issues next: the ends of waits, readiness and the order of 02 R30 (02 R24, R30, R39). -/
namespace Sys2Proof.Machine
open Sys2Proof

/-! ### Waits (02 R39) -/

/-- The instruction that a resident executes next; none where its fetch traps or its word is no instruction. -/
def State.nextInstr (s : State) (p : CoreId × CtxId) : Option Instr :=
  match ({ s with cur := p }).fetch with
  | .ok (w, _) => (decode w).toOption
  | .error _ => none

/-- The wait that a context restored as waiting stands in: the one of the instruction at its pc (13 R306). A message is
read again (17 R402). -/
def State.waitOf (s : State) (p : CoreId × CtxId) : Option Wait :=
  let t := { s with cur := p }
  match s.nextInstr p with
  | some (.hstart _) => some .helperFree
  | some (.hjoin f) => if f.sa = 0 then some .helpersEnded else (helperNumber (t.rs f.sa)).map (fun h => .helperEnded h.val)
  | some (.hend _) => some .helpersEnded
  | some (.barw f) => some (.barrier (f.imm.toNat % 64))
  | some (.cbget f) => some (.ringFilled (f.imm.toNat % 8))
  | some (.cbput f) => some (.ringFree (f.imm.toNat % 8))
  | some (.cbres f) => some (.ringFree (f.imm.toNat % 8))
  | some (.setvlc f) => (memAddr (t.rs f.sb) 0 8).toOption.map (fun a => .highWater a (chainScope f.fn) (t.rs f.sc))
  | some (.wfe _) => some .event
  | some (.mwait _) => some .lease
  | _ => none

/-- The lease of a context has no command under way, or a fault holds them. -/
def State.leaseRests (s : State) (p : CoreId × CtxId) (room : Nat) : Bool :=
  match (s.dieAt (dieOf p.1)).firebox.leaseOf p.1 p.2 with
  | some l => l.queue.length < room || l.state == .held
  | none => true

/-- The high-water word of a SETVLC exceeds the count taken; a read that traps ends the wait too (02 R35). -/
def State.highWaterOver (s : State) (p : CoreId × CtxId) (addr : Nat) (scope taken : Word) : Bool :=
  let t := { s with cur := p }
  match t.load (acquireServe scope t.runDie) false addr 8 with
  | .ok (v, _) => 0 < (BitVec.ofNat 64 v - taken).toInt
  | .error _ => true

/-- The phase that a context awaits has come (07 R157). -/
def State.barrierOver (s : State) (p : CoreId × CtxId) (n : Nat) : Bool :=
  let t := { s with cur := p }
  match t.barrierOf n with
  | some (q, path) => ((t.dieAt (dieOf p.1)).barrier q.launch path n).phase != t.ctx.myph.getLsbD n
  | none => true

/-- The destination accepts the message that a context has copied (08 R171). -/
def State.accepts (s : State) (p : CoreId × CtxId) : Bool :=
  let t := { s with cur := p }
  match t.ctx.outMsg with
  | some (dest, m) => (t.sendReleased dest m).isSome
  | none => true

/-- The condition of a wait holds (02 R39, first table). -/
def State.waitOver (s : State) (c : CoreId) (x : CtxId) : Wait → Bool
  | .helperFree =>
    match (s.coreAt c).placed with
    | some p => (List.range p.helpers).any (fun i => s.isFree c (Fin.ofNat 12 (i + 1)))
    | none => false
  | .helperEnded h => !(s.ctxAt c (Fin.ofNat 12 h)).active
  | .helpersEnded => !(s.coreAt c).helperActive
  | .barrier n => s.barrierOver (c, x) n
  | .ringFilled r => 0 < (s.coreAt c).rings[(Fin.ofNat 8 r)].filled
  | .ringFree r => 0 < (s.coreAt c).rings[(Fin.ofNat 8 r)].free
  | .highWater a scope taken => s.highWaterOver (c, x) a scope taken
  | .event => (s.ctxAt c x).event
  | .accept => s.accepts (c, x)
  | .lease => s.leaseRests (c, x) 1
  | .restored => true

/-- The condition of a context's wait holds, that of a restored one found from its instruction. -/
def State.conditionMet (s : State) (c : CoreId) (x : CtxId) (w : Wait) : Bool :=
  if w == .restored then
    match s.waitOf (c, x) with
    | some v => s.waitOver c x v
    | none => true
  else s.waitOver c x w

/-- A bounded wait has ended (02 R39, second table). -/
def State.boundedOver (s : State) (p : CoreId × CtxId) (w : Bounded) : Bool :=
  let t := { s with cur := p }
  match w with
  | .accesses m x g system _ => !t.accessesOut m x g system
  | .queueRoom => t.leaseRests p 16
  | .commands => t.leaseRests p 1
  | .handler n => !t.numberRuns t.runDie n

/-- A waiting context whose condition holds goes live (02 R24). -/
def State.wake (s : State) (c : CoreId) (x : CtxId) : State :=
  match (s.ctxAt c x).status with
  | .waiting w =>
    if s.conditionMet c x w then s.modCtxAt c x (fun y => { y with status := .live, waitFrom := s.cycle }) else s
  | _ => s

/-- A waiting context whose condition is met goes live (02 R24). -/
def execContextWake (core : CoreId) (ctx : CtxId) (s : State) : Out := .next (s.wake core ctx)

/-- A waiting SETVLC reads its word again (02 R35). -/
def execSetvlcReread (core : CoreId) (ctx : CtxId) (s : State) : Out :=
  .next (match (s.ctxAt core ctx).status with
    | .waiting (.highWater _ _ _) => s.wake core ctx
    | _ => s)

/-! ### Readiness (02 R30) -/

/-- The scalar registers that an instruction reads, but for its guard's. -/
def scalarReads : Instr → List (BitVec 6)
  | .ins f => [f.sa, f.sb, f.dst]
  | .add f | .sub f | .mul f | .mulh f | .div f | .rem f | .and f | .or f | .xor f | .shl f | .shr f | .sra f | .cmp f
  | .min f | .max f | .clz f | .ctz f | .popc f | .brev f | .ext f | .mov f | .fdiv f | .fsqrt f | .fcvt f | .padd f
  | .pmake f | .ptag f | .eret f | .wfe f | .hjoin f | .hend f | .hkill f | .launch f | .hbind f | .vdrain f | .aend f
  | .aabort f | .msg f | .reply f | .notify f | .plbinv f | .pinv f | .hop f | .handoff f | .pmig f => [f.sa, f.sb]
  | .addI f | .andI f | .orI f | .xorI f | .shlI f | .shrI f | .sraI f | .cmpI f | .paddI f | .jal f | .jr f | .setvl f
  | .trap f | .ecall f | .bara f | .barw f | .cbres f | .cbput f | .cbget f | .cbfree f | .csrr f | .csrw f => [f.sa]
  | .sel f | .fma f | .setvlc f | .hstart f => [f.sa, f.sb, f.sc]
  | .lih f => [f.dst]
  | .subbr f => [f.sa, f.sb]
  | .ld f | .ldacq f | .cflush f => [f.base, f.sc]
  | .st f | .strel f => [f.base, f.ds, f.sc]
  | .amo f => [f.base, f.val, f.sc]
  | .amocas f => [f.base, f.exp, f.new, f.sc]
  | .fence f => [f.sa]
  | .vaddS f | .vsubS f | .vmulS f | .vmulhS f | .vmacS f | .vminS f | .vmaxS f | .vandS f | .vorS f | .vxorS f | .vshlS f
  | .vshrS f | .vsraS f | .vcmpS f | .vmovS f | .vslide f | .vins f => [f.sb]
  | .vlds f | .vsts f => [f.base, f.sx]
  | .vext f => [f.sb]
  | .vld f | .vldx f | .vldff f | .vst f | .vstx f | .kld f | .kst f => [f.base]
  | .tex f | .texg f | .rayq f => [f.aux.setWidth 6]
  | .mlease f | .mfree f | .mtile f | .mshape f | .mzero f | .mlda f | .mldb f | .mma f | .mmab f | .mout f | .mwait f
  | .msave f | .mrest f => [f.sa, f.sb, f.sc]
  | _ => []

/-- The instruction enters the vector queue (02 R30). -/
def entersVectorQueue : Instr → Bool
  | .vadd _ | .vsub _ | .vmul _ | .vmulh _ | .vmac _ | .vmin _ | .vmax _ | .vand _ | .vor _ | .vxor _ | .vshl _ | .vshr _
  | .vsra _ | .vcmp _ | .vmerge _ | .vmov _ | .vaddS _ | .vsubS _ | .vmulS _ | .vmulhS _ | .vmacS _ | .vminS _ | .vmaxS _
  | .vandS _ | .vorS _ | .vxorS _ | .vshlS _ | .vshrS _ | .vsraS _ | .vcmpS _ | .vmovS _ | .vslide _ | .vperm _ | .viota _
  | .vext _ | .vins _ | .vred _ | .vdotb _ | .vcvt _ | .vfmt _ | .vfma _ | .vfdiv _ | .vfsqrt _ | .vfest _ | .vfexp2 _
  | .vflog2 _ | .vfsin _ | .vfclass _ | .vld _ | .vlds _ | .vldx _ | .vldff _ | .vst _ | .vsts _ | .vstx _ | .kld _ | .kst _
  | .tex _ | .texg _ | .rayq _ => true
  | _ => false

/-- The cycle from which the operands of a context's instruction are ready; outside interlock mode it does not wait for
them (03 R62). The guard's register is read only with GE = 1 (03 R56). -/
def Ctx.operandsFrom (x : Ctx) (i : Instr) : Nat :=
  if x.scbmode = 0 then
    let w := encode i
    let guard := if entersVectorQueue i then [] else ((decodeSCtl w).guard.map (fun g => g.greg)).toList
    (guard ++ scalarReads i).foldl (fun m r => if r = 0 then m else max m (readyAt r x.pend)) 0
  else 0

/-- The instruction waits until every earlier vector instruction of its context has completed (02 R39, second table). -/
def awaitsVectors : Instr → Bool
  | .vdrain _ | .hend _ | .bara _ | .launch _ | .hop _ | .handoff _ | .setvl _ | .setvlc _ => true
  | .csrr f | .csrw f => csrWaits f.imm.toNat
  | .fence f => f.imm.getLsbD 1
  | _ => false

/-- The cycle from which a context's instruction no longer waits for earlier vector instructions, or for those that use its
masks; with a false guard it waits for none (02 R39; 03 R56, R60). -/
def State.vectorsFrom (s : State) (c : CoreId) (p : CoreId × CtxId) (i : Instr) : Nat :=
  let k := s.coreAt c
  if (awaitsVectors i || k.usesMask p (masksUsed i)) &&
      (decodeSCtl (encode i)).guard.all (fun g => ({ s with cur := p }).guardHolds g) then k.vectorsDone p
  else 0

/-- A queued matrix instruction, which asks for room in its lease's queue (09 R204). -/
def queuedMatrix : Instr → Bool
  | .mzero _ | .mlda _ | .mldb _ | .mma _ | .mmab _ | .mout _ => true
  | _ => false

/-- The cycle from which a live resident is ready, as far as the present state tells (02 R30). -/
def State.readyFrom (s : State) (c : CoreId) (p : CoreId × CtxId) : Nat :=
  let x := s.ctxAt p.1 p.2
  let t := max x.waitFrom x.nextIssue
  if !x.midWait.all (s.boundedOver p) then s.cycle + 1
  else match s.nextInstr p with
    | some i =>
      if queuedMatrix i && !s.leaseRests p 16 then s.cycle + 1
      else max (max (max t (x.operandsFrom i)) (s.vectorsFrom c p i))
        (if entersVectorQueue i then (s.coreAt c).queueFree else 0)
    | none => t

/-! ### The choice (02 R30) -/

/-- Live, not travelling and not stopped for a save (02 R24, R30). -/
def Ctx.canIssue (x : Ctx) : Bool := x.status == .live && x.travel.isNone && !x.stopped

/-- The residents that may issue, whatever their STALL counts. -/
def State.candidates (s : State) (c : CoreId) : List (CoreId × CtxId) :=
  (s.residents c).filter (fun p => (s.ctxAt p.1 p.2).canIssue)

/-- The resident that has waited longest, the first of equals (02 R30). -/
def State.longest (s : State) : List (CoreId × CtxId) → Option (CoreId × CtxId)
  | [] => none
  | p :: ps =>
    match s.longest ps with
    | none => some p
    | some q => if (s.ctxAt q.1 q.2).waitFrom < (s.ctxAt p.1 p.2).waitFrom then some q else some p

/-- The place of a resident in the helpers' cyclic order: its number, guests after the core's own. -/
def helperPlace (c : CoreId) (guests : List (CoreId × CtxId)) (p : CoreId × CtxId) : Nat :=
  if p.1 == c then p.2.val else 11 + guests.findIdx (fun q => q == p)

/-- What a core does next. -/
inductive Choice where
  | run (p : CoreId × CtxId)
  | invoke
  | idle (until_ : Nat)
  deriving DecidableEq, Repr

/-- The residents that are not ready wait from the cycle in which they will be (02 R30). -/
def State.holdBack (s : State) (c : CoreId) : State :=
  (s.candidates c).foldl (fun t p =>
    let n := s.readyFrom c p
    if s.cycle < n then t.modCtxAt p.1 p.2 (fun x => { x with waitFrom := n }) else t) s

/-- A core comes to its turn: waits that are over end, due vector instructions are admitted, and what is not ready is held
back. -/
def State.wakeAll (s : State) (c : CoreId) : State :=
  (((s.residents c).foldl (fun t p => t.wake p.1 p.2) s).admitDue c).holdBack c

/-- The choice of 02 R30 for a core whose unready residents are held back: an invocation partway, the longest-waiting aged
context, a new invocation, the control context, the helpers in turn; with no ready context, the cycle at which one may be
ready. -/
def State.choose (s : State) (c : CoreId) : Choice :=
  let all := s.candidates c
  let ready := all.filter (fun p => (s.ctxAt p.1 p.2).waitFrom ≤ s.cycle)
  let k := s.coreAt c
  let handler := (c, handlerCtx)
  if k.inv.isSome && ready.contains handler then .run handler
  else
    let rest := ready.filter (fun p => p != handler)
    let aged := rest.filter (fun p => (s.ctxAt p.1 p.2).waitFrom + 32 ≤ s.cycle)
    match s.longest aged with
    | some p => .run p
    | none =>
      if k.inv.isNone && !k.hqueue.isEmpty && s.isFree c handlerCtx && (s.ctxAt c handlerCtx).waitFrom ≤ s.cycle then .invoke
      else if rest.contains (c, (0 : CtxId)) then .run (c, 0)
      else
        let guests := (s.dieAt (dieOf c)).hopSlots
        match rest.find? (fun p => k.lastHelper < helperPlace c guests p) with
        | some p => .run p
        | none =>
          match rest with
          | p :: _ => .run p
          | [] =>
            match all with
            | p :: ps => .idle (ps.foldl (fun m q => min m (s.ctxAt q.1 q.2).waitFrom) (s.ctxAt p.1 p.2).waitFrom)
            | [] => .idle (s.cycle + 1)

/-- Make a resident the executing context; a helper's turn is noted (02 R30). -/
def State.select (s : State) (c : CoreId) (p : CoreId × CtxId) : State :=
  let place := helperPlace c (s.dieAt (dieOf c)).hopSlots p
  ({ s with cur := p }).modCore c (fun k =>
    if place == 0 || place == 11 && p.1 == c then k else { k with lastHelper := place })

/-- What happens at an instruction boundary before the instruction: the end of a killed helper (02 R39), the trap of a restore with a larger VLCAP
(13 R307), or a pre-emption notice in program mode (13 R304); none when the instruction issues. -/
def State.boundary (s : State) : Option State :=
  if s.ctx.killed && s.ctx.midWait.isNone then some (s.endContext s.cur.1 s.cur.2)
  else match s.ctx.vlcapTrap with
  | some v => some ((s.modCtx (fun x => { x with vlcapTrap := none })).takeTrap 0x15 (addrWord v) none)
  | none =>
    let x := s.ctx
    if x.notice.isSome && !x.noticed && x.mode == .program && x.pnote && !x.completesFirst then
      some ((s.takeTrap 0x12 0 none).modCtx (fun y => { y with noticed := x.region.isNone }))
    else none

/-- A step that would exceed its domain's injection limit is not taken: its core or agent stalls (01 R18). -/
def State.limited (s : State) (d : DieId) (domain : BitVec 16) (stalled : State) : Out → Out
  | .next t => .next (if s.overLimit t d domain then stalled else t)
  | o => o

/-- The executing context stalls until the next injection window (01 R18). -/
def State.stallContext (s : State) : State := s.modCtx (fun x => { x with nextIssue := s.nextWindow })

/-- A core's next invocation stalls until the next injection window (01 R18). -/
def State.stallHandler (s : State) (c : CoreId) : State :=
  s.modCtxAt c handlerCtx (fun x => { x with waitFrom := s.nextWindow })

/-- The domain of the message that a core's next invocation takes. -/
def State.invokeDomain (s : State) (c : CoreId) : BitVec 16 :=
  match lowestClass (s.coreAt c).hqueue with
  | some d => d.sender.domain
  | none => 0

/-- The event that takes the place of the instruction with word `w`: the handler overrun of an invocation's
8,193rd instruction (02 R29), or the LENGTH abort of a region's 257th, AEND apart (08 R184). -/
def State.boundaryEvent (s : State) (w : Word) : Option Instr :=
  let count := match (s.coreAt s.cur.1).inv with
    | some v => v.count
    | none => 0
  if s.inHandler && Config.handlerLimit ≤ count then some (.handlerOverrun s.cur.1)
  else if s.inRegion && 256 ≤ s.ctx.astate.nins && !(opcode w == 0x5B && (decodeSCtl w).guard.all s.guardHolds) then
    some (.regionLengthAbort s.cur.1 s.cur.2)
  else none

end Sys2Proof.Machine
end

