-- ==== Sys2Proof/Machine/Dispatch.lean ====
section
/-! DEFINITION. One arm per constructor of Instr: the meaning of each instruction, command and event. -/
namespace Sys2Proof.Machine
open Sys2Proof

/-- The meaning of an instruction in a state. -/
def exec (i : Instr) (s : State) : Host.Outcome State Fault Refusal :=
  match i with
  | .add f => Sys2Proof.Machine.execAdd f s
  | .addI f => Sys2Proof.Machine.execAddI f s
  | .sub f => Sys2Proof.Machine.execSub f s
  | .mul f => Sys2Proof.Machine.execMul f s
  | .mulh f => Sys2Proof.Machine.execMulh f s
  | .div f => Sys2Proof.Machine.execDiv f s
  | .rem f => Sys2Proof.Machine.execRem f s
  | .and f => Sys2Proof.Machine.execAnd f s
  | .andI f => Sys2Proof.Machine.execAndI f s
  | .or f => Sys2Proof.Machine.execOr f s
  | .orI f => Sys2Proof.Machine.execOrI f s
  | .xor f => Sys2Proof.Machine.execXor f s
  | .xorI f => Sys2Proof.Machine.execXorI f s
  | .shl f => Sys2Proof.Machine.execShl f s
  | .shlI f => Sys2Proof.Machine.execShlI f s
  | .shr f => Sys2Proof.Machine.execShr f s
  | .shrI f => Sys2Proof.Machine.execShrI f s
  | .sra f => Sys2Proof.Machine.execSra f s
  | .sraI f => Sys2Proof.Machine.execSraI f s
  | .cmp f => Sys2Proof.Machine.execCmp f s
  | .cmpI f => Sys2Proof.Machine.execCmpI f s
  | .min f => Sys2Proof.Machine.execMin f s
  | .max f => Sys2Proof.Machine.execMax f s
  | .clz f => Sys2Proof.Machine.execClz f s
  | .ctz f => Sys2Proof.Machine.execCtz f s
  | .popc f => Sys2Proof.Machine.execPopc f s
  | .brev f => Sys2Proof.Machine.execBrev f s
  | .ext f => Sys2Proof.Machine.execExt f s
  | .ins f => Sys2Proof.Machine.execIns f s
  | .mov f => Sys2Proof.Machine.execMov f s
  | .sel f => Sys2Proof.Machine.execSel f s
  | .fma f => Sys2Proof.Machine.execFma f s
  | .fdiv f => Sys2Proof.Machine.execFdiv f s
  | .fsqrt f => Sys2Proof.Machine.execFsqrt f s
  | .fcvt f => Sys2Proof.Machine.execFcvt f s
  | .padd f => Sys2Proof.Machine.execPadd f s
  | .paddI f => Sys2Proof.Machine.execPaddI f s
  | .pmake f => Sys2Proof.Machine.execPmake f s
  | .ptag f => Sys2Proof.Machine.execPtag f s
  | .li f => Sys2Proof.Machine.execLi f s
  | .lih f => Sys2Proof.Machine.execLih f s
  | .br f => Sys2Proof.Machine.execBr f s
  | .jal f => Sys2Proof.Machine.execJal f s
  | .jr f => Sys2Proof.Machine.execJr f s
  | .subbr f => Sys2Proof.Machine.execSubbr f s
  | .setvl f => Sys2Proof.Machine.execSetvl f s
  | .setvlc f => Sys2Proof.Machine.execSetvlc f s
  | .trap f => Sys2Proof.Machine.execTrap f s
  | .eret f => Sys2Proof.Machine.execEret f s
  | .wfe f => Sys2Proof.Machine.execWfe f s
  | .hstart f => Sys2Proof.Machine.execHstart f s
  | .hjoin f => Sys2Proof.Machine.execHjoin f s
  | .hend f => Sys2Proof.Machine.execHend f s
  | .hkill f => Sys2Proof.Machine.execHkill f s
  | .launch f => Sys2Proof.Machine.execLaunch f s
  | .hbind f => Sys2Proof.Machine.execHbind f s
  | .ecall f => Sys2Proof.Machine.execEcall f s
  | .ld f => Sys2Proof.Machine.execLd f s
  | .st f => Sys2Proof.Machine.execSt f s
  | .ldacq f => Sys2Proof.Machine.execLdacq f s
  | .strel f => Sys2Proof.Machine.execStrel f s
  | .amo f => Sys2Proof.Machine.execAmo f s
  | .amocas f => Sys2Proof.Machine.execAmocas f s
  | .fence f => Sys2Proof.Machine.execFence f s
  | .vdrain f => Sys2Proof.Machine.execVdrain f s
  | .bara f => Sys2Proof.Machine.execBara f s
  | .barw f => Sys2Proof.Machine.execBarw f s
  | .abegin f => Sys2Proof.Machine.execAbegin f s
  | .aend f => Sys2Proof.Machine.execAend f s
  | .aabort f => Sys2Proof.Machine.execAabort f s
  | .msg f => Sys2Proof.Machine.execMsg f s
  | .reply f => Sys2Proof.Machine.execReply f s
  | .notify f => Sys2Proof.Machine.execNotify f s
  | .cbres f => Sys2Proof.Machine.execCbres f s
  | .cbput f => Sys2Proof.Machine.execCbput f s
  | .cbget f => Sys2Proof.Machine.execCbget f s
  | .cbfree f => Sys2Proof.Machine.execCbfree f s
  | .csrr f => Sys2Proof.Machine.execCsrr f s
  | .csrw f => Sys2Proof.Machine.execCsrw f s
  | .plbinv f => Sys2Proof.Machine.execPlbinv f s
  | .pinv f => Sys2Proof.Machine.execPinv f s
  | .cflush f => Sys2Proof.Machine.execCflush f s
  | .hop f => Sys2Proof.Machine.execHop f s
  | .handoff f => Sys2Proof.Machine.execHandoff f s
  | .pmig f => Sys2Proof.Machine.execPmig f s
  | .vadd f => Sys2Proof.Machine.execVadd f s
  | .vsub f => Sys2Proof.Machine.execVsub f s
  | .vmul f => Sys2Proof.Machine.execVmul f s
  | .vmulh f => Sys2Proof.Machine.execVmulh f s
  | .vmac f => Sys2Proof.Machine.execVmac f s
  | .vmin f => Sys2Proof.Machine.execVmin f s
  | .vmax f => Sys2Proof.Machine.execVmax f s
  | .vand f => Sys2Proof.Machine.execVand f s
  | .vor f => Sys2Proof.Machine.execVor f s
  | .vxor f => Sys2Proof.Machine.execVxor f s
  | .vshl f => Sys2Proof.Machine.execVshl f s
  | .vshr f => Sys2Proof.Machine.execVshr f s
  | .vsra f => Sys2Proof.Machine.execVsra f s
  | .vcmp f => Sys2Proof.Machine.execVcmp f s
  | .vmerge f => Sys2Proof.Machine.execVmerge f s
  | .vmov f => Sys2Proof.Machine.execVmov f s
  | .vaddS f => Sys2Proof.Machine.execVaddS f s
  | .vsubS f => Sys2Proof.Machine.execVsubS f s
  | .vmulS f => Sys2Proof.Machine.execVmulS f s
  | .vmulhS f => Sys2Proof.Machine.execVmulhS f s
  | .vmacS f => Sys2Proof.Machine.execVmacS f s
  | .vminS f => Sys2Proof.Machine.execVminS f s
  | .vmaxS f => Sys2Proof.Machine.execVmaxS f s
  | .vandS f => Sys2Proof.Machine.execVandS f s
  | .vorS f => Sys2Proof.Machine.execVorS f s
  | .vxorS f => Sys2Proof.Machine.execVxorS f s
  | .vshlS f => Sys2Proof.Machine.execVshlS f s
  | .vshrS f => Sys2Proof.Machine.execVshrS f s
  | .vsraS f => Sys2Proof.Machine.execVsraS f s
  | .vcmpS f => Sys2Proof.Machine.execVcmpS f s
  | .vmovS f => Sys2Proof.Machine.execVmovS f s
  | .vslide f => Sys2Proof.Machine.execVslide f s
  | .vperm f => Sys2Proof.Machine.execVperm f s
  | .viota f => Sys2Proof.Machine.execViota f s
  | .vext f => Sys2Proof.Machine.execVext f s
  | .vins f => Sys2Proof.Machine.execVins f s
  | .vred f => Sys2Proof.Machine.execVred f s
  | .vdotb f => Sys2Proof.Machine.execVdotb f s
  | .vcvt f => Sys2Proof.Machine.execVcvt f s
  | .vfmt f => Sys2Proof.Machine.execVfmt f s
  | .vfma f => Sys2Proof.Machine.execVfma f s
  | .vfdiv f => Sys2Proof.Machine.execVfdiv f s
  | .vfsqrt f => Sys2Proof.Machine.execVfsqrt f s
  | .vfest f => Sys2Proof.Machine.execVfest f s
  | .vfexp2 f => Sys2Proof.Machine.execVfexp2 f s
  | .vflog2 f => Sys2Proof.Machine.execVflog2 f s
  | .vfsin f => Sys2Proof.Machine.execVfsin f s
  | .vfclass f => Sys2Proof.Machine.execVfclass f s
  | .vld f => Sys2Proof.Machine.execVld f s
  | .vlds f => Sys2Proof.Machine.execVlds f s
  | .vldx f => Sys2Proof.Machine.execVldx f s
  | .vldff f => Sys2Proof.Machine.execVldff f s
  | .vst f => Sys2Proof.Machine.execVst f s
  | .vsts f => Sys2Proof.Machine.execVsts f s
  | .vstx f => Sys2Proof.Machine.execVstx f s
  | .kld f => Sys2Proof.Machine.execKld f s
  | .kst f => Sys2Proof.Machine.execKst f s
  | .klog f => Sys2Proof.Machine.execKlog f s
  | .kmov f => Sys2Proof.Machine.execKmov f s
  | .kpush f => Sys2Proof.Machine.execKpush f s
  | .kpop f => Sys2Proof.Machine.execKpop f s
  | .kelse f => Sys2Proof.Machine.execKelse f s
  | .kcnt f => Sys2Proof.Machine.execKcnt f s
  | .kfirst f => Sys2Proof.Machine.execKfirst f s
  | .kbr f => Sys2Proof.Machine.execKbr f s
  | .mlease f => Sys2Proof.Machine.execMlease f s
  | .mfree f => Sys2Proof.Machine.execMfree f s
  | .mtile f => Sys2Proof.Machine.execMtile f s
  | .mshape f => Sys2Proof.Machine.execMshape f s
  | .mzero f => Sys2Proof.Machine.execMzero f s
  | .mlda f => Sys2Proof.Machine.execMlda f s
  | .mldb f => Sys2Proof.Machine.execMldb f s
  | .mma f => Sys2Proof.Machine.execMma f s
  | .mmab f => Sys2Proof.Machine.execMmab f s
  | .mout f => Sys2Proof.Machine.execMout f s
  | .mwait f => Sys2Proof.Machine.execMwait f s
  | .msave f => Sys2Proof.Machine.execMsave f s
  | .mrest f => Sys2Proof.Machine.execMrest f s
  | .tex f => Sys2Proof.Machine.execTex f s
  | .texg f => Sys2Proof.Machine.execTexg f s
  | .rayq f => Sys2Proof.Machine.execRayq f s
  | .cpy c => Sys2Proof.Machine.execCpy c s
  | .cpy2d c => Sys2Proof.Machine.execCpy2d c s
  | .cpyfill c => Sys2Proof.Machine.execCpyfill c s
  | .cpydec c => Sys2Proof.Machine.execCpydec c s
  | .wload c => Sys2Proof.Machine.execWload c s
  | .rast c => Sys2Proof.Machine.execRast c s
  | .mesh c => Sys2Proof.Machine.execMesh c s
  | .blend c => Sys2Proof.Machine.execBlend c s
  | .sproj c => Sys2Proof.Machine.execSproj c s
  | .ssort c => Sys2Proof.Machine.execSsort c s
  | .sblend c => Sys2Proof.Machine.execSblend c s
  | .sbwd c => Sys2Proof.Machine.execSbwd c s
  | .inboxMessage d => Sys2Proof.Machine.execInboxMessage d s
  | .handlerMessage m sender => Sys2Proof.Machine.execHandlerMessage m sender s
  | .messageAccept core ctx => Sys2Proof.Machine.execMessageAccept core ctx s
  | .handlerInvocation core => Sys2Proof.Machine.execHandlerInvocation core s
  | .handlerOverrun core => Sys2Proof.Machine.execHandlerOverrun core s
  | .contextWake core ctx => Sys2Proof.Machine.execContextWake core ctx s
  | .setvlcReread core ctx => Sys2Proof.Machine.execSetvlcReread core ctx s
  | .barrierDieReport die obj => Sys2Proof.Machine.execBarrierDieReport die obj s
  | .regionLengthAbort core ctx => Sys2Proof.Machine.execRegionLengthAbort core ctx s
  | .vectorAdmission core => Sys2Proof.Machine.execVectorAdmission core s
  | .arrayGrant die => Sys2Proof.Machine.execArrayGrant die s
  | .quantumExpiry die => Sys2Proof.Machine.execQuantumExpiry die s
  | .fireboxCommandRun die => Sys2Proof.Machine.execFireboxCommandRun die s
  | .hobRefreshStart die => Sys2Proof.Machine.execHobRefreshStart die s
  | .hobRefreshEnd die => Sys2Proof.Machine.execHobRefreshEnd die s
  | .l2DirtyWriteback die va => Sys2Proof.Machine.execL2DirtyWriteback die va s
  | .l2Eviction die va => Sys2Proof.Machine.execL2Eviction die va s
  | .hopArrival core ctx => Sys2Proof.Machine.execHopArrival core ctx s
  | .fluePacketAging idx => Sys2Proof.Machine.execFluePacketAging idx s
  | .flueInjectionWindow => Sys2Proof.Machine.execFlueInjectionWindow s
  | .hostRingConsume ring => Sys2Proof.Machine.execHostRingConsume ring s
  | .ringTailWrite ring tail => Sys2Proof.Machine.execRingTailWrite ring tail s
  | .ringReset ring => Sys2Proof.Machine.execRingReset ring s
  | .ringSkip ring => Sys2Proof.Machine.execRingSkip ring s
  | .ringResume ring => Sys2Proof.Machine.execRingResume ring s
  | .ringConfigWrite ring off value => Sys2Proof.Machine.execRingConfigWrite ring off value s
  | .dependenceTest arrival => Sys2Proof.Machine.execDependenceTest arrival s
  | .launchSelection => Sys2Proof.Machine.execLaunchSelection s
  | .preemptionNoticeTimeout core ctx => Sys2Proof.Machine.execPreemptionNoticeTimeout core ctx s
  | .groupRestore arrival group => Sys2Proof.Machine.execGroupRestore arrival group s
  | .agingStep => Sys2Proof.Machine.execAgingStep s
  | .occupancySample => Sys2Proof.Machine.execOccupancySample s
  | .groupCompletion arrival group => Sys2Proof.Machine.execGroupCompletion arrival group s
  | .supervisorEndLaunch arrival => Sys2Proof.Machine.execSupervisorEndLaunch arrival s
  | .nqheadWrite die value => Sys2Proof.Machine.execNqheadWrite die value s
  | .vdmapWrite value => Sys2Proof.Machine.execVdmapWrite value s
  | .registerWrite addr value => Sys2Proof.Machine.execRegisterWrite addr value s
  | .hostApertureRead off len => Sys2Proof.Machine.execHostApertureRead off len s
  | .hostApertureWrite off bytes => Sys2Proof.Machine.execHostApertureWrite off bytes s
  | .heldHostWriteRelease idx granted => Sys2Proof.Machine.execHeldHostWriteRelease idx granted s
  | .hostSnoop addr => Sys2Proof.Machine.execHostSnoop addr s
  | .moduleReset => Sys2Proof.Machine.execModuleReset s
  | .bootgo => Sys2Proof.Machine.execBootgo s
  | .attest => Sys2Proof.Machine.execAttest s
  | .scaleoutFrameReceive port frame => Sys2Proof.Machine.execScaleoutFrameReceive port frame s
  | .scaleoutDeliveryTimeout idx => Sys2Proof.Machine.execScaleoutDeliveryTimeout idx s
  | .heartbeatMiss die => Sys2Proof.Machine.execHeartbeatMiss die s
  | .linkLoss link => Sys2Proof.Machine.execLinkLoss link s
  | .powerInputChange millivolts => Sys2Proof.Machine.execPowerInputChange millivolts s
  | .junctionThrottle => Sys2Proof.Machine.execJunctionThrottle s
  | .powerAverageExceed => Sys2Proof.Machine.execPowerAverageExceed s
  | .junctionTrip => Sys2Proof.Machine.execJunctionTrip s
  | .unassignedOp word => Sys2Proof.Machine.execUnassignedOp word s
  | .instructionFetch cause addr => Sys2Proof.Machine.execInstructionFetch cause addr s
  | .fluePacketArrival idx => Sys2Proof.Machine.execFluePacketArrival idx s
  | .linkNegotiation cxl => Sys2Proof.Machine.execLinkNegotiation cxl s
  | .goBackNRetransmission src dst cls => Sys2Proof.Machine.execGoBackNRetransmission src dst cls s
  | .stagingSramWrite off bytes => Sys2Proof.Machine.execStagingSramWrite off bytes s

end Sys2Proof.Machine
end

