-- ==== Sys2Proof/Machine/Step.lean ====
section
/-! DEFINITION. One step of the package: the next turn of the agenda, or the focus core's next issue. -/
namespace Sys2Proof.Machine
open Sys2Proof

/-- The instruction that the executing context issues: the word at its pc decoded, or the event of a failing
fetch (15 R340), of a 257th instruction of a region (08 R184) or of an invocation's limit (02 R29). -/
def stepContext (s : State) : Host.Outcome State Fault Refusal :=
  match s.fetch with
  | .error cause => exec (.instructionFetch cause s.ctx.pc) s
  | .ok (w, s1) =>
    match s1.boundaryEvent w with
    | some i => exec i s1
    | none =>
      match decode w with
      | .ok i => exec i s1
      | .error _ => exec (.unassignedOp w) s1

/-- The cycle to which a core lets the clock run that has no ready context before `t`: a cycle where another core is busy
(log 9). -/
def State.idleTo (s : State) (c : CoreId) (t : Nat) : Nat :=
  if ({ s with focus := c }).nextFocus == c then max t (s.cycle + 1) else s.cycle + 1

/-- A core's turn (02 R30). -/
def stepCore (c : CoreId) (s : State) : Host.Outcome State Fault Refusal :=
  match s.choose c with
  | .idle t => .next (s.advanceTo (s.idleTo c t))
  | .invoke => s.limited (dieOf c) (s.invokeDomain c) (s.stallHandler c) (exec (.handlerInvocation c) s)
  | .run p =>
    let t := s.select c p
    match t.boundary with
    | some u => .next u
    | none => t.limited t.runDie t.ctx.domain t.stallContext (stepContext t)

/-- An agent's turn: the command at the head of its queue (08 R171). -/
def stepAgent (d : DieId) (n : Fin 8) (s : State) : Host.Outcome State Fault Refusal :=
  match s.headCommand d n with
  | none => .next s
  | some (.ok i) => s.limited d (s.headDomain d n) (s.deferTurn (.agent d n)) (exec i s)
  | some (.error t) => s.limited d (s.headDomain d n) (s.deferTurn (.agent d n)) (.next t)

/-- One step: a tripped module goes off, and off it takes none (14 R324); the events of cycles that have passed are raised; else
the next turn of the agenda is taken; else the focus core takes its own (log 1). -/
def step (s : State) : Host.Outcome State Fault Refusal :=
  if s.halted then (if s.power == .trip then .next { s with power := .off } else .fault .poweredOff)
  else if s.clockDue then .next s.raiseClock
  else match s.agenda with
    | .event i :: rest => exec i { s with agenda := rest }
    | .agent d n :: rest => stepAgent d n { s with agenda := rest }
    | .core c :: rest => stepCore c ({ s with agenda := rest }.wakeAll c)
    | [] => stepCore s.focus ({ s with focus := s.nextFocus }.wakeAll s.focus)

/-- The state with an instruction placed where the next step fetches: context 0 of core 0 is live in firmware
mode, with the word in the core's instruction L1 and right X in its PLB (log 6). -/
def State.withFetchWord (s : State) (nbits w : Nat) : State := s.placeWord (w % 2 ^ nbits)

end Sys2Proof.Machine
end

