-- ==== Sys2Proof/Safety.lean ====
section
/-! DEFINITION. What a safe run is, and the terms in which the claims are stated: when an instruction executes, and what
it leaves unchanged. -/
namespace Sys2Proof

/-- The memories, and the boot staging SRAM, are in canonical form. -/
def memoriesWf (s : Machine.State) : Bool :=
  Machine.memoryWf s.mem && Machine.memoryWf s.lmem && Machine.memoryWf s.hob && Machine.memoryWf s.boot.staging

/-- The grain of a leaf is 32, 128 or 512 bytes, and its page is a run of 64 KiB pages on their boundary (06 R128; 13 R295). -/
def leafOk (l : Machine.Leaf) : Bool :=
  (l.grain == 32 || l.grain == 128 || l.grain == 512) && l.vbase % 65536 == 0 && l.size % 65536 == 0

/-- A cached grain starts on its boundary. -/
def grainOk (va size : Nat) : Bool := (size == 32 || size == 128 || size == 512) && va % size == 0

/-- Every line of an L1 or L2 is a grain, and every cached translation is a
leaf's (06 R126 to R128; 13 R296). -/
def linesOk (s : Machine.State) : Bool :=
  s.cores.toList.all (fun k => k.l1.all (fun ln => grainOk ln.va ln.size)) &&
    s.dies.toList.all (fun d => d.l2.all (fun ln => grainOk ln.va ln.size) && d.tlb.all (fun e => leafOk e.leaf))

/-- No step of the run so far has stopped, and the memories are canonical. -/
def safe (s : Machine.State) : Bool := s.power != .off && s.power != .trip && memoriesWf s

end Sys2Proof

namespace Sys2Proof.Machine
open Sys2Proof

/-- A scalar register of the executing context, outside the trust mode of the scoreboard; s0 is zero (03 R42). -/
def State.reg (s : State) (r : BitVec 6) : Word := if r = 0 then 0 else s.ctx.s[r.toNat]

/-- The scalar registers after a write; one of s0 is discarded (03 R42). -/
def regsAfter (x : Vector Word 64) (d : BitVec 6) (v : Word) : Vector Word 64 := if d = 0 then x else x.set d.toNat v

/-- The guard of an instruction lets it execute (03 R56). -/
def State.guardOpen (s : State) (ctl : SCtl) : Prop :=
  ∀ g, ctl.guard = some g → (bitAt (s.reg g.greg) g.gbit.toNat ^^ g.gn) = true

/-- In check mode no source is unready and the destination's write is not overtaken (03 R62); `srcs` counts the guard's
register, and `lam` is 0 for an interlocked result. -/
def State.noUnderflow (s : State) (srcs : List (BitVec 6)) (dst : Option (BitVec 6)) (lam : Nat) : Prop :=
  s.ctx.scbmode = 2 →
    (∀ r ∈ srcs, r ≠ 0 → readyAt r s.ctx.pend ≤ max s.cycle s.ctx.nextIssue) ∧
    (∀ d, dst = some d → d ≠ 0 → lam ≠ 0 → readyAt d s.ctx.pend ≤ max s.cycle s.ctx.nextIssue + lam)

/-- An instruction with these control bits, sources, destination and latency issues and executes, outside an atomic
region and outside trust mode. -/
def State.executes (s : State) (ctl : SCtl) (srcs : List (BitVec 6)) (dst : Option (BitVec 6)) (lam : Nat) : Prop :=
  s.inRegion = false ∧ s.ctx.scbmode ≠ 1 ∧ s.guardOpen ctl ∧
    s.noUnderflow ((ctl.guard.map (fun g => g.greg)).toList ++ srcs) dst lam

/-- The state in which the own part of an instruction with these sources runs. -/
def State.atIssue (s : State) (srcs : List (BitVec 6)) : State := (s.advanceTo (s.issueCycle srcs)).countIssue true

/-- Nothing outside the cores has changed but the clock and the count of free values. -/
def State.sameOutside (s t : State) : Prop :=
  t = { s with cores := t.cores, cycle := t.cycle, time := t.time, timeFrac := t.timeFrac, freeCtr := t.freeCtr }

/-- A core apart from its contexts, the count of its invocation and its vector queue. -/
def Core.sameShared (a b : Core) : Prop :=
  b = { a with ctxs := b.ctxs, inv := b.inv, vqueue := b.vqueue, walks := b.walks } ∧
    b.inv.map (fun v => { v with count := 0 }) = a.inv.map (fun v => { v with count := 0 })

/-- Only the executing context has changed, with the clock, the vector queues and the invocation's count: no other
context, no shared part of a core, no die, no byte of any memory. -/
def State.onlyContext (s t : State) : Prop :=
  s.sameOutside t ∧ (∀ c, (s.coreAt c).sameShared (t.coreAt c)) ∧
    ∀ c x, (c, x) ≠ s.cur → t.ctxAt c x = s.ctxAt c x

/-- A context after an instruction that moves its pc, writes scalar registers and may raise flags of FCSR: everything
else, but the bookkeeping of issue, is unchanged. -/
def Ctx.onlyScalars (x y : Ctx) : Prop :=
  y = { x with
    pc := y.pc, s := y.s, fcsr := y.fcsr, pend := y.pend, nextIssue := y.nextIssue, waitFrom := y.waitFrom
    sinceHop := y.sinceHop, midWait := y.midWait }

/-- A context but for the books of issue. -/
def Ctx.sameBut (x y : Ctx) : Prop :=
  y = { x with nextIssue := y.nextIssue, waitFrom := y.waitFrom, sinceHop := y.sinceHop, midWait := y.midWait, pend := y.pend }

/-- Every byte of the three memories reads as before. -/
def State.sameBytes (s t : State) : Prop :=
  ∀ a, readByte t.mem a = readByte s.mem a ∧ readByte t.lmem a = readByte s.lmem a ∧ readByte t.hob a = readByte s.hob a

/-- An instruction has completed with the pc given, by writing one scalar register and raising flags: only the executing
context has changed, in it only its pc, its scalar registers and its flags, and no byte of memory. -/
def State.scalarsTo (s t : State) (pc : Word) (dst : BitVec 6) (value : Word) (flags : BitVec 9) : Prop :=
  s.onlyContext t ∧ s.sameBytes t ∧ s.ctx.onlyScalars t.ctx ∧ t.ctx.pc = pc ∧
    t.ctx.s = regsAfter s.ctx.s dst value ∧ t.ctx.fcsr = s.ctx.fcsr ||| flags

/-- The same at the next instruction. -/
def State.scalarDone (s t : State) (dst : BitVec 6) (value : Word) (flags : BitVec 9) : Prop :=
  s.scalarsTo t (s.ctx.pc + 8) dst value flags

/-- A trap has been taken at the executing context's pc (13 R289): only that context has changed, in it only the trap CSRs,
VSTART where the instruction stopped at an element, the mode and the pc, with every fixed-latency result ready, no message
that waits (17 R402), and no STALL count: nothing but the vector instructions and the results that it waits for holds the
context up (02 R39; 03 R61). -/
def State.trapTaken (s t : State) (elem : Option Nat) (cause : BitVec 8) (value : Word) : Prop :=
  s.onlyContext t ∧ s.sameBytes t ∧
    t.ctx = { s.ctx with
      vstart := elem.getD s.ctx.vstart
      trapcause := (if elem.isSome then (1 : BitVec 1) else 0) ++ modeCode s.ctx.mode ++ cause
      trappc := s.ctx.pc
      trapval := value
      mode := if s.ctx.mode = .program then .supervisor else .firmware
      pc := if s.ctx.mode = .program then s.ctx.trapvec else (s.dieAt s.runDie).fw.fvec
      pend := [], nextIssue := t.ctx.nextIssue
      waitFrom := t.ctx.waitFrom, sinceHop := t.ctx.sinceHop, midWait := t.ctx.midWait, outMsg := none } ∧
    t.ctx.nextIssue ≤ max (max t.cycle ((t.coreAt s.runCore).vectorsDone s.cur)) (resultsReady s.ctx.pend)

end Sys2Proof.Machine
end

