-- ==== Sys2Proof/Certificates/Slice0/Obligations.lean ====
section
/-! DEFINITION. The statements of slice 0, after the tables and terms that they use. -/
namespace Sys2Proof.Claims
open Sys2Proof Sys2Proof.Machine

/-! ### Scalar arithmetic (15 to 18; 05 R83 to R92) -/

/-- An instruction that writes one scalar register: its control bits, the registers it reads, its destination and latency
(0 where the result is interlocked), the value it writes and the flags it raises. -/
structure Row where
  ctl : SCtl
  srcs : List (BitVec 6)
  dst : BitVec 6
  lam : Nat
  value : Word
  flags : BitVec 9 := 0

/-- The instructions of a table complete: each writes its row's value to its row's destination, raises its row's flags and
changes nothing else. -/
def RowsComplete (row : State → Instr → Option Row) : Prop :=
  ∀ (i : Instr) (s : State) (r : Row), i.wellFormed = true → row s i = some r →
    s.executes r.ctl r.srcs (some r.dst) r.lam → ∃ t, exec i s = .next t ∧ s.scalarDone t r.dst r.value r.flags

/-- The width in bits of an integer type: i8, n8, i16, n16, i32, n32, i64, n64 (02 R31; 05 R83). -/
def intBits (ty : BitVec 5) : Nat := 8 * 2 ^ (ty.toNat / 2)

/-- An integer operand: the low bits of the register, signed for the even codes, the i types (15 R326). -/
def intOf (ty : BitVec 5) (v : Word) : Int :=
  let u := v.toNat % 2 ^ intBits ty
  if ty.toNat % 2 = 0 ∧ 2 ^ (intBits ty - 1) ≤ u then (u : Int) - 2 ^ intBits ty else u

/-- An integer result wrapped to its type and extended to the register (15 R326). -/
def regOf (ty : BitVec 5) (x : Int) : Word :=
  if ty.toNat % 2 = 0 then (BitVec.ofInt (intBits ty) x).signExtend 64 else (BitVec.ofInt (intBits ty) x).setWidth 64

/-- The condition word of two ordered operands: EQ, GE, LE; or NE, LT, LE; or NE, GE, GT (15 R349). -/
def orderWord (a b : Int) : Word := if a = b then 0x19 else if a < b then 0x16 else 0x2A

/-- The quotient of 16 R358. -/
def quotientOf (ty : BitVec 5) (a b : Int) : Int :=
  if b = 0 then 2 ^ intBits ty - 1
  else if ty.toNat % 2 = 0 ∧ a = -(2 ^ (intBits ty - 1)) ∧ b = -1 then a
  else Int.tdiv a b

/-- A two-source row with an integer type. -/
def intRow (s : State) (f : SR) (lam : Nat) (value : Int → Int → Word) : Option Row :=
  if f.ty.toNat ≤ 7 then
    some { ctl := f.ctl, srcs := [f.sa, f.sb], dst := f.dst, lam := lam
           value := value (intOf f.ty (s.reg f.sa)) (intOf f.ty (s.reg f.sb)) }
  else none

/-- The arithmetic instructions with an integer TYPE, and the immediate forms, which are i64 (15 R330, R349; 16 R358;
17 R391, R404, R405, R418, R426; 03 R63). -/
def integerRow (s : State) : Instr → Option Row
  | .add f => intRow s f 1 (fun a b => regOf f.ty (a + b))
  | .sub f => intRow s f 1 (fun a b => regOf f.ty (a - b))
  | .mul f => intRow s f 3 (fun a b => regOf f.ty (a * b))
  | .mulh f => intRow s f 3 (fun a b => regOf f.ty (a * b / 2 ^ intBits f.ty))
  | .div f => intRow s f 0 (fun a b => regOf f.ty (quotientOf f.ty a b))
  | .rem f => intRow s f 0 (fun a b => regOf f.ty (a - b * quotientOf f.ty a b))
  | .min f => intRow s f 1 (fun a b => regOf f.ty (if b < a then b else a))
  | .max f => intRow s f 1 (fun a b => regOf f.ty (if a < b then b else a))
  | .cmp f => intRow s f 1 orderWord
  | .addI f => some { ctl := f.ctl, srcs := [f.sa], dst := f.dst, lam := 1, value := s.reg f.sa + f.imm.signExtend 64 }
  | .cmpI f => some { ctl := f.ctl, srcs := [f.sa], dst := f.dst, lam := 1
                      value := orderWord (s.reg f.sa).toInt f.imm.toInt }
  | _ => none

/-- A two-source row on whole registers. -/
def wordRow (s : State) (f : SR) (value : Word → Word → Word) : Option Row :=
  some { ctl := f.ctl, srcs := [f.sa, f.sb], dst := f.dst, lam := 1, value := value (s.reg f.sa) (s.reg f.sb) }

/-- A row on a register and a sign-extended immediate (04 R75). -/
def immRow (s : State) (f : SI) (value : Word → Word → Word) : Option Row :=
  some { ctl := f.ctl, srcs := [f.sa], dst := f.dst, lam := 1, value := value (s.reg f.sa) (f.imm.signExtend 64) }

/-- A one-source row of latency 2 (03 R63). -/
def countRow (s : State) (f : SR) (value : Word → Word) : Option Row :=
  some { ctl := f.ctl, srcs := [f.sa], dst := f.dst, lam := 2, value := value (s.reg f.sa) }

/-- The least of the numbers 0 to 63 that satisfies `p`, else 64. -/
def firstBelow64 (p : Nat → Bool) : Nat := ((List.range 64).find? p).getD 64

/-- The shifts by the count modulo 64 (17 R423). -/
def shlOf (a b : Word) : Word := BitVec.ofNat 64 (a.toNat * 2 ^ (b.toNat % 64))
/-- The shift right that fills with zeros (17 R423). -/
def shrOf (a b : Word) : Word := BitVec.ofNat 64 (a.toNat / 2 ^ (b.toNat % 64))
/-- The shift right that fills with bit 63 (17 R423). -/
def sraOf (a b : Word) : Word := BitVec.ofInt 64 (a.toInt / 2 ^ (b.toNat % 64))

/-- POS and LEN of a field descriptor (16 R361). -/
def posOf (d : Word) : Nat := d.toNat % 64
/-- LEN of a field descriptor (16 R361). -/
def lenOf (d : Word) : Nat := d.toNat / 256 % 64 + 1

/-- Bit `i` of INS's result: of s[SA] inside the field, else of the old destination (16 R373). -/
def insBit (old a d : Word) (i : Nat) : Bool :=
  if posOf d ≤ i ∧ i < posOf d + lenOf d then a.getLsbD (i - posOf d) else old.getLsbD i

/-- The bitwise, shift, counting, field and move instructions, constants and tags (15 R335, R342, R348; 16 R361, R373, R389,
R390; 17 R400, R409, R413, R415, R420, R423; 18 R456). -/
def bitRow (s : State) : Instr → Option Row
  | .and f => wordRow s f (fun a b => a &&& b)
  | .or f => wordRow s f (fun a b => a ||| b)
  | .xor f => wordRow s f (fun a b => a ^^^ b)
  | .andI f => immRow s f (fun a b => a &&& b)
  | .orI f => immRow s f (fun a b => a ||| b)
  | .xorI f => immRow s f (fun a b => a ^^^ b)
  | .shl f => wordRow s f shlOf
  | .shr f => wordRow s f shrOf
  | .sra f => wordRow s f sraOf
  | .shlI f => immRow s f shlOf
  | .shrI f => immRow s f shrOf
  | .sraI f => immRow s f sraOf
  | .clz f => countRow s f (fun a => BitVec.ofNat 64 (firstBelow64 (fun n => a.getLsbD (63 - n))))
  | .ctz f => countRow s f (fun a => BitVec.ofNat 64 (firstBelow64 (fun n => a.getLsbD n)))
  | .popc f => countRow s f (fun a => BitVec.ofNat 64 ((List.range 64).filter (fun n => a.getLsbD n)).length)
  | .brev f => countRow s f (fun a => a.reverse)
  | .ext f => wordRow s f (fun a d =>
      let x := BitVec.ofNat (lenOf d) (a.toNat / 2 ^ posOf d)
      if f.ty = 6 then x.signExtend 64 else x.setWidth 64)
  | .ins f => some { ctl := f.ctl, srcs := [f.sa, f.sb, f.dst], dst := f.dst, lam := 1
                     value := BitVec.ofFnLE (fun i : Fin 64 => insBit (s.reg f.dst) (s.reg f.sa) (s.reg f.sb) i.val) }
  | .mov f => some { ctl := f.ctl, srcs := [f.sa], dst := f.dst, lam := 1, value := s.reg f.sa }
  | .sel f => some { ctl := f.ctl, srcs := [f.sa, f.sb, f.sc], dst := f.dst, lam := 1
                     value := if s.reg f.sa ≠ 0 then s.reg f.sb else s.reg f.sc }
  | .li f => some { ctl := f.ctl, srcs := [], dst := f.dst, lam := 1, value := f.imm.signExtend 64 }
  | .lih f => some { ctl := f.ctl, srcs := [f.dst], dst := f.dst, lam := 1
                     value := f.imm.setWidth 31 ++ (s.reg f.dst).setWidth 33 }
  | .pmake f => wordRow s f (fun a b => b.setWidth 12 ++ a.setWidth 52)
  | .ptag f => some { ctl := f.ctl, srcs := [f.sa], dst := f.dst, lam := 1, value := s.reg f.sa >>> 52 }
  | _ => none

/-- A row whose result is rounded: none where the type is no floating-point type or the dynamic rounding mode is not one
(03 R48; 05 R88). -/
def floatRow (s : State) (ctl : SCtl) (srcs : List (BitVec 6)) (dst : BitVec 6) (lam : Nat) (ty : BitVec 5) (rm : Nat)
    (op : Fmt → Nat → FRes) : Option Row :=
  if WellFormed.isFloat ty.toNat then
    (s.rounding rm).map (fun mode =>
      let r := op (fmtOf ty.toNat) mode
      { ctl := ctl, srcs := srcs, dst := dst, lam := lam, value := BitVec.ofNat 64 r.bits, flags := BitVec.ofNat 9 r.flags })
  else none

/-- The scalar floating-point instructions and FCVT over the operations of 05 R88 to R92 (15 R326, R330, R349; 16 R362, R363,
R365; 17 R391, R404, R426; 03 R63, R64). -/
def fpRow (s : State) : Instr → Option Row
  | .add f => floatRow s f.ctl [f.sa, f.sb] f.dst 4 f.ty f.rm.toNat (fun k mode => k.add mode s.ftz (op f f.sa) (op f f.sb))
  | .sub f => floatRow s f.ctl [f.sa, f.sb] f.dst 4 f.ty f.rm.toNat (fun k mode => k.sub mode s.ftz (op f f.sa) (op f f.sb))
  | .mul f => floatRow s f.ctl [f.sa, f.sb] f.dst 4 f.ty f.rm.toNat (fun k mode => k.mul mode s.ftz (op f f.sa) (op f f.sb))
  | .min f => floatRow s f.ctl [f.sa, f.sb] f.dst 4 f.ty 0 (fun k _ => k.minMax false s.ftz (op f f.sa) (op f f.sb))
  | .max f => floatRow s f.ctl [f.sa, f.sb] f.dst 4 f.ty 0 (fun k _ => k.minMax true s.ftz (op f f.sa) (op f f.sb))
  | .cmp f => floatRow s f.ctl [f.sa, f.sb] f.dst 4 f.ty 0 (fun k _ => k.cmp s.ftz (op f f.sa) (op f f.sb))
  | .fma f => floatRow s f.ctl [f.sa, f.sb, f.sc] f.dst 4 f.ty f.fn.toNat (fun k mode =>
      k.fma mode s.ftz (fpOpd f.ty (s.reg f.sa)) (fpOpd f.ty (s.reg f.sb)) (fpOpd f.ty (s.reg f.sc)))
  | .fdiv f => floatRow s f.ctl [f.sa, f.sb] f.dst 0 f.ty f.rm.toNat (fun k mode => k.div mode s.ftz (op f f.sa) (op f f.sb))
  | .fsqrt f => floatRow s f.ctl [f.sa] f.dst 0 f.ty f.rm.toNat (fun k mode => k.sqrt mode s.ftz (op f f.sa))
  | .fcvt f => (s.rounding f.rm.toNat).map (fun mode =>
      let r := convert f.ty.toNat f.fn.toNat mode s.ftz (s.reg f.sa).toNat
      { ctl := f.ctl, srcs := [f.sa], dst := f.dst, lam := 3, value := extResult f.ty r.bits, flags := BitVec.ofNat 9 r.flags })
  | _ => none
where
  /-- An operand's encoding (15 R326). -/
  op (f : SR) (r : BitVec 6) : Nat := fpOpd f.ty (s.reg r)

/-! ### Issue, control and special registers (02 R29, R33; 03 R46 to R62; 13 R285 to R291; 15 to 18) -/

/-- STALL and the guard of an instruction in a scalar-style format; none for the others (03 R54, R56). -/
def scalarCtl : Instr → Option SCtl
  | .add f => some f.ctl
  | .sub f => some f.ctl
  | .mul f => some f.ctl
  | .mulh f => some f.ctl
  | .div f => some f.ctl
  | .rem f => some f.ctl
  | .and f => some f.ctl
  | .or f => some f.ctl
  | .xor f => some f.ctl
  | .shl f => some f.ctl
  | .shr f => some f.ctl
  | .sra f => some f.ctl
  | .cmp f => some f.ctl
  | .min f => some f.ctl
  | .max f => some f.ctl
  | .clz f => some f.ctl
  | .ctz f => some f.ctl
  | .popc f => some f.ctl
  | .brev f => some f.ctl
  | .ext f => some f.ctl
  | .ins f => some f.ctl
  | .mov f => some f.ctl
  | .sel f => some f.ctl
  | .fma f => some f.ctl
  | .fdiv f => some f.ctl
  | .fsqrt f => some f.ctl
  | .fcvt f => some f.ctl
  | .padd f => some f.ctl
  | .pmake f => some f.ctl
  | .ptag f => some f.ctl
  | .addI f => some f.ctl
  | .andI f => some f.ctl
  | .orI f => some f.ctl
  | .xorI f => some f.ctl
  | .shlI f => some f.ctl
  | .shrI f => some f.ctl
  | .sraI f => some f.ctl
  | .cmpI f => some f.ctl
  | .li f => some f.ctl
  | .lih f => some f.ctl
  | .paddI f => some f.ctl
  | .br f => some f.ctl
  | .jal f => some f.ctl
  | .jr f => some f.ctl
  | .subbr f => some f.ctl
  | .setvl f => some f.ctl
  | .setvlc f => some f.ctl
  | .trap f => some f.ctl
  | .eret f => some f.ctl
  | .wfe f => some f.ctl
  | .hstart f => some f.ctl
  | .hjoin f => some f.ctl
  | .hend f => some f.ctl
  | .hkill f => some f.ctl
  | .launch f => some f.ctl
  | .hbind f => some f.ctl
  | .ecall f => some f.ctl
  | .ld f => some f.ctl
  | .st f => some f.ctl
  | .ldacq f => some f.ctl
  | .strel f => some f.ctl
  | .amo f => some f.ctl
  | .amocas f => some f.ctl
  | .fence f => some f.ctl
  | .vdrain f => some f.ctl
  | .bara f => some f.ctl
  | .barw f => some f.ctl
  | .abegin f => some f.ctl
  | .aend f => some f.ctl
  | .aabort f => some f.ctl
  | .msg f => some f.ctl
  | .reply f => some f.ctl
  | .notify f => some f.ctl
  | .cbres f => some f.ctl
  | .cbput f => some f.ctl
  | .cbget f => some f.ctl
  | .cbfree f => some f.ctl
  | .csrr f => some f.ctl
  | .csrw f => some f.ctl
  | .plbinv f => some f.ctl
  | .pinv f => some f.ctl
  | .cflush f => some f.ctl
  | .hop f => some f.ctl
  | .handoff f => some f.ctl
  | .pmig f => some f.ctl
  | .klog f => some f.ctl
  | .kmov f => some f.ctl
  | .kpush f => some f.ctl
  | .kpop f => some f.ctl
  | .kelse f => some f.ctl
  | .kcnt f => some f.ctl
  | .kfirst f => some f.ctl
  | .kbr f => some f.ctl
  | .mlease f => some f.ctl
  | .mfree f => some f.ctl
  | .mtile f => some f.ctl
  | .mshape f => some f.ctl
  | .mzero f => some f.ctl
  | .mlda f => some f.ctl
  | .mldb f => some f.ctl
  | .mma f => some f.ctl
  | .mmab f => some f.ctl
  | .mout f => some f.ctl
  | .mwait f => some f.ctl
  | .msave f => some f.ctl
  | .mrest f => some f.ctl
  | _ => none

/-- STALL and the fields of a vector-style instruction; none for the others (03 R54, R57). -/
def vectorCtl : Instr → Option VCtl
  | .vadd f => some f.ctl
  | .vsub f => some f.ctl
  | .vmul f => some f.ctl
  | .vmulh f => some f.ctl
  | .vmac f => some f.ctl
  | .vmin f => some f.ctl
  | .vmax f => some f.ctl
  | .vand f => some f.ctl
  | .vor f => some f.ctl
  | .vxor f => some f.ctl
  | .vshl f => some f.ctl
  | .vshr f => some f.ctl
  | .vsra f => some f.ctl
  | .vcmp f => some f.ctl
  | .vmerge f => some f.ctl
  | .vmov f => some f.ctl
  | .vslide f => some f.ctl
  | .vperm f => some f.ctl
  | .viota f => some f.ctl
  | .vext f => some f.ctl
  | .vins f => some f.ctl
  | .vred f => some f.ctl
  | .vdotb f => some f.ctl
  | .vcvt f => some f.ctl
  | .vfmt f => some f.ctl
  | .vaddS f => some f.ctl
  | .vsubS f => some f.ctl
  | .vmulS f => some f.ctl
  | .vmulhS f => some f.ctl
  | .vmacS f => some f.ctl
  | .vminS f => some f.ctl
  | .vmaxS f => some f.ctl
  | .vandS f => some f.ctl
  | .vorS f => some f.ctl
  | .vxorS f => some f.ctl
  | .vshlS f => some f.ctl
  | .vshrS f => some f.ctl
  | .vsraS f => some f.ctl
  | .vcmpS f => some f.ctl
  | .vmovS f => some f.ctl
  | .vfma f => some f.ctl
  | .vfdiv f => some f.ctl
  | .vfsqrt f => some f.ctl
  | .vfest f => some f.ctl
  | .vfexp2 f => some f.ctl
  | .vflog2 f => some f.ctl
  | .vfsin f => some f.ctl
  | .vfclass f => some f.ctl
  | .vld f => some f.ctl
  | .vlds f => some f.ctl
  | .vldx f => some f.ctl
  | .vldff f => some f.ctl
  | .vst f => some f.ctl
  | .vsts f => some f.ctl
  | .vstx f => some f.ctl
  | .kld f => some f.ctl
  | .kst f => some f.ctl
  | .tex f => some f.ctl
  | .texg f => some f.ctl
  | .rayq f => some f.ctl
  | _ => none

/-- The least mode that may execute an instruction: the marks (S) and (F) of the catalogue of 04 R79, and "S only" of
03 R46. -/
def leastMode : Instr → Mode
  | .eret _ => .supervisor
  | .hbind _ => .supervisor
  | .plbinv _ => .supervisor
  | .pinv _ => .supervisor
  | .pmig _ => .supervisor
  | .msave _ => .supervisor
  | .mrest _ => .supervisor
  | .handoff _ => .firmware
  | .csrr f => if 0x100 ≤ f.imm.toNat ∧ f.imm.toNat ≤ 0x104 then .supervisor else .program
  | .csrw f => if 0x100 ≤ f.imm.toNat ∧ f.imm.toNat ≤ 0x104 then .supervisor else .program
  | _ => .program

/-- No issue waits for a register or underflows: interlock mode, or every fixed-latency result ready (03 R62). -/
def readyToIssue (s : State) : Prop :=
  s.ctx.scbmode = 0 ∨ ∀ r, readyAt r s.ctx.pend ≤ max s.cycle s.ctx.nextIssue

/-- The abort code with which an open region meets an instruction whose guard is true: VECTOR, FORBIDDEN or NEST (08 R184,
R185); none for those that it lets execute. -/
def regionCode (i : Instr) : Option (BitVec 8) :=
  if (vectorCtl i).isSome then some 3
  else match i with
    | .setvl _ | .setvlc _ | .klog _ | .kmov _ | .kpush _ | .kpop _ | .kelse _ | .kcnt _ | .kfirst _ | .kbr _ => some 3
    | .mlease _ | .mfree _ | .mtile _ | .mshape _ | .mzero _ | .mlda _ | .mldb _ | .mma _ | .mmab _ | .mout _ | .mwait _
    | .msave _ | .mrest _ => some 3
    | .abegin _ => some 11
    | .msg _ | .reply _ | .notify _ | .cbres _ | .cbput _ | .cbget _ | .cbfree _ => some 10
    | .amo _ | .amocas _ | .ldacq _ | .strel _ | .fence _ | .vdrain _ | .bara _ | .barw _ => some 10
    | .trap _ | .ecall _ | .eret _ | .wfe _ | .hstart _ | .hjoin _ | .hend _ | .hkill _ | .launch _ | .hbind _ => some 10
    | .csrw _ | .plbinv _ | .pinv _ | .cflush _ | .hop _ | .handoff _ | .pmig _ => some 10
    | _ => none

/-- The guard of an instruction's control bits is true without reading a symbol (03 R56; 08 R188). -/
def guardPlain (s : State) (ctl : SCtl) : Prop :=
  ∀ g, ctl.guard = some g → (bitAt (s.reg g.greg) g.gbit.toNat ^^ g.gn) = true ∧ s.tagOf g.greg = .concrete

/-- The open region has aborted with a code and no trap cause: registers and flags as at ABEGIN, the pc at the fallback, and
nothing outside the context changed (08 R182, R184, R192). -/
def regionAborted (s t : State) (code tcause : BitVec 8) : Prop :=
  ∃ g, s.ctx.region = some g ∧ s.onlyContext t ∧ s.sameBytes t ∧ t.ctx.region = none ∧ t.ctx.astate.active = false ∧
    t.ctx.acode = code ∧ t.ctx.tcause = tcause ∧ t.ctx.s = g.snapS ∧ t.ctx.fcsr = g.snapF ∧ t.ctx.pc = g.fallback

/-- The instructions that the handler context refuses (02 R29). -/
def refusedInHandler : Instr → Bool
  | .hstart _ | .hjoin _ | .hkill _ | .wfe _ | .bara _ | .barw _ | .setvlc _ | .cbget _ | .cbres _ | .msg _ | .launch _
  | .abegin _ => true
  | .mlease _ | .mfree _ | .mtile _ | .mshape _ | .mzero _ | .mlda _ | .mldb _ | .mma _ | .mmab _ | .mout _ | .mwait _ => true
  | _ => false

/-- The invocation on the executing core has ended by a trap: so has the handler context, and the die's firmware is told
the cause, the pc and the binding (08 R180). -/
def invocationEnded (s t : State) (cause : BitVec 8) : Prop :=
  ∃ v, (s.coreAt s.cur.1).inv = some v ∧ (t.coreAt s.cur.1).inv = none ∧ (t.ctxAt s.cur.1 handlerCtx).status = .ended ∧
    ∃ l, t.notes = s.notes ++ l ++ [.handlerTrap s.cur.1.val cause s.ctx.pc v.number]

/-- The value of a CSR that is no clock, by 03 R47 to R52, 08 R183, R184, 09 R200 to R202 and 13 R286, R299. -/
def csrValue (s : State) (n : Nat) : Word :=
  let x := s.ctx
  let num := fun k : Nat => BitVec.ofNat 64 k
  match n with
  | 0x000 => num x.vl
  | 0x001 => num x.vstart
  | 0x002 => num (min x.vlcap 4096)
  | 0x003 => num x.vlcap
  | 0x004 => x.fcsr.setWidth 64
  | 0x005 => x.scbmode.setWidth 64
  | 0x006 => num x.kstack.length
  | 0x010 => num ((dieOf s.runCore).val * 2 ^ 16 + s.runCore.val / 32 * 2 ^ 8 + s.runCore.val % 32)
  | 0x011 => num s.cur.2.val
  | 0x012 => x.domain.setWidth 64
  | 0x013 => num x.prio
  | 0x014 => x.launchId
  | 0x040 => x.mtm
  | 0x041 => x.mtn
  | 0x042 => x.mtk
  | 0x043 => x.mstat.fcause ++ x.mstat.lstate ++ (0 : BitVec 2) ++ x.mstat.faddr
  | 0x044 => (if x.mkvalid then (1 : BitVec 1) else 0) ++ (0 : BitVec 47) ++ x.mkpos
  | 0x046 => (0 : BitVec 43) ++ x.mlease.tflags ++ (0 : BitVec 8) ++ x.mlease.nslot ++ x.mlease.lease
  | 0x050 => x.astate.word
  | 0x051 => (0 : BitVec 48) ++ x.tcause ++ x.acode
  | 0x060 => num ((if x.pnote then 256 else 0) + (if x.vdirty then 16 else 0) + x.hopPolicy.toNat)
  | 0x100 => x.trapcause.setWidth 64
  | 0x101 => x.trappc
  | 0x102 => x.trapval
  | 0x103 => x.trapvec
  | 0x104 => x.trapscratch
  | 0x110 => num (dieOf s.runCore).val
  | _ =>
    if n < 0x028 then x.lvlid[n - 0x020]?.getD 0
    else if n < 0x030 then x.lvlscope[n - 0x028]?.getD 0
    else
      let r := (s.coreAt s.runCore).rings[(Fin.ofNat 8 ((n - 0x300) / 8))]
      num ([r.base, r.szlog, r.cntlog, r.filled, r.free, r.rdidx, r.wridx].getD (n % 8) 0)

/-- CYCLE, TIME and WSREF, which the clock changes. -/
def isClockCsr (n : Nat) : Bool := n == 0x030 || n == 0x031 || n == 0x045

/-- What a write makes of the executing context's CSRs: none where the value is rejected; read-only CSRs, and in program mode
those that are "RO; RW (S)", stay (03 R46, R47, R49, R50; 13 R286, R299; 15 R356). The descriptors of circular buffers are
apart. -/
def csrWritten (x : Ctx) (n : Nat) (v : Word) : Option Ctx :=
  let when (p : Bool) (y : Ctx) := if p then some y else none
  match n with
  | 0x000 => when (v.toNat ≤ 1024) { x with vl := v.toNat }
  | 0x001 => when (v.toNat ≤ 1024) { x with vstart := v.toNat }
  | 0x004 => some { x with fcsr := v.setWidth 9 }
  | 0x100 => when (v.toNat < 2 ^ 11 && v.extractLsb' 8 2 != 3) { x with trapcause := v.setWidth 11 }
  | 0x101 => some { x with trappc := v }
  | 0x102 => some { x with trapval := v }
  | 0x103 => when (v.toNat < 2 ^ 52) { x with trapvec := v &&& ~~~7 }
  | 0x104 => some { x with trapscratch := v }
  | 0x003 =>
    if x.mode = .program then some x
    else when (v.toNat ∈ [512, 1024, 2048, 4096]) { x with vlcap := v.toNat }
  | 0x005 => if x.mode = .program then some x else when (v.toNat ≤ 2) { x with scbmode := v.setWidth 2 }
  | 0x044 => if x.mode = .program then some x else some { x with mkvalid := v.getLsbD 63, mkpos := v.setWidth 16 }
  | 0x060 =>
    if x.mode = .program then some x
    else when ((v &&& ~~~0x113) == 0 && v.setWidth 2 != (3 : BitVec 2)) { x with pnote := v.getLsbD 8, hopPolicy := v.setWidth 2 }
  | _ => some x

/-- BASE, SZLOG or CNTLOG of a circular buffer that the mode may write (03 R52). -/
def isDescriptor (x : Ctx) (n : Nat) : Bool :=
  0x300 ≤ n && n ≤ 0x33F && n % 8 ≤ 2 && (0x320 ≤ n || x.mode != .program)

/-- A circular buffer after a descriptor write, emptied; none where 03 R52 rejects the value. -/
def ringWritten (r : Ring) (f v : Nat) : Option Ring :=
  let base := if f = 0 then v else r.base
  let szlog := if f = 1 then v else r.szlog
  let cntlog := if f = 2 then v else r.cntlog
  if 6 ≤ szlog ∧ szlog ≤ 12 ∧ cntlog ≤ 10 ∧ 2 ^ szlog ∣ base ∧ base + 2 ^ szlog * 2 ^ cntlog ≤ 0x60000 then
    some ⟨base, szlog, cntlog, 0, 2 ^ cntlog, 0, 0, [], 0, []⟩
  else none

/-- A jump or branch completes: the pc, one register written, nothing else. -/
structure Jump where
  ctl : SCtl
  srcs : List (BitVec 6)
  dst : Option (BitVec 6)
  value : Word
  pc : Word

/-- BR, JAL, JR to an aligned target, SUBBR (15 R339; 16 R374, R375; 02 R34; 17 R427). -/
def jumpRow (s : State) : Instr → Option Jump
  | .br f => some ⟨f.ctl, [], none, 0, s.ctx.pc + 8 * f.off.signExtend 64⟩
  | .jal f => some ⟨f.ctl, [], some f.dst, s.ctx.pc + 8, s.ctx.pc + 8 * f.imm.signExtend 64⟩
  | .jr f =>
    let target := s.reg f.sa + f.imm.signExtend 64
    if target.toNat % 8 = 0 then some ⟨f.ctl, [f.sa], some f.dst, s.ctx.pc + 8, target⟩ else none
  | .subbr f =>
    let d := s.reg f.sa - s.reg f.sb
    some ⟨f.ctl, [f.sa, f.sb], some f.sa, d, if 0 < d.toInt then s.ctx.pc + 8 * f.off.signExtend 64 else s.ctx.pc + 8⟩
  | _ => none

/-! ### Scalar memory (05 R101; 06 R111 to R130; 15 R327, R332 to R334, R347; 16 R364, R387, R388; 17 R424, R425) -/

/-- The address of a scalar access of `n` bytes, or the cause and value of its trap: a bad tag or an address outside 2^52 is
cause 0x05 with the pointer, a misaligned address 0x04 with the address (05 R101; 15 R327). -/
def addressOf (p : Word) (off : Int) (n : Nat) : Except (BitVec 8 × Word) Nat :=
  let tagOk := if p.getLsbD 63 then (p.extractLsb' 58 5).toNat ≤ 18 ∧ p.extractLsb' 52 3 = 0 else p.extractLsb' 52 11 = 0
  let a : Int := (p.setWidth 52).toNat + off
  if ¬ tagOk then .error (0x05, p)
  else if a < 0 ∨ 2 ^ 52 ≤ a then .error (0x05, p)
  else if n ∣ a.toNat then .ok a.toNat
  else .error (0x04, BitVec.ofInt 64 a)

/-- A memory in canonical form after the low `n` bytes of `v` were written, little-endian, at `a`, and nothing else (00 R2);
`StepKeepsCanonical` states that every step keeps that form. -/
def wroteBytes (m m' : List Host.Cell) (a n v : Nat) : Prop :=
  memoryWf m = true → ∀ x, readByte m' x = if a ≤ x ∧ x < a + n then BitVec.ofNat 8 (v / 256 ^ (x - a)) else readByte m x

/-- Bytes of an SZ code: 1, 2, 4, 8 (03 R55). -/
def accessBytes (sz : BitVec 3) : Nat := 2 ^ (sz.toNat % 4)

/-- Loaded bytes as SZ extends them: codes 0 to 3 with zeros, 4 to 6 with the sign (03 R55; 16 R387). -/
def loaded (sz : BitVec 3) (v : Nat) : Word :=
  if sz.toNat < 4 then BitVec.ofNat 64 v else (BitVec.ofNat (8 * accessBytes sz) v).signExtend 64

/-- The offset that an address of the local window names (06 R111). -/
def windowOffset (a : Nat) : Option Nat :=
  if 0xFFF0000000000 ≤ a ∧ a < 0xFFF0000060000 then some (a - 0xFFF0000000000) else none

/-- The cell of an offset of a core's local memory. -/
def localCell (s : State) (o : Nat) : Nat := localKey s.cur.1 o

/-- The region and the rights of an access of the executing context (06 R111, R116, R117, R458): not the local window, and a
paged address has the rights, or a register block is reached in firmware mode. -/
def mayReach (s : State) (a need : Nat) : Prop :=
  match regionOf a with
  | .localWindow _ => True
  | .paged => (s.plbCheck s.runCore s.ctx.domain a need).1 = true
  | .firmware _ _ => s.ctx.mode = .firmware
  | .bellows _ => s.ctx.mode = .firmware
  | _ => False

/-- The executing context after an instruction that writes memory and no register: the next instruction follows. -/
def contextMovedOn (s t : State) : Prop :=
  s.ctx.onlyScalars t.ctx ∧ t.ctx.s = s.ctx.s ∧ t.ctx.fcsr = s.ctx.fcsr ∧ t.ctx.pc = s.ctx.pc + 8

/-- The executing context after an instruction that writes one register and no flag. -/
def contextWrote (s t : State) (dst : BitVec 6) (v : Word) : Prop :=
  s.ctx.onlyScalars t.ctx ∧ t.ctx.s = regsAfter s.ctx.s dst v ∧ t.ctx.fcsr = s.ctx.fcsr ∧ t.ctx.pc = s.ctx.pc + 8

/-- No other context has changed. -/
def othersKept (s t : State) : Prop := ∀ c x, (c, x) ≠ s.cur → t.ctxAt c x = s.ctxAt c x

/-- The bytes of a paged load that a cache holds without an uncorrectable error: the issuing core's L1, else the die's L2 (06 R126,
R128, R130). -/
def heldBytes (s : State) (a n : Nat) : Option Nat :=
  match l1Find (s.coreAt s.runCore).l1 a with
  | some ln => some (ln.data / 256 ^ (a - ln.va) % 256 ^ n)
  | none =>
    match (s.dieAt s.runDie).line a with
    | some ln =>
      if ln.home then
        if s.grainBad ln.pa ln.size ln.codec then none
        else (s.homeBytes ln.pa ln.size ln.codec).map (fun d => d / 256 ^ (a - ln.va) % 256 ^ n)
      else if (s.dieAt s.runDie).copyBad ln = false ∧ ∀ k < n, (ln.valid ||| ln.dirty).testBit (a - ln.va + k) then some (ln.data / 256 ^ (a - ln.va) % 256 ^ n)
      else none
    | none => none

/-- Where a store to paged memory lands when the die's L2 holds the grain: at the home, or in the die's copy (06 R129). -/
inductive Landing where
  | home (pa : Nat)
  | copy (ln : L2Line)

/-- Where a paged store lands, for a plain grain of a page that the device owns and that the die's L2 holds, one at its home
without an uncorrectable error (06 R130; 14 R314). -/
def landing (s : State) (a : Nat) : Option Landing :=
  match (s.dieAt s.runDie).line a with
  | some ln =>
    if ln.codec ≠ 0 ∨ ln.owner = true then none
    else if ln.home = false then some (.copy ln)
    else if s.isBad ln.pa ln.size = true then none else some (.home (ln.pa + (a - ln.va)))
  | none => none

/-- Byte `j` of a line's data. -/
def lineByte (ln : L2Line) (j : Nat) : BitVec 8 := BitVec.ofNat 8 (ln.data / 256 ^ j)

/-- The die's copy of a grain after a store of `n` bytes of `v` at `a`: those bytes are new and dirty, the others as before. -/
def copyStored (ln ln' : L2Line) (a n v : Nat) : Prop :=
  ln'.va = ln.va ∧ ln'.size = ln.size ∧ ln'.pa = ln.pa ∧ ln'.home = false ∧ ∀ j < ln.size,
    if a - ln.va ≤ j ∧ j < a - ln.va + n then
      lineByte ln' j = BitVec.ofNat 8 (v / 256 ^ (j - (a - ln.va))) ∧ ln'.dirty.testBit j = true
    else lineByte ln' j = lineByte ln j ∧ ln'.dirty.testBit j = ln.dirty.testBit j

/-- The value that an atomic operation writes (15 R332): `w` bits, operation `aop`. -/
def atomicResult (aop w old v : Nat) : Nat :=
  let s := fun x : Nat => (BitVec.ofNat w x).toInt
  let k : Fmt := if w = 32 then f32 else f64
  match aop with
  | 0 => v
  | 1 => (old + v) % 2 ^ w
  | 2 => old &&& v
  | 3 => old ||| v
  | 4 => old ^^^ v
  | 5 => if s v < s old then v else old
  | 6 => if s old < s v then v else old
  | 7 => min old v
  | 8 => max old v
  | 9 => (k.add 0 false old v).bits
  | 10 => (k.minMax false false old v).bits
  | _ => (k.minMax true false old v).bits

/-- Where an atomic operation finds its location when no fill is needed: the local window, or a plain grain of the device
whose home is the issuing die and whose L2 holds it without an uncorrectable error, with rights R, W and A (06 R117, R130; 15
R333). The flag says local. -/
def atomicCell (s : State) (a : Nat) : Option (Bool × Nat) :=
  match windowOffset a with
  | some o => some (true, localCell s o)
  | none =>
    if a < 0xFFE0000000000 ∧ (s.plbCheck s.runCore s.ctx.domain a (rightR + rightW + rightA)).1 = true then
      match (s.dieAt s.runDie).line a with
      | some ln =>
        if ln.home ∧ ln.codec = 0 ∧ ln.owner = false ∧ ln.pa < 0x100000000000 ∧ s.isBad ln.pa ln.size = false then
          some (false, ln.pa + (a - ln.va))
        else none
      | none => none
    else none

/-- A memory that has at most taken what caches and the Flue held for it, but for the bytes given. -/
def atomicDone (s t : State) (isLocal : Bool) (cell n new : Nat) (quiet : Prop) : Prop :=
  (∀ x, readByte t.hob x = readByte s.hob x) ∧
    (if isLocal then wroteBytes s.lmem t.lmem cell n new ∧ (quiet → ∀ x, readByte t.mem x = readByte s.mem x)
     else (∀ x, readByte t.lmem x = readByte s.lmem x) ∧ (memoryWf s.mem = true → readN t.mem cell n = new) ∧
      (quiet → wroteBytes s.mem t.mem cell n new))

/-- The state in which the own part of an instruction with these sources runs: the clock at its issue, its issue counted. -/
def issued (s : State) (ctl : SCtl) (srcs : List (BitVec 6)) : State :=
  s.atIssue ((ctl.guard.map (fun g => g.greg)).toList ++ srcs)

/-! ### Atomic regions (08 R182 to R193) -/

/-- The physical address of a word or store target that the issuing die's L2 holds at its home, plain, of the device and
without an uncorrectable error. -/
def heldHome (s : State) (a : Nat) : Option Nat :=
  match (s.dieAt s.runDie).line a with
  | some ln =>
    if ln.home ∧ ln.codec = 0 ∧ ln.pa < 0x100000000000 ∧ s.isBad ln.pa ln.size = false then some (ln.pa + (a - ln.va)) else none
  | none => none

/-- The page of a held line is the device's own (14 R314). -/
def deviceOwns (s : State) (a : Nat) : Bool :=
  match (s.dieAt s.runDie).line a with
  | some ln => !ln.owner
  | none => true

/-- The home of an address lies on the die that the region has set, if it has set one (08 R187). -/
def homeAgrees (s : State) (a : Nat) : Prop :=
  ∃ ln h, (s.dieAt s.runDie).line a = some ln ∧ s.homeOf ln.pa = some h ∧
    (s.ctx.astate.homev = true → s.ctx.astate.home = h.val)

/-- The value of a tracked word's fresh read by its index. -/
def fresh (s : State) (g : Region) (i : Nat) : Word :=
  match g.tracked[i]? with
  | some (a, _) => BitVec.ofNat 64 (readN s.mem ((heldHome s a).getD 0) 8)
  | none => 0

/-- Some tracked word has another value than the one recorded (08 R190). -/
def anyChanged (s : State) (g : Region) : Bool :=
  (List.range g.tracked.length).any (fun i => fresh s g i != (g.tracked[i]?.getD (0, 0)).2)

/-- The outcome of a constraint on the fresh values is the one recorded (08 R188, R190). -/
def outcomeKept (s : State) (g : Region) (c : Constraint) : Bool :=
  let x := fresh s g c.i + c.c
  if c.isGuard then (x.getLsbD c.bit == (c.observed == 1)) && (c.observed == 0 || c.observed == 1)
  else
    let a := if c.symFirst then x else c.k
    let b := if c.symFirst then c.k else x
    (if c.ty.toNat ≤ 7 then orderWord (intOf c.ty a) (intOf c.ty b) else (cmpWord c.ty s.ftz a b).1) == c.observed

/-- The value that a recorded store writes at the commit: a recipe's from its fresh word, else the recorded bytes. -/
def storedAtCommit (s : State) (g : Region) (st : RStore) : Nat :=
  match st.recipe, st.tag with
  | true, .sym i c => (fresh s g i + c).toNat
  | _, _ => st.val

/-- The memory after the recorded stores in program order. -/
def committed (s : State) (g : Region) : List Host.Cell :=
  g.stores.foldl (fun m st => writeN m ((heldHome s st.addr).getD 0) st.n (storedAtCommit s g st)) s.mem

/-- A register after the commit: one tagged sym(i, c) from its fresh word, the others as they are. -/
def regAtCommit (s : State) (g : Region) (r : Fin 64) : Word :=
  match g.tags[r] with
  | .sym i c => fresh s g i + c
  | _ => s.ctx.s[r]

/-! ### Circular buffers (06 R122 to R125; 15 R343 to R346) -/

/-- The executing context waits at its instruction, and nothing else has changed (02 R39). -/
def waitsFor (s t : State) (w : Wait) : Prop :=
  s.onlyContext t ∧ s.sameBytes t ∧ s.ctx.onlyScalars { t.ctx with status := s.ctx.status } ∧ t.ctx.status = .waiting w ∧
    t.ctx.pc = s.ctx.pc ∧ t.ctx.s = s.ctx.s ∧ t.ctx.fcsr = s.ctx.fcsr

/-- The instruction takes a trap; in the handler context, the invocation has ended by it (08 R180; 13 R289). -/
def trapsHere (s t : State) (cause : BitVec 8) (value : Word) : Prop :=
  if s.inHandler = true then invocationEnded s t cause else s.trapTaken t none cause value

/-- A ring of the executing core. -/
def ringOf (s : State) (n : Fin 8) : Ring := (s.coreAt s.runCore).rings[n]

/-- The local-window address of slot `i` of a ring (06 R122). -/
def slotAddress (r : Ring) (i : Nat) : Word := BitVec.ofNat 64 (0xFFF0000000000 + r.base + i * 2 ^ r.szlog)

/-- Only one ring of the executing core has changed among the rings. -/
def onlyRing (s t : State) (n : Fin 8) (r : Ring) : Prop :=
  (t.coreAt s.runCore).rings = (s.coreAt s.runCore).rings.set n r ∧
    ∀ c, c ≠ s.runCore → (t.coreAt c).rings = (s.coreAt c).rings

/-! ### Messages, helpers, barriers and hops (02 R22 to R39; 07 R157, R158; 08 R167 to R179; 13 R300 to R302) -/

/-- The message in the home core's local memory at an offset (08 R167). -/
def messageAt (s : State) (o : Nat) : Message :=
  let w := fun i => BitVec.ofNat 64 (readN s.lmem (localCell s (o + 8 * i)) 8)
  ⟨w 0, w 1, w 2, w 3, w 4, w 5, w 6, w 7⟩

/-- The 64 bytes of a message as a number. -/
def messageNumber (m : Message) : Nat :=
  m.w0.toNat + 2 ^ 64 * m.w1.toNat + 2 ^ 128 * m.w2.toNat + 2 ^ 192 * m.w3.toNat + 2 ^ 256 * m.w4.toNat +
    2 ^ 320 * m.w5.toNat + 2 ^ 384 * m.w6.toNat + 2 ^ 448 * m.w7.toNat

/-- CLASS of a message (08 R167). -/
def classOf (m : Message) : Nat := m.w0.toNat / 2 ^ 52 % 16

/-- RR of a message (08 R167). -/
def wantsReply (m : Message) : Bool := m.w0.getLsbD 51

/-- A destination of kind `k` within a package whose other fields are `w` (08 R169, R170). -/
def innerDestination (k w : Nat) : Bool :=
  (k == 0 && decide (w < 2 ^ 16 ∧ w % 256 < 32 ∧ w / 256 < 16)) || (k == 1 && w == 0) ||
    (k == 2 && decide (w = w / 2 ^ 16 % 8 * 2 ^ 16 + w / 2 ^ 8 % 16 * 2 ^ 8 + w % 4 ∧ w / 2 ^ 8 % 16 ≤ 4 ∧
      (w / 2 ^ 8 % 16 = 0 ∨ w % 4 = 0)))

/-- A destination word that 08 R169 and R170 accept. -/
def destinationOk (d : Word) : Bool :=
  if d.extractLsb' 60 4 = 3 then
    d.extractLsb' 51 5 = 0 && innerDestination (d.extractLsb' 56 4).toNat (d.extractLsb' 0 32).toNat
  else innerDestination (d.extractLsb' 60 4).toNat (d.extractLsb' 0 60).toNat

/-- The first failing check of MSG, in the order of 08 R168: its cause and TRAPVAL. -/
def msgTrap (s : State) (i : Instr) (dest at_ : Word) : Option (BitVec 8 × Word) :=
  let m := messageAt s (at_.toNat - 0xFFF0000000000)
  if at_.toNat < 0xFFF0000000000 ∨ 0xFFF000005FFC0 < at_.toNat then some (0x05, at_)
  else if at_.toNat % 64 ≠ 0 then some (0x04, at_)
  else if destinationOk dest = false ∨ 4 ≤ classOf m ∨ m.w0.extractLsb' 32 18 ≠ 0 then some (0x01, encode i)
  else if wantsReply m = true ∧ m.w1 = 0 ∨ wantsReply m = false ∧ m.w1 ≠ 0 then some (0x01, encode i)
  else if m.w1.toNat % 16 ≠ 0 then some (0x04, m.w1)
  else if wantsReply m = true ∧ s.replyAddrOk m.w1 = false then some (0x05, m.w1)
  else none

/-- A ring after a writer has filled its next slot for a sender, all earlier slots being published. -/
def ringFilledBy (r : Ring) (p : Option Sender) : Ring :=
  { r with
    wridx := (r.wridx + 1) % 2 ^ r.cntlog, free := r.free - 1, filled := r.filled + 1, res := []
    senders := r.senders ++ p.toList }

/-- The queue of an agent of a die. -/
def queueOf (s : State) (d : DieId) (n : Fin 8) : List Command := (s.dieAt d).agents[n].queue

/-- The place of an agent among the command queues: copy engines 0 to 3, then the four other classes (08 R170). -/
def agentPlace (cls inst : Nat) : Fin 8 := if cls = 0 then Fin.ofNat 8 inst else Fin.ofNat 8 (cls + 3)

/-- Word 0 of a reply record: TAG, CMD and STATUS (08 R173). -/
def replyHead (m : Message) (status : Nat) : Word :=
  BitVec.ofNat 64 (m.w0.toNat % 2 ^ 32 * 2 ^ 32 + m.w0.toNat / 2 ^ 56 * 2 ^ 16 + status)

/-- A helper's state at its start: HSTART's registers, program mode, and everything else as 02 R25 has it. -/
def startedHelper (s : State) (y : Ctx) (entry s2 s4 : Word) : Prop :=
  y.status = .live ∧ y.pc = entry ∧ y.mode = .program ∧
    y.s = ((Vector.replicate 64 (0 : Word)).set 2 s2).set 4 s4 ∧ y.v = Vector.replicate 48 0 ∧
    y.vtag = Vector.replicate 48 0xF8 ∧ y.k = Vector.replicate 12 0 ∧ y.kstack = [] ∧ y.vl = 0 ∧ y.vstart = 0 ∧
    y.fcsr = 0 ∧ y.scbmode = 0 ∧ y.domain = s.ctx.domain ∧ y.prio = s.ctx.prio ∧ y.launchId = s.ctx.launchId ∧
    y.trapvec = (s.dieAt (dieOf s.cur.1)).fw.svec ∧ y.event = false ∧ y.arrived = 0 ∧ y.region = none

/-- No context but the executing one and one other of its core has changed. -/
def othersKeptBut (s t : State) (h : CtxId) : Prop :=
  ∀ c x, (c, x) ≠ s.cur → (c, x) ≠ (s.cur.1, h) → t.ctxAt c x = s.ctxAt c x

/-- No context but the executing one has changed, but that an open region may have been told that a location changed its home
(06 R139, R141). -/
def othersMoved (s t : State) : Prop :=
  ∀ c x, (c, x) ≠ s.cur → ∃ b, t.ctxAt c x = { s.ctxAt c x with
    region := (s.ctxAt c x).region.map (fun r => { r with moved := r.moved || b }) }

/-- The executing context has given up its place as control context or helper: it has ended (02 R24). -/
def hasEnded (t : State) (c : CoreId) (x : CtxId) : Prop :=
  (t.ctxAt c x).status = .ended ∧ (t.ctxAt c x).event = false ∧ (t.ctxAt c x).region = none

/-- Bit `n` of a context's barrier flags. -/
def hasArrived (x : Ctx) (n : Nat) : Bool := x.arrived.getLsbD n

/-- Barrier `n` of an instance as a die holds it. -/
def barrierAt (s : State) (d : DieId) (launch : Nat) (path : List Nat) (n : Nat) : BarObj := (s.dieAt d).barrier launch path n

/-! ### Vectors and masks (02 R32, R33; 03 R43, R44, R57; 05 R83 to R109; 16 R376 to R385; 18 R430 to R453) -/

/-- Element `e` of width `w` of a vector register (05 R83). -/
def lane (v : BitVec 4096) (w e : Nat) : Nat := v.toNat / 2 ^ (w * e) % 2 ^ w

/-- The elements of a register of VLMAX bits (03 R47). -/
def laneCount (x : Ctx) (w : Nat) : Nat := min x.vlcap 4096 / w

/-- The mask selects an element: its bit in the mask that KSEL names, or no mask (03 R57). -/
def chosen (x : Ctx) (ctl : VCtl) (e : Nat) : Bool := ctl.ksel == 15 || (x.mask ctl.ksel).getLsbD e

/-- A vector-style instruction with these scalar sources issues and executes. -/
def executesV (s : State) (ctl : VCtl) (scalars : List (BitVec 6)) : Prop := s.executes ⟨ctl.stall, none⟩ scalars none 0

/-- What an instruction writes to a vector register: width, number of elements, tag, the body `lo` to `hi - 1`, which body
elements are active, and their values with the flags they raise. -/
structure VRow where
  ctl : VCtl
  scalars : List (BitVec 6)
  dst : BitVec 6
  tag : BitVec 8
  w : Nat
  count : Nat
  lo : Nat
  hi : Nat
  active : Nat → Bool
  value : Nat → FRes

/-- An element that an agnostic policy leaves at its old value or sets to ones (03 R57). -/
def oldOrOnes (w old new : Nat) : Prop := new = old ∨ new = 2 ^ w - 1

/-- A register after a row has been written to it, with tail policy `tp` (03 R57). -/
def rowWritten (r : VRow) (tp : Bool) (old new : BitVec 4096) : Prop :=
  (∀ e < r.count,
    let o := lane old r.w e
    let n := lane new r.w e
    if e < r.lo then n = o
    else if e < r.hi then
      if r.active e then n = (r.value e).bits % 2 ^ r.w else if r.ctl.kp then oldOrOnes r.w o n else n = o
    else if tp then oldOrOnes r.w o n else n = o) ∧
  ∀ j, r.w * r.count ≤ j → new.getLsbD j = old.getLsbD j

/-- The flags of the active body elements. -/
def rowFlags (r : VRow) : Nat :=
  (((List.range r.count).filter (fun e => decide (r.lo ≤ e ∧ e < r.hi) && r.active e)).map
    (fun e => (r.value e).flags)).foldl (fun a b => a ||| b) 0

/-- The executing context after an instruction that writes vector register `dst`, VSTART and flags. -/
def vectorWrote (s t : State) (dst : BitVec 6) (tag : BitVec 8) (flags : Nat) : Prop :=
  ({ s.ctx with v := t.ctx.v, vtag := t.ctx.vtag, vdirty := true, vstart := 0 }).onlyScalars t.ctx ∧
    t.ctx.s = s.ctx.s ∧ t.ctx.pc = s.ctx.pc + 8 ∧ t.ctx.fcsr = s.ctx.fcsr ||| (BitVec.ofNat 5 flags).setWidth 9 ∧
    (∀ q : BitVec 6, q ≠ dst → t.ctx.vreg q = s.ctx.vreg q ∧ t.ctx.vtagOf q = s.ctx.vtagOf q) ∧ t.ctx.vtagOf dst = tag

/-- A row's instruction has completed: with VSTART at or above VL it has written the tag alone (03 R57; 18 R430). -/
def rowDone (s t : State) (r : VRow) : Prop :=
  s.onlyContext t ∧ s.sameBytes t ∧
    if s.ctx.vl ≤ s.ctx.vstart then vectorWrote s t r.dst r.tag 0 ∧ t.ctx.vreg r.dst = s.ctx.vreg r.dst
    else vectorWrote s t r.dst r.tag (rowFlags r) ∧ rowWritten r r.ctl.tp (s.ctx.vreg r.dst) (t.ctx.vreg r.dst)

/-- The operands of an element-wise form: vd, va, the typed registers, and operand b of an element by width. -/
structure VForm where
  ctl : VCtl
  vd : BitVec 6
  va : BitVec 6
  typed : List (BitVec 6)
  scalars : List (BitVec 6)
  b : Nat → Nat → Nat

/-- The vector form; `both` says that vb is typed as well. -/
def formV (s : State) (f : FV) (both : Bool) : VForm :=
  ⟨f.ctl, f.vd, f.va, if both then [f.va, f.vb] else [f.va], [], fun w e => lane (s.ctx.vreg f.vb) w e⟩

/-- The scalar form: b is the low bits of s[SB] in every element (04 R76). -/
def formS (s : State) (f : VS) : VForm := ⟨f.ctl, f.vd, f.va, [f.va], [f.sb], fun w _ => (s.reg f.sb).toNat % 2 ^ w⟩

/-- The row of an element-wise instruction: `op` takes the type, the rounding mode, a, b and the old element of vd. -/
def elementRow (s : State) (g : VForm) (ok : Nat → Bool) (rounds : Bool) (op : Nat → Nat → Nat → Nat → Nat → FRes) : Option VRow :=
  match s.ctx.elemType ok g.ctl.ty g.typed with
  | .error _ => none
  | .ok (ty, l) =>
    let w := WellFormed.width ty
    if s.ctx.vl * w ≤ min s.ctx.vlcap 4096 then
      (if rounds && (8 ≤ ty && ty ≤ 13) then s.rounding g.ctl.rm.toNat else some 0).map (fun mode =>
        { ctl := g.ctl, scalars := g.scalars, dst := g.vd, tag := BitVec.ofNat 8 (8 * ty + l), w := w
          count := laneCount s.ctx w, lo := s.ctx.vstart, hi := s.ctx.vl, active := chosen s.ctx g.ctl
          value := fun e => op ty mode (lane (s.ctx.vreg g.va) w e) (g.b w e) (lane (s.ctx.vreg g.vd) w e) })
    else none

/-- An element as an integer of its type: codes 0 to 7 by parity (05 R83). -/
def laneInt (ty v : Nat) : Int := intOf (BitVec.ofNat 5 ty) (BitVec.ofNat 64 v)

/-- An integer result wrapped to an element's width. -/
def laneOf (ty : Nat) (x : Int) : FRes := ⟨(x % (2 ^ WellFormed.width ty : Int)).toNat, 0⟩

/-- An arithmetic operation by type. -/
def byType (s : State) (iop : Int → Int → Int) (fop : Fmt → Nat → Bool → Nat → Nat → FRes) (ty mode a b _old : Nat) : FRes :=
  if ty ≤ 7 then laneOf ty (iop (laneInt ty a) (laneInt ty b)) else fop (fmtOf ty) mode s.ftz a b

/-- Integer and floating-point types, codes 0 to 11. -/
def arithType (t : Nat) : Bool := decide (t ≤ 11)
/-- Integer types. -/
def intType (t : Nat) : Bool := decide (t ≤ 7)
/-- Floating-point types. -/
def floatType (t : Nat) : Bool := decide (8 ≤ t ∧ t ≤ 11)
/-- Types of elements. -/
def anyType (t : Nat) : Bool := decide (t ≤ 18)

/-- VMULH (18 R431). -/
def mulHigh (ty _ a b _old : Nat) : FRes := laneOf ty (laneInt ty a * laneInt ty b / 2 ^ WellFormed.width ty)
/-- VMAC (18 R431). -/
def mulAdd (ty _ a b old : Nat) : FRes := laneOf ty (laneInt ty old + laneInt ty a * laneInt ty b)
/-- The lesser operand, or the greater. -/
def lesser (s : State) := byType s (fun a b => if b < a then b else a) (fun k _ z a b => k.minMax false z a b)
/-- The greater operand. -/
def greater (s : State) := byType s (fun a b => if a < b then b else a) (fun k _ z a b => k.minMax true z a b)
/-- VSHL by b mod w (18 R431). -/
def laneShl (ty _ a b _old : Nat) : FRes := laneOf ty (a * 2 ^ (b % WellFormed.width ty))
/-- VSHR by b mod w. -/
def laneShr (ty _ a b _old : Nat) : FRes := ⟨a / 2 ^ (b % WellFormed.width ty), 0⟩
/-- VSRA by b mod w: the sign fills, of the w bits whatever the type (log 31). -/
def laneSra (ty _ a b _old : Nat) : FRes :=
  laneOf ty ((if 2 ^ (WellFormed.width ty - 1) ≤ a then (a : Int) - 2 ^ WellFormed.width ty else a) / 2 ^ (b % WellFormed.width ty))

/-- The element-wise instructions of integers and bits and the floating-point ones of 05 R88 to R97 (18 R431, R438 to R441). -/
def arithmeticRow (s : State) : Instr → Option VRow
  | .vadd f => elementRow s (formV s f true) arithType true (byType s (· + ·) Fmt.add)
  | .vsub f => elementRow s (formV s f true) arithType true (byType s (· - ·) Fmt.sub)
  | .vmul f => elementRow s (formV s f true) arithType true (byType s (· * ·) Fmt.mul)
  | .vmulh f => elementRow s (formV s f true) intType false mulHigh
  | .vmac f => elementRow s (formV s f true) intType false mulAdd
  | .vmin f => elementRow s (formV s f true) arithType false (lesser s)
  | .vmax f => elementRow s (formV s f true) arithType false (greater s)
  | .vand f => elementRow s (formV s f true) anyType false (fun _ _ a b _ => ⟨a &&& b, 0⟩)
  | .vor f => elementRow s (formV s f true) anyType false (fun _ _ a b _ => ⟨a ||| b, 0⟩)
  | .vxor f => elementRow s (formV s f true) anyType false (fun _ _ a b _ => ⟨a ^^^ b, 0⟩)
  | .vshl f => elementRow s (formV s f false) intType false laneShl
  | .vshr f => elementRow s (formV s f false) intType false laneShr
  | .vsra f => elementRow s (formV s f false) intType false laneSra
  | .vaddS f => elementRow s (formS s f) arithType true (byType s (· + ·) Fmt.add)
  | .vsubS f => elementRow s (formS s f) arithType true (byType s (· - ·) Fmt.sub)
  | .vmulS f => elementRow s (formS s f) arithType true (byType s (· * ·) Fmt.mul)
  | .vmulhS f => elementRow s (formS s f) intType false mulHigh
  | .vmacS f => elementRow s (formS s f) intType false mulAdd
  | .vminS f => elementRow s (formS s f) arithType false (lesser s)
  | .vmaxS f => elementRow s (formS s f) arithType false (greater s)
  | .vandS f => elementRow s (formS s f) anyType false (fun _ _ a b _ => ⟨a &&& b, 0⟩)
  | .vorS f => elementRow s (formS s f) anyType false (fun _ _ a b _ => ⟨a ||| b, 0⟩)
  | .vxorS f => elementRow s (formS s f) anyType false (fun _ _ a b _ => ⟨a ^^^ b, 0⟩)
  | .vshlS f => elementRow s (formS s f) intType false laneShl
  | .vshrS f => elementRow s (formS s f) intType false laneShr
  | .vsraS f => elementRow s (formS s f) intType false laneSra
  | .vmov f => elementRow s (formV s f false) anyType false (fun _ _ a _ _ => ⟨a, 0⟩)
  | .vmovS f => elementRow s { formS s f with typed := [] } anyType false (fun _ _ _ b _ => ⟨b, 0⟩)
  | .vfdiv f => elementRow s (formV s f true) floatType true (byType s (· + ·) Fmt.div)
  | .vfsqrt f => elementRow s (formV s f false) floatType true (fun ty mode a _ _ => (fmtOf ty).sqrt mode s.ftz a)
  | .vfma f =>
    (elementRow s { formV s f true with typed := [f.va, f.vb, f.vc] } floatType true (fun _ _ _ _ _ => ⟨0, 0⟩)).bind (fun r =>
      match s.ctx.elemType floatType f.ctl.ty [f.va, f.vb, f.vc], s.rounding f.ctl.rm.toNat with
      | .ok (ty, _), some mode => some { r with
          value := fun e => (fmtOf ty).fma mode s.ftz (lane (s.ctx.vreg f.va) r.w e) (lane (s.ctx.vreg f.vb) r.w e)
            (lane (s.ctx.vreg f.vc) r.w e) }
      | _, _ => none)
  | .vfest f => elementRow s (formV s f false) (fun t => t == 10) false (fun _ _ a _ _ => estF (f.fn == 1) s.ftz a)
  | .vfexp2 f => elementRow s (formV s f false) (fun t => t == 10) true (fun _ mode a _ _ => exp2F mode s.ftz a)
  | .vflog2 f => elementRow s (formV s f false) (fun t => t == 10) true (fun _ mode a _ _ => log2F mode s.ftz a)
  | .vfsin f => elementRow s (formV s f false) (fun t => t == 10) true (fun _ mode a _ _ => sinF (f.fn == 1) mode s.ftz a)
  | _ => none

/-- The quarter turns in m * 2^x turns, where they are whole. -/
def quarterTurns (m : Nat) (x : Int) : Option Nat :=
  if -2 ≤ x then some (m * 2 ^ (x + 2).toNat) else if m % 2 ^ (-(x + 2)).toNat = 0 then some (m / 2 ^ (-(x + 2)).toNat) else none

/-- The class of an encoding: its bit in VFCLASS's result (18 R437). -/
def classNumber (k : Fmt) (v : Nat) : Nat :=
  let neg := v / 2 ^ (k.e + k.f) % 2 = 1
  let ex := v / 2 ^ k.f % 2 ^ k.e
  let m := v % 2 ^ k.f
  if ex = 2 ^ k.e - 1 then
    if m = 0 then (if neg then 0 else 7) else if m / 2 ^ (k.f - 1) % 2 = 0 then 8 else 9
  else if ex = 0 then (if m = 0 then (if neg then 3 else 4) else if neg then 2 else 5)
  else if neg then 1 else 6

/-- The same row with every body element active. -/
def allActive (r : VRow) : VRow := { r with active := fun _ => true }

/-- The first element of a reduction, or of a sum of blocks: itself, but for a NaN, which is canonical and raises NV when it
signals (05 R87), and a subnormal under FTZ, which is delivered as the zero that it reads as (05 R90; log 59). -/
def firstOf (ty : Nat) (ftz : Bool) (x : Nat) : FRes :=
  let k := fmtOf ty
  if ty ≤ 7 then ⟨x, 0⟩
  else if classNumber k x = 8 then ⟨k.nan, 16⟩
  else if classNumber k x = 9 then ⟨k.nan, 0⟩
  else if ftz = true ∧ (classNumber k x = 2 ∨ classNumber k x = 5) then ⟨x / 2 ^ (k.e + k.f) * 2 ^ (k.e + k.f), 0⟩
  else ⟨x, 0⟩

/-- The value of a reduction over the active body elements in order (05 R109): the identity if there are none. -/
def reduced (s : State) (ty mode fn : Nat) (xs : List Nat) : FRes :=
  let step := fun a b : Nat =>
    if fn = 0 then byType s (· + ·) Fmt.add ty mode a b 0
    else if fn = 1 then lesser s ty mode a b 0
    else if fn = 2 then greater s ty mode a b 0
    else if fn = 3 then ⟨a &&& b, 0⟩ else if fn = 4 then ⟨a ||| b, 0⟩ else ⟨a ^^^ b, 0⟩
  match xs with
  | [] => ⟨redIdentity fn ty, 0⟩
  | x :: ys => ys.foldl (fun (r : FRes) y => let z := step r.bits y; ⟨z.bits, z.flags ||| r.flags⟩) (firstOf ty s.ftz x)

/-- The exact sum of the products of block `j` of two registers (05 R108). -/
def blockProduct (w : Nat) (a b : BitVec 4096) (j : Nat) : Int :=
  let n := fun (v : BitVec 4096) (i : Nat) => (BitVec.ofNat w (lane v w i)).toInt
  ((List.range 24).map (fun i => n a (24 * j + i) * n b (24 * j + i))).foldl (fun p q => p + q) 0

/-- The f32 result of blocks of VDOTB from the old element (05 R108). -/
def dotOf (s : State) (w : Nat) (a b c : BitVec 4096) (old : Nat) (blocks : List Nat) : FRes :=
  blocks.foldl (fun (r : FRes) j =>
    let sa := lane c 8 j
    let sb := lane c 8 (min s.ctx.vlcap 4096 / 16 + j)
    if sa = 255 ∨ sb = 255 then ⟨r.bits, r.flags ||| 16⟩
    else
      let x := addExact s.ftz r.bits (blockProduct w a b j) ((sa : Int) + sb - 254)
      ⟨x.bits, x.flags ||| r.flags⟩) (firstOf 10 s.ftz old)

/-- The instructions that classify, select, move, convert, reduce and multiply blocks (18 R431, R433, R434, R437, R442, R443,
R449 to R452). -/
def movementRow (s : State) : Instr → Option VRow
  | .vfclass f =>
    (elementRow s (formV s f false) floatType false (fun ty _ a _ _ => ⟨2 ^ classNumber (fmtOf ty) a, 0⟩)).map (fun r =>
      { r with tag := if r.w = 16 then 0x18 else if r.w = 32 then 0x28 else 0x38 })
  | .vmerge f =>
    (elementRow s (formV s f true) anyType false (fun _ _ _ _ _ => ⟨0, 0⟩)).map (fun r => allActive { r with
      value := fun e => ⟨lane (s.ctx.vreg (if chosen s.ctx f.ctl e then f.va else f.vb)) r.w e, 0⟩ })
  | .vslide f =>
    if f.vd = f.va then none else (elementRow s (formS s f) anyType false (fun _ _ _ _ _ => ⟨0, 0⟩)).map (fun r => allActive { r with
      value := fun e =>
        let n := (s.reg f.sb).toNat
        if f.fn = 0 then ⟨if n ≤ e then lane (s.ctx.vreg f.va) r.w (e - n) else lane (s.ctx.vreg f.vd) r.w e, 0⟩
        else ⟨if e + n < r.count then lane (s.ctx.vreg f.va) r.w (e + n) else 0, 0⟩ })
  | .vperm f =>
    if f.vd = f.va ∨ f.vd = f.vb then none else (elementRow s (formV s f false) anyType false (fun _ _ _ _ _ => ⟨0, 0⟩)).map (fun r => allActive { r with
      value := fun e =>
        let i := lane (s.ctx.vreg f.vb) r.w e
        ⟨if i < r.count then lane (s.ctx.vreg f.va) r.w i else 0, 0⟩ })
  | .viota f =>
    (elementRow s { formV s f false with typed := [] } intType false (fun _ _ _ _ _ => ⟨0, 0⟩)).map (fun r =>
      { r with value := fun e => ⟨e, 0⟩ })
  | .vfmt f =>
    (elementRow s { formV s f false with typed := [] } anyType false (fun _ _ a _ _ => ⟨a, 0⟩)).map (fun r =>
      allActive { r with tag := BitVec.ofNat 8 (8 * f.ctl.ty.toNat + f.aux.toNat) })
  | .vcvt f =>
    match s.ctx.elemType anyType (f.fn.setWidth 5) [f.va] with
    | .error _ => none
    | .ok (u, _) =>
      let ty := f.ctl.ty.toNat
      let w := max (WellFormed.width ty) (WellFormed.width u)
      if s.ctx.vl * w ≤ min s.ctx.vlcap 4096 ∧ (WellFormed.width ty = WellFormed.width u ∨ f.vd ≠ f.va) then
        (if 8 ≤ ty ∧ ty ≤ 13 ∨ 8 ≤ u ∧ u ≤ 13 then s.rounding f.ctl.rm.toNat else some 0).map (fun mode =>
          { ctl := f.ctl, scalars := [], dst := f.vd
            tag := BitVec.ofNat 8 (8 * ty + if 16 ≤ ty then 3 else 0), w := WellFormed.width ty
            count := laneCount s.ctx w, lo := s.ctx.vstart, hi := s.ctx.vl, active := chosen s.ctx f.ctl
            value := fun e => convert ty u mode s.ftz (lane (s.ctx.vreg f.va) (WellFormed.width u) e) })
      else none
  | .vred f =>
    let ok := fun t => if f.fn.toNat ≤ 2 then arithType t else intType t
    if f.vd = f.va then none else (elementRow s (formV s f false) ok (f.fn == 0) (fun _ _ _ _ _ => ⟨0, 0⟩)).bind (fun r =>
      match s.ctx.elemType ok f.ctl.ty [f.va] with
      | .error _ => none
      | .ok (ty, _) =>
        let mode := if f.fn = 0 ∧ 8 ≤ ty then (s.rounding f.ctl.rm.toNat).getD 0 else 0
        let xs := ((List.range' s.ctx.vstart (s.ctx.vl - s.ctx.vstart)).filter (chosen s.ctx f.ctl)).map
          (fun e => lane (s.ctx.vreg f.va) r.w e)
        some (allActive { r with lo := 0, hi := 1, value := fun _ => reduced s ty mode f.fn.toNat xs }))
  | .vdotb f =>
    match s.ctx.elemType (fun t => t == 16 || t == 17) f.ctl.ty [f.va, f.vb] with
    | .error _ => none
    | .ok (ty, _) =>
      let w := WellFormed.width ty
      let g := f.aux.toNat + 1
      if s.ctx.vtagOf f.vc = 0x93 ∧ s.ctx.vl * w ≤ min s.ctx.vlcap 4096 ∧ s.ctx.vl % (24 * g) = 0 ∧
          f.vd ≠ f.va ∧ f.vd ≠ f.vb ∧ f.vd ≠ f.vc then
        some { ctl := f.ctl, scalars := [], dst := f.vd, tag := 0x50, w := 32, count := laneCount s.ctx 32
               lo := s.ctx.vstart, hi := s.ctx.vl / (24 * g), active := fun _ => true
               value := fun r => dotOf s w (s.ctx.vreg f.va) (s.ctx.vreg f.vb) (s.ctx.vreg f.vc)
                 (lane (s.ctx.vreg f.vd) 32 r) (List.range' (g * r) g) }
      else none
  | _ => none

/-- The shape and fields of a vector memory instruction (18 R445). -/
def memoryForm : Instr → Option (Shape × VM)
  | .vld f => some (.unit, f)
  | .vldff f => some (.unit, f)
  | .vst f => some (.unit, f)
  | .vlds f => some (.strided, f)
  | .vsts f => some (.strided, f)
  | .vldx f => some (.indexed, f)
  | .vstx f => some (.indexed, f)
  | _ => none

/-- The vector loads. -/
def isVectorLoad : Instr → Bool
  | .vld _ | .vldff _ | .vlds _ | .vldx _ => true
  | _ => false

/-- The element index of VLDX and VSTX: n32, i32 or i64 by MODE (18 R448). -/
def indexOf (s : State) (f : VM) (e : Nat) : Int :=
  if f.mode = 0 then lane (s.ctx.vreg f.sx) 32 e
  else if f.mode = 1 then (BitVec.ofNat 32 (lane (s.ctx.vreg f.sx) 32 e)).toInt
  else (BitVec.ofNat 64 (lane (s.ctx.vreg f.sx) 64 e)).toInt

/-- The width that the element count takes from an index (18 R448). -/
def indexBits (shape : Shape) (f : VM) : Nat := if shape = .indexed then (if f.mode.toNat < 2 then 32 else 64) else 0

/-- The address of element `e` of width `w` (18 R445, R448). -/
def laneAddress (s : State) (shape : Shape) (f : VM) (w e : Nat) : Int :=
  let base : Int := ((s.reg f.base).toNat % 2 ^ 52 : Nat)
  match shape with
  | .unit => base + (f.off.toInt + e) * w / 8
  | .strided => base + e * (s.reg f.sx).toInt
  | .indexed => base + indexOf s f e

/-- The bytes of an element access: a 4-bit element's lies in one byte (05 R83). -/
def laneBytes (w : Nat) : Nat := if w = 4 then 1 else w / 8

/-- Where element `e` lies, or the trap that stops there (18 R445). -/
def laneTarget (s : State) (shape : Shape) (f : VM) (w e : Nat) : Except (BitVec 8 × Word) Nat :=
  let a := laneAddress s shape f w e
  if a < 0 ∨ 2 ^ 52 ≤ a then .error (0x05, s.reg f.base)
  else if a.toNat % laneBytes w ≠ 0 then .error (0x04, BitVec.ofInt 64 a)
  else .ok a.toNat

/-- The entry of the core's PLB that covers a paged address grants these rights (06 R116, R117). -/
def plbHolds (s : State) (a need : Nat) : Bool :=
  match (s.coreAt s.runCore).plb.find? (fun e => e.domain == s.ctx.domain && e.first ≤ a / 65536 && a / 65536 ≤ e.last) with
  | some e => e.rights.toNat &&& need == need
  | none => false

/-- Where element `e` stops a vector access that needs these rights: at a bad or misaligned address, in an area that is neither
the local window nor paged, or in a page without the right, by tables that can be read (18 R445; 06 R111, R116, R130). -/
def laneStop (s : State) (shape : Shape) (f : VM) (need w e : Nat) : Option (BitVec 8 × Word) :=
  match laneTarget s shape f w e with
  | .error x => some x
  | .ok a =>
    match regionOf a with
    | .localWindow _ => none
    | .paged =>
      if (s.plbCheck s.runCore s.ctx.domain a need).1 ∨ s.firstBad (s.tableRuns s.runDie s.ctx.domain) ≠ none then none
      else some (0x05, BitVec.ofNat 64 a)
    | _ => some (0x05, BitVec.ofNat 64 a)

/-- The bytes of element `e` that a load finds with no fill: in the local window, or in paged memory that the core's PLB lets
the context read and its L1 holds (06 R116, R119, R126). -/
def laneFound (s : State) (shape : Shape) (f : VM) (w e : Nat) : Option Nat :=
  match laneTarget s shape f w e with
  | .error _ => none
  | .ok a =>
    match windowOffset a with
    | some o => some (readN s.lmem (localCell s o) (laneBytes w))
    | none =>
      if a < 0xFFE0000000000 ∧ plbHolds s a rightR = true then
        (l1Find (s.coreAt s.runCore).l1 a).map (fun ln => ln.data / 256 ^ (a - ln.va) % 256 ^ laneBytes w)
      else none

/-- Where a store of element `e` lands with no fill: a cell of local memory (`true`), or a physical address of paged memory
that the core's PLB lets the context write, at its home, the issuing die, with no single-bit error to be corrected (06 R116, R119,
R129, R130). -/
def laneSite (s : State) (shape : Shape) (f : VM) (w e : Nat) : Option (Bool × Nat) :=
  match laneTarget s shape f w e with
  | .error _ => none
  | .ok a =>
    match windowOffset a with
    | some o => some (true, localCell s o)
    | none =>
      if a < 0xFFE0000000000 ∧ plbHolds s a rightW = true ∧ s.weak = [] then
        match landing s a with
        | some (.home pa) => some (false, pa)
        | _ => none
      else none

/-- The active body elements below `stop`. -/
def activeBelow (s : State) (ctl : VCtl) (stop : Nat) : List Nat :=
  (List.range' s.ctx.vstart (stop - s.ctx.vstart)).filter (chosen s.ctx ctl)

/-- A vector memory instruction passes the checks that come before its elements: pointer tag, width (02 R32) and the uses of
4-bit types (18 R445). -/
def accessStarts (s : State) (shape : Shape) (f : VM) (w : Nat) : Prop :=
  pointerOk (s.reg f.base) = true ∧ s.ctx.vl * max w (indexBits shape f) ≤ min s.ctx.vlcap 4096 ∧
    ¬ (w = 4 ∧ (shape ≠ .unit ∨ f.off.toNat % 2 ≠ 0)) ∧
    executesV s f.ctl (if shape = .strided then [f.base, f.sx] else [f.base])

/-- Element `e` of width `w` in the bytes read for it: the even one of two 4-bit elements is the low half (05 R83). -/
def lanePart (w e v : Nat) : Nat := if w = 4 then v / 16 ^ (e % 2) % 16 else v

/-- The row of a load that found these bytes, whose elements from `stop` up keep their old values. -/
def loadRow (s : State) (f : VM) (ty l stop : Nat) (found : Nat → Nat) : VRow :=
  let w := WellFormed.width ty
  { ctl := f.ctl, scalars := [], dst := f.vd, tag := BitVec.ofNat 8 (8 * ty + l), w := w, count := laneCount s.ctx w
    lo := s.ctx.vstart, hi := s.ctx.vl, active := fun e => decide (stop ≤ e) || chosen s.ctx f.ctl e
    value := fun e => ⟨if e < stop then lanePart w e (found e) else lane (s.ctx.vreg f.vd) w e, 0⟩ }

/-- A byte with its half `e % 2` replaced by a 4-bit element. -/
def halfSet (e v b : Nat) : Nat := if e % 2 = 0 then b / 16 * 16 + v else b % 16 + 16 * v

/-- A memory after element `e` of width `w` was stored at a cell. -/
def laneStored (w e v cell : Nat) (m : List Host.Cell) : List Host.Cell :=
  if w = 4 then writeN m cell 1 (halfSet e v (readN m cell 1)) else writeN m cell (w / 8) v

/-- Local and paged memory after the active elements below `stop` have been stored in order. -/
def storedLanes (s : State) (shape : Shape) (f : VM) (w stop : Nat) : List Host.Cell × List Host.Cell :=
  (activeBelow s f.ctl stop).foldl (fun m e =>
    match laneSite s shape f w e with
    | some (true, cell) => (laneStored w e (lane (s.ctx.vreg f.vd) w e) cell m.1, m.2)
    | some (false, pa) => (m.1, laneStored w e (lane (s.ctx.vreg f.vd) w e) pa m.2)
    | none => m) (s.lmem, s.mem)

/-- The memories after those stores, and nothing else but the running core's L1, whose copies a store updates (06 R126). -/
def lanesStored (s t : State) (shape : Shape) (f : VM) (w stop : Nat) : State :=
  let m := storedLanes s shape f w stop
  { s with lmem := m.1, mem := m.2, rewritten := t.rewritten }.modCore s.runCore (fun k => { k with l1 := (t.coreAt s.runCore).l1 })

/-- One element of a vector store on path V, wherever its grain is held: a 4-bit one replaces its half of the byte that a
writable address holds (05 R83; 07 R142; log 32). -/
def laneStores (u u' : State) (a w e v : Nat) : Prop :=
  if w = 4 then
    (∃ y, u.store false a 1 0 = .ok y) ∧ ∃ b x, u.sharedByte a = .ok (b, x) ∧ x.store false a 1 (halfSet e v b) = .ok u'
  else u.store false a (w / 8) v = .ok u'

/-- A mask register after bits `lo` to `hi - 1` have been written, of `n` bits, with masked-off and tail policies (03 R57). -/
def maskWritten (kp tp : Bool) (lo hi n : Nat) (active value : Nat → Bool) (old new : BitVec 1024) : Prop :=
  ∀ e < 1024,
    let o := old.getLsbD e
    let b := new.getLsbD e
    if e < lo ∨ n ≤ e then b = o
    else if e < hi then if active e then b = value e else if kp then b = o ∨ b = true else b = o
    else if tp then b = o ∨ b = true else b = o

/-- The executing context after an instruction that writes one mask register. -/
def maskDone (s t : State) (kd : BitVec 4) (flags : Nat) : Prop :=
  s.onlyContext t ∧ s.sameBytes t ∧ ({ s.ctx with k := t.ctx.k, vdirty := true, vstart := t.ctx.vstart }).onlyScalars t.ctx ∧
    t.ctx.s = s.ctx.s ∧ t.ctx.pc = s.ctx.pc + 8 ∧ t.ctx.fcsr = s.ctx.fcsr ||| (BitVec.ofNat 5 flags).setWidth 9 ∧
    ∀ j : BitVec 4, j ≠ kd → t.ctx.mask j = s.ctx.mask j

/-- The executing context after an instruction that only clears VSTART. -/
def vstartCleared (s t : State) : Prop :=
  ({ s.ctx with vstart := 0 }).onlyScalars t.ctx ∧ t.ctx.s = s.ctx.s ∧ t.ctx.pc = s.ctx.pc + 8 ∧ t.ctx.fcsr = s.ctx.fcsr

/-- VCMP's relation of two elements with its flags (18 R432; 05 R91). -/
def relationOf (s : State) (fn ty a b : Nat) : FRes :=
  if ty ≤ 7 then ⟨((orderWord (laneInt ty a) (laneInt ty b)).getLsbD fn).toNat, 0⟩ else relation fn ty s.ftz a b

/-- VCMP's operands: control, mask register, relation, va, typed registers, scalars and operand b. -/
structure Comparison where
  ctl : VCtl
  kd : BitVec 4
  fn : Nat
  va : BitVec 6
  typed : List (BitVec 6)
  scalars : List (BitVec 6)
  b : Nat → Nat → Nat

/-- The forms of VCMP. -/
def comparisonOf (s : State) : Instr → Option Comparison
  | .vcmp f => some ⟨f.ctl, f.vd.setWidth 4, f.fn.toNat, f.va, [f.va, f.vb], [], fun w e => lane (s.ctx.vreg f.vb) w e⟩
  | .vcmpS f => some ⟨f.ctl, f.vd.setWidth 4, f.fn.toNat, f.va, [f.va], [f.sb], fun w _ => (s.reg f.sb).toNat % 2 ^ w⟩
  | _ => none

/-- KLOG's function of two bits (16 R382). -/
def logicBit (fn : Nat) (a b : Bool) : Bool :=
  match fn with
  | 0 => a && b
  | 1 => a || b
  | 2 => a != b
  | 3 => a && !b
  | 4 => a || !b
  | 5 => !(a && b)
  | 6 => !(a || b)
  | _ => a == b

/-- The set bits of a mask below VL. -/
def setBelow (x : Ctx) (k : BitVec 4) : List Nat := (List.range x.vl).filter (fun e => (x.mask k).getLsbD e)

/-! ### The Firebox (09 R194 to R220; 17 R393 to R406) -/

/-- The Firebox of the die of the executing context's home core. -/
def homeFirebox (s : State) : Firebox := (s.dieAt (dieOf s.cur.1)).firebox

/-- The executing context after an instruction that writes one register and its matrix CSRs. -/
def matrixWrote (s t : State) (dst : BitVec 6) (v : Word) : Prop :=
  ({ s.ctx with mtm := t.ctx.mtm, mtn := t.ctx.mtn, mtk := t.ctx.mtk, mlease := t.ctx.mlease, mstat := t.ctx.mstat
                mkvalid := t.ctx.mkvalid, mkpos := t.ctx.mkpos, mleaseSaved := t.ctx.mleaseSaved }).onlyScalars t.ctx ∧
    t.ctx.s = regsAfter s.ctx.s dst v ∧ t.ctx.fcsr = s.ctx.fcsr ∧ t.ctx.pc = s.ctx.pc + 8 ∧ othersKept s t

/-- The matrix CSRs are unchanged. -/
def matrixCsrsKept (x y : Ctx) : Prop :=
  y.mtm = x.mtm ∧ y.mtn = x.mtn ∧ y.mtk = x.mtk ∧ y.mlease = x.mlease ∧ y.mstat = x.mstat ∧ y.mkvalid = x.mkvalid ∧
    y.mkpos = x.mkpos ∧ y.mleaseSaved = x.mleaseSaved

/-- The K grain of a type: 16 / w, or 24 for bq8 and bq4 (09 R207). -/
def kGrain (ty : BitVec 5) : Nat := if ty = 16 ∨ ty = 17 then 24 else 16 / WellFormed.width ty.toNat

/-- The K that a stage-sourced MTILE grants (09 R207). -/
def stageK (ty : BitVec 5) (k : Nat) : Nat :=
  let kmax := min (65536 / WellFormed.width ty.toNat) (32768 / WellFormed.width ty.toNat)
  min k (kmax - kmax % kGrain ty)

/-- The scalar registers that a matrix instruction reads, its control bits and its destination. -/
def matrixForm : Instr → Option (FX × List (BitVec 6) × Option (BitVec 6))
  | .mtile f => some (f, [f.sa, f.sb, f.sc], some f.sd)
  | .mzero f => some (f, [f.sa], none)
  | .mlda f => some (f, [f.sa, f.sb], none)
  | .mldb f => some (f, [f.sa, f.sb], none)
  | .mma f => some (f, if f.mode = 1 then [f.sc] else [], none)
  | .mmab f => some (f, if f.mode = 1 then [f.sa, f.sb, f.sc] else [f.sa, f.sb], none)
  | .mout f => some (f, [f.sa, f.sb], none)
  | .mwait f => some (f, [], none)
  | .mfree f => some (f, [], none)
  | .msave f => some (f, [f.sa], none)
  | _ => none

/-- The slot holds an f32 tile, or the first of a q96 tile that the lease holds whole, once the queued commands have run
(09 R205). -/
def slotIs (l : Lease) (n : Nat) (q96 : Bool) : Prop :=
  n < l.nslot ∧
    if q96 then (∃ e, l.view.types[n]? = some (.q96 e)) ∧ n % 3 = 0 ∧ n + 2 < l.nslot else l.view.types[n]? = some .f32

/-- The last stage loads, each issued since the lease was granted or restored, serve a product of the given sizes (09 R205). -/
def stagesServe (l : Lease) (ty : BitVec 5) (m n k : Nat) : Prop :=
  l.loadedA = true ∧ l.loadedB = true ∧ (∃ a, l.view.a = some a ∧ a.ty = ty ∧ m ≤ a.rows ∧ k ≤ a.count) ∧
    ∃ b, l.view.b = some b ∧ b.ty = ty ∧ k ≤ b.rows ∧ n ≤ b.count

/-- The Hob rows of a product lie in the Hob, and the last A-stage load, issued since the grant or restore, serves it (09 R205,
R208). -/
def hobServes (l : Lease) (ty : BitVec 5) (m k hb : Nat) : Prop :=
  l.loadedA = true ∧ (∃ a, l.view.a = some a ∧ a.ty = ty ∧ m ≤ a.rows ∧ k ≤ a.count) ∧
    hb + (k + 16 / WellFormed.width ty.toNat - 1) / (16 / WellFormed.width ty.toNat) ≤ 1572864

/-- An address or pitch on the boundary of a type's elements (09 R205 step 5). -/
def onElements (ty : BitVec 5) (address pitch : Word) : Prop :=
  let n := if ty = 17 ∨ ty = 14 ∨ ty = 15 then 1 else WellFormed.width ty.toNat / 8
  n ∣ address.toNat % 2 ^ 52 ∧ (n : Int) ∣ pitch.toInt

/-- A pointer whose tag agrees with TYPE (05 R101, R102). -/
def pointerServes (p : Word) (ty : BitVec 5) : Prop := pointerOk p = true ∧ ∃ r, loadType p ty = .ok r

/-- The command that a matrix instruction passing the checks of 09 R205 queues: its word and captured operands. -/
def queuedCommand (s : State) (l : Lease) (i : Instr) (word sa sb sc : Word) : Prop :=
  let x := s.ctx
  match i with
  | .mzero f =>
    word = encode i ∧ sa = s.reg f.sa ∧ sb = 0 ∧ sc = 0 ∧ f.tile.toNat < l.nslot ∧
      (f.ty = 19 → f.tile.toNat % 3 = 0 ∧ f.tile.toNat + 2 < l.nslot ∧ (sa.setWidth 16).signExtend 64 = sa)
  | .mlda f =>
    word = encode i ∧ sa = s.reg f.sa ∧ sb = s.reg f.sb ∧ sc = 0 ∧ pointerServes sa f.ty ∧ onElements f.ty sa sb
  | .mldb f =>
    word = encode i ∧ sa = s.reg f.sa ∧ sb = s.reg f.sb ∧ sc = 0 ∧ pointerServes sa f.ty ∧ onElements f.ty sa sb
  | .mma f =>
    word = encode i ∧ sa = 0 ∧ sb = 0 ∧ sc = s.reg f.sc ∧ slotIs l f.tile.toNat false ∧
      if f.mode = 1 then hobServes l f.ty x.mtm.toNat x.mtk.toNat sc.toNat
      else stagesServe l f.ty x.mtm.toNat x.mtn.toNat x.mtk.toNat
  | .mmab f =>
    word = encode i ∧ sa = s.reg f.sa ∧ sb = s.reg f.sb ∧ sc = s.reg f.sc ∧ slotIs l f.tile.toNat true ∧ x.mtk.toNat % 24 = 0 ∧
      (∀ p ∈ [sa, sb], pointerOk p = true ∧ (p.getLsbD 63 = true → p.extractLsb' 55 8 = 0x93)) ∧
      if f.mode = 1 then hobServes l f.ty x.mtm.toNat x.mtk.toNat sc.toNat
      else stagesServe l f.ty x.mtm.toNat x.mtn.toNat x.mtk.toNat
  | .mout f =>
    (∃ mode, s.rounding f.mode.toNat = some mode ∧ word = encode (.mout { f with mode := BitVec.ofNat 6 mode })) ∧
      sa = s.reg f.sa ∧ sb = s.reg f.sb ∧ sc = 0 ∧ (slotIs l f.tile.toNat false ∨ slotIs l f.tile.toNat true) ∧
      pointerServes sa f.ty ∧ onElements f.ty sa sb
  | _ => False

/-- Element (m, n) of slot `slot` of a lease's tiles (09 R209). -/
def tileElement (l : Lease) (slot m n : Nat) : BitVec 96 := tileGet l.tiles (slot * 2 ^ 18 + m * 512 + n)

/-- Tiles listed once each, in the order of their keys. -/
def tilesSorted (l : Lease) : Prop := (l.tiles.map (fun e => e.1)).Pairwise (fun a b => a < b)

/-- The element (k, n) of B that a product takes: of the B stage, or of the Hob from its base row: element k of column n in the
16-bit cells of the rows of slice n (09 R208). -/
def operandB (s : State) (d : DieId) (l : Lease) (c : MCmd) (f : FX) (k n : Nat) : Nat :=
  if f.mode = 1 then
    let w := WellFormed.width f.ty.toNat
    readN s.hob (d.val * 0x60000000 + ((c.sc.toNat + k / (16 / w)) * 1024 + 2 * n)) 2 / 2 ^ (k % (16 / w) * w) % 2 ^ w
  else Stage.at_ l.stageB k n

/-- The Hob serves a command now: it reads none of it, or no refresh window is open and no cell is uncorrectable (06 R138). -/
def hobReady (s : State) (d : DieId) (f : FX) : Prop :=
  f.mode = 1 → s.cycle % 32768 < 32512 ∧ (s.dieAt d).firebox.hobBad = []

/-- The f32 sum of MMA with its flags: for f16 and bf16 the exact products of steps `pos` to `kend - 1` are added in order, each
sum rounded once; for e4m3 and e5m2 they are summed in pairs first, a last odd one with +0 (05 R107). -/
def productSum (ty : Nat) (a b : Nat → Nat) (old : BitVec 96) (pos kend : Nat) : FRes :=
  let product := fun i => exactProduct (fmtOf ty) (a i) (b i)
  let plus := fun (acc : FRes) (x : FVal) =>
    let r := sumF32 (f32.decode false acc.bits) x
    (⟨r.bits, acc.flags ||| r.flags⟩ : FRes)
  let flagged := fun (r : FRes) (n : Nat) => (⟨r.bits, r.flags ||| n⟩ : FRes)
  if ty = 12 ∨ ty = 13 then
    (List.range ((kend - pos + 1) / 2)).foldl (fun acc j =>
      let p := product (pos + 2 * j)
      let q := if pos + 2 * j + 1 < kend then product (pos + 2 * j + 1) else (.fin false 0 0, 0)
      let pair := sumF32 p.1 q.1
      flagged (plus acc (f32.decode false pair.bits)) (p.2 ||| q.2 ||| pair.flags)) ⟨old.toNat, 0⟩
  else
    (List.range' pos (kend - pos)).foldl (fun acc i => flagged (plus acc (product i).1) (product i).2) ⟨old.toNat, 0⟩

/-- The nearest integer of a / b, for b above 0; of two the even one. -/
def nearestEven (a b : Int) : Int :=
  if 2 * (a % b) < b then a / b else if b < 2 * (a % b) then a / b + 1 else a / b + (a / b) % 2

/-- A q96 element with its flags after one block (05 R99, R103 to R106): the exact sum of 24 products, scaled, rounded once and
added, with saturation. -/
def blockAdded (e : Int) (a b : Nat → Int) (sa sb : Nat) (x : Int × Nat) : Int × Nat :=
  let sum := ((List.range 24).map (fun i => a i * b i)).foldl (fun p q => p + q) 0
  let sh : Int := (sa : Int) + sb - 254 - e
  let void := sa = 255 ∨ sb = 255
  let v := if void then 0 else if 0 ≤ sh then sum * 2 ^ sh.toNat else nearestEven sum (2 ^ (-sh).toNat)
  let t := x.1 + v
  (max (-(2 ^ 95 - 1)) (min (2 ^ 95 - 1) t),
    x.2 ||| (if void then 16 else 0) ||| if 2 ^ 95 - 1 < t ∨ t < -(2 ^ 95 - 1) then 4 else 0)

/-- A q96 element with its flags after blocks `j` to `n - 1` of MMAB (05 R106; 09 R211). -/
def blocksAdded (w : Nat) (e : Int) (a b : Nat → Nat) (sa sb : Nat → Nat) (old : BitVec 96) (j n : Nat) : Int × Nat :=
  let num := fun x : Nat => (BitVec.ofNat w x).toInt
  (List.range' j (n - j)).foldl (fun x q =>
    blockAdded e (fun i => num (a (24 * q + i))) (fun i => num (b (24 * q + i))) (sa q) (sb q) x) (old.toInt, 0)

/-- What MOUT writes of a tile element (05 R92, R110; 17 R399). -/
def tileOut (ty mode : Nat) (slot : Option SlotType) (v : BitVec 96) : FRes :=
  match slot with
  | some (.q96 e) =>
    if ty = 4 then dyadicToInt true 32 mode (v.toInt < 0) v.toInt.natAbs e
    else (fmtOf ty).round mode false (v.toInt < 0) v.toInt.natAbs e false
  | _ => if ty = 10 then ⟨v.toNat % 2 ^ 32, 0⟩ else convert ty 10 mode false (v.toNat % 2 ^ 32)

/-- Elements `x 0` to `x (n - 1)` of `w` bits each as one little-endian number. -/
def packedNumber (w : Nat) (x : Nat → Nat) : Nat → Nat
  | 0 => 0
  | n + 1 => packedNumber w x n + x n % 2 ^ w * 2 ^ (w * n)

/-- The address of row `i` of a stage load or of MOUT: the pointer's address and `i` signed pitches (09 R208). -/
def rowAt (c : MCmd) (i : Nat) : Int := (c.sa.toNat % 2 ^ 52 : Nat) + i * c.sb.toInt

/-- A stage after a load that has read its rows as the numbers `v`. -/
def stageOf (c : MCmd) (ty : BitVec 5) (rows count : Nat) (v : Nat → Nat) : Stage :=
  let w := WellFormed.width ty.toNat
  ⟨c.sa, c.sb, ty, rows, count, (List.range rows).map (fun i => (List.range count).map (fun k => v i / 2 ^ (w * k) % 2 ^ w))⟩

/-- A Firebox event has run the command at the head of a lease's queue to its end: the lease is now `m`, and the cores and
memories are those of `u`. -/
def ranCommand (d : DieId) (s u : State) (l : Lease) (rest : List MCmd) (m : Lease) : Prop :=
  ∃ t, exec (.fireboxCommandRun d) s = .next t ∧ (t.dieAt d).firebox.find l.num = some m ∧ m.queue = rest ∧ m.pos = 0 ∧
    u.sameBytes t ∧ t.cores = u.cores

/-- The lease's pending flags after a command: those before, and those that hold of some element. -/
def flagsRaised (l m : Lease) (raised : Nat → Prop) : Prop :=
  ∀ b < 5, m.pflags.getLsbD b = true ↔ l.pflags.getLsbD b = true ∨ raised b

/-- The physical byte of a paged address that a unit of die `d` reads or writes for a domain, where the die's L2 holds its plain
grain at the home, of a page that the device owns, without an uncorrectable error (06 R117, R128, R130). -/
def unitByte (s : State) (d : DieId) (domain : BitVec 16) (need a : Nat) : Option Nat :=
  if a < 0xFFE0000000000 ∧ s.tableCheck d domain a need = true then
    match (s.dieAt d).line a with
    | some ln =>
      if ln.home = true ∧ ln.codec = 0 ∧ ln.owner = false ∧ s.isBad ln.pa ln.size = false then some (ln.pa + (a - ln.va)) else none
    | none => none
  else none


/-! ### Textures and ray queries (10 R238 to R249) -/

/-- TEX, TEXG and RAYQ: their fields and the tag of the second of the four result registers (10 R238, R244). -/
def quadForm : Instr → Option (FV × BitVec 8)
  | .tex f => some (f, 0x50)
  | .texg f => some (f, 0x50)
  | .rayq f => some (f, 0x28)
  | _ => none

/-- The scalar register that names the descriptor or the root: SA, in AUX (04 R76). -/
def quadReg (f : FV) : BitVec 6 := f.aux.setWidth 6

/-- Result register `k` of four, with its body up to `hi` (10 R238). -/
def quadRow (s : State) (f : FV) (k hi : Nat) (tag : BitVec 8) (value : Nat → Nat) : VRow where
  ctl := f.ctl
  scalars := [quadReg f]
  dst := f.vd + BitVec.ofNat 6 k
  tag := tag
  w := 32
  count := laneCount s.ctx 32
  lo := s.ctx.vstart
  hi := hi
  active := chosen s.ctx f.ctl
  value := fun e => ⟨value e, 0⟩

/-- The tag of result register `k`. -/
def quadTag (tag1 : BitVec 8) (k : Nat) : BitVec 8 := if k = 1 then tag1 else 0x50

/-- The registers outside a run of four have kept their values and tags. -/
def runKept (s t : State) (f : FV) : Prop :=
  ∀ q : BitVec 6, (∀ k < 4, q ≠ f.vd + BitVec.ofNat 6 k) → t.ctx.vreg q = s.ctx.vreg q ∧ t.ctx.vtagOf q = s.ctx.vtagOf q

/-- The executing context after a completed TEX, TEXG or RAYQ, whose results are `value k e`. -/
def quadDone (s t : State) (f : FV) (tag1 : BitVec 8) (value : Nat → Nat → Nat) : Prop :=
  ({ s.ctx with v := t.ctx.v, vtag := t.ctx.vtag, vdirty := true, vstart := 0 }).onlyScalars t.ctx ∧
    t.ctx.s = s.ctx.s ∧ t.ctx.pc = s.ctx.pc + 8 ∧ t.ctx.fcsr = s.ctx.fcsr ∧ runKept s t f ∧
    ∀ k < 4, t.ctx.vtagOf (f.vd + BitVec.ofNat 6 k) = quadTag tag1 k ∧
      if s.ctx.vl ≤ s.ctx.vstart then t.ctx.vreg (f.vd + BitVec.ofNat 6 k) = s.ctx.vreg (f.vd + BitVec.ofNat 6 k)
      else rowWritten (quadRow s f k s.ctx.vl (quadTag tag1 k) (value k)) f.ctl.tp (s.ctx.vreg (f.vd + BitVec.ofNat 6 k))
        (t.ctx.vreg (f.vd + BitVec.ofNat 6 k))

/-- A value of four by its number. -/
def fourOf (q : Quad) (k : Nat) : Nat := if k = 0 then q.1 else if k = 1 then q.2.1 else if k = 2 then q.2.2.1 else q.2.2.2

/-- TEX, TEXG or RAYQ issues, VL fitting 32-bit elements (02 R32). -/
def quadStarts (s : State) (f : FV) : Prop := s.ctx.vl * 32 ≤ min s.ctx.vlcap 4096 ∧ executesV s f.ctl [quadReg f]

/-- The state in which a vector instruction with scalar source `r` does its own part. -/
def issuedV (s : State) (f : FV) : State := issued s ⟨f.ctl.stall, none⟩ [quadReg f]

/-- Element `e` of operand register `k`. -/
def quadIn (s : State) (f : FV) (k e : Nat) : Nat := lane (s.ctx.vreg (f.va + BitVec.ofNat 6 k)) 32 e

/-- The address of texel (i, j, k): linear, or bricks of 16 by 16 by 8 f16 texels or 16 by 8 by 8 f32 ones (10 R240). -/
def texelAddress (t : Texture) (i j k : Nat) : Nat :=
  if t.brick = false then t.base + k * t.sp + j * t.rp + i * texelBytes t.fmt
  else
    let bh := if t.fmt = 2 then 16 else 8
    let brick := i / 16 + (t.w + 15) / 16 * (j / bh + (t.h + bh - 1) / bh * (k / 8))
    t.base + 4096 * brick + (4096 / (16 * bh * 8)) * ((k % 8 * bh + j % bh) * 16 + i % 16)

/-- The four channels of a texel of a format that is no unorm one (10 R240). -/
def plainChannels (fmt v : Nat) : Option Quad :=
  let h := fun i => (convert 10 8 0 false (v / 2 ^ (16 * i) % 2 ^ 16)).bits
  let w := fun i => v / 2 ^ (32 * i) % 2 ^ 32
  match fmt with
  | 2 => some (h 0, 0, 0, 0x3F800000)
  | 3 => some (h 0, h 1, h 2, h 3)
  | 4 => some (w 0, 0, 0, 0x3F800000)
  | 5 => some (w 0, w 1, w 2, w 3)
  | _ => none

/-! ### Engine and agent commands (10 R224 to R236; 11 R250 to R264; 15 R350 to R354; 18 R455) -/

/-- The cell of an operand of `n` bytes that lies in one local memory which the command may name: the sender's own through its
window, or through an alias that of a program core that holds its domain (06 R111, R112). -/
def operandCell (s : State) (c : Command) (a : Int) (n : Nat) : Option Nat :=
  if 0xFFF0000000000 ≤ a ∧ a + n ≤ 0xFFF0000060000 then
    if c.sender.remote = false ∧ s.holdsSender c.sender = true then some (localKey c.sender.core (a.toNat - 0xFFF0000000000)) else none
  else if 0xFFE0000000000 ≤ a ∧ a < 0xFFE0020000000 then
    let k : CoreId := Fin.ofNat 512 ((a.toNat - 0xFFE0000000000) / 2 ^ 20)
    let o := (a.toNat - 0xFFE0000000000) % 2 ^ 20
    if o + n ≤ 0x60000 ∧ isReserved k = false ∧ s.holdsDomain k c.sender.domain = true then some (localKey k o) else none
  else none

/-- The operand that a word names: its address, the tag apart. -/
def operandAt (s : State) (c : Command) (w : Word) (n : Nat) : Option Nat := operandCell s c (w.toNat % 2 ^ 52 : Nat) n

/-- A command may name every byte of `h` rows of `n` bytes: they are paged, or of local memories as `operandCell` says. -/
def rowsNamed (s : State) (c : Command) (a p n h : Nat) : Prop :=
  ∀ y < h, a + y * p + n ≤ 0xFFE0000000000 ∨ (operandCell s c (a + y * p : Nat) n).isSome = true

/-- Two runs of cells are disjoint. -/
abbrev apart (a n b m : Nat) : Prop := a + n ≤ b ∨ b + m ≤ a

/-- A command ends with a status and VALUE after the local memories alone have changed. -/
def endsLocal (i : Instr) (c : Command) (s u : State) (status : Nat) (value : Word) : Prop :=
  exec i s = .next (u.endCommand c (status, value)) ∧ u = { s with lmem := u.lmem }

/-- The cells from `dst` hold what the cells from `src` held, and nothing else has changed. -/
def copied (s u : State) (src dst n : Nat) : Prop :=
  ∀ x, readByte u.lmem x = if dst ≤ x ∧ x < dst + n then readByte s.lmem (src + (x - dst)) else readByte s.lmem x

/-- The command has no reserved word set and comes from this package. -/
abbrev plainCommand (c : Command) (free : List Word) : Prop := c.sender.remote = false ∧ free.all (fun w => w == 0) = true

/-! ### The rasteriser, the mesh distributor, the blend unit and the splat unit (10 R224 to R236; 11 R250 to R264) -/

/-- The designator of ring `n` of a core: its column, and its row (06 R124). -/
def designatorOf (n : Nat) (k : CoreId) : Word := BitVec.ofNat 64 (n + k.val % 32 * 2 ^ 8 + k.val / 32 * 2 ^ 16)

/-- Ring `n` of a core serves a command: its number is 4 to 7 and a launch of the command's domain holds the core. -/
abbrev ringServes (s : State) (c : Command) (n : Nat) (k : CoreId) : Prop :=
  4 ≤ n ∧ n < 8 ∧ s.holdsDomain k c.sender.domain = true

/-- Ring `n` of a core. -/
def ringOn (s : State) (k : CoreId) (n : Nat) : Ring := (s.coreAt k).rings[(Fin.ofNat 8 n)]

/-- The cell of slot `i` of a ring of a core. -/
def slotCell (k : CoreId) (r : Ring) (i : Nat) : Nat := localKey k (r.base + i * 2 ^ r.szlog)

/-- A ring as its descriptor writes leave it and its users keep it: indices below the slots, no slot reserved (06 R122). -/
abbrev ringSound (r : Ring) : Prop :=
  6 ≤ r.szlog ∧ r.base + 2 ^ r.szlog * 2 ^ r.cntlog ≤ 0x60000 ∧ r.rdidx < 2 ^ r.cntlog ∧ r.wridx < 2 ^ r.cntlog ∧
    r.filled + r.free ≤ 2 ^ r.cntlog ∧ r.res = []

/-- A command stays at the head of its queue, started, and goes on later. -/
def commandWaits (s t : State) (c : Command) : Prop :=
  queueOf t c.die c.inst = queueOf s c.die c.inst ∧ ((t.dieAt c.die).agents[c.inst]).started = true ∧
    .agent c.die c.inst ∈ t.agenda

/-- The command has not started. -/
abbrev atStart (s : State) (c : Command) : Prop := ((s.dieAt c.die).agents[c.inst]).started = false

/-- Element `e` of a fragment record's coverage: its block and bit (10 R228, R229). -/
def recordCovers (rcd px py : Nat) : Bool :=
  rcd % 2 ^ 16 == px / 4 && rcd / 2 ^ 16 % 2 ^ 16 == py / 4 && (rcd / 2 ^ 32).testBit (4 * (py % 4) + px % 4) &&
    rcd / 2 ^ 32 % 2 ^ 32 < 2 ^ 16

/-- Little-endian words as one number. -/
def wordsOf : List Nat → Nat
  | [] => 0
  | x :: xs => x % 2 ^ 32 + 2 ^ 32 * wordsOf xs

/-- Little-endian words of 8 bytes as one number. -/
def dwordsOf : List Nat → Nat
  | [] => 0
  | x :: xs => x % 2 ^ 64 + 2 ^ 64 * dwordsOf xs

/-- What SBLEND and SBWD read, in one local memory each: the range table at `tab`, the list at `lst`, the records at `rcd`. -/
structure SplatOperands where
  tab : Nat
  lst : Nat
  rcd : Nat

/-- WIDTH of the range table (11 R258). -/
def SplatOperands.width (o : SplatOperands) (s : State) : Nat := readN s.lmem o.tab 4
/-- HEIGHT of the range table. -/
def SplatOperands.height (o : SplatOperands) (s : State) : Nat := readN s.lmem (o.tab + 4) 4
/-- Tiles of a side of `w` pixels. -/
def tilesAcross (w : Nat) : Nat := (w + 15) / 16
/-- Tiles of the image. -/
def SplatOperands.tiles (o : SplatOperands) (s : State) : Nat := tilesAcross (o.width s) * tilesAcross (o.height s)
/-- Start of the range of tile `i`. -/
def SplatOperands.first (o : SplatOperands) (s : State) (i : Nat) : Nat := readN s.lmem (o.tab + 16 + 8 * i) 4
/-- End of the range of tile `i`. -/
def SplatOperands.last (o : SplatOperands) (s : State) (i : Nat) : Nat := readN s.lmem (o.tab + 20 + 8 * i) 4
/-- The projected record of list position `j`. -/
def SplatOperands.splat (o : SplatOperands) (s : State) (j : Nat) : Nat :=
  readN s.lmem (o.rcd + 48 * readN s.lmem (o.lst + 4 * j) 4) 48
/-- The projected records of tile `i`. -/
def SplatOperands.splats (o : SplatOperands) (s : State) (i : Nat) : List Nat :=
  (List.range' (o.first s i) (o.last s i - o.first s i)).map (o.splat s)

/-- The tables that SBLEND and SBWD read lie in local memory, with room for `top` list entries and `room` bytes of records, are
as 11 R251 and R258 have them, and are apart from `n` cells at `out`. -/
abbrev splatTables (s : State) (c : Command) (o : SplatOperands) (top room : Nat) : Prop :=
  1 ≤ o.width s ∧ o.width s ≤ 4096 ∧ 1 ≤ o.height s ∧ o.height s ≤ 4096 ∧ readN s.lmem (o.tab + 8) 8 = 0 ∧
    c.msg.w2.toNat % 8 = 0 ∧ c.msg.w3.toNat % 4 = 0 ∧ c.msg.w4.toNat % 16 = 0 ∧
    operandAt s c c.msg.w2 (16 + 8 * o.tiles s) = some o.tab ∧ operandAt s c c.msg.w3 (4 * top) = some o.lst ∧
    operandAt s c c.msg.w4 room = some o.rcd ∧ [c.msg.w2, c.msg.w3, c.msg.w4].all pointerOk = true ∧
    ∀ i < o.tiles s, o.first s i ≤ o.last s i ∧ o.last s i ≤ top ∧
      ∀ j, o.first s i ≤ j → j < o.last s i → 48 * (readN s.lmem (o.lst + 4 * j) 4 + 1) ≤ room

/-- A destination is apart from the tables. -/
abbrev apartFromTables (s : State) (o : SplatOperands) (top room out n : Nat) : Prop :=
  apart o.tab (16 + 8 * o.tiles s) out n ∧ apart o.lst (4 * top) out n ∧ apart o.rcd room out n

/-! ### Caches and the Flue (01 R16 to R18; 06 R129; 07 R146, R154) -/

/-- A memory after the dirty bytes of a line have been merged at its physical address, and nothing else (06 R129). -/
def merged (m m' : List Host.Cell) (ln : L2Line) : Prop :=
  ∀ x, readByte m' x = if ln.pa ≤ x ∧ ln.dirty.testBit (x - ln.pa) = true then lineByte ln (x - ln.pa) else readByte m x

/-- A line of a die's L2 is listed once by its address, and its masks lie within its grain. -/
abbrev lineSound (s : State) (d : DieId) (ln : L2Line) : Prop :=
  ln ∈ (s.dieAt d).l2 ∧ ln.size ≤ 512 ∧ ln.dirty < 2 ^ ln.size ∧ memoryWf s.mem = true

/-- The line is clean in its L2, with its dirty bytes valid; no other line has changed (07 R146). -/
def lineCleaned (s t : State) (d : DieId) (ln : L2Line) : Prop :=
  { ln with valid := ln.valid ||| ln.dirty, dirty := 0, writers := [] } ∈ (t.dieAt d).l2 ∧
    (∀ o : L2Line, o.va ≠ ln.va → (o ∈ (t.dieAt d).l2 ↔ o ∈ (s.dieAt d).l2)) ∧
    ∀ e, e ≠ d → (t.dieAt e).l2 = (s.dieAt e).l2

/-- The result of a turn that runs `o` for a domain at a die: what `o` answers; but where flits of the domain stand against
this window's allowance already and those that `o` sends exceed it, the state in which the sender stalls (01 R18). -/
def runsWithin (s : State) (d : DieId) (domain : BitVec 16) (stalled : State) (o r : Out) : Prop :=
  let used := fun (x : State) => (x.dieAt d).usedFlits domain.toNat
  (∀ t lim, o = .next t → s.injectLimit d domain.toNat = some lim → used s ≠ 0 → used s < used t → lim < used t →
    r = .next stalled) ∧
  (∀ t, o = .next t → (∀ lim, s.injectLimit d domain.toNat = some lim → used s = 0 ∨ used t ≤ used s ∨ used t ≤ lim) →
    r = .next t) ∧
  ((∀ t, o ≠ .next t) → r = o)

/-- Packet `p` waits for the link that packet `r` waits for, in its buffer behind no other of its virtual channel (01 R16). -/
abbrev contends (s : State) (r p : Packet) : Prop :=
  p.at_ = r.at_ ∧ s.nextHop p.at_ p.dst = s.nextHop r.at_ r.dst ∧
    s.flue.find? (fun o => o.at_ == p.at_ && (o.src == p.src && o.dst == p.dst && o.chan == p.chan)) = some p

/-- The age of a packet at a cycle: one more for each 256 cycles since its wait began or was last counted (01 R17). -/
abbrev ageNow (cycle : Nat) (p : Packet) : Nat := min (p.age + (cycle - p.since) / 256) 1023

/-- Packet `a` wins against packet `b`: it is older; or from the lower ring position; or from the lower core (01 R17). -/
abbrev winsOver (code cycle : Nat) (a b : Packet) : Prop :=
  ageNow cycle b < ageNow cycle a ∨ ageNow cycle a = ageNow cycle b ∧ (ringPos code a.src.val < ringPos code b.src.val ∨ a.src = b.src ∧ a.core.val < b.core.val)

/-! ### Rounding (05 R83 to R92) -/

/-- The floating-point types of 16 bits and more, with their exponent and fraction bits (05 R85). -/
def floatTypes : List (Nat × Nat × Nat) := [(8, 5, 10), (9, 8, 7), (10, 8, 23), (11, 11, 52)]

/-- The magnitude that an encoding gives without its sign bit, as if exponents had no upper end: 0.F or 1.F times a power of two
(05 R85). -/
def magnitude (e f n : Nat) : ℚ :=
  let bias : Int := 2 ^ (e - 1) - 1
  if n < 2 ^ f then n * (2 : ℚ) ^ (1 - bias - f : Int)
  else ((2 ^ f + n % 2 ^ f : Nat) : ℚ) * (2 : ℚ) ^ ((n / 2 ^ f : Nat) - bias - f : Int)

/-- The sign of an encoding. -/
def signOf (e f v : Nat) : Bool := v / 2 ^ (e + f) % 2 == 1

/-- The value of an operand that is neither an infinity nor a NaN; FTZ reads a subnormal one as zero (05 R85, R90). -/
def finiteValue (e f : Nat) (ftz : Bool) (v : Nat) : Option ℚ :=
  let n := v % 2 ^ (e + f)
  if (2 ^ e - 1) * 2 ^ f ≤ n then none
  else
    let m := if ftz && decide (n < 2 ^ f) then 0 else magnitude e f n
    some (if signOf e f v then -m else m)

/-- Of two neighbours, the one greater in magnitude is the result in a mode (05 R88). `side c` compares `c` with the exact
magnitude, and `even` says that the lesser neighbour ends in an even bit. -/
def takesUpper (mode : Nat) (neg even : Bool) (side : ℚ → Ordering) (lo hi : ℚ) : Bool :=
  side lo != .eq &&
    match mode with
    | 0 => side ((lo + hi) / 2) == .lt || (side ((lo + hi) / 2) == .eq && !even)
    | 1 => false
    | 2 => neg
    | 3 => !neg
    | _ => side ((lo + hi) / 2) != .gt

/-- A result is the exact value, of this sign and of the non-zero magnitude that `side` compares with, as 05 R88 to R90 round
and flag it: the representable neighbour of the mode, R88's overflow, R90's flush; NX 1, UF 2, OF 4. -/
def Rounded (e f mode : Nat) (ftz neg : Bool) (side : ℚ → Ordering) (r : FRes) : Prop :=
  let sign := if neg then 2 ^ (e + f) else 0
  let greatest := (2 ^ e - 1) * 2 ^ f - 1
  let least := magnitude e f (2 ^ f)
  let under := least - least / 2 ^ (f + 1)
  let tiny := side least == .gt && (side under == .gt || !takesUpper mode neg false side under least)
  ∃ n, side (magnitude e f n) ≠ .gt ∧ side (magnitude e f (n + 1)) = .gt ∧
    let m := if takesUpper mode neg (n % 2 == 0) side (magnitude e f n) (magnitude e f (n + 1)) then n + 1 else n
    r = if tiny && ftz then ⟨sign, 3⟩
      else if greatest < m then
        ⟨sign + (if mode == 1 || (mode == 2 && !neg) || (mode == 3 && neg) then greatest else greatest + 1), 5⟩
      else ⟨sign + m, if side (magnitude e f n) == .eq then 0 else if tiny then 3 else 1⟩

/-- The same of a rational value, or of a zero with the sign given. -/
def RoundedValue (e f mode : Nat) (ftz zeroSign : Bool) (x : ℚ) (r : FRes) : Prop :=
  if x = 0 then r = ⟨if zeroSign then 2 ^ (e + f) else 0, 0⟩
  else Rounded e f mode ftz (decide (x < 0)) (fun c => cmp c |x|) r

/-- The sign of a sum that is zero: the operands' common sign, or minus only when rounding toward -inf (IEEE 754-2019, 6.3). -/
def zeroSumSign (mode : Nat) (a b : Bool) : Bool := if a == b then a else mode == 2

/-- The results of addition, subtraction, multiplication, fused multiply-add, division and square root on finite operands are
the exact ones rounded (05 R88 to R90). -/
def ArithmeticRounds : Prop :=
  ∀ (ty e f mode a b c : Nat) (ftz : Bool) (x y z : ℚ), (ty, e, f) ∈ floatTypes → mode ≤ 4 →
    finiteValue e f ftz a = some x → finiteValue e f ftz b = some y → finiteValue e f ftz c = some z →
    let k := fmtOf ty
    let sa := signOf e f a
    let sb := signOf e f b
    RoundedValue e f mode ftz (zeroSumSign mode sa sb) (x + y) (k.add mode ftz a b) ∧
    RoundedValue e f mode ftz (zeroSumSign mode sa (!sb)) (x - y) (k.sub mode ftz a b) ∧
    RoundedValue e f mode ftz (sa ^^ sb) (x * y) (k.mul mode ftz a b) ∧
    RoundedValue e f mode ftz (zeroSumSign mode (sa ^^ sb) (signOf e f c)) (x * y + z) (k.fma mode ftz a b c) ∧
    (y ≠ 0 → RoundedValue e f mode ftz (sa ^^ sb) (x / y) (k.div mode ftz a b)) ∧
    (y = 0 → k.div mode ftz a b =
      if x = 0 then ⟨k.nan, 16⟩ else ⟨(if sa ^^ sb then 2 ^ (e + f) else 0) + (2 ^ e - 1) * 2 ^ f, 8⟩) ∧
    (0 < x → Rounded e f mode ftz false (fun q => cmp (q ^ 2) x) (k.sqrt mode ftz a)) ∧
    (x < 0 → k.sqrt mode ftz a = ⟨k.nan, 16⟩) ∧
    (x = 0 → k.sqrt mode ftz a = ⟨if sa then 2 ^ (e + f) else 0, 0⟩)

/-- Bits and signedness of an integer type: codes 0 to 7 (05 R83). -/
def integerBits (ty : Nat) : Nat := 8 * 2 ^ (ty / 2)

/-- The value of an operand of an integer type, the even codes signed (05 R83). -/
def integerValue (ty v : Nat) : Int :=
  let w := integerBits ty
  let u := v % 2 ^ w
  if ty % 2 = 0 ∧ 2 ^ (w - 1) ≤ u then (u : Int) - 2 ^ w else u

/-- The least and the greatest value of an integer type (05 R83). -/
def integerRange (ty : Nat) : Int × Int :=
  let w := integerBits ty
  if ty % 2 = 0 then (-2 ^ (w - 1), 2 ^ (w - 1) - 1) else (0, 2 ^ w - 1)

/-- An integer's encoding in a type. -/
def integerCode (ty : Nat) (i : Int) : Nat := (i % 2 ^ integerBits ty).toNat

/-- A value rounded to an integer in a mode (05 R88, R92). -/
def roundedInteger (mode : Nat) (x : ℚ) : Int :=
  let n := ⌊|x|⌋
  let m := if takesUpper mode (decide (x < 0)) (n % 2 == 0) (fun c => cmp c |x|) n (n + 1) then n + 1 else n
  if x < 0 then -m else m

/-- Conversions of finite values give the exact source value rounded, saturated or extended (05 R92); NV 16. Two integer types
of one width are left out: there the model's choice stands (log 48). -/
def ConversionsRound : Prop :=
  ∀ (mode v : Nat) (ftz : Bool), mode ≤ 4 →
    (∀ (t u e f e' f' : Nat) (x : ℚ), (t, e, f) ∈ floatTypes → (u, e', f') ∈ floatTypes → finiteValue e' f' ftz v = some x →
      RoundedValue e f mode ftz (signOf e' f' v) x (convert t u mode ftz v)) ∧
    (∀ t u e f : Nat, (t, e, f) ∈ floatTypes → u ≤ 7 →
      RoundedValue e f mode ftz false (integerValue u v) (convert t u mode ftz v)) ∧
    (∀ (t u e f : Nat) (x : ℚ), t ≤ 7 → (u, e, f) ∈ floatTypes → finiteValue e f ftz v = some x →
      let i := roundedInteger mode x
      let lim := integerRange t
      convert t u mode ftz v =
        if i < lim.1 then ⟨integerCode t lim.1, 16⟩
        else if lim.2 < i then ⟨integerCode t lim.2, 16⟩
        else ⟨integerCode t i, if (i : ℚ) = x then 0 else 1⟩) ∧
    (∀ t u : Nat, t ≤ 7 → u ≤ 7 → integerBits t ≠ integerBits u →
      let i := integerValue u v
      let lim := integerRange t
      convert t u mode ftz v =
        ⟨integerCode t (if integerBits u < integerBits t then i else max lim.1 (min lim.2 i)), 0⟩)

/-! ### Host rings and register blocks (01 R9, R10; 06 R133; 12 R269 to R271, R278; 13 R287; 14 R310, R318, R319) -/

/-- Only one host ring has changed, to `r`; a new error state is reported, and a ring with a slot to consume gets its turn. -/
def onlyHostRing (s t : State) (n : Fin 16) (r : HostRing) : Prop :=
  t = { s with rings := s.rings.set n r, notes := t.notes, agenda := t.agenda } ∧
    t.notes = s.notes ++ (if r.err = true ∧ s.rings[n].err = false then [.ringError n.val r.ecode] else []) ∧
    t.agenda = s.agenda ++ (if r.en = true ∧ r.err = false ∧ r.head ≠ r.tail then [.event (.hostRingConsume n)] else [])

/-- Bits `hi` to `lo` of a value, in place. -/
def keptBits (v hi lo : Nat) : Nat := v % 2 ^ (hi + 1) / 2 ^ lo * 2 ^ lo

/-- What the register of a die's firmware block at `off` reads after a write of `v` to it, when it read `old`; none where the
tables list no register (06 R133; 08 R174; 13 R287; 14 R318). -/
def fwAfter (f : FwRegs) (off old v : Nat) : Option Nat :=
  match off with
  | 0x000 => some (keptBits v 51 14)
  | 0x008 => some (if (f.nqtail - BitVec.ofNat 32 v).toNat ≤ 1024 then v % 2 ^ 32 else old)
  | 0x010 => some old
  | 0x018 => some ((if f.ovf = true ∧ v.testBit 63 = false then 2 ^ 63 else 0) + v % 2 ^ 32)
  | 0x020 => some (v % 2 ^ 16)
  | 0x028 => some (keptBits v 51 4)
  | 0x030 => some (v % 2 ^ 16)
  | 0x038 => some (v % 2 ^ 32)
  | 0x040 => some (keptBits v 51 3)
  | 0x048 => some (keptBits v 51 3)
  | 0x050 => some (keptBits v 51 13)
  | 0x058 => some (keptBits v 63 63 + v % 64)
  | 0x060 => some (keptBits v 51 4)
  | 0x068 => some (v % 2 ^ 16)
  | _ => none

/-- The same for the policy and host registers of the Bellows block, VDMAP apart (12 R278; 13 R305; 14 R319). -/
def bellowsAfter (off old v : Nat) : Option Nat :=
  match off with
  | 0x000 => some (v % 64)
  | 0x008 => some (v % 2 ^ 32)
  | 0x010 => some (v % 2 ^ 32)
  | 0x018 => some (v % 2 ^ 52)
  | 0x020 => some (v % 2 ^ 16)
  | 0x028 => some old
  | 0x030 => some (keptBits v 51 12)
  | 0x038 => some (keptBits v 47 12)
  | 0x040 => some (keptBits v 63 63 + keptBits v 51 16)
  | 0x048 => some (v % 2 ^ 16)
  | 0x050 => some (v % 2 ^ 19)
  | 0x058 => some (v % 2 ^ 19)
  | 0x068 => some (v % 2 ^ 32)
  | 0x070 => some (v % 2 ^ 32)
  | _ => none

/-! ### The Bellows (12 R265 to R284; 13 R303 to R307) -/

/-- The dependence word `w` satisfies a record's comparison with its value (12 R275). -/
def dependenceHolds (r : Record) (w : Word) : Prop :=
  match r.depCmp with
  | 0 => w = r.depVal
  | 1 => w ≠ r.depVal
  | 2 => r.depVal.toNat ≤ w.toNat
  | 3 => w.toNat < r.depVal.toNat
  | 4 => r.depVal.toInt ≤ w.toInt
  | _ => w.toInt < r.depVal.toInt

/-- No two records of the pending store have one arrival, and the next arrival is new. -/
def arrivalsSound (s : State) : Prop :=
  (s.launches.map (fun l => l.arrival)).Nodup ∧ ∀ l ∈ s.launches, l.arrival < s.nextArrival

/-- The record of launch `a` is eligible since cycle `at_`: all its groups wait for a place, and selection follows (12 R277). -/
def nowEligible (t : State) (a : Nat) (r : Record) (at_ : Nat) : Prop :=
  (∃ l, t.launchAt a = some l ∧ l.record = r ∧ l.eligibleAt = some at_ ∧ ∀ g ∈ l.groups, g.waitFrom = at_) ∧
    .event .launchSelection ∈ t.agenda

/-- A record that waits for a place (12 R277). -/
def waitsForPlace (l : Launch) : Prop := l.eligibleAt.isSome = true ∧ l.waitingGroups ≠ []

/-- A control context as the Bellows starts it (02 R25; 12 R280). -/
def controlStarted (s : State) (r : Record) (c : CoreId) (x : Ctx) : Prop :=
  x.status = .live ∧ x.pc = r.entry ∧ x.mode = .program ∧ x.domain = r.domain ∧ x.prio = r.prio ∧ x.vl = 0 ∧ x.fcsr = 0 ∧
    x.s = ((Vector.replicate 64 (0 : Word)).set 2 (BitVec.ofNat 64 (0xFFF0000000000 + r.localBytes))).set 4 r.args ∧
    x.v = Vector.replicate 48 0 ∧ x.kstack = [] ∧ x.trapvec = (s.dieAt (dieOf c)).fw.svec ∧ x.region = none

/-- The floor of a domain: a byte of the firmware's table, or 0 (12 R278). -/
def floorByte (s : State) (d : BitVec 16) : Nat :=
  if d.toNat < s.bregs.flcnt then readN s.mem (s.bregs.flbase + d.toNat) 1 else 0

/-- A domain is below its floor over the last 4,096 samples; a sample that is not listed is zero (12 R278; log 25). -/
def underFloor (s : State) (d : BitVec 16) : Prop :=
  256 * (((s.occupancy.find? (fun e => e.1 == d.toNat)).map (fun e => e.2)).getD []).sum < floorByte s d * 504 * 4096

/-- A group waits for a place: it has had none yet, or it is saved (12 R277, R281). -/
def groupWaits (g : Group) : Prop := g.state = .unplaced ∨ ∃ im, g.state = .saved im

/-- Record `rcd` may pre-empt group `gi` of launch `l`, together with the launch's others when it has GANG = 1 (12 R281). -/
def isCandidate (s : State) (rcd l : Launch) (gi : Nat) : Prop :=
  let ripe := fun (g : Group) => ∃ since, g.state = .running since ∧ since + s.bregs.minrun ≤ s.cycle
  (∃ g, l.groups[gi]? = some g ∧ ripe g) ∧ (l.record.gang = true → ∀ g ∈ l.groups, g.stands = true → ripe g) ∧
    ¬ underFloor s l.record.domain ∧
    (l.record.prio + s.bregs.pthr ≤ s.effective rcd ∨ s.effective rcd = 63 ∧ underFloor s rcd.record.domain)

/-- When a running group started, or the last of the groups that are pre-empted with it. -/
def lastStart (l : Launch) (gi : Nat) : Nat :=
  let start := fun (g : Group) => match g.state with
    | .running since => since
    | _ => 0
  if l.record.gang then l.groups.foldl (fun m g => max m (start g)) 0 else ((l.groups[gi]?).map start).getD 0

/-- Launches with groups of theirs, as pairs. -/
def pairsOf (us : List (Nat × List Nat)) : List (Nat × Nat) := us.flatMap (fun u => u.2.map (fun gi => (u.1, gi)))

/-- Every candidate against record `rcd`, in increasing PRIO, then latest start first; the groups of a launch with GANG = 1 stand
together (12 R281). -/
def candidateOrder (s : State) (rcd : Launch) (us : List (Nat × List Nat)) : Prop :=
  (∀ u ∈ us, ∃ l, s.launchAt u.1 = some l ∧ u.2 ≠ [] ∧ (∀ gi ∈ u.2, isCandidate s rcd l gi) ∧
    (l.record.gang = true → ∀ gi, isCandidate s rcd l gi → gi ∈ u.2) ∧ (l.record.gang = false → u.2.length = 1)) ∧
  (∀ a l gi, s.launchAt a = some l → isCandidate s rcd l gi → (a, gi) ∈ pairsOf us) ∧ (pairsOf us).Nodup ∧
  us.Pairwise (fun u v => ∀ k l gi hi, s.launchAt u.1 = some k → s.launchAt v.1 = some l → gi ∈ u.2 → hi ∈ v.2 →
    k.record.prio < l.record.prio ∨ k.record.prio = l.record.prio ∧ lastStart l hi ≤ lastStart k gi)

/-- Once some groups are saved, as far as the pool can hold them, record `rcd` fits (12 R281; 13 R305). -/
def fitsAfter (s : State) (rcd : Launch) (us : List (Nat × List Nat)) : Prop :=
  ∃ u gi gs v, (pairsOf us).foldl (fun t q => t.bind (fun x => x.supposeSaved q.1 q.2)) (some s) = some u ∧
    State.placeGroups rcd.arrival (s.effective rcd) rcd.record.gang rcd.waitingGroups u = some (gi :: gs, v)

/-- What a context becomes when it is asked to stop: one with PNOTE = 1 gets notice, and one within an instruction that
completes first goes on (02 R39; 13 R304, R307). -/
def asked (cycle : Nat) (x : Ctx) : Ctx :=
  if x.stopped = true ∨ x.notice ≠ none ∨ x.vlcapTrap ≠ none then x
  else if x.pnote = true then { x with notice := some cycle }
  else if x.completesFirst = true then x
  else { x with stopped := true }

/-- The image of a context at an address of memory (13 R306): `phases` are the barriers of its own HELPER instance. -/
def contextSaved (m : List Host.Cell) (base : Nat) (x : Ctx) (phases : Nat) : Prop :=
  let w := fun (i : Nat) => readN m (base + 8 * i) 8
  let v := x.vlcap
  w 0 = v ∧ w 1 = x.pc.toNat ∧
    w 2 = (modeCode x.mode).toNat + (if x.status = .live then 0 else 4) + (if x.event then 8 else 0) + (if x.hopped.isSome then 16 else 0) ∧
    w 3 = x.vl % 2 ^ 64 ∧ w 4 = x.vstart % 2 ^ 64 ∧ w 5 = x.fcsr.toNat ∧ w 6 = x.scbmode.toNat ∧ w 7 = x.kstack.length ∧
    w 8 = x.astate.word.toNat ∧ w 9 = 256 * x.tcause.toNat + x.acode.toNat ∧ w 10 = x.hopctl.toNat ∧
    w 11 = x.mtm.toNat ∧ w 12 = x.mtn.toNat ∧ w 13 = x.mtk.toNat ∧ w 14 = x.mstat.word.toNat ∧
    w 15 = (if x.mkvalid then 2 ^ 63 else 0) + x.mkpos.toNat ∧ w 16 = x.mlease.word.toNat ∧
    w 17 = x.trapcause.toNat ∧ w 18 = x.trappc.toNat ∧ w 19 = x.trapval.toNat ∧ w 20 = x.trapvec.toNat ∧ w 21 = x.trapscratch.toNat ∧
    w 22 = x.arrived.toNat ∧ w 23 = x.myph.toNat ∧ w 24 = phases % 2 ^ 64 ∧ readN m (base + 0xC8) 0x38 = 0 ∧
    w 32 = 0 ∧ (∀ i : Fin 64, i.val ≠ 0 → w (32 + i.val) = x.s[i].toNat) ∧
    (∀ j : Fin 48, readN m (base + 0x300 + j.val) 1 = x.vtag[j].toNat) ∧ readN m (base + 0x330) 0xD0 = 0 ∧
    (∀ k : Fin 12, readN m (base + 0x400 + v / 32 * k.val) (v / 32) = x.k[k].toNat % 2 ^ (v / 4)) ∧
    (∀ j : Fin 48, readN m (base + 0x400 + 3 * v / 8 + v / 8 * j.val) (v / 8) = x.v[j].toNat % 2 ^ v) ∧
    ∀ i p, x.kstack[i]? = some p →
      readN m (base + 0x400 + 51 * v / 8 + v / 16 * i) (v / 32) = p.1.toNat % 2 ^ (v / 4) ∧
      readN m (base + 0x400 + 51 * v / 8 + v / 16 * i + v / 32) (v / 32) = p.2.toNat % 2 ^ (v / 4)

/-- The words and the slot bytes of ring cb `n` in a core image (13 R305). -/
def ringSaved (m : List Host.Cell) (base n : Nat) (r : Ring) : Prop :=
  (∀ i v, [r.base, r.szlog, r.cntlog, r.filled, r.free, r.rdidx, r.wridx, r.res.length + 2 ^ 32 * r.taken][i]? = some v →
    readN m (base + 0x100 + 64 * (n - 4) + 8 * i) 8 = v % 2 ^ 64) ∧
  let slot := fun (j : Nat) => (r.rdidx + r.filled + j) % 2 ^ r.cntlog
  let byte := fun (i : Nat) => readN m (base + 0x1000 + 0x400 * (n - 4) + i) 1
  (∀ j q, r.res[j]? = some q → j < 2 ^ r.cntlog → slot j < 1024 →
    byte (slot j) = match q.owner with
      | some x => 32 + (if q.published then 16 else 0) + x.val
      | none => 0) ∧
  ∀ i < 1024, (∀ j < r.res.length, slot j ≠ i) → byte i = 0

/-- The image of core `c` of a group at an address of memory (13 R305); the barrier words are those of a launch of one group. -/
def coreSaved (s : State) (m : List Host.Cell) (base : Nat) (l : Launch) (gi : Nat) (g : Group) (c : CoreId) : Prop :=
  let w := fun (o : Nat) => readN m (base + o) 8
  let p := l.placement gi g c
  (∀ i : Nat, (w 0).testBit i = true ↔ ∃ x : CtxId, x.val = i ∧ i < 11 ∧ (s.ctxAt c x).active = true) ∧
  (∀ x : CtxId, x.val < 11 →
    let off := w (0x10 + 8 * x.val)
    if (s.ctxAt c x).active = true then
      off % 64 = 0 ∧ 0x2000 + l.record.localBytes ≤ off ∧
        contextSaved m (base + off) ((s.ctxAt c x).abortRegion 8 0) (s.helperPhases p c x)
    else off = 0) ∧
  (s.coreLeases c = [] → w 8 = 0) ∧ readN m (base + 0x68) 0x98 = 0 ∧ readN m (base + 0x400) 0xC00 = 0 ∧
  (∀ n, 4 ≤ n → n < 8 → ringSaved m base n (ringOn s c n)) ∧
  (∀ o < l.record.localBytes, readByte m (base + 0x2000 + o) = readByte s.lmem (localKey c o)) ∧
  (l.groups = [g] → p.covered = true → ∀ i lv, p.levels[i]? = some lv → lv.kind ≠ 1 → ∀ j < lv.nbar,
    let n := ((p.levels.take i).map (fun q => q.nbar)).sum + j
    let b := (s.dieAt (dieOf c)).barrier l.arrival (p.path.take (i + 1)) n
    w (0x200 + 8 * n) = (b.count + if b.phase then 2 ^ 32 else 0) % 2 ^ 64)

/-- Some context of a group's cores, the handler context apart, is live or waiting. -/
def groupActive (s : State) (g : Group) : Prop :=
  ∃ c ∈ g.rect.cores, ∃ x : CtxId, x.val < 11 ∧ (s.ctxAt c x).active = true

/-! ### The host, boot, scale-out and power (06 R130; 14 R309 to R324, R460) -/

/-- A host access has failed: counted, and reported to firmware (14 R311). -/
def hostAccessFailed (s t : State) (off : Nat) : Prop :=
  t.bregs = { s.bregs with hfault := min (s.bregs.hfault + 1) (2 ^ 32 - 1) } ∧ t.notes = s.notes ++ [.hostAccessFailed off] ∧
    t.cores = s.cores ∧ t.dies = s.dies ∧ s.sameBytes t

/-- The age of a scale-out packet now: counted in microseconds, 16 bits, saturating (14 R315). -/
def frameAge (s : State) (f : Frame) : Nat := min 65535 (f.age + (s.time / 1000 - f.born))

/-- A packet wins over another: the older, then the one from the lower package, then from the lower core (14 R315). -/
def frameWins (s : State) (f o : Frame) : Prop :=
  frameAge s o < frameAge s f ∨ frameAge s f = frameAge s o ∧ (f.src < o.src ∨ f.src = o.src ∧ f.core.val < o.core.val)

/-- The ports send every packet before those that it wins over. -/
def oldestFirst (s : State) : Prop := s.txFrames.Pairwise (fun f o => ¬ frameWins s o f)

/-- A line holds host memory at physical address `pa`. -/
def holdsHost (ln : L2Line) (pa : Nat) : Bool := Config.hostPhys ≤ ln.pa && ln.pa ≤ pa && pa < ln.pa + ln.size

/-- The core whose control context a die's firmware starts in, at local position (7, 7) (14 R460). -/
def firmwareCore (d : DieId) : CoreId := coreOf (8 * (d.val % 4) + 7) (8 * (d.val / 4) + 7)

/-- The image that the header in the staging SRAM describes (14 R320). -/
def stagedImage (s : State) : List Byte :=
  (List.range (min (Config.imageHeader s.boot.staging).length 0x800000)).map (readByte s.boot.staging)

/-- The first check of VERIFY and LOAD that an image fails, as its error code (14 R320). -/
def bootFailure (s : State) : Option Nat :=
  let h := Config.imageHeader s.boot.staging
  if shake256 h.publicKey ≠ Config.fusedKeyHash then some 1
  else if xmssVerify h.publicKey h.signature (stagedImage s) = false then some 2
  else if h.svn < s.boot.fusedSvn then some 3
  else if Config.loadOk (stagedImage s) = false then some 4
  else none

/-- The bytes of a little-endian number. -/
def bytesLE (v n : Nat) : List Byte := (List.range n).map (fun i => BitVec.ofNat 8 (v / 256 ^ i))

/-- THROTTLE is entered from RUN: the clock falls by 100 MHz, to no less than 1.2 GHz (14 R324; log 19). -/
def throttled (s t : State) : Prop :=
  if s.power = .run ∨ s.power = .throttle then t = { s with power := .throttle, clockMhz := max 1200 (s.clockMhz - 100) } else t = s

/-- The module trips, and the trip is reported (14 R324). -/
def tripped (s t : State) : Prop :=
  if s.power = .off ∨ s.power = .trip then t = s else t = { s with power := .trip, notes := s.notes ++ [.trip] }

/-- An instruction that has a word: a scalar-style, vector-style, mask or matrix instruction (03 R53, R54). -/
def hasWord (i : Instr) : Bool := (scalarCtl i).isSome || (vectorCtl i).isSome

/-- CSRs and the values that 03 R47 to R52 and the chapters it names give them at reset. -/
def resetCsrs : List (Nat × Word) :=
  [(0x000, 0), (0x001, 0), (0x002, 4096), (0x003, 4096), (0x004, 0), (0x005, 0), (0x006, 0), (0x030, 0), (0x031, 0), (0x040, 0),
   (0x041, 0), (0x042, 0), (0x043, 0), (0x044, 0), (0x046, 0), (0x050, 0), (0x051, 0), (0x060, 0), (0x100, 0), (0x101, 0), (0x102, 0),
   (0x103, 0), (0x104, 0)]

/-- Offsets of a die's register block, with reset values (06 R133; 08 R174; 13 R287; 14 R318). -/
def resetFw : List (Nat × Nat) :=
  [(0x000, 0), (0x008, 0), (0x010, 0), (0x018, 0), (0x020, 0), (0x028, 0), (0x030, 0), (0x038, 0), (0x040, 0), (0x048, 0), (0x050, 0),
   (0x058, 0), (0x060, 0), (0x068, 0)]

/-- Offsets of the Bellows register block, with reset values (12 R278; 13 R305; 14 R319). -/
def resetBellows : List (Nat × Nat) :=
  [(0x000, 8), (0x008, 2 ^ 20), (0x010, 2 ^ 16), (0x018, 0), (0x020, 0), (0x028, 0), (0x030, 0), (0x038, 0), (0x040, 0), (0x048, 0),
   (0x050, 0), (0x058, 0), (0x060, 0), (0x068, 0), (0x070, 0)]

end Sys2Proof.Claims

open Sys2Proof Sys2Proof.Machine Sys2Proof.Claims

/-- 15 R330, R349; 16 R358; 17 R391, R404, R405, R418, R426: the integer instructions write the values of their rules and
raise no flag. -/
def Obligations.IntegerResults : Prop := RowsComplete integerRow

/-- 15 R335, R342, R348; 16 R361, R373, R389, R390; 17 R400, R409, R413, R415, R420, R423; 18 R456. -/
def Obligations.BitResults : Prop := RowsComplete bitRow

/-- The floating-point instructions write the results of 05 R88 to R92 and raise their flags; and on finite operands each sum,
difference, product, fused product, quotient, square root and conversion is the exact value's representable neighbour in the
mode, with NX, UF and OF. -/
def Obligations.FloatResults : Prop := RowsComplete fpRow ∧ ArithmeticRounds ∧ ConversionsRound

/-- 03 R56: a scalar-style instruction with a false guard only moves to the next instruction, and its STALL applies. -/
def Obligations.FalseGuardSkips : Prop :=
  ∀ (i : Instr) (s : State) (ctl : SCtl) (g : Guard), scalarCtl i = some ctl → ctl.guard = some g →
    (bitAt (s.reg g.greg) g.gbit.toNat ^^ g.gn) = false → s.inRegion = false → readyToIssue s →
    s.ctx.mode.allows (leastMode i) = true →
    ∃ t, exec i s = .next t ∧ s.scalarDone t 0 0 0 ∧ t.ctx.nextIssue = t.cycle + ctl.stall.toNat

/-- 03 R59: an instruction that needs a higher mode takes the privileged-instruction trap, whatever its guard. -/
def Obligations.PrivilegeTraps : Prop :=
  ∀ (i : Instr) (s : State), s.ctx.mode.allows (leastMode i) = false → s.inRegion = false → s.inHandler = false →
    ∃ t, exec i s = .next t ∧ s.trapTaken t none 0x02 (encode i)

/-- 08 R184, R185: an open region aborts at an instruction that it refuses, which has no effect. 02 R29 and 08 R180: an
instruction that the handler context refuses ends the invocation with cause 0x01. -/
def Obligations.RefusedInstructions : Prop :=
  (∀ (i : Instr) (s : State) (code : BitVec 8), regionCode i = some code → s.inRegion = true → s.inHandler = false →
     readyToIssue s → s.ctx.mode.allows (leastMode i) = true → (∀ ctl, scalarCtl i = some ctl → guardPlain s ctl) →
     ∃ t, exec i s = .next t ∧ regionAborted s t code 0) ∧
  (∀ (i : Instr) (s : State), refusedInHandler i = true → s.inHandler = true → ((s.coreAt s.cur.1).inv).isSome = true →
     s.inRegion = false → readyToIssue s → (∀ ctl, scalarCtl i = some ctl → s.guardOpen ctl) →
     ∃ t, exec i s = .next t ∧ invocationEnded s t 0x01)

/-- 13 R289: what taking a trap does: it saves the cause, the pc and the value, and the machine goes on at the handler of the
next mode; inside an atomic region, the region aborts instead. -/
def Obligations.TrapEntry : Prop :=
  ∀ (s : State) (cause : BitVec 8) (value : Word) (elem : Option Nat),
    let t := s.takeTrap cause value elem
    (s.inRegion = false → s.inHandler = false →
      s.trapTaken t elem cause value ∧ (t.coreAt s.runCore).vqueue.any (fun e => e.ctx == s.cur) = false ∧
      (∀ p ∈ s.ctx.pend, p.ready ≤ t.cycle)) ∧
    (s.inRegion = true → regionAborted s t 7 cause)

/-- TRAP, ECALL, an unassigned word and a failing fetch take their traps in every mode (04 R74; 13 R291; 15 R340; 16 R359;
18 R429). ERET in a mode that TRAPCAUSE.PMODE does not exceed, to an aligned TRAPPC, restores the mode and the pc and leaves
every register; otherwise it traps (13 R291). -/
def Obligations.TrapsAndReturns : Prop :=
  (∀ s : State, s.inRegion = false → s.inHandler = false →
    (∀ f : SI, s.executes f.ctl [] none 0 →
      ∃ t, exec (.trap f) s = .next t ∧ s.trapTaken t none 0x11 (f.imm.signExtend 64)) ∧
    (∀ f : SI, s.executes f.ctl [] none 0 →
      ∃ t, exec (.ecall f) s = .next t ∧ s.trapTaken t none 0x10 (f.imm.signExtend 64)) ∧
    (∀ w : Word, ∃ t, exec (.unassignedOp w) s = .next t ∧ s.trapTaken t none 0x01 w) ∧
    (∀ (c : BitVec 8) (a : Word), c ≠ 0x08 → ∃ t, exec (.instructionFetch c a) s = .next t ∧ s.trapTaken t none c a)) ∧
  (∀ (f : SR) (s : State), s.executes f.ctl [] none 0 → s.inHandler = false → s.ctx.mode ≠ .program →
    ∃ t, exec (.eret f) s = .next t ∧
      if modeCode s.ctx.mode < s.ctx.trapcause.extractLsb' 8 2 then s.trapTaken t none 0x02 (encode (.eret f))
      else if s.ctx.trappc.toNat % 8 ≠ 0 then s.trapTaken t none 0x04 s.ctx.trappc
      else
        s.sameBytes t ∧ t.ctx.mode = modeOf (s.ctx.trapcause.extractLsb' 8 2) ∧ t.ctx.pc = s.ctx.trappc ∧
        t.ctx.nextIssue ≤ max t.cycle (resultsReady s.ctx.pend) ∧ t.ctx.s = s.ctx.s ∧ t.ctx.v = s.ctx.v ∧ t.ctx.k = s.ctx.k ∧ t.ctx.vstart = s.ctx.vstart ∧
        t.ctx.kstack = s.ctx.kstack ∧ t.ctx.fcsr = s.ctx.fcsr ∧ t.ctx.trapcause = s.ctx.trapcause ∧
        t.ctx.trapval = s.ctx.trapval ∧ t.ctx.vl = s.ctx.vl ∧
        (t.ctx.stopped = true ↔ s.ctx.stopped = true ∨ s.ctx.notice.isSome = true ∧ s.ctx.noticed = true))

/-- BR, JAL, JR and SUBBR set the pc and their register, and JR to a misaligned target traps with no link;
PADD displaces a pointer, or takes the tag-overflow trap (17 R410). -/
def Obligations.JumpsAndPadd : Prop :=
  ((∀ (i : Instr) (s : State) (r : Jump), jumpRow s i = some r → s.executes r.ctl r.srcs r.dst 1 →
     ∃ t, exec i s = .next t ∧ s.scalarsTo t r.pc (r.dst.getD 0) r.value 0) ∧
   (∀ (f : SI) (s : State), s.executes f.ctl [f.sa] (some f.dst) 1 → s.inHandler = false →
     (s.reg f.sa + f.imm.signExtend 64).toNat % 8 ≠ 0 →
     ∃ t, exec (.jr f) s = .next t ∧ s.trapTaken t none 0x04 (s.reg f.sa + f.imm.signExtend 64))) ∧
  (∀ (s : State) (i : Instr) (r : Row) (disp : Int),
     (∃ f, i = .padd f ∧ r = ⟨f.ctl, [f.sa, f.sb], f.dst, 1, s.reg f.sa, 0⟩ ∧ disp = (s.reg f.sb).toInt) ∨
     (∃ f, i = .paddI f ∧ r = ⟨f.ctl, [f.sa], f.dst, 1, s.reg f.sa, 0⟩ ∧ disp = f.imm.toInt) →
     s.executes r.ctl r.srcs (some r.dst) 1 →
     let v : Int := (r.value.setWidth 52).toNat + disp
     ∃ t, exec i s = .next t ∧
       if 0 ≤ v ∧ v < 2 ^ 52 then s.scalarDone t r.dst (r.value.extractLsb' 52 12 ++ BitVec.ofInt 52 v) 0
       else s.inHandler = false → s.trapTaken t none 0x09 r.value)

/-- 02 R33, R35; 17 R422: SETVL grants the lesser of s[SA] and VLMAX / w, and clears VSTART; SETVLC grants the least of the
count, VLMAX / w and what is available, or waits at a high-water word that shows nothing; a bad pointer traps. -/
def Obligations.VectorLengths : Prop :=
  (∀ (f : SI) (s : State), (Instr.setvl f).wellFormed = true → s.executes f.ctl [f.sa] (some f.dst) 1 →
     let n := min (s.reg f.sa).toNat (min s.ctx.vlcap 4096 / WellFormed.width f.imm.toNat)
     ∃ t, exec (.setvl f) s = .next t ∧ s.onlyContext t ∧ s.sameBytes t ∧
       t.ctx.vl = n ∧ t.ctx.vstart = 0 ∧ t.ctx.s = regsAfter s.ctx.s f.dst (BitVec.ofNat 64 n) ∧
       (t.coreAt t.runCore).vqueue.any (fun e => e.ctx == s.cur) = false ∧
       ({ s.ctx with vl := n, vstart := 0 }).onlyScalars t.ctx ∧ t.ctx.fcsr = s.ctx.fcsr ∧ t.ctx.pc = s.ctx.pc + 8) ∧
  ((∀ (f : SQ) (s : State), s.executes f.ctl [f.sa, f.sb, f.sc] (some f.dst) 0 → s.inHandler = false →
     let avl := (s.reg f.sa).toNat
     let granted := fun (t : State) (n : Nat) =>
       ({ s.ctx with vl := n, vstart := 0 }).onlyScalars t.ctx ∧ t.ctx.s = regsAfter s.ctx.s f.dst (BitVec.ofNat 64 n) ∧
         t.ctx.fcsr = s.ctx.fcsr ∧ t.ctx.pc = s.ctx.pc + 8 ∧ othersKept s t ∧ s.sameBytes t
     (avl = 0 → ∃ t, exec (.setvlc f) s = .next t ∧ granted t 0) ∧
     (∀ c v, avl ≠ 0 → addressOf (s.reg f.sb) 0 8 = .error (c, v) →
       ∃ t, exec (.setvlc f) s = .next t ∧ s.trapTaken t none c v) ∧
     (∀ a o, avl ≠ 0 → addressOf (s.reg f.sb) 0 8 = .ok a → windowOffset a = some o →
       let avail := (BitVec.ofNat 64 (readN s.lmem (localCell s o) 8) - s.reg f.sc).toInt
       ∃ t, exec (.setvlc f) s = .next t ∧
         if avail ≤ 0 then
           t.ctx.status = .waiting (.highWater a (chainScope f.fn) (s.reg f.sc)) ∧ s.ctx.onlyScalars { t.ctx with status := s.ctx.status } ∧
           t.ctx.s = s.ctx.s ∧ t.ctx.pc = s.ctx.pc ∧ othersKept s t ∧ s.sameBytes t
         else granted t (min (min avl (min s.ctx.vlcap 4096 / WellFormed.width f.ty.toNat)) avail.toNat))) ∧
   (∀ (c : CoreId) (x : CtxId) (s : State) (a o : Nat) (scope taken : Word),
     (s.ctxAt c x).status = .waiting (.highWater a scope taken) → windowOffset a = some o →
     exec (.setvlcReread c x) s = .next (if 0 < (BitVec.ofNat 64 (readN s.lmem (localKey c o) 8) - taken).toInt then
       s.modCtxAt c x (fun y => { y with status := .live, waitFrom := s.cycle }) else s)))

/-- 15 R355: CSRR of a CSR that the mode may read writes its value; CYCLE, TIME and WSREF are those of the cycle of issue. -/
def Obligations.CsrReads : Prop :=
  ∀ (f : SI) (s : State), (Instr.csrr f).wellFormed = true → s.executes f.ctl [] (some f.dst) 2 →
    s.ctx.mode.allows (leastMode (.csrr f)) = true →
    ∃ t, exec (.csrr f) s = .next t ∧
      if isClockCsr f.imm.toNat then
        s.scalarDone t f.dst
          (if f.imm.toNat = 0x030 then BitVec.ofNat 64 (t.cycle - 1)
           else if f.imm.toNat = 0x031 then BitVec.ofNat 64 (s.advanceTo (t.cycle - 1)).time
           else
             let p := (t.cycle - 1) % 32768
             BitVec.ofNat 64 (if p < 32512 then 32512 - p else 2 ^ 16 + (32768 - p))) 0
      else s.scalarDone t f.dst (csrValue s f.imm.toNat) 0

/-- 15 R356 and 03 R52: CSRW of a value that the CSR accepts writes it; of a rejected value, it traps and leaves the CSR; a
read-only CSR stays; and a descriptor write empties its ring, or is rejected with a trap. -/
def Obligations.CsrWrites : Prop :=
  (∀ (f : SI) (s : State), (Instr.csrw f).wellFormed = true → s.executes f.ctl [f.sa] none 0 → s.inHandler = false →
     s.ctx.mode.allows (leastMode (.csrw f)) = true → isDescriptor s.ctx f.imm.toNat = false →
     ∃ t, exec (.csrw f) s = .next t ∧
       match csrWritten s.ctx f.imm.toNat (s.reg f.sa) with
       | some y => s.onlyContext t ∧ s.sameBytes t ∧ ({ y with pc := s.ctx.pc + 8 } : Ctx).sameBut t.ctx
       | none => s.trapTaken t none 0x01 (encode (.csrw f))) ∧
  (∀ (f : SI) (s : State), (Instr.csrw f).wellFormed = true → s.executes f.ctl [f.sa] none 0 → s.inHandler = false →
     isDescriptor s.ctx f.imm.toNat = true →
     let c : Fin 8 := Fin.ofNat 8 ((f.imm.toNat - 0x300) / 8)
     ∃ t, exec (.csrw f) s = .next t ∧
       match ringWritten ((s.coreAt s.runCore).rings[c]) (f.imm.toNat % 8) (s.reg f.sa).toNat with
       | some r =>
         (t.coreAt s.runCore).rings = (s.coreAt s.runCore).rings.set c r ∧
         (((s.coreAt s.runCore).rings[c]).senders = [] → s.sameOutside t ∧ s.sameBytes t) ∧
         t.ctx.s = s.ctx.s ∧ t.ctx.fcsr = s.ctx.fcsr ∧ t.ctx.pc = s.ctx.pc + 8 ∧
         ∀ k, k ≠ s.runCore → (t.coreAt k).rings = (s.coreAt k).rings
       | none => s.trapTaken t none 0x01 (encode (.csrw f)))

/-- 03 R62: in check mode a reader of an unready result, or a writer that would overtake one, takes the stall-underflow trap
with that register's number; in trust mode the register of a fixed-latency result keeps its old value until it is ready. -/
def Obligations.ScoreboardModes : Prop :=
  (∀ (i : Instr) (s : State) (r : Row), (integerRow s i = some r ∨ bitRow s i = some r) → i.wellFormed = true →
     s.inRegion = false → s.inHandler = false →
     ¬ s.noUnderflow ((r.ctl.guard.map (fun g => g.greg)).toList ++ r.srcs) (some r.dst) r.lam →
     let reads := (r.ctl.guard.map (fun g => g.greg)).toList ++ r.srcs
     let issue := max s.cycle s.ctx.nextIssue
     ∃ t d, exec i s = .next t ∧ s.trapTaken t none 0x0A (BitVec.setWidth 64 d) ∧ d ≠ 0 ∧
       (d ∈ reads ∧ issue < readyAt d s.ctx.pend ∨ d = r.dst ∧ r.lam ≠ 0 ∧ issue + r.lam < readyAt d s.ctx.pend)) ∧
  (∀ (i : Instr) (s : State) (r : Row), (integerRow s i = some r ∨ bitRow s i = some r) → i.wellFormed = true →
     r.lam ≠ 0 → s.inRegion = false → s.ctx.scbmode = 1 → s.ctx.pend = [] → s.guardOpen r.ctl →
     ∃ t, exec i s = .next t ∧ (1 < r.lam → t.rs r.dst = s.reg r.dst) ∧
       (t.advanceTo (t.cycle - 1 + r.lam)).rs r.dst = if r.dst = 0 then 0 else r.value)

/-- 15 R327; 05 R101; 06 R111, R116; 14 R314: loads and stores with a bad pointer, a misaligned address, a reserved region, a
register block outside firmware mode, or without the right, and a store to a page that the host owns, take their trap with
its value. -/
def Obligations.AccessTraps : Prop :=
  ∀ (s : State) (i : Instr) (f : SM), (i = .ld f ∨ i = .st f) → s.inRegion = false → s.inHandler = false →
    s.executes f.ctl (if i = .ld f then [f.base] else [f.base, f.ds]) (if i = .ld f then some f.ds else none) 0 →
    (∀ c v, addressOf (s.reg f.base) f.off.toInt (accessBytes f.sz) = .error (c, v) →
      ∃ t, exec i s = .next t ∧ s.trapTaken t none c v) ∧
    (∀ a, addressOf (s.reg f.base) f.off.toInt (accessBytes f.sz) = .ok a →
      ¬ mayReach s a (if i = .ld f then rightR else rightW) →
      (a < 0xFFE0000000000 → s.firstBad (s.tableRuns s.runDie s.ctx.domain) = none) →
      ∃ t, exec i s = .next t ∧ s.trapTaken t none 0x05 (BitVec.ofNat 64 a)) ∧
    (∀ a ln, i = .st f → addressOf (s.reg f.base) f.off.toInt (accessBytes f.sz) = .ok a → a < 0xFFE0000000000 →
      (s.plbCheck s.runCore s.ctx.domain a rightW).1 = true → (s.dieAt s.runDie).line a = some ln → ln.codec = 0 →
      ln.owner = true → ∃ t, exec i s = .next t ∧ s.trapTaken t none 0x06 (BitVec.ofNat 64 a))

/-- 06 R119: LD, ST, LDACQ and STREL at the local window read and write the home core's local memory; an acquire or a release
at CORE or DIE scope moves no other byte. -/
def Obligations.LocalAccesses : Prop :=
  ∀ (s : State) (f : SM) (a o : Nat), s.inRegion = false →
    addressOf (s.reg f.base) f.off.toInt (accessBytes f.sz) = .ok a → windowOffset a = some o →
    (s.executes f.ctl [f.base] (some f.ds) 0 →
      ∃ t, exec (.ld f) s = .next t ∧
        s.scalarDone t f.ds (loaded f.sz (readN s.lmem (localCell s o) (accessBytes f.sz))) 0) ∧
    (s.executes f.ctl [f.base, f.ds] none 0 →
      ∃ t, exec (.st f) s = .next t ∧ wroteBytes s.lmem t.lmem (localCell s o) (accessBytes f.sz) (s.reg f.ds).toNat ∧
        contextMovedOn s t ∧ ({ s with lmem := t.lmem }).onlyContext t) ∧
    (scopeOk (s.reg f.sc) = true → s.executes f.ctl [f.base, f.sc] (some f.ds) 0 →
      ∃ t, exec (.ldacq f) s = .next t ∧
        contextWrote s t f.ds (loaded f.sz (readN s.lmem (localCell s o) (accessBytes f.sz))) ∧ othersKept s t ∧
        s.sameBytes t ∧ (scopeKind (s.reg f.sc) ≠ 0 → (t.coreAt s.runCore).l1 = [])) ∧
    (scopeOk (s.reg f.sc) = true → s.systemWait (s.reg f.sc) = false → s.executes f.ctl [f.base, f.ds, f.sc] none 0 →
      ∃ t, exec (.strel f) s = .next t ∧ wroteBytes s.lmem t.lmem (localCell s o) (accessBytes f.sz) (s.reg f.ds).toNat ∧
        contextMovedOn s t ∧ othersKept s t ∧
        (scopeBeyond (s.reg f.sc) s.runDie = false → ({ s with lmem := t.lmem }).onlyContext t))

/-- 16 R387, R388: a load of paged memory that the core's L1 or the die's L2 holds returns the bytes held there, and an acquire
within the die then leaves L1 empty; no byte of memory changes. -/
def Obligations.PagedLoads : Prop :=
  ∀ (s : State) (f : SM) (a v : Nat), s.inRegion = false → a < 0xFFE0000000000 →
    addressOf (s.reg f.base) f.off.toInt (accessBytes f.sz) = .ok a →
    (s.plbCheck s.runCore s.ctx.domain a rightR).1 = true →
    (heldBytes s a (accessBytes f.sz) = some v → s.executes f.ctl [f.base] (some f.ds) 0 →
      ∃ t, exec (.ld f) s = .next t ∧ contextWrote s t f.ds (loaded f.sz v) ∧ othersKept s t ∧ s.sameBytes t) ∧
    (heldBytes (s.l1Clear s.runCore) a (accessBytes f.sz) = some v →
      scopeOk (s.reg f.sc) = true → scopeKind (s.reg f.sc) ≠ 0 → scopeBeyond (s.reg f.sc) s.runDie = false →
      s.executes f.ctl [f.base, f.sc] (some f.ds) 0 →
      ∃ t, exec (.ldacq f) s = .next t ∧ contextWrote s t f.ds (loaded f.sz v) ∧ othersKept s t ∧ s.sameBytes t ∧
        (t.coreAt s.runCore).l1 = [])

/-- 17 R424, R425; 06 R129: a store to paged memory whose grain the die's L2 holds writes the bytes at the home, or into the
die's copy as dirty bytes, and no other byte; a releasing store within the die does the same. -/
def Obligations.PagedStores : Prop :=
  ∀ (s : State) (i : Instr) (f : SM) (a : Nat) (where_ : Landing), s.inRegion = false → a < 0xFFE0000000000 →
    addressOf (s.reg f.base) f.off.toInt (accessBytes f.sz) = .ok a →
    (s.plbCheck s.runCore s.ctx.domain a rightW).1 = true → landing s a = some where_ →
    ((i = .st f ∧ s.executes f.ctl [f.base, f.ds] none 0) ∨
      (i = .strel f ∧ scopeOk (s.reg f.sc) = true ∧ scopeBeyond (s.reg f.sc) s.runDie = false ∧
        s.executes f.ctl [f.base, f.ds, f.sc] none 0)) →
    ∃ t, exec i s = .next t ∧ contextMovedOn s t ∧ othersKept s t ∧
      (∀ x, readByte t.lmem x = readByte s.lmem x ∧ readByte t.hob x = readByte s.hob x) ∧
      match where_ with
      | .home pa => wroteBytes s.mem t.mem pa (accessBytes f.sz) (s.reg f.ds).toNat
      | .copy ln =>
        (∀ x, readByte t.mem x = readByte s.mem x) ∧
        ∃ ln' ∈ (t.dieAt s.runDie).l2, copyStored ln ln' a (accessBytes f.sz) (s.reg f.ds).toNat

/-- 07 R143: a load by the context that has just stored, of the same bytes, returns what it stored, wherever the grain is
held; `linesOk` is the invariant that `CacheLinesKept` states. -/
def Obligations.LoadSeesOwnStore : Prop :=
  ∀ (s t u : State) (a n w v : Nat) (remote : Bool), linesOk s = true → memoriesWf s = true →
    n ∈ [1, 2, 4, 8] → n ∣ a →
    s.store remote a n w = .ok t → t.load .l1 remote a n = .ok (v, u) → v = w % 256 ^ n

/-- 15 R332 to R334: AMO and AMOCAS return the old value, zero-extended, and write the new one; a failed comparison writes
nothing. Memory elsewhere stays where no release, promotion or acquire beyond the die acts. -/
def Obligations.AtomicsComplete : Prop :=
  (∀ (s : State) (f : SA) (a cell : Nat) (isLocal : Bool), (Instr.amo f).wellFormed = true →
    s.executes f.ctl [f.base, f.val, f.sc] (some f.dst) 0 → scopeOk (s.reg f.sc) = true →
    addressOf (s.reg f.base) 0 (accessBytes f.sz) = .ok a →
    atomicCell s a = some (isLocal, cell) →
    let n := accessBytes f.sz
    let old := readN (if isLocal then s.lmem else s.mem) cell n
    (f.ord.toNat < 2 ∨ scopeBeyond (s.reg f.sc) s.runDie = false) → f.prm = false →
    ∃ t, exec (.amo f) s = .next t ∧ contextWrote s t f.dst (BitVec.ofNat 64 old) ∧ othersKept s t ∧
      atomicDone s t isLocal cell n (atomicResult f.aop.toNat (8 * n) old ((s.reg f.val).toNat % 256 ^ n)) True) ∧
  (∀ (s : State) (f : SAC) (a cell : Nat) (isLocal : Bool), (Instr.amocas f).wellFormed = true →
    s.executes f.ctl [f.base, f.exp, f.new, f.sc] (some f.dst) 0 → scopeOk (s.reg f.sc) = true →
    addressOf (s.reg f.base) 0 (accessBytes f.sz) = .ok a →
    atomicCell s a = some (isLocal, cell) →
    let n := accessBytes f.sz
    let old := readN (if isLocal then s.lmem else s.mem) cell n
    let hit := old = (s.reg f.exp).toNat % 256 ^ n
    (f.ord.toNat < 2 ∨ scopeBeyond (s.reg f.sc) s.runDie = false) → f.prm = false →
    ∃ t, exec (.amocas f) s = .next t ∧ contextWrote s t f.dst (BitVec.ofNat 64 old) ∧ othersKept s t ∧
      if hit then atomicDone s t isLocal cell n ((s.reg f.new).toNat % 256 ^ n) True else s.sameBytes t)

/-- Every access that the memory system performs completes its instruction, wherever the location is held, and leaves what it
leaves of the rest; FENCE, once the paths of its first set have nothing outstanding, writes back and discards as its scope
says (a release at SYSTEM scope also waits for the context's commands at other packages, 07 R149); CFLUSH writes back and drops the copy of its grain; VDRAIN leaves no vector instruction of the context (07 R155, R156;
15 R347; 16 R364). -/
def Obligations.AccessesAndFences : Prop :=
  ((∀ (s u : State) (f : SM) (a v : Nat), s.executes f.ctl [f.base] (some f.ds) 0 →
     addressOf (s.reg f.base) f.off.toInt (accessBytes f.sz) = .ok a →
     (issued s f.ctl [f.base]).loadC .l1 (s.ctx.hopPolicy != 0) a (accessBytes f.sz) = .ok (v, u) →
     ∃ t, exec (.ld f) s = .next t ∧ u.scalarDone t f.ds (loaded f.sz v) 0) ∧
   (∀ (s u : State) (f : SM) (a : Nat), s.executes f.ctl [f.base, f.ds] none 0 →
     addressOf (s.reg f.base) f.off.toInt (accessBytes f.sz) = .ok a →
     (issued s f.ctl [f.base, f.ds]).storeC (s.ctx.hopPolicy != 0) a (accessBytes f.sz) (s.reg f.ds).toNat = .ok u →
     u.inRegion = false → ∃ t, exec (.st f) s = .next t ∧ u.scalarDone t 0 0 0) ∧
   (∀ (s u : State) (f : SM) (a v : Nat), s.executes f.ctl [f.base, f.sc] (some f.ds) 0 → scopeOk (s.reg f.sc) = true →
     addressOf (s.reg f.base) f.off.toInt (accessBytes f.sz) = .ok a →
     (issued s f.ctl [f.base, f.sc]).loadC (acquireServe (s.reg f.sc) s.runDie) (s.ctx.hopPolicy != 0) a
       (accessBytes f.sz) = .ok (v, u) →
     ∃ t, exec (.ldacq f) s = .next t ∧ (u.acquireSteps u.runCore (s.reg f.sc)).scalarDone t f.ds (loaded f.sz v) 0) ∧
   (∀ (s u : State) (f : SM) (a : Nat), s.executes f.ctl [f.base, f.ds, f.sc] none 0 → scopeOk (s.reg f.sc) = true →
     addressOf (s.reg f.base) f.off.toInt (accessBytes f.sz) = .ok a →
     (issued s f.ctl [f.base, f.ds, f.sc]).storeRelease (s.reg f.sc) (s.ctx.hopPolicy != 0) a (accessBytes f.sz)
       (s.reg f.ds).toNat = .ok u → s.systemWait (s.reg f.sc) = false →
     u.inRegion = false → ∃ t, exec (.strel f) s = .next t ∧ u.scalarDone t 0 0 0) ∧
   (∀ (s u : State) (f : SA) (a old : Nat), s.executes f.ctl [f.base, f.val, f.sc] (some f.dst) 0 →
     scopeOk (s.reg f.sc) = true → ¬ (f.prm = true ∧ (f.ord = 0 ∨ f.ord = 2)) →
     addressOf (s.reg f.base) 0 (accessBytes f.sz) = .ok a →
     (issued s f.ctl [f.base, f.val, f.sc]).atomic f.ord.toNat f.prm (s.reg f.sc) (accessBytes f.sz)
       (fun old => some (amoValue f.aop.toNat (accessBytes f.sz) old ((s.reg f.val).toNat % 2 ^ (8 * accessBytes f.sz))))
       (s.ctx.hopPolicy != 0) a = .ok (old, u) → (f.ord.toNat < 2 ∨ s.systemWait (s.reg f.sc) = false) →
     ∃ t, exec (.amo f) s = .next t ∧ u.scalarDone t f.dst (BitVec.ofNat 64 old) 0) ∧
   (∀ (s u : State) (f : SAC) (a old : Nat), s.executes f.ctl [f.base, f.exp, f.new, f.sc] (some f.dst) 0 →
     scopeOk (s.reg f.sc) = true → ¬ (f.prm = true ∧ (f.ord = 0 ∨ f.ord = 2)) →
     addressOf (s.reg f.base) 0 (accessBytes f.sz) = .ok a →
     (issued s f.ctl [f.base, f.exp, f.new, f.sc]).atomic f.ord.toNat f.prm (s.reg f.sc) (accessBytes f.sz)
       (fun old => if old == (s.reg f.exp).toNat % 2 ^ (8 * accessBytes f.sz) then
         some ((s.reg f.new).toNat % 2 ^ (8 * accessBytes f.sz)) else none)
       (s.ctx.hopPolicy != 0) a = .ok (old, u) → (f.ord.toNat < 2 ∨ s.systemWait (s.reg f.sc) = false) →
     ∃ t, exec (.amocas f) s = .next t ∧ u.scalarDone t f.dst (BitVec.ofNat 64 old) 0)) ∧
  ((∀ (s : State) (f : FY), (Instr.fence f).wellFormed = true → s.executes f.ctl [f.sa] none 0 →
     scopeOk (s.reg f.sa) = true → (f.imm.getLsbD 2 = true → s.matrixOut = false) →
     s.commandsOut (f.imm.getLsbD 3) (f.imm.getLsbD 4) = false → s.systemWait (s.reg f.sa) = false →
     ∃ t, exec (.fence f) s = .next t ∧ contextMovedOn s t ∧ othersKept s t ∧
       (scopeKind (s.reg f.sa) ≠ 0 → (t.coreAt s.runCore).l1 = []) ∧
       (scopeBeyond (s.reg f.sa) s.runDie = true → ∀ ln ∈ (t.dieAt s.runDie).l2, ln.home = true) ∧
       (scopeBeyond (s.reg f.sa) s.runDie = false → s.sameBytes t)) ∧
   (∀ (s : State) (f : SM) (a : Nat), s.executes f.ctl [f.base] none 0 → a < 0xFFE0000000000 →
     addressOf (s.reg f.base) f.off.toInt 1 = .ok a → (s.plbCheck s.runCore s.ctx.domain a rightR).1 = true →
     ∃ t, exec (.cflush f) s = .next t ∧ contextMovedOn s t ∧ othersKept s t ∧ l1Find (t.coreAt s.runCore).l1 a = none ∧
       (∀ ln, (s.dieAt s.runDie).line a = some ln → ln.home = false →
         (∀ o ∈ (t.dieAt s.runDie).l2, o.va ≠ ln.va) ∧
         (memoryWf s.mem = true → ∀ j < ln.size, ln.dirty.testBit j = true → readByte t.mem (ln.pa + j) = lineByte ln j))) ∧
   (∀ (s : State) (f : SR), s.executes f.ctl [] none 0 →
     ∃ t, exec (.vdrain f) s = .next t ∧ s.scalarDone t 0 0 0 ∧
       (t.coreAt s.runCore).vqueue.any (fun e => e.ctx == s.cur) = false))

/-- 08 R182: ABEGIN opens a region with its fallback, its snapshot and a cleared ASTATE; in the handler context it is illegal,
in a region it aborts with NEST; AEND and AABORT outside a region trap with cause 0x13 and value 0. -/
def Obligations.RegionOpens : Prop :=
  (∀ (f : BR) (s : State), s.executes f.ctl [] none 0 → s.inHandler = false →
    ¬ (s.ctx.hopped.isSome = true ∧ s.ctx.holdsLease = true) →
    ∃ t, exec (.abegin f) s = .next t ∧ s.onlyContext t ∧ s.sameBytes t ∧ t.ctx.pc = s.ctx.pc + 8 ∧
      t.ctx.s = s.ctx.s ∧ t.ctx.fcsr = s.ctx.fcsr ∧ t.ctx.astate = ⟨0, 0, 0, 0, false, 0, false, false, true⟩ ∧
      t.ctx.region = some ⟨s.ctx.pc + 8 * f.off.signExtend 64, s.ctx.s, s.ctx.fcsr, Vector.replicate 64 .concrete, [], [], [], false⟩) ∧
  (∀ (f : BR) (s : State), s.executes f.ctl [] none 0 → s.inHandler = true → ((s.coreAt s.cur.1).inv).isSome = true →
    ∃ t, exec (.abegin f) s = .next t ∧ invocationEnded s t 0x01) ∧
  (∀ (f : BR) (s : State), s.inRegion = true → s.inHandler = false → readyToIssue s → guardPlain s f.ctl →
    ∃ t, exec (.abegin f) s = .next t ∧ regionAborted s t 11 0) ∧
  (∀ (f : SR) (s : State), s.executes f.ctl [] none 0 → s.inHandler = false →
    (∃ t, exec (.aend f) s = .next t ∧ s.trapTaken t none 0x13 0) ∧
    (∃ t, exec (.aabort f) s = .next t ∧ s.trapTaken t none 0x13 0))

/-- 08 R184, R192; 15 R328: AABORT aborts the region with PROGRAM. At a region's instruction boundary after 256 counted
instructions, the event that aborts it with LENGTH takes the place of every instruction but an AEND that executes; before that,
of none. What counts as an instruction is the model's (log 11). -/
def Obligations.RegionAborts : Prop :=
  (∀ (f : SR) (s : State), s.inRegion = true → s.inHandler = false → readyToIssue s → guardPlain s f.ctl →
    ∃ t, exec (.aabort f) s = .next t ∧ regionAborted s t 9 0) ∧
  (∀ (s : State) (w : Word) (i : Instr), s.inRegion = true → s.inHandler = false → 256 ≤ s.ctx.astate.nins → decode w = .ok i →
    ((∀ f, i = .aend f → ∃ g, f.ctl.guard = some g ∧ s.guardHolds g = false) →
      s.boundaryEvent w = some (.regionLengthAbort s.cur.1 s.cur.2)) ∧
    (∀ f, i = .aend f → s.guardOpen f.ctl → s.ctx.scbmode ≠ 1 → s.boundaryEvent w = none)) ∧
  (∀ (s : State) (w : Word), s.inHandler = false → s.ctx.astate.nins < 256 → s.boundaryEvent w = none) ∧
  (∀ (c : CoreId) (x : CtxId) (s : State), (s.ctxAt c x).region.isSome = true →
    ∃ t, exec (.regionLengthAbort c x) s = .next t ∧ regionAborted { s with cur := (c, x) } { t with cur := (c, x) } 6 0)

/-- 08 R186, R187, R189: in a region, the first LD.64 of a word tracks it and gives its register the word's symbol, and ST
records its store; neither changes memory. -/
def Obligations.RegionTracks : Prop :=
  (∀ (f : SM) (s : State) (g : Region) (a v : Nat), s.ctx.region = some g → s.inHandler = false → readyToIssue s →
    f.ctl.guard = none → f.sz = 3 → addressOf (s.reg f.base) f.off.toInt 8 = .ok a → a < 0xFFE0000000000 →
    g.tag f.base = .concrete → (s.plbCheck s.runCore s.ctx.domain a (rightR + rightW + rightA)).1 = true →
    (heldHome s a).isSome = true → homeAgrees s a → heldBytes s a 8 = some v →
    (∀ p ∈ g.tracked, p.1 ≠ a) → g.tracked.length < 8 → (∀ st ∈ g.stores, st.addr + st.n ≤ a ∨ a + 8 ≤ st.addr) →
    ∃ t g', exec (.ld f) s = .next t ∧ s.sameBytes t ∧ othersKept s t ∧ t.ctx.region = some g' ∧
      g'.tracked = g.tracked ++ [(a, BitVec.ofNat 64 v)] ∧ g'.stores = g.stores ∧ g'.cons = g.cons ∧
      (f.ds ≠ 0 → g'.tags = g.tags.set f.ds.toNat (.sym g.tracked.length 0)) ∧
      t.ctx.s = regsAfter s.ctx.s f.ds (BitVec.ofNat 64 v) ∧ t.ctx.pc = s.ctx.pc + 8 ∧
      t.ctx.astate.nload = g.tracked.length + 1 ∧ t.ctx.astate.homev = true) ∧
  (∀ (f : SM) (s : State) (g : Region) (a : Nat), s.ctx.region = some g → s.inHandler = false → readyToIssue s →
    f.ctl.guard = none → addressOf (s.reg f.base) f.off.toInt (accessBytes f.sz) = .ok a → a < 0xFFE0000000000 →
    (s.plbCheck s.runCore s.ctx.domain a (rightR + rightW + rightA)).1 = true →
    (heldHome s a).isSome = true → deviceOwns s a = true → homeAgrees s a → g.stores.length < 16 →
    let whole := accessBytes f.sz = 8 ∧ g.tag f.base = .concrete
    let tag : Tag := if whole ∨ g.tag f.ds = .concrete ∧ g.tag f.base = .concrete then g.tag f.ds else .unknown
    ∃ t, exec (.st f) s = .next t ∧ s.sameBytes t ∧ othersKept s t ∧ t.ctx.s = s.ctx.s ∧ t.ctx.pc = s.ctx.pc + 8 ∧
      t.ctx.region = some { g with stores := g.stores ++
        [⟨a, accessBytes f.sz, (s.reg f.ds).toNat % 256 ^ accessBytes f.sz, tag,
          match tag with | .sym _ _ => true | _ => false⟩] } ∧
      t.ctx.astate.nst = g.stores.length + 1 ∧ (tag = .unknown → t.ctx.astate.fragile = true))

/-- 06 R139, R141; 08 R190, R192: AEND of a region whose words and targets the issuing die holds at their home aborts with SPAN
where one of them has changed its home since, and with FRAGILE or CONFLICT
where a word has changed and the region cannot be repaired; else it writes the recorded stores in program order,
recomputes the symbolic registers and closes the region. -/
def Obligations.RegionCommits : Prop :=
  ∀ (f : SR) (s : State) (g : Region), s.ctx.region = some g → s.inHandler = false → readyToIssue s → guardPlain s f.ctl →
    (∀ p ∈ g.tracked, (heldHome s p.1).isSome = true ∧ homeAgrees s p.1 ∧ s.ctx.astate.homev = true) →
    (∀ st ∈ g.stores, (heldHome s st.addr).isSome = true ∧ deviceOwns s st.addr = true ∧ homeAgrees s st.addr ∧ s.ctx.astate.homev = true) →
    ∃ t, exec (.aend f) s = .next t ∧
      if g.moved = true then regionAborted s t 4 0
      else if anyChanged s g = true ∧ s.ctx.astate.fragile = true then regionAborted s t 2 0
      else if anyChanged s g = true ∧ g.cons.all (outcomeKept s g) = false then regionAborted s t 1 0
      else
        (∀ x, readByte t.mem x = readByte (committed s g) x) ∧
        (∀ x, readByte t.lmem x = readByte s.lmem x ∧ readByte t.hob x = readByte s.hob x) ∧ othersKept s t ∧
        t.ctx.region = none ∧ t.ctx.astate = { s.ctx.astate with repaired := anyChanged s g, active := false } ∧
        t.ctx.s = Vector.ofFn (regAtCommit s g) ∧ t.ctx.fcsr = s.ctx.fcsr ∧ t.ctx.pc = s.ctx.pc + 8 ∧
        (t.coreAt s.runCore).l1 = []

/-- 06 R122 to R125; 15 R343 to R346: CBRES, CBPUT, CBGET and CBFREE each complete where the ring has the slot they need, as
the rules say; an empty ring makes CBGET wait, and a full one CBRES and the filling CBPUT; a hopped context, CBRES and CBPUT of
an inbox ring, CBFREE of a ring with no taken slot, and CBPUT that publishes with no reservation are illegal; in the handler
context so are CBRES and CBGET, and CBPUT where it would wait. That CBGET acquires at PACKAGE scope, which empties the core's L1, is
the model's reading of R344, which names no scope (log 26), and so is it that the one reply of an inbox message (08 R173) is written
when CBGET takes it (log 46). -/
def Obligations.CircularBuffers : Prop :=
  ∀ (s : State) (f : SI) (n : Fin 8), f.imm.toNat = n.val → s.inRegion = false →
    (s.inHandler = true → ((s.coreAt s.cur.1).inv).isSome = true) →
    let r := ringOf s n
    (s.executes f.ctl [] (some f.dst) 0 → s.inHandler = true →
      (∃ t, exec (.cbres f) s = .next t ∧ invocationEnded s t 0x01) ∧ ∃ t, exec (.cbget f) s = .next t ∧ invocationEnded s t 0x01) ∧
    (s.executes f.ctl [] (some f.dst) 0 → s.inHandler = false →
      (s.ctx.hopped = none → 4 ≤ n.val → 0 < r.free → ∃ t, exec (.cbres f) s = .next t ∧
        onlyRing s t n { r with
          wridx := (r.wridx + 1) % 2 ^ r.cntlog, free := r.free - 1, res := r.res ++ [⟨false, some s.cur.2, none⟩] } ∧
        s.sameBytes t ∧ othersKept s t ∧ t.ctx.reserv = s.ctx.reserv ++ [(n.val, r.wridx)] ∧
        t.ctx.s = regsAfter s.ctx.s f.dst (slotAddress r r.wridx) ∧ t.ctx.fcsr = s.ctx.fcsr ∧ t.ctx.pc = s.ctx.pc + 8) ∧
      (s.ctx.hopped.isSome = true ∨ n.val < 4 →
        ∃ t, exec (.cbres f) s = .next t ∧ s.trapTaken t none 0x01 (encode (.cbres f))) ∧
      (s.ctx.hopped = none → 4 ≤ n.val → r.free = 0 → ∃ t, exec (.cbres f) s = .next t ∧ waitsFor s t (.ringFree n.val)) ∧
      (s.ctx.hopped = none → 0 < r.filled → ∃ t, exec (.cbget f) s = .next t ∧
        let m := messageAt s (r.base + r.rdidx * 2 ^ r.szlog)
        onlyRing s t n { r with
          rdidx := (r.rdidx + 1) % 2 ^ r.cntlog, filled := r.filled - 1, taken := r.taken + 1, senders := r.senders.drop 1 } ∧
        othersKept s t ∧ contextWrote s t f.dst (slotAddress r r.rdidx) ∧ (t.coreAt s.runCore).l1 = [] ∧
        (r.senders = [] ∨ m.rr = false → s.sameBytes t) ∧
        (∀ p, r.senders.head? = some p → m.rr = true → m.w0.extractLsb' 56 8 = 0x80 → p.remote = false →
          m.w1 = BitVec.ofNat 64 Config.localBase → s.holdsSender p = true →
          wroteBytes s.lmem t.lmem (localKey p.core 0) 16 (m.w0.toNat % 2 ^ 32 * 2 ^ 32 + 0x80 * 2 ^ 16))) ∧
      (s.ctx.hopped.isSome = true → ∃ t, exec (.cbget f) s = .next t ∧ s.trapTaken t none 0x01 (encode (.cbget f))) ∧
      (s.ctx.hopped = none → r.filled = 0 → ∃ t, exec (.cbget f) s = .next t ∧ waitsFor s t (.ringFilled n.val))) ∧
    (s.executes f.ctl [] none 0 →
      (s.ctx.hopped = none → 0 < r.taken → ∃ t, exec (.cbfree f) s = .next t ∧
        onlyRing s t n { r with taken := r.taken - 1, free := r.free + 1 } ∧ s.sameBytes t ∧ othersKept s t ∧
        contextMovedOn s t) ∧
      (s.ctx.hopped.isSome = true ∨ r.taken = 0 →
        ∃ t, exec (.cbfree f) s = .next t ∧ trapsHere s t 0x01 (encode (.cbfree f)))) ∧
    (s.executes f.ctl [f.sa] none 0 →
      (s.ctx.hopped.isSome = true ∨ n.val < 4 →
        ∃ t, exec (.cbput f) s = .next t ∧ trapsHere s t 0x01 (encode (.cbput f))) ∧
      (s.ctx.hopped = none → 4 ≤ n.val → f.sa ≠ 0 →
        let a := (s.reg f.sa).toNat
        let inside := 0xFFF0000000000 ≤ a ∧ a + 2 ^ r.szlog ≤ 0xFFF0000060000
        (a % 8 ≠ 0 → ∃ t, exec (.cbput f) s = .next t ∧ trapsHere s t 0x04 (s.reg f.sa)) ∧
        (a % 8 = 0 → ¬ inside → ∃ t, exec (.cbput f) s = .next t ∧ trapsHere s t 0x05 (s.reg f.sa)) ∧
        (a % 8 = 0 → inside → r.free = 0 → ∃ t, exec (.cbput f) s = .next t ∧
          if s.inHandler = true then invocationEnded s t 0x01 else waitsFor s t (.ringFree n.val)) ∧
        (a % 8 = 0 → inside → 0 < r.free → ∃ t, exec (.cbput f) s = .next t ∧
          wroteBytes s.lmem t.lmem (localCell s (r.base + r.wridx * 2 ^ r.szlog)) (2 ^ r.szlog)
            (readN s.lmem (localCell s (a - 0xFFF0000000000)) (2 ^ r.szlog)) ∧
          (∀ x, readByte t.mem x = readByte s.mem x) ∧ contextMovedOn s t ∧ othersKept s t ∧
          (ringOf t n).wridx = (r.wridx + 1) % 2 ^ r.cntlog ∧ (ringOf t n).free = r.free - 1 ∧
          (r.res = [] → (ringOf t n).filled = r.filled + 1 ∧ (ringOf t n).res = []))) ∧
      (s.ctx.hopped = none → 4 ≤ n.val → f.sa = 0 →
        (s.ctx.reserv.find? (fun p => p.1 == n.val) = none →
          ∃ t, exec (.cbput f) s = .next t ∧ trapsHere s t 0x01 (encode (.cbput f))) ∧
        (∀ slot, s.ctx.reserv.find? (fun p => p.1 == n.val) = some (n.val, slot) →
          ∃ t, exec (.cbput f) s = .next t ∧ s.sameBytes t ∧ othersKept s t ∧ t.ctx.reserv = s.ctx.reserv.erase (n.val, slot) ∧
            t.ctx.s = s.ctx.s ∧ t.ctx.pc = s.ctx.pc + 8 ∧
            (r.res.length = 1 → (r.rdidx + r.filled) % 2 ^ r.cntlog = slot → slot < 2 ^ r.cntlog →
              (ringOf t n).filled = r.filled + 1 ∧ (ringOf t n).res = []))))

/-- 08 R168, R171; 17 R402: MSG takes the trap of the first failing check; otherwise it waits with its copy until the
destination accepts, and at SYSTEM scope until the context's commands at other packages are acknowledged (07 R149, R153), or
completes with the message there. A message to a core's inbox waits for a free slot; one to an
agent, for room in its queue of 16. -/
def Obligations.MessageSends : Prop :=
  ∀ (f : SR) (s : State), s.executes f.ctl [f.sa, f.sb] none 0 → s.inHandler = false → s.ctx.outMsg = none →
    let dest := s.reg f.sa
    let m := messageAt s ((s.reg f.sb).toNat - 0xFFF0000000000)
    let waits := fun t => waitsFor (s.modCtx (fun x => { x with outMsg := some (dest, m) })) t .accept
    ∃ t, exec (.msg f) s = .next t ∧
      match msgTrap s (.msg f) dest (s.reg f.sb) with
      | some (c, v) => s.trapTaken t none c v
      | none =>
        let u := issued s f.ctl [f.sa, f.sb]
        let scope := u.sendScope dest m
        (if u.systemWait scope = true then waits t
          else match (u.releaseSteps u.runCore scope).send u.sender dest m with
            | some v => (v.chargeSend scope).scalarDone t 0 0 0
            | none => waits t) ∧
        (dest.extractLsb' 60 4 = 0 → m.w0.extractLsb' 56 8 = 0x80 →
          let c := coreOf (dest.toNat % 256) (dest.toNat / 256 % 256)
          let r := (s.coreAt c).rings[(Fin.ofNat 8 (classOf m))]
          isReserved c = false → (s.coreAt c).placed.isSome = true →
          if r.free = 0 then waits t
          else
            wroteBytes s.lmem t.lmem (localKey c (r.base + r.wridx * 2 ^ r.szlog)) 64 (messageNumber m) ∧ contextMovedOn s t ∧
            (r.res = [] → (t.coreAt c).rings[(Fin.ofNat 8 (classOf m))] = ringFilledBy r (some s.sender))) ∧
        (dest.extractLsb' 60 4 = 2 →
          let d : DieId := Fin.ofNat 8 (dest.toNat / 2 ^ 16 % 8)
          let n := agentPlace (dest.toNat / 2 ^ 8 % 16) (dest.toNat % 4)
          if 16 ≤ (queueOf s d n).length then waits t
          else queueOf t d n = queueOf s d n ++ [⟨m, s.sender, d, n, t.regionsOf d s.sender.domain⟩] ∧ contextMovedOn s t ∧
            ∀ x, readByte t.lmem x = readByte s.lmem x)

/-- 06 R125; 08 R171, R173 to R177; 02 R29: a message that reaches an inbox, a home core or a handler context, and a message
that a destination accepts. That a message of another package finds its home core by die 0's tables is the model's (log 18); so are
that a standard handler runs to its end in the step of its invocation (log 14), and that a core without a launch answers REJECTED
to any command code (log 62). -/
def Obligations.MessageEvents : Prop :=
  (∀ (d : Delivery) (s : State), classOf d.msg < 4 →
    let r := (s.coreAt d.core).rings[(Fin.ofNat 8 (classOf d.msg))]
    ∃ t, exec (.inboxMessage d) s = .next t ∧
      if isReserved d.core = true ∨ (s.coreAt d.core).placed = none then t = s.reply (dieOf d.core) d.sender d.msg 5 0
      else if r.free = 0 then t = s.deferTurn (.event (.inboxMessage d))
      else if d.msg.w0.extractLsb' 56 8 ≠ 0x80 then t = s.reply (dieOf d.core) d.sender d.msg 2 0
      else wroteBytes s.lmem t.lmem (localKey d.core (r.base + r.wridx * 2 ^ r.szlog)) 64 (messageNumber d.msg) ∧
        t.mem = s.mem ∧ t.dies = s.dies ∧ (r.res = [] → t.cores =
          s.cores.set d.core { s.coreAt d.core with
            rings := (s.coreAt d.core).rings.set (Fin.ofNat 8 (classOf d.msg)) (ringFilledBy r (some d.sender)) })) ∧
  (∀ (m : Message) (p : Sender) (s : State) (c : CoreId),
    pointerOk m.w2 = true → s.homeCore (if p.remote then 0 else dieOf p.core) p.domain (m.w2.toNat % 2 ^ 52) = .ok c →
    let cmd := (m.w0.extractLsb' 56 8).toNat
    ∃ t, exec (.handlerMessage m p) s = .next t ∧
      if 32 ≤ (s.coreAt c).hqueue.length then t = s.deferTurn (.event (.handlerMessage m p))
      else if cmd < 0x40 ∨ 0x7F < cmd then t = s.reply (dieOf c) p m 2 0
      else match (s.dieAt (dieOf c)).bindings[(Fin.ofNat 64 (cmd - 0x40))] with
        | some _ => t = s.setCore c { s.coreAt c with hqueue := (s.coreAt c).hqueue ++ [⟨m, p, c⟩] }
        | none =>
          if (s.dieAt (dieOf c)).heldFor (cmd - 0x40) < 64 then
            (t.dieAt (dieOf c)).held = (s.dieAt (dieOf c)).held ++ [⟨m, p, c⟩] ∧ t.cores = s.cores ∧ t.mem = s.mem
          else t = s.reply (dieOf c) p m 1 (BitVec.ofNat 64 (cmd - 0x40))) ∧
  (∀ (c : CoreId) (s : State) (d : Delivery) (before after : List Delivery),
    (s.coreAt c).inv = none → (s.coreAt c).hqueue = before ++ d :: after → (∀ e ∈ (s.coreAt c).hqueue, classOf e.msg < 4) →
    (∀ e ∈ before, classOf d.msg < classOf e.msg) → (∀ e ∈ after, classOf d.msg ≤ classOf e.msg) →
    (s.dieAt (dieOf c)).held = [] → 0x40 ≤ (d.msg.w0.extractLsb' 56 8).toNat → (d.msg.w0.extractLsb' 56 8).toNat ≤ 0x7F →
    let n := (d.msg.w0.extractLsb' 56 8).toNat - 0x40
    let s' := s.setCore c { s.coreAt c with hqueue := before ++ after }
    ∃ t, exec (.handlerInvocation c) s = .next t ∧
      match (s.dieAt (dieOf c)).bindings[(Fin.ofNat 64 n)] with
      | none => t = s'.reply (dieOf c) d.sender d.msg 1 (BitVec.ofNat 64 n)
      | some b =>
        if b.std = none then
          let y := t.ctxAt c handlerCtx
          (t.coreAt c).hqueue = before ++ after ∧ (t.coreAt c).inv = some ⟨d.msg, d.sender, n, 0, false⟩ ∧
          (∀ e x, (e, x) ≠ (c, handlerCtx) → t.ctxAt e x = s.ctxAt e x) ∧ s.sameBytes t ∧
          y.status = .live ∧ y.pc = b.entry ∧ y.mode = .program ∧ y.fcsr = 0 ∧ y.vl = 0 ∧
          y.domain = (if b.domain = 0xFFFF then d.sender.domain else b.domain) ∧
          y.s[2] = 0 ∧ y.s[4] = d.msg.w0 ∧ y.s[5] = d.msg.w1 ∧ y.s[6] = d.msg.w2 ∧ y.s[7] = d.msg.w3 ∧ y.s[8] = d.msg.w4 ∧
          y.s[9] = d.msg.w5 ∧ y.s[10] = d.msg.w6 ∧ y.s[11] = d.msg.w7 ∧ y.s[13] = d.sender.domain.setWidth 64 ∧
          (t.coreAt c).l1 = []
        else (t.coreAt c).hqueue = before ++ after ∧ (t.coreAt c).inv = none ∧ (t.ctxAt c handlerCtx).status = .ended) ∧
  (∀ (c : CoreId) (s : State), (s.ctxAt c handlerCtx).region = none → ((s.coreAt c).inv).isSome = true →
    ∃ t, exec (.handlerOverrun c) s = .next t ∧ invocationEnded { s with cur := (c, handlerCtx) } t 0x0F) ∧
  (∀ (c : CoreId) (x : CtxId) (s : State) (dest : Word) (m : Message),
    (s.ctxAt c x).status = .waiting .accept → (s.ctxAt c x).outMsg = some (dest, m) →
    let u := { s with cur := (c, x) }
    ∃ t, exec (.messageAccept c x) s = .next t ∧
      if u.systemWait (u.sendScope dest m) = true then t = s
      else match (u.releaseSteps u.runCore (u.sendScope dest m)).send u.sender dest m with
      | none => t = s
      | some v => v.sameBytes t ∧ t.ctxAt c x = { v.ctxAt c x with
          status := .live, outMsg := none, pc := (v.ctxAt c x).pc + 8, waitFrom := max s.cycle (v.ctxAt c x).nextIssue })

/-- 08 R173, R174, R179, R459; 16 R367; 17 R407: how a message is answered; REPLY, NOTIFY and HBIND. -/
def Obligations.RepliesNotifiesBinds : Prop :=
  (∀ (s : State) (d : DieId) (p : Sender) (m : Message) (status : Nat) (value : Word), p.remote = false →
    let t := s.reply d p m status value
    let r := s.writeBackAll d
    let counted := (t.dieAt d).fw.msgerr = min ((s.dieAt d).fw.msgerr + 1) (2 ^ 32 - 1) ∧ r.sameBytes t
    if wantsReply m = false ∧ status = 0 then t = s
    else (∀ ln ∈ (r.dieAt d).l2, ln.dirty = 0) ∧ (∀ ln ∈ (s.dieAt d).l2, lineSound s d ln → s.flue = [] →
        (∀ o ∈ (s.dieAt d).l2, o ≠ ln → o.dirty ≠ 0 → o.pa + o.size ≤ ln.pa ∨ ln.pa + ln.size ≤ o.pa) →
        ∀ k < ln.size, ln.dirty.testBit k = true → readByte r.mem (ln.pa + k) = lineByte ln k) ∧
      if wantsReply m = false then counted ∧ t.cores = s.cores
      else match windowOffset (m.w1.toNat % 2 ^ 52) with
      | some o =>
        if s.holdsSender p = true ∧ o + 16 ≤ 0x60000 then
          wroteBytes s.lmem t.lmem (localKey p.core o) 16 ((replyHead m status).toNat + 2 ^ 64 * value.toNat) ∧
            t.mem = r.mem ∧ t.cores = s.cores
        else counted ∧ t.notes = s.notes ++ [.replyFailed d.val (m.w1.toNat % 2 ^ 52)]
      | none => True) ∧
  (∀ (f : SR) (s : State) (v : Invocation), s.executes f.ctl [f.sa, f.sb] none 0 → (s.coreAt s.cur.1).inv = some v →
    ∃ t, exec (.reply f) s = .next t ∧
      if s.inHandler = false then s.trapTaken t none 0x01 (encode (.reply f))
      else if v.replied = true ∨ 5 < (s.reg f.sa).toNat then invocationEnded s t 0x01
      else
        let u := issued s f.ctl [f.sa, f.sb]
        ∃ w, (t.coreAt s.cur.1).inv = some w ∧ w.replied = true ∧
          ((u.reply u.runDie v.sender v.msg (s.reg f.sa).toNat (s.reg f.sb)).modCore s.cur.1
            (fun k => { k with inv := some w })).scalarDone t 0 0 0) ∧
  (∀ (f : SR) (s : State), s.executes f.ctl [f.sa, f.sb] none 0 → s.inHandler = false →
    let a := (s.reg f.sa).toNat
    let n := (s.reg f.sb).toNat
    let c := coreOf (a % 256) (a / 256)
    let x : CtxId := Fin.ofNat 12 n
    ∃ t, exec (.notify f) s = .next t ∧
      if 2 ^ 16 ≤ a ∨ 32 ≤ a % 256 ∨ 16 ≤ a / 256 ∨ 12 ≤ n then s.trapTaken t none 0x01 (encode (.notify f))
      else
        t.ctx.pc = s.ctx.pc + 8 ∧ t.ctx.s = s.ctx.s ∧ t.ctx.fcsr = s.ctx.fcsr ∧
        (∀ b, readByte t.lmem b = readByte s.lmem b) ∧
        (∀ e y, (e, y) ≠ s.cur → (e, y) ≠ (c, x) → t.ctxAt e y = s.ctxAt e y) ∧
        (t.ctxAt c x).event =
          if (s.ctxAt c x).active = true ∧ (s.ctxAt c x).domain = s.ctx.domain ∧ (isReserved c = false ∨ s.ctx.mode = .firmware)
          then true else (s.ctxAt c x).event) ∧
  (∀ (f : SR) (s : State), s.executes f.ctl [f.sa, f.sb] none 0 → s.inHandler = false → s.ctx.mode ≠ .program →
    let w := s.reg f.sa
    let n := w.toNat % 64
    ∃ t, exec (.hbind f) s = .next t ∧
      if n < 8 ∧ s.ctx.mode ≠ .firmware then s.trapTaken t none 0x02 (encode (.hbind f))
      else if w.extractLsb' 6 10 ≠ 0 ∨ w.extractLsb' 32 32 ≠ 0 ∨ (s.reg f.sb).toNat % 8 ≠ 0 then
        s.trapTaken t none 0x01 (encode (.hbind f))
      else if s.numberRuns s.runDie n = true then
        s.onlyContext t ∧ s.sameBytes t ∧ t.ctx.midWait = some (.handler n) ∧ t.ctx.pc = s.ctx.pc ∧ t.ctx.s = s.ctx.s
      else
        contextMovedOn s t ∧ othersKept s t ∧ s.sameBytes t ∧
        (t.dieAt s.runDie).bindings = (s.dieAt s.runDie).bindings.set n (if s.reg f.sb = 0 then none
          else some ⟨s.reg f.sb, w.extractLsb' 16 16, none⟩) (Nat.mod_lt _ (by decide)) ∧
        ∀ c, (t.coreAt c).icache = if dieOf c = s.runDie then [] else (s.coreAt c).icache)

/-- 02 R24 to R26; 08 R178; 16 R368 to R370, R372; 18 R454: HSTART, HJOIN and HKILL in the control context and elsewhere; the
end of a context and of an invocation by HEND; WFE; and the end of a wait. -/
def Obligations.HelpersAndEnds : Prop :=
  (∀ (f : SQ) (s : State), s.executes f.ctl [f.sa, f.sb, f.sc] (some f.dst) 0 → s.inHandler = false → s.helperQuota ≤ 10 →
    ∃ t, exec (.hstart f) s = .next t ∧
      if s.isControl = false then s.trapTaken t none 0x01 (encode (.hstart f))
      else if (s.reg f.sa).toNat % 8 ≠ 0 then s.trapTaken t none 0x04 (s.reg f.sa)
      else
        (∀ h : CtxId, 1 ≤ h.val → h.val ≤ s.helperQuota → s.isFree s.cur.1 h = true →
          (∀ g : CtxId, 1 ≤ g.val → g < h → s.isFree s.cur.1 g = false) →
          contextWrote s t f.dst (BitVec.ofNat 64 h.val) ∧ othersKeptBut s t h ∧ s.sameBytes t ∧
          startedHelper s (t.ctxAt s.cur.1 h) (s.reg f.sa) (s.reg f.sc) (s.reg f.sb)) ∧
        ((∀ h : CtxId, 1 ≤ h.val → h.val ≤ s.helperQuota → s.isFree s.cur.1 h = false) →
          if f.fn.getLsbD 0 = true then s.scalarDone t f.dst 0 0 else waitsFor s t .helperFree)) ∧
  (∀ (f : SR) (s : State), s.executes f.ctl [f.sa] none 0 → s.inHandler = false →
    let n := (s.reg f.sa).toNat
    let h : CtxId := Fin.ofNat 12 n
    (∃ t, exec (.hjoin f) s = .next t ∧
      let joined := contextMovedOn s t ∧ othersKept s t ∧ s.sameBytes t
      if s.isControl = false then s.trapTaken t none 0x01 (encode (.hjoin f))
      else if f.sa = 0 then if (s.coreAt s.cur.1).helperActive = true then waitsFor s t .helpersEnded else joined
      else if n = 0 ∨ 10 < n then s.trapTaken t none 0x01 (encode (.hjoin f))
      else if (s.ctxAt s.cur.1 h).active = true then waitsFor s t (.helperEnded n)
      else joined ∧ ((s.ctxAt s.cur.1 h).hopped.isSome = true → (t.coreAt s.runCore).l1 = [])) ∧
    (∃ t, exec (.hkill f) s = .next t ∧
      if s.isControl = false ∨ n = 0 ∨ 10 < n then s.trapTaken t none 0x01 (encode (.hkill f))
      else contextMovedOn s t ∧ othersKeptBut s t h ∧ s.sameBytes t ∧
        if (s.ctxAt s.cur.1 h).active = false then t.ctxAt s.cur.1 h = s.ctxAt s.cur.1 h
        else if (s.ctxAt s.cur.1 h).midWait.isSome = true then t.ctxAt s.cur.1 h = { s.ctxAt s.cur.1 h with killed := true }
        else hasEnded t s.cur.1 h)) ∧
  (∀ (f : SR) (s : State), s.executes f.ctl [] none 0 → s.inHandler = false →
    (s.cur.2 = 0 ∧ (s.coreAt s.cur.1).helperActive = true →
      ∃ t, exec (.hend f) s = .next t ∧ waitsFor s t .helpersEnded) ∧
    (¬ (s.cur.2 = 0 ∧ (s.coreAt s.cur.1).helperActive = true) → s.lease = none →
      ∃ t, exec (.hend f) s = .next t ∧ hasEnded t s.cur.1 s.cur.2 ∧ othersKept s t ∧
        (∀ x, readByte t.lmem x = readByte s.lmem x) ∧ (s.ctx.hopped = none → s.sameBytes t) ∧
        ∀ p, (s.coreAt s.cur.1).placed = some p → (∀ c ∈ t.coresOf p.launch p.group, (t.coreAt c).allEnded = true) →
          .event (.groupCompletion p.launch p.group) ∈ t.agenda)) ∧
  (∀ (f : SR) (s : State) (v : Invocation), s.executes f.ctl [] none 0 → s.inHandler = true →
    (s.coreAt s.cur.1).inv = some v →
    ∃ t, exec (.hend f) s = .next t ∧ (t.coreAt s.cur.1).inv = none ∧ t.ctx.status = .ended ∧
      if v.replied = true ∨ wantsReply v.msg = false then s.sameBytes t
      else ∀ o, v.sender.remote = false → windowOffset (v.msg.w1.toNat % 2 ^ 52) = some o → s.holdsSender v.sender = true →
        o + 16 ≤ 0x60000 → wroteBytes s.lmem t.lmem (localKey v.sender.core o) 16 (replyHead v.msg 0).toNat) ∧
  (∀ (f : SR) (s : State), s.executes f.ctl [] none 0 → s.inHandler = false →
    ∃ t, exec (.wfe f) s = .next t ∧
      if s.ctx.event = true then
        ({ s.ctx with event := false }).onlyScalars t.ctx ∧ t.ctx.s = s.ctx.s ∧ t.ctx.fcsr = s.ctx.fcsr ∧
        t.ctx.pc = s.ctx.pc + 8 ∧ othersKept s t ∧ s.sameBytes t ∧ (t.coreAt s.runCore).l1 = []
      else waitsFor s t .event) ∧
  (∀ (c : CoreId) (x : CtxId) (w : Wait) (s : State), (s.ctxAt c x).status = .waiting w →
    ∃ t, exec (.contextWake c x) s = .next t ∧
      let waited := if w = .restored then s.waitOf (c, x) else some w
      if waited.all (s.waitOver c x) = true then t = s.modCtxAt c x (fun y => { y with status := .live, waitFrom := s.cycle })
      else t = s)

/-- 07 R157, R158; 15 R336, R337: BARA records the arrival and the phase before it, BARW waits for the flip, misuse traps with
its reason; the last arrival of a die flips the phase or has the die report, and the last report flips every die, as a
release of their writes where an arrival's scope went beyond its die. -/
def Obligations.Barriers : Prop :=
  (∀ (f : SI) (s : State), s.executes f.ctl [f.sa] none 0 → s.inHandler = false → scopeOk (s.reg f.sa) = true →
    let n := f.imm.toNat % 64
    let misused := fun t reason => s.trapTaken t none 0x14 (BitVec.ofNat 64 (reason * 256 + n))
    let d := dieOf s.cur.1
    (∃ t, exec (.bara f) s = .next t ∧
      match s.barrierOf n with
      | none => misused t 0
      | some (p, path) =>
        if p.isMember s.cur.2 = false then misused t 1
        else if hasArrived s.ctx n = true then misused t 2
        else s.systemWait (s.reg f.sa) = false →
          let b := barrierAt s d p.launch path n
          let b' := barrierAt t d p.launch path n
          t.ctx.pc = s.ctx.pc + 8 ∧ t.ctx.s = s.ctx.s ∧ t.ctx.fcsr = s.ctx.fcsr ∧ othersKept s t ∧
          (∀ x, readByte t.lmem x = readByte s.lmem x ∧ readByte t.hob x = readByte s.hob x) ∧
          hasArrived t.ctx n = true ∧ t.ctx.myph.getLsbD n = b.phase ∧
          (∀ j, j ≠ n → hasArrived t.ctx j = hasArrived s.ctx j ∧ t.ctx.myph.getLsbD j = s.ctx.myph.getLsbD j) ∧
          if b.count + 1 < s.membersOn d p.launch path then b'.count = b.count + 1 ∧ b'.phase = b.phase
          else if s.spannedDies p.launch path = [d] then b'.count = 0 ∧ b'.phase = !b.phase
          else b'.count = 0 ∧ b'.phase = b.phase ∧ b'.full = true ∧ .event (.barrierDieReport d 0) ∈ t.agenda) ∧
    (∃ t, exec (.barw f) s = .next t ∧
      match s.barrierOf n with
      | none => misused t 0
      | some (p, path) =>
        if hasArrived s.ctx n = false then misused t 3
        else if (barrierAt s d p.launch path n).phase = s.ctx.myph.getLsbD n then waitsFor s t (.barrier n)
        else
          ({ s.ctx with arrived := t.ctx.arrived }).onlyScalars t.ctx ∧ t.ctx.s = s.ctx.s ∧ t.ctx.fcsr = s.ctx.fcsr ∧
          t.ctx.pc = s.ctx.pc + 8 ∧ othersKept s t ∧ s.sameBytes t ∧ hasArrived t.ctx n = false ∧
          ∀ j, j ≠ n → hasArrived t.ctx j = hasArrived s.ctx j)) ∧
  (∀ (d : DieId) (obj : Nat) (s : State) (b : BarObj), (s.dieAt d).dueBarrier obj = some b →
    b = barrierAt s d b.launch b.path b.n →
    let at_ := fun u e => barrierAt u e b.launch b.path b.n
    let dies := s.spannedDies b.launch b.path
    let master := dies.headD d
    ∃ t, exec (.barrierDieReport d obj) s = .next t ∧ t.cores = s.cores ∧ t.lmem = s.lmem ∧ t.hob = s.hob ∧
      (at_ t d).full = false ∧ (b.wide = false → (at_ s master).wide = false → s.sameBytes t) ∧
      if ∀ e ∈ dies, e = d ∨ e ∈ (at_ s master).reported then
        ∀ e ∈ dies, (at_ t e).phase = !(at_ s e).phase ∧ (at_ t e).reported = [] ∧
          (b.wide = true ∨ (at_ s master).wide = true → ∀ ln ∈ (t.dieAt e).l2, ln.dirty = 0)
      else (at_ t master).phase = (at_ s master).phase ∧
        ∀ e, e ∈ (at_ t master).reported ↔ e = d ∨ e ∈ (at_ s master).reported)

/-- 13 R300 to R302; 16 R371, R386: HOP sends the scalar state on its way to the target when the hop conditions hold, else
only releases; it arrives with no vector state. LAUNCH reads its record and writes the status of its offer. Which CSRs
stay behind in a hop is the model's reading (log 27). -/
def Obligations.HopsAndLaunches : Prop :=
  (∀ (f : SR) (s : State), s.executes f.ctl [f.sa] none 0 →
    let n := (s.reg f.sa).toNat
    let target := if n = 8 then some s.cur.1 else s.hopCore (Fin.ofNat 8 n)
    ∃ t, exec (.hop f) s = .next t ∧
      if 8 < n then s.inHandler = false → s.trapTaken t none 0x01 (encode (.hop f))
      else
        othersKept s t ∧ t.ctx.s = s.ctx.s ∧ t.ctx.fcsr = s.ctx.fcsr ∧ t.ctx.pc = s.ctx.pc + 8 ∧
        (∀ x, readByte t.lmem x = readByte s.lmem x ∧ readByte t.hob x = readByte s.hob x) ∧
        match target with
        | none => contextMovedOn s t
        | some c =>
          if c ≠ s.runCore ∧ s.hopAllowed c = true ∧ 256 ≤ s.ctx.sinceHop then
            t.ctx.travel = some c ∧ .event (.hopArrival s.cur.1 s.cur.2) ∈ t.agenda ∧
            (c ≠ s.cur.1 → s.cur ∈ (t.dieAt (dieOf c)).hopSlots)
          else contextMovedOn s t) ∧
  (∀ (c e : CoreId) (x : CtxId) (s : State), (s.ctxAt c x).travel = some e →
    ∃ t, exec (.hopArrival c x) s = .next t ∧ s.sameBytes t ∧ (t.coreAt e).l1 = [] ∧
      (∀ k y, (k, y) ≠ (c, x) → t.ctxAt k y = s.ctxAt k y) ∧
      t.ctxAt c x = { s.ctxAt c x with
        v := Vector.replicate 48 0, vtag := Vector.replicate 48 0xF8, k := Vector.replicate 12 0, kstack := []
        vl := 0, vstart := 0, vdirty := false, hopped := if e = c then none else some e
        travel := none, sinceHop := 0, waitFrom := max s.cycle (s.ctxAt c x).nextIssue }) ∧
  (∀ (f : SR) (s : State), s.executes f.ctl [f.sa] (some f.dst) 0 → s.inHandler = false →
    let u := (issued s f.ctl [f.sa]).drainVector
    let r := u.releaseSteps u.runCore packageScope
    ((s.reg f.sa).toNat % 256 ≠ 0 → ∃ t, exec (.launch f) s = .next t ∧ s.trapTaken t none 0x04 (s.reg f.sa)) ∧
    (∀ v w, (s.reg f.sa).toNat % 256 = 0 → r.readRecord (s.reg f.sa) = .ok (v, w) →
      let o := w.offer v s.ctx.domain s.ctx.prio
      ∃ t, exec (.launch f) s = .next t ∧ o.2.scalarDone t f.dst (BitVec.ofNat 64 o.1) 0))

/-- 06 R118, R139, R140; 13 R297; 16 R366; 17 R411, R412, R414: what the invalidations leave cached, where a stack's home goes,
and how a page moves. -/
def Obligations.Invalidations : Prop :=
  (∀ (f : SR) (s : State), s.executes f.ctl [f.sa] none 0 → s.inHandler = false → s.ctx.mode ≠ .program →
    ∃ t, exec (.plbinv f) s = .next t ∧
      if f.sa ≠ 0 ∧ 2 ^ 16 ≤ (s.reg f.sa).toNat then s.trapTaken t none 0x01 (encode (.plbinv f))
      else contextMovedOn s t ∧ othersKept s t ∧ s.sameBytes t ∧ t.dies = s.dies ∧
        (t.coreAt s.runCore).plb =
          if f.sa = 0 then [] else (s.coreAt s.runCore).plb.filter (fun e => e.domain != (s.reg f.sa).setWidth 16)) ∧
  (∀ (f : SR) (s : State), s.executes f.ctl [f.sa, f.sb] none 0 → s.inHandler = false → s.ctx.mode ≠ .program →
    let p := (s.reg f.sa).toNat
    let n := (s.reg f.sb).toNat
    let lo := if n = 0 then 0 else p * 65536
    let hi := if n = 0 then 2 ^ 52 else (p + n) * 65536
    ∃ t, exec (.pinv f) s = .next t ∧
      if 2 ^ 36 ≤ p ∨ (n ≠ 0 ∧ 2 ^ 36 < p + n) then s.trapTaken t none 0x01 (encode (.pinv f))
      else if s.commandsPending = true then
        s.onlyContext t ∧ s.sameBytes t ∧ t.ctx.midWait = some (.accesses true true true false true) ∧
          t.ctx.pc = s.ctx.pc ∧ t.ctx.s = s.ctx.s
      else contextMovedOn s t ∧ othersKept s t ∧ (∀ x, readByte t.lmem x = readByte s.lmem x) ∧
        (∀ d, (∀ ln ∈ (t.dieAt d).l2, ¬ (lo ≤ ln.va ∧ ln.va < hi)) ∧
          ∀ e ∈ (t.dieAt d).tlb, ¬ (lo < e.leaf.vbase + e.leaf.size ∧ e.leaf.vbase < hi)) ∧
        ∀ c, ∀ ln ∈ (t.coreAt c).l1 ++ (t.coreAt c).icache, ¬ (lo < ln.va + ln.size ∧ ln.va < hi)) ∧
  (∀ (f : SR) (s : State), s.executes f.ctl [f.sa] none 0 → s.inHandler = false → s.ctx.mode = .firmware →
    let i := (s.reg f.sa).toNat
    ∃ t, exec (.handoff f) s = .next t ∧
      if 7 < i ∨ (s.runDie.val ≠ i ∧ s.runDie.val ≠ (i + 1) % 8) then s.trapTaken t none 0x01 (encode (.handoff f))
      else if s.commandsPending = true then
        s.onlyContext t ∧ s.sameBytes t ∧ t.ctx.midWait = some (.accesses true true true false true) ∧
          t.ctx.pc = s.ctx.pc ∧ t.ctx.s = s.ctx.s
      else contextMovedOn s t ∧ othersMoved s t ∧ (∀ x, readByte t.lmem x = readByte s.lmem x) ∧
        (∀ j : DieId, t.owners[j] =
          if j.val = i then (if (s.owners[j]).val = i then Fin.ofNat 8 (i + 1) else Fin.ofNat 8 i) else s.owners[j]) ∧
        ∀ d, (∀ ln ∈ (t.dieAt d).l2, s.inStack i ln.pa = false) ∧ ∀ e ∈ (t.dieAt d).tlb, s.inStack i e.leaf.frame = false) ∧
  (∀ (f : SR) (s : State), s.executes f.ctl [f.sa, f.sb] none 0 → s.inHandler = false → s.ctx.mode ≠ .program →
    let va := (s.reg f.sa).toNat
    let dst := (s.reg f.sb).toNat
    (2 ^ 52 ≤ va → ∃ t, exec (.pmig f) s = .next t ∧ s.trapTaken t none 0x01 (encode (.pmig f))) ∧
    (va < 2 ^ 52 → s.walk va 4 (s.dieAt s.runDie).fw.ptbase = none → s.bad = [] →
      ∃ t, exec (.pmig f) s = .next t ∧ s.trapTaken t none 0x06 (s.reg f.sa)) ∧
    (∀ l, va < 2 ^ 52 → s.walk va 4 (s.dieAt s.runDie).fw.ptbase = some l → dst % l.size ≠ 0 →
      ∃ t, exec (.pmig f) s = .next t ∧ s.trapTaken t none 0x04 (s.reg f.sb)) ∧
    (∀ l u, va < 2 ^ 52 → s.walk va 4 (s.dieAt s.runDie).fw.ptbase = some l → dst % l.size = 0 →
      inOneUnit dst l.size = true → dst < 2 ^ 52 → (issued s f.ctl [f.sa, f.sb]).migrate l dst = .ok u →
      ∃ t, exec (.pmig f) s = .next t ∧ u.scalarDone t 0 0 0 ∧
        (∀ d, ∀ e ∈ (t.dieAt d).tlb, e.leaf.pte ≠ l.pte) ∧
        (memoriesWf s = true → (∀ d, (s.dieAt d).l2 = [] ∧ (s.dieAt d).markers = []) → s.flue = [] →
          (l.pte + 16 ≤ dst ∨ dst + l.size ≤ l.pte) →
          ∀ k < l.size, readByte t.mem (dst + k) = readByte s.mem (l.frame + k))))

/-- 18 R431, R438 to R441; 03 R57; 05 R94 to R97: the element-wise instructions write each active body element, keep or leave
agnostic the others, and raise the active elements' flags; and what the estimates, VFEXP2, VFLOG2 and VFSIN answer in their special
and exact cases. That VSRA of an unsigned type fills with bit w - 1 is the model's reading (log 31). -/
def Obligations.VectorArithmetic : Prop :=
  (∀ (i : Instr) (s : State) (r : VRow), i.wellFormed = true → arithmeticRow s i = some r → executesV s r.ctl r.scalars →
    ∃ t, exec i s = .next t ∧ rowDone s t r) ∧
  (∀ (mode a : Nat) (ftz : Bool), mode < 5 → a < 2 ^ 32 →
    let c := classNumber f32 a
    let neg := 2 ^ 31 ≤ a
    let sign := if neg then 2 ^ 31 else 0
    let zero := c = 3 ∨ c = 4 ∨ ftz = true ∧ (c = 2 ∨ c = 5)
    let nan := 0x7FC00000
    (c = 8 ∨ c = 9 →
      let quiet : FRes := ⟨nan, if c = 8 then 16 else 0⟩
      exp2F mode ftz a = quiet ∧ log2F mode ftz a = quiet ∧ ∀ b : Bool, estF b ftz a = quiet ∧ sinF b mode ftz a = ⟨nan, 16⟩) ∧
    (c = 0 ∨ c = 7 →
      exp2F mode ftz a = ⟨if neg then 0 else 0x7F800000, 0⟩ ∧ log2F mode ftz a = (if neg then ⟨nan, 16⟩ else ⟨0x7F800000, 0⟩) ∧
      estF false ftz a = ⟨sign, 0⟩ ∧ estF true ftz a = (if neg then ⟨nan, 16⟩ else ⟨0, 0⟩) ∧ ∀ b, sinF b mode ftz a = ⟨nan, 16⟩) ∧
    (zero →
      exp2F mode ftz a = ⟨0x3F800000, 0⟩ ∧ log2F mode ftz a = ⟨0xFF800000, 8⟩ ∧
      (∀ b, estF b ftz a = ⟨0x7F800000 + sign, 8⟩) ∧ sinF false mode ftz a = ⟨sign, 0⟩ ∧ sinF true mode ftz a = ⟨0x3F800000, 0⟩) ∧
    (neg → ¬ zero → c ≠ 8 → c ≠ 9 → log2F mode ftz a = ⟨nan, 16⟩ ∧ estF true ftz a = ⟨nan, 16⟩) ∧
    (¬ zero → a % 2 ^ 31 ≤ 2 ^ 21 → estF false ftz a = ⟨0x7F800000 + sign, 5⟩) ∧
    ∀ n m x, f32.decode ftz a = .fin n m x → 0 < m →
      (∀ k : Nat, x ≤ 0 → m = k * 2 ^ (-x).toNat →
        (n = false → k ≤ 127 → exp2F mode ftz a = ⟨(127 + k) * 2 ^ 23, 0⟩) ∧
        (n = true → k ≤ 126 → exp2F mode ftz a = ⟨(127 - k) * 2 ^ 23, 0⟩) ∧
        (n = true → 127 ≤ k → k ≤ 149 → exp2F mode ftz a = if ftz then ⟨0, 3⟩ else ⟨2 ^ (149 - k), 0⟩)) ∧
      (∀ k : Nat, m = 2 ^ k →
        (n = false → ∃ b y z, log2F mode ftz a = ⟨b, 0⟩ ∧ f32.decode false b = .fin (decide (x + k < 0)) y z ∧ z ≤ 0 ∧
          y = (x + k).natAbs * 2 ^ (-z).toNat) ∧
        (-127 ≤ x + k → x + k ≤ 126 → estF false ftz a = ⟨sign + (127 - (x + k)).toNat * 2 ^ 23, 0⟩)) ∧
      match quarterTurns m x with
      | some q =>
        let one := fun (minus : Bool) => if minus then 0xBF800000 else 0x3F800000
        sinF false mode ftz a = ⟨if q % 2 = 0 then sign else one (n ^^ q % 4 == 3), 0⟩ ∧
        sinF true mode ftz a = ⟨if q % 2 = 1 then 0 else one (q % 4 == 2), 0⟩
      | none => (sinF false mode ftz a).flags % 2 = 1 ∧ (sinF true mode ftz a).flags % 2 = 1) ∧
  (∀ ftz, estF false ftz 0x40400000 = ⟨0x3EAAA000, 1⟩)

/-- 18 R431, R433, R434, R437, R442, R443, R449 to R452; 05 R87, R90, R108, R109: the other vector instructions that write a
vector register write its body elements so. That a lone element of a float sum of VRED, and the old element of VDOTB to which
every block adds nothing, are delivered as results are, a NaN canonical and a subnormal under FTZ as zero, is the model's reading
(log 59). -/
def Obligations.VectorMovement : Prop :=
  ∀ (i : Instr) (s : State) (r : VRow), i.wellFormed = true → movementRow s i = some r → executesV s r.ctl r.scalars →
    ∃ t, exec i s = .next t ∧ rowDone s t r

/-- 05 R102; 06 R116, R126; 18 R445, R447, R448; 13 R292: vector loads from the local window and from paged memory write the
active elements and the tag of the pointer or TYPE: the bytes that the local memory or the core's L1 holds, and where a fill is
needed the bytes that a load of path V answers, element after element; an element that cannot be read stops the load there with
a trap, or trims VL for VLDFF above element 0. -/
def Obligations.VectorLoads : Prop :=
  ∀ (i : Instr) (s : State) (shape : Shape) (f : VM) (ty l : Nat), i.wellFormed = true → isVectorLoad i = true →
    memoryForm i = some (shape, f) → loadType (s.reg f.base) f.ctl.ty = .ok (ty, l) →
    accessStarts s shape f (WellFormed.width ty) →
    (shape = .indexed → f.vd ≠ f.sx) →
    let w := WellFormed.width ty
    let found := fun e => (laneFound s shape f w e).getD 0
    ((∀ e ∈ activeBelow s f.ctl s.ctx.vl, (laneFound s shape f w e).isSome = true) →
      ∃ t, exec i s = .next t ∧ rowDone s t (loadRow s f ty l s.ctx.vl found)) ∧
    (∀ (u : Nat → State) (v : Nat → Nat),
      u s.ctx.vstart = issued s ⟨f.ctl.stall, none⟩ (if shape = .strided then [f.base, f.sx] else [f.base]) →
      (∀ e, s.ctx.vstart ≤ e → e < s.ctx.vl →
        if chosen s.ctx f.ctl e then
          ∃ a, laneTarget s shape f w e = .ok a ∧ (u e).load .l1 false a (laneBytes w) = .ok (v e, u (e + 1))
        else u (e + 1) = u e) →
      ∃ t, exec i s = .next t ∧ rowDone (u (max s.ctx.vstart s.ctx.vl)) t (loadRow s f ty l s.ctx.vl v)) ∧
    (∀ e c v, s.ctx.vstart ≤ e → e < s.ctx.vl → chosen s.ctx f.ctl e = true →
      laneStop s shape f rightR w e = some (c, v) →
      (∀ j ∈ activeBelow s f.ctl e, (laneFound s shape f w j).isSome = true) → s.inHandler = false →
      ∃ t, exec i s = .next t ∧
        let r := loadRow s f ty l e found
        if i = .vldff f ∧ 0 < e then
          s.onlyContext t ∧ s.sameBytes t ∧ vectorWrote (s.modCtx (fun x => { x with vl := e })) t f.vd r.tag 0 ∧
            rowWritten r f.ctl.tp (s.ctx.vreg f.vd) (t.ctx.vreg f.vd)
        else
          (s.modCtx (fun x => { x with v := t.ctx.v, vtag := t.ctx.vtag, vdirty := true })).trapTaken t (some e) c v ∧
            rowWritten r false (s.ctx.vreg f.vd) (t.ctx.vreg f.vd) ∧ t.ctx.vtagOf f.vd = r.tag ∧
            ∀ q : BitVec 6, q ≠ f.vd → t.ctx.vreg q = s.ctx.vreg q ∧ t.ctx.vtagOf q = s.ctx.vtagOf q)

/-- 18 R445, R448, R453; 05 R457; 06 R129; 13 R292: vector stores to the local window and to paged memory at its home write the
active elements in order and no other byte; where the die holds no such line each element is a store of path V, element after
element; one that cannot be written stops the store there. -/
def Obligations.VectorStores : Prop :=
  ∀ (i : Instr) (s : State) (shape : Shape) (f : VM) (ty l : Nat), i.wellFormed = true → isVectorLoad i = false →
    memoryForm i = some (shape, f) → storeType (s.reg f.base) f.ctl.ty (s.ctx.vtagOf f.vd) = .ok (ty, l) →
    accessStarts s shape f (WellFormed.width ty) →
    let w := WellFormed.width ty
    ((∀ e ∈ activeBelow s f.ctl s.ctx.vl, (laneSite s shape f w e).isSome = true) →
      ∃ t, exec i s = .next t ∧ vstartCleared s t ∧ (lanesStored s t shape f w s.ctx.vl).onlyContext t ∧
        ((∀ e ∈ activeBelow s f.ctl s.ctx.vl, ∃ cell, laneSite s shape f w e = some (true, cell)) →
          ({ s with lmem := t.lmem }).onlyContext t)) ∧
    (∀ u : Nat → State,
      u s.ctx.vstart = issued s ⟨f.ctl.stall, none⟩ (if shape = .strided then [f.base, f.sx] else [f.base]) →
      (∀ e, s.ctx.vstart ≤ e → e < s.ctx.vl →
        if chosen s.ctx f.ctl e then
          ∃ a, laneTarget s shape f w e = .ok a ∧ laneStores (u e) (u (e + 1)) a w e (lane (s.ctx.vreg f.vd) w e)
        else u (e + 1) = u e) →
      ∃ t, exec i s = .next t ∧ vstartCleared (u (max s.ctx.vstart s.ctx.vl)) t ∧
        (u (max s.ctx.vstart s.ctx.vl)).onlyContext t) ∧
    (∀ e c v, s.ctx.vstart ≤ e → e < s.ctx.vl → chosen s.ctx f.ctl e = true →
      laneStop s shape f rightW w e = some (c, v) →
      (∀ j ∈ activeBelow s f.ctl e, (laneSite s shape f w j).isSome = true) → s.inHandler = false →
      ∃ t, exec i s = .next t ∧ (lanesStored s t shape f w e).trapTaken t (some e) c v)

/-- 02 R32; 03 R43, R60; 05 R101, R102, R457; 13 R293: the checks before any element. A TAG form whose typed sources differ or are
untagged, a vector length that does not fit the width, a pointer of another format, a bad pointer, and a destination that is also a
source, trap. Which comes first within one step of R60 is the model's reading (log 20); TRAPVAL of a load with TYPE TAG through a
pointer without a tag is the model's choice (log 21), and so is that these traps are taken with VSTART at or above VL too (log 58). -/
def Obligations.VectorChecks : Prop :=
  (∀ (i : Instr) (f : FV) (s : State), i ∈ [.vadd f, .vsub f, .vmul f, .vmulh f, .vmac f, .vmin f, .vmax f, .vand f, .vor f,
      .vxor f, .vmerge f, .vfdiv f] → s.inHandler = false → executesV s f.ctl [] →
    (f.ctl.ty = 31 → (s.ctx.vtagOf f.va ≠ s.ctx.vtagOf f.vb ∨ (s.ctx.vtagOf f.va).toNat / 8 = 31) →
      ∃ t, exec i s = .next t ∧
        s.trapTaken t none 0x03 (BitVec.ofNat 64 ((s.ctx.vtagOf f.va).toNat + 256 * (s.ctx.vtagOf f.vb).toNat))) ∧
    (f.ctl.ty.toNat ≤ 11 → min s.ctx.vlcap 4096 < s.ctx.vl * WellFormed.width f.ctl.ty.toNat →
      ∃ t, exec i s = .next t ∧ s.trapTaken t none 0x01 (encode i))) ∧
  (∀ (f : VS) (g : FV) (s : State), s.inHandler = false → f.ctl.ty.toNat ≤ 7 → g.ctl.ty.toNat ≤ 7 →
    (executesV s f.ctl [f.sb] → f.vd = f.va →
      ∃ t, exec (.vslide f) s = .next t ∧ s.trapTaken t none 0x01 (encode (.vslide f))) ∧
    (executesV s g.ctl [] → (g.vd = g.va ∨ g.vd = g.vb) →
      ∃ t, exec (.vperm g) s = .next t ∧ s.trapTaken t none 0x01 (encode (.vperm g))) ∧
    (executesV s g.ctl [] → g.vd = g.va →
      ∃ t, exec (.vred g) s = .next t ∧ s.trapTaken t none 0x01 (encode (.vred g)))) ∧
  (∀ (i : Instr) (s : State) (shape : Shape) (f : VM) (v : Word), memoryForm i = some (shape, f) → s.inHandler = false →
    executesV s f.ctl (if shape = .strided then [f.base, f.sx] else [f.base]) → pointerOk (s.reg f.base) = true →
    (f.ctl.ty ≠ 31 → s.ctx.vl * max (WellFormed.width f.ctl.ty.toNat) (indexBits shape f) ≤ min s.ctx.vlcap 4096) →
    (f.ctl.ty = 31 → isVectorLoad i = false → (s.ctx.vtagOf f.vd).toNat / 8 ≤ 18 →
      s.ctx.vl * max (WellFormed.width ((s.ctx.vtagOf f.vd).toNat / 8)) (indexBits shape f) ≤ min s.ctx.vlcap 4096) →
    (if isVectorLoad i then loadType (s.reg f.base) f.ctl.ty else storeType (s.reg f.base) f.ctl.ty (s.ctx.vtagOf f.vd)) = .error v →
    ∃ t, exec i s = .next t ∧ s.trapTaken t none 0x03 v) ∧
  (∀ (i : Instr) (s : State) (shape : Shape) (f : VM), memoryForm i = some (shape, f) → s.inHandler = false →
    executesV s f.ctl (if shape = .strided then [f.base, f.sx] else [f.base]) →
    let vs := s.ctx.vtagOf f.vd
    let ty := if f.ctl.ty = 31 then vs.toNat / 8 else f.ctl.ty.toNat
    let wide := min s.ctx.vlcap 4096 < s.ctx.vl * max (WellFormed.width ty) (indexBits shape f)
    (f.ctl.ty ≠ 31 ∨ isVectorLoad i = false ∧ ty ≤ 18 → wide → ∃ t, exec i s = .next t ∧ s.trapTaken t none 0x01 (encode i)) ∧
    (f.ctl.ty = 31 → isVectorLoad i = false → 18 < ty → pointerOk (s.reg f.base) = false →
      ∃ t, exec i s = .next t ∧ s.trapTaken t none 0x03 (vs.setWidth 64)) ∧
    (f.ctl.ty = 31 ∧ isVectorLoad i = true ∨ ty ≤ 18 ∧ ¬ wide → pointerOk (s.reg f.base) = false →
      ∃ t, exec i s = .next t ∧ s.trapTaken t none 0x05 (s.reg f.base))) ∧
  (∀ (p : Word) (ty : BitVec 5), pointerOk p = true →
    loadType p ty =
      if p.getLsbD 63 = false then
        if ty = 31 then .error (BitVec.ofNat 64 (0xF800 + (p.extractLsb' 55 8).toNat))
        else .ok (ty.toNat, if 16 ≤ ty.toNat ∧ ty.toNat ≤ 18 then 3 else 0)
      else if ty = 31 ∨ ty = p.extractLsb' 58 5 then .ok ((p.extractLsb' 58 5).toNat, (p.extractLsb' 55 3).toNat)
      else .error (BitVec.ofNat 64 ((p.extractLsb' 55 8).toNat + 256 *
        (8 * ty.toNat + if 16 ≤ ty.toNat ∧ ty.toNat ≤ 18 then 3 else 0))))

/-- 18 R432, R436, R444; 16 R376 to R385; 10 R237; 03 R44, R65: comparisons, mask loads and stores, the mask instructions, one
element to and from a scalar register, and the admission of a queued instruction. -/
def Obligations.MaskInstructions : Prop :=
  (∀ (i : Instr) (s : State) (g : Comparison) (ty l : Nat), i.wellFormed = true → comparisonOf s i = some g →
    s.ctx.elemType arithType g.ctl.ty g.typed = .ok (ty, l) →
    s.ctx.vl * WellFormed.width ty ≤ min s.ctx.vlcap 4096 → executesV s g.ctl g.scalars →
    let w := WellFormed.width ty
    let rel := fun e => relationOf s g.fn ty (lane (s.ctx.vreg g.va) w e) (g.b w e)
    ∃ t, exec i s = .next t ∧
      if s.ctx.vl ≤ s.ctx.vstart then s.onlyContext t ∧ s.sameBytes t ∧ vstartCleared s t
      else
        maskDone s t g.kd (((activeBelow s g.ctl s.ctx.vl).map (fun e => (rel e).flags)).foldl (fun a b => a ||| b) 0) ∧
        t.ctx.vstart = 0 ∧ maskWritten g.ctl.kp g.ctl.tp s.ctx.vstart s.ctx.vl (laneCount s.ctx w) (chosen s.ctx g.ctl)
          (fun e => (rel e).bits == 1) (s.ctx.mask g.kd) (t.ctx.mask g.kd)) ∧
  (∀ (f : VM) (s : State) (o : Nat), s.ctx.vl * 4 ≤ min s.ctx.vlcap 4096 → pointerOk (s.reg f.base) = true →
    executesV s f.ctl [f.base] →
    let a : Int := ((s.reg f.base).toNat % 2 ^ 52 : Nat) + f.off.toInt
    a = 0xFFF0000000000 + o → o + (s.ctx.vl + 7) / 8 ≤ 0x60000 →
    let j0 := s.ctx.vstart / 8
    let n := (s.ctx.vl + 7) / 8 - j0
    let ks := (s.ctx.mask (f.vd.setWidth 4)).toNat % 2 ^ s.ctx.vl
    ((Instr.kld f).wellFormed = true → ∃ t, exec (.kld f) s = .next t ∧
      if s.ctx.vl ≤ s.ctx.vstart then s.onlyContext t ∧ s.sameBytes t ∧ vstartCleared s t
      else maskDone s t (f.vd.setWidth 4) 0 ∧ t.ctx.vstart = 0 ∧
        maskWritten false f.ctl.tp s.ctx.vstart s.ctx.vl (laneCount s.ctx 4) (fun _ => true)
          (fun e => (readByte s.lmem (localCell s (o + e / 8))).getLsbD (e % 8))
          (s.ctx.mask (f.vd.setWidth 4)) (t.ctx.mask (f.vd.setWidth 4))) ∧
    ((Instr.kst f).wellFormed = true → ∃ t, exec (.kst f) s = .next t ∧ vstartCleared s t ∧
      ({ s with lmem := t.lmem }).onlyContext t ∧
      if s.ctx.vl ≤ s.ctx.vstart then s.sameBytes t
      else wroteBytes s.lmem t.lmem (localCell s (o + j0)) n (ks / 256 ^ j0))) ∧
  (∀ (f : FK) (s : State), s.executes f.ctl [] none 0 → s.inHandler = false →
    let x := s.ctx
    ((Instr.klog f).wellFormed = true → ∃ t, exec (.klog f) s = .next t ∧ maskDone s t f.kd 0 ∧ t.ctx.vstart = x.vstart ∧
      ∀ e < 1024, (t.ctx.mask f.kd).getLsbD e = logicBit f.fn.toNat ((x.mask f.ka).getLsbD e) ((x.mask f.kb).getLsbD e)) ∧
    ((Instr.kmov f).wellFormed = true → ∃ t, exec (.kmov f) s = .next t ∧
      if f.kd = f.ka then s.scalarDone t 0 0 0
      else maskDone s t f.kd 0 ∧ t.ctx.vstart = x.vstart ∧ t.ctx.mask f.kd = x.mask f.ka) ∧
    (∃ t, exec (.kpush f) s = .next t ∧
      if 16 ≤ x.kstack.length then s.trapTaken t none 0x0B (BitVec.ofNat 64 x.kstack.length)
      else ({ x with k := x.k.set 0 (x.mask 0 &&& x.mask f.ka), kstack := (x.mask 0, x.mask f.ka) :: x.kstack
                     vdirty := true }).onlyScalars t.ctx ∧
        t.ctx.s = x.s ∧ t.ctx.pc = x.pc + 8 ∧ t.ctx.fcsr = x.fcsr ∧ s.onlyContext t ∧ s.sameBytes t) ∧
    (∀ i ∈ [Instr.kpop f, Instr.kelse f], ∃ t, exec i s = .next t ∧
      match x.kstack with
      | [] => s.trapTaken t none 0x0C 0
      | (m, c) :: rest =>
        ({ x with k := x.k.set 0 (if i = Instr.kpop f then m else m &&& ~~~c), kstack := if i = Instr.kpop f then rest else x.kstack
                  vdirty := true }).onlyScalars t.ctx ∧
        t.ctx.s = x.s ∧ t.ctx.pc = x.pc + 8 ∧ t.ctx.fcsr = x.fcsr ∧ s.onlyContext t ∧ s.sameBytes t) ∧
    (∃ t, exec (.kbr f) s = .next t ∧
      s.scalarsTo t (if (setBelow x 0 = [] ∧ f.fn = 0) ∨ (setBelow x 0 ≠ [] ∧ f.fn ≠ 0) then x.pc + 8 * f.off.signExtend 64
        else x.pc + 8) 0 0 0)) ∧
  (∀ (f : FK) (s : State), s.executes f.ctl [] (some f.sd) 0 →
    (∃ t, exec (.kcnt f) s = .next t ∧ s.scalarDone t f.sd (BitVec.ofNat 64 (setBelow s.ctx f.ka).length) 0) ∧
    (∃ t, exec (.kfirst f) s = .next t ∧
      s.scalarDone t f.sd (match setBelow s.ctx f.ka with | e :: _ => BitVec.ofNat 64 e | [] => BitVec.allOnes 64) 0)) ∧
  (∀ (f : VS) (s : State) (ty l : Nat), executesV s f.ctl [f.sb] →
    ((Instr.vext f).wellFormed = true → s.ctx.elemType anyType f.ctl.ty [f.va] = .ok (ty, l) →
      let w := WellFormed.width ty
      let i := (s.reg f.sb).toNat
      let x := BitVec.ofNat w (lane (s.ctx.vreg f.va) w i)
      ∃ t, exec (.vext f) s = .next t ∧ s.onlyContext t ∧ s.sameBytes t ∧ ({ s.ctx with vstart := 0 }).onlyScalars t.ctx ∧
        t.ctx.fcsr = s.ctx.fcsr ∧ t.ctx.pc = s.ctx.pc + 8 ∧
        t.ctx.s = regsAfter s.ctx.s f.vd (if laneCount s.ctx w ≤ i then 0
          else if ty ∈ [0, 2, 4, 6, 14, 16, 17] then x.signExtend 64 else x.setWidth 64)) ∧
    ((Instr.vins f).wellFormed = true → s.inHandler = false →
      let w := WellFormed.width f.ctl.ty.toNat
      ∃ t, exec (.vins f) s = .next t ∧
        if laneCount s.ctx w ≤ f.imm.toNat then s.trapTaken t none 0x01 (encode (.vins f))
        else
          s.onlyContext t ∧ s.sameBytes t ∧
          vectorWrote s t f.vd (BitVec.ofNat 8 (8 * f.ctl.ty.toNat + if 16 ≤ f.ctl.ty.toNat then 3 else 0)) 0 ∧
          ∀ j < 4096, (t.ctx.vreg f.vd).getLsbD j =
            if w * f.imm.toNat ≤ j ∧ j < w * f.imm.toNat + w then (s.reg f.sb).getLsbD (j - w * f.imm.toNat)
            else (s.ctx.vreg f.vd).getLsbD j)) ∧
  (∀ (c : CoreId) (s : State) (e : VqEntry) (rest : List VqEntry), (s.coreAt c).vqueue = e :: rest →
    ∃ t, exec (.vectorAdmission c) s = .next t ∧ (t.coreAt c).vqueue = rest ∧ (t.coreAt c).ctxs = (s.coreAt c).ctxs ∧
      (∀ k, k ≠ c → t.coreAt k = s.coreAt k) ∧ t.dies = s.dies ∧ s.sameBytes t ∧ t.cycle = s.cycle ∧
      ∃ w ∈ (t.coreAt c).walks, ∃ a, w.ctx = e.ctx ∧ w.slots = e.slots ∧ w.writes = e.writes ∧
        w.freeAt = a + (e.slots - 1) + 9 ∧ e.since ≤ a ∧
        ∀ v ∈ (s.coreAt c).walks, v.ctx = e.ctx → shares e.reads v.writes = true → v.ready ≤ a)

/-- 09 R194, R196, R206, R207, R215; 17 R396: leases are taken and given up, MSHAPE and MTILE grant tile lengths, and MWAIT
returns the flags of the completed commands. -/
def Obligations.MatrixLeases : Prop :=
  (∀ (f : FX) (s : State), s.executes f.ctl [] (some f.sd) 0 → s.inHandler = false →
    ∃ t, exec (.mshape f) s = .next t ∧ s.scalarDone t f.sd 0x1000200002000200 0) ∧
  (∀ (f : FX) (s : State), s.executes f.ctl [f.sa] (some f.sd) 0 → s.inHandler = false →
    let n := (s.reg f.sa).toNat
    let lstate := if s.ctx.mstat.lstate = 3 then (0 : BitVec 2) else s.ctx.mstat.lstate
    ∃ t, exec (.mlease f) s = .next t ∧
      if s.ctx.hopped.isSome = true ∨ n = 0 ∨ 12 < n ∨ s.ctx.holdsLease = true then s.trapTaken t none 0x01 (encode (.mlease f))
      else
        s.sameBytes t ∧ match s.grantNumber (dieOf s.cur.1) n with
        | none => matrixWrote s t f.sd 0 ∧ homeFirebox t = homeFirebox s ∧ t.ctx.mstat = { s.ctx.mstat with lstate := lstate } ∧
            t.ctx.mlease = s.ctx.mlease
        | some (num, launch) =>
          matrixWrote s t f.sd (BitVec.ofNat 64 num) ∧ 1 ≤ num ∧ num ≤ 8 ∧ (∀ l ∈ (homeFirebox s).leases, l.num ≠ num) ∧
            (homeFirebox s).slotsUsed + n ≤ 12 ∧
            homeFirebox t = { homeFirebox s with
              leases := (homeFirebox s).leases ++ [Lease.fresh num n s.cur.1 s.cur.2 launch s.ctx.domain] } ∧
            t.ctx.mlease = ⟨0, BitVec.ofNat 4 n, BitVec.ofNat 4 num⟩ ∧ t.ctx.mstat = { s.ctx.mstat with lstate := 1 }) ∧
  (∀ (f : FX) (s : State) (l : Lease), s.lease = some l → l.fault = none → s.executes f.ctl [f.sa, f.sb, f.sc] (some f.sd) 0 →
    s.inHandler = false → (Instr.mtile f).wellFormed = true →
    ∃ t, exec (.mtile f) s = .next t ∧
      let k := if f.mode = 1 then tileK f.ty true (t.cycle - 1) (s.reg f.sc).toNat else stageK f.ty (s.reg f.sc).toNat
      matrixWrote s t f.sd (BitVec.ofNat 64 k) ∧ s.onlyContext t ∧ s.sameBytes t ∧
        t.ctx.mtm = BitVec.ofNat 64 (min (s.reg f.sa).toNat 512) ∧ t.ctx.mtn = BitVec.ofNat 64 (min (s.reg f.sb).toNat 512) ∧
        t.ctx.mtk = BitVec.ofNat 64 k ∧ t.ctx.mlease = s.ctx.mlease ∧ t.ctx.mstat = s.ctx.mstat) ∧
  (∀ (f : FX) (s : State) (l : Lease), s.lease = some l → l.fault = none → s.executes f.ctl [] none 0 → s.inHandler = false →
    (∃ t, exec (.mwait f) s = .next t ∧
      if l.queue ≠ [] then waitsFor s t .lease
      else matrixWrote s t 0 0 ∧ s.sameBytes t ∧ t.ctx.mlease = { s.ctx.mlease with tflags := l.pflags } ∧
        t.ctx.mstat = s.ctx.mstat ∧ (t.coreAt s.runCore).l1 = [] ∧ (∃ m, t.lease = some m ∧ m.pflags = 0)) ∧
    (∃ t, exec (.mfree f) s = .next t ∧ s.sameBytes t ∧
      if l.queue ≠ [] then s.onlyContext t ∧ t.ctx.midWait = some .commands ∧ t.ctx.pc = s.ctx.pc ∧ t.ctx.s = s.ctx.s
      else matrixWrote s t 0 0 ∧ t.ctx.mlease = ⟨0, 0, 0⟩ ∧ t.ctx.mstat = ⟨0, 0, 0⟩ ∧ t.ctx.holdsLease = false ∧
        (∀ o ∈ (homeFirebox t).leases, o.num ≠ l.num) ∧ ∀ o ∈ (homeFirebox s).leases, o.num ≠ l.num →
          ∃ p ∈ (homeFirebox t).leases, p.num = o.num))

/-- 09 R205 steps 1 and 2, R216, R217: a matrix instruction of a context without a lease, or whose lease holds a fault not yet
delivered, traps; delivery sets MSTAT and MKSTART; the next matrix instruction, here MWAIT, resumes the held commands or
discards them. That a context whose lease MSAVE has saved counts as one without a lease until MREST is the model's reading
(log 30). -/
def Obligations.MatrixFaults : Prop :=
  (∀ (f : FX) (s : State) (l : Lease) (q : MFault), s.lease = some l → l.fault = some q → q.delivered = true →
    s.executes f.ctl [] none 0 → s.inHandler = false → (homeFirebox s).find l.num = some l →
    (∀ o ∈ (homeFirebox s).leases, o.core = l.core → o.ctx = l.ctx → o.num = l.num) →
    ∃ t m, exec (.mwait f) s = .next t ∧ t.ctx.mkvalid = false ∧ t.ctx.mkpos = 0 ∧ t.lease = some m ∧ m.fault = none ∧ s.sameBytes t ∧
      othersKept s t ∧
      (s.ctx.mkvalid = true → l.queue ≠ [] → m.pos = s.ctx.mkpos.toNat ∧ m.queue = l.queue ∧ m.stageA = l.stageA ∧
        m.stageB = l.stageB ∧ m.tiles = l.tiles ∧ m.state = (if (homeFirebox s).holder = none then .running else .waiting) ∧
        t.ctx.status = .waiting .lease ∧ t.ctx.pc = s.ctx.pc) ∧
      (s.ctx.mkvalid = false → m.queue = [] ∧ m.state = .idle ∧ m.tiles = l.tiles ∧ t.ctx.pc = s.ctx.pc + 8 ∧
        ∀ c ∈ l.queue.head?, ∀ g, decode c.word = .ok (.mlda g) → ∃ h, m.stageA = some h ∧ m.stageB = l.stageB ∧
          h.ty = g.ty ∧ h.rows = c.mtm.toNat ∧ h.count = c.mtk.toNat ∧ ∀ i, l.pos ≤ i → ∀ j, Stage.at_ m.stageA i j = 0)) ∧
  ∀ (i : Instr) (f : FX) (srcs : List (BitVec 6)) (dst : Option (BitVec 6)) (s : State), matrixForm i = some (f, srcs, dst) →
    s.ctx.mode.allows (leastMode i) = true → s.executes f.ctl srcs dst 0 → s.inHandler = false →
    (s.lease = none → ∃ t, exec i s = .next t ∧
      if s.ctx.mstat.lstate = 3 then
        (s.modCtx (fun x => { x with mstat := { x.mstat with lstate := 0 } })).trapTaken t none 0x0E 0
      else s.trapTaken t none 0x01 (encode i)) ∧
    (∀ l q, s.lease = some l → l.fault = some q → q.delivered = false →
      ∃ t u, exec i s = .next t ∧
        u = (s.putLease (dieOf s.cur.1) { l with fault := some { q with delivered := true } }).modCtx (fun x => { x with
          mkvalid := true, mkpos := BitVec.ofNat 16 q.pos, mstat := ⟨q.cause, 1, q.faddr⟩ }) ∧
        u.trapTaken t none q.cause ((l.queue.head?.map (fun c => c.pc)).getD 0))

/-- 09 R197, R204, R205; 17 R395, R397 to R399: a matrix command that passes the checks is queued with its captured operands, its
lease takes the array if it is free; while the queue is full the instruction waits, before any of those checks. -/
def Obligations.MatrixCommandsQueue : Prop :=
  ∀ (i : Instr) (f : FX) (srcs : List (BitVec 6)) (s : State) (l : Lease),
    matrixForm i = some (f, srcs, none) → s.lease = some l → l.fault = none → s.executes f.ctl srcs none 0 → s.inHandler = false →
    (16 ≤ l.queue.length → i ∈ [.mzero f, .mlda f, .mldb f, .mma f, .mmab f, .mout f] →
      ∃ t, exec i s = .next t ∧ s.onlyContext t ∧ s.sameBytes t ∧ t.ctx.midWait = some .queueRoom ∧ t.ctx.pc = s.ctx.pc ∧
        t.ctx.s = s.ctx.s) ∧
    (∀ word sa sb sc, l.queue.length < 16 → (homeFirebox s).find l.num = some l →
      (∀ o ∈ (homeFirebox s).leases, o.core = l.core → o.ctx = l.ctx → o.num = l.num) → queuedCommand s l i word sa sb sc →
      ∃ t, exec i s = .next t ∧ s.sameBytes t ∧ othersKept s t ∧ contextMovedOn s t ∧ ∃ m, t.lease = some m ∧
        m = { l with
          queue := l.queue ++ [⟨s.ctx.pc, word, sa, sb, sc, s.ctx.mtm, s.ctx.mtn, s.ctx.mtk⟩]
          loadedA := l.loadedA || i == .mlda f
          loadedB := l.loadedB || i == .mldb f
          state := if l.state ≠ .idle then l.state else if (homeFirebox s).holder = none then .running else .waiting
          since := m.since } ∧
        (l.state = .idle → (homeFirebox s).holder = none →
          (homeFirebox t).holder = some l.num ∧ .event (.fireboxCommandRun (dieOf s.cur.1)) ∈ t.agenda))

/-- 09 R219, R220; 17 R401: MSAVE writes the lease's image, its queued commands in it, and gives the lease up; MREST takes a
lease for the image with the commands that it counts, or finds no room and the lease is revoked. That MSAVE never waits, and the
fields of the lease image that hold a fault and a position, are the model's (log 33). -/
def Obligations.LeasesSavedAndRestored : Prop :=
  (∀ (f : FX) (s u : State) (l : Lease), s.lease = some l → l.fault = none → s.executes f.ctl [f.sa] none 0 →
    s.inHandler = false → s.ctx.mode ≠ .program → pointerOk (s.reg f.sa) = true → (s.reg f.sa).toNat % 2 ^ 52 % 4096 = 0 →
    (issued s f.ctl [f.sa]).unitWriteAt (dieOf s.cur.1) l.domain rightW (some s.cur) ((s.reg f.sa).toNat % 2 ^ 52 : Nat)
      (4096 + l.nslot * 2 ^ 20) (leaseImage s.ctx l) = .ok u →
    ∃ t, exec (.msave f) s = .next t ∧ matrixWrote s t 0 0 ∧ u.sameBytes t ∧ t.ctx.mleaseSaved = true ∧
      t.ctx.mlease = s.ctx.mlease ∧ ∀ o ∈ (homeFirebox t).leases, o.num ≠ l.num) ∧
  (∀ (f : FX) (s : State), s.ctx.mleaseSaved = true → s.executes f.ctl [f.sa] none 0 → s.inHandler = false →
    s.ctx.mode ≠ .program → pointerOk (s.reg f.sa) = true → (s.reg f.sa).toNat % 2 ^ 52 % 4096 = 0 →
    let n := s.ctx.mlease.nslot.toNat
    ((homeFirebox s).freeNumber = none ∨ 12 < (homeFirebox s).slotsUsed + n →
      ∃ t, exec (.mrest f) s = .next t ∧ matrixWrote s t 0 0 ∧ s.sameBytes t ∧ homeFirebox t = homeFirebox s ∧
        t.ctx.mlease = ⟨0, 0, 0⟩ ∧ t.ctx.mstat = { s.ctx.mstat with lstate := 3 } ∧ t.ctx.mleaseSaved = false) ∧
    (∀ num img u, (homeFirebox s).freeNumber = some num → (homeFirebox s).slotsUsed + n ≤ 12 →
      (issued s f.ctl [f.sa]).unitReadAt (dieOf s.cur.1) s.ctx.domain rightR ((s.reg f.sa).toNat % 2 ^ 52 : Nat)
        (4096 + n * 2 ^ 20) = .ok (img, u) → leaseImageBad img = false →
      ∃ t, exec (.mrest f) s = .next t ∧ matrixWrote s t 0 0 ∧ u.sameBytes t ∧ t.ctx.mleaseSaved = false ∧
        t.ctx.mlease.lease = BitVec.ofNat 4 num ∧ t.ctx.mlease.nslot = s.ctx.mlease.nslot ∧
        ∃ m ∈ (homeFirebox t).leases, m.num = num ∧ m.nslot = n ∧ m.core = s.cur.1 ∧ m.ctx = s.cur.2 ∧
          m.queue.length = img / 2 ^ 896 % 2 ^ 64))

/-- 05 R103 to R107, R110; 06 R138; 09 R197, R198, R208 to R211; 17 R395 to R399: the Firebox reads and writes the bytes that its
die's L2 holds at their home; MLDA and MLDB leave the elements of their rows in the stages, MZERO, MMA and MMAB what their rules
give in their tile, in no other and with its flags, from the stages or the Hob, and MOUT writes the converted tile row by row;
the array goes to the lease that has waited longest; the Hob's refresh windows. -/
def Obligations.FireboxRuns : Prop :=
  (∀ (s : State) (d : DieId) (domain : BitVec 16) (need a n p v : Nat) (w : Option (CoreId × CtxId)), linesOk s = true → s.weak = [] →
    (∀ k < n, unitByte s d domain need (a + k) = some (p + k)) →
    s.unitReadAt d domain need a n = .ok (readN s.mem p n, s) ∧
    (a % 32 + n ≤ 32 → s.unitWriteAt d domain need w a n v = .ok (s.physWrite p n v))) ∧
  (∀ (d : DieId) (s : State) (l : Lease) (c : MCmd) (rest : List MCmd) (f : FX),
    (s.dieAt d).firebox.holder = some l.num → (s.dieAt d).firebox.find l.num = some l → l.queue = c :: rest →
    (s.dieAt d).firebox.stageOwner = some l.num → tilesSorted l → c.mtm.toNat ≤ 512 → c.mtn.toNat ≤ 512 →
    let slot := f.tile.toNat
    let rows := c.mtm.toNat
    let cols := c.mtn.toNat
    let steps := c.mtk.toNat
    let w := WellFormed.width f.ty.toNat
    (decode c.word = .ok (.mzero f) →
      let named := if f.ty = 19 then [slot, slot + 1, slot + 2] else [slot]
      let first := slot - slot % 3
      let ended := fun j => (∃ k ∈ named, q96Base l.types k = some first) ∧ first ≤ j ∧ j < first + 3
      (f.ty = 19 → slot % 3 = 0 ∧ slot + 2 < 12) → (∀ k ∈ named, ∀ b, q96Base l.types k = some b → b = first) →
      ∃ m, ranCommand d s s l rest m ∧ m.pflags = l.pflags ∧
        (∀ j x y, x < 512 → y < 512 → (j ∈ named ∨ ended j → tileElement m j x y = 0) ∧
          (¬ (j ∈ named ∨ ended j) → tileElement m j x y = tileElement l j x y)) ∧
        ∀ j < 12, (f.ty = 19 → j = slot → m.types[j]? = some (.q96 (c.sa.setWidth 16).toInt)) ∧
          (f.ty = 19 → j = slot + 1 ∨ j = slot + 2 → m.types[j]? = some .q96later) ∧
          (¬ (f.ty = 19 ∧ j ∈ named) → j ∈ named ∨ ended j → m.types[j]? = some .f32) ∧
          (¬ (j ∈ named ∨ ended j) → m.types[j]? = l.types[j]?)) ∧
    (∀ (u : Nat → State) (v : Nat → Nat), l.pos = 0 → u 0 = s →
      (decode c.word = .ok (.mlda f) →
        (∀ i < rows, (u i).unitReadAt d l.domain (rightR + rightM) (rowAt c i) ((steps * w + 7) / 8) = .ok (v i, u (i + 1))) →
        ∃ m, ranCommand d s (u rows) l rest m ∧ m.tiles = l.tiles ∧ m.types = l.types ∧ m.pflags = l.pflags ∧
          m.stageB = l.stageB ∧ m.stageA = some (stageOf c f.ty rows steps v)) ∧
      (decode c.word = .ok (.mldb f) →
        (∀ i < steps, (u i).unitReadAt d l.domain (rightR + rightM) (rowAt c i) ((cols * w + 7) / 8) = .ok (v i, u (i + 1))) →
        ∃ m, ranCommand d s (u steps) l rest m ∧ m.tiles = l.tiles ∧ m.types = l.types ∧ m.pflags = l.pflags ∧
          m.stageA = l.stageA ∧ m.stageB = some (stageOf c f.ty steps cols v)) ∧
      (decode c.word = .ok (.mout f) →
        let size := if f.ty = 10 ∨ f.ty = 4 then 4 else 2
        let out := fun i j => tileOut f.ty.toNat f.mode.toNat l.types[slot]? (tileElement l slot i j)
        f.ty.toNat ∈ [4, 8, 9, 10] → (∀ i < rows, (u i).unitWriteAt d l.domain rightW (some (l.core, l.ctx)) (rowAt c i) (cols * size)
          (packedNumber (8 * size) (fun j => (out i j).bits) cols) = .ok (u (i + 1))) →
        ∃ m, ranCommand d s (u rows) l rest m ∧ m.tiles = l.tiles ∧ m.types = l.types ∧
          flagsRaised l m (fun b => ∃ i < rows, ∃ j < cols, (out i j).flags.testBit b = true))) ∧
    (decode c.word = .ok (.mma f) → f.ty.toNat ∈ [8, 9, 12, 13] → hobReady s d f →
      let sum := fun i j => productSum f.ty.toNat (Stage.at_ l.stageA i) (fun k => operandB s d l c f k j) (tileElement l slot i j)
        l.pos steps
      let adds := fun i j => i < rows ∧ j < cols ∧ steps ≠ 0
      ∃ m, ranCommand d s s l rest m ∧ m.types = l.types ∧
        (∀ n i j, i < 512 → j < 512 → (n = slot → adds i j → tileElement m n i j = BitVec.ofNat 96 (sum i j).bits) ∧
          (¬ (n = slot ∧ adds i j) → tileElement m n i j = tileElement l n i j)) ∧
        flagsRaised l m (fun b => ∃ i j, adds i j ∧ (sum i j).flags.testBit b = true)) ∧
    (∀ (e : Int) (sa sb : Nat → Nat → Nat), decode c.word = .ok (.mmab f) → f.ty.toNat ∈ [16, 17] → hobReady s d f →
      (s.dieAt d).firebox.arrayBad = [] → l.types[slot]? = some (.q96 e) →
      let scale := fun (p : Word) (i q : Nat) =>
        s.unitReadAt d l.domain (rightR + rightM) ((p.toNat % 2 ^ 52 : Nat) + i * (steps / 24 : Nat) + q : Int) 1
      (∀ q < steps / 24, (∀ i < rows, scale c.sa i q = .ok (sa i q, s)) ∧ ∀ j < cols, scale c.sb j q = .ok (sb j q, s)) →
      let acc := fun i j => blocksAdded w e (Stage.at_ l.stageA i) (fun k => operandB s d l c f k j) (sa i) (sb j)
        (tileElement l slot i j) (l.pos / 24) (steps / 24)
      let adds := fun i j => i < rows ∧ j < cols
      ∃ m, ranCommand d s s l rest m ∧ m.types = l.types ∧
        (∀ n i j, i < 512 → j < 512 → (n = slot → adds i j → tileElement m n i j = BitVec.ofInt 96 (acc i j).1) ∧
          (¬ (n = slot ∧ adds i j) → tileElement m n i j = tileElement l n i j)) ∧
        flagsRaised l m (fun b => ∃ i j, adds i j ∧ (acc i j).2.testBit b = true))) ∧
  (∀ (d : DieId) (s : State) (l : Lease), (s.dieAt d).firebox.holder = none → l ∈ (s.dieAt d).firebox.leases →
    l.state = .waiting → (∀ o ∈ (s.dieAt d).firebox.leases, o.state = .waiting → o ≠ l →
      l.since < o.since ∨ (l.since = o.since ∧ l.num < o.num)) →
    ∃ t, exec (.arrayGrant d) s = .next t ∧ (t.dieAt d).firebox.holder = some l.num ∧ (t.dieAt d).firebox.commands = 0 ∧
      (t.dieAt d).firebox.grantedAt = s.cycle ∧ .event (.fireboxCommandRun d) ∈ t.agenda ∧ t.cores = s.cores ∧ s.sameBytes t) ∧
  (∀ (d : DieId) (s : State) (l o : Lease), (s.dieAt d).firebox.holder = some l.num →
    (s.dieAt d).firebox.find l.num = some l → (s.dieAt d).firebox.nextWaiting = some o →
    ∃ t, exec (.quantumExpiry d) s = .next t ∧ t.cores = s.cores ∧ s.sameBytes t ∧
      if 256 ≤ (s.dieAt d).firebox.commands ∨ (s.dieAt d).firebox.grantedAt + 2 ^ 20 ≤ s.cycle then
        (t.dieAt d).firebox.holder = some o.num ∧ (t.dieAt d).firebox.commands = 0 ∧ (t.dieAt d).firebox.grantedAt = s.cycle
      else t = s) ∧
  (∀ (d : DieId) (s : State),
    (∃ t, exec (.hobRefreshStart d) s = .next t ∧ t.cycle = (if 32512 ≤ s.cycle % 32768 then s.cycle
        else s.cycle - s.cycle % 32768 + 32512) ∧ .event (.hobRefreshEnd d) ∈ t.agenda ∧ t.cores = s.cores ∧ s.sameBytes t) ∧
    ∃ t, exec (.hobRefreshEnd d) s = .next t ∧ t.cycle = (if 32512 ≤ s.cycle % 32768 then s.cycle - s.cycle % 32768 + 32768
        else s.cycle) ∧ .event (.fireboxCommandRun d) ∈ t.agenda ∧ t.cores = s.cores ∧ s.sameBytes t)

/-- 10 R238 to R249; 17 R417; 18 R428: TEX, TEXG and RAYQ write the elements of four registers; without an active element they
read no memory; a pointer with a bad tag traps at the first active element; a texel goes to the channels, a texture of one texel
filters to it, and a ray query finds the one triangle of a leaf or misses. -/
def Obligations.Textures : Prop :=
  (∀ (i : Instr) (s : State) (f : FV) (tag1 : BitVec 8), i.wellFormed = true → quadForm i = some (f, tag1) → quadStarts s f →
    (activeBelow s f.ctl s.ctx.vl = [] →
      ∃ t, exec i s = .next t ∧ s.onlyContext t ∧ s.sameBytes t ∧ quadDone s t f tag1 (fun _ _ => 0)) ∧
    (∀ e rest, activeBelow s f.ctl s.ctx.vl = e :: rest → pointerOk (s.reg (quadReg f)) = false → s.inHandler = false →
      ∃ t, exec i s = .next t ∧
        (s.modCtx (fun x => { x with v := t.ctx.v, vtag := t.ctx.vtag, vdirty := true })).trapTaken t (some e) 0x05
          (s.reg (quadReg f)) ∧ runKept s t f ∧
        ∀ k < 4, t.ctx.vtagOf (f.vd + BitVec.ofNat 6 k) = quadTag tag1 k ∧
          rowWritten (quadRow s f k e (quadTag tag1 k) (fun _ => 0)) false (s.ctx.vreg (f.vd + BitVec.ofNat 6 k))
            (t.ctx.vreg (f.vd + BitVec.ofNat 6 k)))) ∧
  (∀ (s u : State) (f : FV) (e : Nat) (d : Texture) (x y z v : Nat) (w : State) (q : Quad),
    (Instr.tex f).wellFormed = true → f.fn = 0 → quadStarts s f → activeBelow s f.ctl s.ctx.vl = [e] →
    (issuedV s f).readTexture (s.reg (quadReg f)) = .ok (d, u) →
    mapAxis false d.au d.w (quadIn s f 0 e) = .one (some x) → mapAxis false d.av d.h (quadIn s f 1 e) = .one (some y) →
    mapAxis false d.aw d.d (quadIn s f 2 e) = .one (some z) →
    u.texRead (texelAddress d x y z) (texelBytes d.fmt) = .ok (v, w) → plainChannels d.fmt v = some q →
    ∃ t, exec (.tex f) s = .next t ∧ othersKept s t ∧ quadDone s t f 0x50 (fun k _ => fourOf q k)) ∧
  (∀ (s u : State) (f : FV) (e : Nat) (d : Texture) (v : Nat) (q : Quad), d.w = 1 → d.h = 1 → d.d = 1 →
    quadStarts s f → activeBelow s f.ctl s.ctx.vl = [e] → (issuedV s f).readTexture (s.reg (quadReg f)) = .ok (d, u) →
    u.texRead d.base (texelBytes d.fmt) = .ok (v, u) → plainChannels d.fmt v = some q →
    ((Instr.tex f).wellFormed = true → ∃ t, exec (.tex f) s = .next t ∧ othersKept s t ∧
      quadDone s t f 0x50 (fun k _ => fourOf q k)) ∧
    ((Instr.texg f).wellFormed = true → ∃ t, exec (.texg f) s = .next t ∧ othersKept s t ∧
      quadDone s t f 0x50 (fun _ _ => fourOf q f.fn.toNat))) ∧
  (∀ (s u w : State) (f : FV) (e v rec0 : Nat), (Instr.rayq f).wellFormed = true → quadStarts s f →
    activeBelow s f.ctl s.ctx.vl = [e] → pointerOk (s.reg (quadReg f)) = true → (s.reg (quadReg f)).toNat % 128 = 0 →
    (issuedV s f).texRead ((s.reg (quadReg f)).toNat % 2 ^ 52) 128 = .ok (v, u) →
    (∀ c < 4, 1 ≤ c → v / 2 ^ (64 * (12 + c)) % 2 ^ 64 = 0) →
    let g := fun k => quadIn s f k e
    let ray : Ray := ⟨⟨g 0, g 1, g 2⟩, ⟨g 3, g 4, g 5⟩, g 6, g 7⟩
    let word := v / 2 ^ (64 * 12) % 2 ^ 64
    let missed := ∃ t, exec (.rayq f) s = .next t ∧ othersKept s t ∧
      quadDone s t f 0x28 (fun k _ => fourOf (0x7F800000, 0xFFFFFFFF, 0, 0) k)
    (word = 0 → missed) ∧
    (∀ a, word = 2 ^ 63 + 2 ^ 56 + a → a < 2 ^ 52 → a % 16 = 0 →
      (boxPasses ray (vec3At v 0) (vec3At v 3) = false → missed) ∧
      (boxPasses ray (vec3At v 0) (vec3At v 3) = true → u.texRead a 48 = .ok (rec0, w) → rec0 / 2 ^ 320 % 2 ^ 64 = 0 →
        match triangleHit ray (vec3At rec0 0) (vec3At rec0 3) (vec3At rec0 6) with
        | none => missed
        | some (h, p, q) => ∃ t, exec (.rayq f) s = .next t ∧ othersKept s t ∧
            quadDone s t f 0x28 (fun k _ => fourOf (h, rec0 / 2 ^ 288 % 2 ^ 32, p, q) k))))

/-- 06 R112, R137, R138; 15 R350 to R354; 18 R455: the copy engines and WLOAD on local memories: what they write, the commands
they answer BADCMD, WLOAD's refusal and its wait in a refresh window; and a command's end. -/
def Obligations.Copies : Prop :=
  (∀ (c : Command) (s : State) (src dst : Nat), plainCommand c [c.msg.w5, c.msg.w6, c.msg.w7] → memoryWf s.lmem = true →
    pointerOk c.msg.w2 = true → pointerOk c.msg.w3 = true → operandAt s c c.msg.w2 c.msg.w4.toNat = some src →
    operandAt s c c.msg.w3 c.msg.w4.toNat = some dst → apart src c.msg.w4.toNat dst c.msg.w4.toNat →
    ∃ u, endsLocal (.cpy c) c s u 0 c.msg.w4 ∧ copied s u src dst c.msg.w4.toNat) ∧
  (∀ (c : Command) (s : State) (src dst : Nat → Nat), plainCommand c [c.msg.w7] → memoryWf s.lmem = true →
    pointerOk c.msg.w2 = true → pointerOk c.msg.w3 = true →
    let b : Nat := c.msg.w4.toNat % 2 ^ 32
    let n : Nat := c.msg.w4.toNat / 2 ^ 32
    0 < b → b * n ≤ 2 ^ 40 →
    (∀ k : Nat, k < n → operandCell s c ((c.msg.w2.toNat % 2 ^ 52 : Nat) + (k : Int) * c.msg.w5.toInt) b = some (src k) ∧
      operandCell s c ((c.msg.w3.toNat % 2 ^ 52 : Nat) + (k : Int) * c.msg.w6.toInt) b = some (dst k)) →
    (∀ k < n, ∀ j < n, apart (dst k) b (src j) b ∧ (j ≠ k → apart (dst k) b (dst j) b)) →
    ∃ u, endsLocal (.cpy2d c) c s u 0 (BitVec.ofNat 64 (b * n)) ∧
      (∀ k < n, ∀ j < b, readByte u.lmem (dst k + j) = readByte s.lmem (src k + j)) ∧
      ∀ x, (∀ k < n, x < dst k ∨ dst k + b ≤ x) → readByte u.lmem x = readByte s.lmem x) ∧
  (∀ (c : Command) (s : State) (dst : Nat), plainCommand c [c.msg.w5, c.msg.w6, c.msg.w7] → memoryWf s.lmem = true →
    pointerOk c.msg.w2 = true → operandAt s c c.msg.w2 c.msg.w3.toNat = some dst →
    ∃ u, endsLocal (.cpyfill c) c s u 0 c.msg.w3 ∧
      ∀ x, readByte u.lmem x = if dst ≤ x ∧ x < dst + c.msg.w3.toNat then c.msg.w4.extractLsb' (8 * ((x - dst) % 8)) 8
        else readByte s.lmem x) ∧
  (∀ (c : Command) (s : State) (src dst m : Nat) (brick : Nat → Nat), plainCommand c [c.msg.w5, c.msg.w6, c.msg.w7] →
    memoryWf s.lmem = true → c.msg.w2.toNat % 8 = 0 → c.msg.w3.toNat % 8 = 0 →
    pointerOk c.msg.w2 = true → pointerOk c.msg.w3 = true →
    let n := c.msg.w4.toNat % 2 ^ 32
    let codec := c.msg.w4.toNat / 2 ^ 32
    let off := fun k => readN s.lmem (src + 8 * k) 4
    let len := fun k => readN s.lmem (src + 8 * k + 4) 4
    1 ≤ n → n ≤ 65536 → (codec = 1 ∨ codec = 2) → operandAt s c c.msg.w2 m = some src → 8 * n ≤ m →
    operandAt s c c.msg.w3 (4096 * n) = some dst → apart src m dst (4096 * n) →
    (∀ k < n, off k + len k ≤ m ∧ decodeBrick (fun p => (readByte s.lmem (src + p)).toNat) (if codec = 1 then 32 else 16)
      (off k) (len k) (8 * n) (2 ^ 32) = some (brick k)) →
    ∃ u, endsLocal (.cpydec c) c s u 0 (BitVec.ofNat 64 n) ∧
      (∀ k < n, ∀ j < 4096, readByte u.lmem (dst + 4096 * k + j) = BitVec.ofNat 8 (brick k / 256 ^ j)) ∧
      ∀ x, (x < dst ∨ dst + 4096 * n ≤ x) → readByte u.lmem x = readByte s.lmem x) ∧
  (∀ (c : Command) (s : State) (src : Nat), plainCommand c [c.msg.w5, c.msg.w6, c.msg.w7] → memoryWf s.hob = true →
    c.msg.w2.toNat % 8 = 0 → c.msg.w3.toNat % 64 = 0 → c.msg.w4.toNat % 64 = 0 → pointerOk c.msg.w2 = true →
    operandAt s c c.msg.w2 c.msg.w4.toNat = some src →
    let n := c.msg.w4.toNat
    let o := c.msg.w3.toNat
    o + n ≤ Config.hobBytes → 0 < n → ((s.dieAt c.die).agents[c.inst]).started = false →
    if (s.dieAt c.die).firebox.leases ≠ [] ∨ s.fireboxLaunch c.die = true then
      exec (.wload c) s = .next (s.endCommand c (5, 0))
    else if 32512 ≤ s.cycle % 32768 then
      ∃ t, exec (.wload c) s = .next t ∧ queueOf t c.die c.inst = queueOf s c.die c.inst ∧
        ((t.dieAt c.die).agents[c.inst]).started = true ∧ t.cores = s.cores ∧ s.sameBytes t ∧ .agent c.die c.inst ∈ t.agenda
    else ∃ u : State, exec (.wload c) s = .next (if s.launches = [] then u.endCommand c (0, c.msg.w4)
        else (u.endCommand c (0, c.msg.w4)).schedule (.event .launchSelection)) ∧
      u = { s with hob := u.hob, dies := u.dies } ∧
      ∀ x, readByte u.hob x = if c.die.val * Config.hobBytes + o ≤ x ∧ x < c.die.val * Config.hobBytes + o + n then
        readByte s.lmem (src + (x - (c.die.val * Config.hobBytes + o))) else readByte s.hob x) ∧
  (∀ (c : Command) (s : State),
    (∀ i ∈ [Instr.cpy c, .cpyfill c, .cpydec c, .wload c], (s.dieAt c.die).agents[c.inst].started = false →
      (c.msg.w5 ≠ 0 ∨ c.msg.w6 ≠ 0 ∨ c.msg.w7 ≠ 0) → exec i s = .next (s.endCommand c (2, 0))) ∧
    (2 ^ 40 < c.msg.w4.toNat → exec (.cpy c) s = .next (s.endCommand c (2, 0))) ∧
    (2 ^ 40 < c.msg.w3.toNat → exec (.cpyfill c) s = .next (s.endCommand c (2, 0))) ∧
    (c.msg.w7 ≠ 0 ∨ 2 ^ 40 < c.msg.w4.toNat % 2 ^ 32 * (c.msg.w4.toNat / 2 ^ 32) →
      exec (.cpy2d c) s = .next (s.endCommand c (2, 0))) ∧
    (∀ (status : Nat) (value : Word), let t := s.endCommand c (status, value)
      let u := (s.flushUnit c).reply c.die c.sender c.msg status value
      queueOf t c.die c.inst = (queueOf s c.die c.inst).drop 1 ∧ u.sameBytes t ∧ t.cores = u.cores ∧
        (∀ d k, (d, k) ≠ (c.die, c.inst) → queueOf t d k = queueOf s d k) ∧
        ((queueOf s c.die c.inst).drop 1 ≠ [] → .agent c.die c.inst ∈ t.agenda)))

/-- 10 R224 to R236; 17 R392, R416; 15 R338: RAST fills a ring with a primitive's fragment records, which hold exactly the
covered pixels, and no pixel is covered by both triangles at an edge; MESH delivers a descriptor; BLEND blends one
pixel; each waits for its ring. The order of BLEND's checks, and a ZBASE of 0 with
ZWRITE = 1, follow the model (logs 38, 39). -/
def Obligations.Graphics : Prop :=
  (∀ (c : Command) (s : State) (src st n : Nat) (k : CoreId) (r : RasterState), plainCommand c [c.msg.w6, c.msg.w7] → atStart s c →
    memoryWf s.lmem = true → c.msg.w3 = 1 → c.msg.w2.toNat % 64 = 0 → c.msg.w4.toNat % 64 = 0 → pointerOk c.msg.w2 = true →
    pointerOk c.msg.w4 = true → operandAt s c c.msg.w2 64 = some src → operandAt s c c.msg.w4 64 = some st →
    rasterState (readN s.lmem st 64) = some r → c.msg.w5 = designatorOf n k → ringServes s c n k → ringSound (ringOn s k n) →
    let g := ringOn s k n
    let v := readN s.lmem src 64
    let rs := if invalidPrim v then [] else fragments r v
    let filled := fun (w : State) (m : Nat) =>
      (∀ j < m, readN w.lmem (slotCell k g ((g.wridx + j) % 2 ^ g.cntlog)) 64 = rs.getD j 0) ∧
      (ringOn w k n).filled = g.filled + m ∧ (ringOn w k n).free + m = g.free ∧
      (ringOn w k n).wridx = (g.wridx + m) % 2 ^ g.cntlog ∧ (ringOn w k n).rdidx = g.rdidx
    if rs.length ≤ g.free then
      ∃ w, exec (.rast c) s = .next (w.endCommand c (0, BitVec.ofNat 64 (rs.length + if invalidPrim v then 2 ^ 32 else 0))) ∧
        filled w rs.length
    else ∃ t, exec (.rast c) s = .next t ∧ commandWaits s t c ∧ filled t g.free) ∧
  (∀ (r : RasterState) (v px py : Nat), px < 16384 → py < 16384 →
    let t := triOf v
    r.sx1 < 16384 → r.sy1 < 16384 → t.area ≠ 0 → ¬ (r.cull = 1 ∧ t.area < 0) → ¬ (r.cull = 2 ∧ 0 < t.area) →
    (covered r t px py = true ↔ ∃ rcd ∈ fragments r v, recordCovers rcd px py = true)) ∧
  (∀ (r : RasterState) (x0 y0 x1 y1 x2 y2 x3 y3 : Int) (px py : Nat),
    let t : Tri := ⟨x0, y0, x1, y1, x2, y2⟩
    let u : Tri := ⟨x1, y1, x0, y0, x3, y3⟩
    let at_ := fun a b a' b' => edge a b a' b' (256 * px + 128) (256 * py + 128)
    t.area.sign = u.area.sign → t.area ≠ 0 →
    ¬ (covered r t px py = true ∧ covered r u px py = true) ∧
    (r.sx0 ≤ px → px ≤ r.sx1 → r.sy0 ≤ py → py ≤ r.sy1 → at_ x0 y0 x1 y1 = 0 →
      0 < t.area.sign * at_ x1 y1 x2 y2 → 0 < t.area.sign * at_ x2 y2 x0 y0 →
      0 < t.area.sign * at_ x0 y0 x3 y3 → 0 < t.area.sign * at_ x3 y3 x1 y1 →
      covered r t px py = true ∨ covered r u px py = true)) ∧
  (∀ (c : Command) (s : State) (src st : Nat), plainCommand c [c.msg.w6, c.msg.w7] → atStart s c → c.msg.w3 = 1 →
    c.msg.w2.toNat % 64 = 0 → c.msg.w4.toNat % 64 = 0 → pointerOk c.msg.w2 = true → pointerOk c.msg.w4 = true →
    operandAt s c c.msg.w2 64 = some src → operandAt s c c.msg.w4 64 = some st →
    let state := readN s.lmem st 8
    let cores := rectCores c.msg.w5
    let k := cores.getD (state / 2 ^ 32 % cores.length) 0
    let m := messageOf (readN s.lmem src 64)
    let m' : Message := { m with w0 := BitVec.ofNat 64 (0x80 * 2 ^ 56 + state % 4 * 2 ^ 52) }
    state % 2 ^ 32 < 4 → (∀ j < 56, readByte s.lmem (st + 8 + j) = 0) → scopeOk c.msg.w5 = true → scopeKind c.msg.w5 = 1 →
    cores ≠ [] →
    ∃ t, exec (.mesh c) s = .next t ∧
      if s.holdsDomain k c.sender.domain = false then t = (s.countMsgErr (dieOf k)).endCommand c (0, 0)
      else if (ringOn s k (state % 4)).free = 0 then commandWaits s t c
      else ∃ w, t = w.endCommand c (0, 1) ∧
        wroteBytes s.lmem w.lmem (slotCell k (ringOn s k (state % 4)) (ringOn s k (state % 4)).wridx) 64 (messageNumber m') ∧
        ((ringOn s k (state % 4)).res = [] →
          ringOn w k (state % 4) = ringFilledBy (ringOn s k (state % 4)) (some c.sender))) ∧
  (∀ (c : Command) (s : State) (td bs n : Nat) (k : CoreId), plainCommand c [c.msg.w5, c.msg.w6, c.msg.w7] → atStart s c →
    c.msg.w2 = designatorOf n k → ringServes s c n k → ringSound (ringOn s k n) → 8 ≤ (ringOn s k n).szlog →
    c.msg.w3.toNat % 64 = 0 → c.msg.w4.toNat % 64 = 0 → pointerOk c.msg.w3 = true → pointerOk c.msg.w4 = true →
    operandAt s c c.msg.w3 64 = some td → operandAt s c c.msg.w4 64 = some bs →
    let tv := readN s.lmem td 64
    let sv := readN s.lmem bs 64
    let b := blendRecord tv sv
    let g := ringOn s k n
    let rcd := readN s.lmem (slotCell k g g.rdidx) 256
    blendReserved tv sv = true → b.ok = true → b.count = 1 → rowsNamed s c b.cbase b.cpitch (b.width * b.texel) b.height →
    (b.zbase ≠ 0 → rowsNamed s c b.zbase b.zpitch (4 * b.width) b.height) →
    (g.filled = 0 → ∃ t, exec (.blend c) s = .next t ∧ commandWaits s t c ∧ t.cores = s.cores ∧ s.sameBytes t) ∧
    (0 < g.filled →
      let taken : Ring := { g with
        filled := g.filled - 1, free := g.free + 1, rdidx := (g.rdidx + 1) % 2 ^ g.cntlog, senders := g.senders.drop 1 }
      (skippedRecord rcd = true → ∃ w, exec (.blend c) s = .next (w.endCommand c (0, BitVec.ofNat 64 (2 ^ 32))) ∧
        s.sameBytes w ∧ ringOn w k n = taken) ∧
      (∀ e dst, skippedRecord rcd = false → rcd / 2 ^ 32 % 2 ^ 16 = 2 ^ e → b.cfmt = 2 → b.zbase = 0 →
        let px := 4 * (rcd % 2 ^ 16) + e % 4
        let py := 4 * (rcd / 2 ^ 16 % 2 ^ 16) + e / 4
        px < b.width → py < b.height → operandCell s c (b.cbase + py * b.cpitch + 16 * px : Nat) 16 = some dst →
        let new := fun j => (convert 10 8 0 false (readN s.lmem (slotCell k g g.rdidx + 128 + 8 * e + 2 * j) 2)).bits
        let old := fun j => readN s.lmem (dst + 4 * j) 4
        let mixed := fun j => if j = 3 then blendChannel b.srca b.dsta b.opa (new 3) (old 3) (new j) (old j)
          else blendChannel b.srcc b.dstc b.opc (new 3) (old 3) (new j) (old j)
        ∃ w, exec (.blend c) s = .next (w.endCommand c (0, 1)) ∧ w.mem = s.mem ∧ ringOn w k n = taken ∧
          wroteBytes s.lmem w.lmem dst 16 (wordsOf [mixed 0, mixed 1, mixed 2, mixed 3]))))

/-- 11 R250 to R264; 17 R419: SPROJ writes a record for each input record, SSORT the stably sorted list and the tiles'
ranges, SBLEND each pixel from its tile's list, and SBWD the gradients of an image of one pixel, on local memories.
Where the spec leaves the order of SBWD's sums, the model's is stated only for one pixel (log 40). -/
def Obligations.Splats : Prop :=
  (∀ (c : Command) (s : State) (src cam dst : Nat), plainCommand c [c.msg.w6, c.msg.w7] → memoryWf s.lmem = true →
    let n := c.msg.w3.toNat
    n ≤ 16777216 → c.msg.w2.toNat % 64 = 0 → c.msg.w4.toNat % 64 = 0 → c.msg.w5.toNat % 16 = 0 →
    [c.msg.w2, c.msg.w4, c.msg.w5].all pointerOk = true → operandAt s c c.msg.w2 (64 * n) = some src →
    operandAt s c c.msg.w4 128 = some cam → operandAt s c c.msg.w5 (48 * n) = some dst → apart src (64 * n) dst (48 * n) →
    apart cam 128 dst (48 * n) → cameraOk (readN s.lmem cam 128) = true →
    let input := fun i => readN s.lmem (src + 64 * i) 64
    let out := fun i => if invalidSplat (input i) then none else project (readN s.lmem cam 128) (input i)
    ∃ u, endsLocal (.sproj c) c s u 0 (BitVec.ofNat 64 (((List.range n).filter (fun i => (out i).isSome)).length +
        2 ^ 32 * ((List.range n).filter (fun i => invalidSplat (input i))).length)) ∧
      (∀ i < n, readN u.lmem (dst + 48 * i) 48 = (out i).getD 0) ∧
      ∀ x, (x < dst ∨ dst + 48 * n ≤ x) → readByte u.lmem x = readByte s.lmem x) ∧
  (∀ (c : Command) (s : State) (src lst tab : Nat), plainCommand c [c.msg.w7] → memoryWf s.lmem = true →
    let n := c.msg.w3.toNat
    let cap := c.msg.w5.toNat
    let w := readN s.lmem tab 4
    let h := readN s.lmem (tab + 4) 4
    let tiles := tilesAcross w * tilesAcross h
    n ≤ 16777216 → cap < 2 ^ 32 → c.msg.w2.toNat % 16 = 0 → c.msg.w4.toNat % 4 = 0 → c.msg.w6.toNat % 8 = 0 →
    [c.msg.w2, c.msg.w4, c.msg.w6].all pointerOk = true → operandAt s c c.msg.w2 (48 * n) = some src →
    operandAt s c c.msg.w4 (4 * cap) = some lst → operandAt s c c.msg.w6 (16 + 8 * tiles) = some tab →
    1 ≤ w → w ≤ 4096 → 1 ≤ h → h ≤ 4096 → readN s.lmem (tab + 8) 8 = 0 →
    apart src (48 * n) lst (4 * cap) → apart src (48 * n) tab (16 + 8 * tiles) → apart lst (4 * cap) tab (16 + 8 * tiles) →
    let es := (List.range n).flatMap (fun i =>
      entriesOf (tilesAcross w) (tilesAcross h) i (readN s.lmem (src + 48 * i) 48))
    if cap < es.length then exec (.ssort c) s = .next (s.endCommand c (3, BitVec.ofNat 64 es.length))
    else ∃ (u : State) (sorted : List Entry), endsLocal (.ssort c) c s u 0 (BitVec.ofNat 64 es.length) ∧ sorted.Perm es ∧
      sorted.Pairwise (fun a b => a.1 < b.1 ∨ (a.1 = b.1 ∧ a.2 ≤ b.2)) ∧
      (∀ j < es.length, readN u.lmem (lst + 4 * j) 4 = (sorted.getD j (0, 0)).2) ∧
      (∀ i < tiles, readN u.lmem (tab + 16 + 8 * i) 4 = es.countP (fun e => e.1 / 2 ^ 32 < i) ∧
        readN u.lmem (tab + 20 + 8 * i) 4 = es.countP (fun e => e.1 / 2 ^ 32 ≤ i)) ∧
      ∀ x, (x < lst ∨ lst + 4 * es.length ≤ x) → (x < tab + 16 ∨ tab + 16 + 8 * tiles ≤ x) →
        readByte u.lmem x = readByte s.lmem x) ∧
  (∀ (c : Command) (s : State) (o : SplatOperands) (top room img st : Nat), c.sender.remote = false → memoryWf s.lmem = true →
    splatTables s c o top room → c.msg.w5.toNat % 16 = 0 → c.msg.w6.toNat % 8 = 0 → c.msg.w7.toNat ≤ 0x3F800000 →
    pointerOk c.msg.w5 = true → pointerOk c.msg.w6 = true →
    let area := o.width s * o.height s
    operandAt s c c.msg.w5 (16 * area) = some img → operandAt s c c.msg.w6 (8 * area) = some st →
    apartFromTables s o top room img (16 * area) → apartFromTables s o top room st (8 * area) →
    apart img (16 * area) st (8 * area) →
    ∃ u, endsLocal (.sblend c) c s u 0 0 ∧
      (∀ x < o.width s, ∀ y < o.height s,
        let p := blendSplats (if c.msg.w7 = 0 then 0x39000000 else c.msg.w7.toNat) x y
          (o.splats s (y / 16 * tilesAcross (o.width s) + x / 16)) 0 ⟨0x3F800000, 0, 0, 0, 0⟩
        readN u.lmem (img + 16 * (y * o.width s + x)) 16 = wordsOf [p.r, p.g, p.b, (f32.sub 0 false 0x3F800000 p.t).bits] ∧
        readN u.lmem (st + 8 * (y * o.width s + x)) 8 = wordsOf [p.t, p.n]) ∧
      ∀ x, (x < img ∨ img + 16 * area ≤ x) → (x < st ∨ st + 8 * area ≤ x) → readByte u.lmem x = readByte s.lmem x) ∧
  (∀ (c : Command) (s : State) (o : SplatOperands) (top room st grad out : Nat), c.sender.remote = false →
    memoryWf s.lmem = true → splatTables s c o top room → o.width s = 1 → o.height s = 1 → c.msg.w5.toNat % 8 = 0 →
    c.msg.w6.toNat % 16 = 0 → c.msg.w7.toNat % 16 = 0 → [c.msg.w5, c.msg.w6, c.msg.w7].all pointerOk = true →
    operandAt s c c.msg.w5 8 = some st → operandAt s c c.msg.w6 16 = some grad → operandAt s c c.msg.w7 (48 * top) = some out →
    apartFromTables s o top room out (48 * top) → apart st 8 out (48 * top) → apart grad 16 out (48 * top) →
    let vs := o.splats s 0
    let g := fun ch => readN s.lmem (grad + 4 * ch) 4
    let parts := pixelGradients 0 0 (g 0) (g 1) (g 2) vs (min (readN s.lmem (st + 4) 4) vs.length) (readN s.lmem st 4) 0 0 0
    ∃ u, endsLocal (.sbwd c) c s u 0 0 ∧
      (∀ k < vs.length, readN u.lmem (out + 48 * (o.first s 0 + k)) 48 =
        match parts.find? (fun q => q.1 = k) with
        | some q => wordsOf (q.2.map (fun x => (f32.add 0 false 0 x).bits))
        | none => 0) ∧
      ∀ x, (x < out + 48 * o.first s 0 ∨ out + 48 * o.last s 0 ≤ x) → readByte u.lmem x = readByte s.lmem x)

/-- 01 R16 to R18; 06 R129; 07 R146, R154: a dirty copy is sent in packets that bring exactly its dirty bytes to its home; an
eviction writes a copy back and drops it, with a home line its marker; a packet that has waited for 256 cycles grows older; of
the packets that wait for a link the winner takes it, one hop older, and at its destination its bytes are merged; a new
injection window takes one allowance from each domain's flits. The size of a packet and its flits, the route, and which line
goes when, and the core that counts as a packet's source, are the model's (logs 3, 17, 52, 71). -/
def Obligations.CachesAndFlue : Prop :=
  (∀ (d h : DieId) (va : Nat) (s : State) (ln : L2Line), (s.dieAt d).line va = some ln → lineSound s d ln → ln.home = false →
    ln.dirty ≠ 0 → s.homeOf ln.pa = some h →
    ∃ t ps, exec (.l2DirtyWriteback d va) s = .next t ∧ t.mem = s.mem ∧ t.lmem = s.lmem ∧ t.cores = s.cores ∧
      lineCleaned s t d ln ∧ merged (s.drainFlue d).mem (t.drainFlue d).mem ln ∧
      t.flue = s.flue ++ ps ∧ ps.length ≤ 2 ∧ ∀ p ∈ ps, p.src = d ∧ p.at_ = d ∧ p.dst = h ∧ p.age = 0 ∧ p.since = s.cycle) ∧
  (∀ (d : DieId) (va : Nat) (s : State) (ln : L2Line), (s.dieAt d).line va = some ln → lineSound s d ln →
    ∃ t, exec (.l2Eviction d va) s = .next t ∧ t.lmem = s.lmem ∧ t.cores = s.cores ∧
      (∀ o : L2Line, o ∈ (t.dieAt d).l2 → o.va ≠ ln.va) ∧
      (ln.home = false → ln.dirty = 0 → t.mem = s.mem ∧ t.flue = s.flue) ∧
      (ln.home = false → ln.dirty ≠ 0 → merged (s.drainFlue d).mem t.mem ln) ∧
      (ln.home = true → ∀ m ∈ (t.dieAt d).markers, m.grain ≠ ln.va)) ∧
  (∀ (n : Nat) (s : State),
    (∃ t, exec (.fluePacketAging n) s = .next t ∧ t = { s with flue := t.flue } ∧ t.flue.length = s.flue.length ∧
      ∀ k, t.flue[k]? = if k = n then s.flue[k]?.map (fun p =>
          if p.since + 256 ≤ s.cycle then { p with age := min (p.age + 1) 1023, since := p.since + 256 } else p)
        else s.flue[k]?) ∧
    (∀ r p before after, s.flue[n]? = some r → s.flue = before ++ p :: after → p ∉ before → contends s r p →
      (∀ o ∈ before, contends s r o → winsOver s.bregs.vdmap s.cycle p o) →
      (∀ o ∈ after, contends s r o → ¬ winsOver s.bregs.vdmap s.cycle o p) →
      let next := s.nextHop p.at_ p.dst
      ∃ t, exec (.fluePacketArrival n) s = .next t ∧
        (next ≠ p.dst → t = { s with
          flue := before ++ { p with age := min (ageNow s.cycle p + 1) 1023, at_ := next, since := s.cycle } :: after
          agenda := s.agenda ++ [.event (.fluePacketArrival n)] }) ∧
        (next = p.dst → t = { s with mem := t.mem, rewritten := t.rewritten, flue := before ++ after } ∧
          (memoryWf s.mem = true → p.mask < 2 ^ 512 → ∀ x, readByte t.mem x =
            if p.pa ≤ x ∧ p.mask.testBit (x - p.pa) = true then BitVec.ofNat 8 (p.data / 256 ^ (x - p.pa))
            else readByte s.mem x)))) ∧
  (∀ s : State, ∃ t, exec .flueInjectionWindow s = .next t ∧ t = { s with dies := t.dies } ∧
    ∀ d, t.dieAt d = { s.dieAt d with injected := (s.dieAt d).injected.filterMap (fun e =>
      (s.injectLimit d e.1).bind (fun allowed => if allowed < e.2 then some (e.1, e.2 - allowed) else none)) })

/-- 01 R9, R10; 06 R133; 12 R269, R271, R278; 13 R287; 14 R310, R313, R318, R319: writes of a host ring's TAIL, control and
configuration, which wait behind the host's earlier writes of memory that are held; writes of the registers of the firmware and Bellows blocks, NQHEAD and VDMAP among them. A write of part
of a register is the model's (log 13). -/
def Obligations.RingsAndRegisters : Prop :=
  (∀ (n : Fin 16) (s : State), s.posted = [] → s.heldWrites ≠ [] →
    (∀ v : BitVec 32, exec (.ringTailWrite n v) s =
      .next { s with posted := [.register (0x1018 + 64 * n.val) (v.setWidth 64)] }) ∧
    exec (.ringReset n) s = .next { s with posted := [.register (0x1028 + 64 * n.val) 4] } ∧
    exec (.ringSkip n) s = .next { s with posted := [.register (0x1028 + 64 * n.val) 2] } ∧
    exec (.ringResume n) s = .next { s with posted := [.register (0x1028 + 64 * n.val) 1] }) ∧
  (∀ (n : Fin 16) (s : State), s.posted = [] → s.heldWrites = [] →
    let r := s.rings[n]
    let resumed : HostRing := if r.err = true then { r with ecode := 0, err := false } else r
    (∀ v : BitVec 32, ∃ t, exec (.ringTailWrite n v) s = .next t ∧ onlyHostRing s t n (
      if r.err = true then r
      else if (v - r.head).toNat ≤ 2 ^ r.rlog then { r with tail := v }
      else { r with errtail := v, ecode := 1, err := true })) ∧
    (∃ t, exec (.ringReset n) s = .next t ∧ onlyHostRing s t n { r with head := 0, tail := 0, ecode := 0, err := false }) ∧
    (∃ t, exec (.ringResume n) s = .next t ∧ onlyHostRing s t n resumed) ∧
    (∃ t, exec (.ringSkip n) s = .next t ∧ onlyHostRing s t n (
      if r.err = true ∧ 2 ≤ r.ecode ∧ r.ecode ≤ 4 then { r with head := r.head + 1, ecode := 0, err := false } else resumed)) ∧
    (∀ (off : BitVec 6) (v : Word), ∃ t, exec (.ringConfigWrite n off v) s = .next t ∧ onlyHostRing s t n (
      let free := r.en = false ∨ r.err = true
      if off = 0 then (if free then { r with rbase := keptBits v.toNat 51 8 } else r)
      else if off = 8 then
        { r with
          en := if v.getLsbD 63 = false then false else if free then true else r.en
          pmax := v.toNat / 2 ^ 48 % 64
          rdom := v.extractLsb' 32 16
          rlog := if free ∧ 4 ≤ v.toNat % 16 ∧ v.toNat % 16 ≤ 14 then v.toNat % 16 else r.rlog }
      else r))) ∧
  (∀ (d : DieId) (v : BitVec 32) (s : State), ∃ t, exec (.nqheadWrite d v) s = .next t ∧ t = { s with dies := t.dies } ∧
    (∀ e, e ≠ d → t.dieAt e = s.dieAt e) ∧ t.dieAt d = { s.dieAt d with fw := { (s.dieAt d).fw with
      nqhead := if ((s.dieAt d).fw.nqtail - v).toNat ≤ 1024 then v else (s.dieAt d).fw.nqhead } }) ∧
  (∀ (v : Word) (s : State), ∃ t, exec (.vdmapWrite v) s = .next t ∧
    let code := v.toNat % 8
    let err := fun b => { s with bregs := { s.bregs with vderr := b } }
    if code = s.bregs.vdmap then t = err (s.bregs.vderr && !v.getLsbD 63)
    else if 4 ≤ code ∨ (List.range 512).any (fun i => (s.coreAt (Fin.ofNat 512 i)).placed.isSome) = true then t = err true
    else
      t.bregs.vdmap = code ∧ t.launches = s.launches ∧ t.rings = s.rings ∧
      (∀ d, (t.dieAt d).l2 = [] ∧ (t.dieAt d).tlb = [] ∧ (t.dieAt (moveDie s.bregs.vdmap code d)).fw = (s.dieAt d).fw) ∧
      (∀ c, (t.coreAt c).l1 = [] ∧ (t.coreAt c).icache = [] ∧
        let core := moveCore s.bregs.vdmap code
        (∀ x, t.ctxAt (core c) x = { s.ctxAt c x with
          hopped := (s.ctxAt c x).hopped.map core, travel := (s.ctxAt c x).travel.map core }) ∧
        ∀ n, let r := ringOn t c n
          let q := ringOn s c n
          n < 4 → r = { q with res := r.res, senders := r.senders } ∧ r.res.length = q.res.length ∧
            r.senders.length = q.senders.length) ∧
      (s.bregs.vdmap < 4 → ∀ pa, t.homeOf pa = (s.homeOf pa).map (moveDie s.bregs.vdmap code))) ∧
  (∀ (d : DieId) (off : Nat) (v : Word) (s : State), off % 8 = 0 → off < 65536 →
    ∃ t, exec (.registerWrite (0xFFE8000000000 + 65536 * d.val + off) v) s = .next t ∧ t = { s with dies := t.dies } ∧
      (∀ e, e ≠ d → t.dieAt e = s.dieAt e) ∧ t.dieAt d = { s.dieAt d with fw := (t.dieAt d).fw } ∧
      (∀ q, q ≠ off → (t.dieAt d).fw.read q = (s.dieAt d).fw.read q) ∧
      (t.dieAt d).fw.read off = (fwAfter (s.dieAt d).fw off ((s.dieAt d).fw.read off) v.toNat).getD 0) ∧
  (∀ (off x : Nat) (v : Word) (s : State), off < 0x1000 → off ≠ 0x60 → bellowsAfter off (s.bellowsRead off) v.toNat = some x →
    ∃ t, exec (.registerWrite (0xFFE8100000000 + off) v) s = .next t ∧ t = { s with bregs := t.bregs } ∧ t.bellowsRead off = x ∧
      ∀ q, q ≠ off → t.bellowsRead q = s.bellowsRead q) ∧
  (∀ (n : Fin 16) (off : Nat) (v : Word) (s : State), s.posted = [] → s.heldWrites = [] →
    exec (.registerWrite (0xFFE8100001018 + 64 * n.val) v) s = exec (.ringTailWrite n (v.setWidth 32)) s ∧
    exec (.registerWrite (2 ^ 52 + 0x1018 + 64 * n.val) v) s = exec (.ringTailWrite n (v.setWidth 32)) s ∧
    (off = 0 ∨ off = 8 → exec (.registerWrite (2 ^ 52 + 0x1000 + 64 * n.val + off) v) s = .next s))

/-- 12 R265, R266, R269 to R276: a slot of a host ring is consumed, or the ring stops with its code; a dependence is tested,
and a branch record takes its arm; what every accepted record satisfies. A fault of the arm's read is answered as the
model reads R275 (log 45); that the tables of die 0 bound a record's domain, and translate for the Bellows, is the model's reading
(log 41). -/
def Obligations.RecordsAccepted : Prop :=
  (∀ (n : Fin 16) (s : State), arrivalsSound s →
    let r := s.rings[n]
    let failed := fun (code : Nat) => { r with err := true, ecode := code }
    ∃ t, exec (.hostRingConsume n) s = .next t ∧
      if r.en = false ∨ r.err = true ∨ r.head = r.tail ∨ s.boot.bstate ≠ 4 then t = s
      else if 4096 ≤ s.launches.length then
        t.launches = s.launches ∧ t.rings = s.rings ∧ t.cores = s.cores ∧ .event (.hostRingConsume n) ∈ t.agenda
      else match s.homeSpan r.rdom (r.rbase + 256 * (r.head.toNat % 2 ^ r.rlog)) 256 with
        | .error _ => onlyHostRing s t n (failed 3)
        | .ok (v, u) =>
          match u.checkRecord v with
          | none => onlyHostRing u t n (failed 2)
          | some q =>
            (q.pred = false → q.domain ≠ r.rdom ∨ r.pmax < q.prio → onlyHostRing u t n (failed 4)) ∧
            (q.pred = false → q.domain = r.rdom → q.prio ≤ r.pmax → q.dep = false →
              t.launches.length = s.launches.length + 1 ∧ (∀ l ∈ s.launches, l ∈ t.launches) ∧
              nowEligible t s.nextArrival q s.cycle ∧ t.nextArrival = s.nextArrival + 1 ∧ t.cores = u.cores ∧ u.sameBytes t ∧
              t.rings = s.rings.set n { r with head := r.head + 1 })) ∧
  (∀ (a : Nat) (s : State) (l : Launch), s.launchAt a = some l →
    ∃ t, exec (.dependenceTest a) s = .next t ∧
      (l.eligibleAt ≠ none → t = s) ∧
      (l.eligibleAt = none → l.record.pred = false → l.record.dep = true →
        match s.homeSpan l.record.domain l.record.depAddr 8 with
        | .error _ => t.launchAt a = none ∧ t.cores = s.cores ∧ t.notes = s.notes ++ [.depFault a l.record.depAddr]
        | .ok (w, u) =>
          (dependenceHolds l.record (BitVec.ofNat 64 w) → nowEligible t a l.record s.cycle) ∧
          (¬ dependenceHolds l.record (BitVec.ofNat 64 w) →
            t.launchAt a = some l ∧ t.cores = u.cores ∧ .event (.dependenceTest a) ∈ t.agenda)) ∧
      (∀ (w : Nat) (u : State) (one : Record) (other : Option Record), l.eligibleAt = none → l.record.pred = true →
        l.record.dep = false → s.homeSpan l.record.domain l.record.predAddr 8 = .ok (w, u) → l.arms = some (one, other) →
        match if BitVec.ofNat 64 w &&& l.record.predMask = l.record.predVal then some one else other with
        | none => t.launchAt a = none ∧ t.cores = u.cores ∧ (l.record.doneAddr = 0 → u.sameBytes t)
        | some arm => arm.dep = false → nowEligible t a arm s.cycle)) ∧
  (∀ (a : Nat) (s : State), s.launchAt a = none → exec (.dependenceTest a) s = .next s) ∧
  (∀ (s : State) (v : Nat) (r : Record), s.checkRecord v = some r →
    r.prio ≤ 63 ∧ r.domain.toNat < (s.dieAt 0).fw.dtcnt ∧ (v % 256 = 1 ∨ v % 256 = 2) ∧ v / 2 ^ (64 * 23) % 2 ^ (64 * 9) = 0 ∧
      (r.pred = true → r.entry = 0 ∧ r.thenAddr % 256 = 0 ∧ r.elseAddr % 256 = 0) ∧
      (r.pred = false → r.entry ≠ 0 ∧ r.entry.toNat % 8 = 0 ∧ r.helpers ≤ 10 ∧ r.slots ≤ 12 ∧ r.localBytes ≤ 0x60000 ∧
        1 ≤ r.levels.length ∧ r.levels.length ≤ 8))

/-- 12 R281; 13 R303 to R306: which groups the first-ranked record pre-empts, how their contexts are stopped, and what the image
of a core holds when its group is saved. That candidates of equal PRIO and start may stand in either order, that a group which
ended or is held by commands is looked at again later, and the order of the images in the pool are the model's (logs 16, 42, 43). -/
def Obligations.PreemptionSaves : Prop :=
  (∀ (s : State) (l : Launch), arrivalsSound s → s.firstStopping = none → s.firstRanked = some l →
    (∀ gi gs u, State.placeGroups l.arrival (s.effective l) l.record.gang l.waitingGroups s ≠ some (gi :: gs, u)) →
    ∃ t us, exec .launchSelection s = .next t ∧ candidateOrder s l us ∧ .event .launchSelection ∈ t.agenda ∧
      ((∀ n < us.length, ¬ fitsAfter s l (us.take (n + 1))) → t.launches = s.launches) ∧
      ∀ n < us.length, fitsAfter s l (us.take (n + 1)) → (∀ m < n, ¬ fitsAfter s l (us.take (m + 1))) →
        ∀ a k, s.launchAt a = some k → t.launchAt a = some { k with groups := k.groups.mapIdx (fun gi g =>
          if (a, gi) ∈ pairsOf (us.take (n + 1)) then { g with state := .stopping s.cycle } else g) }) ∧
  (∀ (s u : State) (size base : Nat), s.poolTake size = some (base, u) →
    let n := (size + 4095) / 4096 * 4096
    u = { s with pool := s.pool ++ [(base, n)] } ∧ s.bregs.spbase ≤ base ∧ base + n ≤ s.bregs.spbase + s.bregs.splen ∧
      ∀ e ∈ s.pool, base + n ≤ e.1 ∨ e.1 + e.2 ≤ base) ∧
  (∀ (s : State) (l : Launch) (gi : Nat) (g : Group), s.firstStopping = some (l, gi, g) →
    let cores := l.stoppingWith g
    let of := fun (c : CoreId) (x : CtxId) => c ∈ cores ∧ x.val < 11 ∧ (s.ctxAt c x).active = true
    let after := fun (y : CoreId → CtxId → Ctx) => ∃ t, exec .launchSelection s = .next t ∧ .event .launchSelection ∈ t.agenda ∧
      t.launches = s.launches ∧ s.sameBytes t ∧ (∀ c x, of c x → t.ctxAt c x = y c x) ∧ (∀ c x, ¬ of c x → t.ctxAt c x = s.ctxAt c x) ∧
      ∀ c x, of c x → (t.ctxAt c x).notice = some s.cycle → (t.ctxAt c x).stopped = false → .event (.preemptionNoticeTimeout c x) ∈ t.agenda
    (¬ groupActive s g → ∃ t, exec .launchSelection s = .next t ∧ .event .launchSelection ∈ t.agenda ∧
      t = { s with focus := t.focus, agenda := t.agenda }) ∧
    (groupActive s g → s.holdsSave cores = true →
      after (fun c x => { s.ctxAt c x with stopped := false, notice := none, noticed := false })) ∧
    (groupActive s g → s.holdsSave cores = false →
      (∃ c x, of c x ∧ ((asked s.cycle (s.ctxAt c x)).stopped = false ∨ (s.ctxAt c x).travel.isSome = true)) →
      after (fun c x => asked s.cycle (s.ctxAt c x)))) ∧
  (∀ (s u : State) (l : Launch) (gi base : Nat) (g : Group) (c : CoreId), arrivalsSound s → memoriesWf s = true →
    s.firstStopping = some (l, gi, g) → g.rect.cores = [c] → l.stoppingWith g = [c] → groupActive s g → s.holdsSave [c] = false →
    (∀ x : CtxId, x.val < 11 → (s.ctxAt c x).active = true → (s.ctxAt c x).stopped = true ∧ (s.ctxAt c x).travel = none ∧
      (s.ctxAt c x).vlcap ≤ 4096 ∧ (s.ctxAt c x).vlcap % 32 = 0 ∧ (s.ctxAt c x).kstack.length ≤ 16) →
    l.record.localBytes ≤ 0x60000 → (l.record.levels.map (fun v => v.nbar)).sum ≤ 64 →
    (∀ d, ∀ b ∈ (s.dieAt d).bars, b.launch = l.arrival → b.full = false) →
    s.poolTake (s.coreImageBytes c l.record.localBytes) = some (base, u) →
    ∃ t, exec .launchSelection s = .next t ∧ .event .launchSelection ∈ t.agenda ∧ t.pool = u.pool ∧
      (∃ k h, t.launchAt l.arrival = some k ∧ k.groups[gi]? = some h ∧ h.state = .saved [(c, base)] ∧ h.waitFrom = s.cycle) ∧
      (t.coreAt c).placed = none ∧ (t.coreAt c).rings = (s.coreAt c).rings ∧
      (∀ x : CtxId, x.val < 11 → (t.ctxAt c x).status = .free) ∧
      coreSaved s t.mem base l gi g c ∧
      (s.flue = [] → (∀ d, ∀ ln ∈ (s.dieAt d).l2, ln.dirty = 0) → ∀ a,
        a < base ∨ base + roundUp (s.coreImageBytes c l.record.localBytes) 4096 ≤ a → readByte t.mem a = readByte s.mem a)) ∧
  (∀ (s : State) (l : Launch) (gi : Nat) (g : Group) (c : CoreId), arrivalsSound s → s.firstStopping = some (l, gi, g) →
    g.rect.cores = [c] → l.stoppingWith g = [c] → groupActive s g → s.holdsSave [c] = false →
    (∀ x : CtxId, x.val < 11 → (s.ctxAt c x).active = true → (s.ctxAt c x).stopped = true ∧ (s.ctxAt c x).travel = none) →
    s.poolTake (s.coreImageBytes c l.record.localBytes) = none →
    ∃ t k h, exec .launchSelection s = .next t ∧ t.mem = s.mem ∧ t.lmem = s.lmem ∧ t.launchAt l.arrival = some k ∧
      k.groups[gi]? = some h ∧ h.state = .running s.cycle ∧
      ∀ x : CtxId, x.val < 11 → (s.ctxAt c x).active = true → (t.ctxAt c x).stopped = false)

/-- 12 R277 to R284; 13 R303, R304, R307: selection ranks the records by their effective priority, places a record's groups on
free program cores and starts their control contexts; aging, sampling and notice; a group completes and its launch leaves the
store; a launch is ended; a saved core is restored. The LAUNCHID, the pool's layout and which groups must be placeable are the
model's (logs 15, 16, 43, 44); so are that the waiting time of a launch is that of its group that has waited longest (log 42),
that a sample not taken yet counts as zero and a domain of zero samples is not listed (log 25), and that the tables of die 0
translate a counter's address (log 41). -/
def Obligations.LaunchesRun : Prop :=
  (∀ (s : State) (l : Launch),
    ((∀ g ∈ l.groups, ¬ groupWaits g) ∨ s.bregs.ageper = 0 ∨ ¬ underFloor s l.record.domain → s.effective l = l.record.prio) ∧
    ∀ g ∈ l.groups, groupWaits g → (∀ h ∈ l.groups, groupWaits h → g.waitFrom ≤ h.waitFrom) → s.bregs.ageper ≠ 0 →
      underFloor s l.record.domain → s.effective l = min 63 (l.record.prio + (s.cycle - g.waitFrom) / s.bregs.ageper)) ∧
  (∀ (s : State) (l : Launch), s.firstRanked = some l → l ∈ s.launches ∧ waitsForPlace l ∧
    ∀ k ∈ s.launches, waitsForPlace k → s.effective k < s.effective l ∨ (s.effective k = s.effective l ∧ l.rank ≤ k.rank)) ∧
  (∀ (s u : State) (a ep : Nat) (all : Bool) (l gs : List Nat), State.placeGroups a ep all l s = some (gs, u) →
    ∀ c, ((s.coreAt c).placed.isSome = true → (u.coreAt c).placed = (s.coreAt c).placed) ∧
      ∀ p, (s.coreAt c).placed = none → (u.coreAt c).placed = some p → isReserved c = false ∧ p.launch = a ∧ s.isFree c 0 = true) ∧
  (∀ s : State, s.firstStopping = none → s.firstRanked = none → exec .launchSelection s = .next s) ∧
  (∀ (s u : State) (l : Launch) (gs : List Nat), arrivalsSound s → s.firstStopping = none → s.firstRanked = some l →
    (∀ g ∈ l.groups, g.state = .unplaced) →
    State.placeGroups l.arrival (s.effective l) l.record.gang l.waitingGroups s = some (gs, u) → gs ≠ [] →
    (∀ c, (s.coreAt c).placed = none → (u.coreAt c).placed.isSome = true → ∀ n < 4, (ringOn s c n).filled = 0) →
    ∃ t, exec .launchSelection s = .next t ∧ s.sameBytes t ∧ ∀ c p, (s.coreAt c).placed = none → (u.coreAt c).placed = some p →
      (t.coreAt c).placed = some p ∧ (p.covered = true → controlStarted s l.record c (t.ctxAt c 0) ∧ (t.coreAt c).l1 = [])) ∧
  (∀ (s : State) (l : Launch), s.firstStopping = none → s.firstRanked = some l →
    (∀ gi gs u, State.placeGroups l.arrival (s.effective l) l.record.gang l.waitingGroups s ≠ some (gi :: gs, u)) →
    ∃ t, exec .launchSelection s = .next t ∧ t = { s with launches := t.launches, focus := t.focus, agenda := t.agenda }) ∧
  (∀ s : State, ∃ t, exec .agingStep s = .next t ∧
    ((∃ l ∈ s.launches, waitsForPlace l) → t = { s with agenda := t.agenda } ∧ .event .launchSelection ∈ t.agenda) ∧
    ((∀ l ∈ s.launches, ¬ waitsForPlace l) → t = s)) ∧
  (∀ s : State, ∃ t, exec .occupancySample s = .next t ∧ t = { s with occupancy := t.occupancy } ∧
    ∀ d : Nat,
      let now := ((List.range 512).filter (fun i =>
        let c : CoreId := Fin.ofNat 512 i
        !isReserved c && (s.ctxAt c 0).active && (s.ctxAt c 0).domain.toNat == d)).length
      let old := ((s.occupancy.find? (fun e => e.1 == d)).map (fun e => e.2)).getD []
      let new := (now :: old).take 4096
      t.occupancy.find? (fun e => e.1 == d) = if ∀ n ∈ new, n = 0 then none else some (d, new)) ∧
  (∀ (c : CoreId) (x : CtxId) (s : State), ∃ t, exec (.preemptionNoticeTimeout c x) s = .next t ∧
    match (s.ctxAt c x).notice with
    | none => t = s
    | some since =>
      if (s.ctxAt c x).stopped = true then t = { s with agenda := t.agenda } ∧ .event .launchSelection ∈ t.agenda
      else if since + 65536 ≤ s.cycle ∧ (s.ctxAt c x).completesFirst = false then
        t.ctxAt c x = { s.ctxAt c x with stopped := true } ∧ .event .launchSelection ∈ t.agenda ∧
          ∀ e y, (e, y) ≠ (c, x) → t.ctxAt e y = s.ctxAt e y
      else t.cores = s.cores ∧ .event (.preemptionNoticeTimeout c x) ∈ t.agenda) ∧
  (∀ (a gi : Nat) (s : State) (l : Launch) (g : Group), s.launchAt a = some l → l.groups[gi]? = some g →
    (∀ im, g.state ≠ .restoring im) →
    ∃ t, exec (.groupCompletion a gi) s = .next t ∧
      (g.stands = false ∨ groupActive s g → t = s) ∧
      (g.stands = true → ¬ groupActive s g → s.commandsOf a g.rect.cores = true →
        t.launches = s.launches ∧ t.cores = s.cores ∧ .event (.groupCompletion a gi) ∈ t.agenda) ∧
      (g.stands = true → ¬ groupActive s g → s.commandsOf a g.rect.cores = false →
        .event .launchSelection ∈ t.agenda ∧
        (∀ c ∈ g.rect.cores, (t.coreAt c).placed = none ∧ (t.coreAt c).l1 = [] ∧ (t.ctxAt c 0).status = .free ∧
          ∀ n < 4, (ringOn t c n).filled = 0 ∧ (ringOn t c n).free = 2 ^ (ringOn s c n).cntlog) ∧
        ((∀ c ∈ g.rect.cores, ∀ n < 4, (ringOn s c n).filled = 0) → t.flue = [] ∧ ∀ d, ∀ ln ∈ (t.dieAt d).l2, ln.dirty = 0) ∧
        ((∀ j h, l.groups[j]? = some h → j ≠ gi → h.state = .done) → s.commandsOf a l.cores = false → t.launchAt a = none))) ∧
  (∀ (s u : State) (a pa : Nat) (k : Counter), s.tableCheck 0 k.domain k.addr (rightW + rightA) = true →
    s.atHome 0 false true k.addr = .ok (pa, u) →
    wroteBytes u.mem (s.increment a k).mem pa 8 ((readN u.mem pa 8 + k.inc.toNat) % 2 ^ 64)) ∧
  (∀ (a : Nat) (s : State), (s.launchAt a = none → exec (.supervisorEndLaunch a) s = .next s) ∧
    ∀ l, s.launchAt a = some l → ∃ t, exec (.supervisorEndLaunch a) s = .next t ∧
      ((∀ g ∈ l.groups, g.state = .unplaced) → t.launchAt a = none ∧ t.cores = s.cores ∧
        (s.flue = [] → (∀ d, ∀ ln ∈ (s.dieAt d).l2, ln.dirty = 0) → s.sameBytes t)) ∧
      (∀ gi g since, l.groups[gi]? = some g → g.state = .running since →
        .event (.groupCompletion a gi) ∈ t.agenda ∧
        ∀ c ∈ g.rect.cores, ∀ x : CtxId, x.val < 11 → (s.ctxAt c x).active = true → (t.ctxAt c x).status = .ended) ∧
      ∀ (gi : Nat) (g : Group) (im : List (CoreId × Nat)), l.groups[gi]? = some g → g.state = .saved im → ∀ c ∈ g.rect.cores, (s.coreAt c).placed = none → ∀ n < 4,
        (ringOn t c n).filled = 0 ∧ (ringOn t c n).free = 2 ^ (ringOn s c n).cntlog) ∧
  (∀ (a gi base : Nat) (c : CoreId) (s : State) (l : Launch) (g : Group), memoriesWf s = true → s.launchAt a = some l →
    l.groups[gi]? = some g → g.state = .restoring [(c, base)] → (c ∈ g.displaced → ∀ n < 4, (ringOn s c n).filled = 0) →
    ∃ t, exec (.groupRestore a gi) s = .next t ∧
      if s.coreImageBad base (g.leasedOn c) = true then
        t = { s with notes := s.notes ++ [.badImage a], agenda := s.agenda ++ [.event (.supervisorEndLaunch a)] }
      else
        (t.coreAt c).placed = some (l.placement gi g c) ∧ t.mem = s.mem ∧ (t.coreAt c).l1 = [] ∧
        (∀ o < l.record.localBytes, readByte t.lmem (localKey c o) = readByte s.mem (base + 0x2000 + o)) ∧
        ∀ x : CtxId, x.val < 11 → (readN s.mem base 8).testBit x.val = true →
          (t.ctxAt c x).pc = BitVec.ofNat 64 (readN s.mem (base + readN s.mem (base + 0x10 + 8 * x.val) 8 + 8) 8) ∧
          (t.ctxAt c x).domain = l.record.domain)

/-- 06 R130; 14 R309 to R314, R320, R321, R460: the host's reads and writes through the aperture, held writes, snoops and
the link; module reset, boot and attestation. The fuses, the image's layout, the report's signature and the widths of its
fields are the model's or open values, and what a host read reports is the model's (logs 14, 24). -/
def Obligations.HostAndBoot : Prop :=
  (∀ (off len : Nat) (s : State), ∃ t, exec (.hostApertureRead off len) s = .next t ∧
    if s.bregs.apen = false then hostAccessFailed s t off ∧ t.hostReads = s.hostReads ++ [none]
    else match s.homeSpan s.bregs.apdom (s.bregs.apbase + off) len with
      | .ok (v, u) => t = { u with hostReads := u.hostReads ++ [some (bytesLE v len)] }
      | .error e =>
        t.hostReads = s.hostReads ++ [none] ∧ s.sameBytes t ∧ t.cores = s.cores ∧
          if e.cause.1 = 0x08 then t.bregs = s.bregs ∧ ∀ l w h,
            s.tableCheck 0 s.bregs.apdom e.cause.2.toNat rightR = true → s.homeTranslate e.cause.2.toNat = some (l, w) →
            s.homeOf (l.pa e.cause.2.toNat) = some h → t.notes = s.notes ++ [.uncorrectable h.val (l.pa e.cause.2.toNat)]
          else hostAccessFailed s t off) ∧
  (∀ (off : Nat) (bytes : List Byte) (s : State), bytes ≠ [] → bytes.length ≤ 65536 - (s.bregs.apbase + off) % 65536 →
    s.posted = [] →
    let va := s.bregs.apbase + off
    ∃ t, exec (.hostApertureWrite off bytes) s = .next t ∧
      match s.hostLeaf va with
      | none => hostAccessFailed s t off
      | some l =>
        if l.owner = true ∧ s.heldWrites = [] then t.heldWrites = [] ∧ t.cores = s.cores ∧
          (memoryWf s.mem = true → ∀ k < bytes.length, readByte t.mem (l.pa va + k) = bytes.getD k 0)
        else if s.heldWrites.length < 64 then
          t = { s with
            heldWrites := s.heldWrites ++ [⟨off, bytes, !l.owner, false⟩]
            notes := s.notes ++ if l.owner = true then [] else [.heldHostWrite off] }
        else t = { s with posted := [.aperture off bytes] }) ∧
  (∀ (n : Nat) (s : State) (h : HeldWrite) (rest : List HeldWrite), s.posted = [] → s.heldWrites = h :: rest →
    let va := s.bregs.apbase + h.off
    (s.heldWrites.length ≤ n → ∀ granted, exec (.heldHostWriteRelease n granted) s = .next s) ∧
    (rest = [] → exec (.heldHostWriteRelease 0 false) s = .next { s with
      heldWrites := [], bregs := { s.bregs with hdeny := min (s.bregs.hdeny + 1) (2 ^ 32 - 1) } }) ∧
    (n < s.heldWrites.length → ∃ t, exec (.heldHostWriteRelease n true) s = .next t ∧
      match s.hostLeaf va with
      | none => rest = [] → hostAccessFailed s t h.off ∧ t.heldWrites = []
      | some l =>
        (l.owner = true → h.ready = true ∨ h.noted = false → rest = [] → t.heldWrites = [] ∧ t.cores = s.cores ∧
          (memoryWf s.mem = true → ∀ k < h.bytes.length, readByte t.mem (l.pa va + k) = h.bytes.getD k 0)) ∧
        (l.owner = false → h.noted = false →
          t = { s with heldWrites := { h with noted := true } :: rest, notes := s.notes ++ [.heldHostWrite h.off] }) ∧
        (h.noted = true → l.owner = false ∨ h.ready = false → t = s))) ∧
  (∀ (a : Nat) (s : State), ∃ t, exec (.hostSnoop a) s = .next t ∧ t.cores = s.cores ∧ t.lmem = s.lmem ∧
    (∀ d, ∀ ln ∈ (t.dieAt d).l2, holdsHost ln (Config.hostPhys + a) = true → ln.dirty = 0) ∧
    ∀ d ln, lineSound s d ln → ln.dirty ≠ 0 →
      (∀ e, (s.dieAt e).l2.filter (fun o => holdsHost o (Config.hostPhys + a)) = if e = d then [ln] else []) →
      merged (s.drainFlue d).mem t.mem ln) ∧
  (∀ (cxl : Bool) (s : State), ∃ t, exec (.linkNegotiation cxl) s = .next t ∧ t.linkUp = true ∧ t.cxl = cxl ∧
    (∀ d, ∀ ln ∈ (t.dieAt d).l2, Config.hostPhys ≤ ln.pa → cxl = true ∧ ln.dirty = 0) ∧ (cxl = true → t.cores = s.cores) ∧
    (cxl = false → ∀ c, (t.coreAt c).ctxs = (s.coreAt c).ctxs ∧
      (∀ ln, ln ∈ (t.coreAt c).l1 ↔ ln ∈ (s.coreAt c).l1 ∧ t.inHost ln.va = false) ∧
      ∀ ln, ln ∈ (t.coreAt c).icache ↔ ln ∈ (s.coreAt c).icache ∧ t.inHost ln.va = false)) ∧
  (∀ s : State, ∃ t, exec .moduleReset s = .next t ∧ t.cores = State.reset.cores ∧ t.dies = State.reset.dies ∧
    t.rings = State.reset.rings ∧ t.bregs = State.reset.bregs ∧ t.launches = [] ∧ t.agenda = [] ∧ t.flue = [] ∧
    t.boot.bstate = 1 ∧ t.boot.berr = 0 ∧ t.boot.fusedSvn = s.boot.fusedSvn ∧
    t.inputMv = s.inputMv ∧ t.power = if s.inputMv < 40000 ∨ 60000 < s.inputMv then .off else .boot) ∧
  (∀ s : State, s.posted = [] → s.heldWrites = [] → ∃ t, exec .bootgo s = .next t ∧
    if s.boot.bstate ≠ 1 then t = s
    else match bootFailure s with
      | some code => t = { s with boot := { s.boot with bstate := 1, berr := code } }
      | none =>
        let h := Config.imageHeader s.boot.staging
        t.boot.bstate = 4 ∧ t.boot.berr = 0 ∧ t.boot.measurement = shake256 (stagedImage s) ∧
        t.boot.fusedSvn = (if h.commit = true then max s.boot.fusedSvn h.svn else s.boot.fusedSvn) ∧
        (s.power = .boot → t.power = .run) ∧ t.launches = s.launches ∧ s.sameBytes t ∧
        ∀ d : DieId, let x := t.ctxAt (firmwareCore d) 0
          x.status = .live ∧ x.pc = h.entry ∧ x.mode = .firmware ∧ x.s[4] = BitVec.ofNat 64 d.val ∧ x.vl = 0 ∧ x.domain = 0) ∧
  (∀ s : State, s.posted = [] → s.heldWrites = [] → ∃ t, exec .attest s = .next t ∧
    if s.boot.bstate ≠ 4 then t = s
    else if 256 ≤ s.boot.leaf ∨ 4096 < s.boot.boots then t = { s with boot := { s.boot with berr := 5 } }
    else t = { s with boot := { s.boot with leaf := s.boot.leaf + 1, report := t.boot.report } } ∧
      ∃ signature, t.boot.report = bytesLE s.boot.nonce.toNat 32 ++ s.boot.measurement ++ bytesLE s.boot.fusedSvn 8 ++
        bytesLE s.bregs.pkgno 8 ++ bytesLE ((s.boot.boots - 1) * 256 + s.boot.leaf) 8 ++ signature) ∧
  (∀ (off : Nat) (bytes : List Byte) (s : State), s.posted = [] → s.heldWrites ≠ [] →
    exec (.stagingSramWrite off bytes) s = .next { s with posted := [.staging off bytes] } ∧
    exec .bootgo s = .next { s with posted := [.register 0x10000 1] } ∧
    exec .attest s = .next { s with posted := [.register 0x10000 2] }) ∧
  (∀ (off : Nat) (bytes : List Byte) (s : State), memoryWf s.boot.staging = true → s.posted = [] → s.heldWrites = [] →
    ∃ t, exec (.stagingSramWrite off bytes) s = .next t ∧ t = { s with boot := { s.boot with staging := t.boot.staging } } ∧
      ∀ x, readByte t.boot.staging x = if off ≤ x ∧ x < off + bytes.length ∧ x < 0x800000 then bytes.getD (x - off) 0
        else readByte s.boot.staging x)

/-- 08 R169, R173, R174; 14 R315, R316, R322, R324: frames of the scale-out streams, failures reported to the host, and
power. The formats of frames and the limits of power are partly the model's (logs 18, 19). -/
def Obligations.OutsideEvents : Prop :=
  (∀ (port : Fin 8) (f : Frame) (s : State), s.arrivedFrames = [] → ∃ t, exec (.scaleoutFrameReceive port f) s = .next t ∧
    let next := nextSeq s.rxSeq f.src f.cls
    let acks := fun (n : Nat) => ∃ g ∈ t.txFrames, g.dst = f.src ∧ g.cls = f.cls ∧ g.body = .ack n
    if f.dst ≠ s.bregs.pkgno then t = s
    else match f.body with
      | .ack n =>
        let within := fun (o : Frame) => o.dst == f.src && o.cls == f.cls && decide (o.seq ≤ n)
        t = { s with txFrames := t.txFrames } ∧
        t.txFrames.filter (fun o => !within o) = s.txFrames.filter (fun o => !within o) ∧
        ∀ o, within o = true → (o ∈ t.txFrames ↔ o ∈ s.txFrames ∧ o.acked = true ∨
          ∃ p ∈ s.txFrames, p.acked = false ∧ wantsReply p = true ∧ o = { p with acked := true })
      | body => if f.seq ≠ next then
        t = { s with txFrames := t.txFrames } ∧ if f.seq < next then acks (next - 1) else t = s
    else match body with
      | .ack _ => False
      | .message dest m p =>
        dest.extractLsb' 60 4 = 2 →
        let d : DieId := Fin.ofNat 8 (dest.toNat / 2 ^ 16 % 8)
        let n := agentPlace (dest.toNat / 2 ^ 8 % 16) (dest.toNat % 4)
        if 16 ≤ (queueOf s d n).length then
          t.rxSeq = s.rxSeq ∧ t.dies = s.dies ∧ t.txFrames = s.txFrames ∧ .event (.scaleoutFrameReceive port f) ∈ t.agenda
        else queueOf t d n = queueOf s d n ++ [⟨m, { p with remote := true }, d, n, s.regionsOf d p.domain⟩] ∧
          nextSeq t.rxSeq f.src f.cls = f.seq + 1 ∧ acks f.seq ∧ s.sameBytes t ∧
          ∀ a b, (a, b) ≠ (f.src, f.cls) → nextSeq t.rxSeq a b = nextSeq s.rxSeq a b
      | .reply p addr w0 w1 =>
        nextSeq t.rxSeq f.src f.cls = f.seq + 1 ∧ acks f.seq ∧
        ∀ o, windowOffset (addr.toNat % 2 ^ 52) = some o → s.holdsSender p = true → o + 16 ≤ 0x60000 →
          wroteBytes s.lmem t.lmem (localKey p.core o) 16 (w0.toNat + 2 ^ 64 * w1.toNat)
      | .sourceRead die inst p addr len =>
        nextSeq t.rxSeq f.src f.cls = f.seq + 1 ∧ acks f.seq ∧
        ∀ v u, s.sourceRead ⟨⟨0, 0, 0, 0, 0, 0, 0, 0⟩, { p with remote := false }, dieOf p.core, 0, s.regionsOf (dieOf p.core) p.domain⟩
            addr len = .ok (v, u) →
          ∃ g ∈ t.txFrames, g.dst = f.src ∧ g.cls = f.cls ∧ g.body = .sourceData die inst 0 0 v
      | .sourceData die inst status value data =>
        nextSeq t.rxSeq f.src f.cls = f.seq + 1 ∧ acks f.seq ∧
        let d : DieId := Fin.ofNat 8 (ringPos s.bregs.vdmap die.val)
        (((s.dieAt d).agents[inst]).aux1 = 1 → ((s.dieAt d).agents[inst]).words = [] →
          ((t.dieAt d).agents[inst]).words = [status, value.toNat, data])) ∧
  (∀ (port q : Fin 8) (f g : Frame) (s u : State), s.arrivedFrames = [(q, g)] → ¬ (g.src = f.src ∧ g.cls = f.cls) →
    frameWins s g f →
    ({ s with agenda := s.agenda.map (fun t =>
      if t = .event (.scaleoutFrameReceive q g) then .event (.scaleoutFrameReceive port f) else t) } : State).takeFrame g = some u →
    exec (.scaleoutFrameReceive port f) s = .next u) ∧
  (∀ (n : Nat) (s : State), ∃ t, exec (.scaleoutDeliveryTimeout n) s = .next t ∧
    match s.txFrames[n]? with
    | none => t = s
    | some f =>
      if f.acked = true then t = s
      else .noRoute f.dst ∈ t.notes ∧
      match f.body with
      | .message _ m p => p.remote = false → nextSeq t.txSeq f.dst f.cls = nextSeq s.txSeq f.dst f.cls - 1 ∧
          ∃ u : State, t = u.reply (dieOf p.core) p m 4 0 ∧ u.cores = s.cores ∧ u.dies = s.dies ∧ s.sameBytes u ∧
            u.txFrames.length + 1 = s.txFrames.length
      | .reply p _ _ _ => (t.dieAt (dieOf p.core)).fw.msgerr = min ((s.dieAt (dieOf p.core)).fw.msgerr + 1) (2 ^ 32 - 1) ∧
          t.txFrames.length + 1 = s.txFrames.length
      | _ => t.cores = s.cores ∧ t.dies = s.dies ∧ s.sameBytes t ∧ t.txFrames.length + 1 = s.txFrames.length) ∧
  (∀ (src dst cls : Nat) (s : State), ∃ t, exec (.goBackNRetransmission src dst cls) s = .next t ∧
    t = { s with txFrames := t.txFrames } ∧ t.txFrames.Perm s.txFrames ∧
    (let mine := fun (f : Frame) => f.src == src && f.dst == dst && f.cls == cls && !f.acked
     t.txFrames.filter mine = s.txFrames.filter mine ∧
     t.txFrames.filter (fun f => !mine f) = s.txFrames.filter (fun f => !mine f)) ∧ (oldestFirst s → oldestFirst t)) ∧
  (∀ (s : State) (c : CoreId) (dst cls : Nat) (b : FrameBody), (∀ f ∈ s.txFrames, f.src = s.bregs.pkgno) →
    let t := s.sendFrame c dst cls b
    let stream := fun (f : Frame) => f.dst == dst && f.cls == cls
    (∃ f, t.txFrames.filter stream = s.txFrames.filter stream ++ [f] ∧ f.body = b ∧ f.core = c ∧ frameAge s f = 0 ∧
      f.seq = nextSeq s.txSeq dst cls) ∧
    t.txFrames.filter (fun f => !stream f) = s.txFrames.filter (fun f => !stream f) ∧
    (s.txFrames.filter stream = [] → oldestFirst s → oldestFirst t)) ∧
  (∀ (d : DieId) (link : Nat) (s : State),
    exec (.heartbeatMiss d) s = .next { s with notes := s.notes ++ [.heartbeatMissed d.val] } ∧
    exec (.linkLoss link) s = .next { s with notes := s.notes ++ [.linkLost link] }) ∧
  (∀ (mv : Nat) (s : State), ∃ t, exec (.powerInputChange mv) s = .next t ∧
    let w := { s with inputMv := mv }
    (mv < 40000 → ∃ u, tripped w u ∧ t = { u with power := .off }) ∧ (60000 < mv → tripped w t) ∧
    (40000 ≤ mv → mv ≤ 60000 →
      if s.power = .off ∧ s.inputMv < 40000 then t.power = .boot ∧ t.cores = State.reset.cores ∧ t.boot.bstate = 1 else t = w)) ∧
  (∀ s : State, (∃ t, exec .junctionThrottle s = .next t ∧ throttled s t) ∧ (∃ t, exec .powerAverageExceed s = .next t ∧ throttled s t) ∧
    (∃ t, exec .junctionTrip s = .next t ∧ tripped s t) ∧
    (s.agenda = [] → (s.power = .trip → step s = .next { s with power := .off }) ∧ (s.power = .off → step s = .fault .poweredOff)))


/-- Decoding and encoding agree (03 R53 to R58; 04 R73): every well-formed instruction that has a word is read back whole from
it, and a word that decodes to an instruction is that instruction's. -/
def Obligations.DecodeEncode : Prop :=
  (∀ i : Instr, hasWord i = true → i.wellFormed = true → decode (encode i) = .ok i) ∧
  (∀ (w : Word) (i : Instr), decode w = .ok i → i.wellFormed = true ∧ encode i = w)

/-- Words of 03 R53 to R58 and 09 R205 decode to what they stand for; an unassigned OP gives the instruction that only traps,
and a reserved field value is refused by name. -/
def Obligations.DecodeWords : Prop :=
  decode 0x60000000_28C00000 = .ok (.msg ⟨⟨0, none⟩, 0, 5, 6, 0, 0, 0⟩) ∧
  decode 0x75000000_30000000 = .ok (.hop ⟨⟨0, none⟩, 0, 6, 0, 0, 0, 0⟩) ∧
  decode 0xE0000001_C0007800 = .ok (.mlease ⟨⟨0, none⟩, 0, 14, 0, 0, 15, 0, 0⟩) ∧
  decode 0xE7000000_00000240 = .ok (.mma ⟨⟨0, none⟩, 0, 0, 0, 0, 0, 9, 0⟩) ∧
  decode 0xD7000000_00080005 = .ok (.kbr ⟨⟨0, none⟩, 0, 0, 0, 1, 0, 5⟩) ∧
  decode 0 = .ok (.unassignedOp 0) ∧
  decode 0xFFFFFFFF_FFFFFFFF = .ok (.unassignedOp 0xFFFFFFFF_FFFFFFFF) ∧
  decode 0x01000000_00000001 = .error .zeroBits ∧
  decode 0x01000080_00000600 = .error .guardBits ∧
  decode 0x01000000_000006A0 = .error (.field .rounding)

/-- A step runs what stands before it: the events of cycles that have passed, the event or command at the head of the
agenda, a handler invocation, or the instruction that the word at the chosen context's pc decodes to (02 R30; 03 R53; 15
R340). An agent, a context or an invocation that would exceed its domain's injection limit stalls instead, until the next
window (01 R18); what counts against the limit is the model's (log 17). The agenda is the model's order of agents, and
`withFetchWord` its placing of a word (logs 1, 6). -/
def Obligations.StepRunsDecoded : Prop :=
  (∀ s : State, s.halted = false → s.clockDue = true → step s = .next s.raiseClock) ∧
  (∀ (s : State) (i : Instr) (rest : List Turn), s.halted = false → s.clockDue = false → s.agenda = .event i :: rest →
    step s = exec i { s with agenda := rest }) ∧
  (∀ (s : State) (d : DieId) (n : Fin 8) (i : Instr) (rest : List Turn), s.halted = false → s.clockDue = false →
    s.agenda = .agent d n :: rest → ({ s with agenda := rest } : State).headCommand d n = some (.ok i) →
    let v : State := { s with agenda := rest }
    ∃ c, (queueOf s d n).head? = some c ∧ runsWithin v d c.sender.domain (v.deferTurn (.agent d n)) (exec i v) (step s)) ∧
  (∀ s : State, s.halted = false → s.clockDue = false → s.agenda = [] →
    let v := ({ s with focus := s.nextFocus } : State).wakeAll s.focus
    let later := (v.cycle / 1024 + 1) * 1024
    (v.choose s.focus = .invoke → ∀ m, lowestClass (v.coreAt s.focus).hqueue = some m →
      runsWithin v (dieOf s.focus) m.sender.domain (v.modCtxAt s.focus handlerCtx (fun x => { x with waitFrom := later }))
        (exec (.handlerInvocation s.focus) v) (step s)) ∧
    (∀ p, v.choose s.focus = .run p → (v.select s.focus p).boundary = none →
      let x := v.select s.focus p
      let runs := runsWithin x x.runDie x.ctx.domain (x.modCtx (fun y => { y with nextIssue := later }))
      (∀ w u, x.fetch = .ok (w, u) → u.boundaryEvent w = none →
        (∀ i, decode w = .ok i → runs (exec i u) (step s)) ∧ (∀ e, decode w = .error e → runs (exec (.unassignedOp w) u) (step s))) ∧
      (∀ k, x.fetch = .error k → runs (exec (.instructionFetch k x.ctx.pc) x) (step s)))) ∧
  (∀ (w : Word) (i : Instr), decode w = .ok i →
    ∃ u, step (State.reset.withFetchWord 64 w.toNat) = exec i u ∧ u.cur = (0, 0) ∧ u.ctx.mode = .firmware ∧ u.cycle = 0 ∧
      u.ctx.s = Vector.replicate 64 0)

/-- Module reset leaves every register that a table gives a reset value at that value, with the memories canonical (03 R47 to
R52; 06 R133; 12 R269, R278; 13 R287, R305; 14 R318 to R320). -/
def Obligations.ResetValues : Prop :=
  (∀ p, ∀ r ∈ resetCsrs, ({ State.reset with cur := p } : State).csrRead r.1 = r.2) ∧
  (∀ (c : CoreId) (n : Fin 8), ∀ r ∈ [(0, 0), (1, 6), (2, 0), (3, 0), (4, 1), (5, 0), (6, 0)],
    ((State.reset.coreAt c).rings[n]).field r.1 = r.2) ∧
  (∀ d : DieId, ∀ r ∈ resetFw, (State.reset.dieAt d).fw.read r.1 = r.2) ∧
  (∀ r ∈ resetBellows, State.reset.bellowsRead r.1 = r.2) ∧
  (∀ n : Fin 16, State.reset.rings[n] = ⟨0, false, 0, 0, 4, 0, 0, 0, 0, false⟩) ∧
  State.reset.bregs.vdmap = 0 ∧ State.reset.boot.bstate = 1 ∧ State.reset.power = .boot ∧
  memoriesWf State.reset = true ∧ linesOk State.reset = true

/-- Every step keeps the canonical form of the memories. -/
def Obligations.StepKeepsCanonical : Prop :=
  ∀ s t : State, memoriesWf s = true → step s = .next t → memoriesWf t = true

/-- Every step keeps the lines of L1 and L2 grains of 32, 128 or 512 bytes on their boundaries, and the cached leaves whole
pages (06 R126 to R128; 13 R295). -/
def Obligations.CacheLinesKept : Prop :=
  ∀ s t : State, linesOk s = true → step s = .next t → linesOk t = true
end

