-- ==== Sys2Proof/Laws/Encoding.lean ====
section
/-! SUPPORT. The formats of 03 R54 one by one: the fields of an encoded word are the fields encoded, its OP is the one
given, and its zero bits are zero. -/
namespace Sys2Proof

/-- The low 56 bits of a word of fields below `2 ^ 56` keep the OP apart. -/
theorem opcode_ofNat (op n : Nat) (h : op < 256) (hn : n < 2 ^ 56) : opcode (BitVec.ofNat 64 (op * 2 ^ 56 + n)) = op := by
  simp only [opcode, BitVec.toNat_ofNat]
  omega

theorem bitN_lt (b : Bool) : bitN b < 2 := by cases b <;> decide

/-- A scalar control word lies in bits 55:39. -/
theorem encodeSCtl_bounds (c : SCtl) : encodeSCtl c % 2 ^ 39 = 0 ∧ encodeSCtl c < 2 ^ 56 := by
  have h1 := c.stall.isLt
  unfold encodeSCtl
  cases c.guard with
  | none => simp only; omega
  | some g =>
    have h2 := g.greg.isLt
    have h3 := g.gbit.isLt
    have h4 := bitN_lt g.gn
    simp only
    omega

/-- A vector control word lies in bits 55:39. -/
theorem encodeVCtl_bounds (c : VCtl) : encodeVCtl c % 2 ^ 39 = 0 ∧ encodeVCtl c < 2 ^ 56 := by
  have h1 := c.stall.isLt
  have h2 := c.ksel.isLt
  have h3 := c.ty.isLt
  have h4 := c.rm.isLt
  have h5 := bitN_lt c.kp
  have h6 := bitN_lt c.tp
  unfold encodeVCtl
  omega

/-- A field of a word given as a number. -/
theorem field_ofNat (n lo len : Nat) (h : n < 2 ^ 64) :
    field (BitVec.ofNat 64 n) lo len = BitVec.ofNat len (n / 2 ^ lo) := by
  simp only [field, BitVec.toNat_ofNat, Nat.mod_eq_of_lt h]

/-- A flag of a word given as a number. -/
theorem flag_ofNat (n i : Nat) (h : n < 2 ^ 64) : flag (BitVec.ofNat 64 n) i = (n / 2 ^ i % 2 == 1) := by
  simp only [flag, BitVec.toNat_ofNat, Nat.mod_eq_of_lt h]

theorem bitN_eq (b : Bool) : (bitN b == 1) = b := by cases b <;> rfl

/-- The scalar control of a word whose bits 55:39 are an encoded one. -/
theorem decodeSCtl_encode (op : Nat) (c : SCtl) (n : Nat) (h : op < 256) (hn : n < 2 ^ 39) :
    decodeSCtl (BitVec.ofNat 64 (op * 2 ^ 56 + encodeSCtl c + n)) = c := by
  obtain ⟨hb, hc⟩ := encodeSCtl_bounds c
  have hlt : op * 2 ^ 56 + encodeSCtl c + n < 2 ^ 64 := by omega
  have h1 := c.stall.isLt
  obtain ⟨st, gd⟩ := c
  unfold decodeSCtl
  rw [flag_ofNat _ _ hlt, flag_ofNat _ _ hlt, field_ofNat _ _ _ hlt, field_ofNat _ _ _ hlt, field_ofNat _ _ _ hlt]
  cases gd with
  | none =>
    have e : encodeSCtl ⟨st, none⟩ = st.toNat * 2 ^ 53 := by simp [encodeSCtl]
    rw [e]
    have hf : ((op * 2 ^ 56 + st.toNat * 2 ^ 53 + n) / 2 ^ 52 % 2 == 1) = false := by
      rw [beq_eq_false_iff_ne]; omega
    rw [hf]
    congr 1
    simp only [BitVec.toNat_eq, BitVec.toNat_ofNat]
    omega
  | some g =>
    have h2 := g.greg.isLt
    have h3 := g.gbit.isLt
    have h4 := bitN_lt g.gn
    have e : encodeSCtl ⟨st, some g⟩ =
        st.toNat * 2 ^ 53 + (2 ^ 52 + bitN g.gn * 2 ^ 51 + g.greg.toNat * 2 ^ 45 + g.gbit.toNat * 2 ^ 39) := rfl
    rw [e]
    have hf : ((op * 2 ^ 56 + (st.toNat * 2 ^ 53 + (2 ^ 52 + bitN g.gn * 2 ^ 51 + g.greg.toNat * 2 ^ 45 +
        g.gbit.toNat * 2 ^ 39)) + n) / 2 ^ 52 % 2 == 1) = true := by
      rw [beq_iff_eq]; omega
    have hg : ((op * 2 ^ 56 + (st.toNat * 2 ^ 53 + (2 ^ 52 + bitN g.gn * 2 ^ 51 + g.greg.toNat * 2 ^ 45 +
        g.gbit.toNat * 2 ^ 39)) + n) / 2 ^ 51 % 2) = bitN g.gn := by omega
    rw [hf, hg, bitN_eq]
    obtain ⟨gn, greg, gbit⟩ := g
    simp only [SCtl.mk.injEq, if_true, Option.some.injEq, Guard.mk.injEq, true_and, BitVec.toNat_eq, BitVec.toNat_ofNat]
    simp only at h2 h3 h4
    refine ⟨by omega, by omega, by omega⟩

/-- The vector control of a word whose bits 55:39 are an encoded one. -/
theorem decodeVCtl_encode (op : Nat) (c : VCtl) (n : Nat) (h : op < 256) (hn : n < 2 ^ 39) :
    decodeVCtl (BitVec.ofNat 64 (op * 2 ^ 56 + encodeVCtl c + n)) = c := by
  obtain ⟨hb, hc⟩ := encodeVCtl_bounds c
  have hlt : op * 2 ^ 56 + encodeVCtl c + n < 2 ^ 64 := by omega
  have h1 := c.stall.isLt
  have h2 := c.ksel.isLt
  have h3 := c.ty.isLt
  have h4 := c.rm.isLt
  have h5 := bitN_lt c.kp
  have h6 := bitN_lt c.tp
  unfold decodeVCtl
  rw [flag_ofNat _ _ hlt, flag_ofNat _ _ hlt, field_ofNat _ _ _ hlt, field_ofNat _ _ _ hlt, field_ofNat _ _ _ hlt,
    field_ofNat _ _ _ hlt]
  unfold encodeVCtl at *
  have k1 : (op * 2 ^ 56 + (c.stall.toNat * 2 ^ 53 + c.ksel.toNat * 2 ^ 49 + bitN c.kp * 2 ^ 48 + bitN c.tp * 2 ^ 47 +
      c.ty.toNat * 2 ^ 42 + c.rm.toNat * 2 ^ 39) + n) / 2 ^ 48 % 2 = bitN c.kp := by omega
  have k2 : (op * 2 ^ 56 + (c.stall.toNat * 2 ^ 53 + c.ksel.toNat * 2 ^ 49 + bitN c.kp * 2 ^ 48 + bitN c.tp * 2 ^ 47 +
      c.ty.toNat * 2 ^ 42 + c.rm.toNat * 2 ^ 39) + n) / 2 ^ 47 % 2 = bitN c.tp := by omega
  rw [k1, k2, bitN_eq, bitN_eq]
  obtain ⟨st, ks, kp, tp, ty, rm⟩ := c
  simp only [VCtl.mk.injEq, true_and, BitVec.toNat_eq, BitVec.toNat_ofNat]
  simp only at h1 h2 h3 h4 h5 h6
  refine ⟨by omega, by omega, by omega, by omega⟩

/-- The zero bits of a scalar-style word (03 R54, R56). -/
theorem scalarWord_ok (z op : Nat) (c : SCtl) (n : Nat) (i : Instr) (h : op < 256) (hn : n < 2 ^ 39)
    (hz : n % 2 ^ z = 0) (hzero : z ≤ 39) :
    scalarWord z (BitVec.ofNat 64 (op * 2 ^ 56 + encodeSCtl c + n)) i = .ok i := by
  obtain ⟨hb, hc⟩ := encodeSCtl_bounds c
  have hlt : op * 2 ^ 56 + encodeSCtl c + n < 2 ^ 64 := by omega
  have h1 := c.stall.isLt
  obtain ⟨st, gd⟩ := c
  unfold scalarWord
  rw [flag_ofNat _ _ hlt, field_ofNat _ _ _ hlt, field_ofNat _ _ _ hlt]
  have hlow : BitVec.ofNat z ((op * 2 ^ 56 + encodeSCtl ⟨st, gd⟩ + n) / 2 ^ 0) = 0 := by
    simp only [BitVec.toNat_eq, BitVec.toNat_ofNat]
    rw [Nat.pow_zero, Nat.div_one]
    have d39 : 2 ^ z ∣ 2 ^ 39 := Nat.pow_dvd_pow 2 hzero
    have d1 : 2 ^ z ∣ encodeSCtl ⟨st, gd⟩ := d39.trans (Nat.dvd_of_mod_eq_zero hb)
    have d2 : 2 ^ z ∣ op * 2 ^ 56 := (d39.trans (Nat.pow_dvd_pow 2 (by decide))).mul_left op
    have d3 : 2 ^ z ∣ n := Nat.dvd_of_mod_eq_zero hz
    rw [Nat.mod_eq_zero_of_dvd (Nat.dvd_add (Nat.dvd_add d2 d1) d3)]
    simp
  rw [hlow]
  cases gd with
  | none =>
    have e : encodeSCtl ⟨st, none⟩ = st.toNat * 2 ^ 53 := by simp [encodeSCtl]
    rw [e]
    have hz2 : BitVec.ofNat 13 ((op * 2 ^ 56 + st.toNat * 2 ^ 53 + n) / 2 ^ 39) = 0 := by
      simp only [BitVec.toNat_eq, BitVec.toNat_ofNat]
      simp only [show (0 : BitVec 13).toNat = 0 from rfl]
      omega
    rw [hz2]
    simp
  | some g =>
    have h2 := g.greg.isLt
    have h3 := g.gbit.isLt
    have h4 := bitN_lt g.gn
    have e : encodeSCtl ⟨st, some g⟩ =
        st.toNat * 2 ^ 53 + (2 ^ 52 + bitN g.gn * 2 ^ 51 + g.greg.toNat * 2 ^ 45 + g.gbit.toNat * 2 ^ 39) := rfl
    rw [e]
    have hf : ((op * 2 ^ 56 + (st.toNat * 2 ^ 53 + (2 ^ 52 + bitN g.gn * 2 ^ 51 + g.greg.toNat * 2 ^ 45 +
        g.gbit.toNat * 2 ^ 39)) + n) / 2 ^ 52 % 2 == 1) = true := by
      rw [beq_iff_eq]; omega
    rw [hf]
    simp

/-! ### Format SR -/

/-- An encoded word in the shape of the lemmas above. -/
theorem encodeSR_eq (op : Nat) (f : SR) :
    ∃ n, n < 2 ^ 39 ∧ n = f.dst.toNat * 2 ^ 33 + f.sa.toNat * 2 ^ 27 + f.sb.toNat * 2 ^ 21 + f.fn.toNat * 2 ^ 13 + f.ty.toNat * 2 ^ 8 + f.rm.toNat * 2 ^ 5 ∧ encodeSR op f = BitVec.ofNat 64 (op * 2 ^ 56 + encodeSCtl f.ctl + n) := by
  have h0 := f.dst.isLt
  have h1 := f.sa.isLt
  have h2 := f.sb.isLt
  have h3 := f.fn.isLt
  have h4 := f.ty.isLt
  have h5 := f.rm.isLt
  refine ⟨_, ?_, rfl, ?_⟩
  · omega
  · simp only [encodeSR, Nat.add_assoc]

theorem decodeSR_encode (op : Nat) (f : SR) (h : op < 256) : decodeSR (encodeSR op f) = f := by
  obtain ⟨n, hn, en, ew⟩ := encodeSR_eq op f
  obtain ⟨hb, hc⟩ := encodeSCtl_bounds f.ctl
  have hlt : op * 2 ^ 56 + encodeSCtl f.ctl + n < 2 ^ 64 := by omega
  rw [ew]
  unfold decodeSR
  rw [decodeSCtl_encode op f.ctl n h hn]
  simp only [field_ofNat _ _ _ hlt]
  have h0 := f.dst.isLt
  have h1 := f.sa.isLt
  have h2 := f.sb.isLt
  have h3 := f.fn.isLt
  have h4 := f.ty.isLt
  have h5 := f.rm.isLt
  rcases f with ⟨ctl, dst, sa, sb, fn, ty, rm⟩
  simp only at hb hc hn en h0 h1 h2 h3 h4 h5

  simp only [SR.mk.injEq, true_and, BitVec.toNat_eq, BitVec.toNat_ofNat]
  refine ⟨by omega, by omega, by omega, by omega, by omega, by omega⟩

theorem opcode_encodeSR (op : Nat) (f : SR) (h : op < 256) : opcode (encodeSR op f) = op := by
  obtain ⟨n, hn, -, ew⟩ := encodeSR_eq op f
  obtain ⟨hb, hc⟩ := encodeSCtl_bounds f.ctl
  rw [ew, Nat.add_assoc]
  exact opcode_ofNat op _ h (by omega)

theorem scalarWord_encodeSR (op : Nat) (f : SR) (i : Instr) (h : op < 256) :
    scalarWord 5 (encodeSR op f) i = .ok i := by
  obtain ⟨n, hn, en, ew⟩ := encodeSR_eq op f
  rw [ew]
  exact scalarWord_ok 5 op f.ctl n i h hn (by omega) (by decide)

/-! ### Format SI -/

/-- An encoded word in the shape of the lemmas above. -/
theorem encodeSI_eq (op : Nat) (f : SI) :
    ∃ n, n < 2 ^ 39 ∧ n = f.dst.toNat * 2 ^ 33 + f.sa.toNat * 2 ^ 27 + f.imm.toNat ∧ encodeSI op f = BitVec.ofNat 64 (op * 2 ^ 56 + encodeSCtl f.ctl + n) := by
  have h0 := f.dst.isLt
  have h1 := f.sa.isLt
  have h2 := f.imm.isLt
  refine ⟨_, ?_, rfl, ?_⟩
  · omega
  · simp only [encodeSI, Nat.add_assoc]

theorem decodeSI_encode (op : Nat) (f : SI) (h : op < 256) : decodeSI (encodeSI op f) = f := by
  obtain ⟨n, hn, en, ew⟩ := encodeSI_eq op f
  obtain ⟨hb, hc⟩ := encodeSCtl_bounds f.ctl
  have hlt : op * 2 ^ 56 + encodeSCtl f.ctl + n < 2 ^ 64 := by omega
  rw [ew]
  unfold decodeSI
  rw [decodeSCtl_encode op f.ctl n h hn]
  simp only [field_ofNat _ _ _ hlt]
  have h0 := f.dst.isLt
  have h1 := f.sa.isLt
  have h2 := f.imm.isLt
  rcases f with ⟨ctl, dst, sa, imm⟩
  simp only at hb hc hn en h0 h1 h2

  simp only [SI.mk.injEq, true_and, BitVec.toNat_eq, BitVec.toNat_ofNat]
  refine ⟨by omega, by omega, by omega⟩

theorem opcode_encodeSI (op : Nat) (f : SI) (h : op < 256) : opcode (encodeSI op f) = op := by
  obtain ⟨n, hn, -, ew⟩ := encodeSI_eq op f
  obtain ⟨hb, hc⟩ := encodeSCtl_bounds f.ctl
  rw [ew, Nat.add_assoc]
  exact opcode_ofNat op _ h (by omega)

theorem scalarWord_encodeSI (op : Nat) (f : SI) (i : Instr) (h : op < 256) :
    scalarWord 0 (encodeSI op f) i = .ok i := by
  obtain ⟨n, hn, en, ew⟩ := encodeSI_eq op f
  rw [ew]
  exact scalarWord_ok 0 op f.ctl n i h hn (by omega) (by decide)

/-! ### Format SL -/

/-- An encoded word in the shape of the lemmas above. -/
theorem encodeSL_eq (op : Nat) (f : SL) :
    ∃ n, n < 2 ^ 39 ∧ n = f.dst.toNat * 2 ^ 33 + f.imm.toNat ∧ encodeSL op f = BitVec.ofNat 64 (op * 2 ^ 56 + encodeSCtl f.ctl + n) := by
  have h0 := f.dst.isLt
  have h1 := f.imm.isLt
  refine ⟨_, ?_, rfl, ?_⟩
  · omega
  · simp only [encodeSL, Nat.add_assoc]

theorem decodeSL_encode (op : Nat) (f : SL) (h : op < 256) : decodeSL (encodeSL op f) = f := by
  obtain ⟨n, hn, en, ew⟩ := encodeSL_eq op f
  obtain ⟨hb, hc⟩ := encodeSCtl_bounds f.ctl
  have hlt : op * 2 ^ 56 + encodeSCtl f.ctl + n < 2 ^ 64 := by omega
  rw [ew]
  unfold decodeSL
  rw [decodeSCtl_encode op f.ctl n h hn]
  simp only [field_ofNat _ _ _ hlt]
  have h0 := f.dst.isLt
  have h1 := f.imm.isLt
  rcases f with ⟨ctl, dst, imm⟩
  simp only at hb hc hn en h0 h1

  simp only [SL.mk.injEq, true_and, BitVec.toNat_eq, BitVec.toNat_ofNat]
  refine ⟨by omega, by omega⟩

theorem opcode_encodeSL (op : Nat) (f : SL) (h : op < 256) : opcode (encodeSL op f) = op := by
  obtain ⟨n, hn, -, ew⟩ := encodeSL_eq op f
  obtain ⟨hb, hc⟩ := encodeSCtl_bounds f.ctl
  rw [ew, Nat.add_assoc]
  exact opcode_ofNat op _ h (by omega)

theorem scalarWord_encodeSL (op : Nat) (f : SL) (i : Instr) (h : op < 256) :
    scalarWord 0 (encodeSL op f) i = .ok i := by
  obtain ⟨n, hn, en, ew⟩ := encodeSL_eq op f
  rw [ew]
  exact scalarWord_ok 0 op f.ctl n i h hn (by omega) (by decide)

/-! ### Format BR -/

/-- An encoded word in the shape of the lemmas above. -/
theorem encodeBR_eq (op : Nat) (f : BR) :
    ∃ n, n < 2 ^ 39 ∧ n = f.off.toNat ∧ encodeBR op f = BitVec.ofNat 64 (op * 2 ^ 56 + encodeSCtl f.ctl + n) := by
  have h0 := f.off.isLt
  refine ⟨_, ?_, rfl, ?_⟩
  · omega
  · simp only [encodeBR, Nat.add_assoc]

theorem decodeBR_encode (op : Nat) (f : BR) (h : op < 256) : decodeBR (encodeBR op f) = f := by
  obtain ⟨n, hn, en, ew⟩ := encodeBR_eq op f
  obtain ⟨hb, hc⟩ := encodeSCtl_bounds f.ctl
  have hlt : op * 2 ^ 56 + encodeSCtl f.ctl + n < 2 ^ 64 := by omega
  rw [ew]
  unfold decodeBR
  rw [decodeSCtl_encode op f.ctl n h hn]
  simp only [field_ofNat _ _ _ hlt]
  have h0 := f.off.isLt
  rcases f with ⟨ctl, off⟩
  simp only at hb hc hn en h0

  simp only [BR.mk.injEq, true_and, BitVec.toNat_eq, BitVec.toNat_ofNat]
  omega

theorem opcode_encodeBR (op : Nat) (f : BR) (h : op < 256) : opcode (encodeBR op f) = op := by
  obtain ⟨n, hn, -, ew⟩ := encodeBR_eq op f
  obtain ⟨hb, hc⟩ := encodeSCtl_bounds f.ctl
  rw [ew, Nat.add_assoc]
  exact opcode_ofNat op _ h (by omega)

theorem scalarWord_encodeBR (op : Nat) (f : BR) (i : Instr) (h : op < 256) :
    scalarWord 0 (encodeBR op f) i = .ok i := by
  obtain ⟨n, hn, en, ew⟩ := encodeBR_eq op f
  rw [ew]
  exact scalarWord_ok 0 op f.ctl n i h hn (by omega) (by decide)

/-! ### Format SB -/

/-- An encoded word in the shape of the lemmas above. -/
theorem encodeSB_eq (op : Nat) (f : SB) :
    ∃ n, n < 2 ^ 39 ∧ n = f.sa.toNat * 2 ^ 33 + f.sb.toNat * 2 ^ 27 + f.off.toNat ∧ encodeSB op f = BitVec.ofNat 64 (op * 2 ^ 56 + encodeSCtl f.ctl + n) := by
  have h0 := f.sa.isLt
  have h1 := f.sb.isLt
  have h2 := f.off.isLt
  refine ⟨_, ?_, rfl, ?_⟩
  · omega
  · simp only [encodeSB, Nat.add_assoc]

theorem decodeSB_encode (op : Nat) (f : SB) (h : op < 256) : decodeSB (encodeSB op f) = f := by
  obtain ⟨n, hn, en, ew⟩ := encodeSB_eq op f
  obtain ⟨hb, hc⟩ := encodeSCtl_bounds f.ctl
  have hlt : op * 2 ^ 56 + encodeSCtl f.ctl + n < 2 ^ 64 := by omega
  rw [ew]
  unfold decodeSB
  rw [decodeSCtl_encode op f.ctl n h hn]
  simp only [field_ofNat _ _ _ hlt]
  have h0 := f.sa.isLt
  have h1 := f.sb.isLt
  have h2 := f.off.isLt
  rcases f with ⟨ctl, sa, sb, off⟩
  simp only at hb hc hn en h0 h1 h2

  simp only [SB.mk.injEq, true_and, BitVec.toNat_eq, BitVec.toNat_ofNat]
  refine ⟨by omega, by omega, by omega⟩

theorem opcode_encodeSB (op : Nat) (f : SB) (h : op < 256) : opcode (encodeSB op f) = op := by
  obtain ⟨n, hn, -, ew⟩ := encodeSB_eq op f
  obtain ⟨hb, hc⟩ := encodeSCtl_bounds f.ctl
  rw [ew, Nat.add_assoc]
  exact opcode_ofNat op _ h (by omega)

theorem scalarWord_encodeSB (op : Nat) (f : SB) (i : Instr) (h : op < 256) :
    scalarWord 0 (encodeSB op f) i = .ok i := by
  obtain ⟨n, hn, en, ew⟩ := encodeSB_eq op f
  rw [ew]
  exact scalarWord_ok 0 op f.ctl n i h hn (by omega) (by decide)

/-! ### Format SQ -/

/-- An encoded word in the shape of the lemmas above. -/
theorem encodeSQ_eq (op : Nat) (f : SQ) :
    ∃ n, n < 2 ^ 39 ∧ n = f.dst.toNat * 2 ^ 33 + f.sa.toNat * 2 ^ 27 + f.sb.toNat * 2 ^ 21 + f.sc.toNat * 2 ^ 15 + f.fn.toNat * 2 ^ 7 + f.ty.toNat * 2 ^ 2 ∧ encodeSQ op f = BitVec.ofNat 64 (op * 2 ^ 56 + encodeSCtl f.ctl + n) := by
  have h0 := f.dst.isLt
  have h1 := f.sa.isLt
  have h2 := f.sb.isLt
  have h3 := f.sc.isLt
  have h4 := f.fn.isLt
  have h5 := f.ty.isLt
  refine ⟨_, ?_, rfl, ?_⟩
  · omega
  · simp only [encodeSQ, Nat.add_assoc]

theorem decodeSQ_encode (op : Nat) (f : SQ) (h : op < 256) : decodeSQ (encodeSQ op f) = f := by
  obtain ⟨n, hn, en, ew⟩ := encodeSQ_eq op f
  obtain ⟨hb, hc⟩ := encodeSCtl_bounds f.ctl
  have hlt : op * 2 ^ 56 + encodeSCtl f.ctl + n < 2 ^ 64 := by omega
  rw [ew]
  unfold decodeSQ
  rw [decodeSCtl_encode op f.ctl n h hn]
  simp only [field_ofNat _ _ _ hlt]
  have h0 := f.dst.isLt
  have h1 := f.sa.isLt
  have h2 := f.sb.isLt
  have h3 := f.sc.isLt
  have h4 := f.fn.isLt
  have h5 := f.ty.isLt
  rcases f with ⟨ctl, dst, sa, sb, sc, fn, ty⟩
  simp only at hb hc hn en h0 h1 h2 h3 h4 h5

  simp only [SQ.mk.injEq, true_and, BitVec.toNat_eq, BitVec.toNat_ofNat]
  refine ⟨by omega, by omega, by omega, by omega, by omega, by omega⟩

theorem opcode_encodeSQ (op : Nat) (f : SQ) (h : op < 256) : opcode (encodeSQ op f) = op := by
  obtain ⟨n, hn, -, ew⟩ := encodeSQ_eq op f
  obtain ⟨hb, hc⟩ := encodeSCtl_bounds f.ctl
  rw [ew, Nat.add_assoc]
  exact opcode_ofNat op _ h (by omega)

theorem scalarWord_encodeSQ (op : Nat) (f : SQ) (i : Instr) (h : op < 256) :
    scalarWord 2 (encodeSQ op f) i = .ok i := by
  obtain ⟨n, hn, en, ew⟩ := encodeSQ_eq op f
  rw [ew]
  exact scalarWord_ok 2 op f.ctl n i h hn (by omega) (by decide)

/-! ### Format SM -/

/-- An encoded word in the shape of the lemmas above. -/
theorem encodeSM_eq (op : Nat) (f : SM) :
    ∃ n, n < 2 ^ 39 ∧ n = f.ds.toNat * 2 ^ 33 + f.base.toNat * 2 ^ 27 + f.sc.toNat * 2 ^ 21 + f.off.toNat * 2 ^ 3 + f.sz.toNat ∧ encodeSM op f = BitVec.ofNat 64 (op * 2 ^ 56 + encodeSCtl f.ctl + n) := by
  have h0 := f.ds.isLt
  have h1 := f.base.isLt
  have h2 := f.sc.isLt
  have h3 := f.off.isLt
  have h4 := f.sz.isLt
  refine ⟨_, ?_, rfl, ?_⟩
  · omega
  · simp only [encodeSM, Nat.add_assoc]

theorem decodeSM_encode (op : Nat) (f : SM) (h : op < 256) : decodeSM (encodeSM op f) = f := by
  obtain ⟨n, hn, en, ew⟩ := encodeSM_eq op f
  obtain ⟨hb, hc⟩ := encodeSCtl_bounds f.ctl
  have hlt : op * 2 ^ 56 + encodeSCtl f.ctl + n < 2 ^ 64 := by omega
  rw [ew]
  unfold decodeSM
  rw [decodeSCtl_encode op f.ctl n h hn]
  simp only [field_ofNat _ _ _ hlt]
  have h0 := f.ds.isLt
  have h1 := f.base.isLt
  have h2 := f.sc.isLt
  have h3 := f.off.isLt
  have h4 := f.sz.isLt
  rcases f with ⟨ctl, ds, base, sc, off, sz⟩
  simp only at hb hc hn en h0 h1 h2 h3 h4

  simp only [SM.mk.injEq, true_and, BitVec.toNat_eq, BitVec.toNat_ofNat]
  refine ⟨by omega, by omega, by omega, by omega, by omega⟩

theorem opcode_encodeSM (op : Nat) (f : SM) (h : op < 256) : opcode (encodeSM op f) = op := by
  obtain ⟨n, hn, -, ew⟩ := encodeSM_eq op f
  obtain ⟨hb, hc⟩ := encodeSCtl_bounds f.ctl
  rw [ew, Nat.add_assoc]
  exact opcode_ofNat op _ h (by omega)

theorem scalarWord_encodeSM (op : Nat) (f : SM) (i : Instr) (h : op < 256) :
    scalarWord 0 (encodeSM op f) i = .ok i := by
  obtain ⟨n, hn, en, ew⟩ := encodeSM_eq op f
  rw [ew]
  exact scalarWord_ok 0 op f.ctl n i h hn (by omega) (by decide)

/-! ### Format SA -/

/-- An encoded word in the shape of the lemmas above. -/
theorem encodeSA_eq (op : Nat) (f : SA) :
    ∃ n, n < 2 ^ 39 ∧ n = f.dst.toNat * 2 ^ 33 + f.base.toNat * 2 ^ 27 + f.val.toNat * 2 ^ 21 + f.sc.toNat * 2 ^ 15 + f.aop.toNat * 2 ^ 10 + f.ord.toNat * 2 ^ 8 + bitN f.prm * 2 ^ 7 + f.sz.toNat * 2 ^ 4 ∧ encodeSA op f = BitVec.ofNat 64 (op * 2 ^ 56 + encodeSCtl f.ctl + n) := by
  have h0 := f.dst.isLt
  have h1 := f.base.isLt
  have h2 := f.val.isLt
  have h3 := f.sc.isLt
  have h4 := f.aop.isLt
  have h5 := f.ord.isLt
  have h6 := bitN_lt f.prm
  have h7 := f.sz.isLt
  refine ⟨_, ?_, rfl, ?_⟩
  · omega
  · simp only [encodeSA, Nat.add_assoc]

theorem decodeSA_encode (op : Nat) (f : SA) (h : op < 256) : decodeSA (encodeSA op f) = f := by
  obtain ⟨n, hn, en, ew⟩ := encodeSA_eq op f
  obtain ⟨hb, hc⟩ := encodeSCtl_bounds f.ctl
  have hlt : op * 2 ^ 56 + encodeSCtl f.ctl + n < 2 ^ 64 := by omega
  rw [ew]
  unfold decodeSA
  rw [decodeSCtl_encode op f.ctl n h hn, flag_ofNat _ _ hlt]
  simp only [field_ofNat _ _ _ hlt]
  have h0 := f.dst.isLt
  have h1 := f.base.isLt
  have h2 := f.val.isLt
  have h3 := f.sc.isLt
  have h4 := f.aop.isLt
  have h5 := f.ord.isLt
  have h6 := bitN_lt f.prm
  have h7 := f.sz.isLt
  rcases f with ⟨ctl, dst, base, val, sc, aop, ord, prm, sz⟩
  simp only at hb hc hn en h0 h1 h2 h3 h4 h5 h6 h7

  have hp : (op * 2 ^ 56 + encodeSCtl ctl + n) / 2 ^ 7 % 2 = bitN prm := by omega
  rw [hp, bitN_eq]
  simp only [SA.mk.injEq, true_and, BitVec.toNat_eq, BitVec.toNat_ofNat]
  refine ⟨by omega, by omega, by omega, by omega, by omega, by omega, by omega⟩

theorem opcode_encodeSA (op : Nat) (f : SA) (h : op < 256) : opcode (encodeSA op f) = op := by
  obtain ⟨n, hn, -, ew⟩ := encodeSA_eq op f
  obtain ⟨hb, hc⟩ := encodeSCtl_bounds f.ctl
  rw [ew, Nat.add_assoc]
  exact opcode_ofNat op _ h (by omega)

theorem scalarWord_encodeSA (op : Nat) (f : SA) (i : Instr) (h : op < 256) :
    scalarWord 4 (encodeSA op f) i = .ok i := by
  obtain ⟨n, hn, en, ew⟩ := encodeSA_eq op f
  rw [ew]
  exact scalarWord_ok 4 op f.ctl n i h hn (by omega) (by decide)

/-! ### Format SAC -/

/-- An encoded word in the shape of the lemmas above. -/
theorem encodeSAC_eq (op : Nat) (f : SAC) :
    ∃ n, n < 2 ^ 39 ∧ n = f.dst.toNat * 2 ^ 33 + f.base.toNat * 2 ^ 27 + f.exp.toNat * 2 ^ 21 + f.new.toNat * 2 ^ 15 + f.sc.toNat * 2 ^ 9 + f.ord.toNat * 2 ^ 7 + bitN f.prm * 2 ^ 6 + f.sz.toNat * 2 ^ 3 ∧ encodeSAC op f = BitVec.ofNat 64 (op * 2 ^ 56 + encodeSCtl f.ctl + n) := by
  have h0 := f.dst.isLt
  have h1 := f.base.isLt
  have h2 := f.exp.isLt
  have h3 := f.new.isLt
  have h4 := f.sc.isLt
  have h5 := f.ord.isLt
  have h6 := bitN_lt f.prm
  have h7 := f.sz.isLt
  refine ⟨_, ?_, rfl, ?_⟩
  · omega
  · simp only [encodeSAC, Nat.add_assoc]

theorem decodeSAC_encode (op : Nat) (f : SAC) (h : op < 256) : decodeSAC (encodeSAC op f) = f := by
  obtain ⟨n, hn, en, ew⟩ := encodeSAC_eq op f
  obtain ⟨hb, hc⟩ := encodeSCtl_bounds f.ctl
  have hlt : op * 2 ^ 56 + encodeSCtl f.ctl + n < 2 ^ 64 := by omega
  rw [ew]
  unfold decodeSAC
  rw [decodeSCtl_encode op f.ctl n h hn, flag_ofNat _ _ hlt]
  simp only [field_ofNat _ _ _ hlt]
  have h0 := f.dst.isLt
  have h1 := f.base.isLt
  have h2 := f.exp.isLt
  have h3 := f.new.isLt
  have h4 := f.sc.isLt
  have h5 := f.ord.isLt
  have h6 := bitN_lt f.prm
  have h7 := f.sz.isLt
  rcases f with ⟨ctl, dst, base, exp, new, sc, ord, prm, sz⟩
  simp only at hb hc hn en h0 h1 h2 h3 h4 h5 h6 h7

  have hp : (op * 2 ^ 56 + encodeSCtl ctl + n) / 2 ^ 6 % 2 = bitN prm := by omega
  rw [hp, bitN_eq]
  simp only [SAC.mk.injEq, true_and, BitVec.toNat_eq, BitVec.toNat_ofNat]
  refine ⟨by omega, by omega, by omega, by omega, by omega, by omega, by omega⟩

theorem opcode_encodeSAC (op : Nat) (f : SAC) (h : op < 256) : opcode (encodeSAC op f) = op := by
  obtain ⟨n, hn, -, ew⟩ := encodeSAC_eq op f
  obtain ⟨hb, hc⟩ := encodeSCtl_bounds f.ctl
  rw [ew, Nat.add_assoc]
  exact opcode_ofNat op _ h (by omega)

theorem scalarWord_encodeSAC (op : Nat) (f : SAC) (i : Instr) (h : op < 256) :
    scalarWord 3 (encodeSAC op f) i = .ok i := by
  obtain ⟨n, hn, en, ew⟩ := encodeSAC_eq op f
  rw [ew]
  exact scalarWord_ok 3 op f.ctl n i h hn (by omega) (by decide)

/-! ### Format V -/

/-- An encoded word in the shape of the lemmas above. -/
theorem encodeFV_eq (op : Nat) (f : FV) :
    ∃ n, n < 2 ^ 39 ∧ n = f.vd.toNat * 2 ^ 33 + f.va.toNat * 2 ^ 27 + f.vb.toNat * 2 ^ 21 + f.vc.toNat * 2 ^ 15 + f.fn.toNat * 2 ^ 7 + f.aux.toNat ∧ encodeFV op f = BitVec.ofNat 64 (op * 2 ^ 56 + encodeVCtl f.ctl + n) := by
  have h0 := f.vd.isLt
  have h1 := f.va.isLt
  have h2 := f.vb.isLt
  have h3 := f.vc.isLt
  have h4 := f.fn.isLt
  have h5 := f.aux.isLt
  refine ⟨_, ?_, rfl, ?_⟩
  · omega
  · simp only [encodeFV, Nat.add_assoc]

theorem decodeFV_encode (op : Nat) (f : FV) (h : op < 256) : decodeFV (encodeFV op f) = f := by
  obtain ⟨n, hn, en, ew⟩ := encodeFV_eq op f
  obtain ⟨hb, hc⟩ := encodeVCtl_bounds f.ctl
  have hlt : op * 2 ^ 56 + encodeVCtl f.ctl + n < 2 ^ 64 := by omega
  rw [ew]
  unfold decodeFV
  rw [decodeVCtl_encode op f.ctl n h hn]
  simp only [field_ofNat _ _ _ hlt]
  have h0 := f.vd.isLt
  have h1 := f.va.isLt
  have h2 := f.vb.isLt
  have h3 := f.vc.isLt
  have h4 := f.fn.isLt
  have h5 := f.aux.isLt
  rcases f with ⟨ctl, vd, va, vb, vc, fn, aux⟩
  simp only at hb hc hn en h0 h1 h2 h3 h4 h5

  simp only [FV.mk.injEq, true_and, BitVec.toNat_eq, BitVec.toNat_ofNat]
  refine ⟨by omega, by omega, by omega, by omega, by omega, by omega⟩

theorem opcode_encodeFV (op : Nat) (f : FV) (h : op < 256) : opcode (encodeFV op f) = op := by
  obtain ⟨n, hn, -, ew⟩ := encodeFV_eq op f
  obtain ⟨hb, hc⟩ := encodeVCtl_bounds f.ctl
  rw [ew, Nat.add_assoc]
  exact opcode_ofNat op _ h (by omega)

/-! ### Format VS -/

/-- An encoded word in the shape of the lemmas above. -/
theorem encodeVS_eq (op : Nat) (f : VS) :
    ∃ n, n < 2 ^ 39 ∧ n = f.vd.toNat * 2 ^ 33 + f.va.toNat * 2 ^ 27 + f.sb.toNat * 2 ^ 21 + f.fn.toNat * 2 ^ 13 + f.imm.toNat ∧ encodeVS op f = BitVec.ofNat 64 (op * 2 ^ 56 + encodeVCtl f.ctl + n) := by
  have h0 := f.vd.isLt
  have h1 := f.va.isLt
  have h2 := f.sb.isLt
  have h3 := f.fn.isLt
  have h4 := f.imm.isLt
  refine ⟨_, ?_, rfl, ?_⟩
  · omega
  · simp only [encodeVS, Nat.add_assoc]

theorem decodeVS_encode (op : Nat) (f : VS) (h : op < 256) : decodeVS (encodeVS op f) = f := by
  obtain ⟨n, hn, en, ew⟩ := encodeVS_eq op f
  obtain ⟨hb, hc⟩ := encodeVCtl_bounds f.ctl
  have hlt : op * 2 ^ 56 + encodeVCtl f.ctl + n < 2 ^ 64 := by omega
  rw [ew]
  unfold decodeVS
  rw [decodeVCtl_encode op f.ctl n h hn]
  simp only [field_ofNat _ _ _ hlt]
  have h0 := f.vd.isLt
  have h1 := f.va.isLt
  have h2 := f.sb.isLt
  have h3 := f.fn.isLt
  have h4 := f.imm.isLt
  rcases f with ⟨ctl, vd, va, sb, fn, imm⟩
  simp only at hb hc hn en h0 h1 h2 h3 h4

  simp only [VS.mk.injEq, true_and, BitVec.toNat_eq, BitVec.toNat_ofNat]
  refine ⟨by omega, by omega, by omega, by omega, by omega⟩

theorem opcode_encodeVS (op : Nat) (f : VS) (h : op < 256) : opcode (encodeVS op f) = op := by
  obtain ⟨n, hn, -, ew⟩ := encodeVS_eq op f
  obtain ⟨hb, hc⟩ := encodeVCtl_bounds f.ctl
  rw [ew, Nat.add_assoc]
  exact opcode_ofNat op _ h (by omega)

/-! ### Format VM -/

/-- An encoded word in the shape of the lemmas above. -/
theorem encodeVM_eq (op : Nat) (f : VM) :
    ∃ n, n < 2 ^ 39 ∧ n = f.vd.toNat * 2 ^ 33 + f.base.toNat * 2 ^ 27 + f.sx.toNat * 2 ^ 21 + f.off.toNat * 2 ^ 5 + f.mode.toNat ∧ encodeVM op f = BitVec.ofNat 64 (op * 2 ^ 56 + encodeVCtl f.ctl + n) := by
  have h0 := f.vd.isLt
  have h1 := f.base.isLt
  have h2 := f.sx.isLt
  have h3 := f.off.isLt
  have h4 := f.mode.isLt
  refine ⟨_, ?_, rfl, ?_⟩
  · omega
  · simp only [encodeVM, Nat.add_assoc]

theorem decodeVM_encode (op : Nat) (f : VM) (h : op < 256) : decodeVM (encodeVM op f) = f := by
  obtain ⟨n, hn, en, ew⟩ := encodeVM_eq op f
  obtain ⟨hb, hc⟩ := encodeVCtl_bounds f.ctl
  have hlt : op * 2 ^ 56 + encodeVCtl f.ctl + n < 2 ^ 64 := by omega
  rw [ew]
  unfold decodeVM
  rw [decodeVCtl_encode op f.ctl n h hn]
  simp only [field_ofNat _ _ _ hlt]
  have h0 := f.vd.isLt
  have h1 := f.base.isLt
  have h2 := f.sx.isLt
  have h3 := f.off.isLt
  have h4 := f.mode.isLt
  rcases f with ⟨ctl, vd, base, sx, off, mode⟩
  simp only at hb hc hn en h0 h1 h2 h3 h4

  simp only [VM.mk.injEq, true_and, BitVec.toNat_eq, BitVec.toNat_ofNat]
  refine ⟨by omega, by omega, by omega, by omega, by omega⟩

theorem opcode_encodeVM (op : Nat) (f : VM) (h : op < 256) : opcode (encodeVM op f) = op := by
  obtain ⟨n, hn, -, ew⟩ := encodeVM_eq op f
  obtain ⟨hb, hc⟩ := encodeVCtl_bounds f.ctl
  rw [ew, Nat.add_assoc]
  exact opcode_ofNat op _ h (by omega)

/-! ### Format K -/

/-- An encoded word in the shape of the lemmas above. -/
theorem encodeFK_eq (op : Nat) (f : FK) :
    ∃ n, n < 2 ^ 39 ∧ n = f.kd.toNat * 2 ^ 35 + f.ka.toNat * 2 ^ 31 + f.kb.toNat * 2 ^ 27 + f.fn.toNat * 2 ^ 19 + f.sd.toNat * 2 ^ 13 + f.off.toNat ∧ encodeFK op f = BitVec.ofNat 64 (op * 2 ^ 56 + encodeSCtl f.ctl + n) := by
  have h0 := f.kd.isLt
  have h1 := f.ka.isLt
  have h2 := f.kb.isLt
  have h3 := f.fn.isLt
  have h4 := f.sd.isLt
  have h5 := f.off.isLt
  refine ⟨_, ?_, rfl, ?_⟩
  · omega
  · simp only [encodeFK, Nat.add_assoc]

theorem decodeFK_encode (op : Nat) (f : FK) (h : op < 256) : decodeFK (encodeFK op f) = f := by
  obtain ⟨n, hn, en, ew⟩ := encodeFK_eq op f
  obtain ⟨hb, hc⟩ := encodeSCtl_bounds f.ctl
  have hlt : op * 2 ^ 56 + encodeSCtl f.ctl + n < 2 ^ 64 := by omega
  rw [ew]
  unfold decodeFK
  rw [decodeSCtl_encode op f.ctl n h hn]
  simp only [field_ofNat _ _ _ hlt]
  have h0 := f.kd.isLt
  have h1 := f.ka.isLt
  have h2 := f.kb.isLt
  have h3 := f.fn.isLt
  have h4 := f.sd.isLt
  have h5 := f.off.isLt
  rcases f with ⟨ctl, kd, ka, kb, fn, sd, off⟩
  simp only at hb hc hn en h0 h1 h2 h3 h4 h5

  simp only [FK.mk.injEq, true_and, BitVec.toNat_eq, BitVec.toNat_ofNat]
  refine ⟨by omega, by omega, by omega, by omega, by omega, by omega⟩

theorem opcode_encodeFK (op : Nat) (f : FK) (h : op < 256) : opcode (encodeFK op f) = op := by
  obtain ⟨n, hn, -, ew⟩ := encodeFK_eq op f
  obtain ⟨hb, hc⟩ := encodeSCtl_bounds f.ctl
  rw [ew, Nat.add_assoc]
  exact opcode_ofNat op _ h (by omega)

theorem scalarWord_encodeFK (op : Nat) (f : FK) (i : Instr) (h : op < 256) :
    scalarWord 0 (encodeFK op f) i = .ok i := by
  obtain ⟨n, hn, en, ew⟩ := encodeFK_eq op f
  rw [ew]
  exact scalarWord_ok 0 op f.ctl n i h hn (by omega) (by decide)

/-! ### Format X -/

/-- An encoded word in the shape of the lemmas above. -/
theorem encodeFX_eq (op : Nat) (f : FX) :
    ∃ n, n < 2 ^ 39 ∧ n = f.tile.toNat * 2 ^ 35 + f.sa.toNat * 2 ^ 29 + f.sb.toNat * 2 ^ 23 + f.sc.toNat * 2 ^ 17 + f.sd.toNat * 2 ^ 11 + f.ty.toNat * 2 ^ 6 + f.mode.toNat ∧ encodeFX op f = BitVec.ofNat 64 (op * 2 ^ 56 + encodeSCtl f.ctl + n) := by
  have h0 := f.tile.isLt
  have h1 := f.sa.isLt
  have h2 := f.sb.isLt
  have h3 := f.sc.isLt
  have h4 := f.sd.isLt
  have h5 := f.ty.isLt
  have h6 := f.mode.isLt
  refine ⟨_, ?_, rfl, ?_⟩
  · omega
  · simp only [encodeFX, Nat.add_assoc]

theorem decodeFX_encode (op : Nat) (f : FX) (h : op < 256) : decodeFX (encodeFX op f) = f := by
  obtain ⟨n, hn, en, ew⟩ := encodeFX_eq op f
  obtain ⟨hb, hc⟩ := encodeSCtl_bounds f.ctl
  have hlt : op * 2 ^ 56 + encodeSCtl f.ctl + n < 2 ^ 64 := by omega
  rw [ew]
  unfold decodeFX
  rw [decodeSCtl_encode op f.ctl n h hn]
  simp only [field_ofNat _ _ _ hlt]
  have h0 := f.tile.isLt
  have h1 := f.sa.isLt
  have h2 := f.sb.isLt
  have h3 := f.sc.isLt
  have h4 := f.sd.isLt
  have h5 := f.ty.isLt
  have h6 := f.mode.isLt
  rcases f with ⟨ctl, tile, sa, sb, sc, sd, ty, mode⟩
  simp only at hb hc hn en h0 h1 h2 h3 h4 h5 h6

  simp only [FX.mk.injEq, true_and, BitVec.toNat_eq, BitVec.toNat_ofNat]
  refine ⟨by omega, by omega, by omega, by omega, by omega, by omega, by omega⟩

theorem opcode_encodeFX (op : Nat) (f : FX) (h : op < 256) : opcode (encodeFX op f) = op := by
  obtain ⟨n, hn, -, ew⟩ := encodeFX_eq op f
  obtain ⟨hb, hc⟩ := encodeSCtl_bounds f.ctl
  rw [ew, Nat.add_assoc]
  exact opcode_ofNat op _ h (by omega)

theorem scalarWord_encodeFX (op : Nat) (f : FX) (i : Instr) (h : op < 256) :
    scalarWord 0 (encodeFX op f) i = .ok i := by
  obtain ⟨n, hn, en, ew⟩ := encodeFX_eq op f
  rw [ew]
  exact scalarWord_ok 0 op f.ctl n i h hn (by omega) (by decide)

/-! ### Format Y -/

/-- An encoded word in the shape of the lemmas above. -/
theorem encodeFY_eq (op : Nat) (f : FY) :
    ∃ n, n < 2 ^ 39 ∧ n = f.dst.toNat * 2 ^ 33 + f.sa.toNat * 2 ^ 27 + f.sb.toNat * 2 ^ 21 + f.imm.toNat ∧ encodeFY op f = BitVec.ofNat 64 (op * 2 ^ 56 + encodeSCtl f.ctl + n) := by
  have h0 := f.dst.isLt
  have h1 := f.sa.isLt
  have h2 := f.sb.isLt
  have h3 := f.imm.isLt
  refine ⟨_, ?_, rfl, ?_⟩
  · omega
  · simp only [encodeFY, Nat.add_assoc]

theorem decodeFY_encode (op : Nat) (f : FY) (h : op < 256) : decodeFY (encodeFY op f) = f := by
  obtain ⟨n, hn, en, ew⟩ := encodeFY_eq op f
  obtain ⟨hb, hc⟩ := encodeSCtl_bounds f.ctl
  have hlt : op * 2 ^ 56 + encodeSCtl f.ctl + n < 2 ^ 64 := by omega
  rw [ew]
  unfold decodeFY
  rw [decodeSCtl_encode op f.ctl n h hn]
  simp only [field_ofNat _ _ _ hlt]
  have h0 := f.dst.isLt
  have h1 := f.sa.isLt
  have h2 := f.sb.isLt
  have h3 := f.imm.isLt
  rcases f with ⟨ctl, dst, sa, sb, imm⟩
  simp only at hb hc hn en h0 h1 h2 h3

  simp only [FY.mk.injEq, true_and, BitVec.toNat_eq, BitVec.toNat_ofNat]
  refine ⟨by omega, by omega, by omega, by omega⟩

theorem opcode_encodeFY (op : Nat) (f : FY) (h : op < 256) : opcode (encodeFY op f) = op := by
  obtain ⟨n, hn, -, ew⟩ := encodeFY_eq op f
  obtain ⟨hb, hc⟩ := encodeSCtl_bounds f.ctl
  rw [ew, Nat.add_assoc]
  exact opcode_ofNat op _ h (by omega)

theorem scalarWord_encodeFY (op : Nat) (f : FY) (i : Instr) (h : op < 256) :
    scalarWord 0 (encodeFY op f) i = .ok i := by
  obtain ⟨n, hn, en, ew⟩ := encodeFY_eq op f
  rw [ew]
  exact scalarWord_ok 0 op f.ctl n i h hn (by omega) (by decide)

end Sys2Proof
end

