-- ==== Sys2Proof/Laws/State.lean ====
section
/-! SUPPORT. What each update of the state leaves alone, field by field, and how cores, contexts and dies read after an
update. -/
namespace Sys2Proof.Machine
open Sys2Proof

/-! ### Replacing a core -/

@[simp] theorem State.agenda_setCore (s : State) (c : CoreId) (k : Core) : (s.setCore c k).agenda = s.agenda := rfl
@[simp] theorem State.focus_setCore (s : State) (c : CoreId) (k : Core) : (s.setCore c k).focus = s.focus := rfl
@[simp] theorem State.cur_setCore (s : State) (c : CoreId) (k : Core) : (s.setCore c k).cur = s.cur := rfl
@[simp] theorem State.cycle_setCore (s : State) (c : CoreId) (k : Core) : (s.setCore c k).cycle = s.cycle := rfl
@[simp] theorem State.tick_setCore (s : State) (c : CoreId) (k : Core) : (s.setCore c k).tick = s.tick := rfl
@[simp] theorem State.time_setCore (s : State) (c : CoreId) (k : Core) : (s.setCore c k).time = s.time := rfl
@[simp] theorem State.timeFrac_setCore (s : State) (c : CoreId) (k : Core) : (s.setCore c k).timeFrac = s.timeFrac := rfl
@[simp] theorem State.freeCtr_setCore (s : State) (c : CoreId) (k : Core) : (s.setCore c k).freeCtr = s.freeCtr := rfl
@[simp] theorem State.dies_setCore (s : State) (c : CoreId) (k : Core) : (s.setCore c k).dies = s.dies := rfl
@[simp] theorem State.mem_setCore (s : State) (c : CoreId) (k : Core) : (s.setCore c k).mem = s.mem := rfl
@[simp] theorem State.lmem_setCore (s : State) (c : CoreId) (k : Core) : (s.setCore c k).lmem = s.lmem := rfl
@[simp] theorem State.hob_setCore (s : State) (c : CoreId) (k : Core) : (s.setCore c k).hob = s.hob := rfl
@[simp] theorem State.bad_setCore (s : State) (c : CoreId) (k : Core) : (s.setCore c k).bad = s.bad := rfl
@[simp] theorem State.weak_setCore (s : State) (c : CoreId) (k : Core) : (s.setCore c k).weak = s.weak := rfl
@[simp] theorem State.posted_setCore (s : State) (c : CoreId) (k : Core) : (s.setCore c k).posted = s.posted := rfl
@[simp] theorem State.rewritten_setCore (s : State) (c : CoreId) (k : Core) : (s.setCore c k).rewritten = s.rewritten := rfl
@[simp] theorem State.inputMv_setCore (s : State) (c : CoreId) (k : Core) : (s.setCore c k).inputMv = s.inputMv := rfl
@[simp] theorem State.owners_setCore (s : State) (c : CoreId) (k : Core) : (s.setCore c k).owners = s.owners := rfl
@[simp] theorem State.flue_setCore (s : State) (c : CoreId) (k : Core) : (s.setCore c k).flue = s.flue := rfl
@[simp] theorem State.rings_setCore (s : State) (c : CoreId) (k : Core) : (s.setCore c k).rings = s.rings := rfl
@[simp] theorem State.bregs_setCore (s : State) (c : CoreId) (k : Core) : (s.setCore c k).bregs = s.bregs := rfl
@[simp] theorem State.launches_setCore (s : State) (c : CoreId) (k : Core) : (s.setCore c k).launches = s.launches := rfl
@[simp] theorem State.nextArrival_setCore (s : State) (c : CoreId) (k : Core) : (s.setCore c k).nextArrival = s.nextArrival := rfl
@[simp] theorem State.pool_setCore (s : State) (c : CoreId) (k : Core) : (s.setCore c k).pool = s.pool := rfl
@[simp] theorem State.occupancy_setCore (s : State) (c : CoreId) (k : Core) : (s.setCore c k).occupancy = s.occupancy := rfl
@[simp] theorem State.linkUp_setCore (s : State) (c : CoreId) (k : Core) : (s.setCore c k).linkUp = s.linkUp := rfl
@[simp] theorem State.cxl_setCore (s : State) (c : CoreId) (k : Core) : (s.setCore c k).cxl = s.cxl := rfl
@[simp] theorem State.heldWrites_setCore (s : State) (c : CoreId) (k : Core) : (s.setCore c k).heldWrites = s.heldWrites := rfl
@[simp] theorem State.hostReads_setCore (s : State) (c : CoreId) (k : Core) : (s.setCore c k).hostReads = s.hostReads := rfl
@[simp] theorem State.boot_setCore (s : State) (c : CoreId) (k : Core) : (s.setCore c k).boot = s.boot := rfl
@[simp] theorem State.txFrames_setCore (s : State) (c : CoreId) (k : Core) : (s.setCore c k).txFrames = s.txFrames := rfl
@[simp] theorem State.rxSeq_setCore (s : State) (c : CoreId) (k : Core) : (s.setCore c k).rxSeq = s.rxSeq := rfl
@[simp] theorem State.txSeq_setCore (s : State) (c : CoreId) (k : Core) : (s.setCore c k).txSeq = s.txSeq := rfl
@[simp] theorem State.notes_setCore (s : State) (c : CoreId) (k : Core) : (s.setCore c k).notes = s.notes := rfl
@[simp] theorem State.power_setCore (s : State) (c : CoreId) (k : Core) : (s.setCore c k).power = s.power := rfl
@[simp] theorem State.clockMhz_setCore (s : State) (c : CoreId) (k : Core) : (s.setCore c k).clockMhz = s.clockMhz := rfl

/-! ### Changing a core -/

@[simp] theorem State.agenda_modCore (s : State) (c : CoreId) (f : Core → Core) : (s.modCore c f).agenda = s.agenda := rfl
@[simp] theorem State.focus_modCore (s : State) (c : CoreId) (f : Core → Core) : (s.modCore c f).focus = s.focus := rfl
@[simp] theorem State.cur_modCore (s : State) (c : CoreId) (f : Core → Core) : (s.modCore c f).cur = s.cur := rfl
@[simp] theorem State.cycle_modCore (s : State) (c : CoreId) (f : Core → Core) : (s.modCore c f).cycle = s.cycle := rfl
@[simp] theorem State.tick_modCore (s : State) (c : CoreId) (f : Core → Core) : (s.modCore c f).tick = s.tick := rfl
@[simp] theorem State.time_modCore (s : State) (c : CoreId) (f : Core → Core) : (s.modCore c f).time = s.time := rfl
@[simp] theorem State.timeFrac_modCore (s : State) (c : CoreId) (f : Core → Core) : (s.modCore c f).timeFrac = s.timeFrac := rfl
@[simp] theorem State.freeCtr_modCore (s : State) (c : CoreId) (f : Core → Core) : (s.modCore c f).freeCtr = s.freeCtr := rfl
@[simp] theorem State.dies_modCore (s : State) (c : CoreId) (f : Core → Core) : (s.modCore c f).dies = s.dies := rfl
@[simp] theorem State.mem_modCore (s : State) (c : CoreId) (f : Core → Core) : (s.modCore c f).mem = s.mem := rfl
@[simp] theorem State.lmem_modCore (s : State) (c : CoreId) (f : Core → Core) : (s.modCore c f).lmem = s.lmem := rfl
@[simp] theorem State.hob_modCore (s : State) (c : CoreId) (f : Core → Core) : (s.modCore c f).hob = s.hob := rfl
@[simp] theorem State.bad_modCore (s : State) (c : CoreId) (f : Core → Core) : (s.modCore c f).bad = s.bad := rfl
@[simp] theorem State.weak_modCore (s : State) (c : CoreId) (f : Core → Core) : (s.modCore c f).weak = s.weak := rfl
@[simp] theorem State.posted_modCore (s : State) (c : CoreId) (f : Core → Core) : (s.modCore c f).posted = s.posted := rfl
@[simp] theorem State.rewritten_modCore (s : State) (c : CoreId) (f : Core → Core) : (s.modCore c f).rewritten = s.rewritten := rfl
@[simp] theorem State.inputMv_modCore (s : State) (c : CoreId) (f : Core → Core) : (s.modCore c f).inputMv = s.inputMv := rfl
@[simp] theorem State.owners_modCore (s : State) (c : CoreId) (f : Core → Core) : (s.modCore c f).owners = s.owners := rfl
@[simp] theorem State.flue_modCore (s : State) (c : CoreId) (f : Core → Core) : (s.modCore c f).flue = s.flue := rfl
@[simp] theorem State.rings_modCore (s : State) (c : CoreId) (f : Core → Core) : (s.modCore c f).rings = s.rings := rfl
@[simp] theorem State.bregs_modCore (s : State) (c : CoreId) (f : Core → Core) : (s.modCore c f).bregs = s.bregs := rfl
@[simp] theorem State.launches_modCore (s : State) (c : CoreId) (f : Core → Core) : (s.modCore c f).launches = s.launches := rfl
@[simp] theorem State.nextArrival_modCore (s : State) (c : CoreId) (f : Core → Core) : (s.modCore c f).nextArrival = s.nextArrival := rfl
@[simp] theorem State.pool_modCore (s : State) (c : CoreId) (f : Core → Core) : (s.modCore c f).pool = s.pool := rfl
@[simp] theorem State.occupancy_modCore (s : State) (c : CoreId) (f : Core → Core) : (s.modCore c f).occupancy = s.occupancy := rfl
@[simp] theorem State.linkUp_modCore (s : State) (c : CoreId) (f : Core → Core) : (s.modCore c f).linkUp = s.linkUp := rfl
@[simp] theorem State.cxl_modCore (s : State) (c : CoreId) (f : Core → Core) : (s.modCore c f).cxl = s.cxl := rfl
@[simp] theorem State.heldWrites_modCore (s : State) (c : CoreId) (f : Core → Core) : (s.modCore c f).heldWrites = s.heldWrites := rfl
@[simp] theorem State.hostReads_modCore (s : State) (c : CoreId) (f : Core → Core) : (s.modCore c f).hostReads = s.hostReads := rfl
@[simp] theorem State.boot_modCore (s : State) (c : CoreId) (f : Core → Core) : (s.modCore c f).boot = s.boot := rfl
@[simp] theorem State.txFrames_modCore (s : State) (c : CoreId) (f : Core → Core) : (s.modCore c f).txFrames = s.txFrames := rfl
@[simp] theorem State.rxSeq_modCore (s : State) (c : CoreId) (f : Core → Core) : (s.modCore c f).rxSeq = s.rxSeq := rfl
@[simp] theorem State.txSeq_modCore (s : State) (c : CoreId) (f : Core → Core) : (s.modCore c f).txSeq = s.txSeq := rfl
@[simp] theorem State.notes_modCore (s : State) (c : CoreId) (f : Core → Core) : (s.modCore c f).notes = s.notes := rfl
@[simp] theorem State.power_modCore (s : State) (c : CoreId) (f : Core → Core) : (s.modCore c f).power = s.power := rfl
@[simp] theorem State.clockMhz_modCore (s : State) (c : CoreId) (f : Core → Core) : (s.modCore c f).clockMhz = s.clockMhz := rfl

/-! ### Changing a context -/

@[simp] theorem State.agenda_modCtxAt (s : State) (c : CoreId) (x : CtxId) (f : Ctx → Ctx) : (s.modCtxAt c x f).agenda = s.agenda := rfl
@[simp] theorem State.focus_modCtxAt (s : State) (c : CoreId) (x : CtxId) (f : Ctx → Ctx) : (s.modCtxAt c x f).focus = s.focus := rfl
@[simp] theorem State.cur_modCtxAt (s : State) (c : CoreId) (x : CtxId) (f : Ctx → Ctx) : (s.modCtxAt c x f).cur = s.cur := rfl
@[simp] theorem State.cycle_modCtxAt (s : State) (c : CoreId) (x : CtxId) (f : Ctx → Ctx) : (s.modCtxAt c x f).cycle = s.cycle := rfl
@[simp] theorem State.tick_modCtxAt (s : State) (c : CoreId) (x : CtxId) (f : Ctx → Ctx) : (s.modCtxAt c x f).tick = s.tick := rfl
@[simp] theorem State.time_modCtxAt (s : State) (c : CoreId) (x : CtxId) (f : Ctx → Ctx) : (s.modCtxAt c x f).time = s.time := rfl
@[simp] theorem State.timeFrac_modCtxAt (s : State) (c : CoreId) (x : CtxId) (f : Ctx → Ctx) : (s.modCtxAt c x f).timeFrac = s.timeFrac := rfl
@[simp] theorem State.freeCtr_modCtxAt (s : State) (c : CoreId) (x : CtxId) (f : Ctx → Ctx) : (s.modCtxAt c x f).freeCtr = s.freeCtr := rfl
@[simp] theorem State.dies_modCtxAt (s : State) (c : CoreId) (x : CtxId) (f : Ctx → Ctx) : (s.modCtxAt c x f).dies = s.dies := rfl
@[simp] theorem State.mem_modCtxAt (s : State) (c : CoreId) (x : CtxId) (f : Ctx → Ctx) : (s.modCtxAt c x f).mem = s.mem := rfl
@[simp] theorem State.lmem_modCtxAt (s : State) (c : CoreId) (x : CtxId) (f : Ctx → Ctx) : (s.modCtxAt c x f).lmem = s.lmem := rfl
@[simp] theorem State.hob_modCtxAt (s : State) (c : CoreId) (x : CtxId) (f : Ctx → Ctx) : (s.modCtxAt c x f).hob = s.hob := rfl
@[simp] theorem State.bad_modCtxAt (s : State) (c : CoreId) (x : CtxId) (f : Ctx → Ctx) : (s.modCtxAt c x f).bad = s.bad := rfl
@[simp] theorem State.weak_modCtxAt (s : State) (c : CoreId) (x : CtxId) (f : Ctx → Ctx) : (s.modCtxAt c x f).weak = s.weak := rfl
@[simp] theorem State.posted_modCtxAt (s : State) (c : CoreId) (x : CtxId) (f : Ctx → Ctx) : (s.modCtxAt c x f).posted = s.posted := rfl
@[simp] theorem State.rewritten_modCtxAt (s : State) (c : CoreId) (x : CtxId) (f : Ctx → Ctx) : (s.modCtxAt c x f).rewritten = s.rewritten := rfl
@[simp] theorem State.inputMv_modCtxAt (s : State) (c : CoreId) (x : CtxId) (f : Ctx → Ctx) : (s.modCtxAt c x f).inputMv = s.inputMv := rfl
@[simp] theorem State.owners_modCtxAt (s : State) (c : CoreId) (x : CtxId) (f : Ctx → Ctx) : (s.modCtxAt c x f).owners = s.owners := rfl
@[simp] theorem State.flue_modCtxAt (s : State) (c : CoreId) (x : CtxId) (f : Ctx → Ctx) : (s.modCtxAt c x f).flue = s.flue := rfl
@[simp] theorem State.rings_modCtxAt (s : State) (c : CoreId) (x : CtxId) (f : Ctx → Ctx) : (s.modCtxAt c x f).rings = s.rings := rfl
@[simp] theorem State.bregs_modCtxAt (s : State) (c : CoreId) (x : CtxId) (f : Ctx → Ctx) : (s.modCtxAt c x f).bregs = s.bregs := rfl
@[simp] theorem State.launches_modCtxAt (s : State) (c : CoreId) (x : CtxId) (f : Ctx → Ctx) : (s.modCtxAt c x f).launches = s.launches := rfl
@[simp] theorem State.nextArrival_modCtxAt (s : State) (c : CoreId) (x : CtxId) (f : Ctx → Ctx) : (s.modCtxAt c x f).nextArrival = s.nextArrival := rfl
@[simp] theorem State.pool_modCtxAt (s : State) (c : CoreId) (x : CtxId) (f : Ctx → Ctx) : (s.modCtxAt c x f).pool = s.pool := rfl
@[simp] theorem State.occupancy_modCtxAt (s : State) (c : CoreId) (x : CtxId) (f : Ctx → Ctx) : (s.modCtxAt c x f).occupancy = s.occupancy := rfl
@[simp] theorem State.linkUp_modCtxAt (s : State) (c : CoreId) (x : CtxId) (f : Ctx → Ctx) : (s.modCtxAt c x f).linkUp = s.linkUp := rfl
@[simp] theorem State.cxl_modCtxAt (s : State) (c : CoreId) (x : CtxId) (f : Ctx → Ctx) : (s.modCtxAt c x f).cxl = s.cxl := rfl
@[simp] theorem State.heldWrites_modCtxAt (s : State) (c : CoreId) (x : CtxId) (f : Ctx → Ctx) : (s.modCtxAt c x f).heldWrites = s.heldWrites := rfl
@[simp] theorem State.hostReads_modCtxAt (s : State) (c : CoreId) (x : CtxId) (f : Ctx → Ctx) : (s.modCtxAt c x f).hostReads = s.hostReads := rfl
@[simp] theorem State.boot_modCtxAt (s : State) (c : CoreId) (x : CtxId) (f : Ctx → Ctx) : (s.modCtxAt c x f).boot = s.boot := rfl
@[simp] theorem State.txFrames_modCtxAt (s : State) (c : CoreId) (x : CtxId) (f : Ctx → Ctx) : (s.modCtxAt c x f).txFrames = s.txFrames := rfl
@[simp] theorem State.rxSeq_modCtxAt (s : State) (c : CoreId) (x : CtxId) (f : Ctx → Ctx) : (s.modCtxAt c x f).rxSeq = s.rxSeq := rfl
@[simp] theorem State.txSeq_modCtxAt (s : State) (c : CoreId) (x : CtxId) (f : Ctx → Ctx) : (s.modCtxAt c x f).txSeq = s.txSeq := rfl
@[simp] theorem State.notes_modCtxAt (s : State) (c : CoreId) (x : CtxId) (f : Ctx → Ctx) : (s.modCtxAt c x f).notes = s.notes := rfl
@[simp] theorem State.power_modCtxAt (s : State) (c : CoreId) (x : CtxId) (f : Ctx → Ctx) : (s.modCtxAt c x f).power = s.power := rfl
@[simp] theorem State.clockMhz_modCtxAt (s : State) (c : CoreId) (x : CtxId) (f : Ctx → Ctx) : (s.modCtxAt c x f).clockMhz = s.clockMhz := rfl

/-! ### Changing the executing context -/

@[simp] theorem State.agenda_modCtx (s : State) (f : Ctx → Ctx) : (s.modCtx f).agenda = s.agenda := rfl
@[simp] theorem State.focus_modCtx (s : State) (f : Ctx → Ctx) : (s.modCtx f).focus = s.focus := rfl
@[simp] theorem State.cur_modCtx (s : State) (f : Ctx → Ctx) : (s.modCtx f).cur = s.cur := rfl
@[simp] theorem State.cycle_modCtx (s : State) (f : Ctx → Ctx) : (s.modCtx f).cycle = s.cycle := rfl
@[simp] theorem State.tick_modCtx (s : State) (f : Ctx → Ctx) : (s.modCtx f).tick = s.tick := rfl
@[simp] theorem State.time_modCtx (s : State) (f : Ctx → Ctx) : (s.modCtx f).time = s.time := rfl
@[simp] theorem State.timeFrac_modCtx (s : State) (f : Ctx → Ctx) : (s.modCtx f).timeFrac = s.timeFrac := rfl
@[simp] theorem State.freeCtr_modCtx (s : State) (f : Ctx → Ctx) : (s.modCtx f).freeCtr = s.freeCtr := rfl
@[simp] theorem State.dies_modCtx (s : State) (f : Ctx → Ctx) : (s.modCtx f).dies = s.dies := rfl
@[simp] theorem State.mem_modCtx (s : State) (f : Ctx → Ctx) : (s.modCtx f).mem = s.mem := rfl
@[simp] theorem State.lmem_modCtx (s : State) (f : Ctx → Ctx) : (s.modCtx f).lmem = s.lmem := rfl
@[simp] theorem State.hob_modCtx (s : State) (f : Ctx → Ctx) : (s.modCtx f).hob = s.hob := rfl
@[simp] theorem State.bad_modCtx (s : State) (f : Ctx → Ctx) : (s.modCtx f).bad = s.bad := rfl
@[simp] theorem State.weak_modCtx (s : State) (f : Ctx → Ctx) : (s.modCtx f).weak = s.weak := rfl
@[simp] theorem State.posted_modCtx (s : State) (f : Ctx → Ctx) : (s.modCtx f).posted = s.posted := rfl
@[simp] theorem State.rewritten_modCtx (s : State) (f : Ctx → Ctx) : (s.modCtx f).rewritten = s.rewritten := rfl
@[simp] theorem State.inputMv_modCtx (s : State) (f : Ctx → Ctx) : (s.modCtx f).inputMv = s.inputMv := rfl
@[simp] theorem State.owners_modCtx (s : State) (f : Ctx → Ctx) : (s.modCtx f).owners = s.owners := rfl
@[simp] theorem State.flue_modCtx (s : State) (f : Ctx → Ctx) : (s.modCtx f).flue = s.flue := rfl
@[simp] theorem State.rings_modCtx (s : State) (f : Ctx → Ctx) : (s.modCtx f).rings = s.rings := rfl
@[simp] theorem State.bregs_modCtx (s : State) (f : Ctx → Ctx) : (s.modCtx f).bregs = s.bregs := rfl
@[simp] theorem State.launches_modCtx (s : State) (f : Ctx → Ctx) : (s.modCtx f).launches = s.launches := rfl
@[simp] theorem State.nextArrival_modCtx (s : State) (f : Ctx → Ctx) : (s.modCtx f).nextArrival = s.nextArrival := rfl
@[simp] theorem State.pool_modCtx (s : State) (f : Ctx → Ctx) : (s.modCtx f).pool = s.pool := rfl
@[simp] theorem State.occupancy_modCtx (s : State) (f : Ctx → Ctx) : (s.modCtx f).occupancy = s.occupancy := rfl
@[simp] theorem State.linkUp_modCtx (s : State) (f : Ctx → Ctx) : (s.modCtx f).linkUp = s.linkUp := rfl
@[simp] theorem State.cxl_modCtx (s : State) (f : Ctx → Ctx) : (s.modCtx f).cxl = s.cxl := rfl
@[simp] theorem State.heldWrites_modCtx (s : State) (f : Ctx → Ctx) : (s.modCtx f).heldWrites = s.heldWrites := rfl
@[simp] theorem State.hostReads_modCtx (s : State) (f : Ctx → Ctx) : (s.modCtx f).hostReads = s.hostReads := rfl
@[simp] theorem State.boot_modCtx (s : State) (f : Ctx → Ctx) : (s.modCtx f).boot = s.boot := rfl
@[simp] theorem State.txFrames_modCtx (s : State) (f : Ctx → Ctx) : (s.modCtx f).txFrames = s.txFrames := rfl
@[simp] theorem State.rxSeq_modCtx (s : State) (f : Ctx → Ctx) : (s.modCtx f).rxSeq = s.rxSeq := rfl
@[simp] theorem State.txSeq_modCtx (s : State) (f : Ctx → Ctx) : (s.modCtx f).txSeq = s.txSeq := rfl
@[simp] theorem State.notes_modCtx (s : State) (f : Ctx → Ctx) : (s.modCtx f).notes = s.notes := rfl
@[simp] theorem State.power_modCtx (s : State) (f : Ctx → Ctx) : (s.modCtx f).power = s.power := rfl
@[simp] theorem State.clockMhz_modCtx (s : State) (f : Ctx → Ctx) : (s.modCtx f).clockMhz = s.clockMhz := rfl

/-! ### Changing a die -/

@[simp] theorem State.agenda_modDie (s : State) (d : DieId) (f : Die → Die) : (s.modDie d f).agenda = s.agenda := rfl
@[simp] theorem State.focus_modDie (s : State) (d : DieId) (f : Die → Die) : (s.modDie d f).focus = s.focus := rfl
@[simp] theorem State.cur_modDie (s : State) (d : DieId) (f : Die → Die) : (s.modDie d f).cur = s.cur := rfl
@[simp] theorem State.cycle_modDie (s : State) (d : DieId) (f : Die → Die) : (s.modDie d f).cycle = s.cycle := rfl
@[simp] theorem State.tick_modDie (s : State) (d : DieId) (f : Die → Die) : (s.modDie d f).tick = s.tick := rfl
@[simp] theorem State.time_modDie (s : State) (d : DieId) (f : Die → Die) : (s.modDie d f).time = s.time := rfl
@[simp] theorem State.timeFrac_modDie (s : State) (d : DieId) (f : Die → Die) : (s.modDie d f).timeFrac = s.timeFrac := rfl
@[simp] theorem State.freeCtr_modDie (s : State) (d : DieId) (f : Die → Die) : (s.modDie d f).freeCtr = s.freeCtr := rfl
@[simp] theorem State.cores_modDie (s : State) (d : DieId) (f : Die → Die) : (s.modDie d f).cores = s.cores := rfl
@[simp] theorem State.mem_modDie (s : State) (d : DieId) (f : Die → Die) : (s.modDie d f).mem = s.mem := rfl
@[simp] theorem State.lmem_modDie (s : State) (d : DieId) (f : Die → Die) : (s.modDie d f).lmem = s.lmem := rfl
@[simp] theorem State.hob_modDie (s : State) (d : DieId) (f : Die → Die) : (s.modDie d f).hob = s.hob := rfl
@[simp] theorem State.bad_modDie (s : State) (d : DieId) (f : Die → Die) : (s.modDie d f).bad = s.bad := rfl
@[simp] theorem State.weak_modDie (s : State) (d : DieId) (f : Die → Die) : (s.modDie d f).weak = s.weak := rfl
@[simp] theorem State.posted_modDie (s : State) (d : DieId) (f : Die → Die) : (s.modDie d f).posted = s.posted := rfl
@[simp] theorem State.rewritten_modDie (s : State) (d : DieId) (f : Die → Die) : (s.modDie d f).rewritten = s.rewritten := rfl
@[simp] theorem State.inputMv_modDie (s : State) (d : DieId) (f : Die → Die) : (s.modDie d f).inputMv = s.inputMv := rfl
@[simp] theorem State.owners_modDie (s : State) (d : DieId) (f : Die → Die) : (s.modDie d f).owners = s.owners := rfl
@[simp] theorem State.flue_modDie (s : State) (d : DieId) (f : Die → Die) : (s.modDie d f).flue = s.flue := rfl
@[simp] theorem State.rings_modDie (s : State) (d : DieId) (f : Die → Die) : (s.modDie d f).rings = s.rings := rfl
@[simp] theorem State.bregs_modDie (s : State) (d : DieId) (f : Die → Die) : (s.modDie d f).bregs = s.bregs := rfl
@[simp] theorem State.launches_modDie (s : State) (d : DieId) (f : Die → Die) : (s.modDie d f).launches = s.launches := rfl
@[simp] theorem State.nextArrival_modDie (s : State) (d : DieId) (f : Die → Die) : (s.modDie d f).nextArrival = s.nextArrival := rfl
@[simp] theorem State.pool_modDie (s : State) (d : DieId) (f : Die → Die) : (s.modDie d f).pool = s.pool := rfl
@[simp] theorem State.occupancy_modDie (s : State) (d : DieId) (f : Die → Die) : (s.modDie d f).occupancy = s.occupancy := rfl
@[simp] theorem State.linkUp_modDie (s : State) (d : DieId) (f : Die → Die) : (s.modDie d f).linkUp = s.linkUp := rfl
@[simp] theorem State.cxl_modDie (s : State) (d : DieId) (f : Die → Die) : (s.modDie d f).cxl = s.cxl := rfl
@[simp] theorem State.heldWrites_modDie (s : State) (d : DieId) (f : Die → Die) : (s.modDie d f).heldWrites = s.heldWrites := rfl
@[simp] theorem State.hostReads_modDie (s : State) (d : DieId) (f : Die → Die) : (s.modDie d f).hostReads = s.hostReads := rfl
@[simp] theorem State.boot_modDie (s : State) (d : DieId) (f : Die → Die) : (s.modDie d f).boot = s.boot := rfl
@[simp] theorem State.txFrames_modDie (s : State) (d : DieId) (f : Die → Die) : (s.modDie d f).txFrames = s.txFrames := rfl
@[simp] theorem State.rxSeq_modDie (s : State) (d : DieId) (f : Die → Die) : (s.modDie d f).rxSeq = s.rxSeq := rfl
@[simp] theorem State.txSeq_modDie (s : State) (d : DieId) (f : Die → Die) : (s.modDie d f).txSeq = s.txSeq := rfl
@[simp] theorem State.notes_modDie (s : State) (d : DieId) (f : Die → Die) : (s.modDie d f).notes = s.notes := rfl
@[simp] theorem State.power_modDie (s : State) (d : DieId) (f : Die → Die) : (s.modDie d f).power = s.power := rfl
@[simp] theorem State.clockMhz_modDie (s : State) (d : DieId) (f : Die → Die) : (s.modDie d f).clockMhz = s.clockMhz := rfl

/-! ### A physical write -/

@[simp] theorem State.agenda_physWrite (s : State) (pa n v : Nat) : (s.physWrite pa n v).agenda = s.agenda := rfl
@[simp] theorem State.focus_physWrite (s : State) (pa n v : Nat) : (s.physWrite pa n v).focus = s.focus := rfl
@[simp] theorem State.cur_physWrite (s : State) (pa n v : Nat) : (s.physWrite pa n v).cur = s.cur := rfl
@[simp] theorem State.cycle_physWrite (s : State) (pa n v : Nat) : (s.physWrite pa n v).cycle = s.cycle := rfl
@[simp] theorem State.tick_physWrite (s : State) (pa n v : Nat) : (s.physWrite pa n v).tick = s.tick := rfl
@[simp] theorem State.time_physWrite (s : State) (pa n v : Nat) : (s.physWrite pa n v).time = s.time := rfl
@[simp] theorem State.timeFrac_physWrite (s : State) (pa n v : Nat) : (s.physWrite pa n v).timeFrac = s.timeFrac := rfl
@[simp] theorem State.freeCtr_physWrite (s : State) (pa n v : Nat) : (s.physWrite pa n v).freeCtr = s.freeCtr := rfl
@[simp] theorem State.cores_physWrite (s : State) (pa n v : Nat) : (s.physWrite pa n v).cores = s.cores := rfl
@[simp] theorem State.dies_physWrite (s : State) (pa n v : Nat) : (s.physWrite pa n v).dies = s.dies := rfl
@[simp] theorem State.lmem_physWrite (s : State) (pa n v : Nat) : (s.physWrite pa n v).lmem = s.lmem := rfl
@[simp] theorem State.hob_physWrite (s : State) (pa n v : Nat) : (s.physWrite pa n v).hob = s.hob := rfl
@[simp] theorem State.bad_physWrite (s : State) (pa n v : Nat) : (s.physWrite pa n v).bad = s.bad := rfl
@[simp] theorem State.weak_physWrite (s : State) (pa n v : Nat) : (s.physWrite pa n v).weak = s.weak := rfl
@[simp] theorem State.posted_physWrite (s : State) (pa n v : Nat) : (s.physWrite pa n v).posted = s.posted := rfl
@[simp] theorem State.inputMv_physWrite (s : State) (pa n v : Nat) : (s.physWrite pa n v).inputMv = s.inputMv := rfl
@[simp] theorem State.owners_physWrite (s : State) (pa n v : Nat) : (s.physWrite pa n v).owners = s.owners := rfl
@[simp] theorem State.flue_physWrite (s : State) (pa n v : Nat) : (s.physWrite pa n v).flue = s.flue := rfl
@[simp] theorem State.rings_physWrite (s : State) (pa n v : Nat) : (s.physWrite pa n v).rings = s.rings := rfl
@[simp] theorem State.bregs_physWrite (s : State) (pa n v : Nat) : (s.physWrite pa n v).bregs = s.bregs := rfl
@[simp] theorem State.launches_physWrite (s : State) (pa n v : Nat) : (s.physWrite pa n v).launches = s.launches := rfl
@[simp] theorem State.nextArrival_physWrite (s : State) (pa n v : Nat) : (s.physWrite pa n v).nextArrival = s.nextArrival := rfl
@[simp] theorem State.pool_physWrite (s : State) (pa n v : Nat) : (s.physWrite pa n v).pool = s.pool := rfl
@[simp] theorem State.occupancy_physWrite (s : State) (pa n v : Nat) : (s.physWrite pa n v).occupancy = s.occupancy := rfl
@[simp] theorem State.linkUp_physWrite (s : State) (pa n v : Nat) : (s.physWrite pa n v).linkUp = s.linkUp := rfl
@[simp] theorem State.cxl_physWrite (s : State) (pa n v : Nat) : (s.physWrite pa n v).cxl = s.cxl := rfl
@[simp] theorem State.heldWrites_physWrite (s : State) (pa n v : Nat) : (s.physWrite pa n v).heldWrites = s.heldWrites := rfl
@[simp] theorem State.hostReads_physWrite (s : State) (pa n v : Nat) : (s.physWrite pa n v).hostReads = s.hostReads := rfl
@[simp] theorem State.boot_physWrite (s : State) (pa n v : Nat) : (s.physWrite pa n v).boot = s.boot := rfl
@[simp] theorem State.txFrames_physWrite (s : State) (pa n v : Nat) : (s.physWrite pa n v).txFrames = s.txFrames := rfl
@[simp] theorem State.rxSeq_physWrite (s : State) (pa n v : Nat) : (s.physWrite pa n v).rxSeq = s.rxSeq := rfl
@[simp] theorem State.txSeq_physWrite (s : State) (pa n v : Nat) : (s.physWrite pa n v).txSeq = s.txSeq := rfl
@[simp] theorem State.notes_physWrite (s : State) (pa n v : Nat) : (s.physWrite pa n v).notes = s.notes := rfl
@[simp] theorem State.power_physWrite (s : State) (pa n v : Nat) : (s.physWrite pa n v).power = s.power := rfl
@[simp] theorem State.clockMhz_physWrite (s : State) (pa n v : Nat) : (s.physWrite pa n v).clockMhz = s.clockMhz := rfl

/-! ### A local write -/

@[simp] theorem State.agenda_localWrite (s : State) (c : CoreId) (o n v : Nat) : (s.localWrite c o n v).agenda = s.agenda := rfl
@[simp] theorem State.focus_localWrite (s : State) (c : CoreId) (o n v : Nat) : (s.localWrite c o n v).focus = s.focus := rfl
@[simp] theorem State.cur_localWrite (s : State) (c : CoreId) (o n v : Nat) : (s.localWrite c o n v).cur = s.cur := rfl
@[simp] theorem State.cycle_localWrite (s : State) (c : CoreId) (o n v : Nat) : (s.localWrite c o n v).cycle = s.cycle := rfl
@[simp] theorem State.tick_localWrite (s : State) (c : CoreId) (o n v : Nat) : (s.localWrite c o n v).tick = s.tick := rfl
@[simp] theorem State.time_localWrite (s : State) (c : CoreId) (o n v : Nat) : (s.localWrite c o n v).time = s.time := rfl
@[simp] theorem State.timeFrac_localWrite (s : State) (c : CoreId) (o n v : Nat) : (s.localWrite c o n v).timeFrac = s.timeFrac := rfl
@[simp] theorem State.freeCtr_localWrite (s : State) (c : CoreId) (o n v : Nat) : (s.localWrite c o n v).freeCtr = s.freeCtr := rfl
@[simp] theorem State.cores_localWrite (s : State) (c : CoreId) (o n v : Nat) : (s.localWrite c o n v).cores = s.cores := rfl
@[simp] theorem State.dies_localWrite (s : State) (c : CoreId) (o n v : Nat) : (s.localWrite c o n v).dies = s.dies := rfl
@[simp] theorem State.mem_localWrite (s : State) (c : CoreId) (o n v : Nat) : (s.localWrite c o n v).mem = s.mem := rfl
@[simp] theorem State.hob_localWrite (s : State) (c : CoreId) (o n v : Nat) : (s.localWrite c o n v).hob = s.hob := rfl
@[simp] theorem State.bad_localWrite (s : State) (c : CoreId) (o n v : Nat) : (s.localWrite c o n v).bad = s.bad := rfl
@[simp] theorem State.weak_localWrite (s : State) (c : CoreId) (o n v : Nat) : (s.localWrite c o n v).weak = s.weak := rfl
@[simp] theorem State.posted_localWrite (s : State) (c : CoreId) (o n v : Nat) : (s.localWrite c o n v).posted = s.posted := rfl
@[simp] theorem State.rewritten_localWrite (s : State) (c : CoreId) (o n v : Nat) : (s.localWrite c o n v).rewritten = s.rewritten := rfl
@[simp] theorem State.inputMv_localWrite (s : State) (c : CoreId) (o n v : Nat) : (s.localWrite c o n v).inputMv = s.inputMv := rfl
@[simp] theorem State.owners_localWrite (s : State) (c : CoreId) (o n v : Nat) : (s.localWrite c o n v).owners = s.owners := rfl
@[simp] theorem State.flue_localWrite (s : State) (c : CoreId) (o n v : Nat) : (s.localWrite c o n v).flue = s.flue := rfl
@[simp] theorem State.rings_localWrite (s : State) (c : CoreId) (o n v : Nat) : (s.localWrite c o n v).rings = s.rings := rfl
@[simp] theorem State.bregs_localWrite (s : State) (c : CoreId) (o n v : Nat) : (s.localWrite c o n v).bregs = s.bregs := rfl
@[simp] theorem State.launches_localWrite (s : State) (c : CoreId) (o n v : Nat) : (s.localWrite c o n v).launches = s.launches := rfl
@[simp] theorem State.nextArrival_localWrite (s : State) (c : CoreId) (o n v : Nat) : (s.localWrite c o n v).nextArrival = s.nextArrival := rfl
@[simp] theorem State.pool_localWrite (s : State) (c : CoreId) (o n v : Nat) : (s.localWrite c o n v).pool = s.pool := rfl
@[simp] theorem State.occupancy_localWrite (s : State) (c : CoreId) (o n v : Nat) : (s.localWrite c o n v).occupancy = s.occupancy := rfl
@[simp] theorem State.linkUp_localWrite (s : State) (c : CoreId) (o n v : Nat) : (s.localWrite c o n v).linkUp = s.linkUp := rfl
@[simp] theorem State.cxl_localWrite (s : State) (c : CoreId) (o n v : Nat) : (s.localWrite c o n v).cxl = s.cxl := rfl
@[simp] theorem State.heldWrites_localWrite (s : State) (c : CoreId) (o n v : Nat) : (s.localWrite c o n v).heldWrites = s.heldWrites := rfl
@[simp] theorem State.hostReads_localWrite (s : State) (c : CoreId) (o n v : Nat) : (s.localWrite c o n v).hostReads = s.hostReads := rfl
@[simp] theorem State.boot_localWrite (s : State) (c : CoreId) (o n v : Nat) : (s.localWrite c o n v).boot = s.boot := rfl
@[simp] theorem State.txFrames_localWrite (s : State) (c : CoreId) (o n v : Nat) : (s.localWrite c o n v).txFrames = s.txFrames := rfl
@[simp] theorem State.rxSeq_localWrite (s : State) (c : CoreId) (o n v : Nat) : (s.localWrite c o n v).rxSeq = s.rxSeq := rfl
@[simp] theorem State.txSeq_localWrite (s : State) (c : CoreId) (o n v : Nat) : (s.localWrite c o n v).txSeq = s.txSeq := rfl
@[simp] theorem State.notes_localWrite (s : State) (c : CoreId) (o n v : Nat) : (s.localWrite c o n v).notes = s.notes := rfl
@[simp] theorem State.power_localWrite (s : State) (c : CoreId) (o n v : Nat) : (s.localWrite c o n v).power = s.power := rfl
@[simp] theorem State.clockMhz_localWrite (s : State) (c : CoreId) (o n v : Nat) : (s.localWrite c o n v).clockMhz = s.clockMhz := rfl

/-! ### A Hob write -/

@[simp] theorem State.agenda_hobWrite (s : State) (d : DieId) (o n v : Nat) : (s.hobWrite d o n v).agenda = s.agenda := rfl
@[simp] theorem State.focus_hobWrite (s : State) (d : DieId) (o n v : Nat) : (s.hobWrite d o n v).focus = s.focus := rfl
@[simp] theorem State.cur_hobWrite (s : State) (d : DieId) (o n v : Nat) : (s.hobWrite d o n v).cur = s.cur := rfl
@[simp] theorem State.cycle_hobWrite (s : State) (d : DieId) (o n v : Nat) : (s.hobWrite d o n v).cycle = s.cycle := rfl
@[simp] theorem State.tick_hobWrite (s : State) (d : DieId) (o n v : Nat) : (s.hobWrite d o n v).tick = s.tick := rfl
@[simp] theorem State.time_hobWrite (s : State) (d : DieId) (o n v : Nat) : (s.hobWrite d o n v).time = s.time := rfl
@[simp] theorem State.timeFrac_hobWrite (s : State) (d : DieId) (o n v : Nat) : (s.hobWrite d o n v).timeFrac = s.timeFrac := rfl
@[simp] theorem State.freeCtr_hobWrite (s : State) (d : DieId) (o n v : Nat) : (s.hobWrite d o n v).freeCtr = s.freeCtr := rfl
@[simp] theorem State.cores_hobWrite (s : State) (d : DieId) (o n v : Nat) : (s.hobWrite d o n v).cores = s.cores := rfl
@[simp] theorem State.dies_hobWrite (s : State) (d : DieId) (o n v : Nat) : (s.hobWrite d o n v).dies = s.dies := rfl
@[simp] theorem State.mem_hobWrite (s : State) (d : DieId) (o n v : Nat) : (s.hobWrite d o n v).mem = s.mem := rfl
@[simp] theorem State.lmem_hobWrite (s : State) (d : DieId) (o n v : Nat) : (s.hobWrite d o n v).lmem = s.lmem := rfl
@[simp] theorem State.bad_hobWrite (s : State) (d : DieId) (o n v : Nat) : (s.hobWrite d o n v).bad = s.bad := rfl
@[simp] theorem State.weak_hobWrite (s : State) (d : DieId) (o n v : Nat) : (s.hobWrite d o n v).weak = s.weak := rfl
@[simp] theorem State.posted_hobWrite (s : State) (d : DieId) (o n v : Nat) : (s.hobWrite d o n v).posted = s.posted := rfl
@[simp] theorem State.rewritten_hobWrite (s : State) (d : DieId) (o n v : Nat) : (s.hobWrite d o n v).rewritten = s.rewritten := rfl
@[simp] theorem State.inputMv_hobWrite (s : State) (d : DieId) (o n v : Nat) : (s.hobWrite d o n v).inputMv = s.inputMv := rfl
@[simp] theorem State.owners_hobWrite (s : State) (d : DieId) (o n v : Nat) : (s.hobWrite d o n v).owners = s.owners := rfl
@[simp] theorem State.flue_hobWrite (s : State) (d : DieId) (o n v : Nat) : (s.hobWrite d o n v).flue = s.flue := rfl
@[simp] theorem State.rings_hobWrite (s : State) (d : DieId) (o n v : Nat) : (s.hobWrite d o n v).rings = s.rings := rfl
@[simp] theorem State.bregs_hobWrite (s : State) (d : DieId) (o n v : Nat) : (s.hobWrite d o n v).bregs = s.bregs := rfl
@[simp] theorem State.launches_hobWrite (s : State) (d : DieId) (o n v : Nat) : (s.hobWrite d o n v).launches = s.launches := rfl
@[simp] theorem State.nextArrival_hobWrite (s : State) (d : DieId) (o n v : Nat) : (s.hobWrite d o n v).nextArrival = s.nextArrival := rfl
@[simp] theorem State.pool_hobWrite (s : State) (d : DieId) (o n v : Nat) : (s.hobWrite d o n v).pool = s.pool := rfl
@[simp] theorem State.occupancy_hobWrite (s : State) (d : DieId) (o n v : Nat) : (s.hobWrite d o n v).occupancy = s.occupancy := rfl
@[simp] theorem State.linkUp_hobWrite (s : State) (d : DieId) (o n v : Nat) : (s.hobWrite d o n v).linkUp = s.linkUp := rfl
@[simp] theorem State.cxl_hobWrite (s : State) (d : DieId) (o n v : Nat) : (s.hobWrite d o n v).cxl = s.cxl := rfl
@[simp] theorem State.heldWrites_hobWrite (s : State) (d : DieId) (o n v : Nat) : (s.hobWrite d o n v).heldWrites = s.heldWrites := rfl
@[simp] theorem State.hostReads_hobWrite (s : State) (d : DieId) (o n v : Nat) : (s.hobWrite d o n v).hostReads = s.hostReads := rfl
@[simp] theorem State.boot_hobWrite (s : State) (d : DieId) (o n v : Nat) : (s.hobWrite d o n v).boot = s.boot := rfl
@[simp] theorem State.txFrames_hobWrite (s : State) (d : DieId) (o n v : Nat) : (s.hobWrite d o n v).txFrames = s.txFrames := rfl
@[simp] theorem State.rxSeq_hobWrite (s : State) (d : DieId) (o n v : Nat) : (s.hobWrite d o n v).rxSeq = s.rxSeq := rfl
@[simp] theorem State.txSeq_hobWrite (s : State) (d : DieId) (o n v : Nat) : (s.hobWrite d o n v).txSeq = s.txSeq := rfl
@[simp] theorem State.notes_hobWrite (s : State) (d : DieId) (o n v : Nat) : (s.hobWrite d o n v).notes = s.notes := rfl
@[simp] theorem State.power_hobWrite (s : State) (d : DieId) (o n v : Nat) : (s.hobWrite d o n v).power = s.power := rfl
@[simp] theorem State.clockMhz_hobWrite (s : State) (d : DieId) (o n v : Nat) : (s.hobWrite d o n v).clockMhz = s.clockMhz := rfl

/-! ### Scheduling a turn -/

@[simp] theorem State.focus_schedule (s : State) (t : Turn) : (s.schedule t).focus = s.focus := rfl
@[simp] theorem State.cur_schedule (s : State) (t : Turn) : (s.schedule t).cur = s.cur := rfl
@[simp] theorem State.cycle_schedule (s : State) (t : Turn) : (s.schedule t).cycle = s.cycle := rfl
@[simp] theorem State.tick_schedule (s : State) (t : Turn) : (s.schedule t).tick = s.tick := rfl
@[simp] theorem State.time_schedule (s : State) (t : Turn) : (s.schedule t).time = s.time := rfl
@[simp] theorem State.timeFrac_schedule (s : State) (t : Turn) : (s.schedule t).timeFrac = s.timeFrac := rfl
@[simp] theorem State.freeCtr_schedule (s : State) (t : Turn) : (s.schedule t).freeCtr = s.freeCtr := rfl
@[simp] theorem State.cores_schedule (s : State) (t : Turn) : (s.schedule t).cores = s.cores := rfl
@[simp] theorem State.dies_schedule (s : State) (t : Turn) : (s.schedule t).dies = s.dies := rfl
@[simp] theorem State.mem_schedule (s : State) (t : Turn) : (s.schedule t).mem = s.mem := rfl
@[simp] theorem State.lmem_schedule (s : State) (t : Turn) : (s.schedule t).lmem = s.lmem := rfl
@[simp] theorem State.hob_schedule (s : State) (t : Turn) : (s.schedule t).hob = s.hob := rfl
@[simp] theorem State.bad_schedule (s : State) (t : Turn) : (s.schedule t).bad = s.bad := rfl
@[simp] theorem State.weak_schedule (s : State) (t : Turn) : (s.schedule t).weak = s.weak := rfl
@[simp] theorem State.posted_schedule (s : State) (t : Turn) : (s.schedule t).posted = s.posted := rfl
@[simp] theorem State.rewritten_schedule (s : State) (t : Turn) : (s.schedule t).rewritten = s.rewritten := rfl
@[simp] theorem State.inputMv_schedule (s : State) (t : Turn) : (s.schedule t).inputMv = s.inputMv := rfl
@[simp] theorem State.owners_schedule (s : State) (t : Turn) : (s.schedule t).owners = s.owners := rfl
@[simp] theorem State.flue_schedule (s : State) (t : Turn) : (s.schedule t).flue = s.flue := rfl
@[simp] theorem State.rings_schedule (s : State) (t : Turn) : (s.schedule t).rings = s.rings := rfl
@[simp] theorem State.bregs_schedule (s : State) (t : Turn) : (s.schedule t).bregs = s.bregs := rfl
@[simp] theorem State.launches_schedule (s : State) (t : Turn) : (s.schedule t).launches = s.launches := rfl
@[simp] theorem State.nextArrival_schedule (s : State) (t : Turn) : (s.schedule t).nextArrival = s.nextArrival := rfl
@[simp] theorem State.pool_schedule (s : State) (t : Turn) : (s.schedule t).pool = s.pool := rfl
@[simp] theorem State.occupancy_schedule (s : State) (t : Turn) : (s.schedule t).occupancy = s.occupancy := rfl
@[simp] theorem State.linkUp_schedule (s : State) (t : Turn) : (s.schedule t).linkUp = s.linkUp := rfl
@[simp] theorem State.cxl_schedule (s : State) (t : Turn) : (s.schedule t).cxl = s.cxl := rfl
@[simp] theorem State.heldWrites_schedule (s : State) (t : Turn) : (s.schedule t).heldWrites = s.heldWrites := rfl
@[simp] theorem State.hostReads_schedule (s : State) (t : Turn) : (s.schedule t).hostReads = s.hostReads := rfl
@[simp] theorem State.boot_schedule (s : State) (t : Turn) : (s.schedule t).boot = s.boot := rfl
@[simp] theorem State.txFrames_schedule (s : State) (t : Turn) : (s.schedule t).txFrames = s.txFrames := rfl
@[simp] theorem State.rxSeq_schedule (s : State) (t : Turn) : (s.schedule t).rxSeq = s.rxSeq := rfl
@[simp] theorem State.txSeq_schedule (s : State) (t : Turn) : (s.schedule t).txSeq = s.txSeq := rfl
@[simp] theorem State.notes_schedule (s : State) (t : Turn) : (s.schedule t).notes = s.notes := rfl
@[simp] theorem State.power_schedule (s : State) (t : Turn) : (s.schedule t).power = s.power := rfl
@[simp] theorem State.clockMhz_schedule (s : State) (t : Turn) : (s.schedule t).clockMhz = s.clockMhz := rfl

/-! ### A report -/

@[simp] theorem State.agenda_report (s : State) (n : Note) : (s.report n).agenda = s.agenda := rfl
@[simp] theorem State.focus_report (s : State) (n : Note) : (s.report n).focus = s.focus := rfl
@[simp] theorem State.cur_report (s : State) (n : Note) : (s.report n).cur = s.cur := rfl
@[simp] theorem State.cycle_report (s : State) (n : Note) : (s.report n).cycle = s.cycle := rfl
@[simp] theorem State.tick_report (s : State) (n : Note) : (s.report n).tick = s.tick := rfl
@[simp] theorem State.time_report (s : State) (n : Note) : (s.report n).time = s.time := rfl
@[simp] theorem State.timeFrac_report (s : State) (n : Note) : (s.report n).timeFrac = s.timeFrac := rfl
@[simp] theorem State.freeCtr_report (s : State) (n : Note) : (s.report n).freeCtr = s.freeCtr := rfl
@[simp] theorem State.cores_report (s : State) (n : Note) : (s.report n).cores = s.cores := rfl
@[simp] theorem State.dies_report (s : State) (n : Note) : (s.report n).dies = s.dies := rfl
@[simp] theorem State.mem_report (s : State) (n : Note) : (s.report n).mem = s.mem := rfl
@[simp] theorem State.lmem_report (s : State) (n : Note) : (s.report n).lmem = s.lmem := rfl
@[simp] theorem State.hob_report (s : State) (n : Note) : (s.report n).hob = s.hob := rfl
@[simp] theorem State.bad_report (s : State) (n : Note) : (s.report n).bad = s.bad := rfl
@[simp] theorem State.weak_report (s : State) (n : Note) : (s.report n).weak = s.weak := rfl
@[simp] theorem State.posted_report (s : State) (n : Note) : (s.report n).posted = s.posted := rfl
@[simp] theorem State.rewritten_report (s : State) (n : Note) : (s.report n).rewritten = s.rewritten := rfl
@[simp] theorem State.inputMv_report (s : State) (n : Note) : (s.report n).inputMv = s.inputMv := rfl
@[simp] theorem State.owners_report (s : State) (n : Note) : (s.report n).owners = s.owners := rfl
@[simp] theorem State.flue_report (s : State) (n : Note) : (s.report n).flue = s.flue := rfl
@[simp] theorem State.rings_report (s : State) (n : Note) : (s.report n).rings = s.rings := rfl
@[simp] theorem State.bregs_report (s : State) (n : Note) : (s.report n).bregs = s.bregs := rfl
@[simp] theorem State.launches_report (s : State) (n : Note) : (s.report n).launches = s.launches := rfl
@[simp] theorem State.nextArrival_report (s : State) (n : Note) : (s.report n).nextArrival = s.nextArrival := rfl
@[simp] theorem State.pool_report (s : State) (n : Note) : (s.report n).pool = s.pool := rfl
@[simp] theorem State.occupancy_report (s : State) (n : Note) : (s.report n).occupancy = s.occupancy := rfl
@[simp] theorem State.linkUp_report (s : State) (n : Note) : (s.report n).linkUp = s.linkUp := rfl
@[simp] theorem State.cxl_report (s : State) (n : Note) : (s.report n).cxl = s.cxl := rfl
@[simp] theorem State.heldWrites_report (s : State) (n : Note) : (s.report n).heldWrites = s.heldWrites := rfl
@[simp] theorem State.hostReads_report (s : State) (n : Note) : (s.report n).hostReads = s.hostReads := rfl
@[simp] theorem State.boot_report (s : State) (n : Note) : (s.report n).boot = s.boot := rfl
@[simp] theorem State.txFrames_report (s : State) (n : Note) : (s.report n).txFrames = s.txFrames := rfl
@[simp] theorem State.rxSeq_report (s : State) (n : Note) : (s.report n).rxSeq = s.rxSeq := rfl
@[simp] theorem State.txSeq_report (s : State) (n : Note) : (s.report n).txSeq = s.txSeq := rfl
@[simp] theorem State.power_report (s : State) (n : Note) : (s.report n).power = s.power := rfl
@[simp] theorem State.clockMhz_report (s : State) (n : Note) : (s.report n).clockMhz = s.clockMhz := rfl

/-! ### A clock advance -/

@[simp] theorem State.agenda_advanceTo (s : State) (c : Nat) : (s.advanceTo c).agenda = s.agenda := by unfold State.advanceTo; split <;> rfl
@[simp] theorem State.focus_advanceTo (s : State) (c : Nat) : (s.advanceTo c).focus = s.focus := by unfold State.advanceTo; split <;> rfl
@[simp] theorem State.cur_advanceTo (s : State) (c : Nat) : (s.advanceTo c).cur = s.cur := by unfold State.advanceTo; split <;> rfl
@[simp] theorem State.tick_advanceTo (s : State) (c : Nat) : (s.advanceTo c).tick = s.tick := by unfold State.advanceTo; split <;> rfl
@[simp] theorem State.freeCtr_advanceTo (s : State) (c : Nat) : (s.advanceTo c).freeCtr = s.freeCtr := by unfold State.advanceTo; split <;> rfl
@[simp] theorem State.cores_advanceTo (s : State) (c : Nat) : (s.advanceTo c).cores = s.cores := by unfold State.advanceTo; split <;> rfl
@[simp] theorem State.dies_advanceTo (s : State) (c : Nat) : (s.advanceTo c).dies = s.dies := by unfold State.advanceTo; split <;> rfl
@[simp] theorem State.mem_advanceTo (s : State) (c : Nat) : (s.advanceTo c).mem = s.mem := by unfold State.advanceTo; split <;> rfl
@[simp] theorem State.lmem_advanceTo (s : State) (c : Nat) : (s.advanceTo c).lmem = s.lmem := by unfold State.advanceTo; split <;> rfl
@[simp] theorem State.hob_advanceTo (s : State) (c : Nat) : (s.advanceTo c).hob = s.hob := by unfold State.advanceTo; split <;> rfl
@[simp] theorem State.bad_advanceTo (s : State) (c : Nat) : (s.advanceTo c).bad = s.bad := by unfold State.advanceTo; split <;> rfl
@[simp] theorem State.weak_advanceTo (s : State) (c : Nat) : (s.advanceTo c).weak = s.weak := by unfold State.advanceTo; split <;> rfl
@[simp] theorem State.posted_advanceTo (s : State) (c : Nat) : (s.advanceTo c).posted = s.posted := by unfold State.advanceTo; split <;> rfl
@[simp] theorem State.rewritten_advanceTo (s : State) (c : Nat) : (s.advanceTo c).rewritten = s.rewritten := by unfold State.advanceTo; split <;> rfl
@[simp] theorem State.inputMv_advanceTo (s : State) (c : Nat) : (s.advanceTo c).inputMv = s.inputMv := by unfold State.advanceTo; split <;> rfl
@[simp] theorem State.owners_advanceTo (s : State) (c : Nat) : (s.advanceTo c).owners = s.owners := by unfold State.advanceTo; split <;> rfl
@[simp] theorem State.flue_advanceTo (s : State) (c : Nat) : (s.advanceTo c).flue = s.flue := by unfold State.advanceTo; split <;> rfl
@[simp] theorem State.rings_advanceTo (s : State) (c : Nat) : (s.advanceTo c).rings = s.rings := by unfold State.advanceTo; split <;> rfl
@[simp] theorem State.bregs_advanceTo (s : State) (c : Nat) : (s.advanceTo c).bregs = s.bregs := by unfold State.advanceTo; split <;> rfl
@[simp] theorem State.launches_advanceTo (s : State) (c : Nat) : (s.advanceTo c).launches = s.launches := by unfold State.advanceTo; split <;> rfl
@[simp] theorem State.nextArrival_advanceTo (s : State) (c : Nat) : (s.advanceTo c).nextArrival = s.nextArrival := by unfold State.advanceTo; split <;> rfl
@[simp] theorem State.pool_advanceTo (s : State) (c : Nat) : (s.advanceTo c).pool = s.pool := by unfold State.advanceTo; split <;> rfl
@[simp] theorem State.occupancy_advanceTo (s : State) (c : Nat) : (s.advanceTo c).occupancy = s.occupancy := by unfold State.advanceTo; split <;> rfl
@[simp] theorem State.linkUp_advanceTo (s : State) (c : Nat) : (s.advanceTo c).linkUp = s.linkUp := by unfold State.advanceTo; split <;> rfl
@[simp] theorem State.cxl_advanceTo (s : State) (c : Nat) : (s.advanceTo c).cxl = s.cxl := by unfold State.advanceTo; split <;> rfl
@[simp] theorem State.heldWrites_advanceTo (s : State) (c : Nat) : (s.advanceTo c).heldWrites = s.heldWrites := by unfold State.advanceTo; split <;> rfl
@[simp] theorem State.hostReads_advanceTo (s : State) (c : Nat) : (s.advanceTo c).hostReads = s.hostReads := by unfold State.advanceTo; split <;> rfl
@[simp] theorem State.boot_advanceTo (s : State) (c : Nat) : (s.advanceTo c).boot = s.boot := by unfold State.advanceTo; split <;> rfl
@[simp] theorem State.txFrames_advanceTo (s : State) (c : Nat) : (s.advanceTo c).txFrames = s.txFrames := by unfold State.advanceTo; split <;> rfl
@[simp] theorem State.rxSeq_advanceTo (s : State) (c : Nat) : (s.advanceTo c).rxSeq = s.rxSeq := by unfold State.advanceTo; split <;> rfl
@[simp] theorem State.txSeq_advanceTo (s : State) (c : Nat) : (s.advanceTo c).txSeq = s.txSeq := by unfold State.advanceTo; split <;> rfl
@[simp] theorem State.notes_advanceTo (s : State) (c : Nat) : (s.advanceTo c).notes = s.notes := by unfold State.advanceTo; split <;> rfl
@[simp] theorem State.power_advanceTo (s : State) (c : Nat) : (s.advanceTo c).power = s.power := by unfold State.advanceTo; split <;> rfl
@[simp] theorem State.clockMhz_advanceTo (s : State) (c : Nat) : (s.advanceTo c).clockMhz = s.clockMhz := by unfold State.advanceTo; split <;> rfl

/-! ### A fixed-latency write -/

@[simp] theorem State.agenda_ws (s : State) (l : Nat) (r : BitVec 6) (v : Word) : (s.ws l r v).agenda = s.agenda := by unfold State.ws; split <;> rfl
@[simp] theorem State.focus_ws (s : State) (l : Nat) (r : BitVec 6) (v : Word) : (s.ws l r v).focus = s.focus := by unfold State.ws; split <;> rfl
@[simp] theorem State.cur_ws (s : State) (l : Nat) (r : BitVec 6) (v : Word) : (s.ws l r v).cur = s.cur := by unfold State.ws; split <;> rfl
@[simp] theorem State.cycle_ws (s : State) (l : Nat) (r : BitVec 6) (v : Word) : (s.ws l r v).cycle = s.cycle := by unfold State.ws; split <;> rfl
@[simp] theorem State.tick_ws (s : State) (l : Nat) (r : BitVec 6) (v : Word) : (s.ws l r v).tick = s.tick := by unfold State.ws; split <;> rfl
@[simp] theorem State.time_ws (s : State) (l : Nat) (r : BitVec 6) (v : Word) : (s.ws l r v).time = s.time := by unfold State.ws; split <;> rfl
@[simp] theorem State.timeFrac_ws (s : State) (l : Nat) (r : BitVec 6) (v : Word) : (s.ws l r v).timeFrac = s.timeFrac := by unfold State.ws; split <;> rfl
@[simp] theorem State.freeCtr_ws (s : State) (l : Nat) (r : BitVec 6) (v : Word) : (s.ws l r v).freeCtr = s.freeCtr := by unfold State.ws; split <;> rfl
@[simp] theorem State.dies_ws (s : State) (l : Nat) (r : BitVec 6) (v : Word) : (s.ws l r v).dies = s.dies := by unfold State.ws; split <;> rfl
@[simp] theorem State.mem_ws (s : State) (l : Nat) (r : BitVec 6) (v : Word) : (s.ws l r v).mem = s.mem := by unfold State.ws; split <;> rfl
@[simp] theorem State.lmem_ws (s : State) (l : Nat) (r : BitVec 6) (v : Word) : (s.ws l r v).lmem = s.lmem := by unfold State.ws; split <;> rfl
@[simp] theorem State.hob_ws (s : State) (l : Nat) (r : BitVec 6) (v : Word) : (s.ws l r v).hob = s.hob := by unfold State.ws; split <;> rfl
@[simp] theorem State.bad_ws (s : State) (l : Nat) (r : BitVec 6) (v : Word) : (s.ws l r v).bad = s.bad := by unfold State.ws; split <;> rfl
@[simp] theorem State.weak_ws (s : State) (l : Nat) (r : BitVec 6) (v : Word) : (s.ws l r v).weak = s.weak := by unfold State.ws; split <;> rfl
@[simp] theorem State.posted_ws (s : State) (l : Nat) (r : BitVec 6) (v : Word) : (s.ws l r v).posted = s.posted := by unfold State.ws; split <;> rfl
@[simp] theorem State.rewritten_ws (s : State) (l : Nat) (r : BitVec 6) (v : Word) : (s.ws l r v).rewritten = s.rewritten := by unfold State.ws; split <;> rfl
@[simp] theorem State.inputMv_ws (s : State) (l : Nat) (r : BitVec 6) (v : Word) : (s.ws l r v).inputMv = s.inputMv := by unfold State.ws; split <;> rfl
@[simp] theorem State.owners_ws (s : State) (l : Nat) (r : BitVec 6) (v : Word) : (s.ws l r v).owners = s.owners := by unfold State.ws; split <;> rfl
@[simp] theorem State.flue_ws (s : State) (l : Nat) (r : BitVec 6) (v : Word) : (s.ws l r v).flue = s.flue := by unfold State.ws; split <;> rfl
@[simp] theorem State.rings_ws (s : State) (l : Nat) (r : BitVec 6) (v : Word) : (s.ws l r v).rings = s.rings := by unfold State.ws; split <;> rfl
@[simp] theorem State.bregs_ws (s : State) (l : Nat) (r : BitVec 6) (v : Word) : (s.ws l r v).bregs = s.bregs := by unfold State.ws; split <;> rfl
@[simp] theorem State.launches_ws (s : State) (l : Nat) (r : BitVec 6) (v : Word) : (s.ws l r v).launches = s.launches := by unfold State.ws; split <;> rfl
@[simp] theorem State.nextArrival_ws (s : State) (l : Nat) (r : BitVec 6) (v : Word) : (s.ws l r v).nextArrival = s.nextArrival := by unfold State.ws; split <;> rfl
@[simp] theorem State.pool_ws (s : State) (l : Nat) (r : BitVec 6) (v : Word) : (s.ws l r v).pool = s.pool := by unfold State.ws; split <;> rfl
@[simp] theorem State.occupancy_ws (s : State) (l : Nat) (r : BitVec 6) (v : Word) : (s.ws l r v).occupancy = s.occupancy := by unfold State.ws; split <;> rfl
@[simp] theorem State.linkUp_ws (s : State) (l : Nat) (r : BitVec 6) (v : Word) : (s.ws l r v).linkUp = s.linkUp := by unfold State.ws; split <;> rfl
@[simp] theorem State.cxl_ws (s : State) (l : Nat) (r : BitVec 6) (v : Word) : (s.ws l r v).cxl = s.cxl := by unfold State.ws; split <;> rfl
@[simp] theorem State.heldWrites_ws (s : State) (l : Nat) (r : BitVec 6) (v : Word) : (s.ws l r v).heldWrites = s.heldWrites := by unfold State.ws; split <;> rfl
@[simp] theorem State.hostReads_ws (s : State) (l : Nat) (r : BitVec 6) (v : Word) : (s.ws l r v).hostReads = s.hostReads := by unfold State.ws; split <;> rfl
@[simp] theorem State.boot_ws (s : State) (l : Nat) (r : BitVec 6) (v : Word) : (s.ws l r v).boot = s.boot := by unfold State.ws; split <;> rfl
@[simp] theorem State.txFrames_ws (s : State) (l : Nat) (r : BitVec 6) (v : Word) : (s.ws l r v).txFrames = s.txFrames := by unfold State.ws; split <;> rfl
@[simp] theorem State.rxSeq_ws (s : State) (l : Nat) (r : BitVec 6) (v : Word) : (s.ws l r v).rxSeq = s.rxSeq := by unfold State.ws; split <;> rfl
@[simp] theorem State.txSeq_ws (s : State) (l : Nat) (r : BitVec 6) (v : Word) : (s.ws l r v).txSeq = s.txSeq := by unfold State.ws; split <;> rfl
@[simp] theorem State.notes_ws (s : State) (l : Nat) (r : BitVec 6) (v : Word) : (s.ws l r v).notes = s.notes := by unfold State.ws; split <;> rfl
@[simp] theorem State.power_ws (s : State) (l : Nat) (r : BitVec 6) (v : Word) : (s.ws l r v).power = s.power := by unfold State.ws; split <;> rfl
@[simp] theorem State.clockMhz_ws (s : State) (l : Nat) (r : BitVec 6) (v : Word) : (s.ws l r v).clockMhz = s.clockMhz := by unfold State.ws; split <;> rfl

/-! ### An interlocked write -/

@[simp] theorem State.agenda_wi (s : State) (r : BitVec 6) (v : Word) : (s.wi r v).agenda = s.agenda := by unfold State.wi; split <;> rfl
@[simp] theorem State.focus_wi (s : State) (r : BitVec 6) (v : Word) : (s.wi r v).focus = s.focus := by unfold State.wi; split <;> rfl
@[simp] theorem State.cur_wi (s : State) (r : BitVec 6) (v : Word) : (s.wi r v).cur = s.cur := by unfold State.wi; split <;> rfl
@[simp] theorem State.cycle_wi (s : State) (r : BitVec 6) (v : Word) : (s.wi r v).cycle = s.cycle := by unfold State.wi; split <;> rfl
@[simp] theorem State.tick_wi (s : State) (r : BitVec 6) (v : Word) : (s.wi r v).tick = s.tick := by unfold State.wi; split <;> rfl
@[simp] theorem State.time_wi (s : State) (r : BitVec 6) (v : Word) : (s.wi r v).time = s.time := by unfold State.wi; split <;> rfl
@[simp] theorem State.timeFrac_wi (s : State) (r : BitVec 6) (v : Word) : (s.wi r v).timeFrac = s.timeFrac := by unfold State.wi; split <;> rfl
@[simp] theorem State.freeCtr_wi (s : State) (r : BitVec 6) (v : Word) : (s.wi r v).freeCtr = s.freeCtr := by unfold State.wi; split <;> rfl
@[simp] theorem State.dies_wi (s : State) (r : BitVec 6) (v : Word) : (s.wi r v).dies = s.dies := by unfold State.wi; split <;> rfl
@[simp] theorem State.mem_wi (s : State) (r : BitVec 6) (v : Word) : (s.wi r v).mem = s.mem := by unfold State.wi; split <;> rfl
@[simp] theorem State.lmem_wi (s : State) (r : BitVec 6) (v : Word) : (s.wi r v).lmem = s.lmem := by unfold State.wi; split <;> rfl
@[simp] theorem State.hob_wi (s : State) (r : BitVec 6) (v : Word) : (s.wi r v).hob = s.hob := by unfold State.wi; split <;> rfl
@[simp] theorem State.bad_wi (s : State) (r : BitVec 6) (v : Word) : (s.wi r v).bad = s.bad := by unfold State.wi; split <;> rfl
@[simp] theorem State.weak_wi (s : State) (r : BitVec 6) (v : Word) : (s.wi r v).weak = s.weak := by unfold State.wi; split <;> rfl
@[simp] theorem State.posted_wi (s : State) (r : BitVec 6) (v : Word) : (s.wi r v).posted = s.posted := by unfold State.wi; split <;> rfl
@[simp] theorem State.rewritten_wi (s : State) (r : BitVec 6) (v : Word) : (s.wi r v).rewritten = s.rewritten := by unfold State.wi; split <;> rfl
@[simp] theorem State.inputMv_wi (s : State) (r : BitVec 6) (v : Word) : (s.wi r v).inputMv = s.inputMv := by unfold State.wi; split <;> rfl
@[simp] theorem State.owners_wi (s : State) (r : BitVec 6) (v : Word) : (s.wi r v).owners = s.owners := by unfold State.wi; split <;> rfl
@[simp] theorem State.flue_wi (s : State) (r : BitVec 6) (v : Word) : (s.wi r v).flue = s.flue := by unfold State.wi; split <;> rfl
@[simp] theorem State.rings_wi (s : State) (r : BitVec 6) (v : Word) : (s.wi r v).rings = s.rings := by unfold State.wi; split <;> rfl
@[simp] theorem State.bregs_wi (s : State) (r : BitVec 6) (v : Word) : (s.wi r v).bregs = s.bregs := by unfold State.wi; split <;> rfl
@[simp] theorem State.launches_wi (s : State) (r : BitVec 6) (v : Word) : (s.wi r v).launches = s.launches := by unfold State.wi; split <;> rfl
@[simp] theorem State.nextArrival_wi (s : State) (r : BitVec 6) (v : Word) : (s.wi r v).nextArrival = s.nextArrival := by unfold State.wi; split <;> rfl
@[simp] theorem State.pool_wi (s : State) (r : BitVec 6) (v : Word) : (s.wi r v).pool = s.pool := by unfold State.wi; split <;> rfl
@[simp] theorem State.occupancy_wi (s : State) (r : BitVec 6) (v : Word) : (s.wi r v).occupancy = s.occupancy := by unfold State.wi; split <;> rfl
@[simp] theorem State.linkUp_wi (s : State) (r : BitVec 6) (v : Word) : (s.wi r v).linkUp = s.linkUp := by unfold State.wi; split <;> rfl
@[simp] theorem State.cxl_wi (s : State) (r : BitVec 6) (v : Word) : (s.wi r v).cxl = s.cxl := by unfold State.wi; split <;> rfl
@[simp] theorem State.heldWrites_wi (s : State) (r : BitVec 6) (v : Word) : (s.wi r v).heldWrites = s.heldWrites := by unfold State.wi; split <;> rfl
@[simp] theorem State.hostReads_wi (s : State) (r : BitVec 6) (v : Word) : (s.wi r v).hostReads = s.hostReads := by unfold State.wi; split <;> rfl
@[simp] theorem State.boot_wi (s : State) (r : BitVec 6) (v : Word) : (s.wi r v).boot = s.boot := by unfold State.wi; split <;> rfl
@[simp] theorem State.txFrames_wi (s : State) (r : BitVec 6) (v : Word) : (s.wi r v).txFrames = s.txFrames := by unfold State.wi; split <;> rfl
@[simp] theorem State.rxSeq_wi (s : State) (r : BitVec 6) (v : Word) : (s.wi r v).rxSeq = s.rxSeq := by unfold State.wi; split <;> rfl
@[simp] theorem State.txSeq_wi (s : State) (r : BitVec 6) (v : Word) : (s.wi r v).txSeq = s.txSeq := by unfold State.wi; split <;> rfl
@[simp] theorem State.notes_wi (s : State) (r : BitVec 6) (v : Word) : (s.wi r v).notes = s.notes := by unfold State.wi; split <;> rfl
@[simp] theorem State.power_wi (s : State) (r : BitVec 6) (v : Word) : (s.wi r v).power = s.power := by unfold State.wi; split <;> rfl
@[simp] theorem State.clockMhz_wi (s : State) (r : BitVec 6) (v : Word) : (s.wi r v).clockMhz = s.clockMhz := by unfold State.wi; split <;> rfl

/-! ### Raising flags -/

@[simp] theorem State.agenda_orFlags (s : State) (f : BitVec 5) : (s.orFlags f).agenda = s.agenda := rfl
@[simp] theorem State.focus_orFlags (s : State) (f : BitVec 5) : (s.orFlags f).focus = s.focus := rfl
@[simp] theorem State.cur_orFlags (s : State) (f : BitVec 5) : (s.orFlags f).cur = s.cur := rfl
@[simp] theorem State.cycle_orFlags (s : State) (f : BitVec 5) : (s.orFlags f).cycle = s.cycle := rfl
@[simp] theorem State.tick_orFlags (s : State) (f : BitVec 5) : (s.orFlags f).tick = s.tick := rfl
@[simp] theorem State.time_orFlags (s : State) (f : BitVec 5) : (s.orFlags f).time = s.time := rfl
@[simp] theorem State.timeFrac_orFlags (s : State) (f : BitVec 5) : (s.orFlags f).timeFrac = s.timeFrac := rfl
@[simp] theorem State.freeCtr_orFlags (s : State) (f : BitVec 5) : (s.orFlags f).freeCtr = s.freeCtr := rfl
@[simp] theorem State.dies_orFlags (s : State) (f : BitVec 5) : (s.orFlags f).dies = s.dies := rfl
@[simp] theorem State.mem_orFlags (s : State) (f : BitVec 5) : (s.orFlags f).mem = s.mem := rfl
@[simp] theorem State.lmem_orFlags (s : State) (f : BitVec 5) : (s.orFlags f).lmem = s.lmem := rfl
@[simp] theorem State.hob_orFlags (s : State) (f : BitVec 5) : (s.orFlags f).hob = s.hob := rfl
@[simp] theorem State.bad_orFlags (s : State) (f : BitVec 5) : (s.orFlags f).bad = s.bad := rfl
@[simp] theorem State.weak_orFlags (s : State) (f : BitVec 5) : (s.orFlags f).weak = s.weak := rfl
@[simp] theorem State.posted_orFlags (s : State) (f : BitVec 5) : (s.orFlags f).posted = s.posted := rfl
@[simp] theorem State.rewritten_orFlags (s : State) (f : BitVec 5) : (s.orFlags f).rewritten = s.rewritten := rfl
@[simp] theorem State.inputMv_orFlags (s : State) (f : BitVec 5) : (s.orFlags f).inputMv = s.inputMv := rfl
@[simp] theorem State.owners_orFlags (s : State) (f : BitVec 5) : (s.orFlags f).owners = s.owners := rfl
@[simp] theorem State.flue_orFlags (s : State) (f : BitVec 5) : (s.orFlags f).flue = s.flue := rfl
@[simp] theorem State.rings_orFlags (s : State) (f : BitVec 5) : (s.orFlags f).rings = s.rings := rfl
@[simp] theorem State.bregs_orFlags (s : State) (f : BitVec 5) : (s.orFlags f).bregs = s.bregs := rfl
@[simp] theorem State.launches_orFlags (s : State) (f : BitVec 5) : (s.orFlags f).launches = s.launches := rfl
@[simp] theorem State.nextArrival_orFlags (s : State) (f : BitVec 5) : (s.orFlags f).nextArrival = s.nextArrival := rfl
@[simp] theorem State.pool_orFlags (s : State) (f : BitVec 5) : (s.orFlags f).pool = s.pool := rfl
@[simp] theorem State.occupancy_orFlags (s : State) (f : BitVec 5) : (s.orFlags f).occupancy = s.occupancy := rfl
@[simp] theorem State.linkUp_orFlags (s : State) (f : BitVec 5) : (s.orFlags f).linkUp = s.linkUp := rfl
@[simp] theorem State.cxl_orFlags (s : State) (f : BitVec 5) : (s.orFlags f).cxl = s.cxl := rfl
@[simp] theorem State.heldWrites_orFlags (s : State) (f : BitVec 5) : (s.orFlags f).heldWrites = s.heldWrites := rfl
@[simp] theorem State.hostReads_orFlags (s : State) (f : BitVec 5) : (s.orFlags f).hostReads = s.hostReads := rfl
@[simp] theorem State.boot_orFlags (s : State) (f : BitVec 5) : (s.orFlags f).boot = s.boot := rfl
@[simp] theorem State.txFrames_orFlags (s : State) (f : BitVec 5) : (s.orFlags f).txFrames = s.txFrames := rfl
@[simp] theorem State.rxSeq_orFlags (s : State) (f : BitVec 5) : (s.orFlags f).rxSeq = s.rxSeq := rfl
@[simp] theorem State.txSeq_orFlags (s : State) (f : BitVec 5) : (s.orFlags f).txSeq = s.txSeq := rfl
@[simp] theorem State.notes_orFlags (s : State) (f : BitVec 5) : (s.orFlags f).notes = s.notes := rfl
@[simp] theorem State.power_orFlags (s : State) (f : BitVec 5) : (s.orFlags f).power = s.power := rfl
@[simp] theorem State.clockMhz_orFlags (s : State) (f : BitVec 5) : (s.orFlags f).clockMhz = s.clockMhz := rfl

/-! ### Counting an issue -/

@[simp] theorem State.agenda_countIssue (s : State) (b : Bool) : (s.countIssue b).agenda = s.agenda := by unfold State.countIssue; dsimp only; split <;> rfl
@[simp] theorem State.focus_countIssue (s : State) (b : Bool) : (s.countIssue b).focus = s.focus := by unfold State.countIssue; dsimp only; split <;> rfl
@[simp] theorem State.cur_countIssue (s : State) (b : Bool) : (s.countIssue b).cur = s.cur := by unfold State.countIssue; dsimp only; split <;> rfl
@[simp] theorem State.cycle_countIssue (s : State) (b : Bool) : (s.countIssue b).cycle = s.cycle := by unfold State.countIssue; dsimp only; split <;> rfl
@[simp] theorem State.tick_countIssue (s : State) (b : Bool) : (s.countIssue b).tick = s.tick := by unfold State.countIssue; dsimp only; split <;> rfl
@[simp] theorem State.time_countIssue (s : State) (b : Bool) : (s.countIssue b).time = s.time := by unfold State.countIssue; dsimp only; split <;> rfl
@[simp] theorem State.timeFrac_countIssue (s : State) (b : Bool) : (s.countIssue b).timeFrac = s.timeFrac := by unfold State.countIssue; dsimp only; split <;> rfl
@[simp] theorem State.freeCtr_countIssue (s : State) (b : Bool) : (s.countIssue b).freeCtr = s.freeCtr := by unfold State.countIssue; dsimp only; split <;> rfl
@[simp] theorem State.dies_countIssue (s : State) (b : Bool) : (s.countIssue b).dies = s.dies := by unfold State.countIssue; dsimp only; split <;> rfl
@[simp] theorem State.mem_countIssue (s : State) (b : Bool) : (s.countIssue b).mem = s.mem := by unfold State.countIssue; dsimp only; split <;> rfl
@[simp] theorem State.lmem_countIssue (s : State) (b : Bool) : (s.countIssue b).lmem = s.lmem := by unfold State.countIssue; dsimp only; split <;> rfl
@[simp] theorem State.hob_countIssue (s : State) (b : Bool) : (s.countIssue b).hob = s.hob := by unfold State.countIssue; dsimp only; split <;> rfl
@[simp] theorem State.bad_countIssue (s : State) (b : Bool) : (s.countIssue b).bad = s.bad := by unfold State.countIssue; dsimp only; split <;> rfl
@[simp] theorem State.weak_countIssue (s : State) (b : Bool) : (s.countIssue b).weak = s.weak := by unfold State.countIssue; dsimp only; split <;> rfl
@[simp] theorem State.posted_countIssue (s : State) (b : Bool) : (s.countIssue b).posted = s.posted := by unfold State.countIssue; dsimp only; split <;> rfl
@[simp] theorem State.rewritten_countIssue (s : State) (b : Bool) : (s.countIssue b).rewritten = s.rewritten := by unfold State.countIssue; dsimp only; split <;> rfl
@[simp] theorem State.inputMv_countIssue (s : State) (b : Bool) : (s.countIssue b).inputMv = s.inputMv := by unfold State.countIssue; dsimp only; split <;> rfl
@[simp] theorem State.owners_countIssue (s : State) (b : Bool) : (s.countIssue b).owners = s.owners := by unfold State.countIssue; dsimp only; split <;> rfl
@[simp] theorem State.flue_countIssue (s : State) (b : Bool) : (s.countIssue b).flue = s.flue := by unfold State.countIssue; dsimp only; split <;> rfl
@[simp] theorem State.rings_countIssue (s : State) (b : Bool) : (s.countIssue b).rings = s.rings := by unfold State.countIssue; dsimp only; split <;> rfl
@[simp] theorem State.bregs_countIssue (s : State) (b : Bool) : (s.countIssue b).bregs = s.bregs := by unfold State.countIssue; dsimp only; split <;> rfl
@[simp] theorem State.launches_countIssue (s : State) (b : Bool) : (s.countIssue b).launches = s.launches := by unfold State.countIssue; dsimp only; split <;> rfl
@[simp] theorem State.nextArrival_countIssue (s : State) (b : Bool) : (s.countIssue b).nextArrival = s.nextArrival := by unfold State.countIssue; dsimp only; split <;> rfl
@[simp] theorem State.pool_countIssue (s : State) (b : Bool) : (s.countIssue b).pool = s.pool := by unfold State.countIssue; dsimp only; split <;> rfl
@[simp] theorem State.occupancy_countIssue (s : State) (b : Bool) : (s.countIssue b).occupancy = s.occupancy := by unfold State.countIssue; dsimp only; split <;> rfl
@[simp] theorem State.linkUp_countIssue (s : State) (b : Bool) : (s.countIssue b).linkUp = s.linkUp := by unfold State.countIssue; dsimp only; split <;> rfl
@[simp] theorem State.cxl_countIssue (s : State) (b : Bool) : (s.countIssue b).cxl = s.cxl := by unfold State.countIssue; dsimp only; split <;> rfl
@[simp] theorem State.heldWrites_countIssue (s : State) (b : Bool) : (s.countIssue b).heldWrites = s.heldWrites := by unfold State.countIssue; dsimp only; split <;> rfl
@[simp] theorem State.hostReads_countIssue (s : State) (b : Bool) : (s.countIssue b).hostReads = s.hostReads := by unfold State.countIssue; dsimp only; split <;> rfl
@[simp] theorem State.boot_countIssue (s : State) (b : Bool) : (s.countIssue b).boot = s.boot := by unfold State.countIssue; dsimp only; split <;> rfl
@[simp] theorem State.txFrames_countIssue (s : State) (b : Bool) : (s.countIssue b).txFrames = s.txFrames := by unfold State.countIssue; dsimp only; split <;> rfl
@[simp] theorem State.rxSeq_countIssue (s : State) (b : Bool) : (s.countIssue b).rxSeq = s.rxSeq := by unfold State.countIssue; dsimp only; split <;> rfl
@[simp] theorem State.txSeq_countIssue (s : State) (b : Bool) : (s.countIssue b).txSeq = s.txSeq := by unfold State.countIssue; dsimp only; split <;> rfl
@[simp] theorem State.notes_countIssue (s : State) (b : Bool) : (s.countIssue b).notes = s.notes := by unfold State.countIssue; dsimp only; split <;> rfl
@[simp] theorem State.power_countIssue (s : State) (b : Bool) : (s.countIssue b).power = s.power := by unfold State.countIssue; dsimp only; split <;> rfl
@[simp] theorem State.clockMhz_countIssue (s : State) (b : Bool) : (s.countIssue b).clockMhz = s.clockMhz := by unfold State.countIssue; dsimp only; split <;> rfl

/-! ### Retiring -/

@[simp] theorem State.agenda_retire (s : State) (n : BitVec 3) : (s.retire n).agenda = s.agenda := by unfold State.retire; simp only [State.agenda_advanceTo, State.agenda_modCtx]
@[simp] theorem State.focus_retire (s : State) (n : BitVec 3) : (s.retire n).focus = s.focus := by unfold State.retire; simp only [State.focus_advanceTo, State.focus_modCtx]
@[simp] theorem State.cur_retire (s : State) (n : BitVec 3) : (s.retire n).cur = s.cur := by unfold State.retire; simp only [State.cur_advanceTo, State.cur_modCtx]
@[simp] theorem State.tick_retire (s : State) (n : BitVec 3) : (s.retire n).tick = s.tick := by unfold State.retire; simp only [State.tick_advanceTo, State.tick_modCtx]
@[simp] theorem State.freeCtr_retire (s : State) (n : BitVec 3) : (s.retire n).freeCtr = s.freeCtr := by unfold State.retire; simp only [State.freeCtr_advanceTo, State.freeCtr_modCtx]
@[simp] theorem State.dies_retire (s : State) (n : BitVec 3) : (s.retire n).dies = s.dies := by unfold State.retire; simp only [State.dies_advanceTo, State.dies_modCtx]
@[simp] theorem State.mem_retire (s : State) (n : BitVec 3) : (s.retire n).mem = s.mem := by unfold State.retire; simp only [State.mem_advanceTo, State.mem_modCtx]
@[simp] theorem State.lmem_retire (s : State) (n : BitVec 3) : (s.retire n).lmem = s.lmem := by unfold State.retire; simp only [State.lmem_advanceTo, State.lmem_modCtx]
@[simp] theorem State.hob_retire (s : State) (n : BitVec 3) : (s.retire n).hob = s.hob := by unfold State.retire; simp only [State.hob_advanceTo, State.hob_modCtx]
@[simp] theorem State.bad_retire (s : State) (n : BitVec 3) : (s.retire n).bad = s.bad := by unfold State.retire; simp only [State.bad_advanceTo, State.bad_modCtx]
@[simp] theorem State.weak_retire (s : State) (n : BitVec 3) : (s.retire n).weak = s.weak := by unfold State.retire; simp only [State.weak_advanceTo, State.weak_modCtx]
@[simp] theorem State.posted_retire (s : State) (n : BitVec 3) : (s.retire n).posted = s.posted := by unfold State.retire; simp only [State.posted_advanceTo, State.posted_modCtx]
@[simp] theorem State.rewritten_retire (s : State) (n : BitVec 3) : (s.retire n).rewritten = s.rewritten := by unfold State.retire; simp only [State.rewritten_advanceTo, State.rewritten_modCtx]
@[simp] theorem State.inputMv_retire (s : State) (n : BitVec 3) : (s.retire n).inputMv = s.inputMv := by unfold State.retire; simp only [State.inputMv_advanceTo, State.inputMv_modCtx]
@[simp] theorem State.owners_retire (s : State) (n : BitVec 3) : (s.retire n).owners = s.owners := by unfold State.retire; simp only [State.owners_advanceTo, State.owners_modCtx]
@[simp] theorem State.flue_retire (s : State) (n : BitVec 3) : (s.retire n).flue = s.flue := by unfold State.retire; simp only [State.flue_advanceTo, State.flue_modCtx]
@[simp] theorem State.rings_retire (s : State) (n : BitVec 3) : (s.retire n).rings = s.rings := by unfold State.retire; simp only [State.rings_advanceTo, State.rings_modCtx]
@[simp] theorem State.bregs_retire (s : State) (n : BitVec 3) : (s.retire n).bregs = s.bregs := by unfold State.retire; simp only [State.bregs_advanceTo, State.bregs_modCtx]
@[simp] theorem State.launches_retire (s : State) (n : BitVec 3) : (s.retire n).launches = s.launches := by unfold State.retire; simp only [State.launches_advanceTo, State.launches_modCtx]
@[simp] theorem State.nextArrival_retire (s : State) (n : BitVec 3) : (s.retire n).nextArrival = s.nextArrival := by unfold State.retire; simp only [State.nextArrival_advanceTo, State.nextArrival_modCtx]
@[simp] theorem State.pool_retire (s : State) (n : BitVec 3) : (s.retire n).pool = s.pool := by unfold State.retire; simp only [State.pool_advanceTo, State.pool_modCtx]
@[simp] theorem State.occupancy_retire (s : State) (n : BitVec 3) : (s.retire n).occupancy = s.occupancy := by unfold State.retire; simp only [State.occupancy_advanceTo, State.occupancy_modCtx]
@[simp] theorem State.linkUp_retire (s : State) (n : BitVec 3) : (s.retire n).linkUp = s.linkUp := by unfold State.retire; simp only [State.linkUp_advanceTo, State.linkUp_modCtx]
@[simp] theorem State.cxl_retire (s : State) (n : BitVec 3) : (s.retire n).cxl = s.cxl := by unfold State.retire; simp only [State.cxl_advanceTo, State.cxl_modCtx]
@[simp] theorem State.heldWrites_retire (s : State) (n : BitVec 3) : (s.retire n).heldWrites = s.heldWrites := by unfold State.retire; simp only [State.heldWrites_advanceTo, State.heldWrites_modCtx]
@[simp] theorem State.hostReads_retire (s : State) (n : BitVec 3) : (s.retire n).hostReads = s.hostReads := by unfold State.retire; simp only [State.hostReads_advanceTo, State.hostReads_modCtx]
@[simp] theorem State.boot_retire (s : State) (n : BitVec 3) : (s.retire n).boot = s.boot := by unfold State.retire; simp only [State.boot_advanceTo, State.boot_modCtx]
@[simp] theorem State.txFrames_retire (s : State) (n : BitVec 3) : (s.retire n).txFrames = s.txFrames := by unfold State.retire; simp only [State.txFrames_advanceTo, State.txFrames_modCtx]
@[simp] theorem State.rxSeq_retire (s : State) (n : BitVec 3) : (s.retire n).rxSeq = s.rxSeq := by unfold State.retire; simp only [State.rxSeq_advanceTo, State.rxSeq_modCtx]
@[simp] theorem State.txSeq_retire (s : State) (n : BitVec 3) : (s.retire n).txSeq = s.txSeq := by unfold State.retire; simp only [State.txSeq_advanceTo, State.txSeq_modCtx]
@[simp] theorem State.notes_retire (s : State) (n : BitVec 3) : (s.retire n).notes = s.notes := by unfold State.retire; simp only [State.notes_advanceTo, State.notes_modCtx]
@[simp] theorem State.power_retire (s : State) (n : BitVec 3) : (s.retire n).power = s.power := by unfold State.retire; simp only [State.power_advanceTo, State.power_modCtx]
@[simp] theorem State.clockMhz_retire (s : State) (n : BitVec 3) : (s.retire n).clockMhz = s.clockMhz := by unfold State.retire; simp only [State.clockMhz_advanceTo, State.clockMhz_modCtx]

/-! ### Cores, contexts and dies after an update -/

@[simp] theorem getElem_vmap {α β : Type} {n : Nat} (v : Vector α n) (f : α → β) (i : Nat) (h : i < n) : (vmap v f)[i] = f v[i] := by
  simp [vmap]

@[simp] theorem State.coreAt_setCore_self (s : State) (c : CoreId) (k : Core) : (s.setCore c k).coreAt c = k := by
  simp [State.setCore, State.coreAt]

theorem State.coreAt_setCore_ne (s : State) {c d : CoreId} (k : Core) (h : d ≠ c) :
    (s.setCore c k).coreAt d = s.coreAt d := by
  have : c.val ≠ d.val := fun e => h (Fin.ext e.symm)
  simp [State.setCore, State.coreAt, this]

@[simp] theorem State.coreAt_modCore_self (s : State) (c : CoreId) (f : Core → Core) :
    (s.modCore c f).coreAt c = f (s.coreAt c) := by simp [State.modCore]

theorem State.coreAt_modCore_ne (s : State) {c d : CoreId} (f : Core → Core) (h : d ≠ c) :
    (s.modCore c f).coreAt d = s.coreAt d := by simp [State.modCore, State.coreAt_setCore_ne _ _ h]

/-- Any core after one core is changed. -/
theorem State.coreAt_modCore (s : State) (c d : CoreId) (f : Core → Core) :
    (s.modCore c f).coreAt d = if d = c then f (s.coreAt c) else s.coreAt d := by
  by_cases h : d = c
  · subst h; simp
  · simp [h, State.coreAt_modCore_ne _ _ h]

/-- Any context after one context is changed. -/
theorem State.ctxAt_modCtxAt (s : State) (c d : CoreId) (x y : CtxId) (f : Ctx → Ctx) :
    (s.modCtxAt c x f).ctxAt d y = if d = c ∧ y = x then f (s.ctxAt c x) else s.ctxAt d y := by
  unfold State.ctxAt State.modCtxAt
  rw [State.coreAt_modCore]
  by_cases h : d = c
  · subst h
    by_cases hy : y = x
    · subst hy; simp
    · have : x.val ≠ y.val := fun e => hy (Fin.ext e.symm)
      simp [hy, this]
  · simp [h]

@[simp] theorem State.ctxAt_modCtxAt_self (s : State) (c : CoreId) (x : CtxId) (f : Ctx → Ctx) :
    (s.modCtxAt c x f).ctxAt c x = f (s.ctxAt c x) := by simp [State.ctxAt_modCtxAt]

@[simp] theorem State.ctx_modCtx (s : State) (f : Ctx → Ctx) : (s.modCtx f).ctx = f s.ctx := by
  simp [State.ctx, State.modCtx]

/-- A change of a core that keeps its contexts keeps every context. -/
theorem State.ctxAt_modCore (s : State) (c d : CoreId) (x : CtxId) (f : Core → Core) (h : ∀ k, (f k).ctxs = k.ctxs) :
    (s.modCore c f).ctxAt d x = s.ctxAt d x := by
  unfold State.ctxAt
  rw [State.coreAt_modCore]
  split
  · rename_i e; subst e; simp [h]
  · rfl

/-- A change of a core that keeps its contexts keeps the executing one. -/
theorem State.ctx_modCore (s : State) (c : CoreId) (f : Core → Core) (h : ∀ k, (f k).ctxs = k.ctxs) :
    (s.modCore c f).ctx = s.ctx := State.ctxAt_modCore s c _ _ f h

@[simp] theorem State.coreAt_advanceTo (s : State) (t : Nat) (c : CoreId) : (s.advanceTo t).coreAt c = s.coreAt c := by
  simp [State.coreAt]

@[simp] theorem State.ctxAt_advanceTo (s : State) (t : Nat) (c : CoreId) (x : CtxId) :
    (s.advanceTo t).ctxAt c x = s.ctxAt c x := by simp [State.ctxAt]

@[simp] theorem State.ctx_advanceTo (s : State) (t : Nat) : (s.advanceTo t).ctx = s.ctx := by simp [State.ctx]

@[simp] theorem State.dieAt_advanceTo (s : State) (t : Nat) (d : DieId) : (s.advanceTo t).dieAt d = s.dieAt d := by
  simp [State.dieAt]

@[simp] theorem State.dieAt_modCtxAt (s : State) (c : CoreId) (x : CtxId) (f : Ctx → Ctx) (d : DieId) :
    (s.modCtxAt c x f).dieAt d = s.dieAt d := rfl

@[simp] theorem State.dieAt_modCtx (s : State) (f : Ctx → Ctx) (d : DieId) : (s.modCtx f).dieAt d = s.dieAt d := rfl

@[simp] theorem State.dieAt_modCore (s : State) (c : CoreId) (f : Core → Core) (d : DieId) :
    (s.modCore c f).dieAt d = s.dieAt d := rfl

@[simp] theorem State.coreAt_modDie (s : State) (d : DieId) (f : Die → Die) (c : CoreId) :
    (s.modDie d f).coreAt c = s.coreAt c := rfl

@[simp] theorem State.ctxAt_modDie (s : State) (d : DieId) (f : Die → Die) (c : CoreId) (x : CtxId) :
    (s.modDie d f).ctxAt c x = s.ctxAt c x := rfl

@[simp] theorem State.ctx_modDie (s : State) (d : DieId) (f : Die → Die) : (s.modDie d f).ctx = s.ctx := rfl

@[simp] theorem State.dieAt_modDie_self (s : State) (d : DieId) (f : Die → Die) :
    (s.modDie d f).dieAt d = f (s.dieAt d) := by simp [State.dieAt, State.modDie]

/-- Any die after one die is changed. -/
theorem State.dieAt_modDie (s : State) (d e : DieId) (f : Die → Die) :
    (s.modDie d f).dieAt e = if e = d then f (s.dieAt d) else s.dieAt e := by
  by_cases h : e = d
  · subst h; simp
  · have : d.val ≠ e.val := fun k => h (Fin.ext k.symm)
    simp [State.dieAt, State.modDie, this, h]

/-- How far the clock stands after an advance. -/
theorem State.cycle_advanceTo (s : State) (t : Nat) : (s.advanceTo t).cycle = max s.cycle t := by
  unfold State.advanceTo
  split <;> simp <;> omega


end Sys2Proof.Machine
end

