-- ==== Sys2Proof/Laws/Issue.lean ====
section
/-! SUPPORT. What issue does: an instruction that executes answers the state of its own part, its pc advanced, and what
the shared updates leave of the rest of the machine. -/
namespace Sys2Proof.Machine
open Sys2Proof

/-! ### The frame relations compose -/

theorem State.sameOutside_refl (s : State) : s.sameOutside s := rfl

theorem State.sameOutside_trans {s t u : State} (a : s.sameOutside t) (b : t.sameOutside u) : s.sameOutside u := by
  unfold State.sameOutside at *
  rw [b, a]

theorem Core.sameShared_refl (k : Core) : k.sameShared k := ⟨rfl, rfl⟩

theorem Core.sameShared_trans {a b c : Core} (h : a.sameShared b) (g : b.sameShared c) : a.sameShared c := by
  refine ⟨?_, g.2.trans h.2⟩
  rw [g.1, h.1]

theorem State.onlyContext_refl (s : State) : s.onlyContext s :=
  ⟨s.sameOutside_refl, fun _ => Core.sameShared_refl _, fun _ _ _ => rfl⟩

theorem State.onlyContext_cur {s t : State} (h : s.onlyContext t) : t.cur = s.cur := by rw [h.1]

theorem State.onlyContext_trans {s t u : State} (a : s.onlyContext t) (b : t.onlyContext u) : s.onlyContext u :=
  ⟨State.sameOutside_trans a.1 b.1, fun c => Core.sameShared_trans (a.2.1 c) (b.2.1 c), fun c x h => by
    rw [b.2.2 c x (by rwa [State.onlyContext_cur a]), a.2.2 c x h]⟩

/-- A state that only the executing context has left is the same in every memory. -/
theorem State.onlyContext_bytes {s t : State} (h : s.onlyContext t) : s.sameBytes t := by
  intro a
  rw [h.1]
  exact ⟨rfl, rfl, rfl⟩

theorem State.onlyContext_modCtx (s : State) (f : Ctx → Ctx) : s.onlyContext (s.modCtx f) := by
  refine ⟨rfl, fun c => ?_, fun c x h => ?_⟩
  · unfold State.modCtx State.modCtxAt
    rw [State.coreAt_modCore]
    split
    · rename_i e; subst e; exact ⟨rfl, rfl⟩
    · exact Core.sameShared_refl _
  · unfold State.modCtx
    rw [State.ctxAt_modCtxAt]
    have : ¬ (c = s.cur.1 ∧ x = s.cur.2) := fun e => h (by rw [e.1, e.2])
    simp [this]

theorem State.onlyContext_advanceTo (s : State) (t : Nat) : s.onlyContext (s.advanceTo t) := by
  refine ⟨?_, fun c => ?_, fun c x _ => ?_⟩
  · unfold State.advanceTo; split <;> rfl
  · rw [State.coreAt_advanceTo]; exact Core.sameShared_refl _
  · simp

/-- A change of a core's invocation, vector queue or walks. -/
theorem State.onlyContext_modCore (s : State) (c : CoreId) (f : Core → Core) (h : ∀ k : Core, k.sameShared (f k))
    (g : ∀ k : Core, (f k).ctxs = k.ctxs) : s.onlyContext (s.modCore c f) := by
  refine ⟨rfl, fun d => ?_, fun d x _ => State.ctxAt_modCore s c d x f g⟩
  rw [State.coreAt_modCore]
  split
  · rename_i e; subst e; exact h _
  · exact Core.sameShared_refl _

theorem State.onlyContext_countIssue (s : State) (b : Bool) : s.onlyContext (s.countIssue b) := by
  unfold State.countIssue
  dsimp only
  split
  · exact State.onlyContext_trans (State.onlyContext_modCtx s _)
      (State.onlyContext_modCore _ _ _ (fun k => ⟨rfl, by cases k.inv <;> rfl⟩) (fun _ => rfl))
  · exact State.onlyContext_modCtx s _

theorem State.onlyContext_retire (s : State) (n : BitVec 3) : s.onlyContext (s.retire n) :=
  State.onlyContext_trans (State.onlyContext_modCtx s _) (State.onlyContext_advanceTo _ _)

theorem State.onlyContext_ws (s : State) (l : Nat) (r : BitVec 6) (v : Word) : s.onlyContext (s.ws l r v) := by
  unfold State.ws
  split
  · exact State.onlyContext_refl s
  · exact State.onlyContext_modCtx s _

theorem State.onlyContext_wi (s : State) (r : BitVec 6) (v : Word) : s.onlyContext (s.wi r v) := by
  unfold State.wi
  split
  · exact State.onlyContext_refl s
  · exact State.onlyContext_modCtx s _

theorem State.onlyContext_orFlags (s : State) (f : BitVec 5) : s.onlyContext (s.orFlags f) := State.onlyContext_modCtx s _

/-! ### The executing context through issue -/

theorem State.ctx_eq_ctxAt (s : State) : s.ctx = s.ctxAt s.cur.1 s.cur.2 := rfl

/-- The executing context after the count of an issue. -/
theorem State.ctx_countIssue (s : State) (b : Bool) :
    (s.countIssue b).ctx = { s.ctx with
      sinceHop := s.ctx.sinceHop + 1, midWait := none
      astate := if b && s.ctx.region.isSome then { s.ctx.astate with nins := s.ctx.astate.nins + 1 } else s.ctx.astate } := by
  unfold State.countIssue
  dsimp only
  split
  · refine (State.ctx_modCore _ _ _ (fun k => ?_)).trans (State.ctx_modCtx s _)
    rfl
  · exact State.ctx_modCtx s _

/-- The executing context after an instruction retires. -/
theorem State.ctx_retire (s : State) (n : BitVec 3) :
    (s.retire n).ctx = { s.ctx with nextIssue := s.cycle + 1 + n.toNat, waitFrom := s.cycle + 1 + n.toNat } := by
  simp [State.retire]

/-- Changing the executing context to what it is changes nothing. -/
theorem State.modCtx_same (s : State) (f : Ctx → Ctx) (h : f s.ctx = s.ctx) : s.modCtx f = s := by
  have e : f ((s.coreAt s.cur.1).ctxs[s.cur.2]) = (s.coreAt s.cur.1).ctxs[s.cur.2] := h
  unfold State.modCtx State.modCtxAt State.modCore State.setCore
  dsimp only
  rw [e]
  have : { s.coreAt s.cur.1 with ctxs := (s.coreAt s.cur.1).ctxs.set s.cur.2 ((s.coreAt s.cur.1).ctxs[s.cur.2]) } =
      s.cores[s.cur.1] := by
    simp [State.coreAt]
  rw [this]
  simp

/-! ### Registers -/

/-- Outside trust mode an instruction reads the register itself (03 R42, R62). -/
theorem State.rs_eq_reg (s : State) (r : BitVec 6) (h : s.ctx.scbmode ≠ 1) : s.rs r = s.reg r := by
  unfold State.rs State.reg
  rw [if_neg h]

theorem State.reg_of_ctx {s t : State} (h : t.ctx.s = s.ctx.s) (r : BitVec 6) : t.reg r = s.reg r := by
  simp [State.reg, h]

/-- Outside trust mode a fixed-latency write leaves the value in the register (03 R42, R62). -/
theorem State.ctx_ws (s : State) (l : Nat) (d : BitVec 6) (v : Word) (h : s.ctx.scbmode ≠ 1) :
    (s.ws l d v).ctx = { s.ctx with s := regsAfter s.ctx.s d v, pend := (s.ws l d v).ctx.pend } := by
  unfold State.ws
  split
  · rename_i e; simp [regsAfter, e]
  · rename_i e
    unfold regsAfter pendWrite
    rw [if_neg e, State.ctx_modCtx]
    dsimp only
    rw [if_neg h]

/-- An interlocked write leaves the value in the register (03 R64). -/
theorem State.ctx_wi (s : State) (d : BitVec 6) (v : Word) :
    (s.wi d v).ctx = { s.ctx with s := regsAfter s.ctx.s d v, pend := (s.wi d v).ctx.pend } := by
  unfold State.wi
  split
  · rename_i e; simp [regsAfter, e]
  · rename_i e
    unfold regsAfter
    rw [if_neg e, State.ctx_modCtx]

@[simp] theorem State.ctx_orFlags (s : State) (f : BitVec 5) :
    (s.orFlags f).ctx = { s.ctx with fcsr := s.ctx.fcsr ||| f.setWidth 9 } := by simp [State.orFlags]

/-! ### Issue -/

/-- The executing context when its instruction's own part runs, outside a region. -/
theorem State.ctx_atIssue (s : State) (srcs : List (BitVec 6)) (h : s.inRegion = false) :
    (s.atIssue srcs).ctx = { s.ctx with sinceHop := s.ctx.sinceHop + 1, midWait := none } := by
  have : s.ctx.region.isSome = false := h
  simp [State.atIssue, State.ctx_countIssue, this]

theorem State.onlyContext_atIssue (s : State) (srcs : List (BitVec 6)) : s.onlyContext (s.atIssue srcs) :=
  State.onlyContext_trans (State.onlyContext_advanceTo s _) (State.onlyContext_countIssue _ _)

@[simp] theorem State.cycle_atIssue (s : State) (srcs : List (BitVec 6)) :
    (s.atIssue srcs).cycle = max s.cycle (s.issueCycle srcs) := by
  simp [State.atIssue, State.cycle_advanceTo]

@[simp] theorem State.reg_atIssue (s : State) (srcs : List (BitVec 6)) (h : s.inRegion = false) (r : BitVec 6) :
    (s.atIssue srcs).reg r = s.reg r := State.reg_of_ctx (by rw [State.ctx_atIssue s srcs h]) r

theorem foldl_max_le (f : BitVec 6 → Nat) (srcs : List (BitVec 6)) (c : Nat) :
    c ≤ srcs.foldl (fun m r => if r = 0 then m else max m (f r)) c := by
  induction srcs generalizing c with
  | nil => exact Nat.le_refl c
  | cons r rs ih =>
    refine Nat.le_trans ?_ (ih _)
    dsimp only
    split <;> omega

/-- The cycle of issue is not before the present one, nor before STALL has run out (03 R61). -/
theorem State.issueCycle_ge (s : State) (srcs : List (BitVec 6)) : max s.cycle s.ctx.nextIssue ≤ s.issueCycle srcs := by
  unfold State.issueCycle
  dsimp only
  split
  · exact foldl_max_le _ _ _
  · exact Nat.le_refl _

theorem State.allSources_eq (ctl : SCtl) (m : Meta) :
    allSources ctl m = (ctl.guard.map (fun g => g.greg)).toList ++ m.srcs := by
  unfold allSources
  cases ctl.guard <;> rfl

/-- An instruction that executes meets no underflow (03 R62). -/
theorem State.underflow_none (s : State) (ctl : SCtl) (m : Meta) (hr : s.inRegion = false)
    (h : s.noUnderflow ((ctl.guard.map (fun g => g.greg)).toList ++ m.srcs) m.dst m.lam) :
    (s.atIssue (allSources ctl m)).underflow (allSources ctl m) m.dst m.lam = none := by
  unfold State.underflow
  rw [State.ctx_atIssue s _ hr]
  dsimp only
  split
  · rename_i hm
    have hc : (s.atIssue (allSources ctl m)).cycle = max s.cycle s.ctx.nextIssue := by
      have : s.ctx.scbmode ≠ 0 := by rw [hm]; decide
      rw [State.cycle_atIssue]
      unfold State.issueCycle
      dsimp only
      rw [if_neg this]
      omega
    obtain ⟨hs, hd⟩ := h hm
    rw [← State.allSources_eq] at hs
    have h1 : (allSources ctl m).find?
        (fun r => r != 0 && decide ((s.atIssue (allSources ctl m)).cycle < readyAt r s.ctx.pend)) = none := by
      rw [List.find?_eq_none]
      intro r hrm
      rw [hc]
      by_cases h0 : r = 0
      · simp [h0]
      · have := hs r hrm h0
        simp; omega
    rw [h1]
    dsimp only
    split
    · rename_i d hdst
      rw [hc]
      by_cases h0 : d = 0
      · simp [h0]
      · by_cases hl : m.lam = 0
        · simp [hl]
        · have := hd d hdst h0 hl
          rw [if_neg]
          simp [hl]; omega
    · rfl
  · rfl

theorem State.inRegion_atIssue (s : State) (srcs : List (BitVec 6)) (h : s.inRegion = false) :
    (s.atIssue srcs).inRegion = false := by
  have : s.ctx.region.isSome = false := h
  simp [State.inRegion, State.ctx_atIssue s srcs h, this]

theorem State.inHandler_of_cur {s t : State} (h : t.cur = s.cur) : t.inHandler = s.inHandler := by
  simp [State.inHandler, h]

@[simp] theorem State.cur_atIssue (s : State) (srcs : List (BitVec 6)) : (s.atIssue srcs).cur = s.cur := by
  simp [State.atIssue]

/-- The attempt of an instruction that executes is its own part, with no tags to set (03 R56, R59, R60). -/
theorem State.attempt_executes (s : State) (i : Instr) (ctl : SCtl) (m : Meta) (body : State → Effect)
    (h : s.executes ctl m.srcs m.dst m.lam) (hp : s.ctx.mode.allows m.priv = true)
    (hh : m.handler = true ∨ s.inHandler = false) :
    (s.atIssue (allSources ctl m)).attempt i ctl m body =
      match m.tagging with
      | .own => body (s.atIssue (allSources ctl m))
      | .auto =>
        match body (s.atIssue (allSources ctl m)) with
        | .next t => .next (t.modCtx (fun x => x.autoTag m.srcs m.dst))
        | .jump t pc => .jump (t.modCtx (fun x => x.autoTag m.srcs m.dst)) pc
        | e => e := by
  obtain ⟨hr, ht, hg, hu⟩ := h
  have hreg := State.inRegion_atIssue s (allSources ctl m) hr
  have hguarded : (s.atIssue (allSources ctl m)).guarded i m body =
      match m.tagging with
      | .own => body (s.atIssue (allSources ctl m))
      | .auto =>
        match body (s.atIssue (allSources ctl m)) with
        | .next t => .next (t.modCtx (fun x => x.autoTag m.srcs m.dst))
        | .jump t pc => .jump (t.modCtx (fun x => x.autoTag m.srcs m.dst)) pc
        | e => e := by
    unfold State.guarded
    rw [if_neg]
    · rw [hreg]
      cases m.forbid <;> rfl
    · rw [State.inHandler_of_cur (State.cur_atIssue s _)]
      rcases hh with hh | hh <;> simp [hh]
  unfold State.attempt
  rw [State.underflow_none s ctl m hr hu]
  have hm : (s.atIssue (allSources ctl m)).ctx.mode = s.ctx.mode := by rw [State.ctx_atIssue s _ hr]
  rw [hm, hp]
  dsimp only [Bool.not_true]
  rw [if_neg (by decide)]
  unfold State.underGuard
  cases hgd : ctl.guard with
  | none => exact hguarded
  | some g =>
    have hrg : (s.atIssue (allSources ctl m)).ctx.region = none := by
      have : s.ctx.region.isSome = false := hr
      rw [State.ctx_atIssue s _ hr]
      simpa using this
    have hb : (s.atIssue (allSources ctl m)).ctx.scbmode ≠ 1 := by rw [State.ctx_atIssue s _ hr]; exact ht
    dsimp only
    rw [hrg]
    dsimp only
    have hgh : (s.atIssue (allSources ctl m)).guardHolds g = true := by
      unfold State.guardHolds
      rw [State.rs_eq_reg _ _ hb, State.reg_atIssue s _ hr]
      exact hg g hgd
    rw [hgh]
    exact hguarded

/-- Any instruction but AEND counts. -/
theorem State.counted_true (s : State) (i : Instr) (ctl : SCtl) (hi : ∀ f, i ≠ .aend f) : s.counted i ctl = true := by
  unfold State.counted
  split
  · exact absurd rfl (hi _)
  · rfl

/-- Any instruction but AEND that executes answers the end of its own part (03 R60). -/
theorem State.issue_executes (s : State) (i : Instr) (ctl : SCtl) (m : Meta) (body : State → Effect)
    (hi : ∀ f, i ≠ .aend f) (h : s.executes ctl m.srcs m.dst m.lam) (hp : s.ctx.mode.allows m.priv = true)
    (hh : m.handler = true ∨ s.inHandler = false) :
    s.issue i ctl m body = .next ((match m.tagging with
      | .own => body (s.atIssue (allSources ctl m))
      | .auto =>
        match body (s.atIssue (allSources ctl m)) with
        | .next t => .next (t.modCtx (fun x => x.autoTag m.srcs m.dst))
        | .jump t pc => .jump (t.modCtx (fun x => x.autoTag m.srcs m.dst)) pc
        | e => e).finish ctl.stall) := by
  rw [← State.attempt_executes s i ctl m body h hp hh]
  unfold State.issue
  rw [State.counted_true s i ctl hi]
  rfl

/-- An instruction whose own part completes, and that opens no region, answers that part's state with pc + 8. -/
theorem State.issue_next (s : State) (i : Instr) (ctl : SCtl) (m : Meta) (body : State → Effect) (u : State)
    (hi : ∀ f, i ≠ .aend f) (h : s.executes ctl m.srcs m.dst m.lam) (hp : s.ctx.mode.allows m.priv = true)
    (hh : m.handler = true ∨ s.inHandler = false) (hb : body (s.atIssue (allSources ctl m)) = .next u)
    (hu : m.tagging = .own ∨ u.inRegion = false) :
    s.issue i ctl m body = .next ((u.modCtx (fun x => { x with pc := x.pc + 8 })).retire ctl.stall) := by
  rw [State.issue_executes s i ctl m body hi h hp hh, hb]
  cases ht : m.tagging with
  | own => rfl
  | auto =>
    have hr : u.ctx.region = none := by
      rcases hu with hu | hu
      · rw [ht] at hu; exact absurd hu (by decide)
      · simpa [State.inRegion] using hu
    dsimp only [Effect.finish]
    rw [State.modCtx_same u]
    unfold Ctx.autoTag
    rw [hr]

/-- What an instruction that completes with the state `u` leaves: `u`'s context with the pc past it. -/
theorem State.ctx_finish_next (u : State) (n : BitVec 3) :
    ((u.modCtx (fun x => { x with pc := x.pc + 8 })).retire n).ctx =
      { u.ctx with pc := u.ctx.pc + 8, nextIssue := u.cycle + 1 + n.toNat, waitFrom := u.cycle + 1 + n.toNat } := by
  rw [State.ctx_retire, State.ctx_modCtx]
  simp

theorem State.onlyContext_finish_next (u : State) (n : BitVec 3) :
    u.onlyContext ((u.modCtx (fun x => { x with pc := x.pc + 8 })).retire n) :=
  State.onlyContext_trans (State.onlyContext_modCtx u _) (State.onlyContext_retire _ _)

/-! ### Before a trap: the vector instructions complete and the results become ready -/

/-- Admitting the instruction at the head of a vector queue changes the queue and the walks. -/
theorem Core.takeHead_frame (k : Core) : k.takeHead = { k with vqueue := k.takeHead.vqueue, walks := k.takeHead.walks } := by
  unfold Core.takeHead
  split <;> rfl

/-- Admitting the oldest queued vector instruction changes only the vector queue. -/
theorem State.admitOne_frame (s : State) (c : CoreId) : s.onlyContext (s.admitOne c) ∧
    ∀ d x, (s.admitOne c).ctxAt d x = s.ctxAt d x := by
  have hk : ∀ k : Core, k.takeHead.ctxs = k.ctxs ∧ k.takeHead.inv = k.inv := fun k => by
    rw [Core.takeHead_frame]; exact ⟨rfl, rfl⟩
  refine ⟨State.onlyContext_modCore _ _ _ (fun k => ⟨?_, by rw [(hk k).2]⟩) (fun k => (hk k).1), fun d x =>
    State.ctxAt_modCore s c d x _ (fun k => (hk k).1)⟩
  rw [Core.takeHead_frame]

/-- Admitting queued vector instructions changes the queue and the walks. -/
theorem Core.admitAll_frame (x : CoreId × CtxId) (n : Nat) (k : Core) :
    Core.admitAll x n k = { k with vqueue := (Core.admitAll x n k).vqueue, walks := (Core.admitAll x n k).walks } := by
  induction n generalizing k with
  | zero => rfl
  | succ n ih =>
    unfold Core.admitAll
    split
    · rw [ih k.takeHead, Core.takeHead_frame k]
    · rfl

/-- Waiting for the vector instructions changes only the vector queues and the clock (07 R156). -/
theorem State.drainVector_frame (s : State) : s.onlyContext s.drainVector ∧ ∀ d y, s.drainVector.ctxAt d y = s.ctxAt d y := by
  have hk : ∀ k : Core, (k.drained s.cur).ctxs = k.ctxs ∧ (k.drained s.cur).inv = k.inv := fun k => by
    unfold Core.drained; rw [Core.admitAll_frame]; exact ⟨rfl, rfl⟩
  unfold State.drainVector
  dsimp only
  refine ⟨State.onlyContext_trans (State.onlyContext_modCore _ _ _ (fun k => ⟨?_, by rw [(hk k).2]⟩) (fun k => (hk k).1))
    (State.onlyContext_advanceTo _ _), fun d y => ?_⟩
  · unfold Core.drained; rw [Core.admitAll_frame]
  · rw [State.ctxAt_advanceTo]; exact State.ctxAt_modCore s _ d y _ (fun k => (hk k).1)

theorem State.ctx_drainVector (s : State) : s.drainVector.ctx = s.ctx := by
  unfold State.ctx
  rw [State.onlyContext_cur s.drainVector_frame.1]
  exact s.drainVector_frame.2 _ _

theorem State.runDie_of (s t : State) (h : s.onlyContext t) (g : t.ctx.hopped = s.ctx.hopped) : t.runDie = s.runDie := by
  unfold State.runDie State.runCore
  rw [g, State.onlyContext_cur h]

theorem State.dieAt_of (s t : State) (h : s.onlyContext t) (d : DieId) : t.dieAt d = s.dieAt d := by
  rw [h.1]; rfl

end Sys2Proof.Machine
end

