-- ==== Sys2Proof/Laws/Memory.lean ====
section
/-! SUPPORT. The memories as sorted lists: every operation keeps the canonical form, and reads see what was written. -/
namespace Sys2Proof.Machine
open Sys2Proof

/-! ### The canonical form -/

theorem cellsAbove_mono {m : List Host.Cell} {lo hi : Nat} (h : cellsAbove hi m = true) (g : lo ≤ hi) : cellsAbove lo m = true := by
  cases m with
  | nil => rfl
  | cons c m =>
    simp only [cellsAbove, Bool.and_eq_true, decide_eq_true_eq] at *
    exact ⟨⟨Nat.le_trans g h.1.1, h.1.2⟩, h.2⟩

/-- Nothing is listed below the bound. -/
theorem readByte_below {m : List Host.Cell} {lo x : Nat} (h : cellsAbove lo m = true) (g : x < lo) : readByte m x = 0 := by
  cases m with
  | nil => rfl
  | cons c m =>
    simp only [cellsAbove, Bool.and_eq_true, decide_eq_true_eq] at h
    unfold readByte
    rw [if_neg (by omega), if_pos (by omega)]

theorem cellsAbove_consCell {m : List Host.Cell} {lo a : Nat} (b : Byte) (h : cellsAbove (a + 1) m = true) (g : lo ≤ a) :
    cellsAbove lo (consCell a b m) = true := by
  unfold consCell
  split
  · exact cellsAbove_mono h (by omega)
  · rename_i e
    simp only [cellsAbove, Bool.and_eq_true, decide_eq_true_eq, bne_iff_ne]
    exact ⟨⟨g, e⟩, h⟩

theorem cellsAbove_writeByte {m : List Host.Cell} {lo : Nat} (x : Nat) (v : Byte) (h : cellsAbove lo m = true) (g : lo ≤ x) :
    cellsAbove lo (writeByte m x v) = true := by
  induction m generalizing lo with
  | nil => exact cellsAbove_consCell v rfl g
  | cons c m ih =>
    have h' := h
    simp only [cellsAbove, Bool.and_eq_true, decide_eq_true_eq] at h'
    unfold writeByte
    split
    · rename_i e; subst e; exact cellsAbove_consCell v h'.2 g
    · split
      · rename_i e1 e2
        refine cellsAbove_consCell v ?_ g
        simp only [cellsAbove, Bool.and_eq_true, decide_eq_true_eq]
        exact ⟨⟨e2, h'.1.2⟩, h'.2⟩
      · simp only [cellsAbove, Bool.and_eq_true, decide_eq_true_eq]
        exact ⟨h'.1, ih h'.2 (by omega)⟩

/-- Writing a byte keeps the canonical form. -/
theorem memoryWf_writeByte {m : List Host.Cell} (x : Nat) (v : Byte) (h : memoryWf m = true) : memoryWf (writeByte m x v) = true :=
  cellsAbove_writeByte x v h (Nat.zero_le x)

/-- Writing bytes keeps the canonical form. -/
theorem memoryWf_writeN {m : List Host.Cell} (a n v : Nat) (h : memoryWf m = true) : memoryWf (writeN m a n v) = true := by
  induction n generalizing m a v with
  | zero => exact h
  | succ n ih => exact ih _ _ (memoryWf_writeByte a _ h)

/-- Writing the masked bytes keeps the canonical form. -/
theorem memoryWf_writeMasked {m : List Host.Cell} (a n mask v : Nat) (h : memoryWf m = true) :
    memoryWf (writeMasked m a n mask v) = true := by
  induction n generalizing m a mask v with
  | zero => exact h
  | succ n ih =>
    unfold writeMasked
    split
    · exact ih _ _ _ (memoryWf_writeByte a _ h)
    · exact ih _ _ _ h

/-- Writing a list of cells keeps the canonical form. -/
theorem memoryWf_foldl_writeByte {α : Type} (f : α → Nat) (g : α → Byte) (l : List α) {m : List Host.Cell} (h : memoryWf m = true) :
    memoryWf (l.foldl (fun t c => writeByte t (f c) (g c)) m) = true := by
  induction l generalizing m with
  | nil => exact h
  | cons c l ih => exact ih (memoryWf_writeByte _ _ h)

theorem cellsAbove_filter {m : List Host.Cell} {lo : Nat} (p : Host.Cell → Bool) (h : cellsAbove lo m = true) :
    cellsAbove lo (m.filter p) = true := by
  induction m generalizing lo with
  | nil => rfl
  | cons c m ih =>
    simp only [cellsAbove, Bool.and_eq_true, decide_eq_true_eq] at h
    rw [List.filter_cons]
    split
    · simp only [cellsAbove, Bool.and_eq_true, decide_eq_true_eq]
      exact ⟨h.1, ih h.2⟩
    · exact cellsAbove_mono (ih h.2) (by omega)

/-- Leaving cells out keeps the canonical form. -/
theorem memoryWf_filter {m : List Host.Cell} (p : Host.Cell → Bool) (h : memoryWf m = true) : memoryWf (m.filter p) = true :=
  cellsAbove_filter p h

/-- Moving the cells makes a canonical memory. -/
theorem memoryWf_moveCells (f : Nat → Nat) (m : List Host.Cell) : memoryWf (moveCells f m) = true :=
  memoryWf_foldl_writeByte (fun c : Host.Cell => f c.1) (fun c => c.2) m rfl

/-- A change of map leaves a canonical local memory. -/
theorem memoryWf_movedLocal (s : State) (core : CoreId → CoreId) : memoryWf (s.movedLocal core) = true :=
  memoryWf_foldl_writeByte (fun c : Host.Cell => c.1) (fun c => c.2) _ (memoryWf_filter _ (memoryWf_moveCells _ _))

/-- Copying a range keeps the canonical form of the memory written. -/
theorem memoryWf_copyRange (src : List Host.Cell) {dst : List Host.Cell} (a b n : Nat) (h : memoryWf dst = true) :
    memoryWf (copyRange src dst a b n) = true :=
  memoryWf_foldl_writeByte (fun c : Host.Cell => c.1) (fun c => c.2) _ (memoryWf_filter _ h)

/-! ### Reads after writes -/

theorem readByte_consCell {m : List Host.Cell} {a : Nat} (b : Byte) (y : Nat) (h : cellsAbove (a + 1) m = true) :
    readByte (consCell a b m) y = if y = a then b else if y < a then 0 else readByte m y := by
  unfold consCell
  split
  · rename_i e
    split
    · rename_i g; rw [readByte_below h (by omega), e]
    · split
      · exact readByte_below h (by omega)
      · rfl
  · rfl

theorem readByte_writeByte_above {m : List Host.Cell} {lo : Nat} (x y : Nat) (v : Byte) (h : cellsAbove lo m = true) :
    readByte (writeByte m x v) y = if y = x then v else readByte m y := by
  induction m generalizing lo with
  | nil =>
    unfold writeByte
    rw [readByte_consCell v y rfl]
    simp [readByte]
  | cons c m ih =>
    simp only [cellsAbove, Bool.and_eq_true, decide_eq_true_eq] at h
    obtain ⟨a, b⟩ := c
    have h2 : cellsAbove (a + 1) m = true := h.2
    unfold writeByte
    split
    · rename_i e; subst e
      rw [readByte_consCell v y h.2]
      by_cases e : y = x <;> simp [readByte, e]
    · split
      · rename_i e1 e2
        have hc : cellsAbove (x + 1) ((a, b) :: m) = true := by
          simp only [cellsAbove, Bool.and_eq_true, decide_eq_true_eq]
          exact ⟨⟨e2, h.1.2⟩, h.2⟩
        rw [readByte_consCell v y hc]
        by_cases e : y = x
        · simp [e]
        · rw [if_neg e, if_neg e]
          split
          · rename_i g
            exact (readByte_below hc (by omega)).symm
          · rfl
      · rename_i e1 e2
        have := ih h2
        by_cases e : y = a
        · subst e; simp [readByte, Ne.symm e1]
        · by_cases g : y < a
          · have : y ≠ x := by omega
            simp [readByte, e, g, this]
          · simp only [readByte, if_neg e, if_neg g]; exact this

/-- A byte reads as it was last written, and another byte is left alone. -/
theorem readByte_writeByte {m : List Host.Cell} (x y : Nat) (v : Byte) (h : memoryWf m = true) :
    readByte (writeByte m x v) y = if y = x then v else readByte m y := readByte_writeByte_above x y v h

/-- Each of the bytes written reads as its part of the number, and another byte is left alone. -/
theorem readByte_writeN {m : List Host.Cell} (a n v y : Nat) (h : memoryWf m = true) :
    readByte (writeN m a n v) y = if a ≤ y ∧ y < a + n then BitVec.ofNat 8 (v / 256 ^ (y - a)) else readByte m y := by
  induction n generalizing m a v with
  | zero => rw [if_neg (by omega)]; rfl
  | succ n ih =>
    unfold writeN
    rw [ih _ _ (memoryWf_writeByte _ _ h), readByte_writeByte _ _ _ h]
    by_cases e : y = a
    · subst e
      rw [if_neg (by omega), if_pos rfl, if_pos (by omega)]
      simp
    · by_cases g : a ≤ y ∧ y < a + (n + 1)
      · rw [if_pos (by omega), if_pos g]
        have : y - a = (y - (a + 1)) + 1 := by omega
        rw [this, Nat.pow_succ, Nat.mul_comm, ← Nat.div_div_eq_div_mul]
      · rw [if_neg (by omega), if_neg e, if_neg g]

/-- Each masked byte reads as its part of the number, and another byte is left alone. -/
theorem readByte_writeMasked {m : List Host.Cell} (a n mask v y : Nat) (h : memoryWf m = true) :
    readByte (writeMasked m a n mask v) y =
      if a ≤ y ∧ y < a + n ∧ mask.testBit (y - a) = true then BitVec.ofNat 8 (v / 256 ^ (y - a)) else readByte m y := by
  induction n generalizing m a mask v with
  | zero => rw [if_neg (by omega)]; rfl
  | succ n ih =>
    have hw : memoryWf (if mask % 2 == 1 then writeByte m a (BitVec.ofNat 8 v) else m) = true := by
      split
      · exact memoryWf_writeByte _ _ h
      · exact h
    have hr : readByte (if mask % 2 == 1 then writeByte m a (BitVec.ofNat 8 v) else m) y =
        if y = a ∧ mask.testBit 0 = true then BitVec.ofNat 8 v else readByte m y := by
      rw [Nat.testBit_zero]
      by_cases e : mask % 2 = 1
      · simp only [e, beq_self_eq_true, if_true]
        rw [readByte_writeByte _ _ _ h]
        simp
      · simp [e]
    unfold writeMasked
    rw [ih _ _ _ hw, hr]
    by_cases e : y = a
    · subst e
      rw [if_neg (by omega)]
      simp
    · by_cases g : a + 1 ≤ y
      · have hy : y - a = (y - (a + 1)) + 1 := by omega
        have ht : (mask / 2).testBit (y - (a + 1)) = mask.testBit (y - a) := by
          rw [hy, Nat.testBit_succ]
        have hv : v / 256 / 256 ^ (y - (a + 1)) = v / 256 ^ (y - a) := by
          rw [hy, Nat.pow_succ, Nat.mul_comm (256 ^ _) 256, ← Nat.div_div_eq_div_mul]
        rw [ht, hv]
        simp only [e, false_and, if_false]
        congr 1
        exact propext ⟨fun ⟨_, p, q⟩ => ⟨by omega, by omega, q⟩, fun ⟨_, p, q⟩ => ⟨g, by omega, q⟩⟩
      · rw [if_neg (by omega), if_neg (by simp [e]), if_neg (by omega)]

theorem readN_lt (m : List Host.Cell) (a n : Nat) : readN m a n < 256 ^ n := by
  induction n generalizing a with
  | zero => simp [readN]
  | succ n ih =>
    have := ih (a + 1)
    have := (readByte m a).isLt
    unfold readN
    rw [Nat.pow_succ]
    omega

/-- Two memories that agree on the bytes agree on the number. -/
theorem readN_congr {m m' : List Host.Cell} {a n : Nat} (h : ∀ j < n, readByte m (a + j) = readByte m' (a + j)) :
    readN m a n = readN m' a n := by
  induction n generalizing a with
  | zero => rfl
  | succ n ih =>
    unfold readN
    rw [show readByte m a = readByte m' a from h 0 (by omega),
      ih (fun j hj => by have := h (j + 1) (by omega); rwa [show a + (j + 1) = a + 1 + j by omega] at this)]

/-- The number of bytes that are those of `v` is the low part of `v`. -/
theorem readN_of_bytes {m : List Host.Cell} {a n v : Nat} (h : ∀ j < n, readByte m (a + j) = BitVec.ofNat 8 (v / 256 ^ j)) :
    readN m a n = v % 256 ^ n := by
  induction n generalizing a v with
  | zero => simp [readN, Nat.mod_one]
  | succ n ih =>
    have h0 := h 0 (by omega)
    have hs : readN m (a + 1) n = v / 256 % 256 ^ n := ih (fun j hj => by
      have := h (j + 1) (by omega)
      rw [show a + (j + 1) = a + 1 + j by omega, Nat.pow_succ, Nat.mul_comm, ← Nat.div_div_eq_div_mul] at this
      exact this)
    have h1 : readByte m a = BitVec.ofNat 8 v := by simpa using h0
    unfold readN
    rw [hs, h1, BitVec.toNat_ofNat, Nat.pow_succ 256 n, Nat.mul_comm (256 ^ n) 256, Nat.mod_mul]

/-- A word reads as it was last written. -/
theorem readN_writeN_same {m : List Host.Cell} (a n v : Nat) (h : memoryWf m = true) : readN (writeN m a n v) a n = v % 256 ^ n :=
  readN_of_bytes fun j hj => by
    rw [readByte_writeN _ _ _ _ h, if_pos (by omega), Nat.add_sub_cancel_left]

/-- A word apart from those written is left alone. -/
theorem readN_writeN_apart {m : List Host.Cell} (a n v b k : Nat) (h : memoryWf m = true) (g : b + k ≤ a ∨ a + n ≤ b) :
    readN (writeN m a n v) b k = readN m b k :=
  readN_congr fun j hj => by
    rw [readByte_writeN _ _ _ _ h, if_neg (by omega)]

/-- Canonical memories that read alike are the same list. -/
theorem memory_ext_above {m m' : List Host.Cell} {lo : Nat} (h : cellsAbove lo m = true) (h' : cellsAbove lo m' = true)
    (e : ∀ x, readByte m x = readByte m' x) : m = m' := by
  induction m generalizing m' lo with
  | nil =>
    cases m' with
    | nil => rfl
    | cons c m' =>
      simp only [cellsAbove, Bool.and_eq_true, bne_iff_ne] at h'
      have := e c.1
      simp [readByte] at this
      exact absurd this.symm h'.1.2
  | cons c m ih =>
    cases m' with
    | nil =>
      simp only [cellsAbove, Bool.and_eq_true, bne_iff_ne] at h
      have := e c.1
      simp [readByte] at this
      exact absurd this h.1.2
    | cons c' m' =>
      obtain ⟨a, b⟩ := c
      obtain ⟨a', b'⟩ := c'
      simp only [cellsAbove, Bool.and_eq_true, decide_eq_true_eq, bne_iff_ne] at h h'
      have ha : a = a' := by
        rcases Nat.lt_trichotomy a a' with g | g | g
        · have := e a
          rw [readByte, if_pos rfl, readByte, if_neg (by omega), if_pos g] at this
          exact absurd this h.1.2
        · exact g
        · have := e a'
          rw [readByte, if_neg (by omega), if_pos g, readByte, if_pos rfl] at this
          exact absurd this.symm h'.1.2
      subst ha
      have hb : b = b' := by
        have := e a
        simpa [readByte] using this
      subst hb
      have : m = m' := ih h.2 h'.2 (fun x => by
        by_cases g : x < a + 1
        · rw [readByte_below h.2 g, readByte_below h'.2 g]
        · have := e x
          rwa [readByte, if_neg (by omega), if_neg (by omega), readByte, if_neg (by omega), if_neg (by omega)] at this)
      rw [this]

/-- Canonical memories that read alike are the same list. -/
theorem memory_ext {m m' : List Host.Cell} (h : memoryWf m = true) (h' : memoryWf m' = true)
    (e : ∀ x, readByte m x = readByte m' x) : m = m' := memory_ext_above h h' e

end Sys2Proof.Machine
end

