-- ==== Sys2Proof/Laws/Scalar.lean ====
section
/-! SUPPORT. What the shared scalar operations leave: an instruction whose own part writes one register completes with that
register written and nothing else changed. -/
namespace Sys2Proof.Machine
open Sys2Proof

theorem Ctx.onlyScalars_refl (x : Ctx) : x.onlyScalars x := rfl

theorem Ctx.onlyScalars_trans {x y z : Ctx} (a : x.onlyScalars y) (b : y.onlyScalars z) : x.onlyScalars z := by
  unfold Ctx.onlyScalars at *
  rw [b, a]

/-- A tag set outside a region changes nothing. -/
theorem Ctx.setTag_none (x : Ctx) (d : BitVec 6) (t : Tag) (h : x.region = none) : x.setTag d t = x := by
  unfold Ctx.setTag; rw [h]

theorem State.region_none {s : State} (h : s.inRegion = false) : s.ctx.region = none := by
  simpa [State.inRegion] using h

/-- A tag set outside a region leaves the state as it is. -/
theorem State.modCtx_setTag (s : State) (d : BitVec 6) (t : Tag) (h : s.ctx.region = none) :
    s.modCtx (fun x => x.setTag d t) = s := State.modCtx_same s _ (Ctx.setTag_none _ d t h)

theorem State.tagOf_none (s : State) (r : BitVec 6) (h : s.ctx.region = none) : s.tagOf r = .concrete := by
  unfold State.tagOf; rw [h]

/-- Inside the own part of an instruction that executes, registers read as before issue. -/
theorem State.rs_atIssue (s : State) (srcs : List (BitVec 6)) (hr : s.inRegion = false) (ht : s.ctx.scbmode ≠ 1)
    (r : BitVec 6) : (s.atIssue srcs).rs r = s.reg r := by
  rw [State.rs_eq_reg _ _ (by rw [State.ctx_atIssue s srcs hr]; exact ht), State.reg_atIssue s srcs hr]

theorem State.ftz_atIssue (s : State) (srcs : List (BitVec 6)) (hr : s.inRegion = false) :
    (s.atIssue srcs).ftz = s.ftz := by simp [State.ftz, State.ctx_atIssue s srcs hr]

theorem State.rounding_atIssue (s : State) (srcs : List (BitVec 6)) (hr : s.inRegion = false) (rm : Nat) :
    (s.atIssue srcs).rounding rm = s.rounding rm := by
  unfold State.rounding State.frm
  rw [State.ctx_atIssue s srcs hr]

theorem State.region_atIssue (s : State) (srcs : List (BitVec 6)) (hr : s.inRegion = false) :
    (s.atIssue srcs).ctx.region = none := by
  rw [State.ctx_atIssue s srcs hr]; exact State.region_none hr

/-- An own part that answers a state which differs from the one at issue only in scalar registers, flags and the books of
issue completes as `scalarDone` says. -/
theorem State.issue_scalarDone (s : State) (i : Instr) (ctl : SCtl) (m : Meta) (body : State → Effect) (u : State)
    (d : BitVec 6) (v : Word) (fl : BitVec 9)
    (hi : ∀ f, i ≠ .aend f) (h : s.executes ctl m.srcs m.dst m.lam) (hp : s.ctx.mode.allows m.priv = true)
    (hh : m.handler = true ∨ s.inHandler = false)
    (hb : body (s.atIssue (allSources ctl m)) = .next u) (hu : (s.atIssue (allSources ctl m)).onlyContext u)
    (hc : s.ctx.onlyScalars u.ctx) (hpc : u.ctx.pc = s.ctx.pc) (hs : u.ctx.s = regsAfter s.ctx.s d v)
    (hf : u.ctx.fcsr = s.ctx.fcsr ||| fl) :
    ∃ t, s.issue i ctl m body = .next t ∧ s.scalarDone t d v fl := by
  have hreg : u.inRegion = false := by
    have : u.ctx.region = s.ctx.region := by rw [hc]
    simpa [State.inRegion, this] using State.region_none h.1
  refine ⟨_, State.issue_next s i ctl m body u hi h hp hh hb (.inr hreg), ?_⟩
  have ho := State.onlyContext_trans (State.onlyContext_trans (State.onlyContext_atIssue s _) hu)
    (State.onlyContext_finish_next u ctl.stall)
  have hx := State.ctx_finish_next u ctl.stall
  refine ⟨ho, State.onlyContext_bytes ho, ?_, ?_, ?_, ?_⟩
  · refine Ctx.onlyScalars_trans hc ?_
    unfold Ctx.onlyScalars
    rw [hx]
  · rw [hx]; simp [hpc]
  · rw [hx]; exact hs
  · rw [hx]; exact hf

/-- An own part that writes one register with a fixed latency and raises flags. -/
theorem State.issue_ws (s : State) (i : Instr) (ctl : SCtl) (m : Meta) (body : State → Effect)
    (l : Nat) (d : BitVec 6) (v : Word) (fl : BitVec 5)
    (hi : ∀ f, i ≠ .aend f) (h : s.executes ctl m.srcs m.dst m.lam) (hp : s.ctx.mode.allows m.priv = true)
    (hh : m.handler = true ∨ s.inHandler = false)
    (hb : body (s.atIssue (allSources ctl m)) = .next (((s.atIssue (allSources ctl m)).ws l d v).orFlags fl)) :
    ∃ t, s.issue i ctl m body = .next t ∧ s.scalarDone t d v (fl.setWidth 9) := by
  have ht : (s.atIssue (allSources ctl m)).ctx.scbmode ≠ 1 := by rw [State.ctx_atIssue s _ h.1]; exact h.2.1
  refine State.issue_scalarDone s i ctl m body _ d v _ hi h hp hh hb
    (State.onlyContext_trans (State.onlyContext_ws _ l d v) (State.onlyContext_orFlags _ fl)) ?_ ?_ ?_ ?_ <;>
  rw [State.ctx_orFlags, State.ctx_ws _ l d v ht, State.ctx_atIssue s _ h.1]
  rfl

/-- An own part that writes one interlocked register and raises flags. -/
theorem State.issue_wi (s : State) (i : Instr) (ctl : SCtl) (m : Meta) (body : State → Effect)
    (d : BitVec 6) (v : Word) (fl : BitVec 5)
    (hi : ∀ f, i ≠ .aend f) (h : s.executes ctl m.srcs m.dst m.lam) (hp : s.ctx.mode.allows m.priv = true)
    (hh : m.handler = true ∨ s.inHandler = false)
    (hb : body (s.atIssue (allSources ctl m)) = .next (((s.atIssue (allSources ctl m)).wi d v).orFlags fl)) :
    ∃ t, s.issue i ctl m body = .next t ∧ s.scalarDone t d v (fl.setWidth 9) := by
  refine State.issue_scalarDone s i ctl m body _ d v _ hi h hp hh hb
    (State.onlyContext_trans (State.onlyContext_wi _ d v) (State.onlyContext_orFlags _ fl)) ?_ ?_ ?_ ?_ <;>
  rw [State.ctx_orFlags, State.ctx_wi, State.ctx_atIssue s _ h.1]
  rfl

/-- Raising no flag changes nothing. -/
theorem State.orFlags_zero (s : State) : s.orFlags 0 = s := by
  refine State.modCtx_same s _ ?_
  simp

end Sys2Proof.Machine
end

