-- ==== Sys2Proof/Tests/Slice0.lean ====
section
/-! SUPPORT. Tests: ill-formed words are refused, words of the spec decode to what they stand for, small steps have the
effect that the spec's text gives them, and every statement's hypotheses are met by a concrete state. -/
namespace Sys2Proof.Tests
open Sys2Proof Sys2Proof.Machine Sys2Proof.Claims
set_option Elab.async false

/-! ### Small states -/

/-- Context 0 of core 0 live in firmware mode, with a change of its registers. -/
def plain (f : Ctx → Ctx) : State := (State.reset.withFetchWord 64 0).modCtx f

/-- Set scalar registers. -/
def regs (l : List (Nat × Nat)) (x : Ctx) : Ctx := { x with s := l.foldl (fun v p => v.setIfInBounds p.1 (BitVec.ofNat 64 p.2)) x.s }

/-- No STALL and no guard. -/
def noG : SCtl := ⟨0, none⟩

/-- The state that an outcome answers. -/
def got : Host.Outcome State Machine.Fault Refusal → Option State
  | .next t => some t
  | _ => none

/-- Some fields of the state after an instruction. -/
def after {α : Type} (i : Instr) (s : State) (f : State → α) : Option α := (got (exec i s)).map f

/-- An unguarded instruction executes outside a region in interlock mode. -/
theorem runs {s : State} (h : s.inRegion = false ∧ s.ctx.scbmode = 0) (n : BitVec 3) (srcs : List (BitVec 6))
    (dst : Option (BitVec 6)) (lam : Nat) : s.executes ⟨n, none⟩ srcs dst lam := by
  refine ⟨h.1, by rw [h.2]; decide, fun g e => absurd e (by simp), fun e => ?_⟩
  rw [h.2] at e; exact absurd e (by decide)

/-- An open region with nothing recorded. -/
def opened (x : Ctx) : Ctx :=
  { x with
    region := some ⟨0x40, x.s, x.fcsr, Vector.replicate 64 .concrete, [], [], [], false⟩
    astate := ⟨0, 0, 0, 0, false, 0, false, false, true⟩ }

/-- A message from context 0 of core 1 in domain 7 of launch 3. -/
def someone : Sender := ⟨0, 1, 0, 7, some 3, false⟩

/-- The handler context of core 0 runs an invocation. -/
def invoked (f : Ctx → Ctx) : State :=
  let m : Message := ⟨0, 0, 0, 0, 0, 0, 0, 0⟩
  let s := State.reset.modCore 0 (fun k => { k with inv := some ⟨m, someone, 9, 0, false⟩ })
  ({ s with cur := (0, handlerCtx) }).modCtx (fun x => f { x with status := .live })

/-- Core `k` is held by launch 3 of domain 7. -/
def held (k : CoreId) (s : State) : State := s.modCore k (fun x => { x with placed := some ⟨3, 0, 10, 0, 7, [], [], true⟩ })

/-- Die 0 is the home of the grain of 32 bytes at 0x20000, and core 0 holds all rights to its page. -/
def paged (f : Ctx → Ctx) : State :=
  ((plain f).modDie 0 (fun d => d.putLine ⟨0x20000, 32, 0x5000, true, 0, false, 0, 0, 0, []⟩)).modCore 0 (fun k =>
    { k with plb := [⟨0, 2, 2, 63⟩] })

/-- Die 0 holds a copy of the grain at 0x20000, whose home is die 1, with byte 8 dirty. -/
def copied (f : Ctx → Ctx) : State :=
  ((plain f).modDie 0 (fun d => d.putLine ⟨0x20000, 32, 2 ^ 36, false, 0, false, 0xFF, 0x100, 0xAB0000000000001234, []⟩)).modCore 0 (fun k =>
    { k with plb := [⟨0, 2, 2, 63⟩] })

/-- An open region with room that has recorded nothing, in a context whose grain at 0x20000 is held at home. -/
def pagedRegion (l : List (Nat × Nat)) : State := paged (fun x => opened (regs l x))

/-- A domain table of one entry at 0x40000 gives domain 0 all rights to the pages 0 to 2; a page table of four levels at 0x10000
maps the page at 0 to the frame at 0x80000. -/
def tables (s : State) : State :=
  let t := s.modDie 0 (fun d => { d with fw := { d.fw with ptbase := 0x10000, dtbase := 0x40000, dtcnt := 1 } })
  { t with mem := [(0x10000, 0x20000 + 2 ^ 62), (0x20000, 0x28000 + 2 ^ 62), (0x28000, 0x30000 + 2 ^ 62), (0x30000, 0x80000 + 2 ^ 63),
      (0x40000, 0x50000), (0x40008, 1), (0x50000, 0x7F), (0x50008, 0x20000)].foldl (fun m p => writeN m p.1 8 p.2) t.mem }

/-- A launch record of one group of one core. -/
def oneCore : Record :=
  ⟨7, false, 0, 0x800, 0, 0, 0, 0, [⟨2, false, 6, 1, 1, 1⟩], false, 0, 0, 0, false, 0, 0, 0, 0, 0, 0, 0, 0⟩

/-- Launch 3 runs on core 0. -/
def launched (s : State) : State :=
  { s with launches := [⟨3, 3, oneCore, none, [], some 0, [⟨0, 0, 1, 1, [], .running 0, 0, [], []⟩]⟩] }

/-- The context's core holds launch 3 of domain 7. -/
def home (f : Ctx → Ctx) : State := held 0 (plain (fun x => f { x with domain := 7, launchId := 3 }))

/-- Fields of an unmasked vector instruction: STALL 0, tail and mask undisturbed. -/
def vc (ty : Nat) : VCtl := ⟨0, 15, false, false, BitVec.ofNat 5 ty, 0⟩

/-- VL `n`, all of VLCAP, and the low bits of some vector registers. -/
def vecs (n : Nat) (l : List (Nat × Nat)) (x : Ctx) : Ctx :=
  { x with vl := n, vlcap := 4096, v := l.foldl (fun v p => v.setIfInBounds p.1 (BitVec.ofNat 4096 p.2)) x.v }

/-- Lease 1 of context 0 of core 0: twelve f32 slots, its queue `q`. -/
def lease (q : List MCmd) : Lease := { Lease.fresh 1 12 0 0 3 7 with queue := q }

/-- Context 0 of core 0 of launch 3 holds a lease. -/
def leased (l : Lease) (f : Ctx → Ctx) : State :=
  (home (fun x => f { x with mlease := ⟨0, 12, 1⟩, mstat := { x.mstat with lstate := 1 } })).modDie 0 (fun d =>
    { d with firebox := { d.firebox with leases := [l] } })

/-- A value that is no error. -/
theorem ok_of {ε α : Type} {x : Except ε α} (h : x.isOk = true) : ∃ a, x = .ok a := by
  cases x with
  | ok a => exact ⟨a, rfl⟩
  | error e => exact absurd h (by simp [Except.isOk, Except.toBool])

/-- Die 0's Firebox runs the command of a lease. -/
def running (l : Lease) : State :=
  State.reset.modDie 0 (fun d => { d with firebox := { d.firebox with leases := [l], holder := some 1, stageOwner := some 1 } })

/-- A texture of `n` f32 texels of one channel at 0x20040, its descriptor at 0x20000, in a home grain at 0x5000; register 1 points to
the descriptor, and one element is active. -/
def textured (n : Nat) : State :=
  let s := ((plain (fun x => vecs 1 [(8, 0x3F400000)] (regs [(1, 0x20000)] x))).modDie 0 (fun d =>
    d.putLine ⟨0x20000, 512, 0x5000, true, 0, false, 0, 0, 0, []⟩)).modCore 0 (fun k => { k with plb := [⟨0, 2, 2, 63⟩] })
  let l := [(0x5000, 0x20040), (0x5008, n + 2 ^ 16 + 2 ^ 32), (0x5010, 4), (0x5040, 0x3F000000 + 2 ^ 32 * 0x40000000)]
  { s with mem := l.foldl (fun m p => writeN m p.1 8 p.2) s.mem }

/-- Fields of TEX, TEXG or RAYQ with `v4` to `v7` as results, operands from `v8` and `s1`. -/
def quad (ksel : Nat) : FV := ⟨{ vc 10 with ksel := BitVec.ofNat 4 ksel }, 4, 8, 0, 0, 0, 1⟩

/-- The descriptor of `textured`. -/
def texture (n : Nat) : Texture := { base := 0x20040, w := n, h := 1, d := 1, fmt := 4, au := 0, av := 0, aw := 0, brick := false, rp := 0, sp := 0 }

/-- A claim about the value of a read that succeeds. -/
theorem value_of {ε α : Type} {x : Except ε α} {p : α → Bool} (h : x.toOption.map p = some true) : ∃ a, x = .ok a ∧ p a = true := by
  cases x with
  | ok a => exact ⟨a, rfl, by simpa [Except.toOption] using h⟩
  | error e => exact absurd h (by simp [Except.toOption])

/-- A node of one leaf of one triangle, its box and the triangle around the origin, in a home grain at 0x20000. -/
def rooted : State :=
  let s := ((plain (fun x => vecs 1 [(10, 0xBF800000), (13, 0x3F800000), (15, 0x42C80000)] (regs [(1, 0x20000)] x))).modDie 0 (fun d =>
    d.putLine ⟨0x20000, 512, 0x5000, true, 0, false, 0, 0, 0, []⟩)).modCore 0 (fun k => { k with plb := [⟨0, 2, 2, 63⟩] })
  { s with mem := [(0x5000, 0xBF800000), (0x5004, 0xBF800000), (0x5008, 0xBF800000), (0x500C, 0x3F800000), (0x5010, 0x3F800000),
      (0x5014, 0x3F800000), (0x5060, 0x20080), (0x5064, 0x81000000), (0x5080, 0xBF800000), (0x5084, 0xBF800000), (0x508C, 0x3F800000),
      (0x5090, 0xBF800000), (0x509C, 0x3F800000), (0x50A4, 77)].foldl (fun m p => writeN m p.1 4 p.2) s.mem }

/-- Cores 1 and 2 are held by launch 3 of domain 7, and local memory holds values of `n` bytes at offsets of core 1. -/
def engines (l : List (Nat × Nat × Nat)) : State :=
  let s := held 2 (held 1 State.reset)
  { s with lmem := l.foldl (fun m p => writeN m (localKey 1 p.1) p.2.1 p.2.2) s.lmem }

/-- A command of `someone` for agent 4 of die 0. -/
def command (w2 w3 w4 w5 w6 w7 : Nat) : Command :=
  ⟨⟨0, 0, BitVec.ofNat 64 w2, BitVec.ofNat 64 w3, BitVec.ofNat 64 w4, BitVec.ofNat 64 w5, BitVec.ofNat 64 w6, BitVec.ofNat 64 w7⟩, someone, 0, 4, []⟩

/-- The start of the local window. -/
def lw : Nat := 0xFFF0000000000

/-- Launch 3 waits for a place for its group. -/
def waitingLaunch : Launch := ⟨3, 3, oneCore, none, [], some 0, [⟨0, 0, 1, 1, [], .unplaced, 0, [], []⟩]⟩

/-- A package whose pending store holds one launch. -/
def store (l : Launch) (s : State) : State := { s with launches := [l], nextArrival := 4 }

/-- A word placed where the next step fetches: HOP s6. -/
def hopping : State := State.reset.withFetchWord 64 0x7500000030000000

/-- A context whose pc is misaligned. -/
def skewed : State := plain (fun x => { x with pc := 0x10004 })

/-- What the next step chooses from. -/
def woken (s : State) : State := ({ s with focus := s.nextFocus } : State).wakeAll s.focus

/-- A ring 5 of core 2 with 4 slots of 256 bytes at 0x8000, `filled` of them filled. -/
def ringed (filled : Nat) (s : State) : State :=
  s.modCore 2 (fun k => { k with rings := k.rings.set 5 ⟨0x8000, 8, 2, filled, 4 - filled, 0, filled, [], 0, []⟩ })

/-! ### Issue, traps and control -/

theorem witness_IntegerResults : ∃ i s r, i.wellFormed = true ∧ integerRow s i = some r ∧ s.executes r.ctl r.srcs (some r.dst) r.lam :=
  ⟨.add ⟨noG, 5, 1, 2, 0, 6, 0⟩, plain (regs [(1, 3)]), _, by decide, rfl, runs (by decide) _ _ _ _⟩

theorem witness_BitResults : ∃ i s r, i.wellFormed = true ∧ bitRow s i = some r ∧ s.executes r.ctl r.srcs (some r.dst) r.lam :=
  ⟨.shlI ⟨noG, 0, 1, 63⟩, plain (regs [(1, 3)]), _, by decide, rfl, runs (by decide) _ _ _ _⟩

theorem witness_FloatResults : ∃ i s r, i.wellFormed = true ∧ fpRow s i = some r ∧ s.executes r.ctl r.srcs (some r.dst) r.lam :=
  ⟨.add ⟨noG, 5, 1, 2, 0, 10, 7⟩, plain (regs [(1, 0x3F800000)]), _, by decide, rfl, runs (by decide) _ _ _ _⟩

theorem witness_FloatResults_rounding : ∃ (ty e f mode a b c : Nat) (ftz : Bool) (x y z : ℚ), (ty, e, f) ∈ floatTypes ∧ mode ≤ 4 ∧
    finiteValue e f ftz a = some x ∧ finiteValue e f ftz b = some y ∧ finiteValue e f ftz c = some z :=
  ⟨10, 8, 23, 3, 0x3F800000, 0x80000001, 0x7F7FFFFF, true, _, _, _, by decide, by decide, rfl, rfl, rfl⟩

theorem witness_FloatResults_division : ∃ (ty e f a b : Nat) (x y : ℚ), (ty, e, f) ∈ floatTypes ∧ finiteValue e f true a = some x ∧
    finiteValue e f true b = some y ∧ y = 0 :=
  ⟨9, 8, 7, 0x3F80, 0x807F, _, 0, by decide, rfl, rfl, rfl⟩

theorem witness_FloatResults_conversion : ∃ (mode v t u e f : Nat) (x : ℚ), mode ≤ 4 ∧ t ≤ 7 ∧ (u, e, f) ∈ floatTypes ∧
    finiteValue e f false v = some x ∧ integerBits t ≠ integerBits 7 :=
  ⟨4, 0xC010000000000000, 1, 11, 11, 52, _, by decide, by decide, by decide, rfl, by decide⟩

theorem witness_FalseGuardSkips : ∃ i s ctl g, scalarCtl i = some ctl ∧ ctl.guard = some g ∧
    (bitAt (s.reg g.greg) g.gbit.toNat ^^ g.gn) = false ∧ s.inRegion = false ∧ readyToIssue s ∧
    s.ctx.mode.allows (leastMode i) = true :=
  ⟨.ld ⟨⟨3, some ⟨true, 1, 63⟩⟩, 5, 1, 0, 0, 3⟩, plain (regs [(1, 2 ^ 63)]), _, _, rfl, rfl, by decide, by decide, .inl (by decide), by decide⟩

theorem witness_PrivilegeTraps : ∃ (i : Instr) (s : State), s.ctx.mode.allows (leastMode i) = false ∧ s.inRegion = false ∧ s.inHandler = false :=
  ⟨.handoff ⟨noG, 0, 1, 0, 0, 0, 0⟩, plain (fun x => { x with mode := .supervisor }), by and_intros <;> decide +kernel⟩

theorem witness_RefusedInstructions_region : ∃ (i : Instr) (s : State) (code : BitVec 8), regionCode i = some code ∧
    s.inRegion = true ∧ s.inHandler = false ∧ readyToIssue s ∧ s.ctx.mode.allows (leastMode i) = true ∧
    ∀ ctl, scalarCtl i = some ctl → guardPlain s ctl :=
  ⟨.vdrain ⟨noG, 0, 0, 0, 0, 0, 0⟩, plain opened, _, rfl, by decide, by decide, .inl (by decide), by decide, fun ctl h g hg => by
    simp [scalarCtl] at h; subst h; simp [noG] at hg⟩

theorem witness_RefusedInstructions_handler : ∃ (i : Instr) (s : State), refusedInHandler i = true ∧ s.inHandler = true ∧
    ((s.coreAt s.cur.1).inv).isSome = true ∧ s.inRegion = false ∧ readyToIssue s ∧
    ∀ ctl, scalarCtl i = some ctl → s.guardOpen ctl :=
  ⟨.wfe ⟨noG, 0, 0, 0, 0, 0, 0⟩, invoked id, rfl, by decide, by decide, by decide, .inl (by decide), fun ctl h g hg => by
    simp [scalarCtl] at h; subst h; simp [noG] at hg⟩

theorem witness_TrapEntry_outside : ∃ s : State, s.inRegion = false ∧ s.inHandler = false := ⟨plain id, by decide, by decide⟩

theorem witness_TrapEntry_region : ∃ s : State, s.inRegion = true := ⟨plain opened, by decide⟩

theorem witness_TrapsAndReturns_traps : ∃ (s : State) (f : SI) (c : BitVec 8), s.inRegion = false ∧ s.inHandler = false ∧
    s.executes f.ctl [] none 0 ∧ c ≠ 0x08 := ⟨plain id, ⟨noG, 0, 0, 1⟩, 4, by decide, by decide, runs (by decide) _ _ _ _, by decide⟩

theorem witness_TrapsAndReturns_returns : ∃ (f : SR) (s : State), s.executes f.ctl [] none 0 ∧ s.inHandler = false ∧ s.ctx.mode ≠ .program :=
  ⟨⟨noG, 0, 0, 0, 0, 0, 0⟩, plain id, runs (by decide) _ _ _ _, by decide, by decide⟩

theorem witness_JumpsAndPadd_jump : ∃ (i : Instr) (s : State) (r : Jump), jumpRow s i = some r ∧ s.executes r.ctl r.srcs r.dst 1 :=
  ⟨.jr ⟨noG, 1, 1, 0⟩, plain (regs [(1, 0x80)]), _, rfl, runs (by decide) _ _ _ _⟩

theorem witness_JumpsAndPadd_misaligned : ∃ (f : SI) (s : State), s.executes f.ctl [f.sa] (some f.dst) 1 ∧ s.inHandler = false ∧
    (s.reg f.sa + f.imm.signExtend 64).toNat % 8 ≠ 0 :=
  ⟨⟨noG, 1, 1, 7⟩, plain (regs [(1, 0x80)]), runs (by decide) _ _ _ _, by decide, by decide⟩

theorem witness_JumpsAndPadd_padd : ∃ (s : State) (f : SR), s.executes f.ctl [f.sa, f.sb] (some f.dst) 1 :=
  ⟨plain (regs [(1, 2 ^ 52 - 1), (2, 1)]), ⟨noG, 3, 1, 2, 0, 6, 0⟩, runs (by decide) _ _ _ _⟩

theorem witness_VectorLengths_setvl : ∃ (f : SI) (s : State), (Instr.setvl f).wellFormed = true ∧
    s.executes f.ctl [f.sa] (some f.dst) 1 := ⟨⟨noG, 10, 4, 10⟩, plain (regs [(4, 1000)]), by decide, runs (by decide) _ _ _ _⟩

theorem witness_VectorLengths_setvlc : ∃ (f : SQ) (s : State) (a o : Nat), s.executes f.ctl [f.sa, f.sb, f.sc] (some f.dst) 0 ∧
    s.inHandler = false ∧ (s.reg f.sa).toNat ≠ 0 ∧ addressOf (s.reg f.sb) 0 8 = .ok a ∧ windowOffset a = some o :=
  ⟨⟨noG, 10, 4, 5, 6, 0, 10⟩, plain (regs [(4, 1000), (5, 0xFFF000005FFF8)]), 0xFFF000005FFF8, 0x5FFF8, runs (by decide) _ _ _ _,
    by and_intros <;> decide +kernel⟩

theorem witness_VectorLengths_setvlc_bad : ∃ (f : SQ) (s : State) (c : BitVec 8) (v : Word),
    s.executes f.ctl [f.sa, f.sb, f.sc] (some f.dst) 0 ∧ s.inHandler = false ∧ (s.reg f.sa).toNat ≠ 0 ∧
    addressOf (s.reg f.sb) 0 8 = .error (c, v) :=
  ⟨⟨noG, 10, 4, 5, 6, 0, 10⟩, plain (regs [(4, 1000), (5, 0xFFF000005FFF4)]), 4, 0xFFF000005FFF4, runs (by decide) _ _ _ _,
    by and_intros <;> decide +kernel⟩

theorem witness_VectorLengths_reread : ∃ (c : CoreId) (x : CtxId) (s : State) (a o : Nat) (scope taken : Word),
    (s.ctxAt c x).status = .waiting (.highWater a scope taken) ∧ windowOffset a = some o :=
  ⟨0, 0, plain (fun x => { x with status := .waiting (.highWater 0xFFF000005FFF8 0 0) }), _, 0x5FFF8, 0, 0, rfl, by decide⟩

theorem witness_CsrReads : ∃ (f : SI) (s : State), (Instr.csrr f).wellFormed = true ∧ s.executes f.ctl [] (some f.dst) 2 ∧
    s.ctx.mode.allows (leastMode (.csrr f)) = true :=
  ⟨⟨noG, 10, 0, 0x104⟩, plain id, by decide, runs (by decide) _ _ _ _, by decide⟩

theorem witness_CsrWrites : ∃ (f : SI) (s : State), (Instr.csrw f).wellFormed = true ∧ s.executes f.ctl [f.sa] none 0 ∧
    s.inHandler = false ∧ s.ctx.mode.allows (leastMode (.csrw f)) = true ∧ isDescriptor s.ctx f.imm.toNat = false :=
  ⟨⟨noG, 0, 1, 0x104⟩, plain id, by decide, runs (by decide) _ _ _ _, by and_intros <;> decide +kernel⟩

theorem witness_CsrWrites_descriptor : ∃ (f : SI) (s : State), (Instr.csrw f).wellFormed = true ∧ s.executes f.ctl [f.sa] none 0 ∧
    s.inHandler = false ∧ isDescriptor s.ctx f.imm.toNat = true :=
  ⟨⟨noG, 0, 1, 0x33A⟩, plain id, by decide, runs (by decide) _ _ _ _, by decide, by decide⟩

/-- Check or trust mode with register 1 unready until cycle 9. -/
def pending (mode : Nat) (x : Ctx) : Ctx := { x with scbmode := BitVec.ofNat 2 mode, pend := [⟨1, 9, 0⟩] }

theorem witness_ScoreboardModes_check : ∃ (i : Instr) (s : State) (r : Row), (integerRow s i = some r ∨ bitRow s i = some r) ∧
    i.wellFormed = true ∧ s.inRegion = false ∧ s.inHandler = false ∧
    ¬ s.noUnderflow ((r.ctl.guard.map (fun g => g.greg)).toList ++ r.srcs) (some r.dst) r.lam :=
  ⟨.mov ⟨noG, 5, 1, 0, 0, 6, 0⟩, plain (pending 2), _, .inr rfl, by decide, by decide, by decide, fun h => by
    have := (h (by decide)).1 1 (by simp) (by decide)
    exact absurd this (by decide)⟩

theorem witness_ScoreboardModes_trust : ∃ (i : Instr) (s : State) (r : Row), (integerRow s i = some r ∨ bitRow s i = some r) ∧
    i.wellFormed = true ∧ r.lam ≠ 0 ∧ s.inRegion = false ∧ s.ctx.scbmode = 1 ∧ s.ctx.pend = [] ∧ s.guardOpen r.ctl :=
  ⟨.clz ⟨noG, 5, 1, 0, 0, 6, 0⟩, plain (fun x => { x with scbmode := 1 }), _, .inr rfl, by decide, by decide, by decide, by decide,
    by decide, fun g h => by simp [noG] at h⟩

/-! ### Scalar memory -/

theorem witness_AccessTraps_pointer : ∃ (s : State) (f : SM) (c : BitVec 8) (v : Word), s.inRegion = false ∧ s.inHandler = false ∧
    s.executes f.ctl [f.base] (some f.ds) 0 ∧ addressOf (s.reg f.base) f.off.toInt (accessBytes f.sz) = .error (c, v) :=
  ⟨plain (regs [(1, 2 ^ 52 - 8)]), ⟨noG, 5, 1, 0, 8, 3⟩, 5, 0xFFFFFFFFFFFF8, by decide, by decide, runs (by decide) _ _ _ _, by decide⟩

theorem witness_AccessTraps_right : ∃ (s : State) (f : SM) (a : Nat), s.inRegion = false ∧ s.inHandler = false ∧
    s.executes f.ctl [f.base, f.ds] none 0 ∧ addressOf (s.reg f.base) f.off.toInt (accessBytes f.sz) = .ok a ∧
    ¬ mayReach s a rightW ∧ (a < 0xFFE0000000000 → s.firstBad (s.tableRuns s.runDie s.ctx.domain) = none) :=
  ⟨plain (regs [(1, 0xFFF0000060000)]), ⟨noG, 5, 1, 0, 0, 3⟩, 0xFFF0000060000, by decide, by decide, runs (by decide) _ _ _ _, by decide,
    fun h => by have e : regionOf 0xFFF0000060000 = .reserved := by decide
                simp [mayReach, e] at h, by decide⟩

theorem witness_AccessTraps_owner : ∃ (s : State) (f : SM) (a : Nat) (ln : L2Line), s.inRegion = false ∧ s.inHandler = false ∧
    s.executes f.ctl [f.base, f.ds] none 0 ∧ addressOf (s.reg f.base) f.off.toInt (accessBytes f.sz) = .ok a ∧ a < 0xFFE0000000000 ∧
    (s.plbCheck s.runCore s.ctx.domain a rightW).1 = true ∧ (s.dieAt s.runDie).line a = some ln ∧ ln.codec = 0 ∧ ln.owner = true :=
  ⟨(paged (regs [(1, 0x20000)])).modDie 0 (fun d => { d with l2 := d.l2.map (fun l => { l with owner := true }) }), ⟨noG, 5, 1, 0, 24, 3⟩,
    0x20018, _, by decide, by decide, runs (by decide) _ _ _ _, by decide, by decide, by decide, rfl, by decide, by decide⟩

theorem witness_LocalAccesses : ∃ (s : State) (f : SM) (a o : Nat), s.inRegion = false ∧
    addressOf (s.reg f.base) f.off.toInt (accessBytes f.sz) = .ok a ∧ windowOffset a = some o ∧
    s.executes f.ctl [f.base] (some f.ds) 0 ∧ s.executes f.ctl [f.base, f.ds] none 0 ∧ scopeOk (s.reg f.sc) = true ∧
    s.executes f.ctl [f.base, f.sc] (some f.ds) 0 ∧ s.executes f.ctl [f.base, f.ds, f.sc] none 0 ∧ s.systemWait (s.reg f.sc) = false :=
  ⟨plain (regs [(1, 0xFFF0000060000)]), ⟨noG, 5, 1, 0, 0x3FFF8, 3⟩, 0xFFF000005FFF8, 0x5FFF8, by decide, by decide, by decide,
    runs (by decide) _ _ _ _, runs (by decide) _ _ _ _, by decide, runs (by decide) _ _ _ _, runs (by decide) _ _ _ _, by decide⟩

theorem witness_PagedLoads : ∃ (s : State) (f : SM) (a v : Nat), s.inRegion = false ∧ a < 0xFFE0000000000 ∧
    addressOf (s.reg f.base) f.off.toInt (accessBytes f.sz) = .ok a ∧ (s.plbCheck s.runCore s.ctx.domain a rightR).1 = true ∧
    heldBytes s a (accessBytes f.sz) = some v ∧ s.executes f.ctl [f.base] (some f.ds) 0 ∧
    heldBytes (s.l1Clear s.runCore) a (accessBytes f.sz) = some v ∧
    scopeOk (s.reg f.sc) = true ∧ scopeKind (s.reg f.sc) ≠ 0 ∧ scopeBeyond (s.reg f.sc) s.runDie = false ∧
    s.executes f.ctl [f.base, f.sc] (some f.ds) 0 :=
  ⟨copied (regs [(1, 0x20000), (2, 2 * 2 ^ 56)]), ⟨noG, 5, 1, 2, 8, 0⟩, 0x20008, 0xAB, by decide, by decide, by decide, by decide,
    by decide, runs (by decide) _ _ _ _, by decide, by decide, by decide, by decide, runs (by decide) _ _ _ _⟩

theorem witness_PagedStores_home : ∃ (s : State) (f : SM) (a pa : Nat), s.inRegion = false ∧ a < 0xFFE0000000000 ∧
    addressOf (s.reg f.base) f.off.toInt (accessBytes f.sz) = .ok a ∧ (s.plbCheck s.runCore s.ctx.domain a rightW).1 = true ∧
    landing s a = some (.home pa) ∧ s.executes f.ctl [f.base, f.ds] none 0 :=
  ⟨paged (regs [(1, 0x20000)]), ⟨noG, 5, 1, 0, 24, 3⟩, 0x20018, 0x5018, by decide, by decide, by decide, by decide, rfl,
    runs (by decide) _ _ _ _⟩

theorem witness_PagedStores_copy : ∃ (s : State) (f : SM) (a : Nat) (ln : L2Line), s.inRegion = false ∧ a < 0xFFE0000000000 ∧
    addressOf (s.reg f.base) f.off.toInt (accessBytes f.sz) = .ok a ∧ (s.plbCheck s.runCore s.ctx.domain a rightW).1 = true ∧
    landing s a = some (.copy ln) ∧ scopeOk (s.reg f.sc) = true ∧ scopeBeyond (s.reg f.sc) s.runDie = false ∧
    s.executes f.ctl [f.base, f.ds, f.sc] none 0 :=
  ⟨copied (regs [(1, 0x20000)]), ⟨noG, 5, 1, 0, 8, 3⟩, 0x20008, _, by decide, by decide, by decide, by decide, rfl, by decide, by decide,
    runs (by decide) _ _ _ _⟩

set_option maxRecDepth 20000 in
theorem witness_LoadSeesOwnStore : ∃ (s t u : State) (a n w v : Nat), linesOk s = true ∧ memoriesWf s = true ∧ n ∈ [1, 2, 4, 8] ∧ n ∣ a ∧
    s.store false a n w = .ok t ∧ t.load .l1 false a n = .ok (v, u) :=
  ⟨paged id, _, _, 0x20008, 8, 77, 77, by decide, by decide, by decide, by decide, rfl, rfl⟩

theorem witness_AtomicsComplete_amo : ∃ (s : State) (f : SA) (a cell : Nat) (isLocal : Bool), (Instr.amo f).wellFormed = true ∧
    s.executes f.ctl [f.base, f.val, f.sc] (some f.dst) 0 ∧ scopeOk (s.reg f.sc) = true ∧
    addressOf (s.reg f.base) 0 (accessBytes f.sz) = .ok a ∧ atomicCell s a = some (isLocal, cell) ∧ f.ord.toNat < 2 ∧ f.prm = false :=
  ⟨paged (regs [(1, 0x20010)]), ⟨noG, 5, 1, 2, 0, 11, 1, false, 3⟩, 0x20010, 0x5010, false, by decide, runs (by decide) _ _ _ _, by decide,
    by decide, by decide, by decide, rfl⟩

theorem witness_AtomicsComplete_amocas : ∃ (s : State) (f : SAC) (a cell : Nat) (isLocal : Bool), (Instr.amocas f).wellFormed = true ∧
    s.executes f.ctl [f.base, f.exp, f.new, f.sc] (some f.dst) 0 ∧ scopeOk (s.reg f.sc) = true ∧
    addressOf (s.reg f.base) 0 (accessBytes f.sz) = .ok a ∧ atomicCell s a = some (isLocal, cell) ∧
    scopeBeyond (s.reg f.sc) s.runDie = false ∧ f.prm = false :=
  ⟨paged (regs [(1, 0xFFF0000000010)]), ⟨noG, 5, 1, 2, 3, 0, 2, false, 3⟩, 0xFFF0000000010, _, true, by decide, runs (by decide) _ _ _ _,
    by decide, by decide, rfl, by decide, rfl⟩

theorem witness_AccessesAndFences_load : ∃ (s u : State) (f : SM) (a v : Nat), s.executes f.ctl [f.base] (some f.ds) 0 ∧
    addressOf (s.reg f.base) f.off.toInt (accessBytes f.sz) = .ok a ∧
    (issued s f.ctl [f.base]).loadC .l1 (s.ctx.hopPolicy != 0) a (accessBytes f.sz) = .ok (v, u) :=
  ⟨paged (regs [(1, 0x20000)]), _, ⟨noG, 5, 1, 0, 0, 3⟩, 0x20000, 0, runs (by decide) _ _ _ _, by decide, rfl⟩

theorem witness_AccessesAndFences_store : ∃ (s u : State) (f : SM) (a : Nat), s.executes f.ctl [f.base, f.ds] none 0 ∧
    addressOf (s.reg f.base) f.off.toInt (accessBytes f.sz) = .ok a ∧
    (issued s f.ctl [f.base, f.ds]).storeC (s.ctx.hopPolicy != 0) a (accessBytes f.sz) (s.reg f.ds).toNat = .ok u ∧ u.inRegion = false :=
  ⟨paged (regs [(1, 0x20000)]), _, ⟨noG, 5, 1, 0, 0, 3⟩, 0x20000, runs (by decide) _ _ _ _, by decide, rfl, by decide⟩

theorem witness_AccessesAndFences_acquire : ∃ (s u : State) (f : SM) (a v : Nat), s.executes f.ctl [f.base, f.sc] (some f.ds) 0 ∧
    scopeOk (s.reg f.sc) = true ∧ addressOf (s.reg f.base) f.off.toInt (accessBytes f.sz) = .ok a ∧
    (issued s f.ctl [f.base, f.sc]).loadC (acquireServe (s.reg f.sc) s.runDie) (s.ctx.hopPolicy != 0) a (accessBytes f.sz) = .ok (v, u) :=
  ⟨paged (regs [(1, 0x20000)]), _, ⟨noG, 5, 1, 0, 0, 3⟩, 0x20000, 0, runs (by decide) _ _ _ _, by decide, by decide, rfl⟩

theorem witness_AccessesAndFences_release : ∃ (s u : State) (f : SM) (a : Nat), s.executes f.ctl [f.base, f.ds, f.sc] none 0 ∧
    scopeOk (s.reg f.sc) = true ∧ addressOf (s.reg f.base) f.off.toInt (accessBytes f.sz) = .ok a ∧
    (issued s f.ctl [f.base, f.ds, f.sc]).storeRelease (s.reg f.sc) (s.ctx.hopPolicy != 0) a (accessBytes f.sz)
      (s.reg f.ds).toNat = .ok u ∧ s.systemWait (s.reg f.sc) = false ∧ u.inRegion = false :=
  ⟨paged (regs [(1, 0x20000)]), _, ⟨noG, 5, 1, 0, 0, 3⟩, 0x20000, runs (by decide) _ _ _ _, by decide, by decide, rfl, by decide, by decide⟩

theorem witness_AccessesAndFences_amo : ∃ (s u : State) (f : SA) (a old : Nat), s.executes f.ctl [f.base, f.val, f.sc] (some f.dst) 0 ∧
    scopeOk (s.reg f.sc) = true ∧ ¬ (f.prm = true ∧ (f.ord = 0 ∨ f.ord = 2)) ∧
    addressOf (s.reg f.base) 0 (accessBytes f.sz) = .ok a ∧
    (issued s f.ctl [f.base, f.val, f.sc]).atomic f.ord.toNat f.prm (s.reg f.sc) (accessBytes f.sz)
      (fun old => some (amoValue f.aop.toNat (accessBytes f.sz) old ((s.reg f.val).toNat % 2 ^ (8 * accessBytes f.sz))))
      (s.ctx.hopPolicy != 0) a = .ok (old, u) ∧ (f.ord.toNat < 2 ∨ s.systemWait (s.reg f.sc) = false) :=
  ⟨paged (regs [(1, 0x20010)]), _, ⟨noG, 5, 1, 2, 0, 0, 0, false, 3⟩, 0x20010, 0, runs (by decide) _ _ _ _, by decide, by decide,
    by decide, rfl, by decide⟩

theorem witness_AccessesAndFences_amocas : ∃ (s u : State) (f : SAC) (a old : Nat),
    s.executes f.ctl [f.base, f.exp, f.new, f.sc] (some f.dst) 0 ∧
    scopeOk (s.reg f.sc) = true ∧ ¬ (f.prm = true ∧ (f.ord = 0 ∨ f.ord = 2)) ∧
    addressOf (s.reg f.base) 0 (accessBytes f.sz) = .ok a ∧
    (issued s f.ctl [f.base, f.exp, f.new, f.sc]).atomic f.ord.toNat f.prm (s.reg f.sc) (accessBytes f.sz)
      (fun old => if old == (s.reg f.exp).toNat % 2 ^ (8 * accessBytes f.sz) then
        some ((s.reg f.new).toNat % 2 ^ (8 * accessBytes f.sz)) else none)
      (s.ctx.hopPolicy != 0) a = .ok (old, u) ∧ (f.ord.toNat < 2 ∨ s.systemWait (s.reg f.sc) = false) :=
  ⟨paged (regs [(1, 0x20010)]), _, ⟨noG, 5, 1, 2, 3, 0, 1, true, 3⟩, 0x20010, 0, runs (by decide) _ _ _ _, by decide, by decide,
    by decide, rfl, by decide⟩

theorem witness_AccessesAndFences_fence : ∃ (s : State) (f : FY), (Instr.fence f).wellFormed = true ∧ s.executes f.ctl [f.sa] none 0 ∧
    scopeOk (s.reg f.sa) = true ∧ s.matrixOut = false ∧ s.commandsOut (f.imm.getLsbD 3) (f.imm.getLsbD 4) = false ∧
    scopeKind (s.reg f.sa) = 4 ∧ s.systemWait (s.reg f.sa) = false :=
  ⟨plain (regs [(1, 0x0400000000000000)]), ⟨noG, 0, 1, 0, 0x7DF⟩, by decide, runs (by decide) _ _ _ _, by and_intros <;> decide +kernel⟩

theorem witness_AccessesAndFences_cflush : ∃ (s : State) (f : SM) (a : Nat), s.executes f.ctl [f.base] none 0 ∧ a < 0xFFE0000000000 ∧
    addressOf (s.reg f.base) f.off.toInt 1 = .ok a ∧ (s.plbCheck s.runCore s.ctx.domain a rightR).1 = true :=
  ⟨paged (regs [(1, 0x2FFFF)]), ⟨noG, 0, 1, 0, 0, 0⟩, 0x2FFFF, runs (by decide) _ _ _ _, by and_intros <;> decide +kernel⟩

theorem witness_AccessesAndFences_vdrain : ∃ (s : State) (f : SR), s.executes f.ctl [] none 0 :=
  ⟨plain id, ⟨noG, 0, 0, 0, 0, 0, 0⟩, runs (by decide) _ _ _ _⟩

/-! ### Atomic regions -/

theorem witness_RegionOpens_abegin : ∃ (f : BR) (s : State), s.executes f.ctl [] none 0 ∧ s.inHandler = false ∧
    ¬ (s.ctx.hopped.isSome = true ∧ s.ctx.holdsLease = true) :=
  ⟨⟨noG, -1⟩, plain id, runs (by decide) _ _ _ _, by decide, by decide⟩

theorem witness_RegionOpens_handler : ∃ (f : BR) (s : State), s.executes f.ctl [] none 0 ∧ s.inHandler = true ∧
    ((s.coreAt s.cur.1).inv).isSome = true := ⟨⟨noG, 2⟩, invoked id, runs (by decide) _ _ _ _, by decide, by decide⟩

theorem witness_RegionOpens_nested : ∃ (f : BR) (s : State), s.inRegion = true ∧ s.inHandler = false ∧ readyToIssue s ∧ guardPlain s f.ctl :=
  ⟨⟨noG, 2⟩, plain opened, by decide, by decide, .inl (by decide), fun g h => by simp [noG] at h⟩

theorem witness_RegionOpens_misuse : ∃ (f : SR) (s : State), s.executes f.ctl [] none 0 ∧ s.inHandler = false :=
  ⟨⟨noG, 0, 0, 0, 0, 0, 0⟩, plain id, runs (by decide) _ _ _ _, by decide⟩

theorem witness_RegionAborts_program : ∃ (f : SR) (s : State), s.inRegion = true ∧ s.inHandler = false ∧ readyToIssue s ∧ guardPlain s f.ctl :=
  ⟨⟨noG, 0, 0, 0, 0, 0, 0⟩, plain opened, by decide, by decide, .inl (by decide), fun g h => by simp [noG] at h⟩

theorem witness_RegionAborts_boundary : ∃ (s : State) (w : Word) (f : SR), s.inRegion = true ∧ s.inHandler = false ∧
    256 ≤ s.ctx.astate.nins ∧ decode w = .ok (.aend f) ∧ s.guardOpen f.ctl ∧ s.ctx.scbmode ≠ 1 :=
  ⟨plain (fun x => { opened x with astate := { (opened x).astate with nins := 256 } }), encode (.aend ⟨noG, 0, 0, 0, 0, 0, 0⟩),
    ⟨noG, 0, 0, 0, 0, 0, 0⟩, by decide, by decide, by decide, by decide +kernel, fun g h => by simp [noG] at h, by decide⟩

theorem witness_RegionAborts_length : ∃ (c : CoreId) (x : CtxId) (s : State), (s.ctxAt c x).region.isSome = true :=
  ⟨0, 0, plain opened, by decide⟩

theorem witness_RegionTracks_ld : ∃ (f : SM) (s : State) (g : Region) (a v : Nat), s.ctx.region = some g ∧ s.inHandler = false ∧
    readyToIssue s ∧ f.ctl.guard = none ∧ f.sz = 3 ∧ addressOf (s.reg f.base) f.off.toInt 8 = .ok a ∧ a < 0xFFE0000000000 ∧
    g.tag f.base = .concrete ∧ (s.plbCheck s.runCore s.ctx.domain a (rightR + rightW + rightA)).1 = true ∧
    (heldHome s a).isSome = true ∧ homeAgrees s a ∧ heldBytes s a 8 = some v ∧ (∀ p ∈ g.tracked, p.1 ≠ a) ∧
    g.tracked.length < 8 ∧ (∀ st ∈ g.stores, st.addr + st.n ≤ a ∨ a + 8 ≤ st.addr) :=
  ⟨⟨noG, 5, 1, 0, 24, 3⟩, pagedRegion [(1, 0x20000)], _, 0x20018, 0, rfl, by decide, .inl (by decide), rfl, rfl, by decide, by decide,
    by decide, by decide, by decide, ⟨_, 0, rfl, by decide, by decide⟩, by and_intros <;> decide +kernel⟩

theorem witness_RegionTracks_st : ∃ (f : SM) (s : State) (g : Region) (a : Nat), s.ctx.region = some g ∧ s.inHandler = false ∧
    readyToIssue s ∧ f.ctl.guard = none ∧ addressOf (s.reg f.base) f.off.toInt (accessBytes f.sz) = .ok a ∧ a < 0xFFE0000000000 ∧
    (s.plbCheck s.runCore s.ctx.domain a (rightR + rightW + rightA)).1 = true ∧
    (heldHome s a).isSome = true ∧ deviceOwns s a = true ∧ homeAgrees s a ∧ g.stores.length < 16 :=
  ⟨⟨noG, 5, 1, 0, 24, 0⟩, pagedRegion [(1, 0x20000)], _, 0x20018, rfl, by decide, .inl (by decide), rfl, by decide, by decide,
    by decide, by decide, by decide, ⟨_, 0, rfl, by decide, by decide⟩, by decide⟩

theorem witness_RegionCommits : ∃ (f : SR) (s : State) (g : Region), s.ctx.region = some g ∧ s.inHandler = false ∧ readyToIssue s ∧
    guardPlain s f.ctl ∧ (∀ p ∈ g.tracked, (heldHome s p.1).isSome = true ∧ homeAgrees s p.1 ∧ s.ctx.astate.homev = true) ∧
    (∀ st ∈ g.stores, (heldHome s st.addr).isSome = true ∧ deviceOwns s st.addr = true ∧ homeAgrees s st.addr ∧ s.ctx.astate.homev = true) ∧ g.tracked ≠ [] ∧
    g.stores ≠ [] :=
  ⟨⟨noG, 0, 0, 0, 0, 0, 0⟩, paged (fun x => { opened x with
      region := some ⟨0x40, x.s, x.fcsr, Vector.replicate 64 .concrete, [(0x20000, 0)], [], [⟨0x20008, 8, 7, .concrete, false⟩], false⟩
      astate := ⟨2, 1, 0, 1, true, 0, false, false, true⟩ }), _, rfl, by decide, .inl (by decide), fun g h => by simp [noG] at h,
    fun p h => by
      simp only [List.mem_singleton] at h; subst h
      exact ⟨by decide, ⟨_, 0, rfl, by decide, by decide⟩, by decide⟩,
    fun p h => by
      simp only [List.mem_singleton] at h; subst h
      exact ⟨by decide, by decide, ⟨_, 0, rfl, by decide, by decide⟩, by decide⟩, by decide, by decide⟩

/-! ### Small steps: control and memory (04; 13; 15 to 17) -/

theorem test_add_wraps : after (.add ⟨noG, 5, 1, 2, 0, 0, 0⟩) (plain (regs [(1, 0x7F), (2, 1)])) (fun t => (t.reg 5, t.ctx.pc)) =
    some (0xFFFFFFFFFFFFFF80, 0x10008) := by decide

theorem test_s0_discards : after (.addI ⟨noG, 0, 1, 5⟩) (plain (regs [(1, 3)])) (fun t => (t.reg 0, t.ctx.pc)) = some (0, 0x10008) := by decide

theorem test_mulh_unsigned : after (.mulh ⟨noG, 5, 1, 2, 0, 7, 0⟩) (plain (regs [(1, 2 ^ 63), (2, 6)])) (fun t => t.reg 5) = some 3 := by decide

theorem test_div_min_by_minus_one : after (.div ⟨noG, 5, 1, 2, 0, 6, 0⟩) (plain (regs [(1, 2 ^ 63), (2, 2 ^ 64 - 1)])) (fun t => t.reg 5) =
    some 0x8000000000000000 := by decide

theorem test_div_by_zero : after (.div ⟨noG, 5, 1, 2, 0, 6, 0⟩) (plain (regs [(1, 7)])) (fun t => t.reg 5) = some 0xFFFFFFFFFFFFFFFF := by decide

theorem test_ins_field : after (.ins ⟨noG, 5, 1, 2, 0, 6, 0⟩) (plain (regs [(1, 0xFF), (2, 0x0704), (5, 0xABCDEF)])) (fun t => t.reg 5) =
    some 0xABCFFF := by decide

theorem test_trap : after (.trap ⟨noG, 0, 0, 5⟩) (plain (fun x => { x with mode := .program, trapvec := 0x400 })) (fun t =>
    (t.ctx.mode, t.ctx.trapcause, t.ctx.trappc, t.ctx.trapval, t.ctx.pc)) = some (.supervisor, 0x011, 0x10000, 5, 0x400) := by decide

theorem test_ecall_to_firmware : after (.ecall ⟨noG, 0, 0, -1⟩) ((plain (fun x => { x with mode := .supervisor })).modDie 0 (fun d =>
    { d with fw := { d.fw with fvec := 0x800 } })) (fun t =>
    (t.ctx.mode, t.ctx.trapcause, t.ctx.trapval, t.ctx.pc)) = some (.firmware, 0x110, 0xFFFFFFFFFFFFFFFF, 0x800) := by decide

theorem test_eret : after (.eret ⟨noG, 0, 0, 0, 0, 0, 0⟩) (plain (fun x => { x with trapcause := 0x011, trappc := 0x240 })) (fun t =>
    (t.ctx.mode, t.ctx.pc)) = some (.program, 0x240) := by decide

theorem test_unassigned : after (.unassignedOp 0x2000000000000001) (plain id) (fun t => (t.ctx.trapcause, t.ctx.trapval)) =
    some (0x201, 0x2000000000000001) := by decide

theorem test_jr_swaps : after (.jr ⟨noG, 1, 1, 0⟩) (plain (regs [(1, 0x80)])) (fun t => (t.reg 1, t.ctx.pc)) = some (0x10008, 0x80) := by decide

theorem test_subbr_falls_through : after (.subbr ⟨noG, 4, 10, -11⟩) (plain (regs [(4, 64), (10, 64)])) (fun t => (t.reg 4, t.ctx.pc)) =
    some (0, 0x10008) := by decide

theorem test_padd_overflows : after (.padd ⟨noG, 3, 1, 2, 0, 6, 0⟩) (plain (regs [(1, 2 ^ 52 - 1), (2, 1)])) (fun t =>
    (t.ctx.trapcause, t.ctx.trapval)) = some (0x209, 0x000FFFFFFFFFFFFF) := by decide

theorem test_setvl_grants : after (.setvl ⟨noG, 10, 4, 10⟩) (plain (regs [(4, 1000)])) (fun t => (t.reg 10, t.ctx.vl)) = some (128, 128) := by
  decide

set_option maxRecDepth 20000 in
theorem test_csrw_vlcap_rejects : after (.csrw ⟨noG, 0, 1, 3⟩) (plain (regs [(1, 1000)])) (fun t => (t.ctx.vlcap, t.ctx.trapcause)) =
    some (4096, 0x201) := by decide

theorem test_csrr_vlmax : after (.csrr ⟨noG, 5, 0, 2⟩) (plain id) (fun t => t.reg 5) = some 4096 := by decide

set_option maxRecDepth 20000 in
theorem test_st_ld_local : (after (.st ⟨noG, 2, 1, 0, 8, 3⟩) (plain (regs [(1, 0xFFF0000000010), (2, 0x123456789ABCDEF0)])) id).bind
    (fun s => after (.ld ⟨noG, 5, 1, 0, 9, 4⟩) s (fun t => t.reg 5)) = some 0xFFFFFFFFFFFFFFDE := by decide

theorem test_ld_misaligned : after (.ld ⟨noG, 5, 1, 0, 4, 3⟩) (plain (regs [(1, 0xFFF0000000010)])) (fun t =>
    (t.ctx.trapcause, t.ctx.trapval, t.ctx.pc)) = some (0x204, 0xFFF0000000014, 0) := by decide

theorem test_ld_paged_copy : after (.ld ⟨noG, 5, 1, 0, 8, 0⟩) (copied (regs [(1, 0x20000)])) (fun t => t.reg 5) = some 0xAB := by decide

theorem test_st_paged_home : after (.st ⟨noG, 2, 1, 0, 24, 1⟩) (paged (regs [(1, 0x20000), (2, 0x12345)])) (fun t => t.mem) =
    some [(0x5018, 0x45), (0x5019, 0x23)] := by decide

theorem test_amo_add : after (.amo ⟨noG, 5, 1, 2, 0, 1, 0, false, 2⟩) ({ paged (regs [(1, 0x20010), (2, 3)]) with mem := [(0x5010, 0xFE)] })
    (fun t => (t.reg 5, t.mem)) = some (0xFE, [(0x5010, 0x01), (0x5011, 0x01)]) := by decide

theorem test_amocas_misses : after (.amocas ⟨noG, 5, 1, 2, 3, 0, 0, false, 3⟩) (paged (regs [(1, 0x20010), (2, 3), (3, 9)]))
    (fun t => (t.reg 5, t.mem)) = some (0, []) := by decide

theorem test_strel_local : after (.strel ⟨noG, 2, 1, 0, 0, 0⟩) (plain (regs [(1, 0xFFF0000000000), (2, 0x1FF)])) (fun t =>
    t.localRead 0 0 2) = some 0xFF := by decide

theorem test_abegin : after (.abegin ⟨noG, -1⟩) (plain id) (fun t => (t.ctx.astate.active, t.ctx.region.map (fun g => g.fallback), t.ctx.pc)) =
    some (true, some 0xFFF8, 0x10008) := by decide

theorem test_region_forbids : after (.vdrain ⟨noG, 0, 0, 0, 0, 0, 0⟩) (plain opened) (fun t => (t.ctx.acode, t.ctx.pc)) = some (10, 0x40) := by
  decide

theorem test_region_ld_tracks : after (.ld ⟨noG, 5, 1, 0, 24, 3⟩) ({ pagedRegion [(1, 0x20000)] with mem := [(0x5018, 7)] }) (fun t =>
    (t.reg 5, t.ctx.region.map (fun g => g.tracked), t.ctx.astate.nload)) = some (7, some [(0x20018, 7)], 1) := by decide

theorem test_aend_commits : after (.aend ⟨noG, 0, 0, 0, 0, 0, 0⟩) (paged (fun x => { opened x with
      region := some ⟨0x40, x.s, x.fcsr, Vector.replicate 64 .concrete, [(0x20000, 0)], [], [⟨0x20008, 8, 7, .concrete, false⟩], false⟩
      astate := ⟨2, 1, 0, 1, true, 0, false, false, true⟩ })) (fun t => (t.mem, t.ctx.pc, t.ctx.region.isSome)) =
    some ([(0x5008, 7)], 0x10008, false) := by decide

theorem test_aend_repairs : after (.aend ⟨noG, 0, 0, 0, 0, 0, 0⟩) ({ paged (fun x => { opened x with
      region := some ⟨0x40, x.s, x.fcsr, (Vector.replicate 64 .concrete).set 5 (.sym 0 2), [(0x20000, 7)], [], [⟨0x20000, 8, 9, .sym 0 2, true⟩], false⟩
      astate := ⟨2, 1, 0, 1, true, 0, false, false, true⟩ }) with mem := [(0x5000, 0x20)] }) (fun t => (t.mem, t.reg 5, t.ctx.astate.repaired)) =
    some ([(0x5000, 0x22)], 0x22, true) := by decide

theorem test_region_length : after (.regionLengthAbort 0 0) (plain opened) (fun t => (t.ctx.acode, t.ctx.pc)) = some (6, 0x40) := by decide

/-! ### Rings, messages, helpers, barriers and hops -/

/-- Core 0 with a ring in place of its ring `n`. -/
def buffer (n : Fin 8) (r : Ring) (s : State) : State := s.modCore 0 (fun k => { k with rings := k.rings.set n r })

/-- A ring of 4 slots of 64 bytes at 0x8000: one filled, one free, one taken and one reserved. -/
def mixed (n : Fin 8) (f : Ctx → Ctx) : State :=
  buffer n ⟨0x8000, 6, 2, 1, 1, 1, 3, [⟨false, some 0, none⟩], 1, []⟩ (plain f)

/-- A ring of 4 slots whose slots are all reserved or taken. -/
def spent (n : Fin 8) (f : Ctx → Ctx) : State := buffer n ⟨0x8000, 6, 2, 0, 0, 0, 0, [⟨false, some 0, none⟩], 3, []⟩ (plain f)

theorem witness_CircularBuffers_slots : ∃ (s : State) (f : SI) (n : Fin 8), f.imm.toNat = n.val ∧ s.inRegion = false ∧
    s.inHandler = false ∧ s.executes f.ctl [] (some f.dst) 0 ∧ s.executes f.ctl [] none 0 ∧ s.ctx.hopped = none ∧ 4 ≤ n.val ∧
    0 < (ringOf s n).free ∧ 0 < (ringOf s n).filled ∧ 0 < (ringOf s n).taken :=
  ⟨mixed 4 id, ⟨noG, 5, 0, 4⟩, 4, by decide, by decide, by decide, runs (by decide) _ _ _ _, runs (by decide) _ _ _ _, by decide +kernel⟩

theorem witness_CircularBuffers_waits : ∃ (s : State) (f : SI) (n : Fin 8), f.imm.toNat = n.val ∧ s.inRegion = false ∧
    s.inHandler = false ∧ s.executes f.ctl [] (some f.dst) 0 ∧ s.executes f.ctl [f.sa] none 0 ∧ s.ctx.hopped = none ∧ 4 ≤ n.val ∧
    (ringOf s n).free = 0 ∧ (ringOf s n).filled = 0 ∧ f.sa ≠ 0 ∧ (s.reg f.sa).toNat = 0xFFF000005FFC0 :=
  ⟨spent 7 (regs [(1, 0xFFF000005FFC0)]), ⟨noG, 5, 1, 7⟩, 7, by decide, by decide, by decide, runs (by decide) _ _ _ _,
    runs (by decide) _ _ _ _, by decide +kernel⟩

theorem witness_CircularBuffers_hopped : ∃ (s : State) (f : SI) (n : Fin 8), f.imm.toNat = n.val ∧ s.inRegion = false ∧
    s.inHandler = false ∧ s.executes f.ctl [] (some f.dst) 0 ∧ s.executes f.ctl [f.sa] none 0 ∧ s.ctx.hopped.isSome = true :=
  ⟨plain (fun x => { x with hopped := some 5 }), ⟨noG, 5, 0, 7⟩, 7, by decide, by decide, by decide, runs (by decide) _ _ _ _,
    runs (by decide) _ _ _ _, by decide⟩

theorem witness_CircularBuffers_inbox : ∃ (s : State) (f : SI) (n : Fin 8), f.imm.toNat = n.val ∧ s.inRegion = false ∧
    s.inHandler = false ∧ s.executes f.ctl [] (some f.dst) 0 ∧ s.executes f.ctl [f.sa] none 0 ∧ n.val < 4 ∧ (ringOf s n).taken = 0 :=
  ⟨plain id, ⟨noG, 5, 0, 3⟩, 3, by decide, by decide, by decide, runs (by decide) _ _ _ _, runs (by decide) _ _ _ _, by decide +kernel⟩

theorem witness_CircularBuffers_reply : ∃ (s : State) (f : SI) (n : Fin 8) (p : Sender), f.imm.toNat = n.val ∧ s.inRegion = false ∧
    s.inHandler = false ∧ s.executes f.ctl [] (some f.dst) 0 ∧ s.ctx.hopped = none ∧ 0 < (ringOf s n).filled ∧
    (ringOf s n).senders.head? = some p ∧
    let m := messageAt s ((ringOf s n).base + (ringOf s n).rdidx * 2 ^ (ringOf s n).szlog)
    m.rr = true ∧ m.w0.extractLsb' 56 8 = 0x80 ∧ p.remote = false ∧ m.w1 = BitVec.ofNat 64 Config.localBase ∧ s.holdsSender p = true :=
  ⟨{ held 1 (buffer 3 ⟨0x8000, 6, 2, 1, 3, 0, 1, [], 0, [someone]⟩ (plain id)) with
      lmem := [(localKey 0 0x8006, 8), (localKey 0 0x8007, 0x80), (localKey 0 0x800D, 0xFF), (localKey 0 0x800E, 0x0F)] },
    ⟨noG, 5, 0, 3⟩, 3, _, by decide, by decide, by decide, runs (by decide) _ _ _ _, by decide, by decide, rfl, by decide +kernel⟩

theorem witness_CircularBuffers_put : ∃ (s : State) (f : SI) (n : Fin 8), f.imm.toNat = n.val ∧ s.inRegion = false ∧
    s.inHandler = false ∧ s.executes f.ctl [f.sa] none 0 ∧ s.ctx.hopped = none ∧ 4 ≤ n.val ∧ f.sa ≠ 0 ∧
    (s.reg f.sa).toNat + 2 ^ (ringOf s n).szlog = 0xFFF0000060000 ∧ (s.reg f.sa).toNat % 8 = 0 ∧ 0 < (ringOf s n).free :=
  ⟨mixed 5 (regs [(1, 0xFFF000005FFC0)]), ⟨noG, 0, 1, 5⟩, 5, by decide, by decide, by decide, runs (by decide) _ _ _ _, by decide +kernel⟩

theorem witness_CircularBuffers_put_traps : ∃ (s : State) (f g : SI) (n : Fin 8), f.imm.toNat = n.val ∧ g.imm.toNat = n.val ∧
    s.inRegion = false ∧ s.inHandler = false ∧ s.executes f.ctl [f.sa] none 0 ∧ s.executes g.ctl [g.sa] none 0 ∧ s.ctx.hopped = none ∧
    4 ≤ n.val ∧ f.sa ≠ 0 ∧ g.sa ≠ 0 ∧ (s.reg f.sa).toNat % 8 ≠ 0 ∧ (s.reg g.sa).toNat % 8 = 0 ∧
    (s.reg g.sa).toNat + 2 ^ (ringOf s n).szlog = 0xFFF0000060008 :=
  ⟨mixed 5 (regs [(1, 0xFFF0000000004), (2, 0xFFF000005FFC8)]), ⟨noG, 0, 1, 5⟩, ⟨noG, 0, 2, 5⟩, 5, by decide, by decide, by decide,
    by decide, runs (by decide) _ _ _ _, runs (by decide) _ _ _ _, by decide +kernel⟩

theorem witness_CircularBuffers_publish : ∃ (s : State) (f : SI) (n : Fin 8) (slot : Nat), f.imm.toNat = n.val ∧ s.inRegion = false ∧
    s.executes f.ctl [f.sa] none 0 ∧ s.inHandler = false ∧ s.ctx.hopped = none ∧ 4 ≤ n.val ∧ f.sa = 0 ∧
    s.ctx.reserv.find? (fun p => p.1 == n.val) = some (n.val, slot) ∧ (ringOf s n).res.length = 1 ∧
    ((ringOf s n).rdidx + (ringOf s n).filled) % 2 ^ (ringOf s n).cntlog = slot ∧ slot < 2 ^ (ringOf s n).cntlog :=
  ⟨mixed 7 (fun x => { x with reserv := [(5, 1), (7, 2)] }), ⟨noG, 0, 0, 7⟩, 7, 2, by decide, by decide, runs (by decide) _ _ _ _,
    by decide +kernel⟩

theorem witness_CircularBuffers_unreserved : ∃ (s : State) (f : SI) (n : Fin 8), f.imm.toNat = n.val ∧ s.inRegion = false ∧
    s.executes f.ctl [f.sa] none 0 ∧ s.inHandler = false ∧ s.ctx.hopped = none ∧ 4 ≤ n.val ∧ f.sa = 0 ∧
    s.ctx.reserv.find? (fun p => p.1 == n.val) = none :=
  ⟨mixed 4 (fun x => { x with reserv := [(5, 1)] }), ⟨noG, 0, 0, 4⟩, 4, by decide, by decide, runs (by decide) _ _ _ _,
    by decide +kernel⟩

theorem witness_CircularBuffers_handler : ∃ (s : State) (f : SI) (n : Fin 8), f.imm.toNat = n.val ∧ s.inRegion = false ∧
    s.inHandler = true ∧ ((s.coreAt s.cur.1).inv).isSome = true ∧ s.executes f.ctl [] (some f.dst) 0 ∧ s.executes f.ctl [f.sa] none 0 ∧
    s.executes f.ctl [] none 0 ∧ s.ctx.hopped = none ∧ 4 ≤ n.val ∧ f.sa ≠ 0 ∧ (s.reg f.sa).toNat = 0xFFF000005FFC0 ∧
    (ringOf s n).free = 0 ∧ 0 < (ringOf s n).taken :=
  ⟨buffer 7 ⟨0x8000, 6, 2, 0, 0, 0, 0, [⟨false, some 0, none⟩], 3, []⟩ (invoked (regs [(1, 0xFFF000005FFC0)])), ⟨noG, 5, 1, 7⟩, 7, by decide, by decide, by decide, by decide, runs (by decide) _ _ _ _,
    runs (by decide) _ _ _ _, runs (by decide) _ _ _ _, by decide +kernel⟩

theorem witness_MessageSends : ∃ (f : SR) (s : State), s.executes f.ctl [f.sa, f.sb] none 0 ∧ s.inHandler = false ∧ s.ctx.outMsg = none ∧
    msgTrap s (.msg f) (s.reg f.sa) (s.reg f.sb) = none :=
  ⟨⟨noG, 0, 5, 6, 0, 0, 0⟩, { home (regs [(5, 2 ^ 61), (6, 0xFFF0000000000)]) with lmem := [(localKey 0 7, 0x10)] },
    runs (by decide) _ _ _ _, by and_intros <;> decide +kernel⟩

/-- A message of class 3 with command 0x80 at the start of core 0's local memory. -/
def posting (dest : Nat) : State :=
  { held 2 (home (regs [(5, dest), (6, 0xFFF0000000000)])) with lmem := [(localKey 0 6, 0x30), (localKey 0 7, 0x80)] }

theorem witness_MessageSends_inbox : ∃ (f : SR) (s : State), s.executes f.ctl [f.sa, f.sb] none 0 ∧ s.inHandler = false ∧
    s.ctx.outMsg = none ∧ msgTrap s (.msg f) (s.reg f.sa) (s.reg f.sb) = none ∧
    let dest := s.reg f.sa
    let m := messageAt s ((s.reg f.sb).toNat - 0xFFF0000000000)
    let c := coreOf (dest.toNat % 256) (dest.toNat / 256 % 256)
    dest.extractLsb' 60 4 = 0 ∧ m.w0.extractLsb' 56 8 = 0x80 ∧ isReserved c = false ∧ (s.coreAt c).placed.isSome = true ∧
      ((s.coreAt c).rings[(Fin.ofNat 8 (classOf m))]).res = [] :=
  ⟨⟨noG, 0, 5, 6, 0, 0, 0⟩, posting 2, runs (by decide) _ _ _ _, by decide +kernel⟩

theorem witness_MessageEvents_inbox : ∃ (d : Delivery), classOf d.msg < 4 := ⟨⟨⟨0x80 * 2 ^ 56 + 3 * 2 ^ 52, 0, 0, 0, 0, 0, 0, 0⟩, someone, 0⟩, by decide⟩

theorem witness_MessageEvents_handler : ∃ (m : Message) (p : Sender) (s : State) (c : CoreId), pointerOk m.w2 = true ∧
    s.homeCore (if p.remote then 0 else dieOf p.core) p.domain (m.w2.toNat % 2 ^ 52) = .ok c :=
  ⟨⟨0x48 * 2 ^ 56, 0, 0xFFF8, 0, 0, 0, 0, 0⟩, ⟨0, 1, 0, 0, none, false⟩, tables State.reset, 32, by decide, by decide⟩

theorem witness_MessageEvents_invocation : ∃ (c : CoreId) (s : State) (d : Delivery) (before after : List Delivery),
    (s.coreAt c).inv = none ∧ (s.coreAt c).hqueue = before ++ d :: after ∧ (∀ e ∈ (s.coreAt c).hqueue, classOf e.msg < 4) ∧
    (∀ e ∈ before, classOf d.msg < classOf e.msg) ∧ (∀ e ∈ after, classOf d.msg ≤ classOf e.msg) ∧
    (s.dieAt (dieOf c)).held = [] ∧ 0x40 ≤ (d.msg.w0.extractLsb' 56 8).toNat ∧ (d.msg.w0.extractLsb' 56 8).toNat ≤ 0x7F :=
  let e : Nat → Delivery := fun k => ⟨⟨BitVec.ofNat 64 (0x7F * 2 ^ 56 + k * 2 ^ 52), 0, 0, 0, 0, 0, 0, 0⟩, someone, 2⟩
  ⟨2, State.reset.modCore 2 (fun k => { k with hqueue := [e 3, e 1, e 1] }), e 1, [e 3], [e 1], by and_intros <;> decide +kernel⟩

theorem witness_MessageEvents_overrun : ∃ (c : CoreId) (s : State), (s.ctxAt c handlerCtx).region = none ∧ ((s.coreAt c).inv).isSome = true :=
  ⟨0, invoked id, by decide, by decide⟩

theorem witness_MessageEvents_accept : ∃ (c : CoreId) (x : CtxId) (s : State) (dest : Word) (m : Message),
    (s.ctxAt c x).status = .waiting .accept ∧ (s.ctxAt c x).outMsg = some (dest, m) :=
  ⟨0, 3, State.reset.modCtxAt 0 3 (fun y => { y with status := .waiting .accept, outMsg := some (0, ⟨0, 0, 0, 0, 0, 0, 0, 0⟩) }), _, _,
    by decide, rfl⟩

theorem witness_RepliesNotifiesBinds_reply : ∃ (f : SR) (s : State) (v : Invocation), s.executes f.ctl [f.sa, f.sb] none 0 ∧
    (s.coreAt s.cur.1).inv = some v ∧ s.inHandler = true :=
  ⟨⟨noG, 0, 4, 5, 0, 0, 0⟩, invoked id, _, runs (by decide) _ _ _ _, rfl, by decide⟩

theorem witness_RepliesNotifiesBinds_sender : ∃ p : Sender, p.remote = false := ⟨someone, rfl⟩

theorem witness_RepliesNotifiesBinds_release : ∃ (s : State) (d : DieId) (m : Message) (ln : L2Line) (k : Nat), wantsReply m = true ∧
    ln ∈ (s.dieAt d).l2 ∧ lineSound s d ln ∧ s.flue = [] ∧
    (∀ o ∈ (s.dieAt d).l2, o ≠ ln → o.dirty ≠ 0 → o.pa + o.size ≤ ln.pa ∨ ln.pa + ln.size ≤ o.pa) ∧ k < ln.size ∧
    ln.dirty.testBit k = true :=
  ⟨copied id, 0, ⟨2 ^ 51, 0, 0, 0, 0, 0, 0, 0⟩, _, 8, by decide, List.mem_singleton.2 rfl, ⟨by decide, by decide⟩, by decide +kernel⟩

theorem witness_RepliesNotifiesBinds_notify : ∃ (f : SR) (s : State), s.executes f.ctl [f.sa, f.sb] none 0 ∧ s.inHandler = false ∧
    s.ctx.mode ≠ .program :=
  ⟨⟨noG, 0, 5, 6, 0, 0, 0⟩, plain (regs [(5, 0xF1F), (6, 11)]), runs (by decide) _ _ _ _, by decide, by decide⟩

theorem witness_HelpersAndEnds_hstart : ∃ (f : SQ) (s : State) (h : CtxId), s.executes f.ctl [f.sa, f.sb, f.sc] (some f.dst) 0 ∧
    s.inHandler = false ∧ s.helperQuota ≤ 10 ∧ s.isControl = true ∧ (s.reg f.sa).toNat % 8 = 0 ∧ 1 ≤ h.val ∧ h.val ≤ s.helperQuota ∧
    s.isFree s.cur.1 h = true ∧ ∀ g : CtxId, 1 ≤ g.val → g < h → s.isFree s.cur.1 g = false :=
  ⟨⟨noG, 10, 4, 5, 6, 0, 0⟩, home (regs [(4, 0x800)]), 1, runs (by decide) _ _ _ _, by decide, by decide, by decide, by decide, by decide,
    by decide, by decide, fun g a b => by have : g.val < 1 := b
                                          omega⟩

theorem witness_HelpersAndEnds_hjoin : ∃ (f : SR) (s : State), s.executes f.ctl [f.sa] none 0 ∧ s.inHandler = false ∧ s.isControl = true ∧
    (s.reg f.sa).toNat = 10 := ⟨⟨noG, 0, 4, 0, 0, 0, 0⟩, home (regs [(4, 10)]), runs (by decide) _ _ _ _, by and_intros <;> decide +kernel⟩

theorem witness_HelpersAndEnds_hend_waits : ∃ (f : SR) (s : State), s.executes f.ctl [] none 0 ∧ s.inHandler = false ∧ s.cur.2 = 0 ∧
    (s.coreAt s.cur.1).helperActive = true :=
  ⟨⟨noG, 0, 0, 0, 0, 0, 0⟩, (home id).modCtxAt 0 10 (fun y => { y with status := .live }), runs (by decide) _ _ _ _, by and_intros <;> decide +kernel⟩

set_option maxRecDepth 20000 in
theorem witness_HelpersAndEnds_hend : ∃ (f : SR) (s : State) (p : Placement), s.executes f.ctl [] none 0 ∧ s.inHandler = false ∧
    ¬ (s.cur.2 = 0 ∧ (s.coreAt s.cur.1).helperActive = true) ∧ s.lease = none ∧ s.ctx.hopped = none ∧ (s.coreAt s.cur.1).placed = some p ∧
    s.coresOf p.launch p.group = [s.cur.1] :=
  ⟨⟨noG, 0, 0, 0, 0, 0, 0⟩, home id, ⟨3, 0, 10, 0, 7, [], [], true⟩, runs (by decide) _ _ _ _, by and_intros <;> decide +kernel⟩

theorem witness_HelpersAndEnds_handler : ∃ (f : SR) (s : State) (v : Invocation) (o : Nat), s.executes f.ctl [] none 0 ∧ s.inHandler = true ∧
    (s.coreAt s.cur.1).inv = some v ∧ v.replied = false ∧ wantsReply v.msg = true ∧ v.sender.remote = false ∧
    windowOffset (v.msg.w1.toNat % 2 ^ 52) = some o ∧ s.holdsSender v.sender = true ∧ o + 16 ≤ 0x60000 :=
  let m : Message := ⟨0x40 * 2 ^ 56 + 2 ^ 51, 0xFFF000005FFF0, 0, 0, 0, 0, 0, 0⟩
  ⟨⟨noG, 0, 0, 0, 0, 0, 0⟩, held 1 ((invoked id).modCore 0 (fun k => { k with inv := some ⟨m, someone, 9, 0, false⟩ })), _, 0x5FFF0,
    runs (by decide) _ _ _ _, by decide, rfl, rfl, by decide, rfl, by and_intros <;> decide +kernel⟩

theorem witness_HelpersAndEnds_wake : ∃ (c : CoreId) (x : CtxId) (w : Wait) (s : State), (s.ctxAt c x).status = .waiting w ∧
    s.waitOver c x w = true :=
  ⟨0, 0, .helpersEnded, State.reset.modCtxAt 0 0 (fun y => { y with status := .waiting .helpersEnded }), by decide, by decide⟩

theorem witness_Barriers : ∃ (f : SI) (s : State), s.executes f.ctl [f.sa] none 0 ∧ s.inHandler = false ∧ scopeOk (s.reg f.sa) = true ∧
    ∃ p path, s.barrierOf (f.imm.toNat % 64) = some (p, path) ∧ p.isMember s.cur.2 = true ∧
      hasArrived s.ctx (f.imm.toNat % 64) = false ∧ s.spannedDies p.launch path = [dieOf s.cur.1] ∧
      s.systemWait (s.reg f.sa) = false :=
  ⟨⟨noG, 0, 1, 5⟩, (launched (plain (fun x => { x with domain := 7, launchId := 3 }))).modCore 0 (fun k =>
      { k with placed := some ⟨3, 0, 0, 0, 7, [⟨2, false, 6, 1, 1, 1⟩], [0], true⟩ }), runs (by decide) _ _ _ _, by decide, by decide, _, _,
    rfl, by and_intros <;> decide +kernel⟩

theorem witness_Barriers_report : ∃ (d : DieId) (obj : Nat) (s : State) (b : BarObj), (s.dieAt d).dueBarrier obj = some b ∧
    b = barrierAt s d b.launch b.path b.n :=
  ⟨0, 0, State.reset.modDie 0 (fun d => { d with bars := [⟨3, [], 5, 0, false, true, false, []⟩] }), ⟨3, [], 5, 0, false, true, false, []⟩, by decide, by decide⟩

theorem witness_HopsAndLaunches_hop : ∃ (f : SR) (s : State), s.executes f.ctl [f.sa] none 0 ∧ (s.reg f.sa).toNat = 8 ∧ s.inHandler = false :=
  ⟨⟨noG, 0, 6, 0, 0, 0, 0⟩, home (regs [(6, 8)]), runs (by decide) _ _ _ _, by decide, by decide⟩

theorem witness_HopsAndLaunches_arrival : ∃ (c e : CoreId) (x : CtxId) (s : State), (s.ctxAt c x).travel = some e :=
  ⟨0, 5, 1, State.reset.modCtxAt 0 1 (fun y => { y with travel := some 5 }), by decide⟩

theorem witness_HopsAndLaunches_misaligned : ∃ (f : SR) (s : State), s.executes f.ctl [f.sa] (some f.dst) 0 ∧ s.inHandler = false ∧
    (s.reg f.sa).toNat % 256 ≠ 0 := ⟨⟨noG, 5, 6, 0, 0, 0, 0⟩, home (regs [(6, 0x80)]), runs (by decide) _ _ _ _, by decide, by decide⟩

theorem witness_HopsAndLaunches_launch : ∃ (f : SR) (s w : State) (v : Nat), s.executes f.ctl [f.sa] (some f.dst) 0 ∧ s.inHandler = false ∧
    (s.reg f.sa).toNat % 256 = 0 ∧
    (((issued s f.ctl [f.sa]).drainVector).releaseSteps ((issued s f.ctl [f.sa]).drainVector).runCore packageScope).readRecord (s.reg f.sa) =
      .ok (v, w) :=
  ⟨⟨noG, 5, 6, 0, 0, 0, 0⟩, home (regs [(6, 0xFFF0000000100)]), _, 0, runs (by decide) _ _ _ _, by decide, by decide, rfl⟩

theorem witness_Invalidations_plbinv : ∃ (f : SR) (s : State), s.executes f.ctl [f.sa] none 0 ∧ s.inHandler = false ∧ s.ctx.mode ≠ .program :=
  ⟨⟨noG, 0, 1, 0, 0, 0, 0⟩, plain (regs [(1, 65535)]), runs (by decide) _ _ _ _, by decide, by decide⟩

theorem witness_Invalidations_pinv : ∃ (f : SR) (s : State), s.executes f.ctl [f.sa, f.sb] none 0 ∧ s.inHandler = false ∧
    s.ctx.mode ≠ .program ∧ (s.reg f.sa).toNat + (s.reg f.sb).toNat = 2 ^ 36 ∧ s.commandsPending = false :=
  ⟨⟨noG, 0, 1, 2, 0, 0, 0⟩, plain (regs [(1, 2 ^ 36 - 1), (2, 1)]), runs (by decide) _ _ _ _, by and_intros <;> decide +kernel⟩

theorem witness_Invalidations_handoff : ∃ (f : SR) (s : State), s.executes f.ctl [f.sa] none 0 ∧ s.inHandler = false ∧ s.ctx.mode = .firmware ∧
    (s.reg f.sa).toNat = 7 ∧ s.runDie = 0 ∧ s.commandsPending = false :=
  ⟨⟨noG, 0, 1, 0, 0, 0, 0⟩, plain (regs [(1, 7)]), runs (by decide) _ _ _ _, by and_intros <;> decide +kernel⟩

theorem witness_Invalidations_pmig_missing : ∃ (f : SR) (s : State), s.executes f.ctl [f.sa, f.sb] none 0 ∧ s.inHandler = false ∧
    s.ctx.mode ≠ .program ∧ (s.reg f.sa).toNat < 2 ^ 52 ∧ s.walk (s.reg f.sa).toNat 4 (s.dieAt s.runDie).fw.ptbase = none ∧ s.bad = [] :=
  ⟨⟨noG, 0, 1, 2, 0, 0, 0⟩, tables (plain (regs [(1, 0x10000)])), runs (by decide) _ _ _ _, by and_intros <;> decide +kernel⟩

theorem witness_Invalidations_pmig : ∃ (f : SR) (s u : State) (l : Leaf), s.executes f.ctl [f.sa, f.sb] none 0 ∧ s.inHandler = false ∧
    s.ctx.mode ≠ .program ∧ (s.reg f.sa).toNat < 2 ^ 52 ∧ s.walk (s.reg f.sa).toNat 4 (s.dieAt s.runDie).fw.ptbase = some l ∧
    (s.reg f.sb).toNat % l.size = 0 ∧ inOneUnit (s.reg f.sb).toNat l.size = true ∧ (s.reg f.sb).toNat < 2 ^ 52 ∧
    (issued s f.ctl [f.sa, f.sb]).migrate l (s.reg f.sb).toNat = .ok u ∧ memoriesWf s = true ∧
    (∀ d, (s.dieAt d).l2 = [] ∧ (s.dieAt d).markers = []) ∧ s.flue = [] ∧
    (l.pte + 16 ≤ (s.reg f.sb).toNat ∨ (s.reg f.sb).toNat + l.size ≤ l.pte) :=
  ⟨⟨noG, 0, 1, 2, 0, 0, 0⟩, tables (plain (regs [(1, 0xFFF8), (2, 0x90000)])), _, ⟨0, 65536, 0x80000, 32, 0, false, false, 0, 0, 0x30000⟩,
    runs (by decide) _ _ _ _, by decide, by decide, by decide, by decide, by decide, by decide, by decide, rfl, by and_intros <;> decide +kernel⟩

/-! ### Vectors -/

theorem witness_VectorArithmetic : ∃ (i : Instr) (s : State) (r : VRow), i.wellFormed = true ∧ arithmeticRow s i = some r ∧
    executesV s r.ctl r.scalars :=
  ⟨.vadd ⟨vc 10, 4, 5, 6, 0, 0, 0⟩, plain (vecs 128 [(5, 1)]), _, by decide, rfl, runs (by decide) _ _ _ _⟩

/-- A signalling NaN, an infinity, a zero, a negative number, a small subnormal, 4, -126, -127, and whole and broken turns. -/
theorem witness_VectorArithmetic_special : classNumber f32 0x7F800001 = 8 ∧ classNumber f32 0xFF800000 = 0 ∧
    classNumber f32 0x80000000 = 3 ∧ classNumber f32 0xBF800000 = 1 ∧ classNumber f32 (2 ^ 21) = 5 ∧
    f32.decode false 0x40800000 = .fin false (2 ^ 23) (-21) ∧ 2 ^ 23 = 4 * 2 ^ (-(-21 : Int)).toNat ∧
    f32.decode true 0xC2FC0000 = .fin true (126 * 2 ^ 17) (-17) ∧ f32.decode true 0xC2FE0000 = .fin true (127 * 2 ^ 17) (-17) ∧
    quarterTurns (2 ^ 23) (-21) = some 16 ∧ quarterTurns (2 ^ 23) (-25) = some 1 ∧ quarterTurns 1 (-149) = none := by
  and_intros <;> decide +kernel

theorem witness_VectorMovement : ∃ (i : Instr) (s : State) (r : VRow), i.wellFormed = true ∧ movementRow s i = some r ∧
    executesV s r.ctl r.scalars :=
  ⟨.viota ⟨vc 4, 4, 0, 0, 0, 0, 0⟩, plain (vecs 128 []), _, by decide, rfl, runs (by decide) _ _ _ _⟩

/-- The grain of `paged`, and a copy of it with two elements in core 0's L1. -/
def cached (f : Ctx → Ctx) : State :=
  (paged f).modCore 0 (fun k => { k with l1 := [⟨0x20000, 32, 0x22222222222222221111111111111111⟩] })

theorem witness_VectorLoads : ∃ (i : Instr) (s : State) (shape : Shape) (f : VM) (ty l : Nat), i.wellFormed = true ∧
    isVectorLoad i = true ∧ memoryForm i = some (shape, f) ∧ loadType (s.reg f.base) f.ctl.ty = .ok (ty, l) ∧
    accessStarts s shape f (WellFormed.width ty) ∧ (shape = .indexed → f.vd ≠ f.sx) ∧
    ∀ e ∈ activeBelow s f.ctl s.ctx.vl, (laneFound s shape f (WellFormed.width ty) e).isSome = true :=
  ⟨.vld ⟨vc 6, 4, 1, 0, 0, 0⟩, plain (fun x => vecs 3 [] (regs [(1, 0xFFF000005FFE8)] x)), .unit, _, 6, 0, by decide +kernel, rfl, rfl, by decide +kernel,
    ⟨by decide +kernel, by decide +kernel, by decide +kernel, runs (by decide) _ _ _ _⟩, by decide, by decide +kernel⟩

theorem witness_VectorLoads_paged : ∃ (s : State) (f : VM), loadType (s.reg f.base) f.ctl.ty = .ok (6, 0) ∧
    accessStarts s .strided f 64 ∧ activeBelow s f.ctl s.ctx.vl = [0, 1] ∧ laneFound s .strided f 64 0 = some 0x1111111111111111 ∧
    (laneFound s .strided f 64 1).isSome = true :=
  ⟨cached (fun x => vecs 2 [] (regs [(1, 0x20000), (2, 8)] x)), ⟨vc 6, 4, 1, 2, 0, 0⟩, by decide +kernel,
    ⟨by decide +kernel, by decide +kernel, by decide +kernel, runs (by decide) _ _ _ _⟩, by decide +kernel, by decide +kernel, by decide +kernel⟩

theorem witness_VectorLoads_filled : ∃ (s u' : State) (f : VM) (u : Nat → State) (v : Nat → Nat), loadType (s.reg f.base) f.ctl.ty = .ok (6, 0) ∧
    accessStarts s .unit f 64 ∧ u s.ctx.vstart = issued s ⟨f.ctl.stall, none⟩ [f.base] ∧ s.ctx.vstart = 0 ∧ s.ctx.vl = 1 ∧
    chosen s.ctx f.ctl 0 = true ∧ laneTarget s .unit f 64 0 = .ok 0x20000 ∧
    (u 0).load .l1 false 0x20000 (laneBytes 64) = .ok (v 0, u') ∧ u 1 = u' :=
  let s := paged (fun x => vecs 1 [] (regs [(1, 0x20000)] x))
  let s0 := issued s ⟨0, none⟩ [1]
  have ⟨p, h⟩ := ok_of (x := s0.load .l1 false 0x20000 8) (by decide +kernel)
  ⟨s, p.2, ⟨vc 6, 4, 1, 0, 0, 0⟩, fun e => if e = 0 then s0 else p.2, fun _ => p.1, by decide +kernel,
    ⟨by decide +kernel, by decide +kernel, by decide +kernel, runs (by decide) _ _ _ _⟩, rfl, by decide, by decide,
    by decide, by decide +kernel, h, rfl⟩

theorem witness_VectorLoads_stops : ∃ (i : Instr) (s : State) (shape : Shape) (f : VM) (ty l e : Nat) (c : BitVec 8) (v : Word),
    i.wellFormed = true ∧ isVectorLoad i = true ∧ memoryForm i = some (shape, f) ∧
    loadType (s.reg f.base) f.ctl.ty = .ok (ty, l) ∧ accessStarts s shape f (WellFormed.width ty) ∧ (shape = .indexed → f.vd ≠ f.sx) ∧
    s.ctx.vstart ≤ e ∧ e < s.ctx.vl ∧
    chosen s.ctx f.ctl e = true ∧ laneStop s shape f rightR (WellFormed.width ty) e = some (c, v) ∧
    (∀ j ∈ activeBelow s f.ctl e, (laneFound s shape f (WellFormed.width ty) j).isSome = true) ∧ s.inHandler = false :=
  ⟨.vlds ⟨vc 6, 4, 1, 2, 0, 0⟩, plain (fun x => vecs 3 [] (regs [(1, 0xFFF0000000000), (2, 4)] x)), .strided, _, 6, 0, 1, 0x04, 0xFFF0000000004,
    by decide +kernel, rfl, rfl, by decide +kernel, ⟨by decide +kernel, by decide +kernel, by decide +kernel, runs (by decide) _ _ _ _⟩, by decide,
    by decide +kernel⟩

theorem witness_VectorLoads_unreadable : ∃ (s : State) (f : VM), loadType (s.reg f.base) f.ctl.ty = .ok (6, 0) ∧
    accessStarts s .strided f 64 ∧ s.ctx.vl = 2 ∧ activeBelow s f.ctl 1 = [0] ∧ (laneFound s .strided f 64 0).isSome = true ∧
    chosen s.ctx f.ctl 1 = true ∧ laneStop s .strided f rightR 64 1 = some (0x05, 0x30000) :=
  ⟨cached (fun x => vecs 2 [] (regs [(1, 0x20000), (2, 65536)] x)), ⟨vc 6, 4, 1, 2, 0, 0⟩, by decide +kernel,
    ⟨by decide +kernel, by decide +kernel, by decide +kernel, runs (by decide) _ _ _ _⟩, by decide +kernel⟩

/-- A place whose flag says local is a cell of local memory. -/
theorem window_of {x : Option (Bool × Nat)} (h : x.map Prod.fst = some true) : ∃ cell, x = some (true, cell) := by
  obtain ⟨⟨b, c⟩, e⟩ : ∃ p, x = some p := by cases x <;> simp_all
  subst e
  exact ⟨c, by simp_all⟩

theorem witness_VectorStores : ∃ (i : Instr) (s : State) (shape : Shape) (f : VM) (ty l : Nat), i.wellFormed = true ∧
    isVectorLoad i = false ∧ memoryForm i = some (shape, f) ∧ storeType (s.reg f.base) f.ctl.ty (s.ctx.vtagOf f.vd) = .ok (ty, l) ∧
    accessStarts s shape f (WellFormed.width ty) ∧
    ∀ e ∈ activeBelow s f.ctl s.ctx.vl, ∃ cell, laneSite s shape f (WellFormed.width ty) e = some (true, cell) :=
  ⟨.vstx ⟨vc 2, 4, 1, 5, 0, 0⟩, plain (fun x => vecs 2 [(5, 2 ^ 33 + 4)] (regs [(1, 0xFFF0000000000)] x)), .indexed, _, 2, 0, by decide +kernel, rfl, rfl,
    by decide +kernel, ⟨by decide +kernel, by decide +kernel, by decide +kernel, runs (by decide) _ _ _ _⟩,
    fun e h => window_of ((show ∀ e ∈ activeBelow _ _ _, (laneSite _ _ _ _ e).map Prod.fst = some true by decide +kernel) e h)⟩

theorem witness_VectorStores_paged : ∃ (s : State) (f : VM) (pa : Nat), storeType (s.reg f.base) f.ctl.ty (s.ctx.vtagOf f.vd) = .ok (14, 0) ∧
    accessStarts s .unit f 4 ∧ activeBelow s f.ctl s.ctx.vl = [0, 1] ∧ laneSite s .unit f 4 0 = some (false, pa) ∧
    laneSite s .unit f 4 1 = some (false, pa) :=
  ⟨paged (fun x => vecs 2 [(4, 0x21)] (regs [(1, 0x20003)] x)), ⟨vc 14, 4, 1, 0, 0, 0⟩, 0x5003, by decide +kernel,
    ⟨by decide +kernel, by decide +kernel, by decide +kernel, runs (by decide) _ _ _ _⟩, by decide +kernel⟩

theorem witness_VectorStores_allocated : ∃ (s : State) (f : VM) (u : Nat → State), storeType (s.reg f.base) f.ctl.ty (s.ctx.vtagOf f.vd) = .ok (6, 0) ∧
    accessStarts s .unit f 64 ∧ u s.ctx.vstart = issued s ⟨f.ctl.stall, none⟩ [f.base] ∧ s.ctx.vstart = 0 ∧ s.ctx.vl = 1 ∧
    chosen s.ctx f.ctl 0 = true ∧ laneTarget s .unit f 64 0 = .ok 0x20000 ∧
    laneStores (u 0) (u 1) 0x20000 64 0 (lane (s.ctx.vreg f.vd) 64 0) :=
  let s := copied (fun x => vecs 1 [] (regs [(1, 0x20000)] x))
  let s0 := issued s ⟨0, none⟩ [1]
  have ⟨p, h⟩ := ok_of (x := s0.store false 0x20000 8 (lane (s.ctx.vreg 4) 64 0)) (by decide +kernel)
  ⟨s, ⟨vc 6, 4, 1, 0, 0, 0⟩, fun e => if e = 0 then s0 else p,
    by decide +kernel, ⟨by decide +kernel, by decide +kernel, by decide +kernel, runs (by decide) _ _ _ _⟩, rfl, by decide, by decide,
    by decide, by decide +kernel, h⟩

theorem witness_VectorStores_stops : ∃ (i : Instr) (s : State) (shape : Shape) (f : VM) (ty l e : Nat) (c : BitVec 8) (v : Word),
    i.wellFormed = true ∧ isVectorLoad i = false ∧ memoryForm i = some (shape, f) ∧
    storeType (s.reg f.base) f.ctl.ty (s.ctx.vtagOf f.vd) = .ok (ty, l) ∧ accessStarts s shape f (WellFormed.width ty) ∧
    s.ctx.vstart ≤ e ∧ e < s.ctx.vl ∧ chosen s.ctx f.ctl e = true ∧ laneStop s shape f rightW (WellFormed.width ty) e = some (c, v) ∧
    (∀ j ∈ activeBelow s f.ctl e, (laneSite s shape f (WellFormed.width ty) j).isSome = true) ∧ s.inHandler = false :=
  ⟨.vstx ⟨vc 2, 4, 1, 5, 0, 1⟩, plain (fun x => vecs 2 [(5, 0xFFFFFFFF * 2 ^ 32)] (regs [(1, 0xFFF0000000000)] x)), .indexed, _, 2, 0, 1, 0x04,
    0xFFEFFFFFFFFFF, by decide +kernel, rfl, rfl, by decide +kernel, ⟨by decide +kernel, by decide +kernel, by decide +kernel, runs (by decide) _ _ _ _⟩,
    by decide +kernel⟩

theorem witness_VectorChecks_tags : ∃ (i : Instr) (f : FV) (s : State), i = .vadd f ∧ s.inHandler = false ∧ executesV s f.ctl [] ∧
    f.ctl.ty = 31 ∧ (s.ctx.vtagOf f.va).toNat / 8 = 31 :=
  ⟨_, ⟨vc 31, 4, 5, 6, 0, 0, 0⟩, plain (vecs 1 []), rfl, by decide, runs (by decide) _ _ _ _, by decide, by decide⟩

theorem witness_VectorChecks_width : ∃ (i : Instr) (f : FV) (s : State), i = .vmin f ∧ s.inHandler = false ∧ executesV s f.ctl [] ∧
    f.ctl.ty.toNat ≤ 11 ∧ min s.ctx.vlcap 4096 < s.ctx.vl * WellFormed.width f.ctl.ty.toNat :=
  ⟨_, ⟨vc 11, 4, 5, 6, 0, 0, 0⟩, plain (vecs 129 []), rfl, by decide, runs (by decide) _ _ _ _, by decide, by decide⟩

theorem witness_VectorChecks_overlap : ∃ (f : VS) (g : FV) (s : State), s.inHandler = false ∧ f.ctl.ty.toNat ≤ 7 ∧ g.ctl.ty.toNat ≤ 7 ∧
    executesV s f.ctl [f.sb] ∧ f.vd = f.va ∧ executesV s g.ctl [] ∧ g.vd = g.va :=
  ⟨⟨vc 4, 5, 5, 1, 0, 0⟩, ⟨vc 4, 5, 5, 6, 0, 0, 0⟩, plain (vecs 128 []), by decide, by decide, by decide, runs (by decide) _ _ _ _, rfl,
    runs (by decide) _ _ _ _, rfl⟩

theorem witness_VectorChecks_pointer : ∃ (i : Instr) (s : State) (shape : Shape) (f : VM) (v : Word), memoryForm i = some (shape, f) ∧
    s.inHandler = false ∧ executesV s f.ctl (if shape = .strided then [f.base, f.sx] else [f.base]) ∧ pointerOk (s.reg f.base) = true ∧
    (f.ctl.ty ≠ 31 → s.ctx.vl * max (WellFormed.width f.ctl.ty.toNat) (indexBits shape f) ≤ min s.ctx.vlcap 4096) ∧
    (f.ctl.ty = 31 → isVectorLoad i = false → (s.ctx.vtagOf f.vd).toNat / 8 ≤ 18 →
      s.ctx.vl * max (WellFormed.width ((s.ctx.vtagOf f.vd).toNat / 8)) (indexBits shape f) ≤ min s.ctx.vlcap 4096) ∧
    (if isVectorLoad i then loadType (s.reg f.base) f.ctl.ty else storeType (s.reg f.base) f.ctl.ty (s.ctx.vtagOf f.vd)) = .error v :=
  ⟨.vld ⟨vc 6, 4, 1, 0, 0, 0⟩, plain (fun x => vecs 1 [] (regs [(1, 2 ^ 63 + 4 * 2 ^ 58)] x)), .unit, _, _, rfl, by decide,
    runs (by decide) _ _ _ _, by decide, by decide, by decide, rfl⟩

theorem witness_VectorChecks_store : ∃ (s t u : State) (f g : VM), executesV s f.ctl [f.base] ∧ executesV t f.ctl [f.base] ∧
    executesV u g.ctl [g.base] ∧ s.inHandler = false ∧ t.inHandler = false ∧ u.inHandler = false ∧ f.ctl.ty = 31 ∧
    memoryForm (.vst f) = some (.unit, f) ∧ 18 < (s.ctx.vtagOf f.vd).toNat / 8 ∧ pointerOk (s.reg f.base) = false ∧
    (t.ctx.vtagOf f.vd).toNat / 8 ≤ 18 ∧
    min t.ctx.vlcap 4096 < t.ctx.vl * max (WellFormed.width ((t.ctx.vtagOf f.vd).toNat / 8)) (indexBits .unit f) ∧
    g.ctl.ty.toNat ≤ 18 ∧ u.ctx.vl * max (WellFormed.width g.ctl.ty.toNat) (indexBits .unit g) ≤ min u.ctx.vlcap 4096 ∧
    pointerOk (u.reg g.base) = false :=
  let bad := fun n => plain (fun x => vecs n [] (regs [(1, 2 ^ 62)] x))
  ⟨bad 1, plain (fun x => { vecs 129 [] x with vtag := x.vtag.set 4 0x58 }), bad 1, ⟨vc 31, 4, 1, 0, 0, 0⟩, ⟨vc 6, 4, 1, 0, 0, 0⟩,
    runs (by decide) _ _ _ _, runs (by decide) _ _ _ _, runs (by decide) _ _ _ _, by decide, by decide, by decide, by decide, rfl,
    by decide +kernel⟩

theorem witness_MaskInstructions_compare : ∃ (i : Instr) (s : State) (g : Comparison) (ty l : Nat), i.wellFormed = true ∧
    comparisonOf s i = some g ∧ s.ctx.elemType arithType g.ctl.ty g.typed = .ok (ty, l) ∧
    s.ctx.vl * WellFormed.width ty ≤ min s.ctx.vlcap 4096 ∧ executesV s g.ctl g.scalars ∧ s.ctx.vstart < s.ctx.vl :=
  ⟨.vcmp ⟨vc 0, 4, 5, 6, 0, 2, 0⟩, plain (vecs 512 [(5, 1)]), _, 0, 0, by decide, rfl, by decide, by decide +kernel, runs (by decide) _ _ _ _, by decide⟩

theorem witness_MaskInstructions_memory : ∃ (f : VM) (s : State) (o : Nat), s.ctx.vl * 4 ≤ min s.ctx.vlcap 4096 ∧
    pointerOk (s.reg f.base) = true ∧ executesV s f.ctl [f.base] ∧
    ((s.reg f.base).toNat % 2 ^ 52 : Nat) + f.off.toInt = 0xFFF0000000000 + (o : Int) ∧ o + (s.ctx.vl + 7) / 8 ≤ 0x60000 ∧
    (Instr.kld f).wellFormed = true ∧ (Instr.kst f).wellFormed = true :=
  ⟨⟨vc 0, 3, 1, 0, 0xFFFF, 0⟩, plain (fun x => vecs 1024 [] (regs [(1, 0xFFF000005FF81)] x)), 0x5FF80, by decide, by decide,
    runs (by decide) _ _ _ _, by and_intros <;> decide +kernel⟩

theorem witness_MaskInstructions_masks : ∃ (f : FK) (s : State), s.executes f.ctl [] none 0 ∧ s.inHandler = false ∧
    (Instr.klog f).wellFormed = true := ⟨⟨noG, 3, 1, 2, 1, 0, 0⟩, plain id, runs (by decide) _ _ _ _, by decide, by decide⟩

theorem witness_MaskInstructions_mov : ∃ (f : FK) (s : State), s.executes f.ctl [] none 0 ∧ s.inHandler = false ∧
    (Instr.kmov f).wellFormed = true := ⟨⟨noG, 3, 1, 0, 0, 0, 0⟩, plain id, runs (by decide) _ _ _ _, by decide, by decide⟩

theorem witness_MaskInstructions_count : ∃ (f : FK) (s : State), s.executes f.ctl [] (some f.sd) 0 :=
  ⟨⟨noG, 0, 1, 0, 0, 5, 0⟩, plain id, runs (by decide) _ _ _ _⟩

theorem witness_MaskInstructions_extract : ∃ (f : VS) (s : State) (ty l : Nat), executesV s f.ctl [f.sb] ∧
    (Instr.vext f).wellFormed = true ∧ s.ctx.elemType anyType f.ctl.ty [f.va] = .ok (ty, l) :=
  ⟨⟨vc 14, 5, 4, 6, 0, 0⟩, plain (regs [(6, 1023)]), 14, 0, runs (by decide) _ _ _ _, by decide, by decide⟩

theorem witness_MaskInstructions_insert : ∃ (f : VS) (s : State), executesV s f.ctl [f.sb] ∧ (Instr.vins f).wellFormed = true ∧
    s.inHandler = false := ⟨⟨vc 15, 5, 0, 6, 0, 1023⟩, plain id, runs (by decide) _ _ _ _, by decide, by decide⟩

theorem witness_MaskInstructions_admission : ∃ (c : CoreId) (s : State) (e : VqEntry) (rest : List VqEntry),
    (s.coreAt c).vqueue = e :: rest :=
  ⟨0, State.reset.modCore 0 (fun k => { k with vqueue := [⟨(0, 0), 0, 4, none, [], []⟩] }), _, _, rfl⟩

/-! ### The Firebox -/

theorem witness_MatrixLeases_shape : ∃ (f : FX) (s : State), s.executes f.ctl [] (some f.sd) 0 ∧ s.inHandler = false :=
  ⟨⟨noG, 0, 0, 0, 0, 5, 0, 0⟩, home id, runs (by decide) _ _ _ _, by decide⟩

theorem witness_MatrixLeases_lease : ∃ (f : FX) (s : State), s.executes f.ctl [f.sa] (some f.sd) 0 ∧ s.inHandler = false ∧
    (s.reg f.sa).toNat = 12 ∧ s.ctx.hopped.isSome = false ∧ s.ctx.holdsLease = false ∧
    s.grantNumber (dieOf s.cur.1) (s.reg f.sa).toNat = some (1, 3) :=
  ⟨⟨noG, 0, 14, 0, 0, 15, 0, 0⟩, { home (regs [(14, 12)]) with launches := [⟨3, 3, { oneCore with slots := 12 }, none, [], some 0, []⟩] },
    runs (by decide) _ _ _ _, by and_intros <;> decide +kernel⟩

theorem witness_MatrixLeases_tile : ∃ (f : FX) (s : State) (l : Lease), s.lease = some l ∧ l.fault = none ∧
    s.executes f.ctl [f.sa, f.sb, f.sc] (some f.sd) 0 ∧ s.inHandler = false ∧ (Instr.mtile f).wellFormed = true :=
  ⟨⟨noG, 0, 4, 5, 6, 10, 9, 0⟩, leased (lease []) (regs [(4, 1000), (5, 7), (6, 2000)]), lease [], by decide, rfl, runs (by decide) _ _ _ _,
    by decide, by decide⟩

theorem witness_MatrixLeases_wait : ∃ (f : FX) (s : State) (l : Lease), s.lease = some l ∧ l.fault = none ∧ s.executes f.ctl [] none 0 ∧
    s.inHandler = false ∧ l.queue = [] :=
  ⟨⟨noG, 0, 0, 0, 0, 0, 0, 0⟩, leased (lease []) id, lease [], by decide, rfl, runs (by decide) _ _ _ _, by decide, rfl⟩

theorem witness_MatrixFaults_none : ∃ (i : Instr) (f : FX) (srcs : List (BitVec 6)) (dst : Option (BitVec 6)) (s : State),
    matrixForm i = some (f, srcs, dst) ∧ s.ctx.mode.allows (leastMode i) = true ∧ s.executes f.ctl srcs dst 0 ∧ s.inHandler = false ∧
    s.lease = none := ⟨.mma ⟨noG, 0, 0, 0, 0, 0, 9, 0⟩, _, _, _, home id, rfl, by decide, runs (by decide) _ _ _ _, by decide, by decide⟩

theorem witness_MatrixFaults_held : ∃ (i : Instr) (f : FX) (srcs : List (BitVec 6)) (dst : Option (BitVec 6)) (s : State) (l : Lease)
    (q : MFault), matrixForm i = some (f, srcs, dst) ∧ s.ctx.mode.allows (leastMode i) = true ∧ s.executes f.ctl srcs dst 0 ∧
    s.inHandler = false ∧ s.lease = some l ∧ l.fault = some q ∧ q.delivered = false :=
  let l := { lease [⟨0x100, 0, 0, 0, 0, 0, 0, 0⟩] with fault := some ⟨0x0D, 0x20000, 3, false⟩ }
  ⟨.mwait ⟨noG, 0, 0, 0, 0, 0, 0, 0⟩, _, _, _, leased l id, l, _, rfl, by decide, runs (by decide) _ _ _ _, by decide, by decide, rfl, rfl⟩

theorem witness_MatrixFaults_delivered : ∃ (f : FX) (s : State) (l : Lease) (q : MFault) (c : MCmd) (g : FX), s.lease = some l ∧
    l.fault = some q ∧ q.delivered = true ∧ s.executes f.ctl [] none 0 ∧ s.inHandler = false ∧ (homeFirebox s).find l.num = some l ∧
    (∀ o ∈ (homeFirebox s).leases, o.core = l.core → o.ctx = l.ctx → o.num = l.num) ∧ s.ctx.mkvalid = false ∧ l.queue ≠ [] ∧
    l.queue.head? = some c ∧ decode c.word = .ok (.mlda g) :=
  let l := { lease [⟨0x100, 0xE500000289000240, 0x2000, 64, 0, 8, 8, 16⟩] with fault := some ⟨0x05, 0x2000, 3, true⟩, pos := 3 }
  ⟨⟨noG, 0, 0, 0, 0, 0, 0, 0⟩, leased l id, l, _, _, ⟨noG, 0, 20, 18, 0, 0, 9, 0⟩, by decide, rfl, rfl, runs (by decide) _ _ _ _, by decide,
    by decide, by decide, by decide, by decide, rfl, by decide⟩

theorem witness_MatrixFaults_resumed : ∃ (f : FX) (s : State) (l : Lease) (q : MFault), s.lease = some l ∧ l.fault = some q ∧
    q.delivered = true ∧ s.executes f.ctl [] none 0 ∧ s.inHandler = false ∧ (homeFirebox s).find l.num = some l ∧
    (∀ o ∈ (homeFirebox s).leases, o.core = l.core → o.ctx = l.ctx → o.num = l.num) ∧ s.ctx.mkvalid = true ∧ l.queue ≠ [] :=
  let l := { lease [⟨0x100, 0xE500000289000240, 0x2000, 64, 0, 8, 8, 16⟩] with fault := some ⟨0x05, 0x2000, 3, true⟩, pos := 3 }
  ⟨⟨noG, 0, 0, 0, 0, 0, 0, 0⟩, leased l (fun x => { x with mkvalid := true, mkpos := 3 }), l, _, by decide, rfl, rfl, runs (by decide) _ _ _ _, by decide,
    by decide, by decide, by decide, by decide⟩

theorem witness_MatrixLeases_free : ∃ (f : FX) (s : State) (l : Lease), s.lease = some l ∧ l.fault = none ∧ s.executes f.ctl [] none 0 ∧
    s.inHandler = false ∧ l.queue ≠ [] :=
  let l := lease [⟨0x100, 0, 0, 0, 0, 0, 0, 0⟩]
  ⟨⟨noG, 0, 0, 0, 0, 0, 0, 0⟩, leased l id, l, by decide, rfl, runs (by decide) _ _ _ _, by decide, by decide⟩

theorem witness_MatrixCommandsQueue_full : ∃ (i : Instr) (f : FX) (srcs : List (BitVec 6)) (s : State) (l : Lease),
    matrixForm i = some (f, srcs, none) ∧ s.lease = some l ∧ l.fault = none ∧ s.executes f.ctl srcs none 0 ∧ s.inHandler = false ∧
    16 ≤ l.queue.length ∧ i ∈ [.mzero f, .mlda f, .mldb f, .mma f, .mmab f, .mout f] :=
  let f : FX := ⟨noG, 0, 0, 0, 0, 0, 9, 0⟩
  let l := lease (List.replicate 16 ⟨0x100, 0, 0, 0, 0, 0, 0, 0⟩)
  ⟨.mma f, f, _, leased l id, l, rfl, by decide, rfl, runs (by decide) _ _ _ _, by decide, by decide, by simp⟩

theorem witness_MatrixCommandsQueue : ∃ (i : Instr) (f : FX) (srcs : List (BitVec 6)) (s : State) (l : Lease) (word sa sb sc : Word),
    matrixForm i = some (f, srcs, none) ∧ s.lease = some l ∧ l.fault = none ∧ l.queue.length < 16 ∧
    (homeFirebox s).find l.num = some l ∧
    (∀ o ∈ (homeFirebox s).leases, o.core = l.core → o.ctx = l.ctx → o.num = l.num) ∧ s.executes f.ctl srcs none 0 ∧
    s.inHandler = false ∧ l.state = .idle ∧ (homeFirebox s).holder = none ∧ queuedCommand s l i word sa sb sc :=
  ⟨.mzero ⟨noG, 9, 4, 0, 0, 0, 19, 0⟩, _, _, leased (lease []) (regs [(4, 2 ^ 64 - 32768)]), lease [], _, _, _, _, rfl, by decide, rfl, by decide,
    by decide, by decide, runs (by decide) _ _ _ _, by decide, rfl, by decide, rfl, rfl, rfl, rfl, by decide, fun _ => by decide +kernel⟩

theorem witness_MatrixCommandsQueue_product : ∃ (f : FX) (s : State) (l : Lease) (word sa sb sc : Word),
    matrixForm (.mma f) = some (f, [], none) ∧ s.lease = some l ∧ l.fault = none ∧ s.executes f.ctl [] none 0 ∧
    queuedCommand s l (.mma f) word sa sb sc :=
  let f : FX := ⟨noG, 0, 0, 0, 0, 0, 9, 0⟩
  let l := { lease [] with stageA := some ⟨0, 0, 9, 2, 4, []⟩, stageB := some ⟨0, 0, 9, 4, 2, []⟩, loadedA := true, loadedB := true }
  ⟨f, leased l (fun x => { x with mtm := 2, mtn := 2, mtk := 4 }), l, _, _, _, _, rfl, by decide, rfl, runs (by decide) _ _ _ _, rfl, rfl, rfl,
    rfl, ⟨by decide, by rw [if_neg (by decide)]; decide⟩, by rw [if_neg (by decide)]; exact ⟨rfl, rfl, ⟨_, rfl, by decide⟩, _, rfl, by decide⟩⟩

theorem witness_LeasesSavedAndRestored_save : ∃ (f : FX) (s u : State) (l : Lease), s.lease = some l ∧ l.fault = none ∧
    s.executes f.ctl [f.sa] none 0 ∧ s.inHandler = false ∧ s.ctx.mode ≠ .program ∧ pointerOk (s.reg f.sa) = true ∧
    (s.reg f.sa).toNat % 2 ^ 52 % 4096 = 0 ∧
    (issued s f.ctl [f.sa]).unitWriteAt (dieOf s.cur.1) l.domain rightW (some s.cur) ((s.reg f.sa).toNat % 2 ^ 52 : Nat)
      (4096 + l.nslot * 2 ^ 20) (leaseImage s.ctx l) = .ok u := by
  let l : Lease := { lease [⟨0x100, 0, 0, 0, 0, 0, 0, 0⟩] with nslot := 0, domain := 0 }
  let f : FX := ⟨noG, 0, 4, 0, 0, 0, 0, 0⟩
  let s := tables (leased l (fun x => regs [(4, 0x1000)] x))
  have h : ((issued s f.ctl [f.sa]).unitWriteAt (dieOf s.cur.1) l.domain rightW (some s.cur) ((s.reg f.sa).toNat % 2 ^ 52 : Nat)
      (4096 + l.nslot * 2 ^ 20) (leaseImage s.ctx l)).isOk = true := by decide +kernel
  obtain ⟨u, hu⟩ := ok_of h
  exact ⟨f, s, u, l, by decide +kernel, rfl, runs (by decide) _ _ _ _, by decide, by decide, by decide, by decide, hu⟩

theorem witness_LeasesSavedAndRestored_restore : ∃ (f : FX) (s u : State) (num img : Nat), s.ctx.mleaseSaved = true ∧
    s.executes f.ctl [f.sa] none 0 ∧ s.inHandler = false ∧ s.ctx.mode ≠ .program ∧ pointerOk (s.reg f.sa) = true ∧
    (s.reg f.sa).toNat % 2 ^ 52 % 4096 = 0 ∧ (homeFirebox s).freeNumber = some num ∧
    (homeFirebox s).slotsUsed + s.ctx.mlease.nslot.toNat ≤ 12 ∧
    (issued s f.ctl [f.sa]).unitReadAt (dieOf s.cur.1) s.ctx.domain rightR ((s.reg f.sa).toNat % 2 ^ 52 : Nat)
      (4096 + s.ctx.mlease.nslot.toNat * 2 ^ 20) = .ok (img, u) ∧ leaseImageBad img = false := by
  let f : FX := ⟨noG, 0, 4, 0, 0, 0, 0, 0⟩
  let s := tables (plain (fun x => regs [(4, 0x1000)] { x with mleaseSaved := true }))
  have h : (((issued s f.ctl [f.sa]).unitReadAt (dieOf s.cur.1) s.ctx.domain rightR ((s.reg f.sa).toNat % 2 ^ 52 : Nat)
      (4096 + s.ctx.mlease.nslot.toNat * 2 ^ 20)).toOption.map (fun p => leaseImageBad p.1)) = some false := by decide +kernel
  cases e : (issued s f.ctl [f.sa]).unitReadAt (dieOf s.cur.1) s.ctx.domain rightR ((s.reg f.sa).toNat % 2 ^ 52 : Nat)
      (4096 + s.ctx.mlease.nslot.toNat * 2 ^ 20) with
  | error x => rw [e] at h; simp [Except.toOption] at h
  | ok p =>
    rw [e] at h
    exact ⟨f, s, p.2, 1, p.1, by decide, runs (by decide) _ _ _ _, by decide, by decide, by decide, by decide, by decide, by decide, e,
      by simpa [Except.toOption] using h⟩

theorem witness_LeasesSavedAndRestored_none : ∃ (f : FX) (s : State), s.ctx.mleaseSaved = true ∧ s.executes f.ctl [f.sa] none 0 ∧
    s.inHandler = false ∧ s.ctx.mode ≠ .program ∧ pointerOk (s.reg f.sa) = true ∧ (s.reg f.sa).toNat % 2 ^ 52 % 4096 = 0 ∧
    12 < (homeFirebox s).slotsUsed + s.ctx.mlease.nslot.toNat :=
  ⟨⟨noG, 0, 4, 0, 0, 0, 0, 0⟩, leased { lease [] with core := 5 } (fun x => regs [(4, 0x1000)] { x with mleaseSaved := true }), by decide,
    runs (by decide) _ _ _ _, by and_intros <;> decide +kernel⟩

/-- Die 0's Firebox runs the command of a lease of domain 0, with `paged`'s line and `tables`. -/
def fed (l : Lease) : State :=
  (tables (paged id)).modDie 0 (fun d => { d with firebox := { d.firebox with leases := [l], holder := some 1, stageOwner := some 1 } })

/-- A command with these operands: `sa`, `sb`, M, N and K. -/
def cmd (i : Instr) (sa sb m n k : Nat) : MCmd :=
  ⟨0x100, encode i, BitVec.ofNat 64 sa, BitVec.ofNat 64 sb, 0, BitVec.ofNat 64 m, BitVec.ofNat 64 n, BitVec.ofNat 64 k⟩

/-- A lease of domain 0 with one command. -/
def work (c : MCmd) : Lease := { Lease.fresh 1 12 0 0 3 0 with queue := [c] }

/-- Tiles of at most one element are sorted. -/
theorem sorted_of {l : Lease} (h : l.tiles.length ≤ 1) : tilesSorted l := by
  unfold tilesSorted
  match l.tiles, h with
  | [], _ => exact .nil
  | [x], _ => simp

/-- The premises that the statement makes of every command. -/
def serving (d : DieId) (s : State) (l : Lease) (c : MCmd) (rest : List MCmd) : Prop :=
  (s.dieAt d).firebox.holder = some l.num ∧ (s.dieAt d).firebox.find l.num = some l ∧ l.queue = c :: rest ∧
    (s.dieAt d).firebox.stageOwner = some l.num ∧ tilesSorted l ∧ c.mtm.toNat ≤ 512 ∧ c.mtn.toNat ≤ 512

theorem witness_FireboxRuns_bytes : ∃ (s : State) (d : DieId) (domain : BitVec 16) (need a n p : Nat), linesOk s = true ∧ s.weak = [] ∧
    (∀ k < n, unitByte s d domain need (a + k) = some (p + k)) ∧ 0 < n :=
  ⟨fed (lease []), 0, 0, rightR, 0x20018, 8, 0x5018, by decide +kernel⟩

theorem witness_FireboxRuns_zero : ∃ (d : DieId) (s : State) (l : Lease) (c : MCmd) (rest : List MCmd) (f : FX), serving d s l c rest ∧
    decode c.word = .ok (.mzero f) ∧ f.ty = 19 ∧ f.tile.toNat % 3 = 0 ∧ f.tile.toNat + 2 < 12 ∧
    ∀ k ∈ [9, 10, 11], ∀ b, q96Base l.types k = some b → b = 9 :=
  let f : FX := ⟨noG, 9, 0, 0, 0, 0, 19, 0⟩
  let c := cmd (.mzero f) 0xFFFF 0 0 0 0
  let l : Lease := { work c with types := (((Vector.replicate 12 .f32).set 9 (.q96 3)).set 10 .q96later).set 11 .q96later }
  ⟨0, running l, l, c, [], f, ⟨by decide, by decide, rfl, by decide, sorted_of (by decide), by decide, by decide⟩, by decide +kernel⟩

theorem witness_FireboxRuns_mlda : ∃ (d : DieId) (s : State) (l : Lease) (c : MCmd) (rest : List MCmd) (f : FX) (u : Nat → State)
    (v : Nat → Nat), serving d s l c rest ∧ l.pos = 0 ∧ u 0 = s ∧ decode c.word = .ok (.mlda f) ∧ c.mtm.toNat = 1 ∧ c.mtk.toNat = 4 ∧
    (u 0).unitReadAt d l.domain (rightR + rightM) (rowAt c 0) ((4 * WellFormed.width f.ty.toNat + 7) / 8) = .ok (v 0, u 1) :=
  let f : FX := ⟨noG, 0, 4, 5, 0, 0, 9, 0⟩
  let c := cmd (.mlda f) 0x20008 0 1 1 4
  let l : Lease := work c
  have ⟨p, h⟩ := ok_of (x := (fed l).unitReadAt 0 l.domain (rightR + rightM) (rowAt c 0) ((4 * WellFormed.width f.ty.toNat + 7) / 8)) (by decide +kernel)
  ⟨0, fed l, l, c, [], f, fun i => if i = 0 then fed l else p.2, fun _ => p.1, ⟨by decide, by decide, rfl, by decide, sorted_of (by decide), by decide, by decide⟩,
    rfl, rfl, by decide +kernel, by decide, by decide, h⟩

theorem witness_FireboxRuns_mldb : ∃ (d : DieId) (s : State) (l : Lease) (c : MCmd) (rest : List MCmd) (f : FX) (u : Nat → State)
    (v : Nat → Nat), serving d s l c rest ∧ l.pos = 0 ∧ u 0 = s ∧ decode c.word = .ok (.mldb f) ∧ c.mtn.toNat = 8 ∧ c.mtk.toNat = 1 ∧
    (u 0).unitReadAt d l.domain (rightR + rightM) (rowAt c 0) ((8 * WellFormed.width f.ty.toNat + 7) / 8) = .ok (v 0, u 1) :=
  let f : FX := ⟨noG, 0, 4, 5, 0, 0, 12, 0⟩
  let c := cmd (.mldb f) 0x20008 0 1 8 1
  let l : Lease := work c
  have ⟨p, h⟩ := ok_of (x := (fed l).unitReadAt 0 l.domain (rightR + rightM) (rowAt c 0) ((8 * WellFormed.width f.ty.toNat + 7) / 8)) (by decide +kernel)
  ⟨0, fed l, l, c, [], f, fun i => if i = 0 then fed l else p.2, fun _ => p.1, ⟨by decide, by decide, rfl, by decide, sorted_of (by decide), by decide, by decide⟩,
    rfl, rfl, by decide +kernel, by decide, by decide, h⟩

theorem witness_FireboxRuns_mout : ∃ (d : DieId) (s : State) (l : Lease) (c : MCmd) (rest : List MCmd) (f : FX) (u : Nat → State),
    serving d s l c rest ∧ l.pos = 0 ∧ u 0 = s ∧ decode c.word = .ok (.mout f) ∧ f.ty.toNat = 9 ∧ c.mtm.toNat = 1 ∧ c.mtn.toNat = 2 ∧
    (u 0).unitWriteAt d l.domain rightW (some (l.core, l.ctx)) (rowAt c 0) 4
      (packedNumber 16 (fun j => (tileOut 9 f.mode.toNat l.types[f.tile.toNat]? (tileElement l f.tile.toNat 0 j)).bits) 2) = .ok (u 1) :=
  let f : FX := ⟨noG, 3, 4, 5, 0, 0, 9, 1⟩
  let c := cmd (.mout f) 0x20008 0 1 2 0
  let l : Lease := { work c with tiles := [(3 * 2 ^ 18, 0x3F800001)] }
  have ⟨p, h⟩ := ok_of (x := (fed l).unitWriteAt 0 l.domain rightW (some (l.core, l.ctx)) (rowAt c 0) 4
    (packedNumber 16 (fun j => (tileOut 9 f.mode.toNat l.types[f.tile.toNat]? (tileElement l f.tile.toNat 0 j)).bits) 2)) (by decide +kernel)
  ⟨0, fed l, l, c, [], f, fun i => if i = 0 then fed l else p, ⟨by decide, by decide, rfl, by decide, sorted_of (by decide), by decide, by decide⟩,
    rfl, rfl, by decide +kernel, by decide, by decide, by decide, h⟩

theorem witness_FireboxRuns_mma : ∃ (d : DieId) (s : State) (l : Lease) (c : MCmd) (rest : List MCmd) (f : FX), serving d s l c rest ∧
    decode c.word = .ok (.mma f) ∧ f.mode ≠ 1 ∧ f.ty.toNat ∈ [8, 9, 12, 13] ∧ hobReady s d f :=
  let f : FX := ⟨noG, 0, 0, 0, 0, 0, 12, 0⟩
  let c := cmd (.mma f) 0 0 512 512 2
  let l : Lease := { work c with
    tiles := [(0, 0x3F800000)], stageA := some ⟨0, 0, 12, 1, 2, [[0x38, 0x40]]⟩, stageB := some ⟨0, 0, 12, 2, 1, [[0x38], [0x38]]⟩ }
  ⟨0, running l, l, c, [], f, ⟨by decide, by decide, rfl, by decide, sorted_of (by decide), by decide, by decide⟩, by decide +kernel, by decide,
    by decide, fun h => absurd h (by decide)⟩

theorem witness_FireboxRuns_hob : ∃ (d : DieId) (s : State) (l : Lease) (c : MCmd) (rest : List MCmd) (f : FX), serving d s l c rest ∧
    decode c.word = .ok (.mma f) ∧ f.mode = 1 ∧ f.ty.toNat ∈ [8, 9, 12, 13] ∧ hobReady s d f :=
  let f : FX := ⟨noG, 0, 0, 0, 6, 0, 9, 1⟩
  let c := cmd (.mma f) 0 0 1 1 1
  let l : Lease := { work c with stageA := some ⟨0, 0, 9, 1, 1, [[0x3F80]]⟩ }
  ⟨0, running l, l, c, [], f, ⟨by decide, by decide, rfl, by decide, sorted_of (by decide), by decide, by decide⟩, by decide +kernel, by decide,
    by decide, fun _ => by decide⟩

/-- A byte that a home line holds is read without a change. -/
theorem unitByte_home {s : State} {d : DieId} {domain : BitVec 16} {need a data : Nat} {ln : L2Line} (hr : regionOf a = .paged)
    (hc : s.tableCheck d domain a need = true) (hl : (s.dieAt d).line a = some ln) (hh : ln.home = true)
    (hg : s.grainBad ln.pa ln.size ln.codec = false) (hd : s.homeBytes ln.pa ln.size ln.codec = some data)
    (hv : (data >>> (8 * (a - ln.va))) % 2 ^ 8 = 0) (ha : a + 1 ≤ 2 ^ 52) (hw : s.weak = []) : s.unitReadAt d domain need (a : Int) 1 = .ok (0, s) := by
  have hk : pieceLen a 1 = 1 := by simp only [pieceLen]; omega
  have h1 : s.unitRead d domain need a 1 = .ok (0, s) := by
    simp only [State.unitRead, hr, hc, State.l2Read, hl, hh, hg, hd, if_true, State.readsFar, State.chargeRead]
    simp only [Bool.not_true, Bool.false_and, Except.map]
    simpa [State.correctRuns, hw] using hv
  have h0 : ¬ ((a : Int) < 0 ∨ 4503599627370496 ≤ a) := by omega
  simp [State.unitReadAt, spanFuel, spanRead, hk, h0, h1]

theorem witness_FireboxRuns_mmab : ∃ (d : DieId) (s : State) (l : Lease) (c : MCmd) (rest : List MCmd) (f : FX) (e : Int) (x y : Nat),
    serving d s l c rest ∧ decode c.word = .ok (.mmab f) ∧ f.ty.toNat ∈ [16, 17] ∧ hobReady s d f ∧
    (s.dieAt d).firebox.arrayBad = [] ∧ l.types[f.tile.toNat]? = some (.q96 e) ∧ c.mtm.toNat = 1 ∧ c.mtn.toNat = 1 ∧ c.mtk.toNat = 24 ∧
    s.unitReadAt d l.domain (rightR + rightM) ((c.sa.toNat % 2 ^ 52 : Nat) + 0 * (24 / 24 : Nat) + (0 : Nat) : Int) 1 = .ok (x, s) ∧
    s.unitReadAt d l.domain (rightR + rightM) ((c.sb.toNat % 2 ^ 52 : Nat) + 0 * (24 / 24 : Nat) + (0 : Nat) : Int) 1 = .ok (y, s) :=
  let f : FX := ⟨noG, 0, 4, 5, 0, 0, 16, 0⟩
  let c := cmd (.mmab f) 0x20000 0x20000 1 1 24
  let l : Lease := { work c with
    types := (((Vector.replicate 12 .f32).set 0 (.q96 3)).set 1 .q96later).set 2 .q96later
    stageA := some ⟨0, 0, 16, 1, 24, [List.replicate 24 3]⟩, stageB := some ⟨0, 0, 16, 24, 1, List.replicate 24 [5]⟩ }
  have h : (fed l).unitReadAt 0 0 (rightR + rightM) 0x20000 1 = .ok (0, fed l) :=
    unitByte_home (ln := ⟨0x20000, 32, 0x5000, true, 0, false, 0, 0, 0, []⟩) (data := 0) (by decide +kernel) (by decide +kernel) (by decide +kernel)
      rfl (by decide +kernel) (by decide +kernel) (by decide +kernel) (by decide +kernel) rfl
  ⟨0, fed l, l, c, [], f, 3, 0, 0, ⟨by decide, by decide, rfl, by decide, sorted_of (by decide), by decide, by decide⟩, by decide +kernel, by decide,
    fun h => absurd h (by decide), by decide, by decide, by decide, by decide, by decide, h, h⟩

theorem witness_FireboxRuns_grant : ∃ (d : DieId) (s : State) (l : Lease), (s.dieAt d).firebox.holder = none ∧
    l ∈ (s.dieAt d).firebox.leases ∧ l.state = .waiting ∧ ∀ o ∈ (s.dieAt d).firebox.leases, o.state = .waiting → o ≠ l →
      l.since < o.since ∨ (l.since = o.since ∧ l.num < o.num) :=
  let l := { lease [⟨0x100, 0, 0, 0, 0, 0, 0, 0⟩] with state := .waiting }
  ⟨0, State.reset.modDie 0 (fun d => { d with firebox := { d.firebox with leases := [{ l with num := 2 }, l] } }), l, by decide, by decide, rfl,
    by decide⟩

theorem witness_FireboxRuns_quantum : ∃ (d : DieId) (s : State) (l o : Lease), (s.dieAt d).firebox.holder = some l.num ∧
    (s.dieAt d).firebox.find l.num = some l ∧ (s.dieAt d).firebox.nextWaiting = some o :=
  let o := { lease [⟨0x100, 0, 0, 0, 0, 0, 0, 0⟩] with num := 2, state := .waiting }
  ⟨0, State.reset.modDie 0 (fun d => { d with firebox := { d.firebox with leases := [lease [], o], holder := some 1 } }), lease [], o, by and_intros <;> decide +kernel⟩

/-! ### Textures -/

theorem witness_Textures_idle : ∃ (i : Instr) (s : State) (f : FV) (tag1 : BitVec 8), i.wellFormed = true ∧ quadForm i = some (f, tag1) ∧
    quadStarts s f ∧ activeBelow s f.ctl s.ctx.vl = [] :=
  ⟨.rayq (quad 3), textured 1, _, _, by decide +kernel, rfl, ⟨by decide +kernel, runs (by decide +kernel) _ _ _ _⟩, by decide +kernel⟩

theorem witness_Textures_pointer : ∃ (i : Instr) (s : State) (f : FV) (tag1 : BitVec 8) (e : Nat) (rest : List Nat), i.wellFormed = true ∧
    quadForm i = some (f, tag1) ∧ quadStarts s f ∧ activeBelow s f.ctl s.ctx.vl = e :: rest ∧ pointerOk (s.reg (quadReg f)) = false ∧
    s.inHandler = false :=
  ⟨.tex (quad 15), plain (fun x => vecs 1 [] (regs [(1, 2 ^ 63 - 1)] x)), _, _, 0, [], by decide, rfl, ⟨by decide, runs (by decide) _ _ _ _⟩,
    by and_intros <;> decide +kernel⟩

theorem witness_Textures_nearest : ∃ (s u w : State) (f : FV) (e x y z v : Nat) (d : Texture) (q : Quad), (Instr.tex f).wellFormed = true ∧
    f.fn = 0 ∧ quadStarts s f ∧ activeBelow s f.ctl s.ctx.vl = [e] ∧ (issuedV s f).readTexture (s.reg (quadReg f)) = .ok (d, u) ∧
    mapAxis false d.au d.w (quadIn s f 0 e) = .one (some x) ∧ mapAxis false d.av d.h (quadIn s f 1 e) = .one (some y) ∧
    mapAxis false d.aw d.d (quadIn s f 2 e) = .one (some z) ∧ u.texRead (texelAddress d x y z) (texelBytes d.fmt) = .ok (v, w) ∧
    plainChannels d.fmt v = some q := by
  let s := textured 2
  have h : ((issuedV s (quad 15)).readTexture (s.reg (quadReg (quad 15)))).toOption.map (fun p =>
      decide (p.1 = texture 2) && ((p.2.texRead 0x20044 4).toOption.map (fun r => r.1) == some 0x40000000)) = some true := by decide +kernel
  obtain ⟨⟨d, u⟩, hd, hp⟩ := value_of h
  simp only [Bool.and_eq_true, decide_eq_true_eq] at hp
  obtain ⟨rfl, hr⟩ := hp
  obtain ⟨⟨v, w⟩, hv, hw⟩ := value_of (p := fun r : Nat × State => r.1 == 0x40000000) (x := u.texRead 0x20044 4) (by
    cases e : u.texRead 0x20044 4 <;> rw [e] at hr <;> simp_all [Except.toOption])
  have hw : v = 0x40000000 := by simpa using hw
  subst hw
  exact ⟨s, u, w, quad 15, 0, 1, 0, 0, _, texture 2, (0x40000000, 0, 0, 0x3F800000), by decide, by decide,
    ⟨by decide +kernel, runs (by decide +kernel) _ _ _ _⟩, by decide +kernel, hd, by decide +kernel, by decide +kernel, by decide +kernel,
    hv, by decide +kernel⟩

/-- A texel of one grain that a home line holds is read without a change. -/
theorem texRead_home {u : State} {va n data : Nat} {e : PlbEntry} {ln : L2Line} (hr : regionOf va = .paged)
    (hp : (u.coreAt u.runCore).plb.find? (fun e => e.domain == u.ctx.domain && e.first ≤ va / 65536 && va / 65536 ≤ e.last) = some e)
    (hg : e.grants rightR = true) (hl : (u.dieAt (dieOf u.runCore)).line va = some ln) (hh : ln.home = true)
    (hb : u.grainBad ln.pa ln.size ln.codec = false) (hd : u.homeBytes ln.pa ln.size ln.codec = some data) (h0 : 0 < n)
    (hk : n ≤ 32 - va % 32) (hw : u.weak = []) : u.texRead va n =
      .ok ((data >>> (8 * (va - ln.va))) % 2 ^ (8 * n), u) := by
  have hpiece : pieceLen va n = n := by simp only [pieceLen]; omega
  have hc : u.plbCheck u.runCore u.ctx.domain va rightR = (true, u) := by simp only [State.plbCheck, hp, hg]
  have h1 : State.texPiece u va n = .ok ((data >>> (8 * (va - ln.va))) % 2 ^ (8 * n), u) := by
    simp [State.texPiece, hr, hc, State.l2Read, hl, hh, hb, hd, State.correctRuns, hw, Except.map, State.readsFar, State.chargeRead]
  have h2 : spanRead State.texPiece (n / 32 + 1) u (va + n) (n - n) = .ok (0, u) := by simp [spanRead]
  have hn : ¬ (n == 0) = true := by simp; omega
  rw [State.texRead, spanFuel, spanRead]
  simp only [hn, hpiece, h1, h2]
  simp

theorem witness_Textures_one : ∃ (s u : State) (f : FV) (e v : Nat) (d : Texture) (q : Quad), d.w = 1 ∧ d.h = 1 ∧ d.d = 1 ∧ quadStarts s f ∧
    activeBelow s f.ctl s.ctx.vl = [e] ∧ (issuedV s f).readTexture (s.reg (quadReg f)) = .ok (d, u) ∧
    u.texRead d.base (texelBytes d.fmt) = .ok (v, u) ∧ plainChannels d.fmt v = some q ∧ (Instr.tex f).wellFormed = true ∧
    (Instr.texg f).wellFormed = true := by
  have h : ((issuedV (textured 1) (quad 15)).readTexture ((textured 1).reg (quadReg (quad 15)))).toOption.map (fun p =>
      decide (p.1 = texture 1) && decide ((p.2.coreAt p.2.runCore).plb.find? (fun e => e.domain == p.2.ctx.domain &&
        e.first ≤ 0x20040 / 65536 && 0x20040 / 65536 ≤ e.last) = some ⟨0, 2, 2, 63⟩) &&
      decide ((p.2.dieAt (dieOf p.2.runCore)).line 0x20040 = some ⟨0x20000, 512, 0x5000, true, 0, false, 0, 0, 0, []⟩) &&
      decide (p.2.grainBad 0x5000 512 0 = false) && decide ((p.2.homeBytes 0x5000 512 0).map (fun d => d >>> 512 % 2 ^ 32) = some 0x3F000000) && decide (p.2.weak = [])) = some true := by decide +kernel
  obtain ⟨⟨d, u⟩, hd, hp⟩ := value_of h
  simp only [Bool.and_eq_true, decide_eq_true_eq, Option.map_eq_some_iff] at hp
  obtain ⟨⟨⟨⟨⟨rfl, hp⟩, hl⟩, hg⟩, data, hb, hv⟩, hw⟩ := hp
  have hu := texRead_home (va := 0x20040) (n := 4) (by decide) hp (by decide) hl rfl hg hb (by decide) (by decide) hw
  exact ⟨textured 1, u, quad 15, 0, _, texture 1, (0x3F000000, 0, 0, 0x3F800000), rfl, rfl, rfl,
    ⟨by decide +kernel, runs (by decide +kernel) _ _ _ _⟩, by decide +kernel, hd, hu, by
      rw [show (data >>> (8 * (0x20040 - 0x20000))) % 2 ^ (8 * 4) = 0x3F000000 from hv]; decide +kernel, by decide, by decide⟩

theorem witness_Textures_ray : ∃ (s u w : State) (f : FV) (e v rec0 a : Nat), (Instr.rayq f).wellFormed = true ∧ quadStarts s f ∧
    activeBelow s f.ctl s.ctx.vl = [e] ∧ pointerOk (s.reg (quadReg f)) = true ∧ (s.reg (quadReg f)).toNat % 128 = 0 ∧
    (issuedV s f).texRead ((s.reg (quadReg f)).toNat % 2 ^ 52) 128 = .ok (v, u) ∧
    (∀ c < 4, 1 ≤ c → v / 2 ^ (64 * (12 + c)) % 2 ^ 64 = 0) ∧ v / 2 ^ (64 * 12) % 2 ^ 64 = 2 ^ 63 + 2 ^ 56 + a ∧ a < 2 ^ 52 ∧ a % 16 = 0 ∧
    (let g := fun k => quadIn s f k e
     let ray : Ray := ⟨⟨g 0, g 1, g 2⟩, ⟨g 3, g 4, g 5⟩, g 6, g 7⟩
     boxPasses ray (vec3At v 0) (vec3At v 3) = true ∧ u.texRead a 48 = .ok (rec0, w) ∧ rec0 / 2 ^ 320 % 2 ^ 64 = 0 ∧
     (triangleHit ray (vec3At rec0 0) (vec3At rec0 3) (vec3At rec0 6)).isSome = true) := by
  have h : ((issuedV rooted (quad 15)).texRead ((rooted.reg (quadReg (quad 15))).toNat % 2 ^ 52) 128).toOption.map (fun p =>
      (List.range 4).all (fun c => c == 0 || p.1 / 2 ^ (64 * (12 + c)) % 2 ^ 64 == 0) &&
      decide (p.1 / 2 ^ (64 * 12) % 2 ^ 64 = 2 ^ 63 + 2 ^ 56 + 0x20080) &&
      (let g := fun k => quadIn rooted (quad 15) k 0
       let ray : Ray := ⟨⟨g 0, g 1, g 2⟩, ⟨g 3, g 4, g 5⟩, g 6, g 7⟩
       decide (boxPasses ray (vec3At p.1 0) (vec3At p.1 3) = true) &&
       decide ((p.2.texRead 0x20080 48).toOption.map (fun r => decide (r.1 / 2 ^ 320 % 2 ^ 64 = 0 ∧
        (triangleHit ray (vec3At r.1 0) (vec3At r.1 3) (vec3At r.1 6)).isSome = true)) = some true))) = some true := by decide +kernel
  obtain ⟨⟨v, u⟩, hd, hp⟩ := value_of h
  simp only [Bool.and_eq_true, decide_eq_true_eq] at hp
  obtain ⟨⟨hz, hl⟩, hb, hr⟩ := hp
  obtain ⟨⟨rec0, w⟩, hv, hw⟩ := value_of hr
  simp only [decide_eq_true_eq] at hw
  refine ⟨rooted, u, w, quad 15, 0, v, rec0, 0x20080, by decide, ⟨by decide +kernel, runs (by decide +kernel) _ _ _ _⟩, by decide +kernel,
    by decide +kernel, by decide +kernel, hd, fun c h4 h1 => ?_, hl, by decide, by decide, hb, hv, hw.1, hw.2⟩
  simp only [List.all_eq_true, List.mem_range, Bool.or_eq_true, beq_iff_eq] at hz
  exact (hz c h4).resolve_left (by omega)

/-! ### Engines -/

theorem witness_Copies_cpy : ∃ (c : Command) (s : State) (src dst : Nat), plainCommand c [c.msg.w5, c.msg.w6, c.msg.w7] ∧
    memoryWf s.lmem = true ∧ pointerOk c.msg.w2 = true ∧ pointerOk c.msg.w3 = true ∧
    operandAt s c c.msg.w2 c.msg.w4.toNat = some src ∧ operandAt s c c.msg.w3 c.msg.w4.toNat = some dst ∧
    apart src c.msg.w4.toNat dst c.msg.w4.toNat :=
  ⟨command (lw + 0x5FFF0) (0xFFE0000000000 + 2 * 2 ^ 20) 16 0 0 0, engines [(0x5FFF0, 8, 5)], localKey 1 0x5FFF0, localKey 2 0, by and_intros <;> decide +kernel⟩

theorem witness_Copies_cpy2d : ∃ (c : Command) (s : State) (src dst : Nat → Nat), plainCommand c [c.msg.w7] ∧ memoryWf s.lmem = true ∧
    pointerOk c.msg.w2 = true ∧ pointerOk c.msg.w3 = true ∧
    (let b := c.msg.w4.toNat % 2 ^ 32
     let n := c.msg.w4.toNat / 2 ^ 32
     0 < b ∧ b * n ≤ 2 ^ 40 ∧ 1 < n ∧
     (∀ k : Nat, k < n → operandCell s c ((c.msg.w2.toNat % 2 ^ 52 : Nat) + (k : Int) * c.msg.w5.toInt) b = some (src k) ∧
      operandCell s c ((c.msg.w3.toNat % 2 ^ 52 : Nat) + (k : Int) * c.msg.w6.toInt) b = some (dst k)) ∧
     (∀ k < n, ∀ j < n, apart (dst k) b (src j) b ∧ (j ≠ k → apart (dst k) b (dst j) b))) :=
  ⟨command lw (lw + 0x5FFF8) (8 + 2 * 2 ^ 32) 0 (2 ^ 64 - 8) 0, engines [(0, 8, 5)], fun _ => localKey 1 0, fun k => localKey 1 0x5FFF8 - 8 * k,
    by and_intros <;> decide +kernel⟩

theorem witness_Copies_fill : ∃ (c : Command) (s : State) (dst : Nat), plainCommand c [c.msg.w5, c.msg.w6, c.msg.w7] ∧ memoryWf s.lmem = true ∧
    pointerOk c.msg.w2 = true ∧ operandAt s c c.msg.w2 c.msg.w3.toNat = some dst :=
  ⟨command (lw + 3) 0x1002 0x1122334455667788 0 0 0, engines [], localKey 1 3, by and_intros <;> decide +kernel⟩

theorem witness_Copies_wload : ∃ (c : Command) (s : State) (src : Nat), plainCommand c [c.msg.w5, c.msg.w6, c.msg.w7] ∧
    memoryWf s.hob = true ∧ c.msg.w2.toNat % 8 = 0 ∧ c.msg.w3.toNat % 64 = 0 ∧ c.msg.w4.toNat % 64 = 0 ∧ pointerOk c.msg.w2 = true ∧
    operandAt s c c.msg.w2 c.msg.w4.toNat = some src ∧ c.msg.w3.toNat + c.msg.w4.toNat ≤ Config.hobBytes ∧ 0 < c.msg.w4.toNat ∧
    ((s.dieAt c.die).agents[c.inst]).started = false ∧ (s.dieAt c.die).firebox.leases = [] ∧ s.fireboxLaunch c.die = false ∧
    s.cycle % 32768 < 32512 :=
  ⟨command lw (Config.hobBytes - 64) 64 0 0 0, engines [(0, 8, 5)], localKey 1 0, by and_intros <;> decide +kernel⟩

theorem witness_Copies_reserved : ∃ (c : Command) (s : State), (s.dieAt c.die).agents[c.inst].started = false ∧ c.msg.w7 ≠ 0 ∧
    2 ^ 40 < c.msg.w4.toNat ∧ 2 ^ 40 < c.msg.w3.toNat ∧ 2 ^ 40 < c.msg.w4.toNat % 2 ^ 32 * (c.msg.w4.toNat / 2 ^ 32) :=
  ⟨command 0 (2 ^ 40 + 1) (2 ^ 60 + 2 ^ 20) 0 0 1, State.reset, by and_intros <;> decide +kernel⟩

theorem witness_Graphics_rast : ∃ (c : Command) (s : State) (src st n : Nat) (k : CoreId) (r : RasterState),
    plainCommand c [c.msg.w6, c.msg.w7] ∧ atStart s c ∧ memoryWf s.lmem = true ∧ c.msg.w3 = 1 ∧ c.msg.w2.toNat % 64 = 0 ∧
    c.msg.w4.toNat % 64 = 0 ∧ pointerOk c.msg.w2 = true ∧ pointerOk c.msg.w4 = true ∧ operandAt s c c.msg.w2 64 = some src ∧
    operandAt s c c.msg.w4 64 = some st ∧ rasterState (readN s.lmem st 64) = some r ∧ c.msg.w5 = designatorOf n k ∧ ringServes s c n k ∧
    ringSound (ringOn s k n) ∧ (fragments r (readN s.lmem src 64)).length = 1 :=
  ⟨command lw 1 (lw + 64) (5 + 2 * 2 ^ 8) 0 0,
    ringed 0 (engines [(16, 4, 0x40000000), (36, 4, 0x40000000), (64, 8, 15 * 2 ^ 48 + 15 * 2 ^ 32)]), localKey 1 0, localKey 1 64, 5, 2,
    ⟨0, 0, 15, 15, 0⟩, by and_intros <;> decide +kernel⟩

theorem witness_Graphics_coverage : ∃ (r : RasterState) (v px py : Nat), px < 16384 ∧ py < 16384 ∧ r.sx1 < 16384 ∧ r.sy1 < 16384 ∧
    (triOf v).area ≠ 0 ∧ ¬ (r.cull = 1 ∧ (triOf v).area < 0) ∧ ¬ (r.cull = 2 ∧ 0 < (triOf v).area) ∧ covered r (triOf v) px py = true :=
  ⟨⟨0, 0, 16383, 16383, 1⟩, 0x40000000 * 2 ^ 128 + 0x40000000 * 2 ^ 288, 0, 0, by and_intros <;> decide +kernel⟩

theorem witness_Graphics_edge : ∃ (r : RasterState) (x0 y0 x1 y1 x2 y2 x3 y3 : Int) (px py : Nat),
    let t : Tri := ⟨x0, y0, x1, y1, x2, y2⟩
    let u : Tri := ⟨x1, y1, x0, y0, x3, y3⟩
    let at_ := fun a b a' b' => edge a b a' b' (256 * px + 128) (256 * py + 128)
    t.area.sign = u.area.sign ∧ t.area ≠ 0 ∧ r.sx0 ≤ px ∧ px ≤ r.sx1 ∧ r.sy0 ≤ py ∧ py ≤ r.sy1 ∧ at_ x0 y0 x1 y1 = 0 ∧
    0 < t.area.sign * at_ x1 y1 x2 y2 ∧ 0 < t.area.sign * at_ x2 y2 x0 y0 ∧ 0 < t.area.sign * at_ x0 y0 x3 y3 ∧
    0 < t.area.sign * at_ x3 y3 x1 y1 :=
  ⟨⟨0, 0, 15, 15, 0⟩, 128, 0, 128, 512, 1000, 256, -1000, 256, 0, 0, by and_intros <;> decide +kernel⟩

theorem witness_Graphics_mesh : ∃ (c : Command) (s : State) (src st : Nat), plainCommand c [c.msg.w6, c.msg.w7] ∧ atStart s c ∧ c.msg.w3 = 1 ∧
    c.msg.w2.toNat % 64 = 0 ∧ c.msg.w4.toNat % 64 = 0 ∧ pointerOk c.msg.w2 = true ∧ pointerOk c.msg.w4 = true ∧
    operandAt s c c.msg.w2 64 = some src ∧ operandAt s c c.msg.w4 64 = some st ∧ readN s.lmem st 8 % 2 ^ 32 < 4 ∧
    (∀ j < 56, readByte s.lmem (st + 8 + j) = 0) ∧ scopeOk c.msg.w5 = true ∧ scopeKind c.msg.w5 = 1 ∧ rectCores c.msg.w5 ≠ [] ∧
    s.holdsDomain ((rectCores c.msg.w5).getD (readN s.lmem st 8 / 2 ^ 32 % (rectCores c.msg.w5).length) 0) c.sender.domain = true :=
  ⟨command lw 1 (lw + 64) (2 ^ 56 + 2 * 2 ^ 16 + 1) 0 0, engines [(64, 8, 3 + 3 * 2 ^ 32)], localKey 1 0, localKey 1 64, by and_intros <;> decide +kernel⟩

/-- One pixel: target of 8 by 8 at core 2's alias, COUNT 1, source alone; a record of pixel (1, 0). -/
def blending (filled : Nat) : State :=
  ringed filled (let s := engines [(0, 8, 0xFFE0000200000), (16, 8, 8 + 8 * 2 ^ 16 + 2 * 2 ^ 32), (24, 8, 128), (64, 8, 0x1001), (72, 8, 1)]
    { s with lmem := writeN s.lmem (localKey 2 0x8000) 8 (2 * 2 ^ 32) })

theorem witness_Graphics_blend : ∃ (c : Command) (s : State) (td bs n e dst : Nat) (k : CoreId),
    plainCommand c [c.msg.w5, c.msg.w6, c.msg.w7] ∧ atStart s c ∧ c.msg.w2 = designatorOf n k ∧ ringServes s c n k ∧
    ringSound (ringOn s k n) ∧ 8 ≤ (ringOn s k n).szlog ∧ c.msg.w3.toNat % 64 = 0 ∧ c.msg.w4.toNat % 64 = 0 ∧ pointerOk c.msg.w3 = true ∧
    pointerOk c.msg.w4 = true ∧ operandAt s c c.msg.w3 64 = some td ∧ operandAt s c c.msg.w4 64 = some bs ∧
    (let tv := readN s.lmem td 64
     let sv := readN s.lmem bs 64
     let b := blendRecord tv sv
     let g := ringOn s k n
     let rcd := readN s.lmem (slotCell k g g.rdidx) 256
     let px := 4 * (rcd % 2 ^ 16) + e % 4
     let py := 4 * (rcd / 2 ^ 16 % 2 ^ 16) + e / 4
     blendReserved tv sv = true ∧ b.ok = true ∧ b.count = 1 ∧ rowsNamed s c b.cbase b.cpitch (b.width * b.texel) b.height ∧
     (b.zbase ≠ 0 → rowsNamed s c b.zbase b.zpitch (4 * b.width) b.height) ∧ 0 < g.filled ∧ skippedRecord rcd = false ∧
     rcd / 2 ^ 32 % 2 ^ 16 = 2 ^ e ∧ b.cfmt = 2 ∧ b.zbase = 0 ∧ px < b.width ∧ py < b.height ∧
     operandCell s c (b.cbase + py * b.cpitch + 16 * px : Nat) 16 = some dst) :=
  ⟨command (5 + 2 * 2 ^ 8) lw (lw + 64) 0 0 0, blending 1, localKey 1 0, localKey 1 64, 5, 1, localKey 2 16, 2, by unfold rowsNamed; and_intros <;> decide +kernel⟩

theorem witness_Graphics_empty : (ringOn (blending 0) 2 5).filled = 0 ∧ ringSound (ringOn (blending 0) 2 5) := by decide +kernel

/-- A camera of unit size: R and K the identity, fx and fy 1, depth from 0.5, an image of 16 by 16. -/
def camera : List (Nat × Nat × Nat) := [(256, 4, 0x3F800000), (320, 4, 0x3F000000), (324, 4, 16), (328, 4, 16)]

theorem witness_Splats_sproj : ∃ (c : Command) (s : State) (src cam dst : Nat), plainCommand c [c.msg.w6, c.msg.w7] ∧ memoryWf s.lmem = true ∧
    c.msg.w3.toNat ≤ 16777216 ∧ 0 < c.msg.w3.toNat ∧ c.msg.w2.toNat % 64 = 0 ∧ c.msg.w4.toNat % 64 = 0 ∧ c.msg.w5.toNat % 16 = 0 ∧
    [c.msg.w2, c.msg.w4, c.msg.w5].all pointerOk = true ∧ operandAt s c c.msg.w2 (64 * c.msg.w3.toNat) = some src ∧
    operandAt s c c.msg.w4 128 = some cam ∧ operandAt s c c.msg.w5 (48 * c.msg.w3.toNat) = some dst ∧
    apart src (64 * c.msg.w3.toNat) dst (48 * c.msg.w3.toNat) ∧ apart cam 128 dst (48 * c.msg.w3.toNat) ∧
    cameraOk (readN s.lmem cam 128) = true :=
  ⟨command lw 2 (lw + 256) (lw + 0x5FFA0) 0 0, engines camera, localKey 1 0, localKey 1 256, localKey 1 0x5FFA0, by and_intros <;> decide +kernel⟩

theorem witness_Splats_ssort : ∃ (c : Command) (s : State) (src lst tab : Nat), plainCommand c [c.msg.w7] ∧ memoryWf s.lmem = true ∧
    (let n := c.msg.w3.toNat
     let cap := c.msg.w5.toNat
     let w := readN s.lmem tab 4
     let h := readN s.lmem (tab + 4) 4
     let tiles := tilesAcross w * tilesAcross h
     n ≤ 16777216 ∧ cap < 2 ^ 32 ∧ c.msg.w2.toNat % 16 = 0 ∧ c.msg.w4.toNat % 4 = 0 ∧ c.msg.w6.toNat % 8 = 0 ∧
     [c.msg.w2, c.msg.w4, c.msg.w6].all pointerOk = true ∧ operandAt s c c.msg.w2 (48 * n) = some src ∧
     operandAt s c c.msg.w4 (4 * cap) = some lst ∧ operandAt s c c.msg.w6 (16 + 8 * tiles) = some tab ∧
     1 ≤ w ∧ w ≤ 4096 ∧ 1 ≤ h ∧ h ≤ 4096 ∧ readN s.lmem (tab + 8) 8 = 0 ∧
     apart src (48 * n) lst (4 * cap) ∧ apart src (48 * n) tab (16 + 8 * tiles) ∧ apart lst (4 * cap) tab (16 + 8 * tiles)) :=
  ⟨command lw 2 (lw + 256) 8 (lw + 512) 0, engines [(512, 8, 32 + 2 ^ 32)], localKey 1 0, localKey 1 256, localKey 1 512, by and_intros <;> decide +kernel⟩

/-- A range table of one tile of one pixel at 0, whose list at 64 names the one record at 128. -/
def tiled : State := engines [(0, 8, 1 + 2 ^ 32), (16, 8, 2 ^ 32), (156, 4, 0x3F800000)]

theorem witness_Splats_sblend : ∃ (c : Command) (s : State) (o : SplatOperands) (top room img st : Nat), c.sender.remote = false ∧
    memoryWf s.lmem = true ∧ splatTables s c o top room ∧ c.msg.w5.toNat % 16 = 0 ∧ c.msg.w6.toNat % 8 = 0 ∧ c.msg.w7.toNat ≤ 0x3F800000 ∧
    pointerOk c.msg.w5 = true ∧ pointerOk c.msg.w6 = true ∧
    operandAt s c c.msg.w5 (16 * (o.width s * o.height s)) = some img ∧ operandAt s c c.msg.w6 (8 * (o.width s * o.height s)) = some st ∧
    apartFromTables s o top room img (16 * (o.width s * o.height s)) ∧ apartFromTables s o top room st (8 * (o.width s * o.height s)) ∧
    apart img (16 * (o.width s * o.height s)) st (8 * (o.width s * o.height s)) :=
  ⟨command lw (lw + 64) (lw + 128) (lw + 512) (lw + 1024) 0x3F800000, tiled, ⟨localKey 1 0, localKey 1 64, localKey 1 128⟩, 1, 48, localKey 1 512,
    localKey 1 1024, by and_intros <;> decide +kernel⟩

theorem witness_Splats_sbwd : ∃ (c : Command) (s : State) (o : SplatOperands) (top room st grad out : Nat), c.sender.remote = false ∧
    memoryWf s.lmem = true ∧ splatTables s c o top room ∧ o.width s = 1 ∧ o.height s = 1 ∧ c.msg.w5.toNat % 8 = 0 ∧
    c.msg.w6.toNat % 16 = 0 ∧ c.msg.w7.toNat % 16 = 0 ∧ [c.msg.w5, c.msg.w6, c.msg.w7].all pointerOk = true ∧
    operandAt s c c.msg.w5 8 = some st ∧ operandAt s c c.msg.w6 16 = some grad ∧ operandAt s c c.msg.w7 (48 * top) = some out ∧
    apartFromTables s o top room out (48 * top) ∧ apart st 8 out (48 * top) ∧ apart grad 16 out (48 * top) :=
  ⟨command lw (lw + 64) (lw + 128) (lw + 512) (lw + 1024) (lw + 2048), tiled, ⟨localKey 1 0, localKey 1 64, localKey 1 128⟩, 1, 48, localKey 1 512,
    localKey 1 1024, localKey 1 2048, by and_intros <;> decide +kernel⟩

/-! ### Caches and the Flue -/

/-- A copy in die 0's L2 of a grain whose home is die 1, with byte 3 dirty. -/
def dirtyCopy : L2Line := ⟨0x20000, 32, 2 ^ 36, false, 0, false, 0xFF, 8, 0xAB000000, [(0, 0)]⟩

theorem witness_CachesAndFlue_writeback : ∃ (d h : DieId) (va : Nat) (s : State) (ln : L2Line), (s.dieAt d).line va = some ln ∧
    lineSound s d ln ∧ ln.home = false ∧ ln.dirty ≠ 0 ∧ s.homeOf ln.pa = some h :=
  ⟨0, 1, 0x20010, State.reset.modDie 0 (fun d => { d with l2 := [dirtyCopy] }), dirtyCopy, by decide +kernel, by decide +kernel, rfl, by decide +kernel, by decide +kernel⟩

/-- A packet from core `c` of die 0 to die `d`, of this age. -/
def packet (c : CoreId) (d : DieId) (age : Nat) : Packet := ⟨0, c, d, 0, age, 0, 0, 0x5000, 2 ^ 512 - 1, 7, []⟩

theorem witness_CachesAndFlue_arrival : ∃ (n : Nat) (s : State) (r p : Packet) (before after : List Packet), s.flue[n]? = some r ∧
    s.flue = before ++ p :: after ∧ p ∉ before ∧ contends s r p ∧ (∃ o ∈ before, contends s r o) ∧
    (∀ o ∈ before, contends s r o → winsOver s.bregs.vdmap s.cycle p o) ∧ (∀ o ∈ after, contends s r o → ¬ winsOver s.bregs.vdmap s.cycle o p) ∧
    s.nextHop p.at_ p.dst = p.dst ∧ memoryWf s.mem = true ∧ p.mask < 2 ^ 512 :=
  ⟨0, { State.reset with flue := [packet 5 2 3, packet 4 1 7, packet 4 1 2] }, packet 5 2 3, packet 4 1 7, [packet 5 2 3], [packet 4 1 2],
    rfl, rfl, by decide +kernel⟩

theorem witness_CachesAndFlue_hop : ∃ (s : State) (p : Packet), s.flue = [p] ∧ contends s p p ∧ s.nextHop p.at_ p.dst ≠ p.dst :=
  ⟨{ State.reset with flue := [packet 0 4 0] }, packet 0 4 0, rfl, by decide +kernel⟩

theorem witness_Copies_decode : ∃ (c : Command) (s : State) (src dst m : Nat) (brick : Nat → Nat),
    plainCommand c [c.msg.w5, c.msg.w6, c.msg.w7] ∧ memoryWf s.lmem = true ∧ c.msg.w2.toNat % 8 = 0 ∧ c.msg.w3.toNat % 8 = 0 ∧
    pointerOk c.msg.w2 = true ∧ pointerOk c.msg.w3 = true ∧
    (let n := c.msg.w4.toNat % 2 ^ 32
     let codec := c.msg.w4.toNat / 2 ^ 32
     let off := fun k => readN s.lmem (src + 8 * k) 4
     let len := fun k => readN s.lmem (src + 8 * k + 4) 4
     1 ≤ n ∧ n ≤ 65536 ∧ (codec = 1 ∨ codec = 2) ∧ operandAt s c c.msg.w2 m = some src ∧ 8 * n ≤ m ∧
     operandAt s c c.msg.w3 (4096 * n) = some dst ∧ apart src m dst (4096 * n) ∧
     (∀ k < n, off k + len k ≤ m ∧ decodeBrick (fun p => (readByte s.lmem (src + p)).toNat) (if codec = 1 then 32 else 16)
      (off k) (len k) (8 * n) (2 ^ 32) = some (brick k))) :=
  let s := engines [(0, 8, 8 + 5 * 2 ^ 32), (8, 8, 1 + 256 * 0x3456789A)]
  ⟨command lw (lw + 0x1000) (1 + 2 ^ 32) 0 0 0, s, localKey 1 0, localKey 1 0x1000, 16,
    fun _ => (decodeBrick (fun p => (readByte s.lmem (localKey 1 0 + p)).toNat) 32 8 5 8 (2 ^ 32)).getD 0, by and_intros <;> decide +kernel⟩

/-! ### The Bellows, the host and boot -/

theorem witness_RingsAndRegisters_free : ∃ s : State, s.posted = [] ∧ s.heldWrites = [] := ⟨State.reset, by decide⟩

theorem witness_RingsAndRegisters_waits : ∃ s : State, s.posted = [] ∧ s.heldWrites ≠ [] :=
  ⟨{ State.reset with heldWrites := [⟨0, [7], true, false⟩] }, by decide⟩

theorem witness_RingsAndRegisters_firmware : ∃ off : Nat, off % 8 = 0 ∧ off < 65536 := ⟨65528, by decide, by decide⟩

theorem witness_RingsAndRegisters_bellows : ∃ (off x : Nat) (v : Word) (s : State), off < 0x1000 ∧ off ≠ 0x60 ∧
    bellowsAfter off (s.bellowsRead off) v.toNat = some x := ⟨0x70, 2 ^ 32 - 1, BitVec.allOnes 64, State.reset, by and_intros <;> decide +kernel⟩

theorem witness_RecordsAccepted_ring : ∃ s : State, arrivalsSound s ∧ s.launches ≠ [] :=
  ⟨store waitingLaunch State.reset, ⟨by decide, by decide⟩, by decide⟩

theorem witness_RecordsAccepted_record : ∃ (v : Nat) (s : State) (q u : Record) (t : State), s.checkRecord v = some q ∧ q.pred = true ∧
    (∃ w, s.checkRecord w = some u ∧ u.pred = false) ∧ q.domain = 0 ∧ q.predAddr = 0 ∧ s.homeSpan 0 0 8 = .ok (0, t) := by
  have h : ((tables State.reset).homeSpan 0 0 8).toOption.map (fun p => p.1 == 0) = some true := by decide +kernel
  obtain ⟨⟨v, t⟩, hv, e⟩ := value_of h
  have e : v = 0 := by simpa using e
  subst e
  exact ⟨2 + 2 ^ 17, tables State.reset, recordOf (2 + 2 ^ 17), recordOf (1 + 2 ^ 48 + 0x800 * 2 ^ 64 + (2 ^ 61 + 1) * 2 ^ 256), t, by decide +kernel,
    by decide +kernel, ⟨1 + 2 ^ 48 + 0x800 * 2 ^ 64 + (2 ^ 61 + 1) * 2 ^ 256, by decide +kernel, by decide +kernel⟩, by decide +kernel, by decide +kernel, hv⟩

theorem witness_RecordsAccepted_dependence : ∃ (a : Nat) (s : State) (l : Launch), s.launchAt a = some l ∧ l.eligibleAt = none ∧
    l.record.pred = false ∧ l.record.dep = true :=
  let l : Launch := { waitingLaunch with eligibleAt := none, record := { oneCore with dep := true } }
  ⟨3, store l State.reset, l, by decide, rfl, rfl, rfl⟩

theorem witness_RecordsAccepted_branch : ∃ (a w : Nat) (s u : State) (l : Launch) (one : Record) (other : Option Record),
    s.launchAt a = some l ∧ l.eligibleAt = none ∧ l.record.pred = true ∧ l.record.dep = false ∧
    s.homeSpan l.record.domain l.record.predAddr 8 = .ok (w, u) ∧ l.arms = some (one, other) ∧ one.dep = false := by
  let l : Launch := { waitingLaunch with eligibleAt := none, record := { oneCore with pred := true, domain := 0 }, arms := some (oneCore, none) }
  have h : ((tables (store l State.reset)).homeSpan 0 0 8).isOk = true := by decide +kernel
  obtain ⟨p, hp⟩ := ok_of h
  exact ⟨3, p.1, tables (store l State.reset), p.2, l, oneCore, none, by decide +kernel, rfl, rfl, rfl, hp, rfl, rfl⟩

theorem witness_RecordsAccepted_none : ∃ (a : Nat) (s : State), s.launchAt a = none := ⟨5, State.reset, by decide⟩

/-- Launch 3's only group is being stopped on core 0, whose context 0 a pool may receive. -/
def stoppingGroup : Group := ⟨0, 0, 1, 1, [], .stopping 0, 0, [], []⟩

/-- The launch of `stoppingGroup`. -/
def stoppingLaunch : Launch := { waitingLaunch with groups := [stoppingGroup] }

/-- A save pool of `n` bytes and the launch of `stoppingGroup`, whose one context is changed. -/
def preempted (n : Nat) (f : Ctx → Ctx) : State :=
  let s := store stoppingLaunch (plain (fun x => f { x with vlcap := 4096 }))
  { s with bregs := { s.bregs with spbase := 0x100000, splen := n } }

/-- Launch 3 runs on core 0, and launch 4 waits while every core is held. -/
def crowded : State :=
  let l : Launch := { waitingLaunch with groups := [{ stoppingGroup with state := .running 0 }] }
  let k : Launch := { waitingLaunch with arrival := 4, rank := 4, record := { oneCore with prio := 63 } }
  let s : State := { State.reset with launches := [l, k], nextArrival := 5, bregs := { State.reset.bregs with minrun := 0, spbase := 0x100000, splen := 0x10000 } }
  { s with cores := vmap s.cores (fun c => { c with placed := some ⟨3, 0, 0, 0, 7, [], [], true⟩ }) }

theorem some_of {α : Type} {x : Option α} {p : α → Bool} (h : x.map p = some true) : ∃ a, x = some a ∧ p a = true := by
  cases x with
  | none => simp at h
  | some a => exact ⟨a, rfl, by simpa using h⟩

theorem witness_PreemptionSaves_pool : ∃ (s u : State) (size base : Nat), s.poolTake size = some (base, u) := by
  obtain ⟨p, hp, -⟩ := some_of (show ((preempted 0x10000 id).poolTake 0x3000).map (fun _ => true) = some true by decide +kernel)
  exact ⟨_, p.2, _, p.1, hp⟩

/-- Launch 3 of `crowded`. -/
def runs3 : Launch := { waitingLaunch with groups := [{ stoppingGroup with state := .running 0 }] }

/-- Launch 4 of `crowded`. -/
def waits4 : Launch := { waitingLaunch with arrival := 4, rank := 4, record := { oneCore with prio := 63 } }

theorem crowded_stuck (gi : Nat) (gs : List Nat) (u : State) :
    State.placeGroups 4 (crowded.effective waits4) false [0] crowded ≠ some (gi :: gs, u) := by
  intro h
  have e : (State.placeGroups 4 (crowded.effective waits4) false [0] crowded).map (fun r => r.1) = some [] := by decide +kernel
  rw [h] at e; simp at e

theorem crowded_floor (d : BitVec 16) : ¬ underFloor crowded d := by
  simp only [underFloor, floorByte]
  rw [if_neg (show ¬ d.toNat < crowded.bregs.flcnt from Nat.not_lt_zero _)]; omega

theorem crowded_candidates (a gi : Nat) (l : Launch) (h : crowded.launchAt a = some l) (c : isCandidate crowded waits4 l gi) :
    l = runs3 ∧ a = 3 ∧ gi = 0 := by
  have hm : l ∈ [runs3, waits4] := List.mem_of_find?_eq_some h
  have ha : l.arrival = a := by simpa using List.find?_some h
  obtain ⟨⟨g, hg, n, hn, -⟩, -⟩ := c
  rcases List.mem_pair.1 hm with rfl | rfl
  · refine ⟨rfl, ha.symm, ?_⟩
    match gi, hg with
    | 0, _ => rfl
    | k + 1, hg => simp [runs3] at hg
  · match gi, hg with
    | 0, hg => simp [waits4, waitingLaunch] at hg; subst hg; simp at hn
    | k + 1, hg => simp [waits4, waitingLaunch] at hg

theorem crowded_candidate : isCandidate crowded waits4 runs3 0 :=
  ⟨⟨_, rfl, 0, rfl, by decide⟩, fun h => absurd h (by decide), crowded_floor _, .inl (by decide +kernel)⟩

theorem witness_PreemptionSaves_victims : ∃ (s : State) (l : Launch) (us : List (Nat × List Nat)), arrivalsSound s ∧
    s.firstStopping = none ∧ s.firstRanked = some l ∧
    (∀ gi gs u, State.placeGroups l.arrival (s.effective l) l.record.gang l.waitingGroups s ≠ some (gi :: gs, u)) ∧
    candidateOrder s l us ∧ 0 < us.length ∧ fitsAfter s l (us.take 1) := by
  refine ⟨crowded, waits4, [(3, [0])], ⟨by decide, by decide⟩, by decide, by decide +kernel, crowded_stuck, ⟨?_, ?_, by decide, by simp⟩,
    by decide, ?_⟩
  · intro u hu
    obtain rfl := List.mem_singleton.1 hu
    exact ⟨runs3, rfl, by decide, fun gi h => by obtain rfl := List.mem_singleton.1 h; exact crowded_candidate,
      fun h => absurd h (by decide), fun _ => rfl⟩
  · intro a l gi h c
    obtain ⟨rfl, rfl, rfl⟩ := crowded_candidates a gi l h c
    decide
  · obtain ⟨u, hu, h⟩ := some_of (p := fun u => (State.placeGroups 4 (crowded.effective waits4) false [0] u).map (fun r => r.1) == some [0])
      (show (crowded.supposeSaved 3 0).map _ = some true by decide +kernel)
    cases e : State.placeGroups 4 (crowded.effective waits4) false [0] u with
    | none => rw [e] at h; simp at h
    | some r =>
      rw [e] at h
      have : r.1 = [0] := by simpa using h
      refine ⟨u, 0, [], r.2, ?_, ?_⟩
      · simpa [pairsOf] using hu
      · rw [← this]; exact e

theorem preempted_active (s : State) (h : (s.ctxAt 0 0).active = true) : groupActive s stoppingGroup := ⟨0, by decide, 0, by decide, h⟩

theorem witness_PreemptionSaves_ended : ∃ (s : State) (l : Launch) (gi : Nat) (g : Group), s.firstStopping = some (l, gi, g) ∧ ¬ groupActive s g :=
  ⟨store stoppingLaunch State.reset, stoppingLaunch, 0, stoppingGroup, by decide, by simp only [groupActive]; decide +kernel⟩

/-- A CPY of 32 bytes into core 0 waits in copy engine 0 of die 0. -/
def filling (s : State) : State :=
  let c : Command := { command lw lw 32 0 0 0 with inst := 0 }
  let e := { c with sender := { someone with core := 0 }, msg := { c.msg with w0 := 0x1000000000000000 } }
  s.modDie 0 (fun d => { d with agents := d.agents.set 0 { d.agents[0] with queue := [e] } })

theorem witness_PreemptionSaves_held : ∃ (s : State) (l : Launch) (gi : Nat) (g : Group), s.firstStopping = some (l, gi, g) ∧
    groupActive s g ∧ s.holdsSave (l.stoppingWith g) = true :=
  ⟨filling (preempted 0x10000 id), stoppingLaunch, 0, stoppingGroup, by decide, preempted_active _ (by decide), by decide +kernel⟩

theorem witness_PreemptionSaves_notice : ∃ (s : State) (l : Launch) (gi : Nat) (g : Group) (c : CoreId) (x : CtxId),
    s.firstStopping = some (l, gi, g) ∧ groupActive s g ∧ s.holdsSave (l.stoppingWith g) = false ∧ c ∈ l.stoppingWith g ∧ x.val < 11 ∧
    (s.ctxAt c x).active = true ∧ (asked s.cycle (s.ctxAt c x)).stopped = false :=
  ⟨preempted 0x10000 (fun x => { x with pnote := true }), stoppingLaunch, 0, stoppingGroup, 0, 0, by decide,
    preempted_active _ (by decide), by decide +kernel, by decide, by decide, by decide, by decide⟩

theorem witness_PreemptionSaves_image : ∃ (s u : State) (l : Launch) (gi base : Nat) (g : Group) (c : CoreId), arrivalsSound s ∧
    memoriesWf s = true ∧ s.firstStopping = some (l, gi, g) ∧ g.rect.cores = [c] ∧ l.stoppingWith g = [c] ∧ groupActive s g ∧
    s.holdsSave [c] = false ∧
    (∀ x : CtxId, x.val < 11 → (s.ctxAt c x).active = true → (s.ctxAt c x).stopped = true ∧ (s.ctxAt c x).travel = none ∧
      (s.ctxAt c x).vlcap ≤ 4096 ∧ (s.ctxAt c x).vlcap % 32 = 0 ∧ (s.ctxAt c x).kstack.length ≤ 16) ∧
    l.record.localBytes ≤ 0x60000 ∧ (l.record.levels.map (fun v => v.nbar)).sum ≤ 64 ∧
    (∀ d, ∀ b ∈ (s.dieAt d).bars, b.launch = l.arrival → b.full = false) ∧
    s.poolTake (s.coreImageBytes c l.record.localBytes) = some (base, u) ∧ s.coreLeases c = [] ∧ l.groups = [g] ∧
    (l.placement gi g c).covered = true ∧ s.flue = [] ∧ ∀ d, ∀ ln ∈ (s.dieAt d).l2, ln.dirty = 0 := by
  let s := preempted 0x10000 (fun x => { x with stopped := true })
  obtain ⟨p, hp, -⟩ := some_of (show (s.poolTake (s.coreImageBytes 0 stoppingLaunch.record.localBytes)).map (fun _ => true) = some true by
    decide +kernel)
  exact ⟨s, p.2, stoppingLaunch, 0, p.1, stoppingGroup, 0, ⟨by decide, by decide⟩, by decide +kernel, by decide, by decide, by decide,
    preempted_active _ (by decide), by decide +kernel, by decide +kernel, by decide, by decide, by decide +kernel, hp,
    by decide +kernel, rfl, by decide +kernel, rfl, by decide +kernel⟩

theorem witness_PreemptionSaves_full : ∃ (s : State) (l : Launch) (gi : Nat) (g : Group) (c : CoreId), arrivalsSound s ∧
    s.firstStopping = some (l, gi, g) ∧ g.rect.cores = [c] ∧ l.stoppingWith g = [c] ∧ groupActive s g ∧ s.holdsSave [c] = false ∧
    (∀ x : CtxId, x.val < 11 → (s.ctxAt c x).active = true → (s.ctxAt c x).stopped = true ∧ (s.ctxAt c x).travel = none) ∧
    s.poolTake (s.coreImageBytes c l.record.localBytes) = none :=
  ⟨preempted 0 (fun x => { x with stopped := true }), stoppingLaunch, 0, stoppingGroup, 0, ⟨by decide, by decide⟩, by decide, by decide,
    by decide, preempted_active _ (by decide), by decide +kernel, by decide +kernel, by decide +kernel⟩

theorem witness_LaunchesRun_effective : ∃ (s : State) (l : Launch) (g : Group), g ∈ l.groups ∧ groupWaits g ∧
    (∀ h ∈ l.groups, groupWaits h → g.waitFrom ≤ h.waitFrom) ∧ s.bregs.ageper ≠ 0 ∧ underFloor s l.record.domain :=
  let g : Group := ⟨0, 0, 1, 1, [], .unplaced, 0, [], []⟩
  ⟨{ State.reset with mem := [(7, 5)], bregs := { State.reset.bregs with flcnt := 8 } }, waitingLaunch, g, by decide, .inl rfl, fun h hh _ => by
    obtain rfl := List.mem_singleton.1 hh; exact Nat.le_refl _, by decide, by simp only [underFloor]; decide +kernel⟩

theorem witness_LaunchesRun_ranked : ∃ (s : State) (l : Launch), s.firstRanked = some l :=
  ⟨store waitingLaunch State.reset, waitingLaunch, by decide⟩

theorem witness_LaunchesRun_idle : ∃ s : State, s.firstStopping = none ∧ s.firstRanked = none := ⟨State.reset, by decide, by decide⟩

theorem witness_LaunchesRun_placed : ∃ (s u : State) (l : Launch) (gs : List Nat) (c : CoreId) (p : Placement), arrivalsSound s ∧
    s.firstStopping = none ∧ s.firstRanked = some l ∧ (∀ g ∈ l.groups, g.state = .unplaced) ∧
    State.placeGroups l.arrival (s.effective l) l.record.gang l.waitingGroups s = some (gs, u) ∧ gs ≠ [] ∧
    (s.coreAt c).placed = none ∧ (u.coreAt c).placed = some p ∧ p.covered = true ∧ ∀ c, ∀ n < 4, (ringOn s c n).filled = 0 := by
  let s := store waitingLaunch State.reset
  have h : (State.placeGroups 3 (s.effective waitingLaunch) false [0] s).map (fun r => r.1 == [0] &&
      (match (r.2.coreAt 0).placed with
        | some p => p.covered
        | none => false)) = some true := by decide +kernel
  cases e : State.placeGroups 3 (s.effective waitingLaunch) false [0] s with
  | none => rw [e] at h; simp at h
  | some r =>
    rw [e] at h
    cases k : (r.2.coreAt 0).placed with
    | none => simp [k] at h
    | some p =>
      simp only [k, Option.map_some, Option.some.injEq, Bool.and_eq_true, beq_iff_eq] at h
      refine ⟨s, r.2, waitingLaunch, r.1, 0, p, ⟨by decide, by decide⟩, by decide, by decide, by decide, e, ?_, by decide, k, h.2, by decide +kernel⟩
      rw [h.1]; decide

theorem witness_LaunchesRun_unplaceable : ∃ (s : State) (l : Launch), s.firstStopping = none ∧ s.firstRanked = some l ∧
    ∀ gi gs u, State.placeGroups l.arrival (s.effective l) l.record.gang l.waitingGroups s ≠ some (gi :: gs, u) := by
  let l : Launch := { waitingLaunch with groups := [⟨0, 0, 33, 1, [], .unplaced, 0, [], []⟩] }
  refine ⟨store l State.reset, l, by decide, by decide, fun gi gs u h => ?_⟩
  have e : (State.placeGroups 3 ((store l State.reset).effective l) false [0] (store l State.reset)).map (fun r => r.1) = some [] := by
    decide +kernel
  have h : State.placeGroups 3 ((store l State.reset).effective l) false [0] (store l State.reset) = some (gi :: gs, u) := h
  rw [h] at e
  simp at e

theorem witness_LaunchesRun_waits : ∃ (s : State), (∃ l ∈ s.launches, waitsForPlace l) :=
  ⟨store waitingLaunch State.reset, waitingLaunch, by decide, rfl, by decide⟩

theorem witness_LaunchesRun_completion : ∃ (a gi : Nat) (s : State) (l : Launch) (g : Group), s.launchAt a = some l ∧
    l.groups[gi]? = some g ∧ (∀ im, g.state ≠ .restoring im) ∧ g.stands = true ∧ ¬ groupActive s g ∧
    s.commandsOf a g.rect.cores = false ∧ s.commandsOf a l.cores = false :=
  let g : Group := ⟨0, 0, 1, 1, [], .running 0, 0, [], []⟩
  let l : Launch := { waitingLaunch with groups := [g] }
  ⟨3, 0, store l State.reset, l, g, by decide, by decide, fun im h => (by simp [g] at h : False), by decide, by
    simp only [groupActive]; decide +kernel, by decide +kernel, by decide +kernel⟩

theorem witness_LaunchesRun_counter : ∃ (s u : State) (pa : Nat) (k : Counter), s.tableCheck 0 k.domain k.addr (rightW + rightA) = true ∧
    s.atHome 0 false true k.addr = .ok (pa, u) := by
  have h : ((tables State.reset).atHome 0 false true 0xFFF8).isOk = true := by decide +kernel
  obtain ⟨p, hp⟩ := ok_of h
  exact ⟨tables State.reset, p.2, p.1, ⟨0xFFF8, 1, 0⟩, by decide +kernel, hp⟩

theorem witness_LaunchesRun_end : ∃ (a gi : Nat) (s : State) (l : Launch) (g : Group), s.launchAt a = some l ∧ l.groups[gi]? = some g ∧
    g.state = .running 0 := ⟨3, 0, launched State.reset, _, _, rfl, rfl, rfl⟩

theorem witness_LaunchesRun_end_saved : ∃ (a gi : Nat) (s : State) (l : Launch) (g : Group) (im : List (CoreId × Nat)),
    s.launchAt a = some l ∧ l.groups[gi]? = some g ∧ g.state = .saved im ∧ ∃ c ∈ g.rect.cores, (s.coreAt c).placed = none :=
  let g : Group := ⟨0, 0, 1, 1, [], .saved [(0, 0x100000)], 0, [], []⟩
  let l : Launch := { waitingLaunch with groups := [g] }
  ⟨3, 0, store l State.reset, l, g, _, by decide, by decide, rfl, 0, by decide, rfl⟩

theorem witness_LaunchesRun_restore : ∃ (a gi base : Nat) (c : CoreId) (s : State) (l : Launch) (g : Group), memoriesWf s = true ∧
    s.launchAt a = some l ∧ l.groups[gi]? = some g ∧ g.state = .restoring [(c, base)] ∧ s.coreImageBad base (g.leasedOn c) = false ∧
    c ∈ g.displaced ∧ ∀ n < 4, (ringOn s c n).filled = 0 :=
  let g : Group := ⟨0, 0, 1, 1, [], .restoring [(0, 0x100000)], 0, [0], []⟩
  let l : Launch := { waitingLaunch with groups := [g] }
  ⟨3, 0, 0x100000, 0, store l State.reset, l, g, by decide +kernel, by decide, by decide, rfl, by decide +kernel⟩

theorem witness_HostAndBoot_write : ∃ (off : Nat) (bytes : List Byte) (s : State), bytes ≠ [] ∧ s.posted = [] ∧
    bytes.length ≤ 65536 - (s.bregs.apbase + off) % 65536 := ⟨0xFFFF, [7], State.reset, by decide⟩

theorem witness_HostAndBoot_held : ∃ (s : State) (h : HeldWrite) (l : Leaf), s.posted = [] ∧ s.heldWrites = [h] ∧
    s.hostLeaf (s.bregs.apbase + h.off) = some l ∧ l.owner = true ∧ h.ready = true ∧ memoryWf s.mem = true :=
  let s := tables { State.reset with bregs := { State.reset.bregs with apen := true }, heldWrites := [⟨0xFFF8, [7], true, true⟩] }
  ⟨{ s with mem := writeN s.mem 0x30000 8 (0x80000 + 2 ^ 63 + 2 ^ 11) }, ⟨0xFFF8, [7], true, true⟩,
    ⟨0, 65536, 0x80000, 32, 0, true, false, 0, 0, 0x30000⟩, by decide +kernel⟩

theorem witness_HostAndBoot_snoop : ∃ (d : DieId) (s : State) (ln : L2Line), lineSound s d ln ∧ ln.dirty ≠ 0 ∧
    ∀ e, (s.dieAt e).l2.filter (fun o => holdsHost o (Config.hostPhys + 3)) = if e = d then [ln] else [] :=
  let ln : L2Line := ⟨0x20000, 32, Config.hostPhys, false, 0, false, 0xFF, 8, 0xAB000000, []⟩
  ⟨2, State.reset.modDie 2 (fun d => { d with l2 := [ln] }), ln, by and_intros <;> decide +kernel⟩

theorem witness_HostAndBoot_staging : ∃ s : State, memoryWf s.boot.staging = true ∧ s.posted = [] ∧ s.heldWrites = [] :=
  ⟨State.reset, by decide, rfl, rfl⟩

theorem witness_HostAndBoot_ordered : ∃ s : State, s.posted = [] ∧ s.heldWrites ≠ [] :=
  ⟨{ State.reset with heldWrites := [⟨0xFFF8, [7], true, true⟩] }, rfl, by decide⟩

/-- A frame from package 5 to this one, the first of class 1, from core `c` and of this age. -/
def frame (c : CoreId) (age : Nat) (b : FrameBody) : Frame := ⟨5, 0, 1, 0, age, c, 0, b, false⟩

/-- A frame that is next in its stream when none else has arrived. -/
def nextFrame (s : State) (f : Frame) : Prop := s.arrivedFrames = [] ∧ f.dst = s.bregs.pkgno ∧ f.seq = nextSeq s.rxSeq f.src f.cls

theorem witness_OutsideEvents_message : ∃ (f : Frame) (s : State) (dest : Word) (m : Message) (p : Sender), nextFrame s f ∧
    f.body = .message dest m p ∧ dest.extractLsb' 60 4 = 2 :=
  ⟨frame 0 0 (.message 0x2000000000000000 ⟨0, 0, 0, 0, 0, 0, 0, 0⟩ someone), State.reset, _, _, _, ⟨by decide, by decide, by decide⟩, rfl, by decide⟩

theorem witness_OutsideEvents_reply : ∃ (f : Frame) (s : State) (p : Sender) (addr w0 w1 : Word) (o : Nat), nextFrame s f ∧
    f.body = .reply p addr w0 w1 ∧ windowOffset (addr.toNat % 2 ^ 52) = some o ∧ s.holdsSender p = true ∧ o + 16 ≤ 0x60000 :=
  ⟨frame 0 0 (.reply someone 0xFFF000005FFF0 0 0), held 1 State.reset, _, _, _, _, 0x5FFF0, ⟨by decide, by decide, by decide⟩, rfl,
    by decide +kernel⟩

theorem witness_OutsideEvents_source : ∃ (f g : Frame) (s u : State) (p : Sender) (addr len v : Nat) (d : DieId) (n : Fin 8), nextFrame s f ∧
    nextFrame s g ∧ f.body = .sourceRead d n p addr len ∧
    s.sourceRead ⟨⟨0, 0, 0, 0, 0, 0, 0, 0⟩, { p with remote := false }, dieOf p.core, 0, s.regionsOf (dieOf p.core) p.domain⟩ addr len =
      .ok (v, u) ∧ g.body = .sourceData d n 0 0 v ∧ ((s.dieAt d).agents[n]).aux1 = 1 ∧ ((s.dieAt d).agents[n]).words = [] := by
  let p : Sender := ⟨0, 1, 0, 0, none, true⟩
  let s := (tables State.reset).modAgent 0 0 (fun a => { a with aux1 := 1 })
  have h : (s.sourceRead ⟨⟨0, 0, 0, 0, 0, 0, 0, 0⟩, { p with remote := false }, dieOf p.core, 0, s.regionsOf (dieOf p.core) p.domain⟩
      0xFFF8 8).isOk = true := by decide +kernel
  obtain ⟨⟨v, u⟩, hv⟩ := ok_of h
  exact ⟨frame 0 0 (.sourceRead 0 0 p 0xFFF8 8), frame 0 0 (.sourceData 0 0 0 0 v), s, u, p, 0xFFF8, 8, v, 0, 0,
    ⟨by decide, by decide, by decide⟩, ⟨by decide, rfl, rfl⟩, rfl, hv, rfl, by decide, by decide⟩

theorem witness_OutsideEvents_ack : ∃ (f : Frame) (s : State) (n : Nat) (o : Frame), s.arrivedFrames = [] ∧ f.dst = s.bregs.pkgno ∧
    f.body = .ack n ∧ o ∈ s.txFrames ∧ o.dst = f.src ∧ o.cls = f.cls ∧ o.seq ≤ n ∧ o.acked = false :=
  let o : Frame := ⟨0, 5, 1, 0, 0, 0, 0, .reply someone 0 0 0, false⟩
  ⟨frame 0 0 (.ack 0), { State.reset with txFrames := [o] }, 0, o, by decide, by decide, rfl, by decide +kernel⟩

theorem witness_OutsideEvents_contention : ∃ (port q : Fin 8) (f g : Frame) (s u : State), s.arrivedFrames = [(q, g)] ∧
    ¬ (g.src = f.src ∧ g.cls = f.cls) ∧ frameWins s g f ∧ ({ s with agenda := s.agenda.map (fun t =>
      if t = .event (.scaleoutFrameReceive q g) then .event (.scaleoutFrameReceive port f) else t) } : State).takeFrame g = some u :=
  let f := frame 2 3 (.reply someone 0xFFF000005FFF0 0 0)
  let g := { frame 3 9 (.reply someone 0xFFF000005FFE0 0 0) with cls := 2 }
  let s : State := { held 1 State.reset with agenda := [.event (.scaleoutFrameReceive 1 g)] }
  let turn : Turn → Turn := fun t => if t = .event (.scaleoutFrameReceive 1 g) then .event (.scaleoutFrameReceive 0 f) else t
  have h0 : (State.takeFrame { s with agenda := s.agenda.map turn } g).isSome = true := by decide +kernel
  have ⟨u, h⟩ := Option.isSome_iff_exists.1 h0
  ⟨0, 1, f, g, s, u, by decide +kernel, by decide, .inl (by decide), h⟩

theorem witness_OutsideEvents_order : ∃ (s : State) (dst cls : Nat), s.txFrames ≠ [] ∧ (∀ f ∈ s.txFrames, f.src = s.bregs.pkgno) ∧
    oldestFirst s ∧ s.txFrames.filter (fun f => f.dst == dst && f.cls == cls) = [] :=
  ⟨{ State.reset with txFrames := [⟨0, 5, 1, 0, 0, 0, 0, .ack 0, false⟩] }, 6, 1, by decide, by decide, by simp [oldestFirst], by decide⟩

theorem witness_OutsideEvents_timeout : ∃ (n : Nat) (s : State) (f : Frame), s.txFrames[n]? = some f :=
  ⟨0, { State.reset with txFrames := [⟨0, 5, 1, 0, 0, 0, 0, .reply someone 0 0 0, false⟩] }, _, rfl⟩

theorem witness_OutsideEvents_off : ∃ s : State, (s.power = .off ∨ s.power = .trip) ∧ s.agenda = [] :=
  ⟨{ State.reset with power := .trip }, .inr rfl, by decide⟩

theorem witness_DecodeEncode : ∃ (i : Instr) (w : Word), hasWord i = true ∧ i.wellFormed = true ∧ decode w = .ok i :=
  ⟨.hop ⟨noG, 0, 6, 0, 0, 0, 0⟩, 0x7500000030000000, by and_intros <;> decide +kernel⟩

theorem witness_StepRunsDecoded_clock : ∃ s : State, s.halted = false ∧ s.clockDue = true :=
  ⟨{ State.reset with cycle := 1024 }, by decide, by decide⟩

theorem witness_StepRunsDecoded_event : ∃ (s : State) (i : Instr) (rest : List Turn), s.halted = false ∧ s.clockDue = false ∧
    s.agenda = .event i :: rest := ⟨{ State.reset with agenda := [.event .agingStep] }, _, _, by decide, by decide, rfl⟩

theorem witness_StepRunsDecoded_agent : ∃ (s : State) (d : DieId) (n : Fin 8) (i : Instr) (rest : List Turn), s.halted = false ∧
    s.clockDue = false ∧ s.agenda = .agent d n :: rest ∧ ({ s with agenda := rest } : State).headCommand d n = some (.ok i) :=
  let c : Command := ⟨⟨0x10 * 2 ^ 56, 0, 0, 0, 0, 0, 0, 0⟩, someone, 0, 0, []⟩
  ⟨{ State.reset.modAgent 0 0 (fun a => { a with queue := [c] }) with agenda := [.agent 0 0] }, 0, 0, .cpy c, [], by decide, by decide, rfl,
    by decide⟩

/-- A domain with a limit of one flit at die 0, which it has sent, and a command of its that is answered BADCMD at another die. -/
def limited : State × Command :=
  let p : Sender := ⟨0, localCore 1 0 0, 0, 7, none, false⟩
  let d := State.reset.dieAt 0
  ({ State.reset with
      mem := writeN [] (0x1000 + 28) 4 1
      dies := State.reset.dies.set 0 { d with injected := [(7, 1)], fw := { d.fw with injbase := 0x1000, injcnt := 8 } } },
    ⟨⟨0x10 * 2 ^ 56 + 2 ^ 51, 0xFFF0000000000, 0, 0, 0, 1, 0, 0⟩, p, 0, 0, []⟩)

theorem witness_StepRunsDecoded_stall : ∃ (s t : State) (d : DieId) (dom : BitVec 16) (i : Instr) (lim : Nat), exec i s = .next t ∧
    s.injectLimit d dom.toNat = some lim ∧ (s.dieAt d).usedFlits dom.toNat ≠ 0 ∧
    (s.dieAt d).usedFlits dom.toNat < (t.dieAt d).usedFlits dom.toNat ∧ lim < (t.dieAt d).usedFlits dom.toNat :=
  ⟨limited.1, _, 0, 7, .cpy limited.2, 1, rfl, by decide +kernel, by decide +kernel, by decide +kernel, by decide +kernel⟩

theorem witness_StepRunsDecoded_run : ∃ (s : State) (p : CoreId × CtxId) (w : Word) (u : State) (i : Instr), s.halted = false ∧ s.clockDue = false ∧
    s.agenda = [] ∧
    (woken s).choose s.focus = .run p ∧ ((woken s).select s.focus p).boundary = none ∧
    ((woken s).select s.focus p).fetch = .ok (w, u) ∧ u.boundaryEvent w = none ∧ decode w = .ok i := by
  have h : ((woken hopping).select hopping.focus (0, 0)).fetch.toOption.map (fun r => r.1 == 0x7500000030000000 && (r.2.boundaryEvent r.1).isNone) = some true := by
    decide +kernel
  obtain ⟨⟨w, u⟩, hw, e⟩ := value_of h
  simp only [Bool.and_eq_true, beq_iff_eq, Option.isNone_iff_eq_none] at e
  exact ⟨hopping, (0, 0), w, u, .hop ⟨noG, 0, 6, 0, 0, 0, 0⟩, by decide, by decide, by decide, by decide +kernel, by decide +kernel, hw, e.2,
    by rw [e.1]; decide⟩

theorem witness_StepRunsDecoded_fetch : ∃ (s : State) (p : CoreId × CtxId) (k : BitVec 8), s.halted = false ∧ s.clockDue = false ∧ s.agenda = [] ∧
    (woken s).choose s.focus = .run p ∧ ((woken s).select s.focus p).boundary = none ∧ ((woken s).select s.focus p).fetch = .error k := by
  have h : ((woken skewed).select skewed.focus (0, 0)).fetch.isOk = false := by decide +kernel
  cases e : ((woken skewed).select skewed.focus (0, 0)).fetch with
  | ok r => rw [e] at h; simp [Except.isOk, Except.toBool] at h
  | error k => exact ⟨skewed, (0, 0), k, by decide, by decide, by decide, by decide +kernel, by decide +kernel, e⟩

theorem witness_StepRunsDecoded_invoke : ∃ s : State, s.halted = false ∧ s.clockDue = false ∧ s.agenda = [] ∧
    (woken s).choose s.focus = .invoke :=
  ⟨{ State.reset with cores := State.reset.cores.set 0 { Core.reset with hqueue := [⟨⟨0x40 * 2 ^ 56, 0, 0, 0, 0, 0, 0, 0⟩, someone, 0⟩] } },
    by and_intros <;> decide +kernel⟩

/-- Some step answers a state, so that the invariants say something about it. -/
theorem witness_invariants : ∃ s t : State, memoriesWf s = true ∧ linesOk s = true ∧ step s = .next t := by
  have h : (match step hopping with
    | .next _ => true
    | _ => false) = true := by decide +kernel
  cases e : step hopping with
  | next t => exact ⟨hopping, t, by decide +kernel, by decide +kernel, e⟩
  | fault f => rw [e] at h; simp at h
  | refused r => rw [e] at h; simp at h

/-! ### Words of the spec -/

/-- Each word decodes to its instruction. -/
def reads (l : List (Word × Instr)) : Bool := l.all (fun p => decide (decode p.1 = .ok p.2))

theorem test_words_scalar : reads [
    (0x0100000A29600600, .add ⟨noG, 5, 5, 11, 0, 6, 0⟩), (0x2100002CB0000010, .addI ⟨noG, 22, 22, 16⟩),
    (0x210000426FFFFFFF, .addI ⟨noG, 33, 13, 134217727⟩), (0x2700001A6000FFFF, .andI ⟨noG, 13, 12, 65535⟩),
    (0x1300000A30000600, .brev ⟨noG, 5, 6, 0, 0, 6, 0⟩), (0x1000000A30000600, .clz ⟨noG, 5, 6, 0, 0, 6, 0⟩),
    (0x1100000A30000600, .ctz ⟨noG, 5, 6, 0, 0, 6, 0⟩), (0x0D0000288A600700, .cmp ⟨noG, 20, 17, 19, 0, 7, 0⟩),
    (0x0500000A30E00600, .div ⟨noG, 5, 6, 7, 0, 6, 0⟩), (0x0500000A30E00400, .div ⟨noG, 5, 6, 7, 0, 4, 0⟩),
    (0x1400000A30E00600, .ext ⟨noG, 5, 6, 7, 0, 6, 0⟩), (0x1B00000A30008A00, .fcvt ⟨noG, 5, 6, 0, 4, 10, 0⟩),
    (0x1B00000E40014400, .fcvt ⟨noG, 7, 8, 0, 10, 4, 0⟩), (0x1B00000E40014420, .fcvt ⟨noG, 7, 8, 0, 10, 4, 1⟩),
    (0x1B00000E40014480, .fcvt ⟨noG, 7, 8, 0, 10, 4, 4⟩), (0x1900000A30E00B00, .fdiv ⟨noG, 5, 6, 7, 0, 11, 0⟩),
    (0x1A00000A30000AE0, .fsqrt ⟨noG, 5, 6, 0, 0, 10, 7⟩), (0x1800000A30E40028, .fma ⟨noG, 5, 6, 7, 8, 0, 10⟩),
    (0x1800000A30E403A8, .fma ⟨noG, 5, 6, 7, 8, 7, 10⟩), (0x1500000A30E00600, .ins ⟨noG, 5, 6, 7, 0, 6, 0⟩),
    (0x3000002200000001, .li ⟨noG, 17, 1⟩), (0x3000000A00000000, .li ⟨noG, 5, 0⟩), (0x3100000A0007FF80, .lih ⟨noG, 5, 524160⟩),
    (0x0F00000A30E00600, .max ⟨noG, 5, 6, 7, 0, 6, 0⟩), (0x0F00000A30E00A00, .max ⟨noG, 5, 6, 7, 0, 10, 0⟩),
    (0x0E00002082200600, .min ⟨noG, 16, 16, 17, 0, 6, 0⟩), (0x1600000E30000600, .mov ⟨noG, 7, 6, 0, 0, 6, 0⟩),
    (0x03000034CB400600, .mul ⟨noG, 26, 25, 26, 0, 6, 0⟩), (0x0400000A30E00700, .mulh ⟨noG, 5, 6, 7, 0, 7, 0⟩),
    (0x0800001E79C00600, .or ⟨noG, 15, 15, 14, 0, 6, 0⟩), (0x2800001A68000004, .orI ⟨noG, 13, 13, 4⟩),
    (0x3C00000A28000030, .paddI ⟨noG, 5, 5, 48⟩), (0x1D00000A30E00600, .pmake ⟨noG, 5, 6, 7, 0, 6, 0⟩),
    (0x1E00000A30000600, .ptag ⟨noG, 5, 6, 0, 0, 6, 0⟩), (0x1200000A30000600, .popc ⟨noG, 5, 6, 0, 0, 6, 0⟩),
    (0x06000010AA200600, .rem ⟨noG, 8, 21, 17, 0, 6, 0⟩), (0x17000030BACA8018, .sel ⟨noG, 24, 23, 22, 21, 0, 6⟩),
    (0x2A00001650000002, .shlI ⟨noG, 11, 10, 2⟩), (0x2B00002678000001, .shrI ⟨noG, 19, 15, 1⟩),
    (0x0C00000A30E00600, .sra ⟨noG, 5, 6, 7, 0, 6, 0⟩), (0x02000032AAC00600, .sub ⟨noG, 25, 21, 22, 0, 6, 0⟩),
    (0x0900000A30E00600, .xor ⟨noG, 5, 6, 7, 0, 6, 0⟩), (0x2900000A2FFFFFFF, .xorI ⟨noG, 5, 5, 134217727⟩),
    (0x0110E61869C00600, .add ⟨⟨0, some ⟨false, 7, 12⟩⟩, 12, 13, 14, 0, 6, 0⟩)] = true := by decide +kernel

theorem test_words_control_system : reads [
    (0x440000142000000A, .setvl ⟨noG, 10, 4, 10⟩), (0x4500001420E48028, .setvlc ⟨noG, 10, 4, 7, 9, 0, 10⟩),
    (0x6000000028C00000, .msg ⟨noG, 0, 5, 6, 0, 0, 0⟩), (0x4E00000028C00000, .hbind ⟨noG, 0, 5, 6, 0, 0, 0⟩),
    (0x6100000020A00000, .reply ⟨noG, 0, 4, 5, 0, 0, 0⟩), (0x6000000072000000, .msg ⟨noG, 0, 14, 16, 0, 0, 0⟩),
    (0x401A717FFFFFFFFF, .br ⟨⟨0, some ⟨true, 19, 34⟩⟩, 549755813887⟩), (0x4D00000A30000000, .launch ⟨noG, 5, 6, 0, 0, 0, 0⟩),
    (0x4600000007FFFFFF, .trap ⟨noG, 0, 0, 134217727⟩), (0x4F00000000000001, .ecall ⟨noG, 0, 0, 1⟩),
    (0x4700000000000000, .eret ⟨noG, 0, 0, 0, 0, 0, 0⟩), (0x73000000A2A00000, .pinv ⟨noG, 0, 20, 21, 0, 0, 0⟩),
    (0x7500000030000000, .hop ⟨noG, 0, 6, 0, 0, 0, 0⟩), (0x58000000A8000003, .bara ⟨noG, 0, 21, 3⟩), (0x59000000A8000003, .barw ⟨noG, 0, 21, 3⟩),
    (0x4000007FFFFFFFFB, .br ⟨noG, 549755813883⟩), (0x6600000000000004, .cbfree ⟨noG, 0, 0, 4⟩), (0x6500000A00000004, .cbget ⟨noG, 5, 0, 4⟩),
    (0x6400000038000005, .cbput ⟨noG, 0, 7, 5⟩), (0x6400000000000005, .cbput ⟨noG, 0, 0, 5⟩), (0x6300000C00000005, .cbres ⟨noG, 6, 0, 5⟩),
    (0x7000001800000010, .csrr ⟨noG, 12, 0, 16⟩), (0x7100000028000004, .csrw ⟨noG, 0, 5, 4⟩),
    (0x7600000028000000, .handoff ⟨noG, 0, 5, 0, 0, 0, 0⟩), (0x4B00000000000000, .hend ⟨noG, 0, 0, 0, 0, 0, 0⟩),
    (0x4A000000A0000000, .hjoin ⟨noG, 0, 20, 0, 0, 0, 0⟩), (0x4A00000000000000, .hjoin ⟨noG, 0, 0, 0, 0, 0, 0⟩),
    (0x4C000000A0000000, .hkill ⟨noG, 0, 20, 0, 0, 0, 0⟩), (0x49000028A8800000, .hstart ⟨noG, 20, 21, 4, 0, 0, 0⟩),
    (0x49000028A8800080, .hstart ⟨noG, 20, 21, 4, 0, 1, 0⟩), (0x4100000200000028, .jal ⟨noG, 1, 0, 40⟩),
    (0x4200000008000000, .jr ⟨noG, 0, 1, 0⟩), (0x6200000028C00000, .notify ⟨noG, 0, 5, 6, 0, 0, 0⟩),
    (0x7200000028000000, .plbinv ⟨noG, 0, 5, 0, 0, 0, 0⟩), (0x7200000000000000, .plbinv ⟨noG, 0, 0, 0, 0, 0, 0⟩),
    (0x7700000028C00000, .pmig ⟨noG, 0, 5, 6, 0, 0, 0⟩), (0x4300000857FFFFF5, .subbr ⟨noG, 4, 10, 134217717⟩)] = true := by decide +kernel

theorem test_words_memory : reads [
    (0x5600000000000102, .fence ⟨noG, 0, 0, 0, 258⟩), (0x530000327B000003, .strel ⟨noG, 25, 15, 24, 0, 3⟩),
    (0x5400001228030530, .amo ⟨noG, 9, 5, 0, 6, 1, 1, false, 3⟩), (0x54000012280305B0, .amo ⟨noG, 9, 5, 0, 6, 1, 1, true, 3⟩),
    (0x5500000E29048D98, .amocas ⟨noG, 7, 5, 8, 9, 6, 3, false, 3⟩), (0x7400000070000000, .cflush ⟨noG, 0, 14, 0, 0, 0⟩),
    (0x5600000000000401, .fence ⟨noG, 0, 0, 0, 1025⟩), (0x5600000030000203, .fence ⟨noG, 0, 6, 0, 515⟩),
    (0x5000001C20000003, .ld ⟨noG, 14, 4, 0, 0, 3⟩), (0x5000000A301FFFC6, .ld ⟨noG, 5, 6, 0, 262136, 6⟩),
    (0x5200002472A00003, .ldacq ⟨noG, 18, 14, 21, 0, 3⟩), (0x5100002270000003, .st ⟨noG, 17, 14, 0, 0, 3⟩),
    (0x51000028D0000043, .st ⟨noG, 20, 26, 0, 8, 3⟩), (0x5100003AD0000002, .st ⟨noG, 29, 26, 0, 0, 2⟩),
    (0x5300001238000003, .strel ⟨noG, 9, 7, 0, 0, 3⟩), (0x5700000000000000, .vdrain ⟨noG, 0, 0, 0, 0, 0, 0⟩),
    (0x5C00000000000000, .aabort ⟨noG, 0, 0, 0, 0, 0, 0⟩), (0x5B00000000000000, .aend ⟨noG, 0, 0, 0, 0, 0, 0⟩),
    (0x5A00000000000011, .abegin ⟨noG, 17⟩)] = true := by decide +kernel

theorem test_words_vector_a : reads [
    (0xD200000100000000, .kpush ⟨noG, 0, 2, 0, 0, 0, 0⟩), (0xF01E280808000089, .tex ⟨⟨0, 15, false, false, 10, 0⟩, 4, 1, 0, 0, 1, 9⟩),
    (0xF21E28204000000A, .rayq ⟨⟨0, 15, false, false, 10, 0⟩, 16, 8, 0, 0, 0, 10⟩), (0xD700000000080005, .kbr ⟨noG, 0, 0, 0, 1, 0, 5⟩),
    (0xD50000010000A000, .kcnt ⟨noG, 0, 2, 0, 0, 5, 0⟩), (0xD400000000000000, .kelse ⟨noG, 0, 0, 0, 0, 0, 0⟩),
    (0xD60000018000C000, .kfirst ⟨noG, 0, 3, 0, 0, 6, 0⟩), (0xC71E000028000080, .kld ⟨⟨0, 15, false, false, 0, 0⟩, 0, 5, 0, 4, 0⟩),
    (0xD000002118180000, .klog ⟨noG, 4, 2, 3, 3, 0, 0⟩), (0xD100002800000000, .kmov ⟨noG, 5, 0, 0, 0, 0, 0⟩),
    (0xD300000000000000, .kpop ⟨noG, 0, 0, 0, 0, 0, 0⟩), (0xC81E000430000000, .kst ⟨⟨0, 15, false, false, 0, 0⟩, 2, 6, 0, 0, 0⟩),
    (0xF007280808000009, .tex ⟨⟨0, 3, true, false, 10, 0⟩, 4, 1, 0, 0, 0, 9⟩),
    (0xF11E280808000089, .texg ⟨⟨0, 15, false, false, 10, 0⟩, 4, 1, 0, 0, 1, 9⟩),
    (0x801E2B8208600000, .vadd ⟨⟨0, 15, false, false, 10, 7⟩, 1, 1, 3, 0, 0, 0⟩),
    (0x801E100208600000, .vadd ⟨⟨0, 15, false, false, 4, 0⟩, 1, 1, 3, 0, 0, 0⟩),
    (0x821E2B8208400000, .vmul ⟨⟨0, 15, false, false, 10, 7⟩, 1, 1, 2, 0, 0, 0⟩),
    (0xA71E7C081B000000, .vandS ⟨⟨0, 15, false, false, 31, 0⟩, 4, 3, 24, 0, 0⟩),
    (0xAA1E101A1B600000, .vshlS ⟨⟨0, 15, false, false, 4, 0⟩, 13, 3, 27, 0, 0⟩),
    (0xAB1E100A1B200000, .vshrS ⟨⟨0, 15, false, false, 4, 0⟩, 5, 3, 25, 0, 0⟩),
    (0x8F002818B0000000, .vmov ⟨⟨0, 0, false, false, 10, 0⟩, 12, 22, 0, 0, 0, 0⟩),
    (0xAF1E280401000000, .vmovS ⟨⟨0, 15, false, false, 10, 0⟩, 2, 0, 8, 0, 0⟩),
    (0x8D1E280412800100, .vcmp ⟨⟨0, 15, false, false, 10, 0⟩, 2, 2, 20, 0, 2, 0⟩),
    (0x971E240408000500, .vcvt ⟨⟨0, 15, false, false, 9, 0⟩, 2, 1, 0, 0, 10, 0⟩)] = true := by decide +kernel

theorem test_words_vector_b : reads [
    (0x961E401008418001, .vdotb ⟨⟨0, 15, false, false, 16, 0⟩, 8, 1, 2, 3, 0, 1⟩),
    (0x931E100A18C00000, .vext ⟨⟨0, 15, false, false, 4, 0⟩, 5, 3, 6, 0, 0⟩),
    (0xB11E2B8C20A00000, .vfdiv ⟨⟨0, 15, false, false, 10, 7⟩, 6, 4, 5, 0, 0, 0⟩),
    (0xB41E2B8408000000, .vfexp2 ⟨⟨0, 15, false, false, 10, 7⟩, 2, 1, 0, 0, 0, 0⟩),
    (0xB0042B8808418000, .vfma ⟨⟨0, 2, false, false, 10, 7⟩, 4, 1, 2, 3, 0, 0⟩),
    (0x981E400208000003, .vfmt ⟨⟨0, 15, false, false, 16, 0⟩, 1, 1, 0, 0, 0, 3⟩),
    (0x921E100600000000, .viota ⟨⟨0, 15, false, false, 4, 0⟩, 3, 0, 0, 0, 0, 0⟩),
    (0x941E280401000005, .vins ⟨⟨0, 15, false, false, 10, 0⟩, 2, 0, 8, 0, 5⟩),
    (0xC01E280228000000, .vld ⟨⟨0, 15, false, false, 10, 0⟩, 1, 5, 0, 0, 0⟩),
    (0xC01E280228000080, .vld ⟨⟨0, 15, false, false, 10, 0⟩, 1, 5, 0, 4, 0⟩),
    (0xC11E2C0228C00000, .vlds ⟨⟨0, 15, false, false, 11, 0⟩, 1, 5, 6, 0, 0⟩),
    (0xC2002818D1A00000, .vldx ⟨⟨0, 0, false, false, 10, 0⟩, 12, 26, 13, 0, 0⟩),
    (0xC41E280230000000, .vst ⟨⟨0, 15, false, false, 10, 0⟩, 1, 6, 0, 0, 0⟩),
    (0xC31E280228000000, .vldff ⟨⟨0, 15, false, false, 10, 0⟩, 1, 5, 0, 0, 0⟩),
    (0x911E280E08600000, .vperm ⟨⟨0, 15, false, false, 10, 0⟩, 7, 1, 3, 0, 0, 0⟩),
    (0x951E2B8A20000000, .vred ⟨⟨0, 15, false, false, 10, 7⟩, 5, 4, 0, 0, 0, 0⟩),
    (0x901E280C28E00000, .vslide ⟨⟨0, 15, false, false, 10, 0⟩, 6, 5, 7, 0, 0⟩),
    (0x901E280C28E02000, .vslide ⟨⟨0, 15, false, false, 10, 0⟩, 6, 5, 7, 1, 0⟩),
    (0xB0042B8808418000, .vfma ⟨⟨0, 2, false, false, 10, 7⟩, 4, 1, 2, 3, 0, 0⟩)] = true := by decide +kernel

theorem test_words_matrix : reads [
    (0xE0000001C0007800, .mlease ⟨noG, 0, 14, 0, 0, 15, 0, 0⟩), (0xE200000208208A40, .mtile ⟨noG, 0, 16, 16, 16, 17, 9, 0⟩),
    (0xE500000289000240, .mlda ⟨noG, 0, 20, 18, 0, 0, 9, 0⟩), (0xE700000000000240, .mma ⟨noG, 0, 0, 0, 0, 0, 9, 0⟩),
    (0xE900000189800280, .mout ⟨noG, 0, 12, 19, 0, 0, 10, 0⟩), (0xE100000000000000, .mfree ⟨noG, 0, 0, 0, 0, 0, 0, 0⟩),
    (0xE200000208208A41, .mtile ⟨noG, 0, 16, 16, 16, 17, 9, 1⟩), (0xE300000000002800, .mshape ⟨noG, 0, 0, 0, 0, 5, 0, 0⟩),
    (0xE4000018A00004C0, .mzero ⟨noG, 3, 5, 0, 0, 0, 19, 0⟩), (0xE6000002A9000240, .mldb ⟨noG, 0, 21, 18, 0, 0, 9, 0⟩),
    (0xE700000800120241, .mma ⟨noG, 1, 0, 0, 9, 0, 9, 1⟩), (0xE8000000A3000400, .mmab ⟨noG, 0, 5, 6, 0, 0, 16, 0⟩),
    (0xEA00000000000000, .mwait ⟨noG, 0, 0, 0, 0, 0, 0, 0⟩), (0xEB000000A0000000, .msave ⟨noG, 0, 5, 0, 0, 0, 0, 0⟩),
    (0xEC000000A0000000, .mrest ⟨noG, 0, 5, 0, 0, 0, 0, 0⟩)] = true := by decide +kernel

/-! ### Ill-formed instructions (03 R54 to R58; 15 to 18) -/

theorem test_refused_by_each_check :
    [(Instr.hend ⟨noG, 1, 0, 0, 0, 0, 0⟩, IllFormed.zeroField), (.vadd ⟨vc 10, 48, 0, 0, 0, 0, 0⟩, .vectorRegister),
     (.kpush ⟨noG, 0, 12, 0, 0, 0, 0⟩, .maskRegister), (.mzero ⟨noG, 12, 0, 0, 0, 0, 10, 0⟩, .tileRegister),
     (.vadd ⟨{ vc 10 with ksel := 12 }, 0, 0, 0, 0, 0, 0⟩, .maskSelect), (.add ⟨noG, 5, 5, 5, 0, 12, 0⟩, .typeCode),
     (.add ⟨noG, 5, 5, 5, 0, 10, 5⟩, .rounding), (.vcmp ⟨vc 10, 0, 1, 2, 0, 7, 0⟩, .function), (.shlI ⟨noG, 5, 5, 64⟩, .immediate),
     (.st ⟨noG, 5, 5, 0, 0, 4⟩, .size), (.fence ⟨noG, 0, 0, 0, 0x040⟩, .pathSet), (.csrr ⟨noG, 5, 0, 0x307⟩, .csrNumber),
     (.tex ⟨vc 10, 3, 1, 0, 0, 0, 9⟩, .overlap)].all (fun p => p.1.check == some p.2 && !p.1.wellFormed) = true := by decide +kernel

theorem test_refused_words : decode 0x0100008000000600 = .error .guardBits ∧ decode 0x0100000000000001 = .error .zeroBits ∧
    decode 0x7000000800000307 = .error (.field .csrNumber) := by decide

/-! ### Worked values of the spec (15; 16; 17) -/

theorem test_cmp_words : after (.cmp ⟨noG, 20, 17, 19, 0, 7, 0⟩) (plain (regs [(17, 2 ^ 64 - 1), (19, 1)])) (fun t => t.reg 20) = some 0x2A ∧
    after (.cmp ⟨noG, 20, 17, 19, 0, 6, 0⟩) (plain (regs [(17, 2 ^ 64 - 1), (19, 1)])) (fun t => t.reg 20) = some 0x16 := by decide

theorem test_cmp_nan : after (.cmp ⟨noG, 20, 17, 19, 0, 10, 0⟩) (plain (regs [(17, 0x7FC00000), (19, 0x3F800000)])) (fun t =>
    (t.reg 20, t.ctx.fcsr)) = some (0x42, 16) := by decide +kernel

theorem test_div_i32 : after (.div ⟨noG, 5, 6, 7, 0, 4, 0⟩) (plain (regs [(6, 0xFFFFFFFF80000000), (7, 2 ^ 64 - 1)])) (fun t => t.reg 5) =
    some 0xFFFFFFFF80000000 := by decide

theorem test_div_n32 : after (.div ⟨noG, 5, 6, 7, 0, 5, 0⟩) (plain (regs [(6, 0xFFFFFFFF80000000)])) (fun t => t.reg 5) = some 0xFFFFFFFF := by
  decide

theorem test_ext : after (.ext ⟨noG, 5, 6, 7, 0, 6, 0⟩) (plain (regs [(6, 0xF50), (7, 0x0704)])) (fun t => t.reg 5) = some 0xFFFFFFFFFFFFFFF5 ∧
    after (.ext ⟨noG, 5, 6, 7, 0, 7, 0⟩) (plain (regs [(6, 0xF50), (7, 0x0704)])) (fun t => t.reg 5) = some 0xF5 := by decide

theorem test_fcvt_rounds : after (.fcvt ⟨noG, 7, 8, 0, 10, 4, 0⟩) (plain (regs [(8, 0xC0200000)])) (fun t => (t.reg 7, t.ctx.fcsr)) =
    some (0xFFFFFFFFFFFFFFFE, 1) ∧
    after (.fcvt ⟨noG, 7, 8, 0, 10, 4, 4⟩) (plain (regs [(8, 0xC0200000)])) (fun t => t.reg 7) = some 0xFFFFFFFFFFFFFFFD := by decide +kernel

theorem test_fcvt_saturates : after (.fcvt ⟨noG, 7, 8, 0, 10, 4, 0⟩) (plain (regs [(8, 0x4F9502F9)])) (fun t => (t.reg 7, t.ctx.fcsr)) =
    some (0x7FFFFFFF, 16) := by decide +kernel

theorem test_min_zeros : after (.min ⟨noG, 5, 6, 7, 0, 10, 0⟩) (plain (regs [(6, 0x80000000)])) (fun t => t.reg 5) = some 0x80000000 := by
  decide +kernel

theorem test_max_signalling : after (.max ⟨noG, 5, 6, 7, 0, 10, 0⟩) (plain (regs [(6, 0x7FA00000), (7, 0x3F800000)])) (fun t =>
    (t.reg 5, t.ctx.fcsr)) = some (0x3F800000, 16) := by decide +kernel

theorem test_padd_keeps_tag : after (.paddI ⟨noG, 5, 5, 48⟩) (plain (regs [(5, 0xC180000000012000)])) (fun t => t.reg 5) =
    some 0xC180000000012030 := by decide

theorem test_mshape : after (.mshape ⟨noG, 0, 0, 0, 0, 5, 0, 0⟩) (home id) (fun t => t.reg 5) = some 0x1000200002000200 := by decide +kernel

theorem test_mtile_grants : after (.mtile ⟨noG, 0, 16, 16, 16, 17, 9, 0⟩) (leased (lease []) (regs [(16, 16)])) (fun t =>
    (t.reg 17, t.ctx.mtm, t.ctx.mtn, t.ctx.mtk)) = some (16, 16, 16, 16) := by decide +kernel

/-! ### Small steps: vectors, the Firebox and engines (05; 09; 18) -/

theorem test_vadd_i8_wraps : after (.vadd ⟨vc 0, 4, 5, 6, 0, 0, 0⟩) (plain (vecs 2 [(5, 0x7F7F), (6, 0x0101)])) (fun t =>
    (lane (t.ctx.vreg 4) 8 0, lane (t.ctx.vreg 4) 8 1, lane (t.ctx.vreg 4) 8 2, t.ctx.vtagOf 4)) = some (0x80, 0x80, 0, 0) := by decide +kernel

theorem test_vadd_masked : after (.vadd ⟨{ vc 4 with ksel := 0 }, 4, 5, 6, 0, 0, 0⟩) (plain (fun x => { vecs 2 [(4, 2 ^ 32 * 9 + 8), (5, 2 ^ 32 * 7 + 7)] x with
    k := x.k.set 0 2 })) (fun t => (lane (t.ctx.vreg 4) 32 0, lane (t.ctx.vreg 4) 32 1)) = some (8, 7) := by decide +kernel

theorem test_vld_local : after (.vld ⟨vc 2, 4, 1, 0, 0, 0⟩) ({ plain (fun x => vecs 2 [] (regs [(1, 0xFFF0000000010)] x)) with
    lmem := [(localKey 0 0x12, 0x34)] }) (fun t => (lane (t.ctx.vreg 4) 16 0, lane (t.ctx.vreg 4) 16 1, t.ctx.vtagOf 4)) =
    some (0, 0x34, 0x10) := by decide +kernel

theorem test_vst_local : after (.vst ⟨vc 2, 4, 1, 0, 1, 0⟩) (plain (fun x => vecs 1 [(4, 0x5678)] (regs [(1, 0xFFF0000000010)] x))) (fun t =>
    t.lmem) = some [(localKey 0 0x12, 0x78), (localKey 0 0x13, 0x56)] := by decide +kernel

theorem test_vld_stops_at_element : after (.vlds ⟨vc 4, 4, 1, 2, 0, 0⟩) (plain (fun x => vecs 4 [] (regs [(1, 0xFFF0000000000), (2, 2)] x)))
    (fun t => (t.ctx.vstart, t.ctx.trapcause, t.ctx.trapval)) = some (1, 0x604, 0xFFF0000000002) := by decide +kernel

theorem test_viota : after (.viota ⟨vc 4, 4, 0, 0, 0, 0, 0⟩) (plain (vecs 3 [])) (fun t => (lane (t.ctx.vreg 4) 32 2, lane (t.ctx.vreg 4) 32 3)) =
    some (2, 0) := by decide +kernel

theorem test_kpush_kelse : (after (.kpush ⟨noG, 0, 2, 0, 0, 0, 0⟩) (plain (fun x => { x with k := (x.k.set 0 6).set 2 3 })) id).bind (fun s =>
    after (.kelse ⟨noG, 0, 0, 0, 0, 0, 0⟩) s (fun t => (s.ctx.mask 0, t.ctx.mask 0))) = some (2, 4) := by decide +kernel

theorem test_mma_adds_products : after (.fireboxCommandRun 0) (running { lease [⟨0x100, 0xE700000000000240, 0, 0, 0, 1, 1, 2⟩] with
      tiles := [(0, 0x3F800000)], stageA := some ⟨0, 0, 9, 1, 2, [[0x3F80, 0x4000]]⟩, stageB := some ⟨0, 0, 9, 2, 1, [[0x3F80], [0x3F80]]⟩ })
    (fun t => (t.dieAt 0).firebox.leases.map (fun l => (tileElement l 0 0 0, l.queue.length))) = some [(0x40800000, 0)] := by decide +kernel

theorem test_copy_local : after (.cpy (command lw (lw + 0x100) 8 0 0 0)) (engines [(0, 8, 0x1122)]) (fun t => readN t.lmem (localKey 1 0x100) 8) =
    some 0x1122 := by decide +kernel

theorem test_rast_fills : after (.rast (command lw 1 (lw + 64) (5 + 2 * 2 ^ 8) 0 0))
    (ringed 0 (engines [(16, 4, 0x40000000), (36, 4, 0x40000000), (64, 8, 15 * 2 ^ 48 + 15 * 2 ^ 32)])) (fun t =>
    ((ringOn t 2 5).filled, readN t.lmem (localKey 2 0x8000) 8)) = some (1, 0x0000001300000000) := by decide +kernel

theorem test_ring_tail_write : after (.ringTailWrite 3 7) State.reset (fun t => (t.rings[3].tail, t.rings[3].err)) = some (7, false) := by
  decide +kernel

theorem test_ring_tail_too_far : after (.ringTailWrite 3 17) State.reset (fun t => (t.rings[3].tail, t.rings[3].errtail, t.rings[3].ecode)) =
    some (0, 17, 1) := by decide +kernel

end Sys2Proof.Tests
end

/-! The L2s and the Flue: what write-backs reach, what packets bring, and which packet takes a link
(01 R16 to R18; 06 R129; 07 R146, R154). -/
namespace Sys2Proof.Machine
open Sys2Proof Sys2Proof.Claims

/-! ### What write-backs reach -/

/-- From `s` to `t` only write-backs have happened: they reach memory, the Flue and the dies, but no register of a die. -/
def State.onlyWriteBacks (s t : State) : Prop :=
  t = { s with dies := t.dies, mem := t.mem, rewritten := t.rewritten, flue := t.flue } ∧
    ∀ d, (t.dieAt d).fw = (s.dieAt d).fw

theorem State.onlyWriteBacks_refl (s : State) : s.onlyWriteBacks s := ⟨rfl, fun _ => rfl⟩

theorem State.onlyWriteBacks_trans {s t u : State} (a : s.onlyWriteBacks t) (b : t.onlyWriteBacks u) : s.onlyWriteBacks u := by
  refine ⟨?_, fun d => (b.2 d).trans (a.2 d)⟩
  rw [b.1, a.1]

/-- A fold of steps that are write-backs is one. -/
theorem State.onlyWriteBacks_foldl {α : Type} {f : State → α → State} (h : ∀ (s : State) x, s.onlyWriteBacks (f s x)) (l : List α) (s : State) :
    s.onlyWriteBacks (l.foldl f s) := by
  induction l generalizing s with
  | nil => exact s.onlyWriteBacks_refl
  | cons x l ih => exact State.onlyWriteBacks_trans (h s x) (ih _)

theorem State.onlyWriteBacks_modDie (s : State) (d : DieId) (f : Die → Die) (h : ∀ x, (f x).fw = x.fw) :
    s.onlyWriteBacks (s.modDie d f) := by
  refine ⟨rfl, fun e => ?_⟩
  rw [State.dieAt_modDie]
  split
  · rename_i he; rw [h, he]
  · rfl

theorem State.onlyWriteBacks_physMasked (s : State) (pa n mask v : Nat) : s.onlyWriteBacks (s.physMasked pa n mask v) :=
  ⟨rfl, fun _ => rfl⟩

@[simp] theorem Die.fw_putLine (d : Die) (ln : L2Line) : (d.putLine ln).fw = d.fw := by
  unfold Die.putLine
  split <;> rfl

theorem State.onlyWriteBacks_deliver (s : State) (p : Packet) : s.onlyWriteBacks (s.deliver p) := by
  unfold State.deliver
  exact s.onlyWriteBacks_physMasked _ _ _ _

theorem State.onlyWriteBacks_flue (s : State) (ps : List Packet) : s.onlyWriteBacks { s with flue := ps } := ⟨rfl, fun _ => rfl⟩

theorem State.onlyWriteBacks_drainFlue (s : State) (d : DieId) : s.onlyWriteBacks (s.drainFlue d) := by
  unfold State.drainFlue
  exact State.onlyWriteBacks_trans (State.onlyWriteBacks_foldl (fun t p => t.onlyWriteBacks_deliver p) _ s)
    (State.onlyWriteBacks_flue _ _)

/-- The flits of a line change nothing but what stands against allowances at its die. -/
theorem State.chargeLine_eq (s : State) (d : DieId) (ln : L2Line) :
    ∃ injected, s.chargeLine d ln = s.modDie d (fun x => { x with injected := injected }) := by
  have hs : s = s.modDie d (fun x => { x with injected := (s.dieAt d).injected }) :=
    congrArg (fun v => { s with dies := v }) (Vector.set_getElem_self d.isLt).symm
  unfold State.chargeLine State.charge
  split
  · split
    · exact ⟨_, rfl⟩
    · exact ⟨_, hs⟩
  · exact ⟨_, hs⟩

theorem State.onlyWriteBacks_chargeLine (s : State) (d : DieId) (ln : L2Line) : s.onlyWriteBacks (s.chargeLine d ln) := by
  obtain ⟨i, h⟩ := s.chargeLine_eq d ln
  rw [h]
  exact s.onlyWriteBacks_modDie d _ fun _ => rfl

theorem State.onlyWriteBacks_writeBack (s : State) (d : DieId) (ln : L2Line) : s.onlyWriteBacks (s.writeBack d ln) := by
  unfold State.writeBack
  split
  · exact s.onlyWriteBacks_refl
  · refine State.onlyWriteBacks_trans (State.onlyWriteBacks_trans (State.onlyWriteBacks_trans (s.onlyWriteBacks_drainFlue d)
      (State.onlyWriteBacks_chargeLine _ d ln)) (State.onlyWriteBacks_physMasked _ ln.pa ln.size ln.dirty ln.data)) ?_
    exact State.onlyWriteBacks_modDie _ d _ fun x => x.fw_putLine _

theorem State.onlyWriteBacks_writeBackAll (s : State) (d : DieId) : s.onlyWriteBacks (s.writeBackAll d) :=
  State.onlyWriteBacks_trans (s.onlyWriteBacks_drainFlue d) (State.onlyWriteBacks_foldl (fun t ln => t.onlyWriteBacks_writeBack d ln) _ _)

/-! ### The bytes that packets and write-backs bring -/

theorem writeMasked_mask_zero (m : List Host.Cell) (a n v : Nat) : writeMasked m a n 0 v = m := by
  induction n generalizing a v with
  | zero => rfl
  | succ n ih => exact ih _ _

/-- A packet without bytes changes nothing, so it need not be sent. -/
theorem writeMasked_of_nonzero (m : List Host.Cell) (a n mask v : Nat) :
    (if (mask != 0) = true then writeMasked m a n mask v else m) = writeMasked m a n mask v := by
  by_cases h : mask = 0
  · simp [h, writeMasked_mask_zero]
  · simp [h]

/-- Memory after a packet has brought its bytes. -/
@[irreducible] def Packet.mergeInto (p : Packet) (m : List Host.Cell) : List Host.Cell := writeMasked m p.pa 512 p.mask p.data

theorem State.deliver_eq (s : State) (p : Packet) :
    s.deliver p = { s with mem := p.mergeInto s.mem, rewritten := (s.deliver p).rewritten } := by
  unfold State.deliver State.physMasked Packet.mergeInto
  rfl

theorem State.mem_deliver (s : State) (p : Packet) : (s.deliver p).mem = p.mergeInto s.mem := by rw [State.deliver_eq]

theorem State.mem_foldl_deliver (ps : List Packet) (s : State) : (ps.foldl State.deliver s).mem = ps.foldl (fun m p => p.mergeInto m) s.mem := by
  induction ps generalizing s with
  | nil => rfl
  | cons p ps ih => rw [List.foldl_cons, ih, State.mem_deliver, List.foldl_cons]

theorem State.mem_drainFlue (s : State) (d : DieId) :
    (s.drainFlue d).mem = (s.flue.filter (fun p => p.src == d)).foldl (fun m p => p.mergeInto m) s.mem := State.mem_foldl_deliver _ s

theorem Packet.memoryWf_mergeInto (p : Packet) {m : List Host.Cell} (h : memoryWf m = true) : memoryWf (p.mergeInto m) = true := by
  unfold Packet.mergeInto
  exact memoryWf_writeMasked _ _ _ _ h

theorem memoryWf_foldl_mergeInto (ps : List Packet) {m : List Host.Cell} (h : memoryWf m = true) :
    memoryWf (ps.foldl (fun m p => p.mergeInto m) m) = true := by
  induction ps generalizing m with
  | nil => exact h
  | cons p ps ih =>
    rw [List.foldl_cons]
    exact ih (p.memoryWf_mergeInto h)

theorem State.memoryWf_drainFlue {s : State} (d : DieId) (h : memoryWf s.mem = true) : memoryWf (s.drainFlue d).mem = true := by
  rw [State.mem_drainFlue]
  exact memoryWf_foldl_mergeInto _ h

theorem lt_two_pow_mono {x k n : Nat} (h : x < 2 ^ k) (hk : k ≤ n) : x < 2 ^ n :=
  Nat.lt_of_lt_of_le h (Nat.pow_le_pow_right (by decide) hk)

/-- A set bit of a mask within its grain lies there. -/
theorem lt_of_mask_bit {mask n j : Nat} (h : mask < 2 ^ n) (b : mask.testBit j = true) : j < n := by
  by_contra g
  rw [Nat.testBit_lt_two_pow (lt_two_pow_mono h (Nat.le_of_not_lt g))] at b
  exact absurd b (by decide)

/-- Where a mask lies within the bytes written, it alone says which are. -/
theorem readByte_writeMasked_within {m : List Host.Cell} (a n mask v x : Nat) (h : memoryWf m = true) (hd : mask < 2 ^ n) :
    readByte (writeMasked m a n mask v) x =
      if a ≤ x ∧ mask.testBit (x - a) = true then BitVec.ofNat 8 (v / 256 ^ (x - a)) else readByte m x := by
  rw [readByte_writeMasked _ _ _ _ _ h]
  refine if_congr ⟨fun ⟨ha, _, hb⟩ => ⟨ha, hb⟩, fun ⟨ha, hb⟩ => ⟨ha, ?_, hb⟩⟩ rfl rfl
  have := lt_of_mask_bit hd hb
  omega

/-- What a packet brings. -/
theorem Packet.readByte_mergeInto (p : Packet) {m : List Host.Cell} (h : memoryWf m = true) (hd : p.mask < 2 ^ 512) (x : Nat) :
    readByte (p.mergeInto m) x =
      if p.pa ≤ x ∧ p.mask.testBit (x - p.pa) = true then BitVec.ofNat 8 (p.data / 256 ^ (x - p.pa)) else readByte m x := by
  unfold Packet.mergeInto
  exact readByte_writeMasked_within _ _ _ _ x h hd

/-- Byte `j` of a number is byte `j - k` of what is above its first `k` bytes. -/
theorem shifted_byte (v : Nat) {k j : Nat} (h : k ≤ j) : v >>> (8 * k) / 256 ^ (j - k) = v / 256 ^ j := by
  rw [Nat.shiftRight_eq_div_pow, Nat.pow_mul, Nat.div_div_eq_div_mul, ← Nat.pow_add, Nat.add_sub_cancel' h]

/-- Two writes, of the bytes below and from `k` on, bring what one write of all brings. -/
theorem readByte_writeMasked_halves {m : List Host.Cell} (a n k mask v x : Nat) (h : memoryWf m = true) (hd : mask < 2 ^ n)
    (hk : k ≤ n) (hn : n ≤ k + k) :
    readByte (writeMasked (writeMasked m a n (mask % 2 ^ k) v) (a + k) n (mask / 2 ^ k % 2 ^ k) (v >>> (8 * k))) x =
      if a ≤ x ∧ mask.testBit (x - a) = true then BitVec.ofNat 8 (v / 256 ^ (x - a)) else readByte m x := by
  have hlow : ∀ y : Nat, y % 2 ^ k < 2 ^ n := fun y => lt_two_pow_mono (Nat.mod_lt _ (Nat.two_pow_pos k)) hk
  rw [readByte_writeMasked_within _ _ _ _ _ (memoryWf_writeMasked _ _ _ _ h) (hlow _),
    readByte_writeMasked_within _ _ _ _ _ h (hlow _)]
  simp only [Nat.testBit_mod_two_pow, Nat.testBit_div_two_pow, Bool.and_eq_true, decide_eq_true_eq]
  by_cases hx : a + k ≤ x
  · have hj : x - (a + k) = x - a - k := by omega
    rw [hj, shifted_byte v (by omega), Nat.sub_add_cancel (by omega)]
    by_cases hb : mask.testBit (x - a) = true
    · have := lt_of_mask_bit hd hb
      rw [if_pos ⟨hx, by omega, hb⟩, if_pos ⟨by omega, hb⟩]
    · simp [hb]
  · rw [if_neg fun g => hx g.1]
    refine if_congr ⟨fun ⟨ha, _, hb⟩ => ⟨ha, hb⟩, fun ⟨ha, hb⟩ => ⟨ha, by omega, hb⟩⟩ rfl rfl

/-! ### Sending a line (01 R16; 07 R146) -/

/-- The packet of the masked bytes of a line from a byte of it on. -/
def L2Line.packet (ln : L2Line) (d h : DieId) (cycle : Nat) (part : Nat × Nat) : Packet :=
  ⟨d, (ln.writers.head?.map (fun p => p.1)).getD (localCore d 0 0), h, 0, 0, d, cycle, ln.pa + part.1, part.2,
    ln.data >>> (8 * part.1), ln.writers⟩

/-- The packets of a line's dirty bytes, as its die sends them to the home in a cycle. -/
def L2Line.packets (ln : L2Line) (d h : DieId) (cycle : Nat) : List Packet :=
  ([(0, ln.dirty % 2 ^ 256), (256, ln.dirty / 2 ^ 256 % 2 ^ 256)].filter (fun p => p.2 != 0)).map (ln.packet d h cycle)

/-- A line whose dirty bytes have gone. -/
def L2Line.cleaned (ln : L2Line) : L2Line := { ln with valid := ln.valid ||| ln.dirty, dirty := 0, writers := [] }

theorem State.foldl_schedule {α : Type} (e : Turn) (l : List α) (s : State) :
    l.foldl (fun t _ => t.schedule e) s = { s with agenda := s.agenda ++ l.map (fun _ => e) } := by
  induction l generalizing s with
  | nil => simp
  | cons x l ih => rw [List.foldl_cons, ih]; simp [State.schedule]

/-- What sending a line does. -/
theorem State.inject_eq (s : State) (d h : DieId) (ln : L2Line) :
    s.inject d h ln = ({ s with
      flue := s.flue ++ ln.packets d h s.cycle
      agenda := s.agenda ++ (ln.packets d h s.cycle).map (fun _ => Turn.event (.fluePacketArrival 0)) }).modDie d (fun x =>
        x.putLine ln.cleaned) := by
  unfold State.inject
  dsimp only
  rw [State.foldl_schedule]
  rfl

theorem State.mem_inject (s : State) (d h : DieId) (ln : L2Line) : (s.inject d h ln).mem = s.mem := by rw [State.inject_eq]; rfl

theorem State.lmem_inject (s : State) (d h : DieId) (ln : L2Line) : (s.inject d h ln).lmem = s.lmem := by rw [State.inject_eq]; rfl

theorem State.cores_inject (s : State) (d h : DieId) (ln : L2Line) : (s.inject d h ln).cores = s.cores := by
  rw [State.inject_eq]; rfl

theorem State.flue_inject (s : State) (d h : DieId) (ln : L2Line) :
    (s.inject d h ln).flue = s.flue ++ ln.packets d h s.cycle := by rw [State.inject_eq]; rfl

theorem State.dieAt_inject (s : State) (d h e : DieId) (ln : L2Line) :
    (s.inject d h ln).dieAt e = if e = d then (s.dieAt d).putLine ln.cleaned else s.dieAt e := by
  rw [State.inject_eq, State.dieAt_modDie]; rfl

theorem L2Line.packets_length (ln : L2Line) (d h : DieId) (cycle : Nat) : (ln.packets d h cycle).length ≤ 2 := by
  unfold L2Line.packets
  rw [List.length_map]
  exact List.length_filter_le _ _

theorem L2Line.packets_fields {ln : L2Line} {d h : DieId} {cycle : Nat} {p : Packet} (hp : p ∈ ln.packets d h cycle) :
    p.src = d ∧ p.at_ = d ∧ p.dst = h ∧ p.age = 0 ∧ p.since = cycle := by
  obtain ⟨q, -, rfl⟩ := List.mem_map.1 hp
  exact ⟨rfl, rfl, rfl, rfl, rfl⟩

theorem L2Line.mergeInto_packet (ln : L2Line) (d h : DieId) (cycle : Nat) (part : Nat × Nat) (m : List Host.Cell) :
    (ln.packet d h cycle part).mergeInto m = writeMasked m (ln.pa + part.1) 512 part.2 (ln.data >>> (8 * part.1)) := by
  unfold Packet.mergeInto L2Line.packet
  rfl

/-- A part without dirty bytes need not be sent. -/
theorem L2Line.mergeInto_packet_of_nonzero (ln : L2Line) (d h : DieId) (cycle : Nat) (part : Nat × Nat) (m : List Host.Cell) :
    (if (part.2 != 0) = true then (ln.packet d h cycle part).mergeInto m else m) = (ln.packet d h cycle part).mergeInto m := by
  rw [L2Line.mergeInto_packet]
  exact writeMasked_of_nonzero m _ _ _ _

theorem L2Line.foldl_packets (ln : L2Line) (d h : DieId) (cycle : Nat) (m : List Host.Cell) :
    (ln.packets d h cycle).foldl (fun m p => p.mergeInto m) m =
      writeMasked (writeMasked m ln.pa 512 (ln.dirty % 2 ^ 256) ln.data) (ln.pa + 256) 512 (ln.dirty / 2 ^ 256 % 2 ^ 256)
        (ln.data >>> (8 * 256)) := by
  rw [L2Line.packets, List.foldl_map, List.foldl_filter]
  simp only [L2Line.mergeInto_packet_of_nonzero]
  rw [List.foldl_cons, List.foldl_cons, List.foldl_nil, L2Line.mergeInto_packet, L2Line.mergeInto_packet, Nat.add_zero,
    Nat.mul_zero, Nat.shiftRight_zero]

/-- The packets of a line bring its dirty bytes. -/
theorem L2Line.merged_packets {m : List Host.Cell} (ln : L2Line) (d h : DieId) (cycle : Nat) (hm : memoryWf m = true)
    (hd : ln.dirty < 2 ^ 512) : merged m ((ln.packets d h cycle).foldl (fun m p => p.mergeInto m) m) ln := by
  intro x
  rw [L2Line.foldl_packets]
  exact readByte_writeMasked_halves ln.pa 512 256 ln.dirty ln.data x hm hd (by decide) (by decide)

/-- A line that replaces one of its grain is listed, and other grains' lines are as before. -/
theorem Die.mem_putLine {x : Die} {ln old : L2Line} (h : old ∈ x.l2) (hv : old.va = ln.va) :
    ln ∈ (x.putLine ln).l2 ∧ ∀ o : L2Line, o.va ≠ ln.va → (o ∈ (x.putLine ln).l2 ↔ o ∈ x.l2) := by
  have hl : (x.putLine ln).l2 = x.l2.map (fun o => if o.va == ln.va then ln else o) := by
    unfold Die.putLine
    rw [if_pos (List.any_eq_true.2 ⟨old, h, by simp [hv]⟩)]
  rw [hl]
  refine ⟨List.mem_map.2 ⟨old, h, by simp [hv]⟩, fun o ho => ⟨fun hm => ?_, fun hm => List.mem_map.2 ⟨o, hm, by simp [ho]⟩⟩⟩
  obtain ⟨q, hq, e⟩ := List.mem_map.1 hm
  by_cases g : q.va = ln.va
  · rw [if_pos (by simp [g])] at e
    exact absurd (by rw [← e]) ho
  · rw [if_neg (by simp [g])] at e
    rwa [← e]

theorem State.l2_chargeLine (s : State) (d e : DieId) (ln : L2Line) : ((s.chargeLine d ln).dieAt e).l2 = (s.dieAt e).l2 := by
  obtain ⟨i, h⟩ := s.chargeLine_eq d ln
  rw [h, State.dieAt_modDie]
  split
  · rename_i he; rw [he]
  · rfl

/-- Sending a line leaves it clean in its L2. -/
theorem State.lineCleaned_inject {s : State} {d : DieId} {ln : L2Line} (h : DieId) (hm : ln ∈ (s.dieAt d).l2) :
    lineCleaned s (s.inject d h ln) d ln := by
  have hput := Die.mem_putLine (ln := ln.cleaned) hm rfl
  unfold lineCleaned
  rw [State.dieAt_inject, if_pos rfl]
  exact ⟨hput.1, hput.2, fun e he => by rw [State.dieAt_inject, if_neg he]⟩

/-- L2_DIRTY_WRITEBACK of a dirty non-home copy whose home is a die. -/
theorem dirtyWriteback_sends {s : State} {d h : DieId} {va : Nat} {ln : L2Line} (hl : (s.dieAt d).line va = some ln)
    (hs : lineSound s d ln) (hh : ln.home = false) (hd : ln.dirty ≠ 0) (ho : s.homeOf ln.pa = some h) :
    ∃ t ps, exec (.l2DirtyWriteback d va) s = .next t ∧ t.mem = s.mem ∧ t.lmem = s.lmem ∧ t.cores = s.cores ∧
      lineCleaned s t d ln ∧ merged (s.drainFlue d).mem (t.drainFlue d).mem ln ∧
      t.flue = s.flue ++ ps ∧ ps.length ≤ 2 ∧ ∀ p ∈ ps, p.src = d ∧ p.at_ = d ∧ p.dst = h ∧ p.age = 0 ∧ p.since = s.cycle := by
  obtain ⟨hmem, hsize, hmask, hwf⟩ := hs
  have hmask : ln.dirty < 2 ^ 512 := lt_two_pow_mono hmask hsize
  have hcharge := (s.onlyWriteBacks_chargeLine d ln).1
  obtain ⟨charged, hc⟩ := s.chargeLine_eq d ln
  have hflue : ((s.chargeLine d ln).inject d h ln).flue = s.flue ++ ln.packets d h s.cycle := by
    rw [State.flue_inject, hc]; rfl
  have hmem' : ((s.chargeLine d ln).inject d h ln).mem = s.mem := by rw [State.mem_inject, hc]; rfl
  refine ⟨(s.chargeLine d ln).inject d h ln, ln.packets d h s.cycle, ?_, hmem', ?_, ?_, ?_, ?_, hflue,
    ln.packets_length d h s.cycle, fun p hp => L2Line.packets_fields hp⟩
  · change execL2DirtyWriteback d va s = _
    unfold execL2DirtyWriteback
    simp [hl, hh, hd, ho]
  · rw [State.lmem_inject, hcharge]
  · rw [State.cores_inject, hcharge]
  · have := State.lineCleaned_inject (s := s.chargeLine d ln) h (by rwa [State.l2_chargeLine])
    unfold lineCleaned at this ⊢
    simpa only [State.l2_chargeLine] using this
  · have hall : (ln.packets d h s.cycle).filter (fun p => p.src == d) = ln.packets d h s.cycle :=
      List.filter_eq_self.2 fun p hp => by simp [(L2Line.packets_fields hp).1]
    rw [State.mem_drainFlue, State.mem_drainFlue, hmem', hflue, List.filter_append, List.foldl_append, hall]
    exact ln.merged_packets d h s.cycle (memoryWf_foldl_mergeInto _ hwf) hmask

/-! ### Evictions (07 R146, R154) -/

theorem State.writeBack_clean (s : State) (d : DieId) {ln : L2Line} (h : ln.dirty = 0) : s.writeBack d ln = s := by
  unfold State.writeBack
  simp [h]

theorem State.merged_writeBack {s : State} {d : DieId} {ln : L2Line} (hm : memoryWf s.mem = true) (hs : ln.dirty < 2 ^ ln.size)
    (hd : ln.dirty ≠ 0) : merged (s.drainFlue d).mem (s.writeBack d ln).mem ln := by
  have : (s.writeBack d ln).mem = writeMasked ((s.drainFlue d).chargeLine d ln).mem ln.pa ln.size ln.dirty ln.data := by
    unfold State.writeBack
    rw [if_neg (by simpa using hd)]
    rfl
  obtain ⟨i, hc⟩ := (s.drainFlue d).chargeLine_eq d ln
  rw [this, hc]
  exact fun x => readByte_writeMasked_within _ _ _ _ x (State.memoryWf_drainFlue d hm) hs

theorem State.onlyWriteBacks_retireMarker (s : State) (d : DieId) (va : Nat) : s.onlyWriteBacks (s.retireMarker d va) := by
  unfold State.retireMarker
  split
  · exact s.onlyWriteBacks_refl
  · exact State.onlyWriteBacks_trans (s.onlyWriteBacks_writeBackAll _) (State.onlyWriteBacks_modDie _ _ _ fun _ => rfl)

/-- No marker of a grain is left. -/
theorem State.retireMarker_markers (s : State) (d : DieId) (va : Nat) :
    ∀ m ∈ ((s.retireMarker d va).dieAt d).markers, m.grain ≠ va := by
  unfold State.retireMarker
  split
  · rename_i h
    intro m hm
    simpa using List.find?_eq_none.1 h m hm
  · rw [State.dieAt_modDie_self]
    intro m hm
    simpa using (List.mem_filter.1 hm).2

/-- L2_EVICTION of a line. -/
theorem eviction_drops {s : State} {d : DieId} {va : Nat} {ln : L2Line} (hl : (s.dieAt d).line va = some ln)
    (hs : lineSound s d ln) :
    ∃ t, exec (.l2Eviction d va) s = .next t ∧ t.lmem = s.lmem ∧ t.cores = s.cores ∧
      (∀ o : L2Line, o ∈ (t.dieAt d).l2 → o.va ≠ ln.va) ∧
      (ln.home = false → ln.dirty = 0 → t.mem = s.mem ∧ t.flue = s.flue) ∧
      (ln.home = false → ln.dirty ≠ 0 → merged (s.drainFlue d).mem t.mem ln) ∧
      (ln.home = true → ∀ m ∈ (t.dieAt d).markers, m.grain ≠ ln.va) := by
  obtain ⟨-, -, hmask, hwf⟩ := hs
  have hdrop : ∀ t : State, ∀ o : L2Line, o ∈ ((t.modDie d (fun x => x.dropLine ln.va)).dieAt d).l2 → o.va ≠ ln.va := by
    intro t o ho
    rw [State.dieAt_modDie_self] at ho
    simpa using (List.mem_filter.1 ho).2
  cases hh : ln.home with
  | true =>
    have hback := (s.onlyWriteBacks_retireMarker d ln.va).1
    refine ⟨(s.retireMarker d ln.va).modDie d (fun x => x.dropLine ln.va), ?_, ?_, ?_, hdrop _, by simp, by simp, fun _ => ?_⟩
    · change execL2Eviction d va s = _
      simp [execL2Eviction, hl, hh]
    · rw [hback]; rfl
    · rw [hback]; rfl
    · rw [State.dieAt_modDie_self]
      exact s.retireMarker_markers d ln.va
  | false =>
    have hback := (s.onlyWriteBacks_writeBack d ln).1
    refine ⟨(s.writeBack d ln).modDie d (fun x => x.dropLine ln.va), ?_, ?_, ?_, hdrop _, fun _ hd => ?_,
      fun _ hd => State.merged_writeBack hwf hmask hd, by simp⟩
    · change execL2Eviction d va s = _
      simp [execL2Eviction, hl, hh]
    · rw [hback]; rfl
    · rw [hback]; rfl
    · rw [s.writeBack_clean d hd]
      exact ⟨rfl, rfl⟩

/-! ### Packets that wait (01 R16, R17) -/

/-- FLUE_PACKET_AGING. -/
theorem packetAging_ages (n : Nat) (s : State) :
    ∃ t, exec (.fluePacketAging n) s = .next t ∧ t = { s with flue := t.flue } ∧ t.flue.length = s.flue.length ∧
      ∀ k, t.flue[k]? = if k = n then s.flue[k]?.map (fun p =>
          if p.since + 256 ≤ s.cycle then { p with age := min (p.age + 1) 1023, since := p.since + 256 } else p)
        else s.flue[k]? := by
  change ∃ t, execFluePacketAging n s = .next t ∧ _
  unfold execFluePacketAging
  cases hp : s.flue[n]? with
  | none =>
    refine ⟨s, rfl, rfl, rfl, fun k => ?_⟩
    split
    · rename_i e; subst e; simp [hp]
    · rfl
  | some p =>
    by_cases hage : p.since + 256 ≤ s.cycle
    · refine ⟨{ s with flue := s.flue.set n { p with age := min (p.age + 1) 1023, since := p.since + 256 } }, by simp [hage], rfl,
        List.length_set, fun k => ?_⟩
      rw [List.getElem?_set]
      by_cases e : k = n
      · subst e
        rw [if_pos rfl, if_pos (List.getElem?_eq_some_iff.1 hp).1, if_pos rfl, hp, Option.map_some, if_pos hage]
      · rw [if_neg (Ne.symm e), if_neg e]
    · refine ⟨s, by simp [hage], rfl, rfl, fun k => ?_⟩
      split
      · rename_i e; subst e; simp [hp, hage]
      · rfl

/-- The model's comparison is the rule's order of packets (01 R17). -/
theorem olderPacket_iff (code cycle : Nat) (a b : Packet) : olderPacket code cycle a b = true ↔ winsOver code cycle a b := by
  unfold olderPacket winsOver
  have hnow : ∀ p : Packet, p.ageAt cycle = ageNow cycle p := fun _ => rfl
  rw [hnow, hnow]
  generalize ageNow cycle a = x, ageNow cycle b = y
  by_cases hage : x = y
  · by_cases hsrc : a.src = b.src
    · simp [hage, hsrc]
    · simp [hage, hsrc]
  · simp [hage]

theorem winner_mem {code cycle : Nat} {ps : List Packet} {q : Packet} (h : winner code cycle ps = some q) : q ∈ ps := by
  induction ps generalizing q with
  | nil => simp [winner] at h
  | cons p ps ih =>
    unfold winner at h
    split at h
    · rename_i o ho
      rw [Option.some.injEq] at h
      split at h
      · exact h ▸ List.mem_cons_of_mem _ (ih ho)
      · exact h ▸ List.mem_cons_self
    · rw [Option.some.injEq] at h
      exact h ▸ List.mem_cons_self

/-- A packet that wins against all before it, and that none after it wins against, is the winner. -/
theorem winner_eq {code cycle : Nat} {before after : List Packet} {p : Packet} (hb : ∀ o ∈ before, winsOver code cycle p o)
    (ha : ∀ o ∈ after, ¬ winsOver code cycle o p) : winner code cycle (before ++ p :: after) = some p := by
  induction before with
  | nil =>
    rw [List.nil_append, winner]
    split
    · rename_i q hq
      rw [if_neg]
      rw [olderPacket_iff]
      exact ha q (winner_mem hq)
    · rfl
  | cons o before ih =>
    rw [List.cons_append, winner, ih fun x hx => hb x (List.mem_cons_of_mem _ hx)]
    simp only [(olderPacket_iff code cycle p o).2 (hb o List.mem_cons_self), if_true]

/-- The packets that contend are those that the rule names. -/
theorem State.contenders_eq (s : State) (r : Packet) : s.contenders r = s.flue.filter (fun q => decide (contends s r q)) := by
  unfold State.contenders
  refine List.filter_congr fun q _ => ?_
  rw [Bool.eq_iff_iff]
  simp [Packet.sameChannel, and_assoc]

/-- FLUE_PACKET_ARRIVAL where packet `p` wins. -/
theorem packetArrival_takes {n : Nat} {s : State} {r p : Packet} {before after : List Packet} (hr : s.flue[n]? = some r)
    (hf : s.flue = before ++ p :: after) (hp : p ∉ before) (hc : contends s r p)
    (hb : ∀ o ∈ before, contends s r o → winsOver s.bregs.vdmap s.cycle p o)
    (ha : ∀ o ∈ after, contends s r o → ¬ winsOver s.bregs.vdmap s.cycle o p) :
    let next := s.nextHop p.at_ p.dst
    ∃ t, exec (.fluePacketArrival n) s = .next t ∧
      (next ≠ p.dst → t = { s with
        flue := before ++ { p with age := min (ageNow s.cycle p + 1) 1023, at_ := next, since := s.cycle } :: after
        agenda := s.agenda ++ [.event (.fluePacketArrival n)] }) ∧
      (next = p.dst → t = { s with mem := t.mem, rewritten := t.rewritten, flue := before ++ after } ∧
        (memoryWf s.mem = true → p.mask < 2 ^ 512 → ∀ x, readByte t.mem x =
          if p.pa ≤ x ∧ p.mask.testBit (x - p.pa) = true then BitVec.ofNat 8 (p.data / 256 ^ (x - p.pa))
          else readByte s.mem x)) := by
  intro next
  have hwin : winner s.bregs.vdmap s.cycle (s.contenders r) = some p := by
    have hsplit : ∀ f : Packet → Bool, f p = true → s.flue.filter f = before.filter f ++ p :: after.filter f := fun f h => by
      rw [hf, List.filter_append, List.filter_cons_of_pos h]
    rw [State.contenders_eq, hsplit _ (decide_eq_true hc)]
    refine winner_eq (fun o ho => ?_) fun o ho => ?_
    · obtain ⟨hm, ho⟩ := List.mem_filter.1 ho
      exact hb o hm (of_decide_eq_true ho)
    · obtain ⟨hm, ho⟩ := List.mem_filter.1 ho
      exact ha o hm (of_decide_eq_true ho)
  change ∃ t, execFluePacketArrival n s = .next t ∧ _
  unfold execFluePacketArrival
  rw [hr]
  simp only [hwin]
  by_cases hn : next = p.dst
  · refine ⟨{ s with mem := p.mergeInto s.mem, rewritten := (s.deliver p).rewritten, flue := before ++ after }, ?_,
      fun h => absurd hn h, fun _ => ⟨rfl, fun hm hmask => p.readByte_mergeInto hm hmask⟩⟩
    rw [if_pos (by simpa using hn), hf, List.erase_append_right _ hp,
      List.erase_cons_head, State.deliver_eq]
  · refine ⟨_, ?_, fun _ => rfl, fun h => absurd h hn⟩
    rw [if_neg (by simpa using hn), hf, List.replace_append_right hp, List.replace_cons_self]
    rfl

/-! ### Injection windows (01 R18) -/

/-- FLUE_INJECTION_WINDOW. -/
theorem injectionWindow_takes_allowance (s : State) :
    ∃ t, exec .flueInjectionWindow s = .next t ∧ t = { s with dies := t.dies } ∧
      ∀ d, t.dieAt d = { s.dieAt d with injected := (s.dieAt d).injected.filterMap (fun e =>
        (s.injectLimit d e.1).bind (fun allowed => if allowed < e.2 then some (e.1, e.2 - allowed) else none)) } := by
  refine ⟨_, rfl, rfl, fun d => ?_⟩
  simp only [State.dieAt, Fin.getElem_fin, Vector.getElem_ofFn, Fin.eta]
  congr 2
  funext e
  cases s.injectLimit d e.1 with
  | none => rfl
  | some allowed =>
    by_cases h : allowed < e.2
    · simp [h]
    · simp [h, Nat.le_of_not_lt h]

/-- Settles O49: the packets of a line bring its dirty bytes half by half, and the winner of an arbitration is the packet
that no other contender beats. -/
theorem cachesAndFlue : Obligations.CachesAndFlue := by
  unfold Obligations.CachesAndFlue
  exact ⟨fun _ _ _ _ _ hl hs hh hd ho => dirtyWriteback_sends hl hs hh hd ho, fun _ _ _ _ hl hs => eviction_drops hl hs,
    fun n s => ⟨packetAging_ages n s, fun _ _ _ _ hr hf hp hc hb ha => packetArrival_takes hr hf hp hc hb ha⟩,
    injectionWindow_takes_allowance⟩

end Sys2Proof.Machine

/-! Writes of registers: the host's rings, the firmware and Bellows blocks, and the map of virtual dies
(01 R9, R10; 06 R133; 12 R269, R271, R278; 14 R310, R313, R319). -/
namespace Sys2Proof.Machine
open Sys2Proof Sys2Proof.Claims

/-! ### Fields of a written value -/

theorem inPlace_eq_keptBits (v : Nat) {hi lo : Nat} (h : lo ≤ hi + 1) : inPlace v hi lo = keptBits v hi lo := by
  have hpow : 2 ^ (hi + 1) = 2 ^ lo * 2 ^ (hi + 1 - lo) := by rw [← Nat.pow_add, Nat.add_sub_cancel' h]
  rw [inPlace, keptBits, Nat.shiftLeft_eq, Nat.shiftRight_eq_div_pow, hpow, Nat.mod_mul_right_div_self]

theorem keptBits_lt (v hi lo : Nat) : keptBits v hi lo < 2 ^ (hi + 1) :=
  Nat.lt_of_le_of_lt (Nat.div_mul_le_self _ _) (Nat.mod_lt _ (Nat.two_pow_pos _))

/-- The top bit of a register, in place. -/
theorem bit01_top (v : Nat) : bit01 (v / 2 ^ 63 % 2 == 1) * 2 ^ 63 = keptBits v 63 63 := by
  have htop : keptBits v 63 63 = v / 2 ^ 63 % 2 * 2 ^ 63 := by unfold keptBits; omega
  rcases Nat.mod_two_eq_zero_or_one (v / 2 ^ 63) with h | h <;> rw [htop, h] <;> rfl

/-- A write of a whole register replaces it. -/
theorem patchWord_whole (old v : Nat) (h : v < 2 ^ 64) : patchWord old 0 8 v = v := by
  have hmask : byteMask 0 8 = 255 := by decide
  rw [patchWord, hmask]
  simp only [mergeMasked, Nat.mul_zero, Nat.shiftLeft_zero]
  simp
  omega

/-! ### Host rings (12 R269, R271) -/

theorem State.report_if (s : State) (c : Prop) [Decidable c] (n : Note) :
    (if c then s.report n else s) = { s with notes := s.notes ++ if c then [n] else [] } := by
  split
  · rfl
  · rw [List.append_nil]

theorem State.schedule_if (s : State) (c : Prop) [Decidable c] (t : Turn) :
    (if c then s.schedule t else s) = { s with agenda := s.agenda ++ if c then [t] else [] } := by
  split
  · rfl
  · rw [List.append_nil]

/-- Changing a ring changes no other; it is reported and scheduled as the rule has it. -/
theorem State.onlyHostRing_changeRing (s : State) (n : Fin 16) (f : HostRing → HostRing) :
    onlyHostRing s (s.changeRing n f) n (f s.rings[n]) := by
  unfold onlyHostRing State.changeRing
  simp only [State.report_if, State.schedule_if]
  refine ⟨trivial, ?_, ?_⟩
  · simp
  · simp [HostRing.pending, and_assoc]

theorem State.posted_changeRing (s : State) (n : Fin 16) (f : HostRing → HostRing) : (s.changeRing n f).posted = s.posted := by
  rw [(s.onlyHostRing_changeRing n f).1]

theorem ringAt_ring (n : Fin 16) {o : Nat} (h : o < 64) : Machine.ringAt (0x1000 + 64 * n.val + o) = some (n, o) := by
  have hn : (0x1000 + 64 * n.val + o - 0x1000) / 64 = n.val := by omega
  have ho : (0x1000 + 64 * n.val + o) % 64 = o := by omega
  unfold Machine.ringAt
  rw [if_pos (by simp; omega)]
  rw [hn, ho, Fin.ofNat_val_eq_self]

theorem ringAt_low {off : Nat} (h : off < 0x1000) : Machine.ringAt off = none := by
  unfold Machine.ringAt
  rw [if_neg (by simp; omega)]

/-- The registers of a ring that the host can write: TAIL and the control register. -/
theorem State.bar0Write_ring (s : State) (n : Fin 16) {o : Nat} (h : o < 64) (v : Nat) :
    s.bar0Write (0x1000 + 64 * n.val + o) v = if o = 0x18 ∨ o = 0x28 then s.writeRing n o v else s := by
  unfold State.bar0Write
  rw [ringAt_ring n h]
  simp

theorem State.posted_writeRing (s : State) (n : Fin 16) (o v : Nat) : (s.writeRing n o v).posted = s.posted := by
  unfold State.writeRing
  split
  · exact s.posted_changeRing _ _
  · split
    · exact s.posted_changeRing _ _
    · split
      · exact s.posted_changeRing _ _
      · rfl

theorem State.takePosted_nil {s : State} (fuel : Nat) (h : s.posted = []) : State.takePosted fuel s = s := by
  cases fuel with
  | zero => rfl
  | succ fuel => simp only [State.takePosted, h]

/-- A write of a register on an empty link: performed, or it waits behind writes of memory that are held (14 R313). -/
theorem State.hostPost_register {s : State} (off : Nat) (v : Word) (hp : s.posted = []) :
    s.hostPost (.register off v) =
      if s.heldWrites = [] then State.takePosted 1 (s.bar0Write off v.toNat) else { s with posted := [.register off v] } := by
  have hs : { s with posted := [] } = s := by rw [← hp]
  unfold State.hostPost State.drainLink
  rw [hp, List.nil_append]
  change State.takePosted 2 _ = _
  rw [State.takePosted]
  simp only [hs, List.isEmpty_iff]

theorem State.hostPost_waits {s : State} (off : Nat) (v : Word) (hp : s.posted = []) (hh : s.heldWrites ≠ []) :
    s.hostPost (.register off v) = { s with posted := [.register off v] } := by
  rw [State.hostPost_register off v hp, if_neg hh]

theorem State.hostPost_ring {s : State} (n : Fin 16) {o : Nat} (h : o < 64) (v : Word) (hp : s.posted = [])
    (hh : s.heldWrites = []) : s.hostPost (.register (0x1000 + 64 * n.val + o) v) =
      if o = 0x18 ∨ o = 0x28 then s.writeRing n o v.toNat else s := by
  rw [State.hostPost_register _ v hp, if_pos hh, State.bar0Write_ring s n h, State.takePosted_nil]
  split
  · rw [State.posted_writeRing, hp]
  · exact hp

/-! ### What firmware and the host write to a ring (12 R269, R271) -/

theorem State.writeRing_tail (s : State) (n : Fin 16) (v : Nat) :
    s.writeRing n 0x18 v = s.changeRing n (fun r => r.writeTail (BitVec.ofNat 32 v)) := rfl

theorem State.writeRing_control (s : State) (n : Fin 16) (v : Nat) :
    s.writeRing n 0x28 v = s.changeRing n (fun r => r.control v) := rfl

/-- A host write of TAIL that is performed. -/
theorem exec_ringTailWrite {s : State} (n : Fin 16) (v : BitVec 32) (hp : s.posted = []) (hh : s.heldWrites = []) :
    exec (.ringTailWrite n v) s = .next (s.changeRing n (fun r => r.writeTail v)) := by
  change Host.Outcome.next (s.hostPost (.register (0x1000 + 64 * n.val + 0x18) _)) = _
  rw [State.hostPost_ring n (by decide) _ hp hh, if_pos (.inl rfl), State.writeRing_tail, BitVec.ofNat_toNat,
    BitVec.setWidth_setWidth_of_le _ (by decide), BitVec.setWidth_eq]

/-- A host write of a ring's control register that is performed. -/
theorem hostPost_control {s : State} (n : Fin 16) (v : Word) (hp : s.posted = []) (hh : s.heldWrites = []) :
    s.hostPost (.register (ringReg n 0x28) v) = s.changeRing n (fun r => r.control v.toNat) := by
  change s.hostPost (.register (0x1000 + 64 * n.val + 0x28) v) = _
  rw [State.hostPost_ring n (by decide) _ hp hh, if_pos (.inr rfl), State.writeRing_control]

theorem HostRing.skip_eq (r : HostRing) :
    r.skip = if r.err = true ∧ 2 ≤ r.ecode ∧ r.ecode ≤ 4 then { r with head := r.head + 1, ecode := 0, err := false }
      else r.resume := by
  unfold HostRing.skip
  by_cases h : r.err = true ∧ 2 ≤ r.ecode ∧ r.ecode ≤ 4
  · rw [if_pos h, if_pos (by simpa [and_assoc] using h), HostRing.resume, if_pos h.1]
  · rw [if_neg h, if_neg (by simpa [and_assoc] using h)]

/-- The configuration of a ring after a write at an offset of it (12 R269). -/
theorem HostRing.config_eq (r : HostRing) (off : BitVec 6) (v : Word) :
    r.config off.toNat v.toNat =
      let free := r.en = false ∨ r.err = true
      if off = 0 then (if free then { r with rbase := keptBits v.toNat 51 8 } else r)
      else if off = 8 then
        { r with
          en := if v.getLsbD 63 = false then false else if free then true else r.en
          pmax := v.toNat / 2 ^ 48 % 64
          rdom := v.extractLsb' 32 16
          rlog := if free ∧ 4 ≤ v.toNat % 16 ∧ v.toNat % 16 ≤ 14 then v.toNat % 16 else r.rlog }
      else r := by
  have h0 : (off.toNat == 0x00) = decide (off = 0) := by rw [Bool.eq_iff_iff]; simp [← BitVec.toNat_inj]
  have h8 : (off.toNat == 0x08) = decide (off = 8) := by rw [Bool.eq_iff_iff]; simp [← BitVec.toNat_inj]
  have hfree : (!r.en || r.err) = decide (r.en = false ∨ r.err = true) := by rw [Bool.eq_iff_iff]; simp
  have hon : (v.toNat / 2 ^ 63 % 2 == 1) = v.getLsbD 63 := by
    rw [BitVec.getLsbD, Nat.testBit_eq_decide_div_mod_eq]; rfl
  have hbase : inPlace v.toNat 51 8 = keptBits v.toNat 51 8 := inPlace_eq_keptBits _ (by decide)
  unfold HostRing.config
  simp only [h0, h8, hfree, hon, hbase, decide_eq_true_eq]
  refine if_congr Iff.rfl rfl (if_congr Iff.rfl ?_ rfl)
  congr 1
  · by_cases free : r.en = false ∨ r.err = true <;> cases v.getLsbD 63 <;> simp [free]
  · apply BitVec.eq_of_toNat_eq
    simp [Nat.shiftRight_eq_div_pow]
  · simp [and_assoc]

/-! ### The firmware register block (06 R133; 08 R174; 13 R287; 14 R318) -/

theorem FwRegs.writeNqhead_eq (f : FwRegs) (v : BitVec 32) :
    f.writeNqhead v = { f with nqhead := if (f.nqtail - v).toNat ≤ 1024 then v else f.nqhead } := by
  unfold FwRegs.writeNqhead
  split <;> rfl

/-- A write of a register changes no other: the table is gone through register by register. -/
theorem FwRegs.read_write_ne (f : FwRegs) (v : Nat) {off q : Nat} (h : q ≠ off) : (f.write off v).read q = f.read q := by
  have hq : (q == off) = false := beq_eq_false_iff_ne.2 h
  unfold FwRegs.write
  rw [FwRegs.writeNqhead_eq]
  iterate 13
    refine iteInduction (motive := fun g => FwRegs.read g q = f.read q) (fun e => ?_) (fun _ => ?_)
    · obtain rfl := eq_of_beq e
      simp only [FwRegs.read, hq, Bool.false_eq_true, if_false]
  rfl

/-- An offset that the tables do not list. -/
theorem FwRegs.unlisted {f : FwRegs} {off old v : Nat} (h : fwAfter f off old v = none) : ∀ g : FwRegs, g.read off = 0 := by
  intro g
  unfold fwAfter at h
  split at h
  all_goals simp_all [FwRegs.read]

/-- The overflow bit, which a one clears. -/
theorem bit01_overflow (ovf : Bool) (v : Nat) :
    bit01 (ovf && v / 2 ^ 63 % 2 == 0) * 2 ^ 63 = if ovf = true ∧ v.testBit 63 = false then 2 ^ 63 else 0 := by
  have hbit : v.testBit 63 = decide (v / 2 ^ 63 % 2 = 1) := Nat.testBit_eq_decide_div_mod_eq
  rw [hbit]
  rcases Nat.mod_two_eq_zero_or_one (v / 2 ^ 63) with h | h <;> rw [h] <;> cases ovf <;> rfl

/-- A listed register after a write of it. -/
theorem FwRegs.read_write_listed {f : FwRegs} {off v x : Nat} (h : fwAfter f off (f.read off) v = some x) :
    (f.write off v).read off = x := by
  have hentry : keptBits v 51 3 < 2 ^ 64 := lt_two_pow_mono (keptBits_lt v 51 3) (by decide)
  unfold fwAfter at h
  split at h
  all_goals simp only [Option.some.injEq, reduceCtorEq] at h
  all_goals simp [FwRegs.write, FwRegs.read, FwRegs.writeNqhead_eq, inPlace_eq_keptBits, ← h]
  · split <;> simp -- NQHEAD
  · exact bit01_overflow f.ovf v
  · omega -- THRL and THRH
  · exact hentry -- SVEC
  · exact hentry -- FVEC
  · change bit01 (v / 2 ^ 63 % 2 == 1) * 2 ^ 63 + _ + _ = _ -- the hop core
    rw [bit01_top]
    omega

theorem FwRegs.read_write_same (f : FwRegs) (off v : Nat) :
    (f.write off v).read off = (fwAfter f off (f.read off) v).getD 0 := by
  cases h : fwAfter f off (f.read off) v with
  | none => exact FwRegs.unlisted h _
  | some x => exact FwRegs.read_write_listed h

/-! ### The Bellows register block (12 R278; 13 R305; 14 R319) -/

/-- A write of a register below the rings changes no other. -/
theorem State.bellowsRead_write_ne (s : State) (v : Nat) {off q : Nat} (h : q ≠ off) :
    ({ s with bregs := s.bregs.write off v } : State).bellowsRead q = s.bellowsRead q := by
  have hq : (q == off) = false := beq_eq_false_iff_ne.2 h
  unfold State.bellowsRead
  cases Machine.ringAt q with
  | some p => rfl
  | none =>
    unfold BellowsRegs.write
    iterate 13
      refine iteInduction (motive := fun b => ({ s with bregs := b } : State).bellowsLow q = s.bellowsLow q) (fun e => ?_) (fun _ => ?_)
      · obtain rfl := eq_of_beq e
        simp only [State.bellowsLow, hq, Bool.false_eq_true, if_false]
    rfl

/-- A listed register below the rings after a write of it. -/
theorem State.bellowsRead_write_listed {s : State} {off v x : Nat} (hlow : off < 0x1000)
    (h : bellowsAfter off (s.bellowsRead off) v = some x) :
    ({ s with bregs := s.bregs.write off v } : State).bellowsRead off = x := by
  have hread : ∀ t : State, t.bellowsRead off = t.bellowsLow off := fun t => by rw [State.bellowsRead, ringAt_low hlow]
  rw [hread] at h ⊢
  unfold bellowsAfter at h
  split at h
  all_goals simp only [Option.some.injEq, reduceCtorEq] at h
  all_goals simp [State.bellowsLow, BellowsRegs.write, inPlace_eq_keptBits, ← h]
  · simp [keptBits] -- FLBASE
  · exact bit01_top v -- APEN

/-- REGISTER_WRITE at a register of the Bellows block. -/
theorem exec_registerWrite_bellows (s : State) {off : Nat} (v : Word) (h : off < 65536) (ha : off % 8 = 0) :
    exec (.registerWrite (0xFFE8100000000 + off) v) s = .next (s.bellowsWrite off v.toNat) := by
  have hr : regionOf (0xFFE8100000000 + off) = .bellows off := by
    unfold regionOf Config.pagedEnd Config.aliasEnd Config.fwBase Config.fwEnd Config.bellowsBase Config.bellowsEnd
    iterate 5 rw [if_neg (by omega)]
    rw [if_pos (by omega), Nat.add_sub_cancel_left]
  have hoff : off / 8 * 8 = off := by omega
  change execRegisterWrite _ v s = _
  unfold execRegisterWrite
  rw [if_neg (by omega), hr]
  simp only [hoff]

/-- REGISTER_WRITE at a register of a die's firmware block. -/
theorem exec_registerWrite_firmware (s : State) (d : DieId) {off : Nat} (v : Word) (h : off < 65536) (ha : off % 8 = 0) :
    exec (.registerWrite (0xFFE8000000000 + 65536 * d.val + off) v) s =
      .next (s.modDie d (fun x => { x with fw := x.fw.write off v.toNat })) := by
  have hr : regionOf (0xFFE8000000000 + 65536 * d.val + off) = .firmware d off := by
    have hd : (0xFFE8000000000 + 65536 * d.val + off - 0xFFE8000000000) / 65536 = d.val := by omega
    have ho : (0xFFE8000000000 + 65536 * d.val + off - 0xFFE8000000000) % 65536 = off := by omega
    unfold regionOf Config.pagedEnd Config.aliasEnd Config.fwBase Config.fwEnd
    iterate 3 rw [if_neg (by omega)]
    rw [if_pos (by omega), hd, ho, Fin.ofNat_val_eq_self]
  have hoff : off / 8 * 8 = off := by omega
  change execRegisterWrite _ v s = _
  unfold execRegisterWrite State.fwWrite
  rw [if_neg (by omega), hr]
  simp only [hoff, ha, patchWord_whole _ _ v.isLt]

theorem bellowsAfter_aligned {off old v x : Nat} (h : bellowsAfter off old v = some x) : off % 8 = 0 := by
  unfold bellowsAfter at h
  split at h
  all_goals simp_all

/-! ### A change of the map of virtual dies (01 R9, R10; 14 R319) -/

theorem ringPos_lt (code : Nat) {v : Nat} (h : v < 8) : ringPos code v < 8 := by
  unfold ringPos
  repeat' split
  all_goals omega

/-- Each map is its own inverse (01 R9). -/
theorem ringPos_ringPos (code : Nat) {v : Nat} (h : v < 8) : ringPos code (ringPos code v) = v := by
  unfold ringPos
  repeat' split
  all_goals omega

theorem gapOf_lt (code : Nat) {i : Nat} (h : i < 8) : gapOf code i < 8 := by
  unfold gapOf
  repeat' split
  all_goals omega

theorem gapOf_gapOf (code : Nat) {i : Nat} (h : i < 8) : gapOf code (gapOf code i) = i := by
  unfold gapOf
  repeat' split
  all_goals omega

theorem moveDie_val (old new : Nat) (d : DieId) : (moveDie old new d).val = ringPos new (ringPos old d.val) :=
  Nat.mod_eq_of_lt (ringPos_lt new (ringPos_lt old d.isLt))

/-- A die that moves and moves back is where it was. -/
theorem moveDie_moveDie (old new : Nat) (d : DieId) : moveDie new old (moveDie old new d) = d := by
  apply Fin.ext
  rw [moveDie_val, moveDie_val, ringPos_ringPos new (ringPos_lt old d.isLt), ringPos_ringPos old d.isLt]

theorem localCore_val (d : DieId) {x y : Nat} (hx : x < 8) (hy : y < 8) :
    (localCore d x y).val = 32 * (8 * (d.val / 4) + y) + (8 * (d.val % 4) + x) :=
  Nat.mod_eq_of_lt (by omega)

theorem dieOf_localCore (d : DieId) {x y : Nat} (hx : x < 8) (hy : y < 8) : dieOf (localCore d x y) = d := by
  apply Fin.ext
  simp only [dieOf, coreX, coreY, localCore_val d hx hy, Fin.val_ofNat]
  omega

theorem coreX_localCore (d : DieId) {x y : Nat} (hx : x < 8) (hy : y < 8) : coreX (localCore d x y) % 8 = x := by
  rw [coreX, localCore_val d hx hy]
  omega

theorem coreY_localCore (d : DieId) {x y : Nat} (hx : x < 8) (hy : y < 8) : coreY (localCore d x y) % 8 = y := by
  rw [coreY, localCore_val d hx hy]
  omega

/-- A core is the one at its local position of its die (01 R14). -/
theorem localCore_dieOf (c : CoreId) : localCore (dieOf c) (coreX c % 8) (coreY c % 8) = c := by
  apply Fin.ext
  rw [localCore_val _ (Nat.mod_lt _ (by decide)) (Nat.mod_lt _ (by decide))]
  simp only [dieOf, coreX, coreY, Fin.val_ofNat]
  omega

/-- A core that moves and moves back is where it was. -/
theorem moveCore_moveCore (old new : Nat) (c : CoreId) : moveCore new old (moveCore old new c) = c := by
  have hx : coreX c % 8 < 8 := Nat.mod_lt _ (by decide)
  have hy : coreY c % 8 < 8 := Nat.mod_lt _ (by decide)
  rw [moveCore, moveCore, dieOf_localCore _ hx hy, coreX_localCore _ hx hy, coreY_localCore _ hx hy, moveDie_moveDie,
    localCore_dieOf]

/-- Before a change of map the caches are empty, and otherwise only write-backs have happened. -/
theorem State.quiesce_frame (s : State) :
    s.quiesce = { s with
        dies := s.quiesce.dies, cores := s.quiesce.cores, mem := s.quiesce.mem, rewritten := s.quiesce.rewritten, flue := s.quiesce.flue } ∧
      (∀ d, (s.quiesce.dieAt d).l2 = [] ∧ (s.quiesce.dieAt d).tlb = [] ∧ (s.quiesce.dieAt d).fw = (s.dieAt d).fw) ∧
      ∀ c, s.quiesce.coreAt c = { s.coreAt c with l1 := [], icache := [] } := by
  obtain ⟨hframe, hfw⟩ := State.onlyWriteBacks_foldl (fun t i => t.onlyWriteBacks_writeBackAll (Fin.ofNat 8 i)) (List.range 8) s
  unfold State.quiesce
  dsimp only
  generalize (List.range 8).foldl (fun t i => State.writeBackAll t (Fin.ofNat 8 i)) s = u at *
  refine ⟨?_, fun d => ?_, fun c => ?_⟩
  · rw [hframe]
  · simpa [State.dieAt] using hfw d
  · rw [hframe]
    simp [State.coreAt]

theorem State.dieAt_remap (s : State) (code : Nat) (d : DieId) :
    (s.remap code).dieAt d = Die.moved ⟨moveDie s.bregs.vdmap code, moveCore s.bregs.vdmap code⟩
      (s.quiesce.dieAt (moveDie code s.bregs.vdmap d)) := by
  simp [State.remap, State.dieAt]

theorem State.coreAt_remap (s : State) (code : Nat) (c : CoreId) :
    (s.remap code).coreAt c = Core.moved ⟨moveDie s.bregs.vdmap code, moveCore s.bregs.vdmap code⟩
      (s.quiesce.coreAt c) (s.quiesce.coreAt (moveCore code s.bregs.vdmap c)) := by
  simp [State.remap, State.coreAt]

/-- Each stack is owned by the same die as before, under its new number (01 R10). -/
theorem State.owners_remap (s : State) (code : Nat) (i : Fin 8) :
    (s.remap code).owners[i] =
      moveDie s.bregs.vdmap code s.owners[(Fin.ofNat 8 (gapOf s.bregs.vdmap (gapOf code i.val)))] := by
  have howners : s.quiesce.owners = s.owners := by rw [s.quiesce_frame.1]
  simp [State.remap, howners]

/-- The home of an address moves with its die (01 R10). -/
theorem State.homeOf_remap (s : State) (code pa : Nat) :
    (s.remap code).homeOf pa = (s.homeOf pa).map (moveDie s.bregs.vdmap code) := by
  have hmap : (s.remap code).bregs.vdmap = code := rfl
  unfold State.homeOf
  simp only [hmap]
  split
  · rename_i h
    have hi : pa / 2 ^ 36 < 8 := by omega
    have hg : (Fin.ofNat 8 (gapOf code (pa / 2 ^ 36))).val = gapOf code (pa / 2 ^ 36) := Nat.mod_eq_of_lt (gapOf_lt code hi)
    simp only [State.owners_remap, hg, gapOf_gapOf code hi, Option.map_some]
  · split
    · rename_i h g
      have hi : (pa - 0x8000000000) / 2 ^ 37 < 8 := by unfold Config.unitEnd at g; omega
      have hr := ringPos_lt s.bregs.vdmap hi
      rw [Option.map_some, moveDie, Fin.val_ofNat, Nat.mod_eq_of_lt hr, ringPos_ringPos _ hi]
    · rfl

/-- The rings of a core's position keep what 12 R281 needs of them: only names of senders change. -/
theorem Ring.moved_eq (r : Renumber) (q : Ring) :
    Ring.moved r q = { q with res := (Ring.moved r q).res, senders := (Ring.moved r q).senders } ∧
      (Ring.moved r q).res.length = q.res.length ∧ (Ring.moved r q).senders.length = q.senders.length :=
  ⟨rfl, List.length_map _, List.length_map _⟩

/-- The inboxes of a core after a change of map are those of its position (12 R281). -/
theorem State.ringOn_remap (s : State) (code : Nat) (c : CoreId) {n : Nat} (h : n < 4) :
    ringOn (s.remap code) c n = Ring.moved ⟨moveDie s.bregs.vdmap code, moveCore s.bregs.vdmap code⟩ (ringOn s c n) := by
  have hn : n % 8 < 4 := by omega
  unfold ringOn
  rw [State.coreAt_remap, s.quiesce_frame.2.2 c]
  simp [Core.moved, hn]

/-- A context moves with its core. -/
theorem State.ctxAt_remap (s : State) (code : Nat) (c : CoreId) (x : CtxId) :
    (s.remap code).ctxAt (moveCore s.bregs.vdmap code c) x = { s.ctxAt c x with
      hopped := (s.ctxAt c x).hopped.map (moveCore s.bregs.vdmap code)
      travel := (s.ctxAt c x).travel.map (moveCore s.bregs.vdmap code) } := by
  unfold State.ctxAt
  rw [State.coreAt_remap, moveCore_moveCore, s.quiesce_frame.2.2 c]
  simp [Core.moved]

/-- The registers of a die move with it; its caches and translations are empty. -/
theorem State.dieAt_remap_fields (s : State) (code : Nat) (d : DieId) :
    ((s.remap code).dieAt d).l2 = [] ∧ ((s.remap code).dieAt d).tlb = [] ∧
      ((s.remap code).dieAt (moveDie s.bregs.vdmap code d)).fw = (s.dieAt d).fw := by
  rw [State.dieAt_remap, State.dieAt_remap, moveDie_moveDie]
  obtain ⟨hl2, htlb, -⟩ := s.quiesce_frame.2.1 (moveDie code s.bregs.vdmap d)
  exact ⟨hl2, htlb, (s.quiesce_frame.2.1 d).2.2⟩

/-- A core's caches are empty after a change of map. -/
theorem State.caches_remap (s : State) (code : Nat) (c : CoreId) :
    ((s.remap code).coreAt c).l1 = [] ∧ ((s.remap code).coreAt c).icache = [] := by
  rw [State.coreAt_remap, s.quiesce_frame.2.2 (moveCore code s.bregs.vdmap c)]
  exact ⟨rfl, rfl⟩

/-- VDERR after a write, which clears it by a one. -/
theorem vderr_after (b : Bool) (v : Word) : (b && v.toNat / 2 ^ 63 % 2 == 0) = (b && !v.getLsbD 63) := by
  have hbit : v.getLsbD 63 = decide (v.toNat / 2 ^ 63 % 2 = 1) := Nat.testBit_eq_decide_div_mod_eq
  rw [hbit]
  rcases Nat.mod_two_eq_zero_or_one (v.toNat / 2 ^ 63) with h | h <;> rw [h] <;> rfl

/-- What a change of the map to `code` makes of a state (01 R9, R10): dies, cores and homes have their new numbers, caches are
empty, and the inboxes stay with their position. -/
def State.changedMap (s t : State) (code : Nat) : Prop :=
  t.bregs.vdmap = code ∧ t.launches = s.launches ∧ t.rings = s.rings ∧
    (∀ d, (t.dieAt d).l2 = [] ∧ (t.dieAt d).tlb = [] ∧ (t.dieAt (moveDie s.bregs.vdmap code d)).fw = (s.dieAt d).fw) ∧
    (∀ c, (t.coreAt c).l1 = [] ∧ (t.coreAt c).icache = [] ∧
      let core := moveCore s.bregs.vdmap code
      (∀ x, t.ctxAt (core c) x = { s.ctxAt c x with
        hopped := (s.ctxAt c x).hopped.map core, travel := (s.ctxAt c x).travel.map core }) ∧
      ∀ n, let r := ringOn t c n
        let q := ringOn s c n
        n < 4 → r = { q with res := r.res, senders := r.senders } ∧ r.res.length = q.res.length ∧
          r.senders.length = q.senders.length) ∧
    (s.bregs.vdmap < 4 → ∀ pa, t.homeOf pa = (s.homeOf pa).map (moveDie s.bregs.vdmap code))

theorem State.changedMap_remap (s : State) (code : Nat) : s.changedMap (s.remap code) code := by
  have hq := s.quiesce_frame.1
  have hlaunches : (s.remap code).launches = s.launches := by
    unfold State.remap
    rw [hq]
  have hrings : (s.remap code).rings = s.rings := by
    unfold State.remap
    rw [hq]
  refine ⟨rfl, hlaunches, hrings, s.dieAt_remap_fields code, fun c => ⟨(s.caches_remap code c).1, (s.caches_remap code c).2,
    s.ctxAt_remap code c, fun n => ?_⟩, fun _ => s.homeOf_remap code⟩
  intro r q hn
  simp only [r, q, State.ringOn_remap s code c hn]
  exact Ring.moved_eq _ _

/-- The model's write of VDMAP, by the code written: the one in force, one that is refused, and another. -/
theorem State.writeVdmap_eq (s : State) (v : Word) :
    s.writeVdmap v.toNat =
      let t := { s with bregs := { s.bregs with vderr := s.bregs.vderr && !v.getLsbD 63 } }
      if v.toNat % 8 = s.bregs.vdmap then t
      else if 4 ≤ v.toNat % 8 ∨ s.anyPlaced = true then { s with bregs := { s.bregs with vderr := true } }
      else t.remap (v.toNat % 8) := by
  unfold State.writeVdmap
  rw [vderr_after]
  simp only [beq_iff_eq, Bool.or_eq_true, decide_eq_true_eq]

theorem vdmapWrite_changes (v : Word) (s : State) :
    ∃ t, exec (.vdmapWrite v) s = .next t ∧
      let code := v.toNat % 8
      let err := fun b => { s with bregs := { s.bregs with vderr := b } }
      if code = s.bregs.vdmap then t = err (s.bregs.vderr && !v.getLsbD 63)
      else if 4 ≤ code ∨ s.anyPlaced = true then t = err true
      else s.changedMap t code := by
  refine ⟨s.writeVdmap v.toNat, rfl, ?_⟩
  rw [State.writeVdmap_eq]
  dsimp only
  by_cases hsame : v.toNat % 8 = s.bregs.vdmap
  · rw [if_pos hsame, if_pos hsame]
  · rw [if_neg hsame, if_neg hsame]
    by_cases hrefused : 4 ≤ v.toNat % 8 ∨ s.anyPlaced = true
    · rw [if_pos hrefused, if_pos hrefused]
    · rw [if_neg hrefused, if_neg hrefused]
      exact State.changedMap_remap { s with bregs := { s.bregs with vderr := s.bregs.vderr && !v.getLsbD 63 } } _

/-! ### What each write does -/

/-- Host writes of a ring's registers that wait behind held writes of memory (14 R313). -/
theorem ringWrites_wait {s : State} (n : Fin 16) (hp : s.posted = []) (hh : s.heldWrites ≠ []) :
    (∀ v : BitVec 32, exec (.ringTailWrite n v) s =
      .next { s with posted := [.register (0x1018 + 64 * n.val) (v.setWidth 64)] }) ∧
    exec (.ringReset n) s = .next { s with posted := [.register (0x1028 + 64 * n.val) 4] } ∧
    exec (.ringSkip n) s = .next { s with posted := [.register (0x1028 + 64 * n.val) 2] } ∧
    exec (.ringResume n) s = .next { s with posted := [.register (0x1028 + 64 * n.val) 1] } := by
  have htail : ringReg n 0x18 = 0x1018 + 64 * n.val := by unfold ringReg; omega
  have hcontrol : ringReg n 0x28 = 0x1028 + 64 * n.val := by unfold ringReg; omega
  have hwait : ∀ off v, Host.Outcome.next (s.hostPost (.register off v)) = (.next { s with posted := [.register off v] } : Out) :=
    fun off v => by rw [State.hostPost_waits off v hp hh]
  rw [← htail, ← hcontrol]
  exact ⟨fun v => hwait _ _, hwait _ _, hwait _ _, hwait _ _⟩

/-- Host writes of a ring's registers that are performed, and firmware's of its configuration (12 R269, R271). -/
theorem ringWrites_perform {s : State} (n : Fin 16) (hp : s.posted = []) (hh : s.heldWrites = []) :
    let r := s.rings[n]
    let resumed : HostRing := if r.err = true then { r with ecode := 0, err := false } else r
    (∀ v : BitVec 32, ∃ t, exec (.ringTailWrite n v) s = .next t ∧ onlyHostRing s t n (
      if r.err = true then r
      else if (v - r.head).toNat ≤ 2 ^ r.rlog then { r with tail := v }
      else { r with errtail := v, ecode := 1, err := true })) ∧
    (∃ t, exec (.ringReset n) s = .next t ∧ onlyHostRing s t n { r with head := 0, tail := 0, ecode := 0, err := false }) ∧
    (∃ t, exec (.ringResume n) s = .next t ∧ onlyHostRing s t n resumed) ∧
    (∃ t, exec (.ringSkip n) s = .next t ∧ onlyHostRing s t n (
      if r.err = true ∧ 2 ≤ r.ecode ∧ r.ecode ≤ 4 then { r with head := r.head + 1, ecode := 0, err := false } else resumed)) ∧
    (∀ (off : BitVec 6) (v : Word), ∃ t, exec (.ringConfigWrite n off v) s = .next t ∧
      onlyHostRing s t n (r.config off.toNat v.toNat)) := by
  intro r resumed
  have hcontrol : ∀ v : Word, (.next (s.hostPost (.register (ringReg n 0x28) v)) : Out) =
      .next (s.changeRing n (fun r => r.control v.toNat)) := fun v => by rw [hostPost_control n v hp hh]
  refine ⟨fun v => ⟨_, exec_ringTailWrite n v hp hh, s.onlyHostRing_changeRing n _⟩,
    ⟨_, hcontrol 4, s.onlyHostRing_changeRing n _⟩, ⟨_, hcontrol 1, s.onlyHostRing_changeRing n _⟩,
    ⟨_, hcontrol 2, ?_⟩, fun off v => ⟨_, rfl, s.onlyHostRing_changeRing n _⟩⟩
  have hskip : r.control (2 : Word).toNat =
      if r.err = true ∧ 2 ≤ r.ecode ∧ r.ecode ≤ 4 then { r with head := r.head + 1, ecode := 0, err := false } else resumed :=
    r.skip_eq
  rw [← hskip]
  exact s.onlyHostRing_changeRing n _

/-- NQHEAD (06 R133). -/
theorem nqheadWrite_changes (d : DieId) (v : BitVec 32) (s : State) :
    ∃ t, exec (.nqheadWrite d v) s = .next t ∧ t = { s with dies := t.dies } ∧
      (∀ e, e ≠ d → t.dieAt e = s.dieAt e) ∧ t.dieAt d = { s.dieAt d with fw := { (s.dieAt d).fw with
        nqhead := if ((s.dieAt d).fw.nqtail - v).toNat ≤ 1024 then v else (s.dieAt d).fw.nqhead } } := by
  refine ⟨_, rfl, rfl, fun e he => ?_, ?_⟩
  · rw [State.dieAt_modDie, if_neg he]
  · rw [State.dieAt_modDie_self, FwRegs.writeNqhead_eq]

/-- REGISTER_WRITE in a die's firmware block changes that register alone. -/
theorem registerWrite_firmware_changes (d : DieId) {off : Nat} (v : Word) (s : State) (ha : off % 8 = 0) (ho : off < 65536) :
    ∃ t, exec (.registerWrite (0xFFE8000000000 + 65536 * d.val + off) v) s = .next t ∧ t = { s with dies := t.dies } ∧
      (∀ e, e ≠ d → t.dieAt e = s.dieAt e) ∧ t.dieAt d = { s.dieAt d with fw := (t.dieAt d).fw } ∧
      (∀ q, q ≠ off → (t.dieAt d).fw.read q = (s.dieAt d).fw.read q) ∧
      (t.dieAt d).fw.read off = (fwAfter (s.dieAt d).fw off ((s.dieAt d).fw.read off) v.toNat).getD 0 := by
  refine ⟨_, exec_registerWrite_firmware s d v ho ha, rfl, fun e he => ?_, ?_⟩
  · rw [State.dieAt_modDie, if_neg he]
  · rw [State.dieAt_modDie_self]
    exact ⟨rfl, fun q hq => FwRegs.read_write_ne _ _ hq, FwRegs.read_write_same _ _ _⟩

/-- REGISTER_WRITE of a register of the Bellows block below the rings changes that register alone. -/
theorem registerWrite_bellows_changes {off x : Nat} (v : Word) (s : State) (ho : off < 0x1000) (hv : off ≠ 0x60)
    (h : bellowsAfter off (s.bellowsRead off) v.toNat = some x) :
    ∃ t, exec (.registerWrite (0xFFE8100000000 + off) v) s = .next t ∧ t = { s with bregs := t.bregs } ∧ t.bellowsRead off = x ∧
      ∀ q, q ≠ off → t.bellowsRead q = s.bellowsRead q := by
  have hw : s.bellowsWrite off v.toNat = { s with bregs := s.bregs.write off v.toNat } := by
    unfold State.bellowsWrite
    rw [ringAt_low ho]
    exact if_neg (by simpa using hv)
  refine ⟨_, exec_registerWrite_bellows s v (by omega) (bellowsAfter_aligned h), ?_⟩
  rw [hw]
  exact ⟨rfl, State.bellowsRead_write_listed ho h, fun q hq => s.bellowsRead_write_ne _ hq⟩

/-- REGISTER_WRITE from 2^52 on is the host's at the offset above it (log 13). -/
theorem exec_registerWrite_host (s : State) {off : Nat} (v : Word) (ha : off % 8 = 0) :
    exec (.registerWrite (2 ^ 52 + off) v) s = .next (s.hostPost (.register off v)) := by
  have hoff : (2 ^ 52 + off - 2 ^ 52) / 8 * 8 = off := by omega
  change execRegisterWrite _ v s = _
  unfold execRegisterWrite
  rw [if_pos (by omega), hoff]

/-- REGISTER_WRITE of a ring's registers: TAIL by firmware and by the host, and its configuration, which the host cannot write. -/
theorem registerWrite_ring {s : State} (n : Fin 16) (off : Nat) (v : Word) (hp : s.posted = []) (hh : s.heldWrites = []) :
    exec (.registerWrite (0xFFE8100001018 + 64 * n.val) v) s = exec (.ringTailWrite n (v.setWidth 32)) s ∧
    exec (.registerWrite (2 ^ 52 + 0x1018 + 64 * n.val) v) s = exec (.ringTailWrite n (v.setWidth 32)) s ∧
    (off = 0 ∨ off = 8 → exec (.registerWrite (2 ^ 52 + 0x1000 + 64 * n.val + off) v) s = .next s) := by
  have htail : s.writeRing n 0x18 v.toNat = s.changeRing n (fun r => r.writeTail (v.setWidth 32)) := by
    rw [State.writeRing_tail, BitVec.ofNat_toNat]
  refine ⟨?_, ?_, fun h => ?_⟩
  · have hat : 0xFFE8100001018 + 64 * n.val = 0xFFE8100000000 + (0x1000 + 64 * n.val + 0x18) := by omega
    rw [hat, exec_registerWrite_bellows s v (by omega) (by omega), State.bellowsWrite, ringAt_ring n (by decide),
      exec_ringTailWrite n _ hp hh, ← htail]
  · have hat : 2 ^ 52 + 0x1018 + 64 * n.val = 2 ^ 52 + (0x1000 + 64 * n.val + 0x18) := by omega
    rw [hat, exec_registerWrite_host s v (by omega), State.hostPost_ring n (by decide) v hp hh, if_pos (.inl rfl),
      exec_ringTailWrite n _ hp hh, ← htail]
  · have hat : 2 ^ 52 + 0x1000 + 64 * n.val + off = 2 ^ 52 + (0x1000 + 64 * n.val + off) := by omega
    rw [hat, exec_registerWrite_host s v (by omega), State.hostPost_ring n (by omega) v hp hh, if_neg (by omega)]

/-- Settles O50: each register's write by its table, and a change of map by the maps' being their own inverses. -/
theorem ringsAndRegisters : Obligations.RingsAndRegisters := by
  unfold Obligations.RingsAndRegisters
  refine ⟨fun n s hp hh => ringWrites_wait n hp hh, fun n s hp hh => ?_, nqheadWrite_changes, vdmapWrite_changes,
    fun d off v s ha ho => registerWrite_firmware_changes d v s ha ho,
    fun off x v s ho hv h => registerWrite_bellows_changes v s ho hv h, fun n off v s hp hh => registerWrite_ring n off v hp hh⟩
  obtain ⟨htail, hreset, hresume, hskip, hconfig⟩ := ringWrites_perform n hp hh
  refine ⟨htail, hreset, hresume, hskip, fun off v => ?_⟩
  have := hconfig off v
  rwa [HostRing.config_eq] at this

end Sys2Proof.Machine

/-! What an instruction leaves that does not simply go on: a jump, a wait, a trap; and what the waits for the vector unit and the
acquires leave (02 R39; 03 R60; 07 R150, R156; 13 R289). -/
namespace Sys2Proof.Machine
open Sys2Proof Sys2Proof.Claims

/-! ### Frames compose -/

theorem State.sameBytes_trans {s t u : State} (a : s.sameBytes t) (b : t.sameBytes u) : s.sameBytes u := fun x =>
  ⟨(b x).1.trans (a x).1, (b x).2.1.trans (a x).2.1, (b x).2.2.trans (a x).2.2⟩

theorem State.onlyContext_othersKept {s t : State} (h : s.onlyContext t) : othersKept s t := h.2.2

theorem othersKept_trans {s t u : State} (a : othersKept s t) (hc : t.cur = s.cur) (b : othersKept t u) : othersKept s u :=
  fun c x h => (b c x (by rwa [hc])).trans (a c x h)

theorem othersKept_of_ctxAt {s t : State} (h : ∀ c x, t.ctxAt c x = s.ctxAt c x) : othersKept s t := fun c x _ => h c x

/-- A change that keeps every context and the choice of the executing one keeps the executing context. -/
theorem State.ctx_of_ctxAt {s t : State} (hc : t.cur = s.cur) (h : ∀ c x, t.ctxAt c x = s.ctxAt c x) : t.ctx = s.ctx := by
  unfold State.ctx
  rw [hc, h]

theorem State.runCore_of {s t : State} (hc : t.cur = s.cur) (hh : t.ctx.hopped = s.ctx.hopped) : t.runCore = s.runCore := by
  unfold State.runCore
  rw [hh, hc]

theorem Ctx.onlyScalars_hopped {x y : Ctx} (h : x.onlyScalars y) : y.hopped = x.hopped := by rw [h]

theorem Ctx.onlyScalars_region {x y : Ctx} (h : x.onlyScalars y) : y.region = x.region := by rw [h]

/-- The executing context when its instruction's own part runs differs in the books of issue. -/
theorem State.onlyScalars_atIssue (s : State) (srcs : List (BitVec 6)) (h : s.inRegion = false) :
    s.ctx.onlyScalars (s.atIssue srcs).ctx := by
  rw [State.ctx_atIssue s srcs h]
  rfl

theorem State.runCore_atIssue (s : State) (srcs : List (BitVec 6)) (h : s.inRegion = false) :
    (s.atIssue srcs).runCore = s.runCore :=
  State.runCore_of (State.cur_atIssue s srcs) (Ctx.onlyScalars_hopped (s.onlyScalars_atIssue srcs h))

theorem State.runDie_atIssue (s : State) (srcs : List (BitVec 6)) (h : s.inRegion = false) :
    (s.atIssue srcs).runDie = s.runDie := congrArg dieOf (s.runCore_atIssue srcs h)

theorem State.inRegion_of_onlyScalars {s u : State} (hr : s.inRegion = false) (h : s.ctx.onlyScalars u.ctx) : u.inRegion = false := by
  have := State.region_none hr
  simp [State.inRegion, Ctx.onlyScalars_region h, this]

/-! ### The vector unit of a core -/

/-- Admission looks at the vector queue and the walks alone. -/
theorem Core.takeHead_ctxs (k : Core) (v : Vector Ctx 12) : ({ k with ctxs := v } : Core).takeHead = { k.takeHead with ctxs := v } := by
  obtain ⟨_, _, _, _, _, q, _, _, _, _, _⟩ := k
  cases q <;> rfl

theorem Core.admitAll_ctxs (x : CoreId × CtxId) (n : Nat) (k : Core) (v : Vector Ctx 12) :
    Core.admitAll x n { k with ctxs := v } = { Core.admitAll x n k with ctxs := v } := by
  induction n generalizing k with
  | zero => rfl
  | succ n ih =>
    unfold Core.admitAll
    rw [Core.takeHead_ctxs, ih]
    dsimp only
    split <;> rfl

/-- A change of contexts leaves the cycle by which vector instructions complete. -/
theorem Core.vectorsDone_ctxs (k : Core) (v : Vector Ctx 12) (x : CoreId × CtxId) :
    ({ k with ctxs := v } : Core).vectorsDone x = k.vectorsDone x := by
  unfold Core.vectorsDone Core.drained
  rw [Core.admitAll_ctxs]

theorem State.vectorsDone_modCtx (s : State) (f : Ctx → Ctx) (c : CoreId) (x : CoreId × CtxId) :
    ((s.modCtx f).coreAt c).vectorsDone x = (s.coreAt c).vectorsDone x := by
  unfold State.modCtx State.modCtxAt
  rw [State.coreAt_modCore]
  split
  · rename_i h
    rw [Core.vectorsDone_ctxs, h]
  · rfl

theorem Core.length_takeHead (k : Core) : k.takeHead.vqueue.length = k.vqueue.length - 1 := by
  unfold Core.takeHead
  cases h : k.vqueue <;> simp [h]

/-- With fuel for the whole queue, no instruction of the context stays queued (07 R156). -/
theorem Core.admitAll_empties (x : CoreId × CtxId) (n : Nat) (k : Core) (h : k.vqueue.length ≤ n) :
    (Core.admitAll x n k).vqueue.any (fun e => e.ctx == x) = false := by
  induction n generalizing k with
  | zero =>
    have : k.vqueue = [] := List.eq_nil_of_length_eq_zero (by omega)
    simp [Core.admitAll, this]
  | succ n ih =>
    unfold Core.admitAll
    split
    · exact ih _ (by rw [Core.length_takeHead]; omega)
    · rename_i hn
      simpa using hn

theorem State.vqueue_drainVector (s : State) :
    (s.drainVector.coreAt s.runCore).vqueue.any (fun e => e.ctx == s.cur) = false := by
  unfold State.drainVector
  dsimp only
  rw [State.coreAt_advanceTo, State.coreAt_modCore_self]
  exact Core.admitAll_empties _ _ _ (Nat.le_refl _)

theorem State.vqueue_modCtx (s : State) (f : Ctx → Ctx) (c : CoreId) : ((s.modCtx f).coreAt c).vqueue = (s.coreAt c).vqueue := by
  unfold State.modCtx State.modCtxAt
  rw [State.coreAt_modCore]
  split
  · rename_i h; rw [h]
  · rfl

@[simp] theorem State.cur_drainVector (s : State) : s.drainVector.cur = s.cur := State.onlyContext_cur s.drainVector_frame.1

theorem State.runCore_drainVector (s : State) : s.drainVector.runCore = s.runCore :=
  State.runCore_of s.cur_drainVector (by rw [s.ctx_drainVector])

/-! ### Acquires (07 R150) -/

/-- An acquire discards cached copies: those of the core's L1 and the clean bytes of the die's L2. -/
theorem State.acquireSteps_frame (s : State) (c : CoreId) (scope : Word) :
    (s.acquireSteps c scope).cur = s.cur ∧ (∀ d x, (s.acquireSteps c scope).ctxAt d x = s.ctxAt d x) ∧
      s.sameBytes (s.acquireSteps c scope) := by
  have hl : ∀ t : State, (t.l1Clear c).cur = t.cur ∧ (∀ d x, (t.l1Clear c).ctxAt d x = t.ctxAt d x) ∧ t.sameBytes (t.l1Clear c) :=
    fun t => ⟨rfl, fun d x => t.ctxAt_modCore c d x _ fun _ => rfl, fun _ => ⟨rfl, rfl, rfl⟩⟩
  have hs : s.sameBytes s := fun _ => ⟨rfl, rfl, rfl⟩
  unfold State.acquireSteps
  dsimp only
  by_cases h0 : scopeKind scope == 0 <;> by_cases hb : scopeBeyond scope (dieOf c) = true <;> simp only [h0, hb, if_true]
  · exact ⟨rfl, fun _ _ => rfl, hs⟩
  · exact ⟨rfl, fun _ _ => rfl, hs⟩
  · exact hl s
  · exact hl s

@[simp] theorem State.cur_acquireSteps (s : State) (c : CoreId) (scope : Word) : (s.acquireSteps c scope).cur = s.cur :=
  (s.acquireSteps_frame c scope).1

theorem State.ctxAt_acquireSteps (s : State) (c d : CoreId) (scope : Word) (x : CtxId) :
    (s.acquireSteps c scope).ctxAt d x = s.ctxAt d x := (s.acquireSteps_frame c scope).2.1 d x

@[simp] theorem State.ctx_acquireSteps (s : State) (c : CoreId) (scope : Word) : (s.acquireSteps c scope).ctx = s.ctx :=
  State.ctx_of_ctxAt (s.cur_acquireSteps c scope) fun d x => s.ctxAt_acquireSteps c d scope x

theorem State.sameBytes_acquireSteps (s : State) (c : CoreId) (scope : Word) : s.sameBytes (s.acquireSteps c scope) :=
  (s.acquireSteps_frame c scope).2.2

/-- Beyond the scope CORE an acquire empties the core's L1. -/
theorem State.l1_acquireSteps (s : State) (c : CoreId) {scope : Word} (h : scopeKind scope ≠ 0) :
    ((s.acquireSteps c scope).coreAt c).l1 = [] := by
  have hl : ((s.l1Clear c).coreAt c).l1 = [] := congrArg Core.l1 (s.coreAt_modCore_self c _)
  have h1 : (if (scopeKind scope == 0) = true then s else s.l1Clear c) = s.l1Clear c := if_neg (by simpa using h)
  unfold State.acquireSteps
  dsimp only
  rw [h1]
  split
  · exact hl
  · exact hl

/-! ### An instruction that completes -/

/-- The books of an instruction that ends with a change of its context are the context's own. -/
theorem State.onlyContext_retire_modCtx (u : State) (f : Ctx → Ctx) (n : BitVec 3) : u.onlyContext ((u.modCtx f).retire n) :=
  State.onlyContext_trans (State.onlyContext_modCtx u f) (State.onlyContext_retire _ _)

/-- What an instruction that jumps from the state `u` leaves: `u`'s context at the target. -/
theorem State.ctx_finish_jump (u : State) (pc : Word) (n : BitVec 3) :
    ((u.modCtx (fun x => { x with pc := pc })).retire n).ctx =
      { u.ctx with pc := pc, nextIssue := u.cycle + 1 + n.toNat, waitFrom := u.cycle + 1 + n.toNat } := by
  rw [State.ctx_retire, State.ctx_modCtx]
  rfl

theorem Core.sameShared_l1 {a b : Core} (h : a.sameShared b) : b.l1 = a.l1 := by rw [h.1]

theorem Core.sameShared_placed {a b : Core} (h : a.sameShared b) : b.placed = a.placed := by rw [h.1]

/-- Outside a region the general rule of tags changes nothing (08 R186). -/
theorem State.modCtx_autoTag {u : State} (srcs : List (BitVec 6)) (dst : Option (BitVec 6)) (h : u.inRegion = false) :
    u.modCtx (fun x => x.autoTag srcs dst) = u := by
  refine State.modCtx_same u _ ?_
  unfold Ctx.autoTag
  rw [State.region_none h]

/-! The hypotheses under which an instruction's own part runs (03 R60). -/
section
variable {s : State} {i : Instr} {ctl : SCtl} {m : Meta} {body : State → Effect}
  (hi : ∀ f, i ≠ .aend f) (h : s.executes ctl m.srcs m.dst m.lam) (hp : s.ctx.mode.allows m.priv = true)
  (hh : m.handler = true ∨ s.inHandler = false)
include hi h hp hh

/-- An own part that neither completes nor jumps ends as it says, whatever the tags. -/
theorem State.issue_ends {e : Effect} (hb : body (s.atIssue (allSources ctl m)) = e) (hn : ∀ t, e ≠ .next t)
    (hj : ∀ t pc, e ≠ .jump t pc) : s.issue i ctl m body = .next (e.finish ctl.stall) := by
  rw [State.issue_executes s i ctl m body hi h hp hh, hb]
  cases m.tagging with
  | own => rfl
  | auto =>
    cases e with
    | next t => exact absurd rfl (hn t)
    | jump t pc => exact absurd rfl (hj t pc)
    | _ => rfl

/-- An own part that jumps answers its state at the target. -/
theorem State.issue_jump {u : State} {pc : Word} (hb : body (s.atIssue (allSources ctl m)) = .jump u pc) (hu : u.inRegion = false) :
    s.issue i ctl m body = .next ((u.modCtx (fun x => { x with pc := pc })).retire ctl.stall) := by
  rw [State.issue_executes s i ctl m body hi h hp hh, hb]
  cases m.tagging with
  | own => rfl
  | auto =>
    dsimp only [Effect.finish]
    rw [State.modCtx_autoTag _ _ hu]

end

/-! ### Waits (02 R39) -/

theorem State.onlyContext_notIssued (s : State) : s.onlyContext s.notIssued := by
  unfold State.notIssued
  dsimp only
  split
  · exact State.onlyContext_trans (State.onlyContext_modCtx s _)
      (State.onlyContext_modCore _ _ _ (fun k => ⟨rfl, by cases k.inv <;> rfl⟩) (fun _ => rfl))
  · exact State.onlyContext_modCtx s _

theorem State.ctx_notIssued (s : State) : s.notIssued.ctx = { s.ctx with sinceHop := s.ctx.sinceHop - 1 } := by
  unfold State.notIssued
  dsimp only
  split
  · refine (State.ctx_modCore _ _ _ fun k => ?_).trans (State.ctx_modCtx s _)
    rfl
  · exact State.ctx_modCtx s _

/-- What an instruction that waits leaves of the state in which its own part ended: only the executing context has changed. -/
theorem State.onlyContext_finish_wait (u : State) (w : Wait) (n : BitVec 3) : u.onlyContext ((Effect.wait u w).finish n) :=
  State.onlyContext_trans u.onlyContext_notIssued (State.onlyContext_retire_modCtx _ _ _)

/-- What an instruction that waits leaves of its context: the wait, and the books of issue. -/
theorem State.ctx_finish_wait (u : State) (w : Wait) (n : BitVec 3) :
    ∃ a b, ((Effect.wait u w).finish n).ctx =
      { u.ctx with status := .waiting w, sinceHop := u.ctx.sinceHop - 1, nextIssue := a, waitFrom := b } := by
  unfold Effect.finish
  rw [State.ctx_retire, State.ctx_modCtx, State.ctx_notIssued]
  exact ⟨_, _, rfl⟩

/-- An own part that waits, with nothing but the books of issue changed before. -/
theorem State.issue_waits {s u : State} {i : Instr} {ctl : SCtl} {m : Meta} {body : State → Effect} {w : Wait}
    (hi : ∀ f, i ≠ .aend f) (h : s.executes ctl m.srcs m.dst m.lam) (hp : s.ctx.mode.allows m.priv = true)
    (hh : m.handler = true ∨ s.inHandler = false) (hb : body (s.atIssue (allSources ctl m)) = .wait u w)
    (hu : (s.atIssue (allSources ctl m)).onlyContext u) (hx : u.ctx = (s.atIssue (allSources ctl m)).ctx) :
    ∃ t, s.issue i ctl m body = .next t ∧ waitsFor s t w := by
  refine ⟨_, State.issue_ends hi h hp hh hb (by simp) (by simp), ?_⟩
  have ho := State.onlyContext_trans (State.onlyContext_trans (s.onlyContext_atIssue _) hu) (u.onlyContext_finish_wait w ctl.stall)
  obtain ⟨a, b, hctx⟩ := u.ctx_finish_wait w ctl.stall
  rw [hx, State.ctx_atIssue s _ h.1] at hctx
  refine ⟨ho, State.onlyContext_bytes ho, ?_, ?_, ?_, ?_, ?_⟩ <;> rw [hctx]
  rfl

/-! ### Traps (13 R289) -/

/-- TRAPCAUSE as the sum of its fields (13 R286). -/
theorem trapcause_fields (e : Bool) (m : Mode) (c : BitVec 8) :
    (if e then (0x400 : BitVec 11) else 0) + (modeCode m).setWidth 11 * 0x100 + c.setWidth 11 =
      (if e then (1 : BitVec 1) else 0) ++ modeCode m ++ c := by
  have happend : ∀ p : BitVec 3, (p ++ (0 : BitVec 8)) + c.setWidth 11 = p ++ c := fun p => by
    apply BitVec.eq_of_toNat_eq
    have hp := p.isLt
    have hc := c.isLt
    rw [BitVec.toNat_add, BitVec.toNat_append, BitVec.toNat_append, ← Nat.shiftLeft_add_eq_or_of_lt hc,
      ← Nat.shiftLeft_add_eq_or_of_lt (by decide), BitVec.toNat_setWidth, Nat.shiftLeft_eq, show (0 : BitVec 8).toNat = 0 from rfl]
    omega
  have hfields : ∀ (e : Bool) (k : BitVec 2), (if e then (0x400 : BitVec 11) else 0) + k.setWidth 11 * 0x100 =
      ((if e then (1 : BitVec 1) else 0) ++ k) ++ (0 : BitVec 8) := by decide
  rw [hfields, happend]

/-- A trap outside regions and handler contexts, taken where only the books of issue have changed, is the one of 13 R289. -/
theorem State.trapTaken_trapAt {s u : State} (hs : s.onlyContext u)
    (hx : ∃ a b, u.ctx = { s.ctx with sinceHop := a, midWait := b }) (hr : s.inRegion = false)
    (hh : s.inHandler = false) (stall : BitVec 3) (c : BitVec 8) (v : Word) (e : Option Nat) :
    s.trapTaken (u.trapAt stall c v e) e c v := by
  obtain ⟨a, b, hx⟩ := hx
  have hcur := State.onlyContext_cur hs
  have hrun : u.runCore = s.runCore := State.runCore_of hcur (by rw [hx])
  have hdie : u.runDie = s.runDie := congrArg dieOf hrun
  have hur : u.inRegion = false := by
    have := State.region_none hr
    simp only [State.inRegion, hx, this, Option.isSome_none]
  have huh : u.inHandler = false := (State.inHandler_of_cur hcur).trans hh
  have ht : u.trapAt stall c v e = (u.modCtx (fun x => x.enterTrap (u.dieAt u.runDie).fw.fvec c v e (max (u.cycle + 1) u.quietFrom))).advanceTo
      (u.cycle + 1) := by
    simp [State.trapAt, State.takeTrap, hur, huh]
  rw [ht]
  have ho : ∀ f n, s.onlyContext ((u.modCtx f).advanceTo n) := fun f n =>
    State.onlyContext_trans hs (State.onlyContext_trans (State.onlyContext_modCtx u f) (State.onlyContext_advanceTo _ n))
  refine ⟨ho _ _, State.onlyContext_bytes (ho _ _), ?_, ?_⟩
  · rw [State.ctx_advanceTo, State.ctx_modCtx, State.dieAt_of s u hs, hdie, Ctx.enterTrap, trapcause_fields, hx]
  · rw [State.ctx_advanceTo, State.ctx_modCtx, State.coreAt_advanceTo, State.vectorsDone_modCtx, State.cycle_advanceTo,
      State.cycle_modCtx, Ctx.enterTrap, State.quietFrom, hrun, hcur]
    have : resultsReady u.ctx.pend = resultsReady s.ctx.pend := by rw [hx]
    rw [this]
    dsimp only
    omega

/-- An own part that traps before any effect. -/
theorem State.issue_traps {s : State} {i : Instr} {ctl : SCtl} {m : Meta} {body : State → Effect} {c : BitVec 8} {v : Word}
    (hi : ∀ f, i ≠ .aend f) (h : s.executes ctl m.srcs m.dst m.lam) (hp : s.ctx.mode.allows m.priv = true) (hh : s.inHandler = false)
    (hb : body (s.atIssue (allSources ctl m)) = .trap (s.atIssue (allSources ctl m)) c v) :
    ∃ t, s.issue i ctl m body = .next t ∧ s.trapTaken t none c v :=
  ⟨_, State.issue_ends hi h hp (.inr hh) hb (by simp) (by simp),
    State.trapTaken_trapAt (s.onlyContext_atIssue _) ⟨_, _, State.ctx_atIssue s _ h.1⟩ h.1 hh _ _ _ _⟩

end Sys2Proof.Machine

/-! Branches, calls and pointer displacements (02 R34; 15 R339; 16 R374, R375; 17 R410, R427). -/
namespace Sys2Proof.Machine
open Sys2Proof Sys2Proof.Claims

theorem State.pc_atIssue (s : State) (srcs : List (BitVec 6)) (h : s.inRegion = false) : (s.atIssue srcs).ctx.pc = s.ctx.pc := by
  rw [State.ctx_atIssue s srcs h]

theorem State.scbmode_atIssue (s : State) (srcs : List (BitVec 6)) (h : s.inRegion = false) :
    (s.atIssue srcs).ctx.scbmode = s.ctx.scbmode := by
  rw [State.ctx_atIssue s srcs h]

/-- A register written by the own part of an instruction that executes: the value in the register, and the books of issue. -/
theorem State.ctx_ws_atIssue {s : State} (srcs : List (BitVec 6)) (l : Nat) (d : BitVec 6) (v : Word) (hr : s.inRegion = false)
    (ht : s.ctx.scbmode ≠ 1) :
    s.ctx.onlyScalars ((s.atIssue srcs).ws l d v).ctx ∧ ((s.atIssue srcs).ws l d v).ctx.s = regsAfter s.ctx.s d v ∧
      ((s.atIssue srcs).ws l d v).ctx.fcsr = s.ctx.fcsr ∧ ((s.atIssue srcs).ws l d v).ctx.pc = s.ctx.pc := by
  have ht' : (s.atIssue srcs).ctx.scbmode ≠ 1 := by rwa [State.scbmode_atIssue s srcs hr]
  rw [State.ctx_ws _ l d v ht', State.ctx_atIssue s srcs hr]
  exact ⟨rfl, rfl, rfl, rfl⟩

/-- An own part that jumps, with one register written at most, completes as `scalarsTo` says. -/
theorem State.issue_scalarsTo {s u : State} {i : Instr} {ctl : SCtl} {m : Meta} {body : State → Effect} {pc : Word} {d : BitVec 6}
    {v : Word} (hi : ∀ f, i ≠ .aend f) (h : s.executes ctl m.srcs m.dst m.lam) (hp : s.ctx.mode.allows m.priv = true)
    (hh : m.handler = true ∨ s.inHandler = false) (hb : body (s.atIssue (allSources ctl m)) = .jump u pc)
    (hu : (s.atIssue (allSources ctl m)).onlyContext u)
    (hc : s.ctx.onlyScalars u.ctx ∧ u.ctx.s = regsAfter s.ctx.s d v ∧ u.ctx.fcsr = s.ctx.fcsr ∧ u.ctx.pc = s.ctx.pc) :
    ∃ t, s.issue i ctl m body = .next t ∧ s.scalarsTo t pc d v 0 := by
  obtain ⟨hc, hs, hf, -⟩ := hc
  refine ⟨_, State.issue_jump hi h hp hh hb (State.inRegion_of_onlyScalars h.1 hc), ?_⟩
  have ho := State.onlyContext_trans (State.onlyContext_trans (s.onlyContext_atIssue _) hu)
    (u.onlyContext_retire_modCtx (fun x => { x with pc := pc }) ctl.stall)
  have hx := u.ctx_finish_jump pc ctl.stall
  refine ⟨ho, State.onlyContext_bytes ho, Ctx.onlyScalars_trans hc ?_, ?_, ?_, ?_⟩
  · unfold Ctx.onlyScalars
    rw [hx]
  · rw [hx]
  · rw [hx]; exact hs
  · rw [hx]; simpa using hf

theorem Mode.allows_program (m : Mode) : m.allows .program = true := by cases m <;> rfl

theorem br_jumps {f : BR} {s : State} (h : s.executes f.ctl [] none 1) :
    ∃ t, exec (.br f) s = .next t ∧ s.scalarsTo t (s.ctx.pc + 8 * f.off.signExtend 64) 0 0 0 := by
  have h' : s.executes f.ctl [] none 0 := ⟨h.1, h.2.1, h.2.2.1, fun hm => ⟨(h.2.2.2 hm).1, fun d hd => by simp at hd⟩⟩
  refine State.issue_scalarsTo (m := {}) (by simp) h' (Mode.allows_program _) (.inl rfl) ?_ (State.onlyContext_refl _)
    ⟨s.onlyScalars_atIssue _ h.1, ?_, ?_, s.pc_atIssue _ h.1⟩
  · rw [State.pc_atIssue s _ h.1]
    rfl
  · rw [State.ctx_atIssue s _ h.1]; rfl
  · rw [State.ctx_atIssue s _ h.1]

theorem jal_jumps {f : SI} {s : State} (h : s.executes f.ctl [] (some f.dst) 1) :
    ∃ t, exec (.jal f) s = .next t ∧ s.scalarsTo t (s.ctx.pc + 8 * f.imm.signExtend 64) f.dst (s.ctx.pc + 8) 0 := by
  refine State.issue_scalarsTo (m := { dst := some f.dst, lam := 1, tagging := .own }) (by simp) h (Mode.allows_program _) (.inl rfl) ?_
    (State.onlyContext_ws _ _ _ _) (State.ctx_ws_atIssue _ 1 f.dst _ h.1 h.2.1)
  rw [State.pc_atIssue s _ h.1, State.modCtx_setTag]
  · rfl
  · exact (Ctx.onlyScalars_region (State.ctx_ws_atIssue _ 1 f.dst _ h.1 h.2.1).1).trans (State.region_none h.1)

theorem jr_jumps {f : SI} {s : State} (h : s.executes f.ctl [f.sa] (some f.dst) 1)
    (ha : (s.reg f.sa + f.imm.signExtend 64).toNat % 8 = 0) :
    ∃ t, exec (.jr f) s = .next t ∧ s.scalarsTo t (s.reg f.sa + f.imm.signExtend 64) f.dst (s.ctx.pc + 8) 0 := by
  refine State.issue_scalarsTo (m := { srcs := [f.sa], dst := some f.dst, lam := 1, tagging := .own }) (by simp) h (Mode.allows_program _)
    (.inl rfl) ?_ (State.onlyContext_ws _ _ _ _) (State.ctx_ws_atIssue _ 1 f.dst _ h.1 h.2.1)
  have hreg : (s.atIssue (allSources f.ctl { srcs := [f.sa], dst := some f.dst, lam := 1, tagging := .own })).ctx.region = none :=
    State.region_atIssue s _ h.1
  dsimp only
  rw [State.rs_atIssue s _ h.1 h.2.1, if_neg (by simpa [SI.value] using ha), State.tagOf_none _ _ hreg, State.pc_atIssue s _ h.1]
  simp only [beq_self_eq_true, if_true]
  rw [State.modCtx_setTag]
  · rfl
  · exact (Ctx.onlyScalars_region (State.ctx_ws_atIssue _ 1 f.dst _ h.1 h.2.1).1).trans (State.region_none h.1)

theorem jr_misaligned_traps {f : SI} {s : State} (h : s.executes f.ctl [f.sa] (some f.dst) 1) (hh : s.inHandler = false)
    (ha : (s.reg f.sa + f.imm.signExtend 64).toNat % 8 ≠ 0) :
    ∃ t, exec (.jr f) s = .next t ∧ s.trapTaken t none 0x04 (s.reg f.sa + f.imm.signExtend 64) := by
  refine State.issue_traps (m := { srcs := [f.sa], dst := some f.dst, lam := 1, tagging := .own }) (by simp) h (Mode.allows_program _) hh ?_
  dsimp only
  rw [State.rs_atIssue s _ h.1 h.2.1, if_pos (by simpa [SI.value] using ha)]
  rfl

theorem subbr_jumps {f : SB} {s : State} (h : s.executes f.ctl [f.sa, f.sb] (some f.sa) 1) :
    ∃ t, exec (.subbr f) s = .next t ∧ s.scalarsTo t
      (if 0 < (s.reg f.sa - s.reg f.sb).toInt then s.ctx.pc + 8 * f.off.signExtend 64 else s.ctx.pc + 8)
      f.sa (s.reg f.sa - s.reg f.sb) 0 := by
  refine State.issue_scalarsTo (m := { srcs := [f.sa, f.sb], dst := some f.sa, lam := 1, tagging := .own }) (by simp) h
    (Mode.allows_program _) (.inl rfl) ?_ (State.onlyContext_ws _ _ _ _) (State.ctx_ws_atIssue _ 1 f.sa _ h.1 h.2.1)
  have hreg : (s.atIssue (allSources f.ctl { srcs := [f.sa, f.sb], dst := some f.sa, lam := 1, tagging := .own })).ctx.region = none :=
    State.region_atIssue s _ h.1
  dsimp only
  rw [State.rs_atIssue s _ h.1 h.2.1, State.rs_atIssue s _ h.1 h.2.1, State.tagOf_none _ _ hreg, State.tagOf_none _ _ hreg,
    State.pc_atIssue s _ h.1]
  simp only [beq_self_eq_true, Bool.and_self, if_true]
  rw [State.modCtx_setTag]
  · rfl
  · exact (Ctx.onlyScalars_region (State.ctx_ws_atIssue _ 1 f.sa _ h.1 h.2.1).1).trans (State.region_none h.1)

/-- BR, JAL, JR to an aligned target and SUBBR as their table has them. -/
theorem jumpRow_jumps {i : Instr} {s : State} {r : Jump} (hrow : jumpRow s i = some r) (h : s.executes r.ctl r.srcs r.dst 1) :
    ∃ t, exec i s = .next t ∧ s.scalarsTo t r.pc (r.dst.getD 0) r.value 0 := by
  unfold jumpRow at hrow
  split at hrow
  · cases hrow; exact br_jumps h
  · cases hrow; exact jal_jumps h
  · dsimp only at hrow
    split at hrow
    · rename_i ha
      cases hrow; exact jr_jumps h ha
    · cases hrow
  · cases hrow; exact subbr_jumps h
  · cases hrow

/-! ### PADD -/

/-- A displaced pointer keeps its tag, and an address outside 2^52 is none (17 R410). -/
theorem displaced_eq (p : Word) (disp : Int) :
    displaced p disp =
      let v : Int := (p.setWidth 52).toNat + disp
      if 0 ≤ v ∧ v < 2 ^ 52 then some (p.extractLsb' 52 12 ++ BitVec.ofInt 52 v) else none := by
  have haddr : (pointerAddr p : Int) = (p.setWidth 52).toNat := by simp [pointerAddr]
  unfold displaced
  rw [haddr]
  dsimp only
  generalize hv : ((p.setWidth 52).toNat : Int) + disp = v
  by_cases hin : 0 ≤ v ∧ v < 2 ^ 52
  · rw [if_neg (by simp; omega), if_pos hin]
    congr 1
    apply BitVec.eq_of_toNat_eq
    have hofInt : (BitVec.ofInt 52 v).toNat = v.toNat := by
      rw [BitVec.toNat_ofInt, Int.emod_eq_of_lt hin.1 (by simpa using hin.2)]
    have hlt : v.toNat < 2 ^ 52 := by omega
    have hp := p.isLt
    rw [BitVec.toNat_append, hofInt, ← Nat.shiftLeft_add_eq_or_of_lt hlt, BitVec.extractLsb'_toNat, Nat.shiftLeft_eq, bits,
      BitVec.toNat_ofNat]
    omega
  · rw [if_pos (by simp; omega), if_neg hin]

/-- PADD by a displacement: the pointer displaced, or the tag-overflow trap. -/
theorem padd_displaces {s : State} {i : Instr} {ctl : SCtl} {m : Meta} {dst : BitVec 6} {p : Word} {disp : Int}
    (hi : ∀ f, i ≠ .aend f) (h : s.executes ctl m.srcs m.dst m.lam) (hp : s.ctx.mode.allows m.priv = true) (hh : m.handler = true)
    {body : State → Effect} (hb : body (s.atIssue (allSources ctl m)) = (s.atIssue (allSources ctl m)).padd dst p disp) :
    let v : Int := (p.setWidth 52).toNat + disp
    ∃ t, s.issue i ctl m body = .next t ∧
      if 0 ≤ v ∧ v < 2 ^ 52 then s.scalarDone t dst (p.extractLsb' 52 12 ++ BitVec.ofInt 52 v) 0
      else s.inHandler = false → s.trapTaken t none 0x09 p := by
  intro v
  rw [State.padd, displaced_eq] at hb
  by_cases hin : 0 ≤ v ∧ v < 2 ^ 52
  · simp only [v] at hin
    simp only [hin, and_self, if_true] at hb
    obtain ⟨hc, hs, hf, hpc⟩ := State.ctx_ws_atIssue (allSources ctl m) 1 dst (p.extractLsb' 52 12 ++ BitVec.ofInt 52 v) h.1 h.2.1
    obtain ⟨t, ht, hd⟩ := State.issue_scalarDone s i ctl m body _ dst _ 0 hi h hp (.inl hh) hb (State.onlyContext_ws _ _ _ _) hc hpc hs
      (hf.trans BitVec.or_zero.symm)
    exact ⟨t, ht, by rw [if_pos hin]; exact hd⟩
  · simp only [v] at hin
    simp only [if_neg hin] at hb
    refine ⟨_, State.issue_ends hi h hp (.inl hh) hb (by simp) (by simp), ?_⟩
    rw [if_neg hin]
    exact fun hn => State.trapTaken_trapAt (s.onlyContext_atIssue _) ⟨_, _, State.ctx_atIssue s _ h.1⟩ h.1 hn _ _ _ _

/-- Settles O10: each jump by its own part, PADD by the displaced pointer. -/
theorem jumpsAndPadd : Obligations.JumpsAndPadd := by
  unfold Obligations.JumpsAndPadd
  refine ⟨⟨fun i s r hrow h => jumpRow_jumps hrow h, fun f s h hh ha => jr_misaligned_traps h hh ha⟩, fun s i r disp hrow h => ?_⟩
  rcases hrow with ⟨f, rfl, rfl, rfl⟩ | ⟨f, rfl, rfl, rfl⟩
  · refine padd_displaces (m := srMeta f 1) (by simp) h (Mode.allows_program _) rfl ?_
    rw [State.rs_atIssue s _ h.1 h.2.1, State.rs_atIssue s _ h.1 h.2.1]
  · refine padd_displaces (m := siMeta f 1) (by simp) h (Mode.allows_program _) rfl ?_
    rw [State.rs_atIssue s _ h.1 h.2.1, SI.value, BitVec.toInt_signExtend_of_le (by decide)]

end Sys2Proof.Machine

/-! Vector lengths: SETVL and SETVLC (02 R33, R35; 17 R422), with the addresses of scalar accesses and loads from the local window
(05 R101; 06 R111; 15 R327). -/
namespace Sys2Proof.Machine
open Sys2Proof Sys2Proof.Claims

/-! ### Addresses -/

theorem bits_eq_extractLsb' (w : Word) {hi lo n : Nat} (h : n = hi + 1 - lo) : bits w hi lo = (w.extractLsb' lo n).toNat := by
  rw [bits, BitVec.extractLsb'_toNat, h]

/-- The pointers that 05 R101 accepts, by their fields. -/
theorem pointerOk_iff (p : Word) : pointerOk p = true ↔
    if p.getLsbD 63 then (p.extractLsb' 58 5).toNat ≤ 18 ∧ p.extractLsb' 52 3 = 0 else p.extractLsb' 52 11 = 0 := by
  unfold pointerOk bitAt
  rw [bits_eq_extractLsb' p (show 5 = 62 + 1 - 58 from rfl), bits_eq_extractLsb' p (show 3 = 54 + 1 - 52 from rfl),
    bits_eq_extractLsb' p (show 11 = 62 + 1 - 52 from rfl)]
  split <;> simp [← BitVec.toNat_inj]

/-- The address of a scalar access, or the cause and value of its trap, is the model's. -/
theorem memAddr_eq (p : Word) (off : Int) (n : Nat) : memAddr p off n =
    match addressOf p off n with
    | .ok a => .ok a
    | .error (c, v) => .error (.trap c v) := by
  have haddr : (pointerAddr p : Int) = (p.setWidth 52).toNat := by simp [pointerAddr]
  unfold memAddr addressOf
  rw [haddr]
  dsimp only
  by_cases hp : pointerOk p = true
  · rw [if_neg (by simp [hp]), if_neg (not_not.2 ((pointerOk_iff p).1 hp))]
    generalize ((p.setWidth 52).toNat : Int) + off = a
    by_cases hr : a < 0 ∨ 2 ^ 52 ≤ a
    · rw [if_pos (by simpa using hr), if_pos hr]
    · rw [if_neg (by simpa using hr), if_neg hr]
      by_cases hd : n ∣ a.toNat
      · rw [if_neg (by simpa using Nat.mod_eq_zero_of_dvd hd), if_pos hd]
      · have ha : a = (a.toNat : Int) := by omega
        rw [if_pos (by simpa [Nat.dvd_iff_mod_eq_zero] using hd), if_neg hd, ha, BitVec.ofInt_natCast]
        rfl
  · rw [if_pos (by simpa using hp), if_pos fun h => hp ((pointerOk_iff p).2 h)]

theorem memAddr_of_ok {p : Word} {off : Int} {n a : Nat} (h : addressOf p off n = .ok a) : memAddr p off n = .ok a := by
  rw [memAddr_eq, h]

theorem memAddr_of_error {p v : Word} {off : Int} {n : Nat} {c : BitVec 8} (h : addressOf p off n = .error (c, v)) :
    memAddr p off n = .error (.trap c v) := by
  rw [memAddr_eq, h]

/-- The traps of an address are no uncorrectable errors (05 R101; 15 R327). -/
theorem addressOf_error_cause {p v : Word} {off : Int} {n : Nat} {c : BitVec 8} (h : addressOf p off n = .error (c, v)) : c ≠ 0x08 := by
  have h' := memAddr_of_error h
  unfold memAddr at h'
  dsimp only at h'
  split at h'
  · cases h'; decide
  · split at h'
    · cases h'; decide
    · split at h'
      · cases h'; decide
      · cases h'

/-- An access whose address traps takes that trap, with no effect before. -/
theorem orTrap_memAddr_error {s : State} {p v : Word} {off : Int} {n : Nat} {c : BitVec 8} (k : Nat → Effect)
    (h : addressOf p off n = .error (c, v)) : orTrap s (memAddr p off n) k = .trap s c v := by
  rw [memAddr_of_error h]
  exact congrArg (fun u => Effect.trap u c v) (if_neg (addressOf_error_cause h))

theorem orTrap_memAddr_ok {s : State} {p : Word} {off : Int} {n a : Nat} (k : Nat → Effect) (h : addressOf p off n = .ok a) :
    orTrap s (memAddr p off n) k = k a := by
  rw [memAddr_of_ok h]
  rfl

/-! ### The local window (06 R111) -/

theorem regionOf_window {a o : Nat} (h : windowOffset a = some o) : regionOf a = .localWindow o := by
  unfold windowOffset at h
  split at h
  · rename_i hr
    rw [← Option.some.inj h]
    unfold regionOf Config.pagedEnd Config.aliasEnd Config.fwBase Config.fwEnd Config.bellowsBase Config.bellowsEnd Config.localBase
      Config.localBytes
    iterate 7 rw [if_neg (by omega)]
    rw [if_pos (by omega)]
  · cases h

/-- A load from the local window reads the home core's local memory and changes nothing. -/
theorem State.load_window {s : State} {a o : Nat} (serve : Serve) (remote : Bool) (n : Nat) (h : windowOffset a = some o) :
    s.load serve remote a n = .ok (readN s.lmem (localCell s o) n, s) := by
  unfold State.load
  rw [regionOf_window h]
  rfl

theorem State.pathC_ok {α : Type} {s : State} {access : Bool → Except Stop α} (k : α → Effect) {x : α}
    (h : ∀ remote, access remote = .ok x) : s.pathC access k = k x := by
  unfold State.pathC
  dsimp only
  rw [h]

/-! ### Grants -/

/-- The executing context after a grant of `n` elements whose count goes to a scalar register (02 R33). -/
def vlGranted (s t : State) (dst : BitVec 6) (n : Nat) : Prop :=
  ({ s.ctx with vl := n, vstart := 0 }).onlyScalars t.ctx ∧ t.ctx.s = regsAfter s.ctx.s dst (BitVec.ofNat 64 n) ∧
    t.ctx.fcsr = s.ctx.fcsr ∧ t.ctx.pc = s.ctx.pc + 8

theorem State.ctx_grantVl (s : State) (n : Nat) : (s.grantVl n).ctx = { s.ctx with vl := n, vstart := 0 } := State.ctx_modCtx s _

theorem State.onlyContext_drain_grantVl (s : State) (n : Nat) : s.onlyContext (s.drainVector.grantVl n) :=
  State.onlyContext_trans s.drainVector_frame.1 (State.onlyContext_modCtx _ _)

theorem State.vqueue_retire (s : State) (n : BitVec 3) (c : CoreId) : ((s.retire n).coreAt c).vqueue = (s.coreAt c).vqueue := by
  unfold State.retire
  rw [State.coreAt_advanceTo, State.vqueue_modCtx]

theorem State.vqueue_ws (s : State) (l : Nat) (d : BitVec 6) (v : Word) (c : CoreId) :
    ((s.ws l d v).coreAt c).vqueue = (s.coreAt c).vqueue := by
  unfold State.ws
  split
  · rfl
  · exact s.vqueue_modCtx _ c

/-- A grant made by an own part that has changed nothing else but the books of issue, with its count in a register. -/
theorem State.issue_grants {s u w : State} {i : Instr} {ctl : SCtl} {m : Meta} {body : State → Effect} {dst : BitVec 6} {n : Nat}
    (hi : ∀ f, i ≠ .aend f) (h : s.executes ctl m.srcs m.dst m.lam) (hp : s.ctx.mode.allows m.priv = true)
    (hh : m.handler = true ∨ s.inHandler = false) (hb : body (s.atIssue (allSources ctl m)) = .next w)
    (hu : u.ctx = (s.atIssue (allSources ctl m)).ctx)
    (hw : ∃ q, w.ctx = { (u.grantVl n).ctx with s := regsAfter (u.grantVl n).ctx.s dst (BitVec.ofNat 64 n), pend := q }) :
    ∃ t, s.issue i ctl m body = .next t ∧ vlGranted s t dst n ∧ w.onlyContext t ∧ ∀ c, (t.coreAt c).vqueue = (w.coreAt c).vqueue := by
  obtain ⟨q, hw⟩ := hw
  rw [State.ctx_grantVl, hu, State.ctx_atIssue s _ h.1] at hw
  have hreg : w.inRegion = false := by
    rw [State.inRegion, hw]
    exact h.1
  refine ⟨_, State.issue_next s i ctl m body w hi h hp hh hb (.inr hreg), ?_, w.onlyContext_finish_next _, fun c => ?_⟩
  · have hx := w.ctx_finish_next ctl.stall
    rw [hw] at hx
    refine ⟨?_, ?_, ?_, ?_⟩ <;> rw [hx]
    rfl
  · rw [State.vqueue_retire, State.vqueue_modCtx]

/-- SETVL. -/
theorem setvl_grants {f : SI} {s : State} (h : s.executes f.ctl [f.sa] (some f.dst) 1) :
    let n := min (s.reg f.sa).toNat (min s.ctx.vlcap 4096 / WellFormed.width f.imm.toNat)
    ∃ t, exec (.setvl f) s = .next t ∧ s.onlyContext t ∧ vlGranted s t f.dst n ∧
      (t.coreAt t.runCore).vqueue.any (fun e => e.ctx == s.cur) = false := by
  intro n
  let m : Meta := { srcs := [f.sa], dst := some f.dst, lam := 1, forbid := some 3 }
  obtain ⟨a, ha⟩ : ∃ a, a = s.atIssue (allSources f.ctl m) := ⟨_, rfl⟩
  have hax : a.ctx = _ := (congrArg State.ctx ha).trans (State.ctx_atIssue s _ h.1)
  have hws := State.ctx_ws (a.drainVector.grantVl n) 1 f.dst (BitVec.ofNat 64 n)
    (by rw [State.ctx_grantVl, State.ctx_drainVector, hax]; exact h.2.1)
  obtain ⟨t, ht, hdone, ho, hq⟩ := State.issue_grants (i := .setvl f) (m := m) (u := a.drainVector) (dst := f.dst) (n := n)
    (body := fun t => .next ((t.drainVector.grantVl (min (t.rs f.sa).toNat (t.ctx.vlmax / WellFormed.width f.imm.toNat))).ws 1 f.dst
        (BitVec.ofNat 64 (min (t.rs f.sa).toNat (t.ctx.vlmax / WellFormed.width f.imm.toNat)))))
    (by simp) h (Mode.allows_program _) (.inl rfl)
    (by rw [← ha, show a.rs f.sa = s.reg f.sa by rw [ha]; exact State.rs_atIssue s _ h.1 h.2.1 _, hax]; rfl)
    (by rw [← ha]; exact a.ctx_drainVector) ⟨_, hws⟩
  refine ⟨t, ht, ?_, hdone, ?_⟩
  · rw [ha] at ho
    exact State.onlyContext_trans (s.onlyContext_atIssue _) (State.onlyContext_trans (State.onlyContext_drain_grantVl _ n)
      (State.onlyContext_trans (State.onlyContext_ws _ _ _ _) ho))
  · have hcur : a.cur = s.cur := (congrArg State.cur ha).trans (s.cur_atIssue _)
    have hrun : t.runCore = a.runCore := by
      have hct : t.cur = a.cur := (State.onlyContext_cur ho).trans
        (State.onlyContext_cur (State.onlyContext_trans (a.onlyContext_drain_grantVl n) (State.onlyContext_ws _ _ _ _)))
      refine State.runCore_of hct ((Ctx.onlyScalars_hopped hdone.1).trans ?_)
      rw [hax]
    rw [hrun, hq, State.vqueue_ws, State.grantVl, State.vqueue_modCtx, ← hcur]
    exact a.vqueue_drainVector

/-! ### SETVLC -/

@[simp] theorem State.lmem_atIssue (s : State) (srcs : List (BitVec 6)) : (s.atIssue srcs).lmem = s.lmem := by simp [State.atIssue]

/-- A grant that has changed no other context and no byte of memory. -/
def vlGrantedAlone (s t : State) (dst : BitVec 6) (n : Nat) : Prop :=
  ({ s.ctx with vl := n, vstart := 0 }).onlyScalars t.ctx ∧ t.ctx.s = regsAfter s.ctx.s dst (BitVec.ofNat 64 n) ∧
    t.ctx.fcsr = s.ctx.fcsr ∧ t.ctx.pc = s.ctx.pc + 8 ∧ othersKept s t ∧ s.sameBytes t

/-- What issue must know of SETVLC. -/
def setvlcMeta (f : SQ) : Meta := { srcs := [f.sa, f.sb, f.sc], dst := some f.dst, handler := false, forbid := some 3 }

/-- The state in which SETVLC's own part runs. -/
def setvlcStart (f : SQ) (s : State) : State := s.atIssue (allSources f.ctl (setvlcMeta f))

/-- A grant of SETVLC from a state in which only caches and the books of issue have changed. -/
theorem setvlc_grants {f : SQ} {s u : State} {n : Nat} {body : State → Effect}
    (h : s.executes f.ctl [f.sa, f.sb, f.sc] (some f.dst) 0) (hh : s.inHandler = false) (hu : u.ctx = (setvlcStart f s).ctx) (hc : u.cur = s.cur)
    (hk : othersKept s u) (hbytes : s.sameBytes u) (hb : execSetvlc f s = s.issue (.setvlc f) f.ctl (setvlcMeta f) body)
    (hn : body (setvlcStart f s) = .next ((u.drainVector.grantVl n).wi f.dst (BitVec.ofNat 64 n))) :
    ∃ t, exec (.setvlc f) s = .next t ∧ vlGrantedAlone s t f.dst n := by
  obtain ⟨t, ht, ⟨hctx, hs, hf, hpc⟩, ho, -⟩ := State.issue_grants (i := .setvlc f) (u := u.drainVector) (dst := f.dst) (n := n)
    (by simp) h (Mode.allows_program _) (.inr hh) hn (u.ctx_drainVector.trans hu) ⟨_, State.ctx_wi _ f.dst _⟩
  have hut := State.onlyContext_trans (u.onlyContext_drain_grantVl n) (State.onlyContext_trans (State.onlyContext_wi _ _ _) ho)
  exact ⟨t, hb.trans ht, hctx, hs, hf, hpc, othersKept_trans hk hc (State.onlyContext_othersKept hut),
    State.sameBytes_trans hbytes (State.onlyContext_bytes hut)⟩

theorem setvlc_grants_nothing {f : SQ} {s : State} (h : s.executes f.ctl [f.sa, f.sb, f.sc] (some f.dst) 0) (hh : s.inHandler = false)
    (h0 : (s.reg f.sa).toNat = 0) :
    ∃ t, exec (.setvlc f) s = .next t ∧ vlGrantedAlone s t f.dst 0 := by
  have ho := s.onlyContext_atIssue (allSources f.ctl (setvlcMeta f))
  refine setvlc_grants h hh (u := setvlcStart f s) rfl (s.cur_atIssue _) (State.onlyContext_othersKept ho) (State.onlyContext_bytes ho) rfl ?_
  simp [setvlcStart, State.rs_atIssue s _ h.1 h.2.1, h0, chainGrant]

theorem setvlc_traps {f : SQ} {s : State} {c : BitVec 8} {v : Word} (h : s.executes f.ctl [f.sa, f.sb, f.sc] (some f.dst) 0)
    (hh : s.inHandler = false) (h0 : (s.reg f.sa).toNat ≠ 0) (ha : addressOf (s.reg f.sb) 0 8 = .error (c, v)) :
    ∃ t, exec (.setvlc f) s = .next t ∧ s.trapTaken t none c v := by
  refine State.issue_traps (m := setvlcMeta f) (by simp) h (Mode.allows_program _) hh ?_
  simp [State.rs_atIssue s _ h.1 h.2.1, h0, orTrap_memAddr_error _ ha]

theorem setvlc_reads {f : SQ} {s : State} {a o : Nat} (h : s.executes f.ctl [f.sa, f.sb, f.sc] (some f.dst) 0)
    (hh : s.inHandler = false) (h0 : (s.reg f.sa).toNat ≠ 0) (ha : addressOf (s.reg f.sb) 0 8 = .ok a) (ho : windowOffset a = some o) :
    let avail := (BitVec.ofNat 64 (readN s.lmem (localCell s o) 8) - s.reg f.sc).toInt
    ∃ t, exec (.setvlc f) s = .next t ∧
      if avail ≤ 0 then
        t.ctx.status = .waiting (.highWater a (chainScope f.fn) (s.reg f.sc)) ∧ s.ctx.onlyScalars { t.ctx with status := s.ctx.status } ∧
          t.ctx.s = s.ctx.s ∧ t.ctx.pc = s.ctx.pc ∧ othersKept s t ∧ s.sameBytes t
      else vlGrantedAlone s t f.dst (min (min (s.reg f.sa).toNat (min s.ctx.vlcap 4096 / WellFormed.width f.ty.toNat)) avail.toNat) := by
  intro avail
  obtain ⟨b, hb⟩ : ∃ b, b = setvlcStart f s := ⟨_, rfl⟩
  obtain ⟨u, hu⟩ : ∃ u, u = b.acquireSteps b.runCore (chainScope f.fn) := ⟨_, rfl⟩
  have hsb : s.onlyContext b := by rw [hb]; exact s.onlyContext_atIssue _
  have hbx : b.ctx = { s.ctx with sinceHop := s.ctx.sinceHop + 1, midWait := none } := by rw [hb]; exact State.ctx_atIssue s _ h.1
  have hux : u.ctx = b.ctx := by rw [hu]; exact b.ctx_acquireSteps _ _
  have hcur : u.cur = s.cur := by rw [hu, State.cur_acquireSteps, State.onlyContext_cur hsb]
  have hkept : othersKept s u := othersKept_trans (State.onlyContext_othersKept hsb) (State.onlyContext_cur hsb)
    (by rw [hu]; exact othersKept_of_ctxAt fun d x => b.ctxAt_acquireSteps _ d _ x)
  have hbytes : s.sameBytes u := State.sameBytes_trans (State.onlyContext_bytes hsb) (by rw [hu]; exact b.sameBytes_acquireSteps _ _)
  obtain ⟨body, hexec, hpart⟩ : ∃ body, execSetvlc f s = s.issue (.setvlc f) f.ctl (setvlcMeta f) body ∧
      body b = if avail ≤ 0 then .wait u (.highWater a (chainScope f.fn) (s.reg f.sc))
        else .next ((u.drainVector.grantVl (chainGrant u.drainVector.ctx f.ty (s.reg f.sa).toNat avail)).wi f.dst
          (BitVec.ofNat 64 (chainGrant u.drainVector.ctx f.ty (s.reg f.sa).toNat avail))) := by
    have hrs : ∀ r, b.rs r = s.reg r := fun r => by rw [hb]; exact State.rs_atIssue s _ h.1 h.2.1 r
    have hread : readN b.lmem (localCell b o) 8 = readN s.lmem (localCell s o) 8 := by
      rw [localCell, localCell, State.onlyContext_cur hsb, hb, setvlcStart, State.lmem_atIssue]
    refine ⟨_, rfl, ?_⟩
    simp only [hrs, orTrap_memAddr_ok _ ha, beq_iff_eq, if_neg h0]
    rw [State.pathC_ok _ fun remote => State.load_window _ remote 8 ho, hread, ← hu]
  by_cases hav : avail ≤ 0
  · rw [if_pos hav] at hpart
    obtain ⟨x, y, hx⟩ := u.ctx_finish_wait (.highWater a (chainScope f.fn) (s.reg f.sc)) f.ctl.stall
    rw [hux, hbx] at hx
    have hwait := u.onlyContext_finish_wait (.highWater a (chainScope f.fn) (s.reg f.sc)) f.ctl.stall
    refine ⟨_, hexec.trans (State.issue_ends (m := setvlcMeta f) (by simp) h (Mode.allows_program _) (.inr hh)
      ((congrArg body hb.symm).trans hpart) (by simp) (by simp)), ?_⟩
    rw [if_pos hav]
    refine ⟨by rw [hx], by rw [hx]; rfl, by rw [hx], by rw [hx], othersKept_trans hkept hcur (State.onlyContext_othersKept hwait),
      State.sameBytes_trans hbytes (State.onlyContext_bytes hwait)⟩
  · rw [if_neg hav] at hpart
    simp only [if_neg hav]
    have hgrant : chainGrant u.drainVector.ctx f.ty (s.reg f.sa).toNat avail =
        min (min (s.reg f.sa).toNat (min s.ctx.vlcap 4096 / WellFormed.width f.ty.toNat)) avail.toNat := by
      rw [chainGrant, State.ctx_drainVector, hux, hbx]
      rfl
    rw [hgrant] at hpart
    exact setvlc_grants h hh (hux.trans (congrArg State.ctx hb)) hcur hkept hbytes hexec ((congrArg body hb.symm).trans hpart)

/-- The wait of a SETVLC ends where the word read again shows more than was taken (02 R35). -/
theorem setvlcReread_rereads {c : CoreId} {x : CtxId} {s : State} {a o : Nat} {scope taken : Word}
    (hw : (s.ctxAt c x).status = .waiting (.highWater a scope taken)) (ho : windowOffset a = some o) :
    exec (.setvlcReread c x) s = .next (if 0 < (BitVec.ofNat 64 (readN s.lmem (localKey c o) 8) - taken).toInt then
      s.modCtxAt c x (fun y => { y with status := .live, waitFrom := s.cycle }) else s) := by
  have hmet : s.conditionMet c x (.highWater a scope taken) =
      decide (0 < (BitVec.ofNat 64 (readN s.lmem (localKey c o) 8) - taken).toInt) := by
    change s.highWaterOver (c, x) a scope taken = _
    unfold State.highWaterOver
    dsimp only
    rw [State.load_window _ _ _ ho]
    rfl
  change execSetvlcReread c x s = _
  unfold execSetvlcReread State.wake
  simp only [hw, hmet, decide_eq_true_eq]

/-- Settles O11: SETVL by its own part, SETVLC by the count read from the local window. -/
theorem vectorLengths : Obligations.VectorLengths := by
  unfold Obligations.VectorLengths
  refine ⟨fun f s _ h => ?_, fun f s h hh => ⟨fun h0 => setvlc_grants_nothing h hh h0, fun c v h0 ha => setvlc_traps h hh h0 ha,
    fun a o h0 ha ho => setvlc_reads h hh h0 ha ho⟩, fun c x s a o scope taken hw ho => setvlcReread_rereads hw ho⟩
  obtain ⟨t, ht, ho, ⟨hctx, hs, hf, hpc⟩, hq⟩ := setvl_grants h
  refine ⟨t, ht, ho, State.onlyContext_bytes ho, ?_, ?_, hs, hq, hctx, hf, hpc⟩ <;> rw [hctx]

end Sys2Proof.Machine

/-! The vector checks (02 R32; 03 R60; 18 R445, R448): a VLDX whose MODE is no encoding. -/
namespace Sys2Proof.Machine
open Sys2Proof Sys2Proof.Claims

/-- A trap tells its cause in TRAPCAUSE. -/
theorem State.trapTaken_cause {s t : State} {e : Option Nat} {c : BitVec 8} {v : Word} (h : s.trapTaken t e c v) :
    t.ctx.trapcause.setWidth 8 = c := by
  obtain ⟨-, -, hx, -⟩ := h
  rw [hx]
  rw [BitVec.setWidth_append, dif_pos (Nat.le_refl 8), BitVec.setWidth_eq]

/-- VLDX with an explicit TYPE through a pointer that 05 R101 does not accept, its width having passed the check of 02 R32. -/
theorem vldx_badPointer_traps {f : VM} {s : State} (h : executesV s f.ctl [f.base]) (hh : s.inHandler = false) (hty : f.ctl.ty ≠ 31)
    (hfit : s.ctx.fitsAccess .indexed f f.ctl.ty.toNat = true) (hp : pointerOk (s.reg f.base) = false) :
    ∃ t, exec (.vldx f) s = .next t ∧ s.trapTaken t none 0x05 (s.reg f.base) := by
  refine State.issue_traps (m := { srcs := [f.base], forbid := some 3, tagging := .own }) (by simp) h (Mode.allows_program _) hh ?_
  generalize ha : s.atIssue (allSources ⟨f.ctl.stall, none⟩ { srcs := [f.base], forbid := some 3, tagging := .own }) = a
  have hrs : a.rs f.base = s.reg f.base := by rw [← ha]; exact State.rs_atIssue s _ h.1 h.2.1 _
  have hfit' : a.ctx.fitsAccess .indexed f f.ctl.ty.toNat = true := by rw [← ha, State.ctx_atIssue s _ h.1]; exact hfit
  have hformat : a.accessFormat (.vldx f) .indexed f none = none := by
    unfold State.accessFormat
    dsimp only
    rw [if_pos (by simpa using hty), if_pos hfit']
  unfold State.vectorAccess
  rw [hformat, hrs]
  simp [hp]

/-! ### The state after module reset -/

theorem coreAt_reset (c : CoreId) : State.reset.coreAt c = Core.reset := by
  unfold State.coreAt State.reset
  exact Vector.getElem_replicate _

theorem ctxAt_reset (c : CoreId) (x : CtxId) : State.reset.ctxAt c x = Ctx.reset := by
  unfold State.ctxAt
  rw [coreAt_reset]
  exact Vector.getElem_replicate _

/-! ### An index width that no encoding has -/

/-- VLDX of 32-bit elements with MODE 4, whose low two bits say 32-bit indices: no encoding has it (18 R448). -/
def strayIndexLoad : VM := ⟨⟨0, 15, false, false, 4, 0⟩, 4, 1, 5, 0, 4⟩

/-- VL = 100 of VLCAP 4,096, and in s1 a pointer with a reserved bit set. -/
def hundredElements : State := State.reset.modCtx (fun x => { x with vl := 100, vlcap := 4096, s := x.s.set 1 0x4000000000000000 })

theorem ctx_hundredElements : hundredElements.ctx = { Ctx.reset with vl := 100, vlcap := 4096, s := Ctx.reset.s.set 1 0x4000000000000000 } := by
  rw [hundredElements, State.ctx_modCtx, State.ctx_eq_ctxAt, ctxAt_reset]

theorem hundredElements_executes : executesV hundredElements strayIndexLoad.ctl [strayIndexLoad.base] := by
  refine ⟨?_, ?_, fun g hg => by simp at hg, fun hm => ?_⟩
  · rw [State.inRegion, ctx_hundredElements]; rfl
  · rw [ctx_hundredElements]; decide
  · rw [ctx_hundredElements] at hm; exact absurd hm (by decide)

/-- Refutes O38: its fourth clause counts an index of 64 bits for every MODE from 2 up, and is stated of instructions that no word
encodes too. In a VLDX with MODE 4 the model reads the low two bits of MODE, an index of 32 bits: 100 elements fit, and the bad
pointer's trap 0x05 is taken, not the illegal-instruction trap 0x01 that the clause asks for. -/
theorem not_vectorChecks : ¬ Obligations.VectorChecks := by
  unfold Obligations.VectorChecks
  rintro ⟨-, -, -, hchecks, -⟩
  have hreg : hundredElements.reg strayIndexLoad.base = 0x4000000000000000 := by
    rw [State.reg, ctx_hundredElements]; rfl
  have hh : hundredElements.inHandler = false := by rw [State.inHandler, hundredElements, State.cur_modCtx]; rfl
  obtain ⟨t, ht, htrap⟩ := vldx_badPointer_traps (f := strayIndexLoad) hundredElements_executes hh (by decide)
    (by rw [ctx_hundredElements]; decide) (by rw [hreg]; decide)
  obtain ⟨u, hu, hillegal⟩ := (hchecks (.vldx strayIndexLoad) hundredElements .indexed strayIndexLoad rfl hh hundredElements_executes).1
    (.inl (by decide)) (by rw [ctx_hundredElements]; decide)
  have htu : t = u := Host.Outcome.next.inj (ht.symm.trans hu)
  subst htu
  exact absurd ((State.trapTaken_cause htrap).symm.trans (State.trapTaken_cause hillegal)) (by decide)

end Sys2Proof.Machine

/-! Helpers, the ends of contexts and invocations, WFE and the ends of waits (02 R24 to R28, R39; 08 R173, R178; 16 R368 to R370, R372;
18 R454). -/
namespace Sys2Proof.Machine
open Sys2Proof Sys2Proof.Claims

/-! ### An instruction that completes -/

section
variable {s w : State} {i : Instr} {ctl : SCtl} {m : Meta} {body : State → Effect}
  (hi : ∀ f, i ≠ .aend f) (h : s.executes ctl m.srcs m.dst m.lam) (hp : s.ctx.mode.allows m.priv = true)
  (hh : m.handler = true ∨ s.inHandler = false)
include hi h hp hh

/-- An own part that completes: its state with the pc past the instruction and the books of issue. -/
theorem State.issue_completes (hb : body (s.atIssue (allSources ctl m)) = .next w) (hw : w.inRegion = false) :
    ∃ t, s.issue i ctl m body = .next t ∧ w.onlyContext t ∧
      ∃ n, t.ctx = { w.ctx with pc := w.ctx.pc + 8, nextIssue := n, waitFrom := n } :=
  ⟨_, State.issue_next s i ctl m body w hi h hp hh hb (.inr hw), w.onlyContext_finish_next _, _, w.ctx_finish_next _⟩

/-- An own part that leaves its context as it was. -/
theorem State.issue_movesOn (hb : body (s.atIssue (allSources ctl m)) = .next w) (hw : w.ctx = (s.atIssue (allSources ctl m)).ctx) :
    ∃ t, s.issue i ctl m body = .next t ∧ contextMovedOn s t ∧ w.onlyContext t := by
  have hw' := hw.trans (State.ctx_atIssue s _ h.1)
  obtain ⟨t, ht, ho, n, hx⟩ := State.issue_completes hi h hp hh hb (by rw [State.inRegion, hw']; exact h.1)
  rw [hw'] at hx
  refine ⟨t, ht, ⟨?_, ?_, ?_, ?_⟩, ho⟩ <;> rw [hx]
  rfl

/-- An own part that writes one register of its context. -/
theorem State.issue_writes {d : BitVec 6} {v : Word} (hb : body (s.atIssue (allSources ctl m)) = .next w)
    (hw : ∃ q, w.ctx = { (s.atIssue (allSources ctl m)).ctx with
      s := regsAfter (s.atIssue (allSources ctl m)).ctx.s d v, pend := q }) :
    ∃ t, s.issue i ctl m body = .next t ∧ contextWrote s t d v ∧ w.onlyContext t := by
  obtain ⟨q, hw⟩ := hw
  rw [State.ctx_atIssue s _ h.1] at hw
  obtain ⟨t, ht, ho, n, hx⟩ := State.issue_completes hi h hp hh hb (by rw [State.inRegion, hw]; exact h.1)
  rw [hw] at hx
  refine ⟨t, ht, ⟨?_, ?_, ?_, ?_⟩, ho⟩ <;> rw [hx]
  rfl

end

/-! ### The other contexts of a core -/

theorem othersKeptBut_of_othersKept {s t : State} (h : CtxId) (hk : othersKept s t) : othersKeptBut s t h := fun c x hc _ => hk c x hc

theorem State.onlyContext_ctxAt {s t : State} (h : s.onlyContext t) {c : CoreId} {x : CtxId} (hx : (c, x) ≠ s.cur) :
    t.ctxAt c x = s.ctxAt c x := h.2.2 c x hx

/-- A context that does not execute is free as before. -/
theorem State.isFree_of {s t : State} (h : s.onlyContext t) {c : CoreId} {x : CtxId} (hx : (c, x) ≠ s.cur) : t.isFree c x = s.isFree c x := by
  have hw : t.writesDone c x = s.writesDone c x := by
    unfold State.writesDone
    rw [h.1]
  unfold State.isFree
  rw [State.onlyContext_ctxAt h hx, hw]

theorem Core.helperActive_of {a b : Core} (h : ∀ x : CtxId, x ≠ 0 → b.ctxs[x] = a.ctxs[x]) : b.helperActive = a.helperActive := by
  unfold Core.helperActive
  rw [Bool.eq_iff_iff, List.any_eq_true, List.any_eq_true]
  refine exists_congr fun i => and_congr_right fun hi => ?_
  have hi' := List.mem_range.1 hi
  rw [h _ fun e => by have := congrArg Fin.val e; simp only [Fin.ofNat, Fin.val_zero] at this; omega]

theorem State.placed_of {s t : State} (h : s.onlyContext t) (c : CoreId) : (t.coreAt c).placed = (s.coreAt c).placed :=
  Core.sameShared_placed (h.2.1 c)

theorem State.helperQuota_of {s t : State} (h : s.onlyContext t) : t.helperQuota = s.helperQuota := by
  unfold State.helperQuota
  rw [State.onlyContext_cur h, State.placed_of h]

theorem State.isControl_of {s t : State} (hc : t.cur = s.cur) (hh : t.ctx.hopped = s.ctx.hopped) : t.isControl = s.isControl := by
  unfold State.isControl
  rw [hc, hh]

theorem State.cur_of_isControl {s : State} (h : s.isControl = true) : s.cur.2 = 0 := by
  have : s.cur.2.val = 0 := by
    have := (Bool.and_eq_true_iff.1 h).1
    simpa using this
  exact Fin.ext this

/-! ### The end of a context (02 R24, R26) -/

/-- A context that has ended. -/
def Ctx.ended (y : Ctx) : Ctx :=
  { y.abortRegion 8 0 with
    status := .ended, event := false, outMsg := none, midWait := none, killed := false, travel := none
    pend := [], notice := none, noticed := false, vlcapTrap := none }

theorem State.checkGroup_eq (s : State) (c : CoreId) : ∃ turns, s.checkGroup c = { s with agenda := turns } := by
  unfold State.checkGroup
  split
  · split
    · exact ⟨_, rfl⟩
    · exact ⟨s.agenda, rfl⟩
  · exact ⟨s.agenda, rfl⟩

theorem State.dropLease_eq (s : State) (c : CoreId) (x : CtxId) :
    ∃ dies turns, s.dropLease c x = { s with dies := dies, agenda := turns } := by
  unfold State.dropLease
  dsimp only
  split
  · exact ⟨s.dies, s.agenda, rfl⟩
  · split
    · exact ⟨_, _, rfl⟩
    · exact ⟨_, s.agenda, rfl⟩

theorem State.foldl_modDie_eq {α : Type} (d : α → DieId) (f : α → Die → Die) (l : List α) (s : State) :
    ∃ dies, l.foldl (fun t h => t.modDie (d h) (f h)) s = { s with dies := dies } := by
  induction l generalizing s with
  | nil => exact ⟨s.dies, rfl⟩
  | cons h l ih =>
    obtain ⟨dies, e⟩ := ih (s.modDie (d h) (f h))
    exact ⟨dies, e⟩

/-- The end of a context changes it, the dies and the turns that have come up. -/
theorem State.endContext_eq (s : State) (c : CoreId) (x : CtxId) :
    ∃ dies turns u, u = { s.modCtxAt c x Ctx.ended with dies := dies, agenda := turns } ∧ s.endContext c x = u.checkGroup c := by
  obtain ⟨dies, turns, hl⟩ := s.dropLease_eq c x
  unfold State.endContext State.freeHopSlot
  dsimp only
  rw [hl]
  obtain ⟨dies', hs⟩ := State.foldl_modDie_eq dieOf (fun _ d => { d with hopSlots := d.hopSlots.filter (fun p => p != (c, x)) })
    ((({ s with dies := dies, agenda := turns } : State).ctxAt c x).hopped.toList ++
      (({ s with dies := dies, agenda := turns } : State).ctxAt c x).travel.toList) { s with dies := dies, agenda := turns }
  rw [hs]
  exact ⟨dies', turns, _, rfl, rfl⟩

theorem State.endContext_frame (s : State) (c : CoreId) (x : CtxId) :
    ∃ dies turns, s.endContext c x = { s.modCtxAt c x Ctx.ended with dies := dies, agenda := turns } := by
  obtain ⟨dies, turns, u, hu, he⟩ := s.endContext_eq c x
  obtain ⟨turns', hg⟩ := u.checkGroup_eq c
  exact ⟨dies, turns', by rw [he, hg, hu]⟩

theorem Ctx.ended_hasEnded (y : Ctx) : y.ended.status = .ended ∧ y.ended.event = false ∧ y.ended.region = none := by
  refine ⟨rfl, rfl, ?_⟩
  unfold Ctx.ended Ctx.abortRegion
  cases h : y.region <;> simp [h]

theorem State.ctxAt_endContext (s : State) (c d : CoreId) (x y : CtxId) :
    (s.endContext c x).ctxAt d y = if d = c ∧ y = x then (s.ctxAt c x).ended else s.ctxAt d y := by
  obtain ⟨dies, turns, h⟩ := s.endContext_frame c x
  rw [h]
  exact s.ctxAt_modCtxAt c d x y Ctx.ended

theorem State.cur_endContext (s : State) (c : CoreId) (x : CtxId) : (s.endContext c x).cur = s.cur := by
  obtain ⟨dies, turns, h⟩ := s.endContext_frame c x
  rw [h]
  rfl

theorem State.sameBytes_endContext (s : State) (c : CoreId) (x : CtxId) : s.sameBytes (s.endContext c x) := by
  obtain ⟨dies, turns, h⟩ := s.endContext_frame c x
  rw [h]
  exact fun _ => ⟨rfl, rfl, rfl⟩

theorem State.placed_endContext (s : State) (c d : CoreId) (x : CtxId) : ((s.endContext c x).coreAt d).placed = (s.coreAt d).placed := by
  obtain ⟨dies, turns, h⟩ := s.endContext_frame c x
  rw [h]
  change ((s.modCtxAt c x Ctx.ended).coreAt d).placed = _
  unfold State.modCtxAt
  rw [State.coreAt_modCore]
  split
  · rename_i e; rw [e]
  · rfl

/-- Where the last context of its group ends, the group's completion comes up (02 R28; 12 R283). -/
theorem State.endContext_completes (s : State) (c : CoreId) (x : CtxId) {p : Placement} (hp : (s.coreAt c).placed = some p)
    (hall : ∀ k ∈ (s.endContext c x).coresOf p.launch p.group, ((s.endContext c x).coreAt k).allEnded = true) :
    .event (.groupCompletion p.launch p.group) ∈ (s.endContext c x).agenda := by
  have hpt : ((s.endContext c x).coreAt c).placed = some p := (s.placed_endContext c c x).trans hp
  obtain ⟨dies, turns, u, -, he⟩ := s.endContext_eq c x
  rw [he] at hall hpt ⊢
  obtain ⟨turns', hg⟩ := u.checkGroup_eq c
  have hpu : (u.coreAt c).placed = some p := by rw [hg] at hpt; exact hpt
  have hallu : (u.coresOf p.launch p.group).all (fun k => (u.coreAt k).allEnded) = true := by
    rw [hg] at hall
    exact List.all_eq_true.2 hall
  unfold State.checkGroup
  rw [hpu]
  dsimp only
  rw [if_pos hallu]
  simp [State.schedule]

end Sys2Proof.Machine

/-! HSTART (02 R26; 16 R372). -/
namespace Sys2Proof.Machine
open Sys2Proof Sys2Proof.Claims

/-- The helper of a number from 1 to 10 (02 R26). -/
theorem helperNumber_eq (w : Word) :
    helperNumber w = if w.toNat = 0 ∨ 10 < w.toNat then none else some (Fin.ofNat 12 w.toNat) := by
  unfold helperNumber
  by_cases hn : w.toNat = 0 ∨ 10 < w.toNat
  · rw [if_pos hn, if_neg (by simp; omega)]
  · rw [if_neg hn, if_pos (by simp; omega)]

/-- The lowest free helper is the one that HSTART starts (02 R26). -/
theorem State.freeHelper_eq_some {s : State} {h : CtxId} (h1 : 1 ≤ h.val) (hq : h.val ≤ s.helperQuota) (hf : s.isFree s.cur.1 h = true)
    (hlow : ∀ g : CtxId, 1 ≤ g.val → g < h → s.isFree s.cur.1 g = false) : s.freeHelper = some h := by
  have hnum : Fin.ofNat 12 (h.val - 1 + 1) = h := Fin.ext (by have := h.isLt; simp only [Fin.ofNat]; omega)
  unfold State.freeHelper
  have hfind : (List.range s.helperQuota).find? ((fun h => s.isFree s.cur.1 h) ∘ fun i => Fin.ofNat 12 (i + 1)) = some (h.val - 1) := by
    refine List.find?_range_eq_some.2 ⟨?_, List.mem_range.2 (by omega), fun j hj => ?_⟩
    · rw [Function.comp_apply, hnum]
      exact hf
    · have hv : (Fin.ofNat 12 (j + 1) : CtxId).val = j + 1 := Nat.mod_eq_of_lt (by have := h.isLt; omega)
      rw [Function.comp_apply, hlow (Fin.ofNat 12 (j + 1)) (by omega) (Fin.lt_def.2 (by omega))]
      rfl
  rw [List.find?_map, hfind]
  exact congrArg some hnum

theorem State.freeHelper_eq_none {s : State} (h10 : s.helperQuota ≤ 10)
    (hall : ∀ h : CtxId, 1 ≤ h.val → h.val ≤ s.helperQuota → s.isFree s.cur.1 h = false) : s.freeHelper = none := by
  unfold State.freeHelper
  rw [List.find?_eq_none]
  intro x hx
  obtain ⟨i, hi, rfl⟩ := List.mem_map.1 hx
  have hi := List.mem_range.1 hi
  have hv : (Fin.ofNat 12 (i + 1) : CtxId).val = i + 1 := Nat.mod_eq_of_lt (by omega)
  rw [hall (Fin.ofNat 12 (i + 1)) (by omega) (by omega)]
  decide

/-- Where some helper within the quota is free, one of them is the lowest. -/
theorem exists_lowest_free {s : State}
    (h : ¬ ∀ h : CtxId, 1 ≤ h.val → h.val ≤ s.helperQuota → s.isFree s.cur.1 h = false) :
    ∃ g : CtxId, (1 ≤ g.val ∧ g.val ≤ s.helperQuota ∧ s.isFree s.cur.1 g = true) ∧
      ∀ x : CtxId, 1 ≤ x.val → x < g → s.isFree s.cur.1 x = false := by
  simp only [not_forall, Bool.not_eq_false] at h
  obtain ⟨x, h1, hq, hf⟩ := h
  obtain ⟨g, hg, hmin⟩ := exists_minimal_of_wellFoundedLT
    (fun y : CtxId => 1 ≤ y.val ∧ y.val ≤ s.helperQuota ∧ s.isFree s.cur.1 y = true) ⟨x, h1, hq, hf⟩
  refine ⟨g, hg, fun y hy hlt => ?_⟩
  by_contra hfree
  exact absurd (hmin ⟨hy, le_trans (le_of_lt hlt) hg.2.1, by simpa using hfree⟩ (le_of_lt hlt)) (not_le.2 hlt)

/-- What issue must know of HSTART. -/
def hstartMeta (f : SQ) : Meta := { srcs := [f.sa, f.sb, f.sc], dst := some f.dst, handler := false, forbid := some 10 }

theorem ctxAt_startAt (s : State) (c d : CoreId) (x y : CtxId) (v : Ctx) :
    (s.startAt c x v).ctxAt d y = if d = c ∧ y = x then { v with waitFrom := s.cycle } else s.ctxAt d y :=
  s.ctxAt_modCtxAt c d x y _

/-- What the own part of an instruction that executes finds: the state, but for the books of issue, with the registers as they
read. -/
theorem State.issuedAs {s a : State} {ctl : SCtl} {m : Meta} {lam : Nat} (h : s.executes ctl m.srcs m.dst lam)
    (ha : a = s.atIssue (allSources ctl m)) :
    s.onlyContext a ∧ a.cur = s.cur ∧ a.ctx = { s.ctx with sinceHop := s.ctx.sinceHop + 1, midWait := none } ∧
      a.isControl = s.isControl ∧ ∀ r, a.rs r = s.reg r := by
  subst ha
  have hx := State.ctx_atIssue s (allSources ctl m) h.1
  exact ⟨s.onlyContext_atIssue _, s.cur_atIssue _, hx, State.isControl_of (s.cur_atIssue _) (by rw [hx]),
    State.rs_atIssue s _ h.1 h.2.1⟩

/-- No helper is the control context. -/
theorem State.helper_ne_cur {s : State} (hc : s.isControl = true) {g : CtxId} (h1 : 1 ≤ g.val) : (s.cur.1, g) ≠ s.cur := fun e => by
  have hg : g = 0 := (congrArg Prod.snd e).trans (State.cur_of_isControl hc)
  simp [hg] at h1

section
variable {f : SQ} {s : State} (h : s.executes f.ctl [f.sa, f.sb, f.sc] (some f.dst) 0) (hh : s.inHandler = false)
include h hh

theorem hstart_refused (hc : s.isControl = false) : ∃ t, exec (.hstart f) s = .next t ∧ s.trapTaken t none 0x01 (encode (.hstart f)) := by
  refine State.issue_traps (m := hstartMeta f) (by simp) h (Mode.allows_program _) hh ?_
  generalize ha : s.atIssue (allSources f.ctl (hstartMeta f)) = a
  obtain ⟨-, -, -, hctl, -⟩ := State.issuedAs (m := hstartMeta f) h ha.symm
  simp [hctl, hc, illegal]

theorem hstart_misaligned (hc : s.isControl = true) (hal : (s.reg f.sa).toNat % 8 ≠ 0) :
    ∃ t, exec (.hstart f) s = .next t ∧ s.trapTaken t none 0x04 (s.reg f.sa) := by
  refine State.issue_traps (m := hstartMeta f) (by simp) h (Mode.allows_program _) hh ?_
  generalize ha : s.atIssue (allSources f.ctl (hstartMeta f)) = a
  obtain ⟨-, -, -, hctl, hrs⟩ := State.issuedAs (m := hstartMeta f) h ha.symm
  simp [hctl, hc, hrs, hal]

theorem hstart_starts (hc : s.isControl = true) (hal : (s.reg f.sa).toNat % 8 = 0) {g : CtxId} (h1 : 1 ≤ g.val)
    (hq : g.val ≤ s.helperQuota) (hf : s.isFree s.cur.1 g = true)
    (hlow : ∀ x : CtxId, 1 ≤ x.val → x < g → s.isFree s.cur.1 x = false) :
    ∃ t, exec (.hstart f) s = .next t ∧ contextWrote s t f.dst (BitVec.ofNat 64 g.val) ∧ othersKeptBut s t g ∧ s.sameBytes t ∧
      startedHelper s (t.ctxAt s.cur.1 g) (s.reg f.sa) (s.reg f.sc) (s.reg f.sb) := by
  obtain ⟨a, ha⟩ : ∃ a, a = s.atIssue (allSources f.ctl (hstartMeta f)) := ⟨_, rfl⟩
  obtain ⟨hsa, hcur, hax, hctl, hrs⟩ := State.issuedAs (m := hstartMeta f) h ha
  have hg := s.helper_ne_cur hc h1
  have hfree : a.freeHelper = some g := by
    refine State.freeHelper_eq_some h1 (by rwa [State.helperQuota_of hsa]) ?_ fun x hx hlt => ?_
    · rw [hcur, State.isFree_of hsa hg]; exact hf
    · rw [hcur, State.isFree_of hsa (s.helper_ne_cur hc hx)]; exact hlow x hx hlt
  obtain ⟨y, hy⟩ : ∃ y, y = a.helperStart g (s.reg f.sa) (s.reg f.sc) (s.reg f.sb) := ⟨_, rfl⟩
  obtain ⟨u, hu⟩ : ∃ u, u = a.startAt s.cur.1 g y := ⟨_, rfl⟩
  have huc : ∀ c x, u.ctxAt c x = if c = s.cur.1 ∧ x = g then { y with waitFrom := a.cycle } else a.ctxAt c x := by
    rw [hu]; exact fun c x => ctxAt_startAt a _ _ _ _ _
  have hucur : u.cur = s.cur := by rw [hu]; exact hcur
  have hux : u.ctx = a.ctx := by
    rw [State.ctx_eq_ctxAt, huc, hucur, if_neg fun e => hg (Prod.ext rfl e.2.symm), State.ctx_eq_ctxAt, hcur]
  obtain ⟨body, hexec, hpart⟩ : ∃ body, execHstart f s = s.issue (.hstart f) f.ctl (hstartMeta f) body ∧
      body a = .next (u.wi f.dst (BitVec.ofNat 64 g.val)) :=
    ⟨_, rfl, by simp [hctl, hc, hrs, hal, hfree, hcur, hu, hy]⟩
  have hwi := State.ctx_wi u f.dst (BitVec.ofNat 64 g.val)
  rw [hux, ha] at hwi
  rw [ha] at hpart
  obtain ⟨t, ht, hwrote, hwt⟩ := State.issue_writes (i := .hstart f) (by simp) h (Mode.allows_program _) (.inr hh) hpart ⟨_, hwi⟩
  have hut := State.onlyContext_trans (State.onlyContext_wi u f.dst (BitVec.ofNat 64 g.val)) hwt
  have hub : a.sameBytes u := by rw [hu]; exact fun _ => ⟨rfl, rfl, rfl⟩
  refine ⟨t, hexec.trans ht, hwrote, fun c x hne hne' => ?_, State.sameBytes_trans (State.onlyContext_bytes hsa)
    (State.sameBytes_trans hub (State.onlyContext_bytes hut)), ?_⟩
  · rw [State.onlyContext_ctxAt hut (by rwa [hucur]), huc, if_neg fun e => hne' (Prod.ext e.1 e.2), State.onlyContext_ctxAt hsa hne]
  · rw [State.onlyContext_ctxAt hut (by rwa [hucur]), huc, if_pos ⟨rfl, rfl⟩, hy]
    have hdie := State.dieAt_of s a hsa (dieOf s.cur.1)
    unfold State.helperStart Ctx.start
    rw [hcur, hax, hdie]
    exact ⟨rfl, rfl, rfl, rfl, rfl, rfl, rfl, rfl, rfl, rfl, rfl, rfl, rfl, rfl, rfl, rfl, rfl, rfl, rfl⟩

theorem hstart_none_free (hc : s.isControl = true) (hal : (s.reg f.sa).toNat % 8 = 0) (h10 : s.helperQuota ≤ 10)
    (hall : ∀ h : CtxId, 1 ≤ h.val → h.val ≤ s.helperQuota → s.isFree s.cur.1 h = false) :
    ∃ t, exec (.hstart f) s = .next t ∧
      if f.fn.getLsbD 0 = true then s.scalarDone t f.dst 0 0 else waitsFor s t .helperFree := by
  obtain ⟨a, ha⟩ : ∃ a, a = s.atIssue (allSources f.ctl (hstartMeta f)) := ⟨_, rfl⟩
  obtain ⟨hsa, hcur, hax, hctl, hrs⟩ := State.issuedAs (m := hstartMeta f) h ha
  have hfree : a.freeHelper = none := by
    have hquota := State.helperQuota_of hsa
    refine State.freeHelper_eq_none (by rwa [hquota]) fun x hx hxq => ?_
    rw [hcur, State.isFree_of hsa (s.helper_ne_cur hc hx)]
    exact hall x hx (by rwa [← hquota])
  obtain ⟨body, hexec, hpart⟩ : ∃ body, execHstart f s = s.issue (.hstart f) f.ctl (hstartMeta f) body ∧
      body a = if f.fn.getLsbD 0 then .next (a.wi f.dst 0) else .wait a .helperFree :=
    ⟨_, rfl, by simp [hctl, hc, hrs, hal, hfree]⟩
  by_cases htry : f.fn.getLsbD 0 = true
  · rw [if_pos htry] at hpart
    simp only [if_pos htry]
    have hwi := State.ctx_wi a f.dst 0
    rw [hax] at hwi
    have hb := (congrArg body ha.symm).trans hpart
    obtain ⟨t, ht, hd⟩ := State.issue_scalarDone s (.hstart f) f.ctl (hstartMeta f) body (a.wi f.dst 0) f.dst 0 0 (by simp) h
      (Mode.allows_program _) (.inr hh) hb (by rw [← ha]; exact State.onlyContext_wi a f.dst 0) (by rw [hwi]; rfl) (by rw [hwi])
      (by rw [hwi]) (by rw [hwi]; exact BitVec.or_zero.symm)
    exact ⟨t, hexec.trans ht, hd⟩
  · rw [if_neg htry] at hpart
    simp only [if_neg htry]
    obtain ⟨t, ht, hw⟩ := State.issue_waits (i := .hstart f) (by simp) h (Mode.allows_program _) (.inr hh)
      ((congrArg body ha.symm).trans hpart) (by rw [← ha]; exact State.onlyContext_refl _) (by rw [← ha])
    exact ⟨t, hexec.trans ht, hw⟩

/-- HSTART. -/
theorem hstart_starts_or_waits (h10 : s.helperQuota ≤ 10) :
    ∃ t, exec (.hstart f) s = .next t ∧
      if s.isControl = false then s.trapTaken t none 0x01 (encode (.hstart f))
      else if (s.reg f.sa).toNat % 8 ≠ 0 then s.trapTaken t none 0x04 (s.reg f.sa)
      else
        (∀ h : CtxId, 1 ≤ h.val → h.val ≤ s.helperQuota → s.isFree s.cur.1 h = true →
          (∀ g : CtxId, 1 ≤ g.val → g < h → s.isFree s.cur.1 g = false) →
          contextWrote s t f.dst (BitVec.ofNat 64 h.val) ∧ othersKeptBut s t h ∧ s.sameBytes t ∧
          startedHelper s (t.ctxAt s.cur.1 h) (s.reg f.sa) (s.reg f.sc) (s.reg f.sb)) ∧
        ((∀ h : CtxId, 1 ≤ h.val → h.val ≤ s.helperQuota → s.isFree s.cur.1 h = false) →
          if f.fn.getLsbD 0 = true then s.scalarDone t f.dst 0 0 else waitsFor s t .helperFree) := by
  by_cases hc : s.isControl = false
  · simp only [if_pos hc]
    exact hstart_refused h hh hc
  have hc' : s.isControl = true := by simpa using hc
  by_cases hal : (s.reg f.sa).toNat % 8 = 0
  · simp only [if_neg hc, if_neg (not_not.2 hal)]
    by_cases hall : ∀ h : CtxId, 1 ≤ h.val → h.val ≤ s.helperQuota → s.isFree s.cur.1 h = false
    · obtain ⟨t, ht, hd⟩ := hstart_none_free h hh hc' hal h10 hall
      refine ⟨t, ht, fun g h1 hq hf => ?_, fun _ => hd⟩
      rw [hall g h1 hq] at hf
      cases hf
    · -- the lowest free helper is the one that starts
      obtain ⟨g, ⟨h1, hq, hf⟩, hlow⟩ := exists_lowest_free hall
      obtain ⟨t, ht, hd⟩ := hstart_starts h hh hc' hal h1 hq hf hlow
      refine ⟨t, ht, fun g' h1' _ hf' hlow' => ?_, fun hnone => absurd hnone hall⟩
      have heq : g' = g := by
        rcases lt_trichotomy g' g with hlt | heq | hlt
        · rw [hlow g' h1' hlt] at hf'; cases hf'
        · exact heq
        · rw [hlow' g h1 hlt] at hf; cases hf
      rw [heq]
      exact hd
  · simp only [if_neg hc, if_pos hal]
    exact hstart_misaligned h hh hc' hal

end

end Sys2Proof.Machine

/-! HJOIN and HKILL (02 R26, R39; 16 R369, R370). -/
namespace Sys2Proof.Machine
open Sys2Proof Sys2Proof.Claims

/-- What issue must know of HJOIN and of HKILL. -/
def helperMeta (f : SR) : Meta := { srcs := [f.sa], handler := false, forbid := some 10 }

theorem State.helperActive_of {s t : State} (h : s.onlyContext t) (hc : s.cur.2 = 0) :
    (t.coreAt s.cur.1).helperActive = (s.coreAt s.cur.1).helperActive :=
  Core.helperActive_of fun _ hx => State.onlyContext_ctxAt h fun e => hx ((congrArg Prod.snd e).trans hc)

/-- The state after HKILL has had its effect on the helper `g`. -/
def State.killed (s : State) (g : CtxId) : State :=
  if (s.ctxAt s.cur.1 g).active = false then s
  else if (s.ctxAt s.cur.1 g).midWait.isSome then s.modCtxAt s.cur.1 g (fun y => { y with killed := true })
  else s.endContext s.cur.1 g

theorem State.killed_frame (s : State) (g : CtxId) :
    (s.killed g).cur = s.cur ∧ s.sameBytes (s.killed g) ∧
      ∀ c x, (c, x) ≠ (s.cur.1, g) → (s.killed g).ctxAt c x = s.ctxAt c x := by
  unfold State.killed
  split
  · exact ⟨rfl, fun _ => ⟨rfl, rfl, rfl⟩, fun _ _ _ => rfl⟩
  · split
    · exact ⟨rfl, fun _ => ⟨rfl, rfl, rfl⟩, fun c x hne => by
        rw [State.ctxAt_modCtxAt, if_neg fun e => hne (Prod.ext e.1 e.2)]⟩
    · exact ⟨s.cur_endContext _ _, s.sameBytes_endContext _ _, fun c x hne => by
        rw [State.ctxAt_endContext, if_neg fun e => hne (Prod.ext e.1 e.2)]⟩

theorem State.killed_helper (s : State) (g : CtxId) :
    if (s.ctxAt s.cur.1 g).active = false then (s.killed g).ctxAt s.cur.1 g = s.ctxAt s.cur.1 g
    else if (s.ctxAt s.cur.1 g).midWait.isSome = true then (s.killed g).ctxAt s.cur.1 g = { s.ctxAt s.cur.1 g with killed := true }
    else (s.killed g).ctxAt s.cur.1 g = (s.ctxAt s.cur.1 g).ended := by
  unfold State.killed
  split
  · rfl
  · split
    · rw [State.ctxAt_modCtxAt, if_pos ⟨rfl, rfl⟩]
    · rw [State.ctxAt_endContext, if_pos ⟨rfl, rfl⟩]

section
variable {f : SR} {s : State} (h : s.executes f.ctl [f.sa] none 0) (hh : s.inHandler = false)
include h hh

theorem hjoin_refused (hc : s.isControl = false ∨ f.sa ≠ 0 ∧ helperNumber (s.reg f.sa) = none) :
    ∃ t, exec (.hjoin f) s = .next t ∧ s.trapTaken t none 0x01 (encode (.hjoin f)) := by
  refine State.issue_traps (m := helperMeta f) (by simp) h (Mode.allows_program _) hh ?_
  generalize ha : s.atIssue (allSources f.ctl (helperMeta f)) = a
  obtain ⟨-, -, -, hctl, hrs⟩ := State.issuedAs (m := helperMeta f) h ha.symm
  rcases hc with hc | ⟨h0, hn⟩
  · simp [hctl, hc, illegal]
  · simp only [hrs, if_neg h0, hn, illegal, ite_self]

/-- HJOIN returns after an acquire (16 R369). -/
theorem hjoin_returns {body : State → Effect} {hs : List CtxId} (hexec : execHjoin f s = s.issue (.hjoin f) f.ctl (helperMeta f) body)
    (hpart : body (s.atIssue (allSources f.ctl (helperMeta f))) = .next ((s.atIssue (allSources f.ctl (helperMeta f))).joinAcquire hs)) :
    ∃ t, exec (.hjoin f) s = .next t ∧ (contextMovedOn s t ∧ othersKept s t ∧ s.sameBytes t) ∧
      ((hs.any fun x => ((s.atIssue (allSources f.ctl (helperMeta f))).ctxAt s.cur.1 x).hopped.isSome) = true →
        (t.coreAt s.runCore).l1 = []) := by
  obtain ⟨a, ha⟩ : ∃ a, a = s.atIssue (allSources f.ctl (helperMeta f)) := ⟨_, rfl⟩
  obtain ⟨hsa, hcur, -, -, -⟩ := State.issuedAs (m := helperMeta f) h ha
  have hrun : a.runCore = s.runCore := by rw [ha]; exact s.runCore_atIssue _ h.1
  rw [← ha] at hpart ⊢
  obtain ⟨t, ht, hmoved, hwt⟩ := State.issue_movesOn (i := .hjoin f) (m := helperMeta f) (by simp) h (Mode.allows_program _) (.inr hh)
    ((congrArg body ha.symm).trans hpart) (by rw [← ha]; exact a.ctx_acquireSteps _ _)
  refine ⟨t, hexec.trans ht, ⟨hmoved, ?_, ?_⟩, fun hany => ?_⟩
  · exact othersKept_trans (State.onlyContext_othersKept hsa) hcur (othersKept_trans
      (othersKept_of_ctxAt fun d x => a.ctxAt_acquireSteps _ d _ x) (a.cur_acquireSteps _ _) (State.onlyContext_othersKept hwt))
  · exact State.sameBytes_trans (State.onlyContext_bytes hsa) (State.sameBytes_trans (a.sameBytes_acquireSteps _ _)
      (State.onlyContext_bytes hwt))
  · rw [Core.sameShared_l1 (hwt.2.1 s.runCore), State.joinAcquire, hcur, if_pos hany, hrun]
    exact a.l1_acquireSteps _ (by decide)

theorem hjoin_all (hc : s.isControl = true) (h0 : f.sa = 0) :
    ∃ t, exec (.hjoin f) s = .next t ∧ if (s.coreAt s.cur.1).helperActive = true then waitsFor s t .helpersEnded
      else contextMovedOn s t ∧ othersKept s t ∧ s.sameBytes t := by
  obtain ⟨a, ha⟩ : ∃ a, a = s.atIssue (allSources f.ctl (helperMeta f)) := ⟨_, rfl⟩
  obtain ⟨hsa, hcur, -, hctl, -⟩ := State.issuedAs (m := helperMeta f) h ha
  obtain ⟨body, hexec, hpart⟩ : ∃ body, execHjoin f s = s.issue (.hjoin f) f.ctl (helperMeta f) body ∧
      body a = if (s.coreAt s.cur.1).helperActive then .wait a .helpersEnded else .next (a.joinAcquire helperNumbers) :=
    ⟨_, rfl, by simp [hctl, hc, h0, hcur, State.helperActive_of hsa (State.cur_of_isControl hc)]⟩
  subst ha
  by_cases hact : (s.coreAt s.cur.1).helperActive = true
  · rw [if_pos hact] at hpart
    simp only [if_pos hact]
    obtain ⟨t, ht, hw⟩ := State.issue_waits (i := .hjoin f) (by simp) h (Mode.allows_program _) (.inr hh) hpart
      (State.onlyContext_refl _) rfl
    exact ⟨t, hexec.trans ht, hw⟩
  · rw [if_neg hact] at hpart
    simp only [if_neg hact]
    obtain ⟨t, ht, hj, -⟩ := hjoin_returns h hh hexec hpart
    exact ⟨t, ht, hj⟩

theorem hjoin_one (hc : s.isControl = true) (h0 : f.sa ≠ 0) {g : CtxId} (hn : helperNumber (s.reg f.sa) = some g) (h1 : 1 ≤ g.val) :
    ∃ t, exec (.hjoin f) s = .next t ∧ if (s.ctxAt s.cur.1 g).active = true then waitsFor s t (.helperEnded g.val)
      else (contextMovedOn s t ∧ othersKept s t ∧ s.sameBytes t) ∧
        ((s.ctxAt s.cur.1 g).hopped.isSome = true → (t.coreAt s.runCore).l1 = []) := by
  obtain ⟨a, ha⟩ : ∃ a, a = s.atIssue (allSources f.ctl (helperMeta f)) := ⟨_, rfl⟩
  obtain ⟨hsa, hcur, -, hctl, hrs⟩ := State.issuedAs (m := helperMeta f) h ha
  have hg := State.onlyContext_ctxAt hsa (s.helper_ne_cur hc h1)
  obtain ⟨body, hexec, hpart⟩ : ∃ body, execHjoin f s = s.issue (.hjoin f) f.ctl (helperMeta f) body ∧
      body a = if (s.ctxAt s.cur.1 g).active then .wait a (.helperEnded g.val) else .next (a.joinAcquire [g]) :=
    ⟨_, rfl, by simp only [hctl, hc, if_neg h0, hrs, hn, hcur, hg, Bool.not_true, Bool.false_eq_true, if_false]⟩
  subst ha
  by_cases hact : (s.ctxAt s.cur.1 g).active = true
  · rw [if_pos hact] at hpart
    simp only [if_pos hact]
    obtain ⟨t, ht, hw⟩ := State.issue_waits (i := .hjoin f) (by simp) h (Mode.allows_program _) (.inr hh) hpart
      (State.onlyContext_refl _) rfl
    exact ⟨t, hexec.trans ht, hw⟩
  · rw [if_neg hact] at hpart
    simp only [if_neg hact]
    obtain ⟨t, ht, hj, hl1⟩ := hjoin_returns h hh hexec hpart
    exact ⟨t, ht, hj, fun hhop => hl1 (by simp [hg, hhop])⟩

theorem hkill_refused (hc : s.isControl = false ∨ helperNumber (s.reg f.sa) = none) :
    ∃ t, exec (.hkill f) s = .next t ∧ s.trapTaken t none 0x01 (encode (.hkill f)) := by
  refine State.issue_traps (m := helperMeta f) (by simp) h (Mode.allows_program _) hh ?_
  generalize ha : s.atIssue (allSources f.ctl (helperMeta f)) = a
  obtain ⟨-, -, -, hctl, hrs⟩ := State.issuedAs (m := helperMeta f) h ha.symm
  rcases hc with hc | hn
  · simp [hctl, hc, illegal]
  · simp [hctl, hrs, hn, illegal]

theorem hkill_kills (hc : s.isControl = true) {g : CtxId} (hn : helperNumber (s.reg f.sa) = some g) (h1 : 1 ≤ g.val) :
    ∃ t, exec (.hkill f) s = .next t ∧ contextMovedOn s t ∧ othersKeptBut s t g ∧ s.sameBytes t ∧
        if (s.ctxAt s.cur.1 g).active = false then t.ctxAt s.cur.1 g = s.ctxAt s.cur.1 g
        else if (s.ctxAt s.cur.1 g).midWait.isSome = true then t.ctxAt s.cur.1 g = { s.ctxAt s.cur.1 g with killed := true }
        else hasEnded t s.cur.1 g := by
  obtain ⟨a, ha⟩ : ∃ a, a = s.atIssue (allSources f.ctl (helperMeta f)) := ⟨_, rfl⟩
  obtain ⟨hsa, hcur, -, hctl, hrs⟩ := State.issuedAs (m := helperMeta f) h ha
  have hne := s.helper_ne_cur hc h1
  have hg := State.onlyContext_ctxAt hsa hne
  obtain ⟨hkcur, hkbytes, hkothers⟩ := a.killed_frame g
  have hkhelper := a.killed_helper g
  rw [hcur, hg] at hkhelper
  rw [hcur] at hkothers hkcur
  have hkctx : (a.killed g).ctx = a.ctx := by
    rw [State.ctx_eq_ctxAt, State.ctx_eq_ctxAt, hkcur, hcur]
    exact hkothers _ _ hne.symm
  obtain ⟨body, hexec, hpart⟩ : ∃ body, execHkill f s = s.issue (.hkill f) f.ctl (helperMeta f) body ∧
      body a = .next (a.killed g) := by
    refine ⟨_, rfl, ?_⟩
    simp only [hctl, hc, hrs, hn, State.killed]
    cases (a.ctxAt a.cur.1 g).active <;> cases (a.ctxAt a.cur.1 g).midWait <;> rfl
  obtain ⟨t, ht, hmoved, hwt⟩ := State.issue_movesOn (i := .hkill f) (m := helperMeta f) (by simp) h (Mode.allows_program _) (.inr hh)
    ((congrArg body ha.symm).trans hpart) (by rw [← ha]; exact hkctx)
  have hto : ∀ c x, (c, x) ≠ s.cur → t.ctxAt c x = (a.killed g).ctxAt c x := fun c x hx => hwt.2.2 c x (by rwa [hkcur])
  refine ⟨t, hexec.trans ht, hmoved, fun c x hx hx' => ?_, State.sameBytes_trans (State.onlyContext_bytes hsa)
    (State.sameBytes_trans hkbytes (State.onlyContext_bytes hwt)), ?_⟩
  · rw [hto c x hx, hkothers c x hx', State.onlyContext_ctxAt hsa hx]
  · unfold hasEnded
    rw [hto _ _ hne]
    split at hkhelper
    · rwa [if_pos ‹_›]
    · rw [if_neg ‹_›]
      split at hkhelper
      · rwa [if_pos ‹_›]
      · rw [if_neg ‹_›, hkhelper]
        exact Ctx.ended_hasEnded _

/-- HJOIN. -/
theorem hjoin_joins :
    let n := (s.reg f.sa).toNat
    let g : CtxId := Fin.ofNat 12 n
    ∃ t, exec (.hjoin f) s = .next t ∧
      let joined := contextMovedOn s t ∧ othersKept s t ∧ s.sameBytes t
      if s.isControl = false then s.trapTaken t none 0x01 (encode (.hjoin f))
      else if f.sa = 0 then if (s.coreAt s.cur.1).helperActive = true then waitsFor s t .helpersEnded else joined
      else if n = 0 ∨ 10 < n then s.trapTaken t none 0x01 (encode (.hjoin f))
      else if (s.ctxAt s.cur.1 g).active = true then waitsFor s t (.helperEnded n)
      else joined ∧ ((s.ctxAt s.cur.1 g).hopped.isSome = true → (t.coreAt s.runCore).l1 = []) := by
  intro n g
  have hnum : helperNumber (s.reg f.sa) = if n = 0 ∨ 10 < n then none else some g := helperNumber_eq _
  by_cases hc : s.isControl = false
  · simp only [if_pos hc]
    exact hjoin_refused h hh (.inl hc)
  have hc' : s.isControl = true := by simpa using hc
  by_cases h0 : f.sa = 0
  · simp only [if_neg hc, if_pos h0]
    exact hjoin_all h hh hc' h0
  by_cases hn : n = 0 ∨ 10 < n
  · simp only [if_neg hc, if_neg h0, if_pos hn]
    exact hjoin_refused h hh (.inr ⟨h0, by rw [hnum, if_pos hn]⟩)
  · have hg : g.val = n := Nat.mod_eq_of_lt (by omega)
    rw [if_neg hn] at hnum
    obtain ⟨t, ht, hj⟩ := hjoin_one h hh hc' h0 hnum (by omega)
    rw [hg] at hj
    refine ⟨t, ht, ?_⟩
    simp only [if_neg hc, if_neg h0, if_neg hn]
    exact hj

/-- HKILL. -/
theorem hkill_kills_or_traps :
    let n := (s.reg f.sa).toNat
    let g : CtxId := Fin.ofNat 12 n
    ∃ t, exec (.hkill f) s = .next t ∧
      if s.isControl = false ∨ n = 0 ∨ 10 < n then s.trapTaken t none 0x01 (encode (.hkill f))
      else contextMovedOn s t ∧ othersKeptBut s t g ∧ s.sameBytes t ∧
        if (s.ctxAt s.cur.1 g).active = false then t.ctxAt s.cur.1 g = s.ctxAt s.cur.1 g
        else if (s.ctxAt s.cur.1 g).midWait.isSome = true then t.ctxAt s.cur.1 g = { s.ctxAt s.cur.1 g with killed := true }
        else hasEnded t s.cur.1 g := by
  intro n g
  have hnum : helperNumber (s.reg f.sa) = if n = 0 ∨ 10 < n then none else some g := helperNumber_eq _
  by_cases hbad : s.isControl = false ∨ n = 0 ∨ 10 < n
  · simp only [if_pos hbad]
    exact hkill_refused h hh (hbad.imp_right fun hn => by rw [hnum, if_pos hn])
  · obtain ⟨hc, hn⟩ := not_or.1 hbad
    have hg : g.val = n := Nat.mod_eq_of_lt (by omega)
    rw [if_neg hn] at hnum
    simp only [if_neg hbad]
    exact hkill_kills h hh (by simpa using hc) hnum (by omega)

end

end Sys2Proof.Machine

/-! Which context executes, through the memory system's accesses (06 R128, R129; 08 R173; 13 R295). -/
namespace Sys2Proof.Machine
open Sys2Proof Sys2Proof.Claims

theorem State.cur_foldl {α : Type} {f : State → α → State} (h : ∀ (s : State) x, (f s x).cur = s.cur) (l : List α) (s : State) :
    (l.foldl f s).cur = s.cur := by
  induction l generalizing s with
  | nil => rfl
  | cons x l ih => exact (ih _).trans (h s x)

theorem State.onlyWriteBacks_cur {s t : State} (h : s.onlyWriteBacks t) : t.cur = s.cur := by rw [h.1]

theorem State.cur_correct (s : State) (h : DieId) (pa size : Nat) : (s.correct h pa size).cur = s.cur := by
  unfold State.correct
  dsimp only
  split <;> rfl

theorem State.cur_correctRuns (s : State) (runs : List (Nat × Nat)) : (s.correctRuns runs).cur = s.cur := by
  unfold State.correctRuns
  split
  · rfl
  · refine State.cur_foldl (fun t r => ?_) runs s
    split
    · exact t.cur_correct _ _ _
    · rfl

theorem State.cur_writeHot (s : State) (l : Leaf) : (s.writeHot l).cur = s.cur := rfl

theorem State.cur_setHot (s : State) (d : DieId) (l : Leaf) (hot : Nat) (queued : Bool) : (s.setHot d l hot queued).cur = s.cur := rfl

theorem State.cur_tlbInsert (s : State) (d : DieId) (slice : Nat) (l : Leaf) : (s.tlbInsert d slice l).cur = s.cur := by
  have hforget : ∀ t : State, t.forgetRewritten.cur = t.cur := fun t => by unfold State.forgetRewritten; split <;> rfl
  have hgive : ∀ k : Leaf, (s.giveUpLeaf d k).cur = s.cur := fun k => by
    unfold State.giveUpLeaf
    split
    · exact s.cur_writeHot k
    · rfl
  unfold State.tlbInsert
  dsimp only
  split
  · rfl
  · split
    · exact (hforget _).trans (hgive _)
    · rfl

theorem State.cur_translate {s t : State} {d : DieId} {va : Nat} {l : Leaf} (h : s.translate d va = some (l, t)) : t.cur = s.cur := by
  unfold State.translate at h
  dsimp only at h
  split at h
  · cases h; rfl
  · split at h
    · cases h
    · cases h
      rw [State.cur_tlbInsert, State.cur_correctRuns]

theorem State.cur_crossing (s : State) (d : DieId) (l : Leaf) (va hot : Nat) : (s.crossing d l va hot).cur = s.cur := by
  unfold State.crossing
  simp only [apply_ite State.cur, State.cur_writeHot, State.cur_setHot, State.cur_modDie, State.cur_physWrite, ite_self]

theorem State.cur_countFill (s : State) (d : DieId) (va : Nat) : (s.countFill d va).cur = s.cur := by
  unfold State.countFill
  split
  · rfl
  · rename_i l t h
    have ht := State.cur_translate h
    simp only [apply_ite State.cur, State.cur_crossing, State.cur_setHot, ht, ite_self]

theorem State.cur_homeFill {s t : State} {h : DieId} {va pa size codec n : Nat} {owner : Bool}
    (hf : s.homeFill h va pa size codec owner = some (n, t)) : t.cur = s.cur := by
  unfold State.homeFill at hf
  dsimp only at hf
  split at hf
  · cases hf
  · split at hf
    · cases hf
    · split at hf
      · cases hf
        exact s.cur_correctRuns _
      · cases hf
        rw [State.cur_modDie, State.cur_countFill, State.cur_correctRuns]

theorem State.cur_l2Write {s t : State} {d : DieId} {remote : Bool} {writer : Option (CoreId × CtxId)} {va n v : Nat}
    (h : s.l2Write d remote writer va n v = .ok t) : t.cur = s.cur := by
  unfold State.l2Write at h
  split at h
  · -- the grain stands in the die's L2
    split at h
    · cases h
    · split at h
      · cases h
      · split at h
        · split at h
          · cases h
          · cases h
            rw [State.cur_physWrite, State.cur_correctRuns]
        · cases h; rfl
  · split at h
    · cases h
    · rename_i l s1 htr
      rw [← State.cur_translate htr]
      dsimp only at h
      split at h
      · cases h
      · split at h
        · cases h
        · split at h
          · cases h
            split <;> rfl
          · split at h
            · split at h
              · rename_i hfill
                cases h
                rw [State.cur_physWrite, State.cur_homeFill hfill]
              · cases h
            · split at h
              · cases h
              · cases h; rfl

theorem State.cur_mark (s : State) (c : CoreId) (scope : Word) (va : Nat) : (s.mark c scope va).cur = s.cur := by
  unfold State.mark
  split <;> rfl

theorem State.cur_releaseWrite {s t : State} {d : DieId} {va n v : Nat} (h : s.releaseWrite d va n v = .ok t) : t.cur = s.cur := by
  unfold State.releaseWrite at h
  split at h
  · cases h
  · rename_i s1 hw
    have h1 : s1.cur = s.cur := (State.cur_l2Write hw).trans (State.onlyWriteBacks_cur (s.onlyWriteBacks_writeBackAll d))
    cases h
    rw [State.cur_mark, ← h1]
    split
    · split
      · rfl
      · exact State.onlyWriteBacks_cur (s1.onlyWriteBacks_writeBack d _)
    · rfl

theorem State.cur_putReply {s t : State} {d : DieId} {p : Sender} {a : Nat} {w0 w1 : Word} (h : s.putReply d p a w0 w1 = some t) :
    t.cur = s.cur := by
  unfold State.putReply at h
  dsimp only at h
  split at h
  · split at h
    · cases h; rfl
    · cases h
  · split at h
    · cases h; rfl
    · cases h
  · split at h
    · split at h
      · rename_i hw
        cases h
        exact State.cur_releaseWrite hw
      · cases h
    · cases h
  · cases h

theorem State.cur_charge (s : State) (d : DieId) (domain : BitVec 16) (n : Nat) : (s.charge d domain n).cur = s.cur := by
  unfold State.charge
  split <;> rfl

theorem State.cur_chargeReply (s : State) (d : DieId) (p : Sender) (a : Nat) : (s.chargeReply d p a).cur = s.cur := by
  unfold State.chargeReply
  split
  · split
    · exact s.cur_charge _ _ _
    · rfl
  · split
    · rfl
    · exact s.cur_charge _ _ _

theorem State.cur_reply (s : State) (d : DieId) (p : Sender) (m : Message) (status : Nat) (value : Word) :
    (s.reply d p m status value).cur = s.cur := by
  have hback := State.onlyWriteBacks_cur (s.onlyWriteBacks_writeBackAll d)
  unfold State.reply
  dsimp only
  split
  · split
    · rfl
    · exact hback
  · split
    · exact hback
    · split
      · rename_i hput
        rw [State.cur_chargeReply, State.cur_putReply hput, hback]
      · exact hback

end Sys2Proof.Machine

/-! The end of contexts and invocations by HEND, WFE, and the ends of waits (02 R24, R26; 08 R173, R178; 16 R368; 18 R454). -/
namespace Sys2Proof.Machine
open Sys2Proof Sys2Proof.Claims

/-! ### HEND of a control context or a helper (02 R24, R26; 16 R368) -/

/-- What issue must know of HEND and of WFE. -/
def hendMeta : Meta := { forbid := some 10 }

/-- What HEND's own part finds once the vector instructions have completed. -/
theorem State.drainedAs {s a u : State} {ctl : SCtl} {m : Meta} {lam : Nat} (h : s.executes ctl m.srcs m.dst lam)
    (ha : a = s.atIssue (allSources ctl m)) (hu : u = a.drainVector) :
    a.onlyContext u ∧ s.onlyContext u ∧ u.cur = s.cur ∧ u.inHandler = s.inHandler ∧ u.runCore = s.runCore ∧
      u.ctx = { s.ctx with sinceHop := s.ctx.sinceHop + 1, midWait := none } := by
  obtain ⟨hsa, hcur, hax, -, -⟩ := State.issuedAs h ha
  have hau : a.onlyContext u := by rw [hu]; exact a.drainVector_frame.1
  have hucur : u.cur = s.cur := (State.onlyContext_cur hau).trans hcur
  have hux : u.ctx = _ := (by rw [hu, a.ctx_drainVector] : u.ctx = a.ctx).trans hax
  exact ⟨hau, State.onlyContext_trans hsa hau, hucur, State.inHandler_of_cur hucur, State.runCore_of hucur (by rw [hux]), hux⟩

theorem State.lease_of {s t : State} (h : s.onlyContext t) : t.lease = s.lease := by
  unfold State.lease
  rw [State.onlyContext_cur h, State.dieAt_of s t h]

/-- HEND waits in the control context while a helper is active. -/
theorem hend_waits {f : SR} {s : State} (h : s.executes f.ctl [] none 0) (hh : s.inHandler = false) (h0 : s.cur.2 = 0)
    (hact : (s.coreAt s.cur.1).helperActive = true) : ∃ t, exec (.hend f) s = .next t ∧ waitsFor s t .helpersEnded := by
  obtain ⟨a, ha⟩ : ∃ a, a = s.atIssue (allSources f.ctl hendMeta) := ⟨_, rfl⟩
  obtain ⟨u, hu⟩ : ∃ u, u = a.drainVector := ⟨_, rfl⟩
  obtain ⟨hau, hsu, hcur, hhu, -, -⟩ := State.drainedAs (m := hendMeta) h ha hu
  obtain ⟨body, hexec, hpart⟩ : ∃ body, execHend f s = s.issue (.hend f) f.ctl hendMeta body ∧ body a = .wait u .helpersEnded :=
    ⟨_, rfl, by simp [← hu, hhu, hh, hcur, h0, State.helperActive_of hsu h0, hact]⟩
  obtain ⟨t, ht, hw⟩ := State.issue_waits (i := .hend f) (by simp) h (Mode.allows_program _) (.inl rfl)
    ((congrArg body ha.symm).trans hpart) (by rw [← ha]; exact hau) (by rw [← ha, hu]; exact a.ctx_drainVector)
  exact ⟨t, hexec.trans ht, hw⟩

/-- The release of a context that has hopped, before it ends. -/
def State.releaseHopped (s : State) : State := if s.ctx.hopped.isSome then s.releaseSteps s.runCore packageScope else s

theorem State.onlyWriteBacks_releaseHopped (s : State) : s.onlyWriteBacks s.releaseHopped := by
  unfold State.releaseHopped State.releaseSteps
  split
  · split
    · exact s.onlyWriteBacks_writeBackAll _
    · exact s.onlyWriteBacks_refl
  · exact s.onlyWriteBacks_refl

theorem State.onlyWriteBacks_cores {s t : State} (h : s.onlyWriteBacks t) : t.cores = s.cores := by rw [h.1]

theorem State.onlyWriteBacks_lmem {s t : State} (h : s.onlyWriteBacks t) : t.lmem = s.lmem := by rw [h.1]

theorem State.onlyWriteBacks_ctxAt {s t : State} (h : s.onlyWriteBacks t) (c : CoreId) (x : CtxId) : t.ctxAt c x = s.ctxAt c x := by
  unfold State.ctxAt State.coreAt
  rw [State.onlyWriteBacks_cores h]

theorem State.endSelf_of_noLease {s : State} (h : s.lease = none) :
    s.endSelf = .leave (s.releaseHopped.endContext s.cur.1 s.cur.2) := by
  unfold State.endSelf State.releaseHopped
  rw [h]

theorem State.coresOf_advanceTo (s : State) (n launch group : Nat) : (s.advanceTo n).coresOf launch group = s.coresOf launch group := by
  unfold State.coresOf
  simp only [State.coreAt_advanceTo]

/-- HEND ends a control context or a helper that holds no lease. -/
theorem hend_ends {f : SR} {s : State} (h : s.executes f.ctl [] none 0) (hh : s.inHandler = false)
    (hact : ¬ (s.cur.2 = 0 ∧ (s.coreAt s.cur.1).helperActive = true)) (hl : s.lease = none) :
    ∃ t, exec (.hend f) s = .next t ∧ hasEnded t s.cur.1 s.cur.2 ∧ othersKept s t ∧
      (∀ x, readByte t.lmem x = readByte s.lmem x) ∧ (s.ctx.hopped = none → s.sameBytes t) ∧
      ∀ p, (s.coreAt s.cur.1).placed = some p → (∀ c ∈ t.coresOf p.launch p.group, (t.coreAt c).allEnded = true) →
        .event (.groupCompletion p.launch p.group) ∈ t.agenda := by
  obtain ⟨a, ha⟩ : ∃ a, a = s.atIssue (allSources f.ctl hendMeta) := ⟨_, rfl⟩
  obtain ⟨u, hu⟩ : ∃ u, u = a.drainVector := ⟨_, rfl⟩
  obtain ⟨hau, hsu, hcur, hhu, -, hux⟩ := State.drainedAs (m := hendMeta) h ha hu
  obtain ⟨v, hv⟩ : ∃ v, v = u.releaseHopped := ⟨_, rfl⟩
  have huv : u.onlyWriteBacks v := by rw [hv]; exact u.onlyWriteBacks_releaseHopped
  have hvx : ∀ c x, v.ctxAt c x = u.ctxAt c x := State.onlyWriteBacks_ctxAt huv
  obtain ⟨body, hexec, hpart⟩ : ∃ body, execHend f s = s.issue (.hend f) f.ctl hendMeta body ∧
      body a = .leave (v.endContext s.cur.1 s.cur.2) := by
    refine ⟨_, rfl, ?_⟩
    have hnowait : ¬ (u.cur.2.val == 0 && (u.coreAt u.cur.1).helperActive) = true := fun e => by
      obtain ⟨e0, e1⟩ := Bool.and_eq_true_iff.1 e
      rw [hcur] at e0 e1
      have h0 : s.cur.2 = 0 := Fin.ext (by simpa using e0)
      rw [State.helperActive_of hsu h0] at e1
      exact hact ⟨h0, e1⟩
    dsimp only
    rw [← hu, if_neg (by simp [hhu, hh]), if_neg hnowait, State.endSelf_of_noLease ((State.lease_of hsu).trans hl), ← hv, hcur]
  refine ⟨_, hexec.trans (State.issue_ends (m := hendMeta) (by simp) h (Mode.allows_program _) (.inl rfl)
    ((congrArg body ha.symm).trans hpart) (by simp) (by simp)), ?_, fun c x hx => ?_, fun x => ?_, fun hhop => ?_, fun p hp hall => ?_⟩
  · unfold hasEnded Effect.finish
    rw [State.ctxAt_advanceTo, State.ctxAt_endContext, if_pos ⟨rfl, rfl⟩]
    exact Ctx.ended_hasEnded _
  · unfold Effect.finish
    rw [State.ctxAt_advanceTo, State.ctxAt_endContext, if_neg fun e => hx (Prod.ext e.1 e.2), hvx, State.onlyContext_ctxAt hsu hx]
  · unfold Effect.finish
    rw [State.lmem_advanceTo, (v.sameBytes_endContext _ _ x).2.1, State.onlyWriteBacks_lmem huv, (State.onlyContext_bytes hsu x).2.1]
  · have hvu : v = u := by rw [hv, State.releaseHopped, hux]; exact if_neg (by simp [hhop])
    rw [hvu]
    exact State.sameBytes_trans (State.onlyContext_bytes hsu) (State.sameBytes_trans
      (u.sameBytes_endContext s.cur.1 s.cur.2) (State.onlyContext_bytes (State.onlyContext_advanceTo _ _)))
  · have hvp : (v.coreAt s.cur.1).placed = some p := by
      rw [State.coreAt, State.onlyWriteBacks_cores huv]
      exact (State.placed_of hsu _).trans hp
    unfold Effect.finish at hall ⊢
    rw [State.agenda_advanceTo]
    rw [State.coresOf_advanceTo] at hall
    refine v.endContext_completes _ _ hvp fun k hk => ?_
    have := hall k hk
    rwa [State.coreAt_advanceTo] at this

/-! ### HEND of an invocation (08 R173, R178) -/

theorem State.inv_of {s t : State} (h : s.onlyContext t) {c : CoreId} {v : Invocation} (hv : (s.coreAt c).inv = some v) :
    ∃ n, (t.coreAt c).inv = some { v with count := n } := by
  have h' := (h.2.1 c).2
  rw [hv] at h'
  cases ht : (t.coreAt c).inv with
  | none => simp [ht] at h'
  | some w =>
    rw [ht] at h'
    obtain ⟨m, p, n, k, r⟩ := w
    obtain ⟨m', p', n', k', r'⟩ := v
    simp only [Option.map_some, Option.some.injEq, Invocation.mk.injEq] at h'
    obtain ⟨rfl, rfl, rfl, -, rfl⟩ := h'
    exact ⟨k, rfl⟩

theorem State.endInvocation_ends (s : State) (c : CoreId) :
    ((s.endInvocation c).coreAt c).inv = none ∧ ((s.endInvocation c).ctxAt c handlerCtx).status = .ended ∧
      (s.endInvocation c).cur = s.cur ∧ s.sameBytes (s.endInvocation c) := by
  refine ⟨?_, ?_, rfl, fun _ => ⟨rfl, rfl, rfl⟩⟩
  · unfold State.endInvocation State.modCtxAt
    rw [State.coreAt_modCore_self, State.coreAt_modCore_self]
  · unfold State.endInvocation
    rw [State.ctxAt_modCtxAt_self]

theorem replyWord_zero (m : Message) : replyWord m 0 = replyHead m 0 := by
  have h : m.w0.toNat / 2 ^ 56 % 2 ^ 8 = m.w0.toNat / 2 ^ 56 := Nat.mod_eq_of_lt (by have := m.w0.isLt; omega)
  simp only [replyWord, replyHead, Message.cmd, bits, Nat.shiftRight_eq_div_pow, Nat.pow_zero, Nat.div_one]
  rw [h]

/-- A reply of status 0 that nobody asked for changes nothing. -/
theorem State.reply_unasked (s : State) (d : DieId) (p : Sender) {m : Message} (v : Word) (h : Claims.wantsReply m = false) :
    s.reply d p m 0 v = s := by
  have hr : m.rr = false := h
  simp [State.reply, hr]

theorem State.lmem_chargeReply (s : State) (d : DieId) (p : Sender) (a : Nat) : (s.chargeReply d p a).lmem = s.lmem := by
  have hc : ∀ k, (s.charge d p.domain k).lmem = s.lmem := fun k => by unfold State.charge; split <;> rfl
  unfold State.chargeReply
  split
  · split
    · exact hc 2
    · rfl
  · split
    · rfl
    · exact hc 2

theorem State.holdsSender_of {s t : State} (h : ∀ c, (t.coreAt c).placed = (s.coreAt c).placed) (p : Sender) :
    t.holdsSender p = s.holdsSender p := by
  unfold State.holdsSender
  rw [h]

/-- A reply record goes to the local memory of a sender of this package that names it and still runs (08 R173, R459). -/
theorem State.lmem_reply_window {s : State} {d : DieId} {p : Sender} {m : Message} {v : Word} {o st : Nat} (hr : Claims.wantsReply m = true)
    (hp : p.remote = false) (ho : windowOffset (m.w1.toNat % 2 ^ 52) = some o) (hs : s.holdsSender p = true) (hfit : o + 16 ≤ 0x60000) :
    (s.reply d p m st v).lmem =
      writeN s.lmem (localKey p.core o) 16 ((replyWord m st).toNat + v.toNat * 2 ^ 64) := by
  have hw := s.onlyWriteBacks_writeBackAll d
  have hr' : m.rr = true := hr
  have hput : (s.writeBackAll d).putReply d p (bits m.w1 51 0) (replyWord m st) v =
      some ((s.writeBackAll d).localWrite p.core o 16 ((replyWord m st).toNat + v.toNat * 2 ^ 64)) := by
    have haddr : bits m.w1 51 0 = m.w1.toNat % 2 ^ 52 := rfl
    have hholds : (s.writeBackAll d).holdsSender p = true :=
      (State.holdsSender_of (fun c => by rw [State.coreAt, State.onlyWriteBacks_cores hw]; rfl) p).trans hs
    unfold State.putReply
    rw [haddr, regionOf_window ho]
    exact if_pos (by simpa [hholds, Config.localBytes] using hfit)
  unfold State.reply
  simp only [hr', hp, Bool.not_true, Bool.false_eq_true, if_false, hput, State.lmem_chargeReply]
  rw [State.localWrite, State.onlyWriteBacks_lmem hw]

theorem hend_invocation {f : SR} {s : State} {v : Invocation} (h : s.executes f.ctl [] none 0) (hh : s.inHandler = true)
    (hv : (s.coreAt s.cur.1).inv = some v) :
    ∃ t, exec (.hend f) s = .next t ∧ (t.coreAt s.cur.1).inv = none ∧ t.ctx.status = .ended ∧
      if v.replied = true ∨ Claims.wantsReply v.msg = false then s.sameBytes t
      else ∀ o, v.sender.remote = false → windowOffset (v.msg.w1.toNat % 2 ^ 52) = some o → s.holdsSender v.sender = true →
        o + 16 ≤ 0x60000 → wroteBytes s.lmem t.lmem (localKey v.sender.core o) 16 (replyHead v.msg 0).toNat := by
  obtain ⟨a, ha⟩ : ∃ a, a = s.atIssue (allSources f.ctl hendMeta) := ⟨_, rfl⟩
  obtain ⟨u, hu⟩ : ∃ u, u = a.drainVector := ⟨_, rfl⟩
  obtain ⟨-, hsu, hcur, hhu, -, -⟩ := State.drainedAs (m := hendMeta) h ha hu
  obtain ⟨n, hn⟩ := State.inv_of hsu hv
  obtain ⟨r, hr⟩ : ∃ r, r = if v.replied then u else u.reply u.runDie v.sender v.msg 0 0 := ⟨_, rfl⟩
  have hrcur : r.cur = s.cur := by
    rw [hr]
    split
    · exact hcur
    · exact (u.cur_reply _ _ _ _ _).trans hcur
  obtain ⟨body, hexec, hpart⟩ : ∃ body, execHend f s = s.issue (.hend f) f.ctl hendMeta body ∧
      body a = .leave (r.endInvocation s.cur.1) := by
    refine ⟨_, rfl, ?_⟩
    dsimp only
    rw [← hu, if_pos (hhu.trans hh), State.endHandler, hcur, hn, hr]
  obtain ⟨hinv, hstatus, hecur, hbytes⟩ := r.endInvocation_ends s.cur.1
  have hh' : s.cur.2 = handlerCtx := by simpa [State.inHandler] using hh
  have hlmem : (Effect.finish f.ctl.stall (.leave (r.endInvocation s.cur.1))).lmem = r.lmem := State.lmem_advanceTo _ _
  refine ⟨_, hexec.trans (State.issue_ends (m := hendMeta) (by simp) h (Mode.allows_program _) (.inl rfl)
    ((congrArg body ha.symm).trans hpart) (by simp) (by simp)), ?_, ?_, ?_⟩
  · unfold Effect.finish
    rw [State.coreAt_advanceTo]
    exact hinv
  · unfold Effect.finish
    rw [State.ctx_advanceTo, State.ctx_eq_ctxAt, hecur, hrcur, hh']
    exact hstatus
  · split
    · rename_i hnone
      have hru : r = u := by
        rw [hr]
        rcases hnone with hrep | hun
        · exact if_pos hrep
        · rw [u.reply_unasked _ _ _ hun, ite_self]
      rw [hru] at hbytes ⊢
      exact State.sameBytes_trans (State.onlyContext_bytes hsu) (State.sameBytes_trans hbytes
        (State.onlyContext_bytes (State.onlyContext_advanceTo _ _)))
    · rename_i hreply
      obtain ⟨hrep, hwants⟩ := not_or.1 hreply
      intro o hloc ho hs hfit hwf y
      have hus : u.holdsSender v.sender = true := (State.holdsSender_of (State.placed_of hsu) _).trans hs
      have hul : u.lmem = s.lmem := by rw [hsu.1]
      rw [hlmem, hr, if_neg hrep, State.lmem_reply_window (by simpa using hwants) hloc ho hus hfit, hul, readByte_writeN _ _ _ _ hwf,
        replyWord_zero]
      simp

/-! ### WFE and the end of a wait (02 R24; 18 R454) -/

/-- What issue must know of WFE. -/
def wfeMeta : Meta := { handler := false, forbid := some 10 }

theorem wfe_takes {f : SR} {s : State} (h : s.executes f.ctl [] none 0) (hh : s.inHandler = false) (he : s.ctx.event = true) :
    ∃ t, exec (.wfe f) s = .next t ∧ ({ s.ctx with event := false }).onlyScalars t.ctx ∧ t.ctx.s = s.ctx.s ∧
      t.ctx.fcsr = s.ctx.fcsr ∧ t.ctx.pc = s.ctx.pc + 8 ∧ othersKept s t ∧ s.sameBytes t ∧ (t.coreAt s.runCore).l1 = [] := by
  obtain ⟨a, ha⟩ : ∃ a, a = s.atIssue (allSources f.ctl wfeMeta) := ⟨_, rfl⟩
  obtain ⟨hsa, hcur, hax, -, -⟩ := State.issuedAs (m := wfeMeta) h ha
  obtain ⟨b, hb⟩ : ∃ b, b = a.modCtx (fun x => { x with event := false }) := ⟨_, rfl⟩
  have hab : a.onlyContext b := by rw [hb]; exact State.onlyContext_modCtx a _
  have hsb := State.onlyContext_trans hsa hab
  have hrun : a.runCore = s.runCore := State.runCore_of hcur (by rw [hax])
  obtain ⟨w, hw⟩ : ∃ w, w = b.acquireSteps s.runCore packageScope := ⟨_, rfl⟩
  have hwx : w.ctx = { s.ctx with sinceHop := s.ctx.sinceHop + 1, midWait := none, event := false } := by
    rw [hw, State.ctx_acquireSteps, hb, State.ctx_modCtx, hax]
  obtain ⟨body, hexec, hpart⟩ : ∃ body, execWfe f s = s.issue (.wfe f) f.ctl wfeMeta body ∧ body a = .next w :=
    ⟨_, rfl, by simp [hax, he, hrun, ← hb, hw]⟩
  obtain ⟨t, ht, hwt, n, hx⟩ := State.issue_completes (i := .wfe f) (m := wfeMeta) (by simp) h (Mode.allows_program _) (.inr hh)
    ((congrArg body ha.symm).trans hpart) (by rw [State.inRegion, hwx]; exact h.1)
  rw [hwx] at hx
  refine ⟨t, hexec.trans ht, ?_, ?_, ?_, ?_, ?_, ?_, ?_⟩
  · rw [hx]; rfl
  · rw [hx]
  · rw [hx]
  · rw [hx]
  · refine othersKept_trans (State.onlyContext_othersKept hsb) (State.onlyContext_cur hsb) (othersKept_trans (t := w)
      (othersKept_of_ctxAt fun d x => ?_) ?_ (State.onlyContext_othersKept hwt))
    · rw [hw, State.ctxAt_acquireSteps]
    · rw [hw, State.cur_acquireSteps]
  · refine State.sameBytes_trans (State.onlyContext_bytes hsb) (State.sameBytes_trans (t := w) ?_ (State.onlyContext_bytes hwt))
    rw [hw]
    exact b.sameBytes_acquireSteps _ _
  · rw [Core.sameShared_l1 (hwt.2.1 s.runCore), hw]
    exact b.l1_acquireSteps _ (by decide)

theorem wfe_waits {f : SR} {s : State} (h : s.executes f.ctl [] none 0) (hh : s.inHandler = false) (he : s.ctx.event = false) :
    ∃ t, exec (.wfe f) s = .next t ∧ waitsFor s t .event := by
  refine State.issue_waits (i := .wfe f) (m := wfeMeta) (u := s.atIssue (allSources f.ctl wfeMeta)) (by simp) h
    (Mode.allows_program _) (.inr hh) ?_ (State.onlyContext_refl _) rfl
  generalize ha : s.atIssue (allSources f.ctl wfeMeta) = a
  obtain ⟨-, -, hax, -, -⟩ := State.issuedAs (m := wfeMeta) h ha.symm
  simp [hax, he]

/-- A wait ends exactly where what was waited for has come. -/
theorem contextWake_wakes {c : CoreId} {x : CtxId} {w : Wait} {s : State} (hw : (s.ctxAt c x).status = .waiting w) :
    exec (.contextWake c x) s = .next
      (if (if w = .restored then s.waitOf (c, x) else some w).all (s.waitOver c x) = true then
        s.modCtxAt c x (fun y => { y with status := .live, waitFrom := s.cycle }) else s) := by
  have hmet : s.conditionMet c x w = (if w = .restored then s.waitOf (c, x) else some w).all (s.waitOver c x) := by
    unfold State.conditionMet
    by_cases hr : w = .restored
    · simp only [hr, beq_self_eq_true, if_true]
      cases s.waitOf (c, x) <;> rfl
    · simp only [beq_iff_eq, if_neg hr]
      rfl
  change execContextWake c x s = _
  unfold execContextWake State.wake
  simp only [hw, hmet]

/-- Settles O30: each instruction by its own part, the end of a wait by its condition. -/
theorem helpersAndEnds : Obligations.HelpersAndEnds := by
  unfold Obligations.HelpersAndEnds
  refine ⟨fun f s h hh h10 => hstart_starts_or_waits h hh h10, fun f s h hh => ⟨hjoin_joins h hh, hkill_kills_or_traps h hh⟩,
    fun f s h hh => ⟨fun ⟨h0, hact⟩ => hend_waits h hh h0 hact, hend_ends h hh⟩, fun f s v h hh hv => hend_invocation h hh hv,
    fun f s h hh => ?_, fun c x w s hw => ⟨_, contextWake_wakes hw, ?_⟩⟩
  · by_cases he : s.ctx.event = true
    · simp only [if_pos he]
      exact wfe_takes h hh he
    · simp only [if_neg he]
      exact wfe_waits h hh (by simpa using he)
  · by_cases hover : (if w = .restored then s.waitOf (c, x) else some w).all (s.waitOver c x) = true
    · simp only [if_pos hover]
    · simp only [if_neg hover]

end Sys2Proof.Machine

/-! What a step runs (02 R30; 03 R53; 15 R340). -/
namespace Sys2Proof.Machine
open Sys2Proof Sys2Proof.Claims

/-! ### Injection limits (01 R18) -/

theorem State.overLimit_eq (s t : State) (d : DieId) (domain : BitVec 16) :
    s.overLimit t d domain = true ↔ ∃ lim, s.injectLimit d domain.toNat = some lim ∧ (s.dieAt d).usedFlits domain.toNat ≠ 0 ∧
      (s.dieAt d).usedFlits domain.toNat < (t.dieAt d).usedFlits domain.toNat ∧ lim < (t.dieAt d).usedFlits domain.toNat := by
  unfold State.overLimit
  cases s.injectLimit d domain.toNat with
  | none => simp
  | some lim => simp [and_assoc]

/-- A limited turn runs within its domain's allowance. -/
theorem State.runsWithin_limited (s : State) (d : DieId) (domain : BitVec 16) (stalled : State) (o : Out) :
    runsWithin s d domain stalled o (s.limited d domain stalled o) := by
  refine ⟨fun t lim ho hlim hused hmore hover => ?_, fun t ho hin => ?_, fun hne => ?_⟩
  · have : s.overLimit t d domain = true := (s.overLimit_eq t d domain).2 ⟨lim, hlim, hused, hmore, hover⟩
    rw [ho, State.limited, if_pos this]
  · have : ¬ s.overLimit t d domain = true := fun h => by
      obtain ⟨lim, hlim, hused, hmore, hover⟩ := (s.overLimit_eq t d domain).1 h
      have hin := hin lim hlim
      dsimp only at hin
      omega
    rw [ho, State.limited, if_neg this]
  · cases o with
    | next t => exact absurd rfl (hne t)
    | _ => rfl

/-- Where a domain has no limit, its turn answers what it runs. -/
theorem State.limited_unlimited {s : State} {d : DieId} {domain : BitVec 16} (stalled : State) (o : Out)
    (h : s.injectLimit d domain.toNat = none) : s.limited d domain stalled o = o := by
  cases o with
  | next t => simp [State.limited, State.overLimit, h]
  | _ => rfl

/-! ### The turns of a step -/

theorem step_clock {s : State} (hh : s.halted = false) (hc : s.clockDue = true) : step s = .next s.raiseClock := by
  rw [step, if_neg (by simp [hh]), if_pos hc]

theorem step_event {s : State} {i : Instr} {rest : List Turn} (hh : s.halted = false) (hc : s.clockDue = false)
    (ha : s.agenda = .event i :: rest) : step s = exec i { s with agenda := rest } := by
  rw [step, if_neg (by simp [hh]), if_neg (by simp [hc]), ha]

theorem step_agent {s : State} {d : DieId} {n : Fin 8} {rest : List Turn} (hh : s.halted = false) (hc : s.clockDue = false)
    (ha : s.agenda = .agent d n :: rest) : step s = stepAgent d n { s with agenda := rest } := by
  rw [step, if_neg (by simp [hh]), if_neg (by simp [hc]), ha]

theorem step_focus {s : State} (hh : s.halted = false) (hc : s.clockDue = false) (ha : s.agenda = []) :
    step s = stepCore s.focus (({ s with focus := s.nextFocus } : State).wakeAll s.focus) := by
  rw [step, if_neg (by simp [hh]), if_neg (by simp [hc]), ha]

/-- An agent's turn runs the command at the head of its queue, for the domain of its sender. -/
theorem stepAgent_runs {s : State} {d : DieId} {n : Fin 8} {i : Instr} (h : s.headCommand d n = some (.ok i)) :
    ∃ c, (queueOf s d n).head? = some c ∧
      runsWithin s d c.sender.domain (s.deferTurn (.agent d n)) (exec i s) (stepAgent d n s) := by
  have hs : stepAgent d n s = s.limited d (s.headDomain d n) (s.deferTurn (.agent d n)) (exec i s) := by rw [stepAgent, h]
  rw [hs]
  unfold State.headCommand at h
  unfold State.headDomain queueOf
  split at h
  · cases h
  · rename_i c q hq
    rw [hq]
    exact ⟨c, rfl, s.runsWithin_limited _ _ _ _⟩

theorem stepCore_invoke {c : CoreId} {s : State} (h : s.choose c = .invoke) :
    stepCore c s = s.limited (dieOf c) (s.invokeDomain c) (s.stallHandler c) (exec (.handlerInvocation c) s) := by
  rw [stepCore, h]

theorem stepCore_run {c : CoreId} {s : State} {p : CoreId × CtxId} (h : s.choose c = .run p) (hb : (s.select c p).boundary = none) :
    stepCore c s = (s.select c p).limited (s.select c p).runDie (s.select c p).ctx.domain (s.select c p).stallContext
      (stepContext (s.select c p)) := by
  rw [stepCore, h]
  dsimp only
  rw [hb]

/-- The context that a core has chosen runs within its domain's allowance; it stalls until the next window else. -/
theorem stepCore_run_within {c : CoreId} {s : State} {p : CoreId × CtxId} (h : s.choose c = .run p)
    (hb : (s.select c p).boundary = none) :
    runsWithin (s.select c p) (s.select c p).runDie (s.select c p).ctx.domain
      ((s.select c p).modCtx (fun y => { y with nextIssue := (s.cycle / 1024 + 1) * 1024 })) (stepContext (s.select c p)) (stepCore c s) := by
  have hcycle : (s.select c p).cycle = s.cycle := rfl
  have hstall : (s.select c p).stallContext =
      (s.select c p).modCtx (fun y => { y with nextIssue := (s.cycle / 1024 + 1) * 1024 }) := by
    rw [State.stallContext, State.nextWindow, hcycle]
  rw [stepCore_run h hb, hstall]
  exact State.runsWithin_limited _ _ _ _ _

theorem stepContext_error {s : State} {k : BitVec 8} (h : s.fetch = .error k) : stepContext s = exec (.instructionFetch k s.ctx.pc) s := by
  rw [stepContext, h]

theorem stepContext_decoded {s u : State} {w : Word} {i : Instr} (h : s.fetch = .ok (w, u)) (hb : u.boundaryEvent w = none)
    (hd : decode w = .ok i) : stepContext s = exec i u := by
  rw [stepContext, h]
  dsimp only
  rw [hb, hd]

theorem stepContext_undecoded {s u : State} {w : Word} {e : _} (h : s.fetch = .ok (w, u)) (hb : u.boundaryEvent w = none)
    (hd : decode w = .error e) : stepContext s = exec (.unassignedOp w) u := by
  rw [stepContext, h]
  dsimp only
  rw [hb, hd]

end Sys2Proof.Machine

/-! The step that follows `withFetchWord` at reset (log 6). -/
namespace Sys2Proof.Machine
open Sys2Proof Sys2Proof.Claims

/-! ### A core whose turn finds nothing to wake -/

theorem State.foldl_kept {α : Type} {f : State → α → State} {s : State} {l : List α} (h : ∀ x ∈ l, f s x = s) : l.foldl f s = s := by
  induction l with
  | nil => rfl
  | cons x l ih =>
    rw [List.foldl_cons, h x List.mem_cons_self]
    exact ih fun y hy => h y (List.mem_cons_of_mem x hy)

theorem State.modCore_same {s : State} {c : CoreId} {f : Core → Core} (h : f (s.coreAt c) = s.coreAt c) : s.modCore c f = s := by
  unfold State.modCore State.setCore
  rw [h]
  exact congrArg (fun v => { s with cores := v }) (Vector.set_getElem_self c.isLt)

theorem State.wake_of_notWaiting {s : State} {c : CoreId} {x : CtxId} (h : ∀ w, (s.ctxAt c x).status ≠ .waiting w) : s.wake c x = s := by
  unfold State.wake
  split
  · rename_i w hw; exact absurd hw (h w)
  · rfl

theorem State.admitDue_of_empty {s : State} {c : CoreId} (h : (s.coreAt c).vqueue = []) : s.admitDue c = s := by
  refine State.modCore_same ?_
  rw [h]
  rfl

theorem State.holdBack_of_ready {s : State} {c : CoreId} (h : ∀ p ∈ s.candidates c, s.readyFrom c p ≤ s.cycle) : s.holdBack c = s :=
  State.foldl_kept fun p hp => if_neg (Nat.not_lt.2 (h p hp))

theorem State.wakeAll_of_ready {s : State} {c : CoreId} (hw : ∀ d x w, (s.ctxAt d x).status ≠ .waiting w)
    (hq : (s.coreAt c).vqueue = []) (hr : ∀ p ∈ s.candidates c, s.readyFrom c p ≤ s.cycle) : s.wakeAll c = s := by
  unfold State.wakeAll
  rw [State.foldl_kept fun p _ => State.wake_of_notWaiting (hw p.1 p.2), State.admitDue_of_empty hq, State.holdBack_of_ready hr]

/-- With no result outstanding the operands are ready. -/
theorem Ctx.operandsFrom_of_noPend {x : Ctx} (i : Instr) (h : x.pend = []) : x.operandsFrom i = 0 := by
  have hfold : ∀ l : List (BitVec 6), l.foldl (fun m r => if r = 0 then m else max m (readyAt r ([] : List Pend))) 0 = 0 := fun l => by
    induction l with
    | nil => rfl
    | cons r l ih => rw [List.foldl_cons, readyAt, Nat.max_self, ite_self]; exact ih
  unfold Ctx.operandsFrom
  rw [h]
  split
  · exact hfold _
  · rfl

/-- On a core whose vector unit is idle no instruction waits for it. -/
theorem State.vectorsFrom_of_idle {s : State} {c : CoreId} (p : CoreId × CtxId) (i : Instr) (hq : (s.coreAt c).vqueue = [])
    (hw : (s.coreAt c).walks = []) : s.vectorsFrom c p i = 0 := by
  have hdone : (s.coreAt c).vectorsDone p = 0 := by
    unfold Core.vectorsDone Core.drained
    rw [hq]
    change walksDone p (s.coreAt c).walks = 0
    rw [hw]
    rfl
  unfold State.vectorsFrom
  dsimp only
  rw [hdone, ite_self]

/-- A core whose only context that may issue is its control context, ready, in a state with no invocation to start, runs it. -/
theorem State.choose_control {s : State} {c : CoreId} (hc : s.candidates c = [(c, 0)]) (hready : (s.ctxAt c 0).waitFrom ≤ s.cycle)
    (hage : s.cycle < (s.ctxAt c 0).waitFrom + 32) (hi : (s.coreAt c).inv = none) (hq : (s.coreAt c).hqueue = []) :
    s.choose c = .run (c, 0) := by
  have hne : ((c, (0 : CtxId)) != (c, handlerCtx)) = true := by
    have h0 : (0 : CtxId) ≠ handlerCtx := by decide
    exact bne_iff_ne.2 fun e => h0 (congrArg Prod.snd e)
  have hlong : s.longest [] = none := rfl
  simp [State.choose, hc, hi, hq, hready, hne, Nat.not_le.2 hage, hlong]

/-! ### The state that `withFetchWord` leaves -/

theorem State.coreAt_of_cores {s t : State} (h : t.cores = s.cores) (c : CoreId) : t.coreAt c = s.coreAt c := by
  unfold State.coreAt
  rw [h]

theorem State.ctxAt_of_cores {s t : State} (h : t.cores = s.cores) (c : CoreId) (x : CtxId) : t.ctxAt c x = s.ctxAt c x := by
  unfold State.ctxAt
  rw [State.coreAt_of_cores h]

/-- A context to which a placed word has been given. -/
def Ctx.placed (x : Ctx) : Ctx :=
  { x with
    status := .live, pc := BitVec.ofNat 64 fetchBase, mode := .firmware, domain := 0, hopped := none, travel := none,
    stopped := false, notice := none, noticed := false, vlcapTrap := none, region := none, midWait := none, killed := false, pend := []
    nextIssue := 0, waitFrom := 0 }

theorem State.ctxAt_placeWord (s : State) (n : Nat) (c : CoreId) (x : CtxId) :
    (s.placeWord n).ctxAt c x = if c = 0 ∧ x = 0 then (s.ctxAt 0 0).placed else s.ctxAt c x := by
  unfold State.placeWord
  dsimp only
  rw [State.ctxAt_modCtxAt]
  refine if_congr Iff.rfl (congrArg Ctx.placed ?_) ?_
  · exact State.ctxAt_modCore _ _ _ _ _ fun _ => rfl
  · exact State.ctxAt_modCore _ _ _ _ _ fun _ => rfl

theorem State.coreAt_placeWord (s : State) (n : Nat) : ∃ v, (s.placeWord n).coreAt 0 = { s.coreAt 0 with
    ctxs := v, icache := [⟨fetchBase, 32, n⟩], plb := [⟨0, fetchBase / 65536, fetchBase / 65536, 4⟩]
    vqueue := [], walks := [], hqueue := [], inv := none } := by
  unfold State.placeWord State.modCtxAt
  dsimp only
  rw [State.coreAt_modCore_self, State.coreAt_modCore_self]
  exact ⟨_, rfl⟩

/-- The state in which the word after reset issues: its first step has chosen the next focus. -/
def fetchState (w : Word) (f : CoreId) : State := { State.reset.withFetchWord 64 w.toNat with focus := f }

/-- The context in which that word issues. -/
def fetchCtx : Ctx := { Ctx.reset with status := .live, pc := BitVec.ofNat 64 fetchBase, mode := .firmware }

section
variable (w : Word) (f : CoreId)

theorem ctxAt_fetchState (c : CoreId) (x : CtxId) : (fetchState w f).ctxAt c x = if c = 0 ∧ x = 0 then fetchCtx else Ctx.reset := by
  refine (State.ctxAt_of_cores (s := State.reset.placeWord (w.toNat % 2 ^ 64)) rfl c x).trans ?_
  rw [State.ctxAt_placeWord, ctxAt_reset, ctxAt_reset]
  rfl

/-- What the core keeps of its reset state, and what it fetches from. -/
theorem core_fetchState : ∃ v, (fetchState w f).coreAt 0 = { Core.reset with
    ctxs := v, icache := [⟨fetchBase, 32, w.toNat⟩], plb := [⟨0, fetchBase / 65536, fetchBase / 65536, 4⟩] } := by
  obtain ⟨v, hv⟩ := State.coreAt_placeWord State.reset (w.toNat % 2 ^ 64)
  refine ⟨v, (State.coreAt_of_cores (s := State.reset.placeWord (w.toNat % 2 ^ 64)) rfl 0).trans (hv.trans ?_)⟩
  rw [coreAt_reset, Nat.mod_eq_of_lt w.isLt]
  rfl

theorem dieAt_fetchState (d : DieId) : (fetchState w f).dieAt d = Die.reset := by
  change State.reset.dieAt d = Die.reset
  unfold State.dieAt State.reset
  exact Vector.getElem_replicate _

theorem cur_fetchState : (fetchState w f).cur = (0, 0) := rfl

theorem ctx_fetchState : (fetchState w f).ctx = fetchCtx := (ctxAt_fetchState w f 0 0).trans (if_pos ⟨rfl, rfl⟩)

theorem cycle_fetchState : (fetchState w f).cycle = 0 := rfl

theorem runCore_fetchState : (fetchState w f).runCore = 0 := by
  unfold State.runCore
  rw [ctx_fetchState]
  rfl

/-- The fetch finds the word in the instruction L1, with right X in the PLB. -/
theorem fetch_fetchState : (fetchState w f).fetch = .ok (w, fetchState w f) := by
  obtain ⟨v, hcore⟩ := core_fetchState w f
  have hplb : (fetchState w f).plbCheck 0 0 fetchBase rightX = (true, fetchState w f) := by
    unfold State.plbCheck
    rw [hcore]
    rfl
  have hline : l1Find ((fetchState w f).coreAt 0).icache fetchBase = some ⟨fetchBase, 32, w.toNat⟩ := by
    rw [hcore]
    rfl
  have hpc : fetchCtx.pc.toNat = fetchBase := by decide
  have hdom : fetchCtx.domain = 0 := rfl
  unfold State.fetch
  dsimp only
  rw [ctx_fetchState, hpc, runCore_fetchState, hdom, hplb, if_neg (by decide), if_neg (by decide)]
  dsimp only
  rw [if_neg (by decide), hline]
  simp

theorem candidates_fetchState : (fetchState w f).candidates 0 = [(0, 0)] := by
  have hhop : ∀ c x, ((fetchState w f).ctxAt c x).hopped = none := fun c x => by
    rw [ctxAt_fetchState]
    split <;> rfl
  have hcan : ∀ p : CoreId × CtxId, ((fetchState w f).ctxAt p.1 p.2).canIssue = (p == (0, 0)) := fun p => by
    rw [ctxAt_fetchState]
    by_cases hp : p = (0, 0)
    · rw [hp]; rfl
    · rw [if_neg fun e => hp (Prod.ext e.1 e.2), beq_eq_false_iff_ne.2 hp]
      rfl
  unfold State.candidates State.residents
  rw [dieAt_fetchState]
  simp only [hhop, hcan]
  decide

theorem readyFrom_fetchState {i : Instr} (h : decode w = .ok i) : (fetchState w f).readyFrom 0 (0, 0) = 0 := by
  obtain ⟨v, hcore⟩ := core_fetchState w f
  have hx : (fetchState w f).ctxAt 0 0 = fetchCtx := ctx_fetchState w f
  have hnext : (fetchState w f).nextInstr (0, 0) = some i := by
    unfold State.nextInstr
    change (match (fetchState w f).fetch with | .ok (w, _) => (decode w).toOption | .error _ => none) = some i
    rw [fetch_fetchState]
    simp [h, Except.toOption]
  have hrests : ∀ n, (fetchState w f).leaseRests (0, 0) n = true := fun n => by
    unfold State.leaseRests
    rw [dieAt_fetchState]
    rfl
  have hvec := State.vectorsFrom_of_idle (s := fetchState w f) (c := 0) (0, 0) i (by rw [hcore]; rfl) (by rw [hcore]; rfl)
  have hfree : ((fetchState w f).coreAt 0).queueFree = 0 := by
    rw [hcore]
    rfl
  unfold State.readyFrom
  dsimp only
  rw [hx, hnext]
  dsimp only
  rw [hvec, hfree, hrests, Ctx.operandsFrom_of_noPend i rfl]
  simp [fetchCtx, Ctx.reset]

theorem wakeAll_fetchState {i : Instr} (h : decode w = .ok i) : (fetchState w f).wakeAll 0 = fetchState w f := by
  obtain ⟨v, hcore⟩ := core_fetchState w f
  refine State.wakeAll_of_ready (fun d x u => ?_) (by rw [hcore]; rfl) fun p hp => ?_
  · rw [ctxAt_fetchState]
    split
    · simp [fetchCtx]
    · simp [Ctx.reset]
  · rw [candidates_fetchState, List.mem_singleton] at hp
    rw [hp, readyFrom_fetchState w f h]
    exact Nat.zero_le _

theorem choose_fetchState : (fetchState w f).choose 0 = .run (0, 0) := by
  obtain ⟨v, hcore⟩ := core_fetchState w f
  have hx : (fetchState w f).ctxAt 0 0 = fetchCtx := ctx_fetchState w f
  refine State.choose_control (candidates_fetchState w f) ?_ ?_ (by rw [hcore]; rfl) (by rw [hcore]; rfl)
  · rw [hx]; exact Nat.le_refl 0
  · rw [hx]; exact (by decide : 0 < fetchCtx.waitFrom + 32)

theorem select_fetchState : (fetchState w f).select 0 (0, 0) = fetchState w f := by
  have hplace : helperPlace 0 ((fetchState w f).dieAt (dieOf 0)).hopSlots (0, 0) = 0 := rfl
  unfold State.select
  dsimp only
  rw [hplace]
  exact State.modCore_same rfl

theorem boundary_fetchState : (fetchState w f).boundary = none := by
  unfold State.boundary
  rw [ctx_fetchState]
  rfl

theorem boundaryEvent_fetchState : (fetchState w f).boundaryEvent w = none := by
  have hh : (fetchState w f).inHandler = false := rfl
  have hr : (fetchState w f).inRegion = false := by rw [State.inRegion, ctx_fetchState]; rfl
  simp [State.boundaryEvent, hh, hr]

theorem injectLimit_fetchState (d : DieId) (n : Nat) : (fetchState w f).injectLimit d n = none := by
  unfold State.injectLimit
  rw [dieAt_fetchState]
  simp [Die.reset, FwRegs.reset]

/-- The step after `withFetchWord` executes the word's instruction. -/
theorem step_withFetchWord {i : Instr} (h : decode w = .ok i) :
    step (State.reset.withFetchWord 64 w.toNat) = exec i (fetchState w (State.reset.withFetchWord 64 w.toNat).nextFocus) := by
  have hdue : (State.reset.withFetchWord 64 w.toNat).clockDue = false := by
    have hdies : ∀ d, (State.reset.withFetchWord 64 w.toNat).dieAt d = Die.reset := dieAt_fetchState w 0
    have hnone : (State.reset.withFetchWord 64 w.toNat).dueEvictions = [] := by
      unfold State.dueEvictions
      simp only [hdies]
      rfl
    have htick : (State.reset.withFetchWord 64 w.toNat).tick = 0 := rfl
    have hcycle : (State.reset.withFetchWord 64 w.toNat).cycle = 0 := rfl
    simp [State.clockDue, hnone, htick, hcycle]
  generalize hf : (State.reset.withFetchWord 64 w.toNat).nextFocus = f
  have hstep : step (State.reset.withFetchWord 64 w.toNat) = stepCore 0 ((fetchState w f).wakeAll 0) := by
    rw [step_focus rfl hdue rfl, hf]
    rfl
  have hb : ((fetchState w f).select 0 (0, 0)).boundary = none := by rw [select_fetchState, boundary_fetchState]
  rw [hstep, wakeAll_fetchState w f h, stepCore_run (choose_fetchState w f) hb, select_fetchState,
    State.limited_unlimited _ _ (injectLimit_fetchState w f _ _),
    stepContext_decoded (fetch_fetchState w f) (boundaryEvent_fetchState w f) h]

end

/-- Settles O57: the turn that stands before the step, its sender's allowance, and the word fetched after reset. -/
theorem stepRunsDecoded : Obligations.StepRunsDecoded := by
  unfold Obligations.StepRunsDecoded
  refine ⟨fun s => step_clock, fun s i rest => step_event, fun s d n i rest hh hc ha hcmd => ?_, fun s hh hc ha => ⟨fun hi m hm => ?_,
    fun p hp hb => ⟨fun w u hf he => ⟨fun i hd => ?_, fun e hd => ?_⟩, fun k hf => ?_⟩⟩, fun w i h => ?_⟩
  · obtain ⟨c, hq, hr⟩ := stepAgent_runs hcmd
    rw [step_agent hh hc ha]
    exact ⟨c, hq, hr⟩
  · rw [step_focus hh hc ha, stepCore_invoke hi, State.invokeDomain, hm]
    exact State.runsWithin_limited _ _ _ _ _
  · rw [step_focus hh hc ha, ← stepContext_decoded hf he hd]
    exact stepCore_run_within hp hb
  · rw [step_focus hh hc ha, ← stepContext_undecoded hf he hd]
    exact stepCore_run_within hp hb
  · rw [step_focus hh hc ha, ← stepContext_error hf]
    exact stepCore_run_within hp hb
  · refine ⟨_, step_withFetchWord w h, cur_fetchState w _, ?_, cycle_fetchState w _, ?_⟩ <;> rw [ctx_fetchState]
    · rfl
    · rfl

end Sys2Proof.Machine

/-! Decoding and encoding agree (03 R53 to R58; 04 R73). -/
namespace Sys2Proof
open Sys2Proof.Claims

/-! ### A word put together again from its fields -/

theorem toNat_field (w : Word) (lo n : Nat) : (field w lo n).toNat = w.toNat / 2 ^ lo % 2 ^ n := by
  simp [field]

theorem field_eq_zero (w : Word) (lo n : Nat) : field w lo n = 0 ↔ w.toNat / 2 ^ lo % 2 ^ n = 0 := by
  rw [← toNat_field, ← BitVec.toNat_inj]
  rfl

theorem bitN_flag (w : Word) (k : Nat) : bitN (flag w k) = w.toNat / 2 ^ k % 2 := by
  unfold flag bitN
  rcases Nat.mod_two_eq_zero_or_one (w.toNat / 2 ^ k) with h | h <;> rw [h] <;> rfl

/-- Without a guard, GE = 0, the guard's bits are zero (03 R56). -/
def guardZero (w : Word) : Prop := flag w 52 = false → field w 39 13 = 0

/-- What a scalar-style word asks of its zero bits to be an instruction (03 R54, R56). -/
theorem scalarWord_eq_ok_iff (z : Nat) (w : Word) (i j : Instr) :
    scalarWord z w i = .ok j ↔ guardZero w ∧ w.toNat % 2 ^ z = 0 ∧ i = j := by
  have hz := field_eq_zero w 0 z
  rw [Nat.pow_zero, Nat.div_one] at hz
  rw [← hz, guardZero, scalarWord]
  by_cases hg : field w 39 13 = 0 <;> by_cases hl : field w 0 z = 0 <;> cases flag w 52 <;> simp_all

/-- Bits 55:39 of a scalar-style word. -/
theorem encodeSCtl_decode {w : Word} (h : guardZero w) : encodeSCtl (decodeSCtl w) = w.toNat / 2 ^ 39 % 2 ^ 17 * 2 ^ 39 := by
  have hge := bitN_flag w 52
  unfold encodeSCtl decodeSCtl
  cases hf : flag w 52 with
  | false =>
    have hg := (field_eq_zero w 39 13).mp (h hf)
    rw [hf] at hge
    simp only [toNat_field, bitN, Bool.false_eq_true, if_false] at hge ⊢
    omega
  | true =>
    rw [hf] at hge
    simp only [toNat_field, bitN_flag, if_true]
    simp only [bitN, if_true] at hge
    omega

/-- Bits 55:39 of a vector-style word. -/
theorem encodeVCtl_decode (w : Word) : encodeVCtl (decodeVCtl w) = w.toNat / 2 ^ 39 % 2 ^ 17 * 2 ^ 39 := by
  simp only [encodeVCtl, decodeVCtl, toNat_field, bitN_flag]
  omega

/-- The low bits of a word from `lo` up, and those below. -/
theorem toNat_mod_cut (w : Word) (hi lo : Nat) (h : lo ≤ hi := by decide) :
    w.toNat % 2 ^ hi = w.toNat / 2 ^ lo % 2 ^ (hi - lo) * 2 ^ lo + w.toNat % 2 ^ lo := by
  conv_lhs => rw [← Nat.add_sub_of_le h, Nat.pow_add, Nat.mod_mul]
  ring

/-- A word is its OP, its control bits and its 39 bits of fields. -/
theorem ofNat_parts (w : Word) :
    BitVec.ofNat 64 (opcode w * 2 ^ 56 + w.toNat / 2 ^ 39 % 2 ^ 17 * 2 ^ 39 + w.toNat % 2 ^ 39) = w := by
  have hw := w.isLt
  apply BitVec.eq_of_toNat_eq
  rw [BitVec.toNat_ofNat, opcode]
  omega

theorem encodeSR_decode {w : Word} (hg : guardZero w) (hz : w.toNat % 2 ^ 5 = 0) : encodeSR (opcode w) (decodeSR w) = w := by
  refine Eq.trans (congrArg (BitVec.ofNat 64) ?_) (ofNat_parts w)
  simp only [decodeSR, encodeSCtl_decode hg, toNat_field, toNat_mod_cut w 39 33, toNat_mod_cut w 33 27,
    toNat_mod_cut w 27 21, toNat_mod_cut w 21 13, toNat_mod_cut w 13 8, toNat_mod_cut w 8 5, hz, Nat.add_zero,
    Nat.add_assoc, Nat.reduceSub]

theorem encodeSI_decode {w : Word} (hg : guardZero w) : encodeSI (opcode w) (decodeSI w) = w := by
  refine Eq.trans (congrArg (BitVec.ofNat 64) ?_) (ofNat_parts w)
  simp only [decodeSI, encodeSCtl_decode hg, toNat_field, toNat_mod_cut w 39 33, toNat_mod_cut w 33 27, Nat.pow_zero,
    Nat.div_one, Nat.add_assoc, Nat.reduceSub]

theorem encodeSL_decode {w : Word} (hg : guardZero w) : encodeSL (opcode w) (decodeSL w) = w := by
  refine Eq.trans (congrArg (BitVec.ofNat 64) ?_) (ofNat_parts w)
  simp only [decodeSL, encodeSCtl_decode hg, toNat_field, toNat_mod_cut w 39 33, Nat.pow_zero, Nat.div_one, Nat.add_assoc,
    Nat.reduceSub]

theorem encodeBR_decode {w : Word} (hg : guardZero w) : encodeBR (opcode w) (decodeBR w) = w := by
  refine Eq.trans (congrArg (BitVec.ofNat 64) ?_) (ofNat_parts w)
  simp only [decodeBR, encodeSCtl_decode hg, toNat_field, Nat.pow_zero, Nat.div_one]

theorem encodeSB_decode {w : Word} (hg : guardZero w) : encodeSB (opcode w) (decodeSB w) = w := by
  refine Eq.trans (congrArg (BitVec.ofNat 64) ?_) (ofNat_parts w)
  simp only [decodeSB, encodeSCtl_decode hg, toNat_field, toNat_mod_cut w 39 33, toNat_mod_cut w 33 27, Nat.pow_zero,
    Nat.div_one, Nat.add_assoc, Nat.reduceSub]

theorem encodeSQ_decode {w : Word} (hg : guardZero w) (hz : w.toNat % 2 ^ 2 = 0) : encodeSQ (opcode w) (decodeSQ w) = w := by
  refine Eq.trans (congrArg (BitVec.ofNat 64) ?_) (ofNat_parts w)
  simp only [decodeSQ, encodeSCtl_decode hg, toNat_field, toNat_mod_cut w 39 33, toNat_mod_cut w 33 27,
    toNat_mod_cut w 27 21, toNat_mod_cut w 21 15, toNat_mod_cut w 15 7, toNat_mod_cut w 7 2, hz, Nat.add_zero,
    Nat.add_assoc, Nat.reduceSub]

theorem encodeSM_decode {w : Word} (hg : guardZero w) : encodeSM (opcode w) (decodeSM w) = w := by
  refine Eq.trans (congrArg (BitVec.ofNat 64) ?_) (ofNat_parts w)
  simp only [decodeSM, encodeSCtl_decode hg, toNat_field, toNat_mod_cut w 39 33, toNat_mod_cut w 33 27,
    toNat_mod_cut w 27 21, toNat_mod_cut w 21 3, Nat.pow_zero, Nat.div_one, Nat.add_assoc, Nat.reduceSub]

theorem encodeSA_decode {w : Word} (hg : guardZero w) (hz : w.toNat % 2 ^ 4 = 0) : encodeSA (opcode w) (decodeSA w) = w := by
  refine Eq.trans (congrArg (BitVec.ofNat 64) ?_) (ofNat_parts w)
  simp only [decodeSA, encodeSCtl_decode hg, toNat_field, bitN_flag, toNat_mod_cut w 39 33, toNat_mod_cut w 33 27,
    toNat_mod_cut w 27 21, toNat_mod_cut w 21 15, toNat_mod_cut w 15 10, toNat_mod_cut w 10 8, toNat_mod_cut w 8 7,
    toNat_mod_cut w 7 4, hz, Nat.add_zero, Nat.add_assoc, Nat.reduceSub, Nat.pow_one]

theorem encodeSAC_decode {w : Word} (hg : guardZero w) (hz : w.toNat % 2 ^ 3 = 0) : encodeSAC (opcode w) (decodeSAC w) = w := by
  refine Eq.trans (congrArg (BitVec.ofNat 64) ?_) (ofNat_parts w)
  simp only [decodeSAC, encodeSCtl_decode hg, toNat_field, bitN_flag, toNat_mod_cut w 39 33, toNat_mod_cut w 33 27,
    toNat_mod_cut w 27 21, toNat_mod_cut w 21 15, toNat_mod_cut w 15 9, toNat_mod_cut w 9 7, toNat_mod_cut w 7 6,
    toNat_mod_cut w 6 3, hz, Nat.add_zero, Nat.add_assoc, Nat.reduceSub, Nat.pow_one]

theorem encodeFY_decode {w : Word} (hg : guardZero w) : encodeFY (opcode w) (decodeFY w) = w := by
  refine Eq.trans (congrArg (BitVec.ofNat 64) ?_) (ofNat_parts w)
  simp only [decodeFY, encodeSCtl_decode hg, toNat_field, toNat_mod_cut w 39 33, toNat_mod_cut w 33 27,
    toNat_mod_cut w 27 21, Nat.pow_zero, Nat.div_one, Nat.add_assoc, Nat.reduceSub]

theorem encodeFK_decode {w : Word} (hg : guardZero w) : encodeFK (opcode w) (decodeFK w) = w := by
  refine Eq.trans (congrArg (BitVec.ofNat 64) ?_) (ofNat_parts w)
  simp only [decodeFK, encodeSCtl_decode hg, toNat_field, toNat_mod_cut w 39 35, toNat_mod_cut w 35 31,
    toNat_mod_cut w 31 27, toNat_mod_cut w 27 19, toNat_mod_cut w 19 13, Nat.pow_zero, Nat.div_one, Nat.add_assoc,
    Nat.reduceSub]

theorem encodeFX_decode {w : Word} (hg : guardZero w) : encodeFX (opcode w) (decodeFX w) = w := by
  refine Eq.trans (congrArg (BitVec.ofNat 64) ?_) (ofNat_parts w)
  simp only [decodeFX, encodeSCtl_decode hg, toNat_field, toNat_mod_cut w 39 35, toNat_mod_cut w 35 29,
    toNat_mod_cut w 29 23, toNat_mod_cut w 23 17, toNat_mod_cut w 17 11, toNat_mod_cut w 11 6, Nat.pow_zero, Nat.div_one,
    Nat.add_assoc, Nat.reduceSub]

theorem encodeFV_decode (w : Word) : encodeFV (opcode w) (decodeFV w) = w := by
  refine Eq.trans (congrArg (BitVec.ofNat 64) ?_) (ofNat_parts w)
  simp only [decodeFV, encodeVCtl_decode, toNat_field, toNat_mod_cut w 39 33, toNat_mod_cut w 33 27, toNat_mod_cut w 27 21,
    toNat_mod_cut w 21 15, toNat_mod_cut w 15 7, Nat.pow_zero, Nat.div_one, Nat.add_assoc, Nat.reduceSub]

theorem encodeVS_decode (w : Word) : encodeVS (opcode w) (decodeVS w) = w := by
  refine Eq.trans (congrArg (BitVec.ofNat 64) ?_) (ofNat_parts w)
  simp only [decodeVS, encodeVCtl_decode, toNat_field, toNat_mod_cut w 39 33, toNat_mod_cut w 33 27, toNat_mod_cut w 27 21,
    toNat_mod_cut w 21 13, Nat.pow_zero, Nat.div_one, Nat.add_assoc, Nat.reduceSub]

theorem encodeVM_decode (w : Word) : encodeVM (opcode w) (decodeVM w) = w := by
  refine Eq.trans (congrArg (BitVec.ofNat 64) ?_) (ofNat_parts w)
  simp only [decodeVM, encodeVCtl_decode, toNat_field, toNat_mod_cut w 39 33, toNat_mod_cut w 33 27, toNat_mod_cut w 27 21,
    toNat_mod_cut w 21 5, Nat.pow_zero, Nat.div_one, Nat.add_assoc, Nat.reduceSub]

/-! ### The opcode map -/

/-- A row of the opcode map whose format is scalar-style reads an encoded word back. -/
theorem decodeFields_of_scalarRow {F : Type} {op z : Nat} {enc : Nat → F → Word} {dec : Word → F} {mk : F → Instr} {f : F}
    (row : ∀ w, opcode w = op → decodeFields w = scalarWord z w (mk (dec w))) (hop : opcode (enc op f) = op)
    (hdec : dec (enc op f) = f) (hzero : scalarWord z (enc op f) (mk f) = .ok (mk f)) :
    decodeFields (enc op f) = .ok (mk f) := by
  rw [row _ hop, hdec, hzero]

/-- A row of the opcode map whose format is vector-style reads an encoded word back. -/
theorem decodeFields_of_vectorRow {F : Type} {op : Nat} {enc : Nat → F → Word} {dec : Word → F} {mk : F → Instr} {f : F}
    (row : ∀ w, opcode w = op → decodeFields w = .ok (mk (dec w))) (hop : opcode (enc op f) = op) (hdec : dec (enc op f) = f) :
    decodeFields (enc op f) = .ok (mk f) := by
  rw [row _ hop, hdec]

/-- A word that a scalar-style row reads is the word of what it reads. -/
theorem encode_of_scalarRow {F : Type} {op z : Nat} {enc : Nat → F → Word} {dec : Word → F} {mk : F → Instr} {w : Word} {i : Instr}
    (h : guardZero w ∧ w.toNat % 2 ^ z = 0 ∧ mk (dec w) = i) (ho : opcode w = op)
    (back : guardZero w → w.toNat % 2 ^ z = 0 → enc (opcode w) (dec w) = w) (row : ∀ f, encode (mk f) = enc op f) : encode i = w := by
  obtain ⟨hg, hz, rfl⟩ := h
  rw [row, ← ho, back hg hz]

/-- A word that a vector-style row reads is the word of what it reads. -/
theorem encode_of_vectorRow {F : Type} {op : Nat} {enc : Nat → F → Word} {dec : Word → F} {mk : F → Instr} {w : Word} {i : Instr}
    (h : mk (dec w) = i) (ho : opcode w = op)
    (back : enc (opcode w) (dec w) = w) (row : ∀ f, encode (mk f) = enc op f) : encode i = w := by
  rw [← h, row, ← ho, back]

set_option maxRecDepth 4000 in
/-- Each row reads its own words back; here the rows by their formats. -/
theorem decodeFields_encode (i : Instr) (h : hasWord i = true) : decodeFields (encode i) = .ok i := by
  cases i
  case add f | sub f | mul f | mulh f | div f | rem f | and f | or f | xor f | shl f | shr f | sra f | cmp f | min f |
    max f | clz f | ctz f | popc f | brev f | ext f | ins f | mov f | fdiv f | fsqrt f | fcvt f | padd f | pmake f |
    ptag f | eret f | wfe f | hjoin f | hend f | hkill f | launch f | hbind f | vdrain f | aend f | aabort f | msg f |
    reply f | notify f | plbinv f | pinv f | hop f | handoff f | pmig f =>
    exact decodeFields_of_scalarRow (fun w h => by rw [decodeFields, h]; rfl) (opcode_encodeSR _ f (by decide))
     (decodeSR_encode _ f (by decide)) (scalarWord_encodeSR _ f _ (by decide))
  case addI f | andI f | orI f | xorI f | shlI f | shrI f | sraI f | cmpI f | paddI f | jal f | jr f | setvl f |
    trap f | ecall f | bara f | barw f | cbres f | cbput f | cbget f | cbfree f | csrr f | csrw f =>
    exact decodeFields_of_scalarRow (fun w h => by rw [decodeFields, h]; rfl) (opcode_encodeSI _ f (by decide))
     (decodeSI_encode _ f (by decide)) (scalarWord_encodeSI _ f _ (by decide))
  case li f | lih f =>
    exact decodeFields_of_scalarRow (fun w h => by rw [decodeFields, h]; rfl) (opcode_encodeSL _ f (by decide))
     (decodeSL_encode _ f (by decide)) (scalarWord_encodeSL _ f _ (by decide))
  case br f | abegin f =>
    exact decodeFields_of_scalarRow (fun w h => by rw [decodeFields, h]; rfl) (opcode_encodeBR _ f (by decide))
     (decodeBR_encode _ f (by decide)) (scalarWord_encodeBR _ f _ (by decide))
  case subbr f =>
    exact decodeFields_of_scalarRow (fun w h => by rw [decodeFields, h]; rfl) (opcode_encodeSB _ f (by decide))
     (decodeSB_encode _ f (by decide)) (scalarWord_encodeSB _ f _ (by decide))
  case sel f | fma f | setvlc f | hstart f =>
    exact decodeFields_of_scalarRow (fun w h => by rw [decodeFields, h]; rfl) (opcode_encodeSQ _ f (by decide))
     (decodeSQ_encode _ f (by decide)) (scalarWord_encodeSQ _ f _ (by decide))
  case ld f | st f | ldacq f | strel f | cflush f =>
    exact decodeFields_of_scalarRow (fun w h => by rw [decodeFields, h]; rfl) (opcode_encodeSM _ f (by decide))
     (decodeSM_encode _ f (by decide)) (scalarWord_encodeSM _ f _ (by decide))
  case amo f =>
    exact decodeFields_of_scalarRow (fun w h => by rw [decodeFields, h]; rfl) (opcode_encodeSA _ f (by decide))
     (decodeSA_encode _ f (by decide)) (scalarWord_encodeSA _ f _ (by decide))
  case amocas f =>
    exact decodeFields_of_scalarRow (fun w h => by rw [decodeFields, h]; rfl) (opcode_encodeSAC _ f (by decide))
     (decodeSAC_encode _ f (by decide)) (scalarWord_encodeSAC _ f _ (by decide))
  case fence f =>
    exact decodeFields_of_scalarRow (fun w h => by rw [decodeFields, h]; rfl) (opcode_encodeFY _ f (by decide))
     (decodeFY_encode _ f (by decide)) (scalarWord_encodeFY _ f _ (by decide))
  case klog f | kmov f | kpush f | kpop f | kelse f | kcnt f | kfirst f | kbr f =>
    exact decodeFields_of_scalarRow (fun w h => by rw [decodeFields, h]; rfl) (opcode_encodeFK _ f (by decide))
     (decodeFK_encode _ f (by decide)) (scalarWord_encodeFK _ f _ (by decide))
  case mlease f | mfree f | mtile f | mshape f | mzero f | mlda f | mldb f | mma f | mmab f | mout f | mwait f |
    msave f | mrest f =>
    exact decodeFields_of_scalarRow (fun w h => by rw [decodeFields, h]; rfl) (opcode_encodeFX _ f (by decide))
     (decodeFX_encode _ f (by decide)) (scalarWord_encodeFX _ f _ (by decide))
  case vadd f | vsub f | vmul f | vmulh f | vmac f | vmin f | vmax f | vand f | vor f | vxor f | vshl f | vshr f |
    vsra f | vcmp f | vmerge f | vmov f | vperm f | viota f | vred f | vdotb f | vcvt f | vfmt f | vfma f | vfdiv f |
    vfsqrt f | vfest f | vfexp2 f | vflog2 f | vfsin f | vfclass f | tex f | texg f | rayq f =>
    exact decodeFields_of_vectorRow (fun w h => by rw [decodeFields, h]; rfl) (opcode_encodeFV _ f (by decide))
     (decodeFV_encode _ f (by decide))
  case vaddS f | vsubS f | vmulS f | vmulhS f | vmacS f | vminS f | vmaxS f | vandS f | vorS f | vxorS f | vshlS f |
    vshrS f | vsraS f | vcmpS f | vmovS f | vslide f | vext f | vins f =>
    exact decodeFields_of_vectorRow (fun w h => by rw [decodeFields, h]; rfl) (opcode_encodeVS _ f (by decide))
     (decodeVS_encode _ f (by decide))
  case vld f | vlds f | vldx f | vldff f | vst f | vsts f | vstx f | kld f | kst f =>
    exact decodeFields_of_vectorRow (fun w h => by rw [decodeFields, h]; rfl) (opcode_encodeVM _ f (by decide))
     (decodeVM_encode _ f (by decide))
  all_goals exact absurd h Bool.false_ne_true

set_option maxRecDepth 4000 in
/-- A word that a row reads is the word of what it reads; the rows stand in the order of `decodeFields`, here by their formats. -/
theorem encode_of_decodeFields {w : Word} (i : Instr) (h : decodeFields w = .ok i) : encode i = w := by
  unfold decodeFields at h
  split at h
  all_goals simp only [scalarWord_eq_ok_iff, Except.ok.injEq] at h
  case h_1 ho | h_2 ho | h_3 ho | h_4 ho | h_5 ho | h_6 ho | h_7 ho | h_8 ho | h_9 ho | h_10 ho | h_11 ho | h_12 ho |
    h_13 ho | h_14 ho | h_15 ho | h_16 ho | h_17 ho | h_18 ho | h_19 ho | h_20 ho | h_21 ho | h_22 ho | h_25 ho |
    h_26 ho | h_27 ho | h_28 ho | h_29 ho | h_30 ho | h_49 ho | h_50 ho | h_52 ho | h_53 ho | h_54 ho | h_55 ho |
    h_56 ho | h_65 ho | h_69 ho | h_70 ho | h_71 ho | h_72 ho | h_73 ho | h_80 ho | h_81 ho | h_83 ho | h_84 ho |
    h_85 ho =>
    exact encode_of_scalarRow h ho (fun hg hz => encodeSR_decode hg hz) fun _ => rfl
  case h_31 ho | h_32 ho | h_33 ho | h_34 ho | h_35 ho | h_36 ho | h_37 ho | h_38 ho | h_41 ho | h_43 ho | h_44 ho |
    h_46 ho | h_48 ho | h_57 ho | h_66 ho | h_67 ho | h_74 ho | h_75 ho | h_76 ho | h_77 ho | h_78 ho | h_79 ho =>
    exact encode_of_scalarRow h ho (fun hg _ => encodeSI_decode hg) fun _ => rfl
  case h_39 ho | h_40 ho =>
    exact encode_of_scalarRow h ho (fun hg _ => encodeSL_decode hg) fun _ => rfl
  case h_42 ho | h_68 ho =>
    exact encode_of_scalarRow h ho (fun hg _ => encodeBR_decode hg) fun _ => rfl
  case h_45 ho =>
    exact encode_of_scalarRow h ho (fun hg _ => encodeSB_decode hg) fun _ => rfl
  case h_23 ho | h_24 ho | h_47 ho | h_51 ho =>
    exact encode_of_scalarRow h ho (fun hg hz => encodeSQ_decode hg hz) fun _ => rfl
  case h_58 ho | h_59 ho | h_60 ho | h_61 ho | h_82 ho =>
    exact encode_of_scalarRow h ho (fun hg _ => encodeSM_decode hg) fun _ => rfl
  case h_62 ho =>
    exact encode_of_scalarRow h ho (fun hg hz => encodeSA_decode hg hz) fun _ => rfl
  case h_63 ho =>
    exact encode_of_scalarRow h ho (fun hg hz => encodeSAC_decode hg hz) fun _ => rfl
  case h_64 ho =>
    exact encode_of_scalarRow h ho (fun hg _ => encodeFY_decode hg) fun _ => rfl
  case h_143 ho | h_144 ho | h_145 ho | h_146 ho | h_147 ho | h_148 ho | h_149 ho | h_150 ho =>
    exact encode_of_scalarRow h ho (fun hg _ => encodeFK_decode hg) fun _ => rfl
  case h_151 ho | h_152 ho | h_153 ho | h_154 ho | h_155 ho | h_156 ho | h_157 ho | h_158 ho | h_159 ho | h_160 ho |
    h_161 ho | h_162 ho | h_163 ho =>
    exact encode_of_scalarRow h ho (fun hg _ => encodeFX_decode hg) fun _ => rfl
  case h_86 ho | h_87 ho | h_88 ho | h_89 ho | h_90 ho | h_91 ho | h_92 ho | h_93 ho | h_94 ho | h_95 ho | h_96 ho |
    h_97 ho | h_98 ho | h_99 ho | h_100 ho | h_101 ho | h_103 ho | h_104 ho | h_107 ho | h_108 ho | h_109 ho |
    h_110 ho | h_126 ho | h_127 ho | h_128 ho | h_129 ho | h_130 ho | h_131 ho | h_132 ho | h_133 ho | h_164 ho |
    h_165 ho | h_166 ho =>
    exact encode_of_vectorRow h ho (encodeFV_decode w) fun _ => rfl
  case h_102 ho | h_105 ho | h_106 ho | h_111 ho | h_112 ho | h_113 ho | h_114 ho | h_115 ho | h_116 ho | h_117 ho |
    h_118 ho | h_119 ho | h_120 ho | h_121 ho | h_122 ho | h_123 ho | h_124 ho | h_125 ho =>
    exact encode_of_vectorRow h ho (encodeVS_decode w) fun _ => rfl
  case h_134 ho | h_135 ho | h_136 ho | h_137 ho | h_138 ho | h_139 ho | h_140 ho | h_141 ho | h_142 ho =>
    exact encode_of_vectorRow h ho (encodeVM_decode w) fun _ => rfl
  case h_167 => exact h ▸ rfl

theorem decode_eq_ok_iff (w : Word) (i : Instr) : decode w = .ok i ↔ decodeFields w = .ok i ∧ i.wellFormed = true := by
  unfold decode Instr.wellFormed
  cases decodeFields w with
  | error e => simp
  | ok j =>
    dsimp only
    by_cases hj : j = i
    · subst hj
      cases j.check <;> simp
    · cases j.check <;> simp [hj]

/-- Settles O55: a row reads its own words back, and a word that a row reads is the word of what it reads. -/
theorem decodeEncode : Obligations.DecodeEncode :=
  ⟨fun i hw hi => (decode_eq_ok_iff _ i).mpr ⟨decodeFields_encode i hw, hi⟩, fun w i h =>
    have ⟨hf, hi⟩ := (decode_eq_ok_iff w i).mp h
    ⟨hi, encode_of_decodeFields i hf⟩⟩

end Sys2Proof

/-! The values at module reset (03 R47 to R52; 06 R133; 12 R269, R278; 13 R287, R305; 14 R318 to R320), and words written out. -/
namespace Sys2Proof.Machine
open Sys2Proof Sys2Proof.Claims

theorem dieAt_reset (d : DieId) : State.reset.dieAt d = Die.reset := by
  unfold State.dieAt State.reset
  exact Vector.getElem_replicate _

/-- At reset a context CSR reads the same in every context. -/
theorem csrRead_reset (p : CoreId × CtxId) : ∀ r ∈ resetCsrs, ({ State.reset with cur := p } : State).csrRead r.1 = r.2 := by
  have hctx : ({ State.reset with cur := p } : State).ctx = Ctx.reset := ctxAt_reset p.1 p.2
  simp only [resetCsrs, List.forall_mem_cons, List.not_mem_nil, false_imp_iff, implies_true, and_true, State.csrRead, hctx]
  and_intros <;> rfl

theorem linesOk_reset : linesOk State.reset = true := by
  have hcores : ∀ k ∈ State.reset.cores.toList, k = Core.reset := fun k hk => by
    rw [State.reset, Vector.toList_replicate] at hk
    exact List.eq_of_mem_replicate hk
  have hdies : ∀ d ∈ State.reset.dies.toList, d = Die.reset := fun d hd => by
    rw [State.reset, Vector.toList_replicate] at hd
    exact List.eq_of_mem_replicate hd
  rw [linesOk, Bool.and_eq_true, List.all_eq_true, List.all_eq_true]
  refine ⟨fun k hk => ?_, fun d hd => ?_⟩
  · rw [hcores k hk]; rfl
  · rw [hdies d hd]; rfl

/-- Settles O58: each table is read off the reset state of a context, a core, a die or the Bellows. -/
theorem resetValues : Obligations.ResetValues := by
  unfold Obligations.ResetValues
  refine ⟨csrRead_reset, fun c n => ?_, fun d => ?_, by decide, fun n => ?_, rfl, rfl, rfl, rfl, linesOk_reset⟩
  · rw [coreAt_reset, show Core.reset.rings[n] = Ring.reset from Vector.getElem_replicate _]
    decide
  · rw [dieAt_reset]
    decide
  · exact Vector.getElem_replicate _

/-- Settles O56: each word is decoded. -/
theorem decodeWords : Obligations.DecodeWords := by
  unfold Obligations.DecodeWords
  decide

end Sys2Proof.Machine

/-! The checks of issue before an instruction's own part: privilege, the scoreboard, a false guard (03 R56, R59, R60, R62). -/
namespace Sys2Proof.Machine
open Sys2Proof Sys2Proof.Claims

/-! ### Every scalar-style instruction goes through issue -/

theorem csrMode_eq_leastMode (n : Nat) :
    csrMode n = if 0x100 ≤ n ∧ n ≤ 0x104 then Mode.supervisor else .program := by
  simp only [csrMode, Bool.and_eq_true, decide_eq_true_eq]

/-- A scalar-style instruction issues with its control bits and the mode that it needs (03 R59, R60). -/
theorem exec_eq_issue (i : Instr) (s : State) {ctl : SCtl} (h : scalarCtl i = some ctl) :
    ∃ m body, exec i s = s.issue i ctl m body ∧ m.priv = leastMode i := by
  cases i
  case csrr f => cases h; exact ⟨_, _, rfl, csrMode_eq_leastMode _⟩
  case csrw f => cases h; exact ⟨_, _, rfl, csrMode_eq_leastMode _⟩
  all_goals cases h <;> exact ⟨_, _, rfl, rfl⟩

/-- Only scalar-style instructions need a higher mode (03 R59). -/
theorem scalarCtl_isSome_of_leastMode {i : Instr} (h : leastMode i ≠ .program) : (scalarCtl i).isSome = true := by
  cases i
  case eret f | hbind f | plbinv f | pinv f | pmig f | msave f | mrest f | handoff f | csrr f | csrw f => rfl
  all_goals exact absurd rfl h

/-! ### Issue outside a region -/

theorem State.modCtx_congr (s : State) {f g : Ctx → Ctx} (h : f s.ctx = g s.ctx) : s.modCtx f = s.modCtx g := by
  have e : f ((s.coreAt s.cur.1).ctxs[s.cur.2]) = g ((s.coreAt s.cur.1).ctxs[s.cur.2]) := h
  unfold State.modCtx State.modCtxAt State.modCore
  dsimp only
  rw [e]

/-- Outside a region it makes no difference whether NINS would count an instruction. -/
theorem State.countIssue_outside {s : State} (h : s.inRegion = false) (b : Bool) : s.countIssue b = s.countIssue true := by
  have hctx := State.modCtx_congr s (f := fun x => { x with
      sinceHop := x.sinceHop + 1
      midWait := none
      astate := if b && x.region.isSome then { x.astate with nins := x.astate.nins + 1 } else x.astate })
    (g := fun x => { x with
      sinceHop := x.sinceHop + 1
      midWait := none
      astate := if true && x.region.isSome then { x.astate with nins := x.astate.nins + 1 } else x.astate })
    (by simp only [State.region_none h, Option.isSome_none, Bool.and_false])
  unfold State.countIssue
  rw [hctx]

theorem State.issue_outside {s : State} (h : s.inRegion = false) (i : Instr) (ctl : SCtl) (m : Meta) (body : State → Effect) :
    s.issue i ctl m body = .next (((s.atIssue (allSources ctl m)).attempt i ctl m body).finish ctl.stall) := by
  have ha : (s.advanceTo (s.issueCycle (allSources ctl m))).inRegion = false := by rw [State.inRegion, State.ctx_advanceTo]; exact h
  rw [State.issue, State.countIssue_outside ha]
  rfl

/-- A check that fails before the own part of an instruction: its trap is taken (13 R289). -/
theorem State.issue_refuses {s : State} {i : Instr} {ctl : SCtl} {m : Meta} {body : State → Effect} {c : BitVec 8} {v : Word}
    (hr : s.inRegion = false) (hh : s.inHandler = false)
    (h : (s.atIssue (allSources ctl m)).attempt i ctl m body = .trap (s.atIssue (allSources ctl m)) c v) :
    ∃ t, s.issue i ctl m body = .next t ∧ s.trapTaken t none c v :=
  ⟨_, (State.issue_outside hr i ctl m body).trans (by rw [h]; rfl),
    State.trapTaken_trapAt (s.onlyContext_atIssue _) ⟨_, _, State.ctx_atIssue s _ hr⟩ hr hh _ _ _ _⟩

/-! ### Privilege (03 R59) -/

theorem State.attempt_privileged {s : State} {m : Meta} (h : s.ctx.mode.allows m.priv = false) (i : Instr) (ctl : SCtl)
    (body : State → Effect) : s.attempt i ctl m body = .trap s 0x02 (encode i) := by
  rw [State.attempt, h]
  rfl

/-- Settles O5: only scalar-style instructions need a higher mode, and issue checks it first. -/
theorem privilegeTraps : Obligations.PrivilegeTraps := by
  intro i s hp hr hh
  have hi : leastMode i ≠ .program := fun e => by rw [e, Mode.allows_program] at hp; exact absurd hp (by decide)
  obtain ⟨ctl, hctl⟩ := Option.isSome_iff_exists.mp (scalarCtl_isSome_of_leastMode hi)
  obtain ⟨m, body, hexec, hm⟩ := exec_eq_issue i s hctl
  rw [hexec]
  refine State.issue_refuses hr hh (State.attempt_privileged ?_ i ctl body)
  rw [State.ctx_atIssue s _ hr, hm]
  exact hp

/-! ### Results that are ready (03 R62) -/

/-- A register whose results are all ready reads as it stands, in trust mode too. -/
theorem nextPend_of_ready {c : Nat} {r : BitVec 6} {ps : List Pend} (h : readyAt r ps ≤ c) : nextPend c r ps = none := by
  induction ps with
  | nil => rfl
  | cons p ps ih =>
    unfold readyAt at h
    unfold nextPend
    by_cases hp : p.reg = r
    · rw [if_pos (by simpa using hp)] at h
      rw [if_neg (by simp; omega)]
      exact ih (by omega)
    · rw [if_neg (by simpa using hp)] at h
      rw [if_neg (by simp [hp])]
      exact ih h

theorem State.rs_of_ready {s : State} {r : BitVec 6} (h : s.ctx.scbmode = 1 → readyAt r s.ctx.pend ≤ s.cycle) : s.rs r = s.reg r := by
  by_cases hm : s.ctx.scbmode = 1
  · unfold State.rs State.reg
    rw [if_pos hm, nextPend_of_ready (h hm)]
  · exact State.rs_eq_reg s r hm

theorem readyToIssue_ready {s : State} (h : readyToIssue s) (hm : s.ctx.scbmode ≠ 0) (r : BitVec 6) :
    readyAt r s.ctx.pend ≤ max s.cycle s.ctx.nextIssue := h.resolve_left hm r

theorem readyToIssue_noUnderflow {s : State} (h : readyToIssue s) (srcs : List (BitVec 6)) (dst : Option (BitVec 6)) (lam : Nat) :
    s.noUnderflow srcs dst lam := fun hm => by
  have hr := readyToIssue_ready h (by rw [hm]; decide)
  exact ⟨fun r _ _ => hr r, fun d _ _ _ => (hr d).trans (Nat.le_add_right _ _)⟩

/-- At issue every register reads as it stood before. -/
theorem State.rs_atIssue_of_ready {s : State} (hr : s.inRegion = false) (h : readyToIssue s) (srcs : List (BitVec 6)) (r : BitVec 6) :
    (s.atIssue srcs).rs r = s.reg r := by
  rw [← State.reg_atIssue s srcs hr]
  refine State.rs_of_ready fun hm => ?_
  rw [State.scbmode_atIssue s _ hr] at hm
  rw [State.ctx_atIssue s _ hr, State.cycle_atIssue]
  have := readyToIssue_ready h (by rw [hm]; decide) r
  have := s.issueCycle_ge srcs
  dsimp only
  omega

/-! ### A false guard (03 R56) -/

/-- An instruction with a false guard completes where it began. -/
theorem State.attempt_skips {s : State} {i : Instr} {ctl : SCtl} {m : Meta} {g : Guard} (body : State → Effect)
    (hr : s.inRegion = false) (h : readyToIssue s) (hp : s.ctx.mode.allows m.priv = true) (hg : ctl.guard = some g)
    (hf : (bitAt (s.reg g.greg) g.gbit.toNat ^^ g.gn) = false) :
    (s.atIssue (allSources ctl m)).attempt i ctl m body = .next (s.atIssue (allSources ctl m)) := by
  have hmode : (s.atIssue (allSources ctl m)).ctx.mode = s.ctx.mode := by rw [State.ctx_atIssue s _ hr]
  have hguard : (s.atIssue (allSources ctl m)).guardHolds g = false := by
    rw [State.guardHolds, State.rs_atIssue_of_ready hr h]
    exact hf
  rw [State.attempt, State.underflow_none s ctl m hr (readyToIssue_noUnderflow h _ _ _), hmode, hp]
  simp only [Bool.not_true, Bool.false_eq_true, if_false, State.underGuard, hg, State.region_atIssue s _ hr, hguard]

theorem State.cycle_retire (s : State) (n : BitVec 3) : (s.retire n).cycle = s.cycle + 1 := by
  simp [State.retire, State.cycle_advanceTo]

/-- What completes with nothing but the books of issue changed. -/
theorem State.scalarDone_finish_next {s u : State} (hu : s.onlyContext u) (hx : s.ctx.onlyScalars u.ctx) (hs : u.ctx.s = s.ctx.s)
    (hf : u.ctx.fcsr = s.ctx.fcsr) (hpc : u.ctx.pc = s.ctx.pc) (n : BitVec 3) :
    s.scalarDone ((Effect.next u).finish n) 0 0 0 := by
  have ho := State.onlyContext_trans hu (u.onlyContext_finish_next n)
  have hctx := u.ctx_finish_next n
  refine ⟨ho, State.onlyContext_bytes ho, Ctx.onlyScalars_trans hx ?_, ?_, ?_, ?_⟩
  · unfold Ctx.onlyScalars Effect.finish
    rw [hctx]
  all_goals unfold Effect.finish; rw [hctx]
  · rw [hpc]
  · exact hs
  · simpa using hf

/-- Settles O4: the instruction's own part does not run, and the books of issue are kept. -/
theorem falseGuardSkips : Obligations.FalseGuardSkips := by
  intro i s ctl g hctl hg hf hr hready hp
  obtain ⟨m, body, hexec, hm⟩ := exec_eq_issue i s hctl
  rw [hexec, State.issue_outside hr, State.attempt_skips body hr hready (by rwa [hm]) hg hf]
  refine ⟨_, rfl, State.scalarDone_finish_next (s.onlyContext_atIssue _) (s.onlyScalars_atIssue _ hr) ?_ ?_ (s.pc_atIssue _ hr) _, ?_⟩
  · rw [State.ctx_atIssue s _ hr]
  · rw [State.ctx_atIssue s _ hr]
  · rw [Effect.finish, State.ctx_finish_next, State.cycle_retire, State.cycle_modCtx]

end Sys2Proof.Machine

/-! The values of the integer and bit instructions (15 R326, R330, R335, R342, R348, R349; 16 R361, R373, R389, R390; 17 R391, R400,
R404, R405, R409, R413, R415, R420, R423, R426; 18 R456). -/
namespace Sys2Proof.Machine
open Sys2Proof Sys2Proof.Claims

/-! ### Integer operands and results (15 R326) -/

/-- What the codes 0 to 7 say of an integer type (05 R83). -/
theorem intType_facts {ty : BitVec 5} (h : ty.toNat ≤ 7) : WellFormed.width ty.toNat = intBits ty ∧
    signedType ty.toNat = decide (ty.toNat % 2 = 0) ∧ 0 < intBits ty ∧ intBits ty ≤ 64 := by
  have : ∀ ty : BitVec 5, ty.toNat ≤ 7 → WellFormed.width ty.toNat = intBits ty ∧
    signedType ty.toNat = decide (ty.toNat % 2 = 0) ∧ 0 < intBits ty ∧ intBits ty ≤ 64 := by decide
  exact this ty h

theorem intOpd_eq {ty : BitVec 5} (h : ty.toNat ≤ 7) (v : Word) : intOpd ty v = intOf ty v := by
  obtain ⟨hw, hs, -, -⟩ := intType_facts h
  rw [intOpd, hw, hs]
  simp only [intVal, intOf, Bool.and_eq_true, decide_eq_true_eq]

theorem intVal_signed (w n : Nat) (h : 0 < w) : intVal true w n = (BitVec.ofNat w n).toInt := by
  have : 2 ^ w = 2 * 2 ^ (w - 1) := by rw [← Nat.pow_succ']; congr 1; omega
  rw [BitVec.toInt_eq_toNat_cond]
  simp only [intVal, Bool.true_and, decide_eq_true_eq, BitVec.toNat_ofNat]
  push_cast
  split <;> split <;> omega

theorem wrapInt_eq_toNat (w : Nat) (x : Int) : wrapInt w x = (BitVec.ofInt w x).toNat := by
  rw [BitVec.toNat_ofInt, wrapInt]
  push_cast
  rfl

/-- An exact result wrapped to its type and extended to the register. -/
theorem extResult_wrapInt {ty : BitVec 5} (h : ty.toNat ≤ 7) (x : Int) :
    extResult ty (wrapInt (WellFormed.width ty.toNat) x) = regOf ty x := by
  obtain ⟨hw, hs, hpos, -⟩ := intType_facts h
  rw [extResult, hs, hw, regOf, wrapInt_eq_toNat]
  simp only [decide_eq_true_eq, intVal_signed _ _ hpos, BitVec.ofNat_toNat, BitVec.setWidth_eq]
  split
  · rfl
  · rw [Nat.mod_eq_of_lt (BitVec.isLt _), BitVec.ofNat_toNat]

theorem arith_int {ty : BitVec 5} (h : ty.toNat ≤ 7) (iop : Int → Int → Int) (fop : Fmt → Nat → Nat → FRes) (a b : Word) :
    arith ty iop fop a b = (regOf ty (iop (intOf ty a) (intOf ty b)), 0) := by
  rw [arith, if_pos (by simpa [isIntTy] using h), intOpd_eq h, intOpd_eq h, extResult_wrapInt h]

theorem condWord_ordered (a b : Int) : BitVec.ofNat 64 (condWord (a == b) (a < b) (a > b) false) = orderWord a b := by
  unfold orderWord
  rcases lt_trichotomy a b with h | h | h
  · have : ¬ a > b := by omega
    have : a ≠ b := by omega
    simp [condWord, *]
  · subst h
    simp [condWord]
  · have : ¬ a < b := by omega
    have : a ≠ b := by omega
    simp [condWord, *]

theorem cmpWord_int {ty : BitVec 5} (h : ty.toNat ≤ 7) (ftz : Bool) (a b : Word) :
    cmpWord ty ftz a b = (orderWord (intOf ty a) (intOf ty b), 0) := by
  rw [cmpWord, if_pos (by simpa [isIntTy] using h)]
  dsimp only
  rw [condWord_ordered, intOpd_eq h, intOpd_eq h]

theorem minMaxOf_int {ty : BitVec 5} (h : ty.toNat ≤ 7) (greater ftz : Bool) (a b : Word) : minMaxOf greater ty ftz a b =
    (regOf ty (if greater then max (intOf ty a) (intOf ty b) else min (intOf ty a) (intOf ty b)), 0) := by
  rw [minMaxOf, if_pos (by simpa [isIntTy] using h)]
  dsimp only
  rw [extResult_wrapInt h, intOpd_eq h, intOpd_eq h]

/-- The operands of i64 are the registers. -/
theorem intOf_i64 (v : Word) : intOf 6 v = v.toInt := by
  have h := intVal_signed 64 v.toNat (by decide)
  rw [BitVec.ofNat_toNat, BitVec.setWidth_eq] at h
  rw [← h, ← intOpd_eq (by decide)]
  rfl

/-! ### Shifts, counts and fields -/

theorem shiftCount_eq (b : Word) : bits b 5 0 = b.toNat % 64 := rfl

theorem shiftLeft_eq_shlOf (a b : Word) : a <<< bits b 5 0 = shlOf a b := by
  apply BitVec.eq_of_toNat_eq
  rw [shiftCount_eq, BitVec.toNat_shiftLeft, Nat.shiftLeft_eq, shlOf, BitVec.toNat_ofNat]

theorem shiftRight_eq_shrOf (a b : Word) : a >>> bits b 5 0 = shrOf a b := by
  apply BitVec.eq_of_toNat_eq
  rw [shiftCount_eq, BitVec.toNat_ushiftRight, Nat.shiftRight_eq_div_pow, shrOf, BitVec.toNat_ofNat]
  exact (Nat.mod_eq_of_lt (Nat.lt_of_le_of_lt (Nat.div_le_self _ _) a.isLt)).symm

theorem sshiftRight_eq_sraOf (a b : Word) : a.sshiftRight (bits b 5 0) = sraOf a b := by
  rw [shiftCount_eq, sraOf, ← BitVec.ofInt_toInt (x := a.sshiftRight _), BitVec.toInt_sshiftRight, Int.shiftRight_eq_div_pow]
  push_cast
  rfl

/-- A count that stops at the first bit from `n - 1` downward that satisfies `q` is the position of that bit, `n` without one. -/
theorem count_eq_find? {f : Nat → Nat} {q : Nat → Bool} (h0 : f 0 = 0) (hs : ∀ n, f (n + 1) = if q n then 0 else 1 + f n) (n : Nat) :
    f n = ((List.range n).find? (fun k => q (n - 1 - k))).getD n := by
  induction n with
  | zero => exact h0
  | succ n ih =>
    rw [hs, List.range_succ_eq_map, List.find?_cons, List.find?_map]
    simp only [Nat.add_sub_cancel, Nat.sub_zero]
    cases q n with
    | true => rfl
    | false =>
      have hq : (fun k => q (n - k)) ∘ Nat.succ = fun k => q (n - 1 - k) := funext fun k => by
        simp only [Function.comp_apply]; congr 1; omega
      rw [hq, ih]
      cases (List.range n).find? (fun k => q (n - 1 - k)) <;> simp [Nat.add_comm]

theorem leadZeros_eq (a : Word) : leadZeros a 64 = firstBelow64 (fun n => a.getLsbD (63 - n)) :=
  count_eq_find? (q := fun n => a.getLsbD n) rfl (fun _ => rfl) 64

theorem trailZeros_eq (a : Word) : trailZeros a 64 = firstBelow64 (fun n => a.getLsbD n) := by
  refine (count_eq_find? (f := trailZeros a) (q := fun n => a.getLsbD (63 - n)) rfl (fun _ => rfl) 64).trans ?_
  rw [firstBelow64, List.find?_congr]
  intro k hk
  have := List.mem_range.mp hk
  congr 1
  omega

theorem popCount_eq (a : Word) (n : Nat) : popCount a n = ((List.range n).filter (fun k => a.getLsbD k)).length := by
  induction n with
  | zero => rfl
  | succ n ih =>
    rw [popCount, ih, List.range_succ, List.filter_append, List.length_append, List.filter_singleton]
    cases a.getLsbD n <;> simp [Nat.add_comm]

theorem getLsbD_bitReverse (a : Word) (n i : Nat) (h : n ≤ 64) :
    (bitReverse a n).getLsbD i = (decide (i < n) && a.getLsbD (63 - i)) := by
  induction n with
  | zero => simp [bitReverse]
  | succ n ih =>
    have hbit : (if a.getLsbD (63 - n) then (1 : Word) <<< n else 0).getLsbD i = (decide (i = n) && a.getLsbD (63 - n)) := by
      cases a.getLsbD (63 - n) with
      | false => simp
      | true =>
        rw [if_pos rfl, BitVec.getLsbD_shiftLeft, Bool.and_true, show (1 : Word) = 1#64 from rfl, BitVec.getLsbD_one]
        by_cases hi : i = n
        · subst hi; simp; omega
        · have : ¬ (n ≤ i ∧ i - n = 0) := by omega
          simp [hi]; omega
    rw [bitReverse, BitVec.getLsbD_or, ih (by omega), hbit]
    by_cases hi : i = n
    · subst hi; simp
    · have : i < n + 1 ↔ i < n := by omega
      simp [hi, this]

theorem bitReverse_eq (a : Word) : bitReverse a 64 = a.reverse := by
  apply BitVec.eq_of_getLsbD_eq
  intro i hi
  rw [getLsbD_bitReverse a 64 i le_rfl, BitVec.getLsbD_reverse, BitVec.getMsbD]

theorem fieldPos_eq (d : Word) : fieldPos d = posOf d := rfl

theorem fieldLen_eq (d : Word) : fieldLen d = lenOf d := by
  rw [fieldLen, bits, Nat.shiftRight_eq_div_pow]
  rfl

theorem extField_eq (sgn : Bool) (a d : Word) : extField sgn a d =
    if sgn then (BitVec.ofNat (lenOf d) (a.toNat / 2 ^ posOf d)).signExtend 64
    else (BitVec.ofNat (lenOf d) (a.toNat / 2 ^ posOf d)).setWidth 64 := by
  have hpos : 0 < lenOf d := Nat.succ_pos _
  have hfield : BitVec.ofNat (lenOf d) ((a.toNat >>> fieldPos d) % 2 ^ lenOf d) = BitVec.ofNat (lenOf d) (a.toNat / 2 ^ posOf d) := by
    apply BitVec.eq_of_toNat_eq
    rw [BitVec.toNat_ofNat, BitVec.toNat_ofNat, Nat.mod_mod, Nat.shiftRight_eq_div_pow, fieldPos_eq]
  rw [extField, fieldLen_eq, intVal_signed _ _ hpos, ← hfield]
  cases sgn with
  | true => rfl
  | false =>
    rw [if_neg Bool.false_ne_true, if_neg Bool.false_ne_true]
    apply BitVec.eq_of_toNat_eq
    rw [BitVec.toNat_ofNat, BitVec.toNat_setWidth, BitVec.toNat_ofNat, Nat.mod_mod]

theorem insField_eq (old v d : Word) : insField old v d = BitVec.ofFnLE (fun i : Fin 64 => insBit old v d i.val) := by
  apply BitVec.eq_of_getLsbD_eq
  intro i hi
  have hmask : (BitVec.ofNat 64 ((2 ^ lenOf d - 1) <<< posOf d)).getLsbD i = decide (posOf d ≤ i ∧ i < posOf d + lenOf d) := by
    rw [BitVec.getLsbD_ofNat, Nat.testBit_shiftLeft, Nat.testBit_two_pow_sub_one, decide_eq_true hi]
    by_cases h : posOf d ≤ i <;> simp [h]; omega
  rw [insField, fieldLen_eq, fieldPos_eq, BitVec.getLsbD_ofFnLE, dif_pos hi, insBit]
  simp only [BitVec.getLsbD_or, BitVec.getLsbD_and, BitVec.getLsbD_not, hmask, BitVec.getLsbD_shiftLeft, hi]
  by_cases h : posOf d ≤ i ∧ i < posOf d + lenOf d
  · have : ¬ i < posOf d := by omega
    simp [h, this]
  · simp [h]

/-! ### Words put together from parts -/

theorem lihValue_eq (x : BitVec 33) (old : Word) : BitVec.ofNat 64 (x.toNat % 2 ^ 31 * 2 ^ 33 + old.toNat % 2 ^ 33) =
    x.setWidth 31 ++ old.setWidth 33 := by
  apply BitVec.eq_of_toNat_eq
  rw [BitVec.toNat_append, BitVec.toNat_setWidth, BitVec.toNat_setWidth, BitVec.toNat_ofNat, ← Nat.shiftLeft_add_eq_or_of_lt (by omega),
    Nat.shiftLeft_eq]
  omega

theorem pmakeValue_eq (a b : Word) : BitVec.ofNat 64 (bits b 11 0 * 2 ^ 52 + pointerAddr a) = b.setWidth 12 ++ a.setWidth 52 := by
  apply BitVec.eq_of_toNat_eq
  rw [BitVec.toNat_append, BitVec.toNat_setWidth, BitVec.toNat_setWidth, BitVec.toNat_ofNat, ← Nat.shiftLeft_add_eq_or_of_lt (by omega),
    Nat.shiftLeft_eq, bits, pointerAddr]
  omega

theorem ptagValue_eq (a : Word) : BitVec.ofNat 64 (bits a 63 52) = a >>> 52 := by
  apply BitVec.eq_of_toNat_eq
  have := a.isLt
  rw [BitVec.toNat_ofNat, BitVec.toNat_ushiftRight, bits, Nat.shiftRight_eq_div_pow]
  omega

end Sys2Proof.Machine

/-! The instructions of the integer and bit tables at issue: what they read and write, and in check and trust mode what becomes of
results that are not ready (03 R62). -/
namespace Sys2Proof.Machine
open Sys2Proof Sys2Proof.Claims

/-! ### The own part of an instruction of the tables -/

/-- What issue must know of an instruction of the tables. -/
def rowMeta (r : Row) (tg : Tagging) : Meta := { srcs := r.srcs, dst := some r.dst, lam := r.lam, tagging := tg }

/-- The instruction issues with the registers and the latency of its row; outside a region its own part, where its result has a
fixed latency, writes the row's value. -/
def rowIssues (s : State) (i : Instr) (r : Row) : Prop :=
  ∃ tg body, exec i s = s.issue i r.ctl (rowMeta r tg) body ∧
    (r.lam ≠ 0 → ∀ t : State, t.inRegion = false → (∀ x ∈ r.srcs, t.rs x = s.reg x) → body t = .next (t.ws r.lam r.dst r.value))

theorem State.region_ws (s : State) (l : Nat) (d : BitVec 6) (v : Word) : (s.ws l d v).ctx.region = s.ctx.region := by
  unfold State.ws
  split
  · rfl
  · rw [State.ctx_modCtx]

/-- Outside a region a result without flags and with any tag is a write of its register. -/
theorem State.tagged_ws {s : State} (h : s.inRegion = false) (l : Nat) (d : BitVec 6) (v : Word) (tag : Tag) :
    (s.ws l d v).modCtx (fun x => x.setTag d tag) = s.ws l d v :=
  State.modCtx_setTag _ d tag ((s.region_ws l d v).trans (State.region_none h))

theorem State.orFlags_ofNat_zero (s : State) : s.orFlags (BitVec.ofNat 5 0) = s := State.orFlags_zero s

section
variable {s : State} {i : Instr} {f : SR} {g : SI} {lam : Nat} {v : Word}

theorem intRow_eq_some {r : Row} {value : Int → Int → Word} (h : intRow s f lam value = some r) : f.ty.toNat ≤ 7 ∧
    { ctl := f.ctl, srcs := [f.sa, f.sb], dst := f.dst, lam := lam
      value := value (intOf f.ty (s.reg f.sa)) (intOf f.ty (s.reg f.sb)) } = r := by
  unfold intRow at h
  split at h
  · exact ⟨‹_›, Option.some.inj h⟩
  · cases h

theorem rowIssues_alu2 {op : Word → Word → Word} (hexec : exec i s = s.alu2 i f lam op) (hv : op (s.reg f.sa) (s.reg f.sb) = v) :
    rowIssues s i { ctl := f.ctl, srcs := [f.sa, f.sb], dst := f.dst, lam := lam, value := v } :=
  ⟨.auto, _, hexec, fun _ t _ hs => by rw [hs _ (by simp), hs _ (by simp), hv]⟩

theorem rowIssues_alu1 {op : Word → Word} (hexec : exec i s = s.alu1 i f lam op) (hv : op (s.reg f.sa) = v) :
    rowIssues s i { ctl := f.ctl, srcs := [f.sa], dst := f.dst, lam := lam, value := v } :=
  ⟨.auto, _, hexec, fun _ t _ hs => by rw [hs _ (by simp), hv]⟩

theorem rowIssues_aluI {op : Word → Word → Word} (hexec : exec i s = s.aluI i g op) (hv : op (s.reg g.sa) (g.imm.signExtend 64) = v) :
    rowIssues s i { ctl := g.ctl, srcs := [g.sa], dst := g.dst, lam := 1, value := v } :=
  ⟨.auto, _, hexec, fun _ t _ hs => by rw [hs _ (by simp), ← hv]; rfl⟩

theorem lamBy_int {ty : BitVec 5} (h : ty.toNat ≤ 7) (n : Nat) : lamBy ty n = n := by
  rw [lamBy, if_pos (by simpa [isIntTy] using h)]

theorem rowIssues_arith2 (h : f.ty.toNat ≤ 7) {iop : Int → Int → Int} {fop : Nat → Bool → Fmt → Nat → Nat → FRes}
    {tag : Option (State → State → Tag)} (hexec : exec i s = s.arith2 i f lam iop fop tag) :
    rowIssues s i { ctl := f.ctl, srcs := [f.sa, f.sb], dst := f.dst, lam := lam
                    value := regOf f.ty (iop (intOf f.ty (s.reg f.sa)) (intOf f.ty (s.reg f.sb))) } := by
  rw [State.arith2, lamBy_int h] at hexec
  refine ⟨_, _, hexec, fun _ t ht hs => ?_⟩
  have hrm : t.rounding (if isIntTy f.ty then 0 else f.rm.toNat) = some 0 := by rw [if_pos (by simpa [isIntTy] using h)]; rfl
  rw [State.rounded, hrm]
  dsimp only
  rw [arith_int h, hs _ (by simp), hs _ (by simp)]
  simp only [State.orFlags_ofNat_zero]
  cases tag with
  | none => rfl
  | some tag => exact congrArg Effect.next (State.tagged_ws ht _ _ _ _)

theorem rowIssues_minMax (h : f.ty.toNat ≤ 7) {greater : Bool} {x : Int} (hexec : exec i s = s.minMax i f greater)
    (hx : (if greater then max (intOf f.ty (s.reg f.sa)) (intOf f.ty (s.reg f.sb))
      else min (intOf f.ty (s.reg f.sa)) (intOf f.ty (s.reg f.sb))) = x) :
    rowIssues s i { ctl := f.ctl, srcs := [f.sa, f.sb], dst := f.dst, lam := 1, value := regOf f.ty x } := by
  rw [State.minMax, lamBy_int h] at hexec
  refine ⟨_, _, hexec, fun _ t ht hs => ?_⟩
  simp only [minMaxOf_int h, hs f.sa (by simp), hs f.sb (by simp), State.orFlags_ofNat_zero, hx]

/-- Outside a region CMP writes the condition word of two integers. -/
theorem State.compare_int {t : State} (ht : t.inRegion = false) {ty : BitVec 5} (h : ty.toNat ≤ 7) (dst x : BitVec 6) (a b : Word)
    {tb : Tag} (htb : tb = .concrete) :
    t.compare lam ty dst a b (t.tagOf x) tb = .next (t.ws lam dst (orderWord (intOf ty a) (intOf ty b))) := by
  rw [State.tagOf_none _ _ (State.region_none ht), htb, State.compare]
  simp only [cmpWord_int h, State.orFlags_ofNat_zero, State.tagged_ws ht]

theorem intOf_signExtend (imm : BitVec 27) : intOf 6 (imm.signExtend 64) = imm.toInt := by
  rw [intOf_i64, BitVec.toInt_signExtend_of_le (by decide)]

/-- The arithmetic table. -/
theorem integerRow_issues {r : Row} (h : integerRow s i = some r) : rowIssues s i r := by
  unfold integerRow at h
  split at h
  next f =>
    obtain ⟨hty, rfl⟩ := intRow_eq_some h
    exact rowIssues_arith2 hty (show exec (.add f) s = execAdd f s from rfl)
  next f =>
    obtain ⟨hty, rfl⟩ := intRow_eq_some h
    exact rowIssues_arith2 hty (show exec (.sub f) s = execSub f s from rfl)
  next f =>
    obtain ⟨hty, rfl⟩ := intRow_eq_some h
    exact rowIssues_arith2 hty (show exec (.mul f) s = execMul f s from rfl)
  next f =>
    obtain ⟨hty, rfl⟩ := intRow_eq_some h
    refine rowIssues_alu2 (show exec (.mulh f) s = execMulh f s from rfl) ?_
    dsimp only
    rw [extResult_wrapInt hty, intOpd_eq hty, intOpd_eq hty, (intType_facts hty).1]
  next f =>
    obtain ⟨-, rfl⟩ := intRow_eq_some h
    exact ⟨.auto, _, show exec (.div f) s = execDiv f s from rfl, fun h0 => absurd rfl h0⟩
  next f =>
    obtain ⟨-, rfl⟩ := intRow_eq_some h
    exact ⟨.auto, _, show exec (.rem f) s = execRem f s from rfl, fun h0 => absurd rfl h0⟩
  next f =>
    obtain ⟨hty, rfl⟩ := intRow_eq_some h
    exact rowIssues_minMax hty (show exec (.min f) s = execMin f s from rfl) ((min_comm _ _).trans (min_def_lt _ _))
  next f =>
    obtain ⟨hty, rfl⟩ := intRow_eq_some h
    exact rowIssues_minMax hty (show exec (.max f) s = execMax f s from rfl) (max_def_lt _ _)
  next f =>
    obtain ⟨hty, rfl⟩ := intRow_eq_some h
    have hexec : exec (.cmp f) s = execCmp f s := rfl
    rw [execCmp, lamBy_int hty] at hexec
    refine ⟨.own, _, hexec, fun _ t ht hs => ?_⟩
    rw [State.compare_int ht hty _ _ _ _ (State.tagOf_none _ _ (State.region_none ht)), hs _ (by simp), hs _ (by simp)]
  next f =>
    cases h
    refine ⟨.own, _, show exec (.addI f) s = execAddI f s from rfl, fun _ t ht hs => ?_⟩
    rw [State.tagged_ws ht, hs _ (by simp)]
    rfl
  next f =>
    cases h
    refine ⟨.own, _, show exec (.cmpI f) s = execCmpI f s from rfl, fun _ t ht hs => ?_⟩
    rw [State.compare_int ht (by decide) _ _ _ _ rfl, hs _ (by simp), SI.value, intOf_signExtend, intOf_i64]
  next => cases h

/-- The table of bits, shifts, moves, constants and tags. -/
theorem bitRow_issues {r : Row} (h : bitRow s i = some r) : rowIssues s i r := by
  unfold bitRow at h
  split at h
  all_goals cases h
  next f => exact rowIssues_alu2 (show exec (.and f) s = execAnd f s from rfl) rfl
  next f => exact rowIssues_alu2 (show exec (.or f) s = execOr f s from rfl) rfl
  next f => exact rowIssues_alu2 (show exec (.xor f) s = execXor f s from rfl) rfl
  next f => exact rowIssues_aluI (show exec (.andI f) s = execAndI f s from rfl) rfl
  next f => exact rowIssues_aluI (show exec (.orI f) s = execOrI f s from rfl) rfl
  next f => exact rowIssues_aluI (show exec (.xorI f) s = execXorI f s from rfl) rfl
  next f => exact rowIssues_alu2 (show exec (.shl f) s = execShl f s from rfl) (shiftLeft_eq_shlOf _ _)
  next f => exact rowIssues_alu2 (show exec (.shr f) s = execShr f s from rfl) (shiftRight_eq_shrOf _ _)
  next f => exact rowIssues_alu2 (show exec (.sra f) s = execSra f s from rfl) (sshiftRight_eq_sraOf _ _)
  next f => exact rowIssues_aluI (show exec (.shlI f) s = execShlI f s from rfl) (shiftLeft_eq_shlOf _ _)
  next f => exact rowIssues_aluI (show exec (.shrI f) s = execShrI f s from rfl) (shiftRight_eq_shrOf _ _)
  next f => exact rowIssues_aluI (show exec (.sraI f) s = execSraI f s from rfl) (sshiftRight_eq_sraOf _ _)
  next f => exact rowIssues_alu1 (show exec (.clz f) s = execClz f s from rfl) (congrArg _ (leadZeros_eq _))
  next f => exact rowIssues_alu1 (show exec (.ctz f) s = execCtz f s from rfl) (congrArg _ (trailZeros_eq _))
  next f => exact rowIssues_alu1 (show exec (.popc f) s = execPopc f s from rfl) (congrArg _ (popCount_eq _ 64))
  next f => exact rowIssues_alu1 (show exec (.brev f) s = execBrev f s from rfl) (bitReverse_eq _)
  next f => exact rowIssues_alu2 (show exec (.ext f) s = execExt f s from rfl) (by rw [extField_eq]; simp only [beq_iff_eq])
  next f =>
    exact ⟨.auto, _, show exec (.ins f) s = execIns f s from rfl, fun _ t _ hs => by
      rw [hs _ (by simp), hs _ (by simp), hs _ (by simp), insField_eq]⟩
  next f =>
    exact ⟨.own, _, show exec (.mov f) s = execMov f s from rfl, fun _ t ht hs => by rw [State.tagged_ws ht, hs _ (by simp)]⟩
  next f =>
    exact ⟨.auto, _, show exec (.sel f) s = execSel f s from rfl, fun _ t _ hs => by
      simp only [hs f.sa (by simp), hs f.sb (by simp), hs f.sc (by simp), ne_eq, ite_not]⟩
  next f => exact ⟨.auto, _, show exec (.li f) s = execLi f s from rfl, fun _ t _ _ => rfl⟩
  next f => exact ⟨.auto, _, show exec (.lih f) s = execLih f s from rfl, fun _ t _ hs => by rw [hs _ (by simp), lihValue_eq]⟩
  next f => exact rowIssues_alu2 (show exec (.pmake f) s = execPmake f s from rfl) (pmakeValue_eq _ _)
  next f => exact rowIssues_alu1 (show exec (.ptag f) s = execPtag f s from rfl) (ptagValue_eq _)

end
end Sys2Proof.Machine

/-! The scoreboard's modes (03 R62): the underflow of check mode, and the unready register of trust mode. -/
namespace Sys2Proof.Machine
open Sys2Proof Sys2Proof.Claims

/-! ### Check mode -/

/-- Outside interlock mode an instruction issues when STALL has run out (03 R61, R62). -/
theorem State.cycle_atIssue_of_not_interlock {s : State} (hm : s.ctx.scbmode ≠ 0) (srcs : List (BitVec 6)) :
    (s.atIssue srcs).cycle = max s.cycle s.ctx.nextIssue := by
  rw [State.cycle_atIssue, State.issueCycle, if_neg hm]
  omega

section
variable {s : State} {srcs : List (BitVec 6)} {dst : Option (BitVec 6)} {lam : Nat}

/-- An underflow names an unready source or an overtaken destination, and never s0. -/
theorem State.underflow_spec {d : BitVec 6} (h : s.underflow srcs dst lam = some d) : d ≠ 0 ∧
    (d ∈ srcs ∧ s.cycle < readyAt d s.ctx.pend ∨ dst = some d ∧ lam ≠ 0 ∧ s.cycle + lam < readyAt d s.ctx.pend) := by
  unfold State.underflow at h
  split at h
  · split at h
    next r hf =>
      obtain rfl := Option.some.inj h
      have hr := List.find?_some hf
      simp only [Bool.and_eq_true, bne_iff_ne, decide_eq_true_eq] at hr
      exact ⟨hr.1, .inl ⟨List.mem_of_find?_eq_some hf, hr.2⟩⟩
    next =>
      split at h
      next e =>
        split at h
        next hc =>
          obtain rfl := Option.some.inj h
          simp only [Bool.and_eq_true, bne_iff_ne, decide_eq_true_eq] at hc
          exact ⟨hc.1.1, .inr ⟨rfl, hc.1.2, hc.2⟩⟩
        next => cases h
      next => cases h
  · cases h

/-- Where check mode finds no underflow, every source is ready and the destination is not overtaken. -/
theorem State.ready_of_underflow_none (hm : s.ctx.scbmode = 2) (h : s.underflow srcs dst lam = none) :
    (∀ r ∈ srcs, r ≠ 0 → readyAt r s.ctx.pend ≤ s.cycle) ∧
      ∀ d, dst = some d → d ≠ 0 → lam ≠ 0 → readyAt d s.ctx.pend ≤ s.cycle + lam := by
  unfold State.underflow at h
  rw [if_pos hm] at h
  split at h
  next => cases h
  next hf =>
    refine ⟨fun r hr => ?_, fun d hd h0 hl => ?_⟩
    · simpa using List.find?_eq_none.mp hf r hr
    · subst hd
      have hready : ¬ d = 0 → lam ≠ 0 → readyAt d s.ctx.pend ≤ s.cycle + lam := by simpa using h
      exact hready h0 hl

/-- An instruction that underflows, at its issue. -/
theorem State.underflow_atIssue (hr : s.inRegion = false) (h : ¬ s.noUnderflow srcs dst lam) (waits : List (BitVec 6)) :
    ∃ d, (s.atIssue waits).underflow srcs dst lam = some d ∧ d ≠ 0 ∧
      (d ∈ srcs ∧ max s.cycle s.ctx.nextIssue < readyAt d s.ctx.pend ∨
        dst = some d ∧ lam ≠ 0 ∧ max s.cycle s.ctx.nextIssue + lam < readyAt d s.ctx.pend) := by
  obtain ⟨hm, hnot⟩ := Classical.not_imp.mp h
  have hcycle := State.cycle_atIssue_of_not_interlock (by rw [hm]; decide) waits
  have hpend : (s.atIssue waits).ctx.pend = s.ctx.pend := by rw [State.ctx_atIssue s _ hr]
  cases hu : (s.atIssue waits).underflow srcs dst lam with
  | none =>
    have := State.ready_of_underflow_none ((s.scbmode_atIssue _ hr).trans hm) hu
    rw [hcycle, hpend] at this
    exact absurd this hnot
  | some d =>
    have := State.underflow_spec hu
    rw [hcycle, hpend] at this
    exact ⟨d, rfl, this⟩

end

theorem State.attempt_underflow {s : State} {i : Instr} {ctl : SCtl} {m : Meta} {d : BitVec 6} (hp : s.ctx.mode.allows m.priv = true)
    (h : s.underflow (allSources ctl m) m.dst m.lam = some d) (body : State → Effect) :
    s.attempt i ctl m body = .trap s 0x0A (d.setWidth 64) := by
  rw [State.attempt, hp, h]
  rfl

/-! ### An instruction that is ready issues and executes -/

section
variable {s : State} {i : Instr} {ctl : SCtl} {m : Meta} {body : State → Effect}

/-- In every mode of the scoreboard an instruction that need not wait executes its own part (03 R56, R59, R60). -/
theorem State.issue_ready (hr : s.inRegion = false) (h : readyToIssue s) (hp : s.ctx.mode.allows m.priv = true)
    (hg : s.guardOpen ctl) (hh : m.handler = true) {u : State} (hb : body (s.atIssue (allSources ctl m)) = .next u)
    (hu : u.inRegion = false) : s.issue i ctl m body = .next ((Effect.next u).finish ctl.stall) := by
  have hguarded : (s.atIssue (allSources ctl m)).guarded i m body = .next u := by
    rw [State.guarded, State.inRegion_atIssue s _ hr, hh, hb]
    cases m.forbid <;> cases m.tagging <;> simp [State.modCtx_autoTag _ _ hu]
  have hmode : (s.atIssue (allSources ctl m)).ctx.mode = s.ctx.mode := by rw [State.ctx_atIssue s _ hr]
  rw [State.issue_outside hr, State.attempt, State.underflow_none s ctl m hr (readyToIssue_noUnderflow h _ _ _), hmode, hp,
    State.underGuard]
  cases hgd : ctl.guard with
  | none => simp [hguarded]
  | some g =>
    have hholds : (s.atIssue (allSources ctl m)).guardHolds g = true := by
      rw [State.guardHolds, State.rs_atIssue_of_ready hr h]
      exact hg g hgd
    simp [State.region_atIssue s _ hr, hholds, hguarded]

end

/-! ### Trust mode -/

/-- A fixed-latency write in trust mode with nothing outstanding: the register's value, and its old one until it is ready. -/
theorem State.ctx_ws_trust {s : State} (hm : s.ctx.scbmode = 1) (hp : s.ctx.pend = []) (lam : Nat) {d : BitVec 6} (hd : d ≠ 0)
    (v : Word) : (s.ws lam d v).ctx = { s.ctx with
      s := s.ctx.s.set d.toNat v
      pend := if lam ≤ 1 then [] else [⟨d, s.cycle + lam, s.ctx.s[d.toNat]⟩] } := by
  rw [State.ws, if_neg hd, State.ctx_modCtx]
  simp [pendWrite, hm, hp, nextPend]

theorem State.rs_old {s : State} {d : BitVec 6} {ready : Nat} {old : Word} (hm : s.ctx.scbmode = 1) (hd : d ≠ 0)
    (hp : s.ctx.pend = [⟨d, ready, old⟩]) (h : s.cycle < ready) : s.rs d = old := by
  rw [State.rs, if_neg hd, if_pos hm, hp]
  simp [nextPend, earlier, h]

/-- A completed fixed-latency result in trust mode, with nothing else outstanding: the old value until it is ready, then the
new one. -/
theorem State.rs_finish_ws {a : State} (hm : a.ctx.scbmode = 1) (hp : a.ctx.pend = []) (lam : Nat) (d : BitVec 6)
    (v : Word) (n : BitVec 3) :
    let t := (Effect.next (a.ws lam d v)).finish n
    (1 < lam → t.rs d = a.reg d) ∧ (t.advanceTo (t.cycle - 1 + lam)).rs d = if d = 0 then 0 else v := by
  by_cases hd : d = 0
  · subst hd
    exact ⟨fun _ => rfl, rfl⟩
  intro t
  have hcycle : t.cycle = a.cycle + 1 :=
    (State.cycle_retire _ n).trans (by rw [State.cycle_modCtx, State.cycle_ws])
  have hctx : t.ctx = { (a.ws lam d v).ctx with
      pc := (a.ws lam d v).ctx.pc + 8
      nextIssue := (a.ws lam d v).cycle + 1 + n.toNat
      waitFrom := (a.ws lam d v).cycle + 1 + n.toNat } := State.ctx_finish_next _ n
  rw [State.ctx_ws_trust hm hp lam hd v] at hctx
  refine ⟨fun h1 => ?_, ?_⟩
  · have hpend : t.ctx.pend = [⟨d, a.cycle + lam, a.ctx.s[d.toNat]⟩] := by rw [hctx]; exact if_neg (by omega)
    rw [State.rs_old (by rw [hctx]; exact hm) hd hpend (by omega), State.reg, if_neg hd]
  · have hready : readyAt d t.ctx.pend ≤ a.cycle + lam := by
      rw [hctx]
      dsimp only
      split <;> simp [readyAt]
    have hlater : (t.advanceTo (t.cycle - 1 + lam)).ctx = t.ctx := State.ctx_advanceTo _ _
    rw [State.rs_of_ready (fun _ => by rw [hlater, State.cycle_advanceTo]; omega), State.reg, hlater, hctx, if_neg hd, if_neg hd]
    simp

/-! ### The obligation -/

/-- The instructions of both tables. -/
theorem tableRow_issues {s : State} {i : Instr} {r : Row} (h : integerRow s i = some r ∨ bitRow s i = some r) : rowIssues s i r :=
  h.elim integerRow_issues bitRow_issues

theorem tableRow_underflows {s : State} {i : Instr} {r : Row} (h : rowIssues s i r) (hr : s.inRegion = false)
    (hh : s.inHandler = false) (hu : ¬ s.noUnderflow ((r.ctl.guard.map (fun g => g.greg)).toList ++ r.srcs) (some r.dst) r.lam) :
    ∃ t d, exec i s = .next t ∧ s.trapTaken t none 0x0A (BitVec.setWidth 64 d) ∧ d ≠ 0 ∧
      (d ∈ (r.ctl.guard.map (fun g => g.greg)).toList ++ r.srcs ∧ max s.cycle s.ctx.nextIssue < readyAt d s.ctx.pend ∨
        d = r.dst ∧ r.lam ≠ 0 ∧ max s.cycle s.ctx.nextIssue + r.lam < readyAt d s.ctx.pend) := by
  obtain ⟨tg, body, hexec, -⟩ := h
  have hsrcs : allSources r.ctl (rowMeta r tg) = (r.ctl.guard.map (fun g => g.greg)).toList ++ r.srcs := State.allSources_eq _ _
  obtain ⟨d, hd, h0, hwhy⟩ := State.underflow_atIssue hr hu (allSources r.ctl (rowMeta r tg))
  rw [← hsrcs] at hd
  obtain ⟨t, hissue, htrap⟩ := State.issue_refuses hr hh
    (State.attempt_underflow (i := i) (m := rowMeta r tg) (Mode.allows_program _) hd body)
  refine ⟨t, d, hexec.trans hissue, htrap, h0, hwhy.imp_right fun hdst => ?_⟩
  exact ⟨(Option.some.inj hdst.1).symm, hdst.2⟩

theorem tableRow_trusts {s : State} {i : Instr} {r : Row} (h : rowIssues s i r) (hl : r.lam ≠ 0) (hr : s.inRegion = false)
    (hm : s.ctx.scbmode = 1) (hp : s.ctx.pend = []) (hg : s.guardOpen r.ctl) :
    ∃ t, exec i s = .next t ∧ (1 < r.lam → t.rs r.dst = s.reg r.dst) ∧
      (t.advanceTo (t.cycle - 1 + r.lam)).rs r.dst = if r.dst = 0 then 0 else r.value := by
  obtain ⟨tg, body, hexec, hbody⟩ := h
  have hready : readyToIssue s := .inr fun x => by rw [hp]; exact Nat.zero_le _
  have hra := s.inRegion_atIssue (allSources r.ctl (rowMeta r tg)) hr
  have hissue := State.issue_ready (i := i) (m := rowMeta r tg) hr hready (Mode.allows_program _) hg rfl
    (hbody hl _ hra fun x _ => State.rs_atIssue_of_ready hr hready _ x)
    (by rw [State.inRegion, State.region_ws]; exact hra)
  refine ⟨_, hexec.trans hissue, ?_⟩
  rw [← State.reg_atIssue s (allSources r.ctl (rowMeta r tg)) hr]
  exact State.rs_finish_ws ((s.scbmode_atIssue _ hr).trans hm) (by rw [State.ctx_atIssue s _ hr]; exact hp) _ _ _ _

/-- Settles O14: an underflow traps before the own part; in trust mode the own part reads what stands and its write leaves the
old value in front of the new one until it is ready. -/
theorem scoreboardModes : Obligations.ScoreboardModes := by
  refine ⟨fun i s r h _ hr hh hu => ?_, fun i s r h _ hl hr hm hp hg => ?_⟩
  · exact tableRow_underflows (tableRow_issues h) hr hh hu
  · exact tableRow_trusts (tableRow_issues h) hl hr hm hp hg

end Sys2Proof.Machine

/-! TRAP, ECALL, an unassigned word and a failing fetch; ERET and the modes that it returns to (04 R74; 13 R289, R291, R304; 15 R340;
16 R359, R360; 18 R429). -/
namespace Sys2Proof.Machine
open Sys2Proof Sys2Proof.Claims

/-! ### Traps in every mode -/

theorem trap_traps {f : SI} {s : State} (h : s.executes f.ctl [] none 0) (hh : s.inHandler = false) :
    ∃ t, exec (.trap f) s = .next t ∧ s.trapTaken t none 0x11 (f.imm.signExtend 64) :=
  State.issue_traps (m := { forbid := some 10 }) (by simp) h (Mode.allows_program _) hh rfl

theorem ecall_traps {f : SI} {s : State} (h : s.executes f.ctl [] none 0) (hh : s.inHandler = false) :
    ∃ t, exec (.ecall f) s = .next t ∧ s.trapTaken t none 0x10 (f.imm.signExtend 64) :=
  State.issue_traps (m := { forbid := some 10 }) (by simp) h (Mode.allows_program _) hh rfl

/-- A trap where no instruction has issued, so that the context's books of issue stand. -/
theorem State.trapTaken_trapAt_unissued {s : State} (hr : s.inRegion = false) (hh : s.inHandler = false) (c : BitVec 8) (v : Word) :
    s.trapTaken (s.trapAt 0 c v none) none c v :=
  State.trapTaken_trapAt s.onlyContext_refl ⟨_, _, rfl⟩ hr hh _ _ _ _

theorem unassignedOp_traps {s : State} (hr : s.inRegion = false) (hh : s.inHandler = false) (w : Word) :
    ∃ t, exec (.unassignedOp w) s = .next t ∧ s.trapTaken t none 0x01 w :=
  ⟨_, rfl, State.trapTaken_trapAt_unissued hr hh _ _⟩

/-- Only a fetch that meets an uncorrectable error leaves more than its trap (06 R130). -/
theorem instructionFetch_traps {s : State} (hr : s.inRegion = false) (hh : s.inHandler = false) {c : BitVec 8} (a : Word)
    (hc : c ≠ 0x08) : ∃ t, exec (.instructionFetch c a) s = .next t ∧ s.trapTaken t none c a := by
  refine ⟨s.trapAt 0 c a none, ?_, State.trapTaken_trapAt_unissued hr hh _ _⟩
  change execInstructionFetch c a s = _
  rw [execInstructionFetch, if_neg hc]

/-! ### What returning changes (13 R291, R304) -/

@[simp] theorem State.ctx_schedule (s : State) (t : Turn) : (s.schedule t).ctx = s.ctx := rfl

theorem State.ctx_heedNotice (s : State) :
    s.heedNotice.ctx = { s.ctx with stopped := s.ctx.stopped || s.ctx.notice.isSome && s.ctx.noticed } := by
  unfold State.heedNotice
  by_cases hn : (s.ctx.notice.isSome && s.ctx.noticed) = true
  · rw [if_pos hn, hn, Bool.or_true, State.ctx_schedule, State.ctx_modCtx]
  · rw [if_neg hn, Bool.eq_false_iff.2 hn, Bool.or_false]

theorem State.cycle_heedNotice (s : State) : s.heedNotice.cycle = s.cycle := by
  unfold State.heedNotice
  split <;> rfl

theorem State.sameBytes_heedNotice (s : State) : s.sameBytes s.heedNotice := by
  unfold State.heedNotice
  split <;> exact fun _ => ⟨rfl, rfl, rfl⟩

theorem State.ctx_returnTrap (s : State) :
    s.returnTrap.ctx = { s.ctx with
      mode := modeOf (s.ctx.trapcause.extractLsb' 8 2), pc := s.ctx.trappc, pend := []
      nextIssue := max (s.cycle + 1) (resultsReady s.ctx.pend), waitFrom := max (s.cycle + 1) (resultsReady s.ctx.pend) } :=
  State.ctx_modCtx s _

/-- What ERET's own part leaves, one cycle on: its context at TRAPPC in the mode of TRAPCAUSE.PMODE. -/
theorem State.ctx_finish_return (u : State) (n : BitVec 3) :
    ((Effect.leave u.returnTrap.heedNotice).finish n).ctx = { u.ctx with
      mode := modeOf (u.ctx.trapcause.extractLsb' 8 2), pc := u.ctx.trappc, pend := []
      nextIssue := max (u.cycle + 1) (resultsReady u.ctx.pend), waitFrom := max (u.cycle + 1) (resultsReady u.ctx.pend)
      stopped := u.ctx.stopped || u.ctx.notice.isSome && u.ctx.noticed } := by
  rw [Effect.finish, State.ctx_advanceTo, State.ctx_heedNotice, State.ctx_returnTrap]

theorem State.cycle_finish_return (u : State) (n : BitVec 3) :
    ((Effect.leave u.returnTrap.heedNotice).finish n).cycle = u.cycle + 1 := by
  rw [Effect.finish, State.cycle_advanceTo, State.cycle_heedNotice]
  exact Nat.max_eq_right (Nat.le_succ _)

theorem State.sameBytes_finish_return (u : State) (n : BitVec 3) :
    u.sameBytes ((Effect.leave u.returnTrap.heedNotice).finish n) :=
  State.sameBytes_trans (State.onlyContext_bytes (State.onlyContext_modCtx u _))
    (State.sameBytes_trans (State.sameBytes_heedNotice _) (State.onlyContext_bytes (State.onlyContext_advanceTo _ _)))

/-! ### ERET -/

theorem Mode.allows_supervisor {m : Mode} (h : m ≠ .program) : m.allows .supervisor = true := by
  cases m with
  | program => exact absurd rfl h
  | supervisor => rfl
  | firmware => rfl

/-- What issue knows of ERET. -/
def eretMeta : Meta := { priv := .supervisor, forbid := some 10 }

section
variable {f : SR} {s : State} (h : s.executes f.ctl [] none 0) (hm : s.ctx.mode ≠ .program)
include h hm

/-- A return to a mode above the executing one. -/
theorem eret_privileged_traps (hh : s.inHandler = false) (hp : modeCode s.ctx.mode < s.ctx.trapcause.extractLsb' 8 2) :
    ∃ t, exec (.eret f) s = .next t ∧ s.trapTaken t none 0x02 (encode (.eret f)) := by
  refine State.issue_traps (m := eretMeta) (by simp) h (Mode.allows_supervisor hm) hh ?_
  dsimp only
  rw [State.ctx_atIssue s _ h.1, if_pos hp]

theorem eret_misaligned_traps (hh : s.inHandler = false) (hp : ¬ modeCode s.ctx.mode < s.ctx.trapcause.extractLsb' 8 2)
    (ha : s.ctx.trappc.toNat % 8 ≠ 0) :
    ∃ t, exec (.eret f) s = .next t ∧ s.trapTaken t none 0x04 s.ctx.trappc := by
  refine State.issue_traps (m := eretMeta) (by simp) h (Mode.allows_supervisor hm) hh ?_
  dsimp only
  rw [State.ctx_atIssue s _ h.1, if_neg hp, if_pos (by simpa using ha)]

/-- A return that neither check stops. -/
theorem exec_eret_returns (hp : ¬ modeCode s.ctx.mode < s.ctx.trapcause.extractLsb' 8 2) (ha : s.ctx.trappc.toNat % 8 = 0) :
    exec (.eret f) s =
      .next ((Effect.leave (s.atIssue (allSources f.ctl eretMeta)).returnTrap.heedNotice).finish f.ctl.stall) := by
  refine State.issue_ends (m := eretMeta) (by simp) h (Mode.allows_supervisor hm) (.inl rfl) ?_ (by simp) (by simp)
  dsimp only
  rw [State.ctx_atIssue s _ h.1, if_neg hp, if_neg (by simpa using ha)]

theorem eret_returns (hp : ¬ modeCode s.ctx.mode < s.ctx.trapcause.extractLsb' 8 2) (ha : s.ctx.trappc.toNat % 8 = 0) :
    ∃ t, exec (.eret f) s = .next t ∧
      s.sameBytes t ∧ t.ctx.mode = modeOf (s.ctx.trapcause.extractLsb' 8 2) ∧ t.ctx.pc = s.ctx.trappc ∧
      t.ctx.nextIssue ≤ max t.cycle (resultsReady s.ctx.pend) ∧ t.ctx.s = s.ctx.s ∧ t.ctx.v = s.ctx.v ∧ t.ctx.k = s.ctx.k ∧
      t.ctx.vstart = s.ctx.vstart ∧ t.ctx.kstack = s.ctx.kstack ∧ t.ctx.fcsr = s.ctx.fcsr ∧
      t.ctx.trapcause = s.ctx.trapcause ∧ t.ctx.trapval = s.ctx.trapval ∧ t.ctx.vl = s.ctx.vl ∧
      (t.ctx.stopped = true ↔ s.ctx.stopped = true ∨ s.ctx.notice.isSome = true ∧ s.ctx.noticed = true) := by
  refine ⟨_, exec_eret_returns h hm hp ha, State.sameBytes_trans (State.onlyContext_bytes (s.onlyContext_atIssue _))
    (State.sameBytes_finish_return _ _), ?_⟩
  rw [State.cycle_finish_return, State.ctx_finish_return, State.ctx_atIssue s _ h.1]
  exact ⟨rfl, rfl, Nat.le_refl _, rfl, rfl, rfl, rfl, rfl, rfl, rfl, rfl, rfl, by simp⟩

end

/-- Settles O8: the own parts of TRAP and ECALL trap, words and fetches trap before issue, and ERET by its two checks. -/
theorem trapsAndReturns : Obligations.TrapsAndReturns := by
  unfold Obligations.TrapsAndReturns
  refine ⟨fun s hr hh => ⟨fun f h => trap_traps h hh, fun f h => ecall_traps h hh, unassignedOp_traps hr hh,
    fun c a hc => instructionFetch_traps hr hh a hc⟩, fun f s h hh hm => ?_⟩
  by_cases hp : modeCode s.ctx.mode < s.ctx.trapcause.extractLsb' 8 2
  · simp only [if_pos hp]
    exact eret_privileged_traps h hm hh hp
  · by_cases ha : s.ctx.trappc.toNat % 8 = 0
    · simp only [if_neg hp, if_neg (not_not_intro ha)]
      exact eret_returns h hm hp ha
    · simp only [if_neg hp, if_pos ha]
      exact eret_misaligned_traps h hm hh hp ha

end Sys2Proof.Machine

/-! The two forms that every step keeps: memories in canonical form, and cached grains and leaves on their boundaries
  (00 R2; 06 R126
to R128; 13 R295). Both are kept by the same walk through the model, so one predicate stands for either. -/
namespace Sys2Proof.Machine
open Sys2Proof Sys2Proof.Claims

/-- What a step is to keep: the canonical form of the memories, or the boundaries of the cached grains and leaves. -/
inductive Form where
  | memories
  | lines

/-- What the form asks of a memory. -/
def Form.onMem : Form → List Host.Cell → Prop
  | .memories, m => memoryWf m = true
  | .lines, _ => True

/-- What the form asks of a grain of an L1 or an L2. -/
def Form.onGrain : Form → Nat → Nat → Prop
  | .memories, _, _ => True
  | .lines, va, size => grainOk va size = true

/-- What the form asks of a leaf. -/
def Form.onLeaf : Form → Leaf → Prop
  | .memories, _ => True
  | .lines, l => leafOk l = true

/-- What the form asks of a core: its L1 holds grains. -/
def Form.onCore (k : Form) (x : Core) : Prop := ∀ ln ∈ x.l1, k.onGrain ln.va ln.size

/-- What the form asks of a die: its L2 holds grains, its translation units leaves. -/
def Form.onDie (k : Form) (x : Die) : Prop := (∀ ln ∈ x.l2, k.onGrain ln.va ln.size) ∧ ∀ e ∈ x.tlb, k.onLeaf e.leaf

/-- The form of the parts of a state that it speaks of. -/
def Form.on (k : Form) (mem lmem hob staging : List Host.Cell) (cores : Vector Core 512) (dies : Vector Die 8) : Prop :=
  (k.onMem mem ∧ k.onMem lmem ∧ k.onMem hob ∧ k.onMem staging) ∧ (∀ c : CoreId, k.onCore cores[c]) ∧ ∀ d : DieId, k.onDie dies[d]

/-- A state has the form. -/
def Form.Holds (k : Form) (s : State) : Prop := k.on s.mem s.lmem s.hob s.boot.staging s.cores s.dies

/-- The form depends on the memories, the cores and the dies alone. -/
theorem Form.holds_eq (k : Form) (s : State) : k.Holds s = k.on s.mem s.lmem s.hob s.boot.staging s.cores s.dies := rfl

theorem Form.holds_memories (s : State) : Form.memories.Holds s ↔ memoriesWf s = true := by
  simp [Form.Holds, Form.on, Form.onMem, Form.onCore, Form.onDie, Form.onGrain, Form.onLeaf, memoriesWf, and_assoc]

theorem Form.holds_lines (s : State) : Form.lines.Holds s ↔ linesOk s = true := by
  simp [Form.Holds, Form.on, Form.onMem, Form.onCore, Form.onDie, Form.onGrain, Form.onLeaf, linesOk]
  exact and_congr ⟨fun h i hi => h ⟨i, hi⟩, fun h c => h c c.isLt⟩ ⟨fun h i hi => h ⟨i, hi⟩, fun h d => h d d.isLt⟩

variable {k : Form} {s t : State}

/-! ### Memories -/

theorem Form.onMem_writeByte {m : List Host.Cell} (a : Nat) (v : Byte) (h : k.onMem m) : k.onMem (writeByte m a v) := by
  cases k with
  | memories => exact memoryWf_writeByte a v h
  | lines => trivial

theorem Form.onMem_writeN {m : List Host.Cell} (a n v : Nat) (h : k.onMem m) : k.onMem (writeN m a n v) := by
  cases k with
  | memories => exact memoryWf_writeN a n v h
  | lines => trivial

theorem Form.onMem_writeMasked {m : List Host.Cell} (a n mask v : Nat) (h : k.onMem m) : k.onMem (writeMasked m a n mask v) := by
  cases k with
  | memories => exact memoryWf_writeMasked a n mask v h
  | lines => trivial

theorem Form.holds_setMem {m : List Host.Cell} (hm : k.onMem m) (h : k.Holds s) : k.Holds { s with mem := m } :=
  ⟨⟨hm, h.1.2⟩, h.2⟩

theorem Form.holds_setLmem {m : List Host.Cell} (hm : k.onMem m) (h : k.Holds s) : k.Holds { s with lmem := m } :=
  ⟨⟨h.1.1, hm, h.1.2.2⟩, h.2⟩

theorem Form.holds_physWrite (pa n v : Nat) (h : k.Holds s) : k.Holds (s.physWrite pa n v) :=
  Form.holds_setMem (s := s) (Form.onMem_writeN pa n v h.1.1) h

theorem Form.holds_physMasked (pa n mask v : Nat) (h : k.Holds s) : k.Holds (s.physMasked pa n mask v) :=
  Form.holds_setMem (s := s) (Form.onMem_writeMasked pa n mask v h.1.1) h

theorem Form.holds_localWrite (c : CoreId) (o n v : Nat) (h : k.Holds s) : k.Holds (s.localWrite c o n v) :=
  Form.holds_setLmem (s := s) (Form.onMem_writeN _ n v h.1.2.1) h

theorem Form.holds_hobWrite (d : DieId) (o n v : Nat) (h : k.Holds s) : k.Holds (s.hobWrite d o n v) :=
  ⟨⟨h.1.1, h.1.2.1, Form.onMem_writeN _ n v h.1.2.2.1, h.1.2.2.2⟩, h.2⟩

/-! ### Cores and dies -/

theorem Form.onCore_coreAt (h : k.Holds s) (c : CoreId) : k.onCore (s.coreAt c) := h.2.1 c

theorem Form.onDie_dieAt (h : k.Holds s) (d : DieId) : k.onDie (s.dieAt d) := h.2.2 d

theorem Form.holds_setCore {c : CoreId} {x : Core} (hx : k.onCore x) (h : k.Holds s) : k.Holds (s.setCore c x) := by
  refine ⟨h.1, fun d => ?_, h.2.2⟩
  change k.onCore ((s.setCore c x).coreAt d)
  by_cases e : d = c
  · rwa [e, State.coreAt_setCore_self]
  · rw [State.coreAt_setCore_ne s x e]
    exact h.2.1 d

/-- A change of a core that keeps the form of its L1. -/
theorem Form.holds_modL1 {c : CoreId} {f : Core → Core} (hf : k.onCore (s.coreAt c) → k.onCore (f (s.coreAt c))) (h : k.Holds s) :
    k.Holds (s.modCore c f) := Form.holds_setCore (hf (h.2.1 c)) h

/-- A change of a core that leaves its L1 alone. -/
theorem Form.holds_modCore {c : CoreId} {f : Core → Core} (hf : ∀ x, (f x).l1 = x.l1) (h : k.Holds s) : k.Holds (s.modCore c f) :=
  Form.holds_modL1 (fun hc => by unfold Form.onCore; rwa [hf]) h

theorem Form.holds_modCtxAt (c : CoreId) (x : CtxId) (f : Ctx → Ctx) (h : k.Holds s) : k.Holds (s.modCtxAt c x f) :=
  Form.holds_modCore (fun _ => rfl) h

theorem Form.holds_modCtx (f : Ctx → Ctx) (h : k.Holds s) : k.Holds (s.modCtx f) := Form.holds_modCtxAt _ _ f h

/-- A change of a die that keeps the form of its L2 and its translation units. -/
theorem Form.holds_modL2 {d : DieId} {f : Die → Die} (hf : k.onDie (s.dieAt d) → k.onDie (f (s.dieAt d))) (h : k.Holds s) :
    k.Holds (s.modDie d f) := by
  refine ⟨h.1, h.2.1, fun e => ?_⟩
  change k.onDie ((s.modDie d f).dieAt e)
  rw [State.dieAt_modDie]
  split
  · exact hf (h.2.2 d)
  · exact h.2.2 e

/-- A change of a die that leaves its L2 and its translation units alone. -/
theorem Form.holds_modDie {d : DieId} {f : Die → Die} (hf : ∀ x, (f x).l2 = x.l2 ∧ (f x).tlb = x.tlb) (h : k.Holds s) :
    k.Holds (s.modDie d f) :=
  Form.holds_modL2 (fun hd => by unfold Form.onDie; rwa [(hf _).1, (hf _).2]) h

/-- A fold keeps the form when each of its steps does. -/
theorem Form.holds_foldl {α : Type} {f : State → α → State} {l : List α} (hf : ∀ x ∈ l, ∀ u, k.Holds u → k.Holds (f u x))
    (h : k.Holds s) : k.Holds (l.foldl f s) := by
  induction l generalizing s with
  | nil => exact h
  | cons x l ih =>
    exact ih (fun y hy => hf y (List.mem_cons_of_mem _ hy)) (hf x List.mem_cons_self s h)

/-! ### The vector unit -/

theorem Core.l1_takeHead (x : Core) : x.takeHead.l1 = x.l1 := by
  unfold Core.takeHead
  split <;> rfl

theorem Core.l1_admitDue (now n : Nat) (x : Core) : (Core.admitDue now n x).l1 = x.l1 := by
  induction n generalizing x with
  | zero => rfl
  | succ n ih =>
    unfold Core.admitDue
    split
    · rfl
    · split
      · rw [ih, Core.l1_takeHead]
      · rfl

theorem Core.l1_admitAll (p : CoreId × CtxId) (n : Nat) (x : Core) : (Core.admitAll p n x).l1 = x.l1 := by
  induction n generalizing x with
  | zero => rfl
  | succ n ih =>
    unfold Core.admitAll
    split
    · rw [ih, Core.l1_takeHead]
    · rfl

theorem Form.holds_advanceTo (c : Nat) (h : k.Holds s) : k.Holds (s.advanceTo c) := by
  unfold State.advanceTo
  split <;> exact h

theorem Form.holds_admitOne (c : CoreId) (h : k.Holds s) : k.Holds (s.admitOne c) := Form.holds_modCore Core.l1_takeHead h

theorem Form.holds_admitDue (c : CoreId) (h : k.Holds s) : k.Holds (s.admitDue c) :=
  Form.holds_modCore (fun x => Core.l1_admitDue _ _ x) h

theorem Form.holds_drainVector (h : k.Holds s) : k.Holds s.drainVector :=
  Form.holds_advanceTo _ (Form.holds_modCore (fun x => Core.l1_admitAll _ _ x) h)

theorem Form.holds_enqueueVector (slots : Nat) (latency : Option Nat) (reads writes : List Nat) (h : k.Holds s) :
    k.Holds (s.enqueueVector slots latency reads writes) := by
  refine Form.holds_modCore (fun _ => rfl) ?_
  split
  · exact Form.holds_admitDue _ h
  · exact Form.holds_advanceTo _ (Form.holds_admitOne _ (Form.holds_admitDue _ h))

/-! ### Scalar registers -/

theorem Form.holds_ws (lam : Nat) (r : BitVec 6) (v : Word) (h : k.Holds s) : k.Holds (s.ws lam r v) := by
  unfold State.ws
  split
  · exact h
  · exact Form.holds_modCtx _ h

theorem Form.holds_wi (r : BitVec 6) (v : Word) (h : k.Holds s) : k.Holds (s.wi r v) := by
  unfold State.wi
  split
  · exact h
  · exact Form.holds_modCtx _ h

theorem Form.holds_orFlags (f : BitVec 5) (h : k.Holds s) : k.Holds (s.orFlags f) := Form.holds_modCtx _ h

end Sys2Proof.Machine

/-! The memory system keeps the form: translation, the L2s, the Flue and the L1s (06 R111 to R133; 07 R146 to R154). -/
namespace Sys2Proof.Machine
open Sys2Proof Sys2Proof.Claims

variable {k : Form} {s t : State}

/-! ### Leaves and grains -/

theorem Form.onLeaf_leafOf {va n pte w0 w1 : Nat} {l : Leaf} (e : leafOf va (2 ^ (16 + n)) pte w0 w1 = some l) : k.onLeaf l := by
  cases k with
  | memories => trivial
  | lines =>
    have hsize : 65536 ∣ 2 ^ (16 + n) := ⟨2 ^ n, by rw [Nat.pow_add]⟩
    have hbase : 65536 ∣ va / 2 ^ (16 + n) * 2 ^ (16 + n) := Dvd.dvd.mul_left hsize _
    simp only [leafOf] at e
    split at e
    · cases e
    · split at e
      · cases e
      · split at e
        · cases e
        · cases e
          simp only [Form.onLeaf, leafOk, Nat.mod_eq_zero_of_dvd hsize, Nat.mod_eq_zero_of_dvd hbase]
          repeat' split
          all_goals rfl

theorem Form.onLeaf_walk {va left table : Nat} {l : Leaf} (e : s.walk va left table = some l) : k.onLeaf l := by
  induction left generalizing table with
  | zero => cases e
  | succ n ih =>
    unfold State.walk at e
    dsimp only at e
    split at e
    · cases e
    · split at e
      · split at e
        · cases e
        · exact ih e
      · split at e
        · exact Form.onLeaf_leafOf e
        · cases e

/-- HOT and QUEUED are no part of what the form asks of a leaf. -/
theorem Form.onLeaf_hot {l : Leaf} (hot : Nat) (queued : Bool)
    (h : k.onLeaf l) : k.onLeaf { l with hot := hot, queued := queued } := by
  cases k <;> exact h

/-- The grain of an address under a leaf starts on its boundary. -/
theorem Form.onGrain_leaf {l : Leaf} (va : Nat) (h : k.onLeaf l) : k.onGrain (va / l.grain * l.grain) l.grain := by
  cases k with
  | memories => trivial
  | lines =>
    simp only [Form.onLeaf, leafOk, Bool.and_eq_true] at h
    simp only [Form.onGrain, grainOk, h.1.1, Nat.mul_mod_left, beq_self_eq_true, Bool.and_self]

theorem Form.onGrain_line {d : DieId} {va : Nat} {ln : L2Line} (h : k.Holds s) (e : (s.dieAt d).line va = some ln) :
    k.onGrain ln.va ln.size := (h.2.2 d).1 ln (List.mem_of_find?_eq_some e)

/-! ### Errors, rights and translation -/

theorem Form.holds_correct (d : DieId) (pa size : Nat) (h : k.Holds s) : k.Holds (s.correct d pa size) := by
  unfold State.correct
  dsimp only
  split
  · exact h
  · exact Form.holds_modDie (s := { s with weak := _ }) (fun _ => ⟨rfl, rfl⟩) h

theorem Form.holds_correctRuns (runs : List (Nat × Nat)) (h : k.Holds s) : k.Holds (s.correctRuns runs) := by
  unfold State.correctRuns
  split
  · exact h
  · refine Form.holds_foldl (fun r _ u hu => ?_) h
    split
    · exact Form.holds_correct _ _ _ hu
    · exact hu

theorem Form.holds_plbCheck (c : CoreId) (domain : BitVec 16) (va need : Nat) (h : k.Holds s) :
    k.Holds (s.plbCheck c domain va need).2 := by
  unfold State.plbCheck
  dsimp only
  split
  · exact h
  · split
    · exact Form.holds_modCore (fun _ => rfl) (Form.holds_correctRuns _ h)
    · exact h

theorem Form.holds_writeHot (l : Leaf) (h : k.Holds s) : k.Holds (s.writeHot l) :=
  Form.holds_setMem (s := s) (Form.onMem_writeN _ _ _ (Form.onMem_writeN _ _ _ h.1.1)) h

theorem Form.holds_giveUpLeaf (d : DieId) (l : Leaf) (h : k.Holds s) : k.Holds (s.giveUpLeaf d l) := by
  unfold State.giveUpLeaf
  split
  · exact Form.holds_writeHot l h
  · exact h

theorem Form.holds_forgetRewritten (h : k.Holds s) : k.Holds s.forgetRewritten := by
  unfold State.forgetRewritten
  split <;> exact h

/-- A die keeps the form where every leaf that its units then hold was there or has it. -/
theorem Form.holds_setTlb {d : DieId} {f : Die → List TlbEntry} (hf : ∀ e ∈ f (s.dieAt d), e ∈ (s.dieAt d).tlb ∨ k.onLeaf e.leaf)
    (h : k.Holds s) : k.Holds (s.modDie d (fun x => { x with tlb := f x })) :=
  Form.holds_modL2 (fun hd => ⟨hd.1, fun e he => (hf e he).elim (hd.2 e) id⟩) h

theorem Form.holds_tlbInsert (d : DieId) (slice : Nat) {l : Leaf} (hl : k.onLeaf l) (h : k.Holds s) :
    k.Holds (s.tlbInsert d slice l) := by
  unfold State.tlbInsert
  dsimp only
  split
  · refine Form.holds_setTlb (f := fun _ => (s.dieAt d).tlb ++ [⟨slice, l⟩]) (fun e he => ?_) h
    exact (List.mem_append.mp he).imp_right fun h1 => by rwa [List.mem_singleton.mp h1]
  · split
    · rename_i old _
      have hg := Form.holds_giveUpLeaf d old.leaf h
      refine Form.holds_forgetRewritten (Form.holds_modL2 (fun hd => ⟨hd.1, fun e he => ?_⟩) hg)
      rcases List.mem_append.mp he with h1 | h1
      · exact (h.2.2 d).2 e (List.mem_of_mem_erase h1)
      · exact List.mem_singleton.mp h1 ▸ hl
    · exact h

theorem Form.onLeaf_translate {d : DieId} {va : Nat} {l : Leaf} (h : k.Holds s)
    (e : s.translate d va = some (l, t)) : k.onLeaf l := by
  unfold State.translate at e
  dsimp only at e
  split at e
  · rename_i x hx
    cases e
    exact (h.2.2 d).2 x (List.mem_of_find?_eq_some hx)
  · split at e
    · cases e
    · rename_i l' hw
      have hl : k.onLeaf l' := Form.onLeaf_walk hw
      cases e
      split
      · split
        · exact hl
        · exact Form.onLeaf_hot _ _ hl
      · exact hl

theorem Form.holds_translate {d : DieId} {va : Nat} {l : Leaf} (h : k.Holds s) (e : s.translate d va = some (l, t)) :
    k.Holds t := by
  have hl := Form.onLeaf_translate h e
  unfold State.translate at e
  dsimp only at e
  split at e
  · cases e
    exact h
  · split at e
    · cases e
    · cases e
      exact Form.holds_tlbInsert d _ hl (Form.holds_correctRuns _ h)

theorem State.homeTranslate_eq (s : State) (va : Nat) : ∃ d, s.homeTranslate va = s.translate d va := by
  unfold State.homeTranslate
  dsimp only
  split <;> exact ⟨_, rfl⟩

theorem Form.holds_homeTranslate {va : Nat} {l : Leaf} (h : k.Holds s) (e : s.homeTranslate va = some (l, t)) : k.Holds t := by
  obtain ⟨d, hd⟩ := s.homeTranslate_eq va
  exact Form.holds_translate h (hd ▸ e)

theorem Form.onLeaf_homeTranslate {va : Nat} {l : Leaf} (h : k.Holds s) (e : s.homeTranslate va = some (l, t)) : k.onLeaf l := by
  obtain ⟨d, hd⟩ := s.homeTranslate_eq va
  exact Form.onLeaf_translate h (hd ▸ e)

/-! ### Hotness -/

theorem Form.holds_setHot (d : DieId) (l : Leaf) (hot : Nat) (queued : Bool) (h : k.Holds s) :
    k.Holds (s.setHot d l hot queued) := by
  refine Form.holds_modL2 (fun hd => ⟨hd.1, fun e he => ?_⟩) h
  obtain ⟨o, ho, rfl⟩ := List.mem_map.mp he
  split
  · exact Form.onLeaf_hot _ _ (hd.2 o ho)
  · exact hd.2 o ho

theorem Form.holds_crossing (d : DieId) (l : Leaf) (va hot : Nat) (h : k.Holds s) : k.Holds (s.crossing d l va hot) := by
  unfold State.crossing
  dsimp only
  split
  · exact Form.holds_writeHot _ (Form.holds_setHot _ _ _ _ (Form.holds_modDie (fun _ => ⟨rfl, rfl⟩)
      (Form.holds_physWrite _ _ _ (Form.holds_physWrite _ _ _ h))))
  · exact Form.holds_modDie (fun _ => ⟨rfl, rfl⟩) h

theorem Form.holds_countFill (d : DieId) (va : Nat) (h : k.Holds s) : k.Holds (s.countFill d va) := by
  unfold State.countFill
  split
  · exact h
  · rename_i l s0 e
    have hot := Form.holds_setHot d l (min (l.hot + 1) 255) l.queued (Form.holds_translate h e)
    dsimp only
    generalize (if l.tier == 0 then _ else _) = thr
    split
    · exact Form.holds_crossing _ _ _ _ hot
    · exact hot

/-! ### Lines of an L2 -/

theorem Form.onDie_putLine {x : Die} {ln : L2Line} (hl : k.onGrain ln.va ln.size) (h : k.onDie x) : k.onDie (x.putLine ln) := by
  unfold Die.putLine
  split
  · refine ⟨fun o ho => ?_, h.2⟩
    obtain ⟨p, hp, rfl⟩ := List.mem_map.mp ho
    split
    · exact hl
    · exact h.1 p hp
  · refine ⟨fun o ho => ?_, h.2⟩
    exact (List.mem_append.mp ho).elim (h.1 o) fun h1 => List.mem_singleton.mp h1 ▸ hl

theorem Form.onDie_filter {x : Die} (p : L2Line → Bool) (h : k.onDie x) : k.onDie { x with l2 := x.l2.filter p } :=
  ⟨fun o ho => h.1 o (List.mem_of_mem_filter ho), h.2⟩

theorem Form.onDie_discardClean {x : Die} (h : k.onDie x) : k.onDie x.discardClean := by
  refine ⟨fun o ho => ?_, h.2⟩
  obtain ⟨p, hp, rfl⟩ := List.mem_map.mp ho
  have := h.1 p (List.mem_of_mem_filter hp)
  split <;> exact this

theorem Form.holds_putLine (d : DieId) {ln : L2Line} (hl : k.onGrain ln.va ln.size) (h : k.Holds s) :
    k.Holds (s.modDie d (fun x => x.putLine ln)) := Form.holds_modL2 (Form.onDie_putLine hl) h

/-- A line whose bytes are written is the same grain. -/
theorem Form.holds_putStore (d : DieId) {ln : L2Line} (va n v : Nat) (w : Option (CoreId × CtxId)) (hl : k.onGrain ln.va ln.size)
    (h : k.Holds s) : k.Holds (s.modDie d (fun x => x.putLine (ln.store va n v w))) := Form.holds_putLine d
      (ln := ln.store va n v w) hl h

theorem Form.holds_dropLine (d : DieId) (va : Nat) (h : k.Holds s) : k.Holds (s.modDie d (fun x => x.dropLine va)) :=
  Form.holds_modL2 (Form.onDie_filter _) h

theorem Form.holds_correctCopy (d : DieId) (ln : L2Line) (h : k.Holds s) : k.Holds (s.modDie d (fun x => x.correctCopy ln)) :=
  Form.holds_modDie (fun _ => ⟨rfl, rfl⟩) h

/-! ### Charges, write-backs and packets -/

theorem Form.holds_charge (d : DieId) (domain : BitVec 16) (n : Nat) (h : k.Holds s) : k.Holds (s.charge d domain n) := by
  unfold State.charge
  split
  · exact Form.holds_modDie (fun _ => ⟨rfl, rfl⟩) h
  · exact h

theorem Form.holds_chargeLine (d : DieId) (ln : L2Line) (h : k.Holds s) : k.Holds (s.chargeLine d ln) := by
  unfold State.chargeLine
  split
  · exact Form.holds_charge _ _ _ h
  · exact h

theorem Form.holds_chargeRead (d : DieId) (domain : BitVec 16) (far : Bool) (h : k.Holds s) :
    k.Holds (s.chargeRead d domain far) := by
  unfold State.chargeRead
  split
  · exact Form.holds_charge _ _ _ h
  · exact h

theorem Form.holds_deliver (p : Packet) (h : k.Holds s) : k.Holds (s.deliver p) := Form.holds_physMasked _ _ _ _ h

theorem Form.holds_drainFlue (d : DieId) (h : k.Holds s) : k.Holds (s.drainFlue d) :=
  Form.holds_foldl (fun p _ _ hu => Form.holds_deliver p hu) h

theorem Form.holds_writeBack (d : DieId) {ln : L2Line} (hl : k.onGrain ln.va ln.size) (h : k.Holds s) :
    k.Holds (s.writeBack d ln) := by
  unfold State.writeBack
  split
  · exact h
  · exact Form.holds_modL2 (Form.onDie_putLine hl) (Form.holds_physMasked _ _ _ _ (Form.holds_chargeLine _ _
    (Form.holds_drainFlue d h)))

theorem Form.holds_writeBackAll (d : DieId) (h : k.Holds s) : k.Holds (s.writeBackAll d) :=
  have hd := Form.holds_drainFlue d h
  Form.holds_foldl (fun ln hln _ hu => Form.holds_writeBack d ((hd.2.2 d).1 ln hln) hu) hd

theorem Form.holds_flushCopy (d : DieId) (va : Nat) (h : k.Holds s) : k.Holds (s.flushCopy d va) := by
  unfold State.flushCopy
  split
  · rename_i ln e
    split
    · exact h
    · exact Form.holds_dropLine d _ (Form.holds_writeBack d (Form.onGrain_line h e) h)
  · exact h

/-! ### Fills, reads and writes through an L2 -/

theorem Form.holds_homeFill {d : DieId} {va pa size codec n : Nat} {owner : Bool} (h : k.Holds s)
    (e : s.homeFill d va pa size codec owner = some (n, t)) (hg : k.onGrain va size) : k.Holds t := by
  unfold State.homeFill at e
  dsimp only at e
  split at e
  · cases e
  · split at e
    · cases e
    · split at e
      · cases e
        exact Form.holds_correctRuns _ h
      · cases e
        exact Form.holds_putLine d hg (Form.holds_countFill _ _ (Form.holds_correctRuns _ h))

theorem Form.holds_miss {d : DieId} {remote : Bool} {va : Nat} {l : Leaf} (h : k.Holds s) (e : s.miss d remote va = .ok (l, t)) :
    k.Holds t := by
  unfold State.miss at e
  grind [! => Form.holds_translate]

theorem Form.onLeaf_miss {d : DieId} {remote : Bool} {va : Nat} {l : Leaf} (h : k.Holds s) (e : s.miss d remote va = .ok (l, t)) :
    k.onLeaf l := by
  unfold State.miss at e
  grind [! => Form.onLeaf_translate]

/-- A non-home copy of a die, or a new one of a leaf's grain, takes other bytes. -/
theorem Form.holds_refreshed {d : DieId} {va g size pa codec valid data : Nat} {owner : Bool} (hg : k.onGrain g size)
    (h : k.Holds s) :
    k.Holds (s.modDie d (fun x => x.putLine
      { (((s.dieAt d).line va).getD ⟨g, size, pa, false, codec, owner, 0, 0, 0, []⟩) with valid := valid, data := data })) := by
  refine Form.holds_putLine d ?_ h
  rcases hln : (s.dieAt d).line va with _ | ln
  · exact hg
  · exact (Form.onGrain_line h hln : k.onGrain ln.va ln.size)

theorem Form.holds_l2Read {d : DieId} {remote fresh : Bool} {va n v : Nat} (h : k.Holds s)
    (e : s.l2Read d remote fresh va n = .ok (v, t)) : k.Holds t := by
  unfold State.l2Read at e
  extract_lets bad take fill at e
  have hfill : ∀ {u w}, fill () = .ok (w, u) → k.Holds u := by
    intro u w hu
    simp only [fill] at hu
    split at hu
    · cases hu
    · rename_i l s1 hm
      have h1 := Form.holds_miss h hm
      have hg := Form.onGrain_leaf va (Form.onLeaf_miss h hm)
      split at hu
      · split at hu
        · cases hu
        · split at hu
          · cases hu
          · split at hu <;> cases hu
            · exact Form.holds_refreshed hg h1
            · exact h1
      · split at hu
        · split at hu
          · rename_i hf
            cases hu
            exact Form.holds_homeFill h1 hf hg
          · cases hu
        · split at hu
          · rename_i hf
            cases hu
            exact Form.holds_refreshed hg (Form.holds_homeFill (Form.holds_drainFlue d h1) hf hg)
          · cases hu
  split at e
  · split at e
    · split at e
      · cases (show Except.error _ = _ from e)
      · split at e
        · cases e
          exact Form.holds_correctRuns _ h
        · cases (show Except.error _ = _ from e)
    · split at e
      · cases (show Except.error _ = _ from e)
      · split at e
        · cases e
          split
          · exact h
          · exact Form.holds_correctCopy d _ h
        · exact hfill e
  · exact hfill e

theorem Form.holds_l2Write {d : DieId} {remote : Bool} {writer : Option (CoreId × CtxId)} {va n v : Nat} (h : k.Holds s)
    (e : s.l2Write d remote writer va n v = .ok t) : k.Holds t := by
  unfold State.l2Write at e
  split at e
  · rename_i ln hln
    have hput := Form.holds_putStore d va n v writer (Form.onGrain_line h hln) h
    grind [! => Form.holds_correctRuns, ! => Form.holds_physWrite]
  · split at e
    · cases e
    · rename_i l s1 htr
      have hl : k.onGrain (va / l.grain * l.grain) l.grain := Form.onGrain_leaf va (Form.onLeaf_translate h htr)
      have h1 := Form.holds_translate h htr
      have hput := Form.holds_putStore d (ln := ⟨_, _, l.pa
        (va / l.grain * l.grain), false, 0, false, 0, 0, 0, []⟩) va n v writer hl h1
      grind [! => Form.holds_physWrite, ! => Form.holds_homeFill]

theorem Form.holds_atHome {d : DieId} {remote write : Bool} {va pa : Nat} (h : k.Holds s)
    (e : s.atHome d remote write va = .ok (pa, t)) : k.Holds t := by
  unfold State.atHome at e
  grind [! => Form.onLeaf_translate, ! => Form.holds_translate, ! => Form.onGrain_line, ! => Form.holds_correctRuns,
    Form.onGrain_leaf, ! => Form.holds_homeFill, ! => Form.holds_drainFlue, ! => Form.holds_flushCopy]

/-! ### L1 -/

theorem mem_of_mem_l1Trim {cap : Nat} {ls : List L1Line} {ln : L1Line} (h : ln ∈ l1Trim cap ls) : ln ∈ ls := by
  induction ls with
  | nil => exact h
  | cons x ls ih =>
    unfold l1Trim at h
    split at h
    · exact h
    · exact List.mem_cons_of_mem _ (ih h)

theorem Form.onGrain_grainData {d : DieId} {va : Nat} {ln : L1Line} (h : k.Holds s) (e : s.grainData d va = some ln) :
    k.onGrain ln.va ln.size := by
  unfold State.grainData at e
  split at e
  · cases e
  · rename_i o ho
    have hg := Form.onGrain_line h ho
    split at e
    · obtain ⟨x, _, rfl⟩ := Option.map_eq_some_iff.mp e
      exact hg
    · split at e
      · cases e
        exact hg
      · cases e

theorem Form.onCore_l1Store {x : Core} (va n v : Nat) (h : k.onCore x) : k.onCore { x with l1 := l1Store x.l1 va n v } := by
  intro ln hln
  obtain ⟨o, ho, rfl⟩ := List.mem_map.mp hln
  have := h o ho
  split <;> exact this

theorem Form.onCore_filter {x : Core} (p : L1Line → Bool) (h : k.onCore x) : k.onCore { x with l1 := x.l1.filter p } :=
  fun ln hln => h ln (List.mem_of_mem_filter hln)

theorem Form.holds_l1Store (c : CoreId) (va n v : Nat) (h : k.Holds s) :
    k.Holds (s.modCore c (fun x => { x with l1 := l1Store x.l1 va n v })) := Form.holds_modL1 (Form.onCore_l1Store va n v) h

theorem Form.holds_l1Filter (c : CoreId) (p : L1Line → Bool) (h : k.Holds s) :
    k.Holds (s.modCore c (fun x => { x with l1 := x.l1.filter p })) := Form.holds_modL1 (Form.onCore_filter p) h

theorem Form.holds_l1Fill (c : CoreId) (va : Nat) (h : k.Holds s) : k.Holds (s.l1Fill c va) := by
  unfold State.l1Fill
  split
  · rename_i ln e
    refine Form.holds_modL1 (fun hc o ho => ?_) h
    exact (List.mem_append.mp (mem_of_mem_l1Trim ho)).elim (hc o) fun h1 => List.mem_singleton.mp h1 ▸ Form.onGrain_grainData h e
  · exact h

theorem Form.holds_l1Clear (c : CoreId) (h : k.Holds s) : k.Holds (s.l1Clear c) :=
  Form.holds_modL1 (fun _ _ hl => absurd hl List.not_mem_nil) h

/-! ### Accesses of contexts, releases and acquires -/

theorem Form.holds_load {serve : Serve} {remote : Bool} {va n v : Nat} (h : k.Holds s)
    (e : s.load serve remote va n = .ok (v, t)) :
    k.Holds t := by
  unfold State.load at e
  grind [! => Form.holds_plbCheck, ! => Form.holds_l2Read, ! => Form.holds_chargeRead, ! => Form.holds_l1Fill]

theorem Form.holds_store {remote : Bool} {va n v : Nat} (h : k.Holds s) (e : s.store remote va n v = .ok t) : k.Holds t := by
  unfold State.store at e
  split at e
  · cases e
    exact Form.holds_localWrite _ _ _ _ h
  · dsimp only at e
    split at e
    · cases e
    · split at e
      · cases e
      · rename_i hw
        cases e
        exact Form.holds_l1Store _ _ _ _ (Form.holds_l2Write (Form.holds_plbCheck _ _ _ _ h) hw)
  · cases e

theorem Form.holds_releaseSteps (c : CoreId) (scope : Word) (h : k.Holds s) : k.Holds (s.releaseSteps c scope) := by
  unfold State.releaseSteps
  split
  · exact Form.holds_writeBackAll _ h
  · exact h

theorem Form.holds_acquireSteps (c : CoreId) (scope : Word) (h : k.Holds s) : k.Holds (s.acquireSteps c scope) := by
  have hl : k.Holds (if scopeKind scope == 0 then s else s.l1Clear c) := by
    split
    · exact h
    · exact Form.holds_l1Clear c h
  unfold State.acquireSteps
  dsimp only
  split
  · exact Form.holds_modL2 Form.onDie_discardClean hl
  · exact hl

theorem Form.holds_mark (c : CoreId) (scope : Word) (va : Nat) (h : k.Holds s) : k.Holds (s.mark c scope va) := by
  unfold State.mark
  split
  · exact Form.holds_modDie (fun _ => ⟨rfl, rfl⟩) h
  · exact h

theorem Form.holds_promote (c : CoreId) (va : Nat) (h : k.Holds s) : k.Holds (s.promote c va) := by
  unfold State.promote
  grind [! => Form.holds_writeBackAll]

end Sys2Proof.Machine

/-! Replies, traps, issue, fetch and the ends of contexts keep the form (02 R24 to R30; 03 R60; 08 R173, R184; 13 R289). -/
namespace Sys2Proof.Machine
open Sys2Proof Sys2Proof.Claims

variable {k : Form} {s t : State}

theorem Form.holds_report (n : Note) (h : k.Holds s) : k.Holds (s.report n) :=
  h

theorem Form.holds_countMsgErr (d : DieId) (h : k.Holds s) : k.Holds (s.countMsgErr d) :=
  Form.holds_modDie (fun _ => ⟨rfl, rfl⟩) h

theorem Form.holds_sendFrame (core : CoreId) (dst cls : Nat) (body : FrameBody) (h : k.Holds s) :
    k.Holds (s.sendFrame core dst cls body) :=
  h

theorem Form.holds_releaseWrite {d : DieId} {va n v : Nat} (h : k.Holds s) (e : s.releaseWrite d va n v = .ok t) : k.Holds t := by
  unfold State.releaseWrite at e
  split at e
  · cases e
  · rename_i s1 hw
    have h1 := Form.holds_l2Write (Form.holds_writeBackAll d h) hw
    cases e
    refine Form.holds_mark _ _ _ ?_
    split
    · rename_i ln hln
      split
      · exact h1
      · exact Form.holds_writeBack d (Form.onGrain_line h1 hln) h1
    · exact h1

theorem Form.holds_putReply {d : DieId} {p : Sender} {a : Nat} {w0 w1 : Word} (h : k.Holds s)
    (e : s.putReply d p a w0 w1 = some t) : k.Holds t := by
  unfold State.putReply at e
  grind [! => Form.holds_localWrite, ! => Form.holds_releaseWrite]

theorem Form.holds_chargeReply (d : DieId) (p : Sender) (a : Nat) (h : k.Holds s) : k.Holds (s.chargeReply d p a) := by
  unfold State.chargeReply
  grind [! => Form.holds_charge]

theorem Form.holds_reply (d : DieId) (p : Sender) (m : Message) (status : Nat) (value : Word) (h : k.Holds s) :
    k.Holds (s.reply d p m status value) := by
  unfold State.reply
  grind [! => Form.holds_writeBackAll, ! => Form.holds_countMsgErr, ! => Form.holds_sendFrame, ! =>
    Form.holds_putReply, ! => Form.holds_chargeReply, ! => Form.holds_report]

theorem Form.holds_endInvocation (c : CoreId) (h : k.Holds s) : k.Holds (s.endInvocation c) :=
  Form.holds_modCtxAt _ _ _ (Form.holds_modCore (fun _ => rfl) h)

theorem Form.holds_handlerTrap (cause : BitVec 8) (v : Word) (h : k.Holds s) : k.Holds (s.handlerTrap cause v) := by
  unfold State.handlerTrap
  grind [! => Form.holds_endInvocation, ! => Form.holds_reply, ! => Form.holds_report]

theorem Form.holds_takeTrap (cause : BitVec 8) (v : Word) (elem : Option Nat) (h : k.Holds s) :
    k.Holds (s.takeTrap cause v elem) := by
  unfold State.takeTrap
  grind [! => Form.holds_modCtx, ! => Form.holds_handlerTrap]

theorem Form.holds_returnTrap (h : k.Holds s) : k.Holds s.returnTrap :=
  Form.holds_modCtx _ h

theorem Form.holds_countIssue (inRegion : Bool) (h : k.Holds s) : k.Holds (s.countIssue inRegion) := by
  unfold State.countIssue
  grind [! => Form.holds_modCtx, Form.holds_modCore, Form.holds_eq]

theorem Form.holds_retire (stall : BitVec 3) (h : k.Holds s) : k.Holds (s.retire stall) :=
  Form.holds_advanceTo _ (Form.holds_modCtx _ h)

theorem Form.holds_notIssued (h : k.Holds s) : k.Holds s.notIssued := by
  unfold State.notIssued
  grind [! => Form.holds_modCtx, Form.holds_modCore, Form.holds_eq]

theorem Form.holds_trapAt (stall : BitVec 3) (cause : BitVec 8) (v : Word) (elem : Option Nat) (h : k.Holds s) :
    k.Holds (s.trapAt stall cause v elem) := by
  unfold State.trapAt
  grind [! => Form.holds_takeTrap, ! => Form.holds_retire, ! => Form.holds_advanceTo]

/-- The state that an instruction's own part leaves. -/
abbrev Effect.state : Effect → State
  | .next s => s
  | .jump s _ => s
  | .trap s _ _ => s
  | .trapElem s _ _ _ => s
  | .wait s _ => s
  | .retry s _ => s
  | .abort s _ => s
  | .leave s => s
  | .hop s => s

theorem Form.holds_finish (stall : BitVec 3) {r : Effect} (h : k.Holds r.state) : k.Holds (r.finish stall) := by
  cases r with
  | next u => exact Form.holds_retire _ (Form.holds_modCtx _ h)
  | jump u pc => exact Form.holds_retire _ (Form.holds_modCtx _ h)
  | trap u c v => exact Form.holds_trapAt _ _ _ _ h
  | trapElem u c v e => exact Form.holds_trapAt _ _ _ _ h
  | wait u w => exact Form.holds_retire _ (Form.holds_modCtx _ (Form.holds_notIssued h))
  | retry u w => exact Form.holds_retire _ (Form.holds_modCtx _ (Form.holds_notIssued h))
  | abort u code => exact Form.holds_retire _ (Form.holds_modCtx _ h)
  | leave u => exact Form.holds_advanceTo _ h
  | hop u => exact Form.holds_modCtx _ (Form.holds_retire _ h)

/-- An instruction's own part keeps the form. -/
def Form.Body (k : Form) (body : State → Effect) : Prop := ∀ u, k.Holds u → k.Holds (body u).state

/-- What a step answers has the form, when it answers a state. -/
def Form.onOut (k : Form) : Out → Prop
  | .next u => k.Holds u
  | .fault _ => True
  | .refused _ => True

theorem Form.holds_guarded {i : Instr} {m : Meta} {body : State → Effect} (hb : k.Body body) (h : k.Holds s) :
    k.Holds (s.guarded i m body).state := by
  have hbody := hb s h
  unfold State.guarded
  split
  · exact h
  · split
    · exact h
    · split
      · exact hbody
      · split
        · rename_i e; rw [e] at hbody; exact Form.holds_modCtx _ hbody
        · rename_i e; rw [e] at hbody; exact Form.holds_modCtx _ hbody
        · exact hbody

theorem Form.holds_underGuard {i : Instr} {ctl : SCtl} {m : Meta} {body : State → Effect} (hb : k.Body body) (h : k.Holds s) :
    k.Holds (s.underGuard i ctl m body).state := by
  unfold State.underGuard
  split
  · exact Form.holds_guarded hb h
  · extract_lets observed con
    have hcon : ∀ u, con = some u → k.Holds u := by
      intro u hu
      simp only [con] at hu
      split at hu
      · cases hu; exact h
      · split at hu
        · obtain ⟨x, _, rfl⟩ := Option.map_eq_some_iff.mp hu
          exact Form.holds_modCtx _ h
        · cases hu; exact h
    clear_value con
    split
    · exact h
    · have hu := hcon _ rfl
      split
      · exact Form.holds_guarded hb hu
      · exact hu

theorem Form.holds_attempt {i : Instr} {ctl : SCtl} {m : Meta} {body : State → Effect} (hb : k.Body body) (h : k.Holds s) :
    k.Holds (s.attempt i ctl m body).state := by
  unfold State.attempt
  split
  · exact h
  · split
    · exact h
    · exact Form.holds_underGuard hb h

/-- Issue keeps the form where the instruction's own part does. -/
theorem Form.onOut_issue {i : Instr} {ctl : SCtl} {m : Meta} {body : State → Effect} (hb : k.Body body) (h : k.Holds s) :
    k.onOut (s.issue i ctl m body) :=
  Form.holds_finish _ (Form.holds_attempt hb (Form.holds_countIssue _ (Form.holds_advanceTo _ h)))

theorem Form.onOut_issueVector {i : Instr} {ctl : VCtl} {srcs : List (BitVec 6)} {body : State → Effect} (hb : k.Body body)
    (h : k.Holds s) : k.onOut (s.issueVector i ctl srcs body) := Form.onOut_issue hb h

theorem Form.holds_schedule (t : Turn) (h : k.Holds s) : k.Holds (s.schedule t) :=
  h

theorem Form.holds_leaveHopSlot (h : k.Holds s) : k.Holds s.leaveHopSlot := by
  unfold State.leaveHopSlot
  grind [Form.holds_modDie, Form.holds_eq]

theorem Form.holds_depart (c : CoreId) (pc : Word) (h : k.Holds s) : k.Holds (s.depart c pc) := by
  have h2 := Form.holds_leaveHopSlot (Form.holds_releaseSteps s.runCore packageScope h)
  refine Form.holds_schedule _ (Form.holds_modCtx _ ?_)
  split
  · exact h2
  · exact Form.holds_modDie (fun _ => ⟨rfl, rfl⟩) h2

theorem Form.holds_modLaunch (arrival : Nat) (f : Launch → Launch) (h : k.Holds s) : k.Holds (s.modLaunch arrival f) :=
  h

theorem Form.holds_voidCounters (arrival : Nat) (h : k.Holds s) : k.Holds (s.voidCounters arrival) :=
  Form.holds_modLaunch _ _ h

theorem Form.holds_failLaunches (d : DieId) (h : k.Holds s) : k.Holds (s.failLaunches d) :=
  Form.holds_foldl (fun a _ _ hu => Form.holds_schedule _ (Form.holds_voidCounters a (Form.holds_report _ hu))) h

theorem Form.onDie_sublist {x : Die} {ls : List L2Line} {bad : List Nat} (hs : ls ⊆ x.l2) (h : k.onDie x) :
    k.onDie { x with l2 := ls, l2Bad := bad } := ⟨fun o ho => h.1 o (hs ho), h.2⟩

theorem Form.holds_dropBad (d : DieId) (pa : Nat) (h : k.Holds s) : k.Holds (s.dropBad d pa) := by
  unfold State.dropBad
  extract_lets inGrain s1 bad
  have h1 : k.Holds s1 := by
    simp only [s1]
    split
    · exact Form.holds_modL2 (Form.onDie_filter _) h
    · exact h
  split
  · exact h1
  · exact Form.holds_modL2 (Form.onDie_sublist (List.filter_subset_self _)) h1

theorem Form.holds_noteBad (d : DieId) (domain : BitVec 16) (va : Nat) (h : k.Holds s) : k.Holds (s.noteBad d domain va) := by
  unfold State.noteBad
  grind [! => Form.holds_report, ! => Form.holds_failLaunches, ! => Form.holds_dropBad]

theorem Form.holds_accessTrap (c : BitVec 8) (v : Word) (h : k.Holds s) : k.Holds (s.accessTrap c v).state := by
  unfold State.accessTrap
  grind [! => Form.holds_noteBad]

theorem Form.holds_pathC {α : Type} {access : Bool → Except Stop α} {go : α → Effect}
    (hgo : ∀ b a, access b = .ok a → k.Holds (go a).state) (h : k.Holds s) : k.Holds (s.pathC access go).state := by
  unfold State.pathC
  extract_lets policy
  split
  · rename_i e
    exact hgo _ _ e
  · exact Form.holds_accessTrap _ _ h
  · split
    · exact h
    · rename_i again _ _ _ _ _
      have hagain : k.Holds again.state := by
        simp only [again]
        split
        · rename_i e
          exact hgo _ _ e
        · exact Form.holds_accessTrap _ _ h
        · exact h
      split
      · split
        · exact Form.holds_depart _ _ h
        · exact hagain
      · exact hagain

theorem Form.holds_orTrap {α : Type} {r : Except Stop α} {go : α → Effect} (hgo : ∀ a, r = .ok a → k.Holds (go a).state)
    (h : k.Holds s) : k.Holds (orTrap s r go).state := by
  unfold orTrap
  split
  · exact hgo _ rfl
  · exact Form.holds_accessTrap _ _ h
  · exact h

theorem Form.holds_illegal (i : Instr) (h : k.Holds s) : k.Holds (illegal s i).state := h

theorem Form.holds_startAt (c : CoreId) (x : CtxId) (v : Ctx) (h : k.Holds s) : k.Holds (s.startAt c x v) :=
  Form.holds_modCtxAt _ _ _ h

theorem Form.holds_modFirebox (d : DieId) (f : Firebox → Firebox) (h : k.Holds s) : k.Holds (s.modFirebox d f) :=
  Form.holds_modDie (fun _ => ⟨rfl, rfl⟩) h

theorem Form.holds_dropLease (c : CoreId) (x : CtxId) (h : k.Holds s) : k.Holds (s.dropLease c x) := by
  unfold State.dropLease
  grind [! => Form.holds_modFirebox, ! => Form.holds_schedule]

theorem Form.holds_checkGroup (c : CoreId) (h : k.Holds s) : k.Holds (s.checkGroup c) := by
  unfold State.checkGroup
  grind [! => Form.holds_schedule]

theorem Form.holds_freeHopSlot (c : CoreId) (x : CtxId) (h : k.Holds s) : k.Holds (s.freeHopSlot c x) :=
  Form.holds_foldl (fun _ _ _ hu => Form.holds_modDie (fun _ => ⟨rfl, rfl⟩) hu) h

theorem Form.holds_endContext (c : CoreId) (x : CtxId) (h : k.Holds s) : k.Holds (s.endContext c x) :=
  Form.holds_checkGroup _ (Form.holds_modCtxAt _ _ _ (Form.holds_freeHopSlot _ _ (Form.holds_dropLease _ _ h)))

theorem Form.holds_fetch {w : Word} (h : k.Holds s) (e : s.fetch = .ok (w, t)) : k.Holds t := by
  unfold State.fetch at e
  grind [! => Form.holds_plbCheck, ! => Form.holds_l2Read, ! => Form.holds_chargeRead, Form.holds_modCore]

theorem Form.holds_modAgent (d : DieId) (n : Fin 8) (f : Agent → Agent) (h : k.Holds s) : k.Holds (s.modAgent d n f) :=
  Form.holds_modDie (fun _ => ⟨rfl, rfl⟩) h

theorem Form.holds_popCommand (d : DieId) (n : Fin 8) (h : k.Holds s) : k.Holds (s.popCommand d n) := by
  unfold State.popCommand
  grind [! => Form.holds_modAgent, ! => Form.holds_schedule]

theorem Form.holds_deferTurn (t : Turn) (h : k.Holds s) : k.Holds (s.deferTurn t) :=
  h

theorem Form.holds_headCommand {d : DieId} {n : Fin 8} (h : k.Holds s) (e : s.headCommand d n = some (.error t)) : k.Holds t := by
  unfold State.headCommand at e
  grind [! => Form.holds_reply, ! => Form.holds_popCommand]

theorem Form.holds_placeWord (w : Nat) (h : k.Holds s) : k.Holds (s.placeWord w) :=
  Form.holds_modCtxAt _ _ _ (Form.holds_modCore (fun _ => rfl) h)

end Sys2Proof.Machine

/-! The scalar and control instructions keep the form (04 R79; 13 R291; 15 to 18). -/
namespace Sys2Proof.Machine
open Sys2Proof Sys2Proof.Claims

variable {k : Form} {s t : State}

theorem Form.onOut_alu2 {i : Instr} {f : SR} {lam : Nat} {op : Word → Word → Word} (h : k.Holds s) :
    k.onOut (s.alu2 i f lam op) :=
  Form.onOut_issue (fun _ hu => Form.holds_ws _ _ _ hu) h

theorem Form.onOut_alu1 {i : Instr} {f : SR} {lam : Nat} {op : Word → Word} (h : k.Holds s) : k.onOut (s.alu1 i f lam op) :=
  Form.onOut_issue (fun _ hu => Form.holds_ws _ _ _ hu) h

theorem Form.onOut_aluI {i : Instr} {f : SI} {op : Word → Word → Word} (h : k.Holds s) : k.onOut (s.aluI i f op) :=
  Form.onOut_issue (fun _ hu => Form.holds_ws _ _ _ hu) h

theorem Form.holds_wsFlags (lam : Nat) (dst : BitVec 6) (r : FRes) (h : k.Holds s) : k.Holds (s.wsFlags lam dst r) :=
  Form.holds_orFlags _ (Form.holds_ws _ _ _ h)

theorem Form.holds_rounded {i : Instr} {rm : Nat} {go : Nat → Effect} (hgo : ∀ mode, k.Holds (go mode).state) (h : k.Holds s) :
    k.Holds (s.rounded i rm go).state := by
  unfold State.rounded
  split
  · exact hgo _
  · exact h

theorem Form.onOut_arith2 {i : Instr} {f : SR} {intLam : Nat} {iop : Int → Int → Int} {fop : Nat → Bool → Fmt → Nat → Nat → FRes}
    {tag : Option (State → State → Tag)} (h : k.Holds s) : k.onOut (s.arith2 i f intLam iop fop tag) := by
  refine Form.onOut_issue (fun u hu => Form.holds_rounded (fun mode => ?_) hu) h
  have hr := fun r => Form.holds_orFlags (BitVec.ofNat 5 r) (Form.holds_ws (lamBy f.ty intLam) f.dst
    (arith f.ty iop (fop mode u.ftz) (u.rs f.sa) (u.rs f.sb)).1 hu)
  cases tag with
  | none => exact hr _
  | some g => exact Form.holds_modCtx _ (hr _)

theorem Form.holds_compare {lam : Nat} {ty : BitVec 5} {dst : BitVec 6} {a b : Word} {ta tb : Tag} (h : k.Holds s) :
    k.Holds (s.compare lam ty dst a b ta tb).state := by
  have hd : ∀ u, k.Holds u → k.Holds ((u.ws lam dst (cmpWord ty s.ftz a b).1).orFlags (BitVec.ofNat 5
    (cmpWord ty s.ftz a b).2)) :=
    fun u hu => Form.holds_orFlags _ (Form.holds_ws _ _ _ hu)
  unfold State.compare
  extract_lets r done record
  have hrecord : ∀ c, k.Holds (record c).state := by
    intro c
    simp only [record]
    split
    · exact hd s h
    · split
      · exact Form.holds_modCtx _ (hd _ (Form.holds_modCtx _ h))
      · exact h
  split
  · exact Form.holds_modCtx _ (hd s h)
  · exact hrecord _
  · exact hrecord _
  · exact Form.holds_modCtx _ (hd s h)

theorem Form.onOut_minMax {i : Instr} {f : SR} {greater : Bool} (h : k.Holds s) : k.onOut (s.minMax i f greater) :=
  Form.onOut_issue (fun _ hu => Form.holds_orFlags _ (Form.holds_ws _ _ _ hu)) h

theorem Form.holds_padd {dst : BitVec 6} {p : Word} {disp : Int} (h : k.Holds s) : k.Holds (s.padd dst p disp).state := by
  unfold State.padd
  grind [! => Form.holds_ws]

theorem Form.holds_wiFlags (dst : BitVec 6) (r : FRes) (h : k.Holds s) : k.Holds (s.wiFlags dst r) :=
  Form.holds_orFlags _ (Form.holds_wi _ _ h)

theorem Form.onOut_execJr {f : SI} (h : k.Holds s) : k.onOut (execJr f s) := by
  refine Form.onOut_issue (fun u hu => ?_) h
  grind [! => Form.holds_ws, ! => Form.holds_modCtx]

theorem Form.holds_grantVl (n : Nat) (h : k.Holds s) : k.Holds (s.grantVl n) :=
  Form.holds_modCtx _ h

theorem Form.holds_heedNotice (h : k.Holds s) : k.Holds s.heedNotice := by
  unfold State.heedNotice
  grind [! => Form.holds_modCtx, ! => Form.holds_schedule, Form.holds_eq]

theorem Form.onOut_execEret {f : SR} (h : k.Holds s) : k.onOut (execEret f s) := by
  refine Form.onOut_issue (fun u hu => ?_) h
  dsimp only
  split
  · exact hu
  · split
    · exact hu
    · exact Form.holds_heedNotice (Form.holds_returnTrap hu)

theorem Form.onOut_execWfe {f : SR} (h : k.Holds s) : k.onOut (execWfe f s) := by
  refine Form.onOut_issue (fun u hu => ?_) h
  grind [! => Form.holds_modCtx, ! => Form.holds_acquireSteps, Form.holds_eq]

theorem Form.onOut_execInstructionFetch {cause : BitVec 8} {addr : Word} (h : k.Holds s) :
    k.onOut (execInstructionFetch cause addr s) := by
  unfold execInstructionFetch
  grind [! => Form.holds_noteBad, ! => Form.holds_trapAt, Form.onOut]

theorem Form.onOut_execHandlerOverrun {core : CoreId} (h : k.Holds s) : k.onOut (execHandlerOverrun core s) :=
  Form.holds_takeTrap _ _ _ (s := { s with cur := (core, handlerCtx) }) h

end Sys2Proof.Machine

/-! Special registers, register blocks, the map of virtual dies and atomic regions keep the form (01 R9; 03 R46 to R52; 08 R182 to
R193; 14 R310, R319). -/
namespace Sys2Proof.Machine
open Sys2Proof Sys2Proof.Claims

variable {k : Form} {s t : State}

theorem Form.holds_rejectUnread (c : CoreId) (r : Ring) (h : k.Holds s) : k.Holds (s.rejectUnread c r) := by
  refine Form.holds_foldl (fun p _ u hu => ?_) h
  dsimp only
  split
  · exact Form.holds_reply _ _ _ _ _ hu
  · exact hu

theorem Form.holds_setRing (core : CoreId) (c : Fin 8) (r : Ring) (h : k.Holds s) : k.Holds (s.setRing core c r) :=
  Form.holds_modCore (fun _ => rfl) h

theorem Form.holds_describeRing {c : Fin 8} {f v : Nat} (h : k.Holds s) (e : s.describeRing c f v = some t) : k.Holds t := by
  unfold State.describeRing at e
  dsimp only at e
  split at e
  · cases e
  · cases e
    exact Form.holds_modCore (fun _ => rfl) (Form.holds_setRing _ _ _ (Form.holds_rejectUnread _ _ h))

theorem Form.holds_csrWrite {n : Nat} {v : Word} (h : k.Holds s) (e : s.csrWrite n v = some t) : k.Holds t := by
  unfold State.csrWrite at e
  extract_lets super accept at e
  have haccept : ∀ {ok f}, accept ok f = some t → k.Holds t := by
    intro ok f hu
    simp only [accept] at hu
    split at hu
    · cases hu
      exact Form.holds_modCtx _ h
    · cases hu
  clear_value accept super
  revert e
  iterate 12 refine iteInduction (motive := fun o => o = some t → k.Holds t) (fun _ => haccept) (fun _ => ?_)
  refine iteInduction (motive := fun o => o = some t → k.Holds t) (fun _ e => Form.holds_describeRing h e) (fun _ e => ?_)
  cases e
  exact h

theorem Form.holds_csrWait (n : Nat) (h : k.Holds s) : k.Holds (s.csrWait n) := by
  unfold State.csrWait
  split
  · exact Form.holds_drainVector h
  · exact h

theorem Form.onOut_execCsrr {f : SI} (h : k.Holds s) : k.onOut (execCsrr f s) :=
  Form.onOut_issue (fun _ hu => Form.holds_modCtx _ (Form.holds_ws _ _ _ (Form.holds_csrWait _ hu))) h

theorem Form.onOut_execCsrw {f : SI} (h : k.Holds s) : k.onOut (execCsrw f s) := by
  refine Form.onOut_issue (fun u hu => ?_) h
  dsimp only
  split
  · rename_i e
    exact Form.holds_csrWrite (Form.holds_csrWait _ hu) e
  · exact hu

theorem Form.holds_changeRing (n : Fin 16) (f : HostRing → HostRing) (h : k.Holds s) : k.Holds (s.changeRing n f) := by
  unfold State.changeRing
  dsimp only
  split <;> split <;> exact h

theorem getElem_vmap_fin {α β : Type} {n : Nat} (v : Vector α n) (f : α → β) (i : Fin n) : (vmap v f)[i] = f v[i] :=
  getElem_vmap v f i.val i.isLt

/-- A change of every core and every die. -/
theorem Form.holds_mapAll {f : Core → Core} {g : Die → Die} (hf : ∀ x, k.onCore x → k.onCore (f x))
    (hg : ∀ x, k.onDie x → k.onDie (g x))
    (h : k.Holds s) : k.Holds { s with cores := vmap s.cores f, dies := vmap s.dies g } :=
  ⟨h.1, fun c => (getElem_vmap_fin s.cores f c).symm ▸ hf _ (h.2.1 c), fun d => (getElem_vmap_fin s.dies g d).symm ▸ hg _
    (h.2.2 d)⟩

theorem Form.onCore_nil (x : Core) (ls : List L1Line) : k.onCore { x with l1 := [], icache := ls } :=
  fun _ hl => absurd hl List.not_mem_nil

theorem Form.onDie_nil (x : Die) : k.onDie { x with l2 := [], tlb := [] } :=
  ⟨fun _ hl => absurd hl List.not_mem_nil, fun _ hl => absurd hl List.not_mem_nil⟩

theorem Form.holds_quiesce (h : k.Holds s) : k.Holds s.quiesce :=
  Form.holds_mapAll (fun x _ => Form.onCore_nil x []) (fun x _ => Form.onDie_nil x)
    (Form.holds_foldl (fun i _ _ hu => Form.holds_writeBackAll (Fin.ofNat 8 i) hu) h)

theorem Form.onMem_moveCells (f : Nat → Nat) (m : List Host.Cell) : k.onMem (moveCells f m) := by
  cases k with
  | memories => exact memoryWf_moveCells f m
  | lines => trivial

theorem Form.onMem_movedLocal (s : State) (core : CoreId → CoreId) : k.onMem (s.movedLocal core) := by
  cases k with
  | memories => exact memoryWf_movedLocal s core
  | lines => trivial

theorem Form.holds_remap (code : Nat) (h : k.Holds s) : k.Holds (s.remap code) := by
  have hq := Form.holds_quiesce h
  unfold State.remap
  generalize s.quiesce = q at hq
  dsimp only
  obtain ⟨⟨hmem, -, -, hstaging⟩, hcores, hdies⟩ := hq
  refine ⟨⟨hmem, Form.onMem_movedLocal _ _, ?_, hstaging⟩, fun c => ?_, fun d => ?_⟩
  · dsimp only
    exact Form.onMem_moveCells _ _
  · simp only [Fin.getElem_fin, Vector.getElem_ofFn]
    exact hcores (moveCore code s.bregs.vdmap c)
  · simp only [Fin.getElem_fin, Vector.getElem_ofFn]
    exact hdies (moveDie code s.bregs.vdmap d)

theorem Form.holds_writeVdmap (v : Nat) (h : k.Holds s) : k.Holds (s.writeVdmap v) := by
  unfold State.writeVdmap
  dsimp only
  split
  · exact h
  · split
    · exact h
    · exact Form.holds_remap (s := { s with bregs := _ }) _ h

theorem Form.holds_writeRing (n : Fin 16) (o v : Nat) (h : k.Holds s) : k.Holds (s.writeRing n o v) := by
  unfold State.writeRing
  grind [! => Form.holds_changeRing]

theorem Form.holds_bellowsWrite (off v : Nat) (h : k.Holds s) : k.Holds (s.bellowsWrite off v) := by
  unfold State.bellowsWrite
  split
  · exact Form.holds_writeRing _ _ _ h
  · split
    · exact Form.holds_writeVdmap _ h
    · exact h

theorem Form.holds_fwWrite (d : DieId) (off n v : Nat) (h : k.Holds s) : k.Holds (s.fwWrite d off n v) :=
  Form.holds_modDie (fun _ => ⟨rfl, rfl⟩) h

theorem Form.holds_bellowsPatch (off n v : Nat) (h : k.Holds s) : k.Holds (s.bellowsPatch off n v) :=
  Form.holds_bellowsWrite _ _ h

theorem Form.holds_loadC {serve : Serve} {remote : Bool} {va n : Nat} {v : Nat} (h : k.Holds s)
    (e : s.loadC serve remote va n = .ok (v, t)) : k.Holds t := by
  unfold State.loadC at e
  grind [! => Form.holds_load]

theorem Form.holds_storeC {remote : Bool} {va n v : Nat} (h : k.Holds s) (e : s.storeC remote va n v = .ok t) : k.Holds t := by
  unfold State.storeC at e
  grind [! => Form.holds_fwWrite, ! => Form.holds_bellowsPatch, ! => Form.holds_store]

theorem Form.holds_regionHome {write remote : Bool} {va : Nat} {v : Nat} (h : k.Holds s)
    (e : s.regionHome write remote va = .ok (v, t)) : k.Holds t := by
  unfold State.regionHome at e
  grind [! => Form.holds_plbCheck, ! => Form.holds_translate]

theorem Form.holds_regionLoad {f : SM} {a : Nat} (h : k.Holds s) : k.Holds (s.regionLoad f a).state := by
  unfold State.regionLoad
  dsimp only
  split
  · refine Form.holds_pathC (fun b hs e => ?_) h
    have hh : k.Holds hs.2 := Form.holds_regionHome h e
    split
    · exact hh
    · rename_i x _
      have ht := Form.holds_modCtx (fun _ => x) hh
      split
      · exact Form.holds_modCtx _ (Form.holds_wi _ _ ht)
      · split
        · exact ht
        · exact Form.holds_orTrap (fun vu e => Form.holds_modCtx _ (Form.holds_wi _ _ (Form.holds_modCtx _
          (Form.holds_load ht e)))) ht
  · exact h
  · exact h

theorem Form.holds_regionStore {f : SM} {a : Nat} (h : k.Holds s) : k.Holds (s.regionStore f a).state := by
  unfold State.regionStore
  dsimp only
  split
  · refine Form.holds_pathC (fun b hs e => ?_) h
    have hh : k.Holds hs.2 := Form.holds_regionHome h e
    split
    · exact hh
    · rename_i x _
      have ht := Form.holds_modCtx (fun _ => x) hh
      split
      · exact ht
      · exact Form.holds_modCtx _ ht
  · exact h
  · exact h

theorem Form.onOut_execAbegin {f : BR} (h : k.Holds s) : k.onOut (execAbegin f s) := by
  refine Form.onOut_issue (fun u hu => ?_) h
  split
  · exact hu
  · exact Form.holds_modCtx _ hu

theorem Form.onOut_execAabort {f : SR} (h : k.Holds s) : k.onOut (execAabort f s) := by
  refine Form.onOut_issue (fun u hu => ?_) h
  split <;> exact hu

theorem Form.holds_gather {write : Bool} {as pas : List Nat} (h : k.Holds s) (e : s.gather write as = .ok (pas, t)) :
    k.Holds t := by
  induction as generalizing s pas with
  | nil => cases e; exact h
  | cons a as ih =>
    unfold State.gather at e
    split at e
    · cases e
    · rename_i e1
      split at e
      · cases e
      · rename_i e2
        cases e
        exact ih (Form.holds_atHome h e1) e2

theorem Form.holds_commitStores (fs : List Word) (l : List (RStore × Nat)) (h : k.Holds s) : k.Holds (s.commitStores fs l) := by
  induction l generalizing s with
  | nil => exact h
  | cons p l ih => exact ih (Form.holds_physWrite _ _ _ h)

theorem Form.holds_chargeCommit (flits : Nat) (h : k.Holds s) : k.Holds (s.chargeCommit flits) := by
  unfold State.chargeCommit
  grind [! => Form.holds_charge]

theorem Form.holds_commit {r : Region} {lpas spas : List Nat} (h : k.Holds s) : k.Holds (s.commit r lpas spas).state := by
  unfold State.commit
  dsimp only
  split
  · exact h
  · split
    · exact h
    · exact Form.holds_foldl (fun st _ _ hu => Form.holds_mark _ _ _ hu) (Form.holds_releaseSteps _ _ (Form.holds_acquireSteps _ _
        (Form.holds_modCtx _ (Form.holds_commitStores _ _ (Form.holds_chargeCommit _ h)))))

theorem Form.onOut_execAend {f : SR} (h : k.Holds s) : k.onOut (execAend f s) := by
  refine Form.onOut_issue (fun u hu => ?_) h
  dsimp only
  split
  · exact hu
  · split
    · exact hu
    · refine Form.holds_orTrap (fun lu e1 => ?_) hu
      have h1 : k.Holds lu.2 := Form.holds_gather hu e1
      exact Form.holds_orTrap (fun su e2 => Form.holds_commit (Form.holds_chargeCommit _ (Form.holds_gather h1 e2))) hu

end Sys2Proof.Machine

/-! Scalar memory and circular buffers keep the form
  (06 R122 to R125; 07 R149, R150; 15 R332 to R334, R343 to R347; 16 R387, R388;
17 R424, R425). -/
namespace Sys2Proof.Machine
open Sys2Proof Sys2Proof.Claims

variable {k : Form} {s t : State}

theorem Form.onOut_execLd {f : SM} (h : k.Holds s) : k.onOut (execLd f s) := by
  refine Form.onOut_issue (fun u hu => Form.holds_orTrap (fun a _ => ?_) hu) h
  split
  · exact Form.holds_regionLoad hu
  · exact Form.holds_pathC (fun _ _ e => Form.holds_wi _ _ (Form.holds_loadC hu e)) hu

theorem Form.onOut_execSt {f : SM} (h : k.Holds s) : k.onOut (execSt f s) := by
  refine Form.onOut_issue (fun u hu => Form.holds_orTrap (fun a _ => ?_) hu) h
  split
  · exact Form.holds_regionStore hu
  · exact Form.holds_pathC (fun _ _ e => Form.holds_storeC hu e) hu

theorem Form.onOut_execLdacq {f : SM} (h : k.Holds s) : k.onOut (execLdacq f s) := by
  refine Form.onOut_issue (fun u hu => ?_) h
  dsimp only
  split
  · exact hu
  · exact Form.holds_orTrap (fun _ _ => Form.holds_pathC (fun _ _ e =>
      Form.holds_wi _ _ (Form.holds_acquireSteps _ _ (Form.holds_loadC hu e))) hu) hu

theorem Form.holds_storeRelease {scope : Word} {remote : Bool} {va n v : Nat} (h : k.Holds s)
    (e : s.storeRelease scope remote va n v = .ok t) : k.Holds t := by
  unfold State.storeRelease at e
  split at e
  · cases e
  · dsimp only at e
    split at e
    · cases e
    · rename_i e1
      have h1 := Form.holds_storeC (Form.holds_releaseSteps _ _ h) e1
      split at e
      · cases e
        refine Form.holds_mark _ _ _ ?_
        split
        · split
          · rename_i hln
            split
            · exact h1
            · exact Form.holds_writeBack _ (Form.onGrain_line h1 hln) h1
          · exact h1
        · exact h1
      · cases e
        exact h1

theorem Form.onOut_execStrel {f : SM} (h : k.Holds s) : k.onOut (execStrel f s) := by
  refine Form.onOut_issue (fun u hu => ?_) h
  dsimp only
  split
  · exact hu
  · refine Form.holds_orTrap (fun _ _ => Form.holds_pathC (fun _ _ e => ?_) hu) hu
    split
    · exact hu
    · exact Form.holds_storeRelease hu e

theorem Form.holds_atomicSite {remote : Bool} {va : Nat} {v : AtomicSite} (h : k.Holds s)
    (e : s.atomicSite remote va = .ok (v, t)) : k.Holds t := by
  unfold State.atomicSite at e
  grind [! => Form.holds_plbCheck, ! => Form.holds_atHome]

theorem Form.holds_atomicWrite (site : AtomicSite) (va n v : Nat) (h : k.Holds s) : k.Holds (s.atomicWrite site va n v) := by
  unfold State.atomicWrite
  split
  · exact Form.holds_localWrite _ _ _ _ h
  · exact Form.holds_l1Store _ _ _ _ (Form.holds_physWrite _ _ _ h)

theorem Form.holds_atomic {ord : Nat} {prm : Bool} {scope : Word} {n : Nat} {new : Nat → Option Nat} {remote : Bool} {va v : Nat}
    (h : k.Holds s) (e : s.atomic ord prm scope n new remote va = .ok (v, t)) : k.Holds t := by
  unfold State.atomic at e
  split at e
  · cases e
  · extract_lets c paged far s1 s2 at e
    have h1 : k.Holds s1 := by
      simp only [s1]
      split
      · exact Form.holds_releaseSteps _ _ h
      · exact h
    have h2 : k.Holds s2 := by
      simp only [s2]
      split
      · exact Form.holds_promote _ _ h1
      · exact h1
    split at e
    · cases e
    · rename_i site s3 e3
      have h3 := Form.holds_atomicSite h2 e3
      extract_lets old s4 s5 at e
      have h4 : k.Holds s4 := by
        simp only [s4]
        split
        · exact h3
        · split
          · exact Form.holds_mark _ _ _ (Form.holds_atomicWrite _ _ _ _ h3)
          · exact Form.holds_atomicWrite _ _ _ _ h3
      have h5 : k.Holds s5 := by
        simp only [s5]
        split
        · exact Form.holds_charge _ _ _ h4
        · exact h4
      obtain ⟨-, rfl⟩ := Prod.mk.inj (Except.ok.inj e)
      split
      · exact Form.holds_acquireSteps _ _ h5
      · exact h5

theorem Form.holds_amoEffect {i : Instr} {dst base sc : BitVec 6} {ord : BitVec 2} {prm : Bool} {sz : BitVec 3}
    {new : Nat → Option Nat} (h : k.Holds s) : k.Holds (s.amoEffect i dst base sc ord prm sz new).state := by
  unfold State.amoEffect
  dsimp only
  split
  · exact h
  · split
    · exact h
    · refine Form.holds_orTrap (fun _ _ => Form.holds_pathC (fun _ _ e => ?_) h) h
      split
      · exact h
      · exact Form.holds_wi _ _ (Form.holds_atomic h e)

theorem Form.onOut_execCflush {f : SM} (h : k.Holds s) : k.onOut (execCflush f s) := by
  refine Form.onOut_issue (fun u hu => Form.holds_orTrap (fun a _ => ?_) hu) h
  dsimp only
  split
  · exact hu
  · split
    · exact Form.holds_accessTrap _ _ hu
    · exact Form.holds_flushCopy _ _ (Form.holds_l1Filter _ _ (Form.holds_plbCheck _ _ _ _ hu))
  · exact hu

theorem Form.onOut_execFence {f : FY} (h : k.Holds s) : k.onOut (execFence f s) := by
  refine Form.onOut_issue (fun u hu => ?_) h
  have hd : k.Holds (if f.imm.getLsbD 1 then u.drainVector else u) := by
    split
    · exact Form.holds_drainVector hu
    · exact hu
  dsimp only
  generalize (if f.imm.getLsbD 1 then u.drainVector else u) = v at hd ⊢
  split
  · exact hu
  · split
    · exact hd
    · exact Form.holds_acquireSteps _ _ (Form.holds_releaseSteps _ _ hd)

theorem Form.holds_putRing (c : CoreId) (n : Nat) (r : Ring) (h : k.Holds s) : k.Holds (s.putRing c n r) :=
  Form.holds_setRing _ _ _ h

theorem Form.holds_fillSlot (c : CoreId) (n : Nat) (sender : Option Sender) (bytes v : Nat) (h : k.Holds s) :
    k.Holds (s.fillSlot c n sender bytes v) := Form.holds_putRing _ _ _ (Form.holds_localWrite _ _ _ _ h)

theorem Form.onOut_execCbfree {f : SI} (h : k.Holds s) : k.onOut (execCbfree f s) := by
  refine Form.onOut_issue (fun u hu => ?_) h
  grind [! => Form.holds_illegal, ! => Form.holds_putRing]

theorem Form.holds_answerTaken (c : CoreId) (r : Ring) (h : k.Holds s) : k.Holds (s.answerTaken c r) := by
  unfold State.answerTaken
  grind [! => Form.holds_reply]

theorem Form.onOut_execCbget {f : SI} (h : k.Holds s) : k.onOut (execCbget f s) := by
  refine Form.onOut_issue (fun u hu => ?_) h
  dsimp only
  split
  · exact hu
  · split
    · exact hu
    · exact Form.holds_wi _ _ (Form.holds_acquireSteps _ _ (Form.holds_putRing _ _ _ (Form.holds_answerTaken _ _ hu)))

theorem Form.onOut_execCbres {f : SI} (h : k.Holds s) : k.onOut (execCbres f s) := by
  refine Form.onOut_issue (fun u hu => ?_) h
  dsimp only
  split
  · exact hu
  · split
    · exact hu
    · exact Form.holds_wi _ _ (Form.holds_modCtx _ (Form.holds_putRing _ _ _ hu))

theorem Form.holds_cbputFill {f : SI} {n : Nat} (h : k.Holds s) : k.Holds (s.cbputFill f n).state := by
  unfold State.cbputFill
  grind [! => Form.holds_illegal, ! => Form.holds_fillSlot]

theorem Form.holds_cbputPublish {f : SI} {n : Nat} (h : k.Holds s) : k.Holds (s.cbputPublish f n).state := by
  unfold State.cbputPublish
  dsimp only
  split
  · exact h
  · exact Form.holds_modCtx _ (Form.holds_putRing _ _ _ h)

theorem Form.onOut_execCbput {f : SI} (h : k.Holds s) : k.onOut (execCbput f s) := by
  refine Form.onOut_issue (fun u hu => ?_) h
  grind [! => Form.holds_illegal, ! => Form.holds_cbputPublish, ! => Form.holds_cbputFill]

end Sys2Proof.Machine

/-! Messages, handlers, barriers, helpers, hops and the invalidations keep the form
  (02 R22 to R39; 06 R118, R139, R140; 07 R157, R158;
08 R167 to R181; 13 R297, R301). -/
namespace Sys2Proof.Machine
open Sys2Proof Sys2Proof.Claims

variable {k : Form} {s t : State}

theorem Form.holds_toInbox {p : Sender} {c : CoreId} {m : Message} (h : k.Holds s) (e : s.toInbox p c m = some t) :
    k.Holds t := by
  unfold State.toInbox at e
  grind [! => Form.holds_reply, ! => Form.holds_fillSlot]

theorem Form.holds_toHandler {d : DieId} {p : Sender} {m : Message} (h : k.Holds s) (e : s.toHandler d p m = some t) :
    k.Holds t := by
  unfold State.toHandler at e
  grind [! => Form.holds_reply, Form.holds_modDie, Form.holds_modCore, Form.holds_eq]

theorem Form.holds_toAgent {v : DieId} {n : Fin 8} {p : Sender} {m : Message} (h : k.Holds s) (e : s.toAgent v n p m = some t) :
    k.Holds t := by
  unfold State.toAgent at e
  dsimp only at e
  split at e
  · cases e
  · have h1 := Form.holds_modL2 (d := v) (f := Die.discardClean) Form.onDie_discardClean h
    cases e
    split
    · exact Form.holds_schedule _ (Form.holds_modAgent _ _ _ h1)
    · exact Form.holds_modAgent _ _ _ h1

theorem Form.holds_deliverTo {d : DieId} {p : Sender} {kind w : Nat} {m : Message} (h : k.Holds s)
    (e : s.deliverTo d p kind w m = some t) : k.Holds t := by
  unfold State.deliverTo at e
  grind [! => Form.holds_toInbox, ! => Form.holds_toHandler, ! => Form.holds_toAgent]

theorem Form.holds_send {p : Sender} {dest : Word} {m : Message} (h : k.Holds s) (e : s.send p dest m = some t) : k.Holds t := by
  unfold State.send at e
  grind [! => Form.holds_deliverTo, ! => Form.holds_sendFrame]

theorem Form.holds_chargeSend (scope : Word) (h : k.Holds s) : k.Holds (s.chargeSend scope) := by
  unfold State.chargeSend
  grind [! => Form.holds_charge]

theorem Form.holds_sendReleased {dest : Word} {m : Message} (h : k.Holds s) (e : s.sendReleased dest m = some t) : k.Holds t := by
  unfold State.sendReleased at e
  dsimp only at e
  split at e
  · cases e
  · obtain ⟨u, hu, rfl⟩ := Option.map_eq_some_iff.mp e
    exact Form.holds_chargeSend _ (Form.holds_send (Form.holds_releaseSteps _ _ h) hu)

theorem Form.holds_sendOrWait {dest : Word} {m : Message} (h : k.Holds s) : k.Holds (s.sendOrWait dest m).state := by
  unfold State.sendOrWait
  grind [! => Form.holds_sendReleased, ! => Form.holds_modCtx, Form.holds_eq]

theorem Form.holds_msgEffect {i : Instr} {dest at_ : Word} (h : k.Holds s) : k.Holds (s.msgEffect i dest at_).state := by
  unfold State.msgEffect
  grind [! => Form.holds_illegal, ! => Form.holds_sendOrWait]

theorem Form.onOut_execMsg {f : SR} (h : k.Holds s) : k.onOut (execMsg f s) := by
  refine Form.onOut_issue (fun u hu => ?_) h
  grind [! => Form.holds_sendOrWait, ! => Form.holds_msgEffect]

theorem Form.onOut_execMessageAccept {core : CoreId} {ctx : CtxId} (h : k.Holds s) : k.onOut (execMessageAccept core ctx s) := by
  unfold execMessageAccept
  dsimp only [Form.onOut]
  split
  · split
    · rename_i e
      exact Form.holds_modCtx _ (Form.holds_sendReleased (s := { s with cur := (core, ctx) }) h e)
    · exact h
  · exact h

theorem Form.onOut_execInboxMessage {d : Delivery} (h : k.Holds s) : k.onOut (execInboxMessage d s) := by
  unfold execInboxMessage
  grind [! => Form.holds_toInbox, ! => Form.holds_deferTurn, Form.onOut]

theorem Form.onOut_execHandlerMessage {m : Message} {sender : Sender} (h : k.Holds s) :
    k.onOut (execHandlerMessage m sender s) := by
  unfold execHandlerMessage
  grind [! => Form.holds_toHandler, ! => Form.holds_deferTurn, Form.onOut]

theorem Form.onOut_execReply {f : SR} (h : k.Holds s) : k.onOut (execReply f s) := by
  refine Form.onOut_issue (fun u hu => ?_) h
  grind [! => Form.holds_reply, ! => Form.holds_illegal, Form.holds_modCore, Form.holds_eq]

theorem Form.holds_eventInImage (c : CoreId) (x : CtxId) (domain : BitVec 16) (h : k.Holds s) :
    k.Holds (s.eventInImage c x domain) := by
  refine Form.holds_foldl (fun img _ u hu => ?_) h
  dsimp only
  split
  · exact hu
  · exact Form.holds_physWrite _ _ _ hu

theorem Form.holds_postEvent (c : CoreId) (x : CtxId) (h : k.Holds s) : k.Holds (s.postEvent c x) := by
  unfold State.postEvent
  grind [! => Form.holds_modCtxAt, ! => Form.holds_eventInImage, Form.holds_eq]

theorem Form.onOut_execNotify {f : SR} (h : k.Holds s) : k.onOut (execNotify f s) := by
  refine Form.onOut_issue (fun u hu => ?_) h
  grind [! => Form.holds_illegal, ! => Form.holds_releaseSteps, ! => Form.holds_postEvent, ! => Form.holds_charge]

theorem Form.holds_releaseHeld (d : DieId) (h : k.Holds s) : k.Holds (s.releaseHeld d) := by
  refine Form.holds_foldl (fun m _ u hu => ?_) h
  split
  · split
    · exact Form.holds_modDie (fun _ => ⟨rfl, rfl⟩) (Form.holds_modCore (fun _ => rfl) hu)
    · exact hu
  · exact hu

theorem Form.holds_dropCode (d : DieId) (h : k.Holds s) : k.Holds (s.dropCode d) :=
  Form.holds_foldl (fun _ _ _ hu => Form.holds_modCore (fun _ => rfl) hu) h

theorem Form.onOut_execHbind {f : SR} (h : k.Holds s) : k.onOut (execHbind f s) := by
  refine Form.onOut_issue (fun u hu => ?_) h
  dsimp only
  split
  · exact hu
  · split
    · exact hu
    · split
      · exact hu
      · exact Form.holds_releaseHeld _ (Form.holds_modDie (fun _ => ⟨rfl, rfl⟩) (Form.holds_dropCode _ hu))

theorem Form.holds_stdUpdate {va n : Nat} {op : Nat → Nat} {v : Nat} (h : k.Holds s)
    (e : s.stdUpdate va n op = .ok (v, t)) : k.Holds t := by
  unfold State.stdUpdate at e
  grind [! => Form.holds_load, ! => Form.holds_store]

/-- The state that a standard handler leaves, when it leaves one of its own. -/
def StdResult.Keeps (k : Form) : StdResult → Prop
  | .done u _ => k.Holds u
  | .trapped u _ _ => k.Holds u
  | _ => True

theorem Form.keeps_stdLoop {size : Nat} {op : Nat → Nat → Nat} {left va src : Nat} (h : k.Holds s) :
    (s.stdLoop size op left va src).Keeps k := by
  induction left generalizing s va src with
  | zero => exact h
  | succ n ih =>
    unfold State.stdLoop
    split
    · exact h
    · exact h
    · rename_i s1 e
      have h1 : k.Holds s1 := by
        split at e
        · exact Form.holds_load h e
        · cases e
      split
      · exact h1
      · exact h1
      · rename_i e2
        exact ih (Form.holds_stdUpdate h1 e2)

theorem Form.keeps_stdWord {size va : Nat} {op : Nat → Nat} (h : k.Holds s) : (s.stdWord size va op).Keeps k := by
  unfold State.stdWord
  split
  · rename_i e
    exact Form.holds_stdUpdate h e
  · exact h
  · exact h

theorem Form.keeps_stdHandler {n : Nat} {m : Message} (h : k.Holds s) : (s.stdHandler n m).Keeps k := by
  unfold State.stdHandler
  grind [StdResult.Keeps, Form.keeps_stdWord, Form.keeps_stdLoop]

theorem Form.holds_runStd (c : CoreId) (d : Delivery) (n : Nat) (h : k.Holds s) : k.Holds (s.runStd c d n) := by
  unfold State.runStd
  have ht := Form.holds_acquireSteps c packageScope (Form.holds_startAt c handlerCtx (Ctx.start 0 0 0 0 d.sender.domain 0 0)
    (s := { s with cur := (c, handlerCtx) }) h)
  have hr := Form.keeps_stdHandler (n := n) (m := d.msg) ht
  dsimp only
  refine Form.holds_endInvocation _ ?_
  split
  · rename_i e
    rw [e] at hr
    exact Form.holds_reply _ _ _ _ _ hr
  · rename_i e
    rw [e] at hr
    refine Form.holds_report _ (Form.holds_reply _ _ _ _ _ ?_)
    split
    · exact Form.holds_noteBad _ _ _ hr
    · exact hr
  · exact Form.holds_reply _ _ _ _ _ ht
  · exact Form.holds_reply _ _ _ _ _ ht

theorem Form.onOut_execHandlerInvocation {core : CoreId} (h : k.Holds s) : k.onOut (execHandlerInvocation core s) := by
  unfold execHandlerInvocation
  dsimp only [Form.onOut]
  split
  · rename_i d _ _
    have ht := Form.holds_modCore (c := core) (f := fun x => { x with hqueue := x.hqueue.erase d }) (fun _ => rfl) h
    refine Form.holds_releaseHeld _ ?_
    split
    · exact Form.holds_reply _ _ _ _ _ ht
    · split
      · exact Form.holds_runStd _ _ _ ht
      · exact Form.holds_acquireSteps _ _ (Form.holds_startAt _ _ _ (Form.holds_modCore (fun _ => rfl) ht))
  · exact h

theorem Form.holds_modGroup (arrival gi : Nat) (f : Group → Group) (h : k.Holds s) : k.Holds (s.modGroup arrival gi f) :=
  Form.holds_modLaunch _ _ h

theorem Form.holds_flipBarrier (dies : List DieId) (launch : Nat) (path : List Nat) (n : Nat) (h : k.Holds s) :
    k.Holds (s.flipBarrier dies launch path n) :=
  Form.holds_foldl (fun _ _ _ hu => Form.holds_modDie (fun _ => ⟨rfl, rfl⟩) hu) h

theorem Form.holds_putBarrier {d : DieId} (b : Die → BarObj) (h : k.Holds s) :
    k.Holds (s.modDie d (fun x => x.putBarrier (b x))) :=
  Form.holds_modDie (fun _ => ⟨rfl, rfl⟩) h

theorem Form.holds_countArrival (d : DieId) (launch : Nat) (path : List Nat) (n : Nat) (wide : Bool) (h : k.Holds s) :
    k.Holds (s.countArrival d launch path n wide) := by
  unfold State.countArrival
  dsimp only
  split
  · exact Form.holds_putBarrier _ h
  · split
    · exact Form.holds_flipBarrier _ _ _ _ (Form.holds_putBarrier _ h)
    · exact Form.holds_schedule _ (Form.holds_putBarrier _ h)

theorem Form.holds_reportBarrier (d : DieId) (b : BarObj) (h : k.Holds s) : k.Holds (s.reportBarrier d b) := by
  unfold State.reportBarrier
  extract_lets dies master s0 m reported wide s1
  have h1 : k.Holds s1 := Form.holds_putBarrier _ (Form.holds_putBarrier _ h)
  split
  · refine Form.holds_flipBarrier _ _ _ _ ?_
    split
    · exact Form.holds_foldl (fun _ _ _ hu => Form.holds_writeBackAll _ hu) h1
    · exact h1
  · exact h1

theorem Form.onOut_execBarrierDieReport {die : DieId} {obj : Nat} (h : k.Holds s) : k.onOut (execBarrierDieReport die obj s) := by
  unfold execBarrierDieReport
  grind [! => Form.holds_reportBarrier, Form.onOut]

theorem Form.holds_misuse {reason n : Nat} (h : k.Holds s) : k.Holds (misuse s reason n).state :=
  h

theorem Form.onOut_execBara {f : SI} (h : k.Holds s) : k.onOut (execBara f s) := by
  refine Form.onOut_issue (fun u hu => ?_) h
  dsimp only
  split
  · exact hu
  · split
    · exact hu
    · split
      · exact hu
      · split
        · exact hu
        · split
          · exact hu
          · exact Form.holds_countArrival _ _ _ _ _ (Form.holds_modCtx _ (Form.holds_releaseSteps _ _
            (Form.holds_drainVector hu)))

theorem Form.onOut_execBarw {f : SI} (h : k.Holds s) : k.onOut (execBarw f s) := by
  refine Form.onOut_issue (fun u hu => ?_) h
  grind [! => Form.holds_illegal, ! => Form.holds_misuse, ! => Form.holds_modCtx, ! => Form.holds_acquireSteps, Form.holds_eq]

theorem Form.onOut_execSetvlc {f : SQ} (h : k.Holds s) : k.onOut (execSetvlc f s) := by
  refine Form.onOut_issue (fun u hu => ?_) h
  have hgrant : ∀ {v n w}, k.Holds v → k.Holds ((v.drainVector.grantVl n).wi f.dst w) := fun hv =>
    Form.holds_wi _ _ (Form.holds_grantVl _ (Form.holds_drainVector hv))
  dsimp only
  split
  · exact hgrant hu
  · refine Form.holds_orTrap (fun a _ => Form.holds_pathC (fun b vu e => ?_) hu) hu
    have hv := fun scope => Form.holds_acquireSteps vu.2.runCore scope (Form.holds_load hu e)
    split
    · dsimp only [Effect.state]
      exact hv _
    · exact hgrant (hv _)

theorem Form.onOut_execHstart {f : SQ} (h : k.Holds s) : k.onOut (execHstart f s) := by
  refine Form.onOut_issue (fun u hu => ?_) h
  grind [! => Form.holds_illegal, ! => Form.holds_startAt, ! => Form.holds_wi]

theorem Form.holds_joinAcquire (hs : List CtxId) (h : k.Holds s) : k.Holds (s.joinAcquire hs) :=
  Form.holds_acquireSteps _ _ h

theorem Form.onOut_execHjoin {f : SR} (h : k.Holds s) : k.onOut (execHjoin f s) := by
  refine Form.onOut_issue (fun u hu => ?_) h
  grind [! => Form.holds_illegal, ! => Form.holds_joinAcquire]

theorem Form.onOut_execHkill {f : SR} (h : k.Holds s) : k.onOut (execHkill f s) := by
  refine Form.onOut_issue (fun u hu => ?_) h
  grind [! => Form.holds_illegal, ! => Form.holds_modCtxAt, ! => Form.holds_endContext, Form.holds_eq]

theorem Form.holds_endHandler (h : k.Holds s) : k.Holds s.endHandler := by
  unfold State.endHandler
  grind [! => Form.holds_reply, ! => Form.holds_endInvocation]

theorem Form.onOut_execHop {f : SR} (h : k.Holds s) : k.onOut (execHop f s) := by
  refine Form.onOut_issue (fun u hu => ?_) h
  have hstay : k.Holds (u.drainVector.releaseSteps u.runCore packageScope) := Form.holds_releaseSteps _ _
    (Form.holds_drainVector hu)
  dsimp only
  split
  · exact hu
  · split
    · exact hstay
    · split
      · exact Form.holds_depart _ _ hu
      · exact hstay

theorem Form.onOut_execHopArrival {core : CoreId} {ctx : CtxId} (h : k.Holds s) : k.onOut (execHopArrival core ctx s) := by
  unfold execHopArrival
  grind [! => Form.holds_modCtxAt, ! => Form.holds_acquireSteps, Form.onOut]

theorem Form.onOut_execPlbinv {f : SR} (h : k.Holds s) : k.onOut (execPlbinv f s) := by
  refine Form.onOut_issue (fun u hu => ?_) h
  have hdrop : ∀ keep : PlbEntry → Bool, k.Holds (u.modCore u.runCore (fun x => { x with plb := x.plb.filter keep })) := fun _ =>
    Form.holds_modCore (fun _ => rfl) hu
  dsimp only
  split
  · exact hdrop _
  · split
    · exact hu
    · exact hdrop _

theorem Form.holds_performAll (h : k.Holds s) : k.Holds s.performAll := Form.holds_writeBackAll _ (Form.holds_drainVector h)

theorem Form.holds_dropGrains (hit : L2Line → Bool) (h : k.Holds s) : k.Holds (s.dropGrains hit) :=
  Form.holds_foldl (fun d _ _ hu => Form.holds_modL2 (Form.onDie_filter _) (Form.holds_foldl (fun ln hln _ hv =>
    Form.holds_writeBack d ((hu.2.2 d).1 ln (List.mem_of_mem_filter hln)) hv) (Form.holds_drainFlue d hu))) h

theorem Form.onDie_filterTlb {x : Die} (p : TlbEntry → Bool) (h : k.onDie x) : k.onDie { x with tlb := x.tlb.filter p } :=
  ⟨h.1, fun e he => h.2 e (List.mem_of_mem_filter he)⟩

theorem Form.holds_dropLeaves (hit : Leaf → Bool) (writeHot : Bool) (h : k.Holds s) : k.Holds (s.dropLeaves hit writeHot) := by
  refine Form.holds_forgetRewritten (Form.holds_foldl (fun d _ u hu => Form.holds_modL2 (Form.onDie_filterTlb _) ?_) h)
  split
  · exact Form.holds_foldl (fun e _ _ hv => Form.holds_giveUpLeaf _ _ hv) hu
  · exact hu

/-- A change of every core. -/
theorem Form.holds_mapCores {f : Core → Core} (hf : ∀ x, k.onCore x → k.onCore (f x)) (h : k.Holds s) :
    k.Holds { s with cores := vmap s.cores f } :=
  ⟨h.1, fun c => (getElem_vmap_fin s.cores f c).symm ▸ hf _ (h.2.1 c), h.2.2⟩

theorem Form.holds_dropL1Range (lo hi : Nat) (h : k.Holds s) : k.Holds (s.dropL1Range lo hi) :=
  Form.holds_mapCores (fun _ hx ln hln => hx ln (List.mem_of_mem_filter hln)) h

theorem Form.holds_grantHeld (lo hi : Nat) (h : k.Holds s) : k.Holds (s.grantHeld lo hi) := by
  unfold State.grantHeld
  split
  · exact h
  · exact h

theorem Form.holds_invalidate (lo hi : Nat) (h : k.Holds s) : k.Holds (s.invalidate lo hi) :=
  Form.holds_grantHeld _ _ (Form.holds_dropLeaves _ _ (Form.holds_dropL1Range _ _ (Form.holds_dropGrains _ h)))

theorem Form.onOut_execPinv {f : SR} (h : k.Holds s) : k.onOut (execPinv f s) := by
  refine Form.onOut_issue (fun u hu => ?_) h
  dsimp only
  split
  · exact hu
  · split
    · exact hu
    · split
      · exact Form.holds_invalidate 0 (2 ^ 52) (Form.holds_performAll hu)
      · exact Form.holds_invalidate _ _ (Form.holds_performAll hu)

theorem Form.onCore_of_l1 {x y : Core} (e : y.l1 = x.l1) (h : k.onCore x) : k.onCore y := by
  unfold Form.onCore
  rwa [e]

theorem Form.holds_moveRegions (hit : Leaf → Bool) (h : k.Holds s) : k.Holds (s.moveRegions hit) := by
  unfold State.moveRegions
  dsimp only
  exact Form.holds_mapCores (s := s) (fun _ hx => Form.onCore_of_l1 rfl hx) h

theorem Form.holds_setOwners (v : Vector DieId 8) (h : k.Holds s) : k.Holds { s with owners := v } := h

theorem Form.holds_handOver (i : Nat) (h : k.Holds s) : k.Holds (s.handOver i) := by
  unfold State.handOver
  extract_lets s1 s2 s3 old new moved s4 s5
  have h1 : k.Holds s1 := Form.holds_foldl (fun d _ _ hu => Form.holds_drainFlue d hu) h
  have h3 : k.Holds s3 := Form.holds_dropLeaves _ _ (Form.holds_dropGrains _ h1)
  have h5 : k.Holds s5 := Form.holds_modDie (fun _ => ⟨rfl, rfl⟩) (Form.holds_modDie (fun _ => ⟨rfl, rfl⟩) h3)
  exact Form.holds_moveRegions _ (Form.holds_setOwners _ h5)

theorem Form.onOut_execHandoff {f : SR} (h : k.Holds s) : k.onOut (execHandoff f s) := by
  refine Form.onOut_issue (fun u hu => ?_) h
  dsimp only
  split
  · exact hu
  · split
    · exact hu
    · exact Form.holds_handOver _ (Form.holds_performAll hu)

theorem Form.onMem_filter {m : List Host.Cell} (p : Host.Cell → Bool) (h : k.onMem m) : k.onMem (m.filter p) := by
  cases k with
  | memories => exact memoryWf_filter p h
  | lines => trivial

theorem Form.onMem_foldl_writeByte {α : Type} (f : α → Nat) (g : α → Byte) (l : List α) {m : List Host.Cell} (h : k.onMem m) :
    k.onMem (l.foldl (fun u c => writeByte u (f c) (g c)) m) := by
  cases k with
  | memories => exact memoryWf_foldl_writeByte f g l h
  | lines => trivial

theorem Form.holds_copyFrame (src dst n : Nat) (h : k.Holds s) : k.Holds (s.copyFrame src dst n) :=
  Form.holds_setMem (s := s) (Form.onMem_foldl_writeByte (fun c : Host.Cell => c.1) (fun c => c.2) _
    (Form.onMem_filter _ h.1.1)) h

theorem Form.holds_settleMarkers (d : DieId) (lo hi : Nat) (h : k.Holds s) : k.Holds (s.settleMarkers d lo hi) :=
  Form.holds_modDie (fun _ => ⟨rfl, rfl⟩) (Form.holds_foldl (fun m _ _ hu => Form.holds_writeBackAll m.die hu) h)

theorem Form.holds_migrate {l : Leaf} {dst : Nat} (h : k.Holds s) (e : s.migrate l dst = .ok t) : k.Holds t := by
  unfold State.migrate at e
  extract_lets s1 s2 at e
  have h2 : k.Holds s2 := by
    refine Form.holds_dropGrains _ ?_
    simp only [s1]
    split
    · exact Form.holds_settleMarkers _ _ _ h
    · exact h
  split at e
  · cases e
  · cases e
    refine Form.holds_dropLeaves _ _ (Form.holds_physWrite _ _ _ (Form.holds_physWrite _ _ _ (Form.holds_copyFrame _ _ _
      (Form.holds_correctRuns _ ?_))))
    split
    · exact h2
    · exact Form.holds_moveRegions _ h2

theorem Form.onOut_execPmig {f : SR} (h : k.Holds s) : k.onOut (execPmig f s) := by
  refine Form.onOut_issue (fun u hu => ?_) h
  dsimp only
  split
  · exact hu
  · split
    · exact Form.holds_accessTrap _ _ hu
    · split
      · exact hu
      · split
        · exact hu
        · split
          · rename_i e
            exact Form.holds_migrate hu e
          · exact Form.holds_accessTrap _ _ hu

end Sys2Proof.Machine

/-! Vectors, vector memory and masks keep the form (03 R57, R60; 18 R430 to R453; 16 R376 to R385). -/
namespace Sys2Proof.Machine
open Sys2Proof Sys2Proof.Claims

variable {k : Form} {s t : State}

theorem Form.onOut_vectorTyped {i : Instr} {ctl : VCtl} {ty : BitVec 5} {scalars : List (BitVec 6)} {ok : Nat → Bool}
    {typed : List (BitVec 6)}
    {body : State → Nat → Nat → Effect} (hb : ∀ u a l, k.Holds u → k.Holds (body u a l).state) (h : k.Holds s) :
    k.onOut (s.vectorTyped i ctl ty scalars ok typed body) := by
  refine Form.onOut_issueVector (fun u hu => ?_) h
  split
  · exact hu
  · exact hb _ _ _ hu

theorem Form.onOut_vectorOp {i : Instr} {ctl : VCtl} {scalars : List (BitVec 6)} {ok : Nat → Bool} {typed : List (BitVec 6)}
    {body : State → Nat → Nat → Effect} (hb : ∀ u a l, k.Holds u → k.Holds (body u a l).state) (h : k.Holds s) :
    k.onOut (s.vectorOp i ctl scalars ok typed body) := by
  refine Form.onOut_issueVector (fun u hu => ?_) h
  split
  · exact hu
  · split
    · exact hu
    · split
      · exact hb _ _ _ hu
      · exact hu

theorem Form.holds_vrounded {i : Instr} {rounds : Bool} {rm : BitVec 3} {go : Nat → Effect} (hgo : ∀ mode,
    k.Holds (go mode).state)
    (h : k.Holds s) : k.Holds (s.vrounded i rounds rm go).state := by
  unfold State.vrounded
  split
  · exact Form.holds_rounded hgo h
  · exact hgo 0

theorem Form.holds_queueVector (ctl : VCtl) (w : Nat) (srcs : List (BitVec 6)) (vd : BitVec 6) (acc : Bool)
    (latency : Option Nat) (h : k.Holds s) : k.Holds (s.queueVector ctl w srcs vd acc latency) :=
  Form.holds_enqueueVector _ _ _ _ h

theorem Form.holds_queueMask (ctl : VCtl) (w : Nat) (srcs : List (BitVec 6)) (kd : BitVec 4) (latency : Option Nat) (h :
    k.Holds s) : k.Holds (s.queueMask ctl w srcs kd latency) :=
  Form.holds_enqueueVector _ _ _ _ h

theorem Form.holds_writeElems (ctl : VCtl) (vd : BitVec 6) (tag : BitVec 8) (w lo hi n : Nat) (act : Nat → Bool)
    (res : Nat → FRes) (h : k.Holds s) : k.Holds (s.writeElems ctl vd tag w lo hi n act res) :=
  Form.holds_orFlags _ (Form.holds_modCtx _ h)

theorem Form.holds_writeTag (vd : BitVec 6) (tag : BitVec 8) (h : k.Holds s) : k.Holds (s.writeTag vd tag) :=
  Form.holds_modCtx _ h

theorem Form.holds_writeBody (ctl : VCtl) (vd : BitVec 6) (tag : BitVec 8) (w wide : Nat) (act : Nat → Bool) (res : Nat → FRes)
    (h : k.Holds s) : k.Holds (s.writeBody ctl vd tag w wide act res) := by
  unfold State.writeBody
  grind [! => Form.holds_writeTag, ! => Form.holds_writeElems]

theorem Form.holds_writeMaskBits (ctl : VCtl) (kd : BitVec 4) (lo hi n : Nat) (act : Nat → Bool) (res : Nat → FRes) (h :
    k.Holds s) : k.Holds (s.writeMaskBits ctl kd lo hi n act res) :=
  Form.holds_orFlags _ (Form.holds_modCtx _ h)

theorem Form.holds_clearVstart (h : k.Holds s) : k.Holds s.clearVstart :=
  Form.holds_modCtx _ h

theorem Form.holds_writeMaskBody (ctl : VCtl) (kd : BitVec 4) (n : Nat) (res : Nat → FRes) (h : k.Holds s) :
    k.Holds (s.writeMaskBody ctl kd n res) := by
  unfold State.writeMaskBody
  grind [Form.holds_clearVstart, ! => Form.holds_writeMaskBits]

theorem Form.onOut_elementsV {i : Instr} {f : FV} {both : Bool} {g : Elementwise} (h : k.Holds s) :
    k.onOut (s.elementsV i f both g) :=
  Form.onOut_vectorOp (fun _ _ _ hu => Form.holds_vrounded (fun _ => Form.holds_writeBody _ _ _ _ _ _ _
    (Form.holds_queueVector _ _ _ _ _ _ hu)) hu) h

theorem Form.onOut_elementsV1 {i : Instr} {f : FV} {g : Elementwise} (h : k.Holds s) : k.onOut (s.elementsV1 i f g) :=
  Form.onOut_vectorOp (fun _ _ _ hu => Form.holds_vrounded (fun _ => Form.holds_writeBody _ _ _ _ _ _ _
    (Form.holds_queueVector _ _ _ _ _ _ hu)) hu) h

theorem Form.onOut_elementsS {i : Instr} {f : VS} {g : Elementwise} (h : k.Holds s) : k.onOut (s.elementsS i f g) :=
  Form.onOut_vectorOp (fun _ _ _ hu => Form.holds_vrounded (fun _ => Form.holds_writeBody _ _ _ _ _ _ _
    (Form.holds_queueVector _ _ _ _ _ _ hu)) hu) h

theorem Form.onOut_execVperm {f : FV} (h : k.Holds s) : k.onOut (execVperm f s) := by
  refine Form.onOut_vectorOp (fun u ty l hu => ?_) h
  dsimp only
  split
  · exact hu
  · exact Form.holds_writeBody _ _ _ _ _ _ _ (Form.holds_queueVector _ _ _ _ _ _ hu)

theorem Form.onOut_execVcvt {f : FV} (h : k.Holds s) : k.onOut (execVcvt f s) := by
  refine Form.onOut_issueVector (fun u hu => ?_) h
  dsimp only
  split
  · exact hu
  · split
    · exact hu
    · split
      · exact hu
      · exact Form.holds_vrounded (fun _ => Form.holds_writeBody _ _ _ _ _ _ _ (Form.holds_queueVector _ _ _ _ _ _ hu)) hu

theorem Form.onOut_execVdotb {f : FV} (h : k.Holds s) : k.onOut (execVdotb f s) := by
  refine Form.onOut_vectorOp (fun u ty l hu => ?_) h
  dsimp only
  split
  · exact hu
  · split
    · exact hu
    · have hq := Form.holds_queueVector f.ctl 32 [f.va, f.vb, f.vc] f.vd true (some 4) hu
      split
      · exact Form.holds_writeTag _ _ hq
      · exact Form.holds_writeElems _ _ _ _ _ _ _ _ _ hq

theorem Form.holds_walkLoads {w : Nat} {act : Nat → Bool} {one : State → Nat → Except Stop (Nat × State)}
    (hone : ∀ u n v u', k.Holds u → one u n = .ok (v, u') → k.Holds u') (n e : Nat) {r : Walked} (h : k.Holds r.s) :
    k.Holds (walkLoads w act one n e r).s := by
  induction n generalizing e r with
  | zero => exact h
  | succ n ih =>
    unfold walkLoads
    split
    · split
      · rename_i hv
        exact ih _ (hone _ _ _ _ h hv)
      · exact h
    · exact ih _ h

theorem Form.holds_walkStores {act : Nat → Bool} {one : State → Nat → Except Stop State}
    (hone : ∀ u n u', k.Holds u → one u n = .ok u' → k.Holds u') (n e : Nat) (h : k.Holds s) :
    k.Holds (walkStores act one n e s).s := by
  induction n generalizing e s with
  | zero => exact h
  | succ n ih =>
    unfold walkStores
    split
    · split
      · rename_i hv
        exact ih _ (hone _ _ _ h hv)
      · exact h
    · exact ih _ h

theorem Form.holds_loadElement {shape : Shape} {f : VM} {w n v : Nat} (h : k.Holds s)
    (e : s.loadElement shape f w n = .ok (v, t)) :
    k.Holds t := by
  unfold State.loadElement at e
  split at e
  · cases e
  · split at e
    · cases e
    · rename_i hl
      cases e
      exact Form.holds_load h hl

theorem Form.holds_sharedByte {va : Nat} {v : Nat} (h : k.Holds s) (e : s.sharedByte va = .ok (v, t)) : k.Holds t := by
  unfold State.sharedByte at e
  grind [! => Form.holds_l2Read]

theorem Form.holds_storeElement {shape : Shape} {f : VM} {w v n : Nat} (h : k.Holds s)
    (e : s.storeElement shape f w v n = .ok t) :
    k.Holds t := by
  unfold State.storeElement at e
  split at e
  · cases e
  · split at e
    · split at e
      · cases e
      · split at e
        · cases e
        · rename_i hb
          exact Form.holds_store (Form.holds_sharedByte h hb) e
    · exact Form.holds_store h e

theorem Form.holds_noteStop (c : BitVec 8) (v : Word) (h : k.Holds s) : k.Holds (s.noteStop c v) := by
  unfold State.noteStop
  grind [! => Form.holds_noteBad]

theorem Form.holds_accessFormat {i : Instr} {shape : Shape} {f : VM} {vs : Option (BitVec 8)} {x : Effect} (h : k.Holds s)
    (e : s.accessFormat i shape f vs = some x) : k.Holds x.state := by
  unfold State.accessFormat at e
  grind [illegal]

theorem Form.holds_vectorAccess {i : Instr} {shape : Shape} {f : VM} {vs : Option (BitVec 8)}
    {types : Word → BitVec 5 → Except Word (Nat × Nat)} {body : State → Nat → Nat → Effect}
    (hb : ∀ a l, k.Holds (body s a l).state) (h : k.Holds s) : k.Holds (s.vectorAccess i shape f vs types body).state := by
  unfold State.vectorAccess
  dsimp only
  split
  · rename_i e
    exact Form.holds_accessFormat h e
  · split
    · exact h
    · split
      · exact h
      · split
        · exact h
        · split
          · exact h
          · exact hb _ _

theorem Form.holds_writeLoaded (ctl : VCtl) (vd : BitVec 6) (tag : BitVec 8) (w vals stop : Nat) (h : k.Holds s) :
    k.Holds (s.writeLoaded ctl vd tag w vals stop) := by
  unfold State.writeLoaded
  grind [! => Form.holds_writeTag, ! => Form.holds_writeElems]

theorem Form.onOut_vectorLoad {i : Instr} {shape : Shape} {trims : Bool} {f : VM} (h : k.Holds s) :
    k.onOut (s.vectorLoad i shape trims f) := by
  refine Form.onOut_issueVector (fun u hu => Form.holds_vectorAccess (fun ty l => ?_) hu) h
  dsimp only
  split
  · exact hu
  · have hq := Form.holds_queueVector f.ctl (WellFormed.width ty) (vmIndex shape f) f.vd false none
      (Form.holds_walkLoads (w := WellFormed.width ty) (act := u.ctx.selects f.ctl)
        (one := fun u e => u.loadElement shape f (WellFormed.width ty) e) (fun _ _ _ _ hu e => Form.holds_loadElement hu e)
        (u.ctx.vl - u.ctx.vstart) u.ctx.vstart (r := ⟨u, 0, none⟩) hu)
    split
    · exact Form.holds_writeLoaded _ _ _ _ _ _ hq
    · split
      · exact Form.holds_modCtx _ (Form.holds_writeLoaded _ _ _ _ _ _ (Form.holds_noteStop _ _ hq))
      · exact Form.holds_writeLoaded _ _ _ _ _ _ (Form.holds_noteStop _ _ hq)

theorem Form.onOut_vectorStore {i : Instr} {shape : Shape} {f : VM} (h : k.Holds s) : k.onOut (s.vectorStore i shape f) := by
  refine Form.onOut_issueVector (fun u hu => Form.holds_vectorAccess (fun ty l => ?_) hu) h
  dsimp only
  have hr := Form.holds_walkStores (act := u.ctx.selects f.ctl)
    (one := fun s e => s.storeElement shape f (WellFormed.width ty) (elem (u.ctx.vreg f.vd).toNat (WellFormed.width ty) e) e)
    (fun _ _ _ hu e => Form.holds_storeElement hu e) (u.ctx.vl - u.ctx.vstart) u.ctx.vstart hu
  have hq := Form.holds_enqueueVector 1 none ((f.vd :: vmIndex shape f).map (·.toNat) ++ maskReads f.ctl) [] hr
  split
  · exact Form.holds_clearVstart hq
  · exact Form.holds_noteStop _ _ hq

theorem Form.holds_maskAccess {i : Instr} {f : VM} {body : State → Effect} (hb : k.Holds (body s).state) (h : k.Holds s) :
    k.Holds (s.maskAccess i f body).state := by
  unfold State.maskAccess
  split
  · exact h
  · split
    · exact h
    · exact hb

theorem Form.onOut_execKld {f : VM} (h : k.Holds s) : k.onOut (execKld f s) := by
  refine Form.onOut_issueVector (fun u hu => Form.holds_maskAccess ?_ hu) h
  dsimp only
  generalize hw : walkLoads 8 _ _ _ _ _ = r
  have hr : k.Holds r.s := by
    rw [← hw]
    refine Form.holds_walkLoads (fun u j v t hu e => ?_) _ _ hu
    split at e
    · cases e
    · exact Form.holds_load hu e
  have hq := Form.holds_enqueueVector 1 none [maskKey (maskOf f.vd)] [maskKey (maskOf f.vd)] hr
  split
  · split
    · exact Form.holds_clearVstart hq
    · exact Form.holds_writeMaskBits _ _ _ _ _ _ _ hq
  · exact Form.holds_noteStop _ _ (Form.holds_writeMaskBits _ _ _ _ _ _ _ hq)

theorem Form.onOut_execKst {f : VM} (h : k.Holds s) : k.onOut (execKst f s) := by
  refine Form.onOut_issueVector (fun u hu => Form.holds_maskAccess ?_ hu) h
  dsimp only
  generalize hw : walkStores _ _ _ _ _ = r
  have hr : k.Holds r.s := by
    rw [← hw]
    refine Form.holds_walkStores (fun u j t hu e => ?_) _ _ hu
    split at e
    · cases e
    · exact Form.holds_store hu e
  have hq := Form.holds_enqueueVector 1 none [maskKey (maskOf f.vd)] [] hr
  split
  · exact Form.holds_clearVstart hq
  · exact Form.holds_noteStop _ _ hq

theorem Form.holds_awaitMasks (ks : List (BitVec 4)) (h : k.Holds s) : k.Holds (s.awaitMasks ks) := by
  unfold State.awaitMasks
  grind [Form.holds_drainVector]

theorem Form.onOut_maskOp {i : Instr} {f : FK} {dst : Option (BitVec 6)} {body : State → Effect} (hb : k.Body body) (h :
    k.Holds s) :
    k.onOut (s.maskOp i f dst body) :=
  Form.onOut_issue (fun _ hu => hb _ (Form.holds_awaitMasks _ hu)) h

theorem Form.onOut_execKpop {f : FK} (h : k.Holds s) : k.onOut (execKpop f s) := by
  refine Form.onOut_maskOp (fun u hu => ?_) h
  dsimp only
  split
  · exact hu
  · exact Form.holds_modCtx _ hu

theorem Form.onOut_execKelse {f : FK} (h : k.Holds s) : k.onOut (execKelse f s) := by
  refine Form.onOut_maskOp (fun u hu => ?_) h
  split
  · exact hu
  · exact Form.holds_modCtx _ hu

theorem Form.onOut_execVslide {f : VS} (h : k.Holds s) : k.onOut (execVslide f s) := by
  refine Form.onOut_vectorOp (fun u ty l hu => ?_) h
  dsimp only
  split
  · exact hu
  · exact Form.holds_writeBody _ _ _ _ _ _ _ (Form.holds_queueVector _ _ _ _ _ _ hu)

theorem Form.onOut_execVins {f : VS} (h : k.Holds s) : k.onOut (execVins f s) := by
  refine Form.onOut_vectorTyped (fun u ty l hu => ?_) h
  dsimp only
  split
  · exact hu
  · exact Form.holds_modCtx _ (Form.holds_enqueueVector _ _ _ _ hu)

theorem Form.onOut_execVred {f : FV} (h : k.Holds s) : k.onOut (execVred f s) := by
  refine Form.onOut_vectorOp (fun u ty l hu => ?_) h
  dsimp only
  split
  · exact hu
  · refine Form.holds_vrounded (fun mode => ?_) hu
    have hq := Form.holds_queueVector f.ctl (WellFormed.width ty) [f.va] f.vd false none hu
    split
    · exact Form.holds_writeTag _ _ hq
    · exact Form.holds_writeElems _ _ _ _ _ _ _ _ _ hq

theorem Form.onOut_execKmov {f : FK} (h : k.Holds s) : k.onOut (execKmov f s) := by
  refine Form.onOut_maskOp (fun u hu => ?_) h
  split
  · exact hu
  · exact Form.holds_modCtx _ hu

theorem Form.onOut_execKpush {f : FK} (h : k.Holds s) : k.onOut (execKpush f s) := by
  refine Form.onOut_maskOp (fun u hu => ?_) h
  dsimp only
  split
  · exact hu
  · exact Form.holds_modCtx _ hu

end Sys2Proof.Machine

/-! Runs of bytes, leases and matrix instructions keep the form (09 R194 to R220; 17 R393 to R406). -/
namespace Sys2Proof.Machine
open Sys2Proof Sys2Proof.Claims

variable {k : Form} {s t : State}

theorem Form.holds_unitRead {d : DieId} {domain : BitVec 16} {need va n v : Nat} (h : k.Holds s)
    (e : s.unitRead d domain need va n = .ok (v, t)) : k.Holds t := by
  unfold State.unitRead at e
  split at e
  · split at e
    · cases hr : s.l2Read d false false va n with
      | error x => rw [hr] at e; cases e
      | ok r =>
        rw [hr] at e
        obtain ⟨-, rfl⟩ := Prod.mk.inj (Except.ok.inj e)
        exact Form.holds_correctRuns _ (Form.holds_chargeRead _ _ _ (Form.holds_l2Read h hr))
    · cases e
  · cases e

theorem Form.holds_unitWrite {d : DieId} {domain : BitVec 16} {need : Nat} {writer : Option (CoreId × CtxId)} {va n v : Nat}
    (h : k.Holds s) (e : s.unitWrite d domain need writer va n v = .ok t) : k.Holds t := by
  unfold State.unitWrite at e
  grind [! => Form.holds_correctRuns, ! => Form.holds_l2Write]

theorem Form.holds_spanRead {one : State → Nat → Nat → Except Stop (Nat × State)}
    (hone : ∀ u va n v u', k.Holds u → one u va n = .ok (v, u') → k.Holds u') {fuel va n v : Nat} (h : k.Holds s)
    (e : spanRead one fuel s va n = .ok (v, t)) : k.Holds t := by
  induction fuel generalizing s t va n v with
  | zero => cases e; exact h
  | succ fuel ih =>
    unfold spanRead at e
    split at e
    · cases e; exact h
    · dsimp only at e
      split at e
      · cases e
      · rename_i hv
        split at e
        · cases e
        · rename_i hw
          cases e
          exact ih (hone _ _ _ _ _ h hv) hw

theorem Form.holds_spanWrite {one : State → Nat → Nat → Nat → Except Stop State}
    (hone : ∀ u va n v u', k.Holds u → one u va n v = .ok u' → k.Holds u') {fuel va n v : Nat} (h : k.Holds s)
    (e : spanWrite one fuel s va n v = .ok t) : k.Holds t := by
  induction fuel generalizing s t va n v with
  | zero => cases e; exact h
  | succ fuel ih =>
    unfold spanWrite at e
    split at e
    · cases e; exact h
    · dsimp only at e
      split at e
      · cases e
      · rename_i hv
        exact ih (hone _ _ _ _ _ h hv) e

theorem Form.holds_unitReadAt {d : DieId} {domain : BitVec 16} {need : Nat} {a : Int} {n v : Nat} (h : k.Holds s)
    (e : s.unitReadAt d domain need a n = .ok (v, t)) : k.Holds t := by
  unfold State.unitReadAt at e
  split at e
  · cases e; exact h
  · split at e
    · cases e
    · exact Form.holds_spanRead (fun _ _ _ _ _ hu hr => Form.holds_unitRead hu hr) h e

theorem Form.holds_unitWriteAt {d : DieId} {domain : BitVec 16} {need : Nat} {writer : Option (CoreId × CtxId)} {a : Int}
    {n v : Nat}
    (h : k.Holds s) (e : s.unitWriteAt d domain need writer a n v = .ok t) : k.Holds t := by
  unfold State.unitWriteAt at e
  split at e
  · cases e; exact h
  · split at e
    · cases e
    · exact Form.holds_spanWrite (fun _ _ _ _ _ hu hr => Form.holds_unitWrite hu hr) h e

theorem Form.holds_putLease (d : DieId) (l : Lease) (h : k.Holds s) : k.Holds (s.putLease d l) :=
  Form.holds_modFirebox _ _ h

theorem Form.holds_runFirebox (d : DieId) (h : k.Holds s) : k.Holds (s.runFirebox d) := by
  unfold State.runFirebox
  grind [! => Form.holds_schedule]

theorem Form.holds_grantArray (d : DieId) (num : Nat) (h : k.Holds s) : k.Holds (s.grantArray d num) :=
  Form.holds_runFirebox _ (Form.holds_modFirebox _ _ h)

theorem Form.holds_enterArray (d : DieId) (l : Lease) (h : k.Holds s) : k.Holds (s.enterArray d l) := by
  unfold State.enterArray
  split
  · exact Form.holds_grantArray _ _ (Form.holds_putLease _ _ h)
  · exact Form.holds_putLease _ _ h

theorem Form.holds_deliverFault {d : DieId} {l : Lease} {q : MFault} (h : k.Holds s) : k.Holds (s.deliverFault d l q).state :=
  Form.holds_modCtx _ (Form.holds_putLease _ _ h)

theorem Form.holds_resumeLease (d : DieId) (l : Lease) (h : k.Holds s) : k.Holds (s.resumeLease d l) := by
  unfold State.resumeLease
  dsimp only
  split
  · exact Form.holds_enterArray _ _ (Form.holds_modCtx _ h)
  · exact Form.holds_putLease _ _ (Form.holds_modCtx _ h)

theorem Form.holds_withLease {i : Instr} {go : State → DieId → Lease → Effect} (hgo : ∀ u d l, k.Holds u →
    k.Holds (go u d l).state)
    (h : k.Holds s) : k.Holds (s.withLease i go).state := by
  unfold State.withLease
  dsimp only
  split
  · split
    · exact Form.holds_modCtx _ h
    · exact h
  · rename_i l _
    split
    · exact hgo _ _ _ h
    · split
      · exact Form.holds_deliverFault h
      · have ht := Form.holds_resumeLease (dieOf s.cur.1) l h
        split
        · exact hgo _ _ _ ht
        · exact ht

theorem Form.onOut_issueMatrix {i : Instr} {f : FX} {srcs : List (BitVec 6)} {dst : Option (BitVec 6)} {priv : Mode}
    {body : State → Effect} (hb : k.Body body) (h : k.Holds s) : k.onOut (s.issueMatrix i f srcs dst priv body) :=
  Form.onOut_issue hb h

theorem Form.holds_orStop {stops : List (Option (BitVec 8 × Word))} {go : Effect} (hgo : k.Holds go.state) (h : k.Holds s) :
    k.Holds (orStop s stops go).state := by
  unfold orStop
  split
  · exact h
  · exact hgo

theorem Form.holds_withRoom {i : Instr} {go : State → DieId → Lease → Effect} (hgo : ∀ u d l, k.Holds u →
    k.Holds (go u d l).state)
    (h : k.Holds s) : k.Holds (s.withRoom i go).state := by
  refine Form.holds_withLease (fun u d l hu => ?_) h
  split
  · exact hu
  · exact hgo _ _ _ hu

theorem Form.holds_queueMatrix {d : DieId} {l : Lease} {word sa sb sc : Word} (h : k.Holds s) :
    k.Holds (s.queueMatrix d l word sa sb sc).state := by
  unfold State.queueMatrix
  dsimp only
  split
  · exact Form.holds_enterArray _ _ h
  · exact Form.holds_putLease _ _ h

theorem Form.onOut_execMlease {f : FX} (h : k.Holds s) : k.onOut (execMlease f s) := by
  refine Form.onOut_issueMatrix (fun u hu => ?_) h
  dsimp only
  split
  · exact hu
  · generalize hw : (if u.ctx.mstat.lstate == 3 then _ else u : State) = w
    have h1 : k.Holds w := by
      rw [← hw]
      split
      · exact Form.holds_modCtx _ hu
      · exact hu
    split
    · exact Form.holds_wi _ _ h1
    · exact Form.holds_wi _ _ (Form.holds_modCtx _ (Form.holds_modFirebox _ _ h1))

theorem Form.onOut_execMzero {f : FX} (h : k.Holds s) : k.onOut (execMzero f s) := by
  refine Form.onOut_issueMatrix (fun u hu => Form.holds_withRoom (fun u d l hu => ?_) hu) h
  dsimp only
  split
  · exact hu
  · exact Form.holds_queueMatrix hu

theorem Form.onOut_stageLoad {i : Instr} {f : FX} {mark : Lease → Lease} (h : k.Holds s) : k.onOut (s.stageLoad i f mark) :=
  Form.onOut_issueMatrix (fun _ hu => Form.holds_withRoom (fun _ _ _ hu => Form.holds_orStop (Form.holds_queueMatrix hu) hu) hu) h

theorem Form.onOut_execMout {f : FX} (h : k.Holds s) : k.onOut (execMout f s) := by
  refine Form.onOut_issueMatrix (fun u hu => Form.holds_withRoom (fun u d l hu => ?_) hu) h
  refine iteInduction (motive := fun e : Effect => k.Holds e.state) (fun _ => hu) (fun _ => ?_)
  exact Form.holds_orStop (Form.holds_rounded (fun _ => Form.holds_queueMatrix hu) hu) hu

theorem Form.holds_restoreLease (d : DieId) (l : Lease) (h : k.Holds s) : k.Holds (s.restoreLease d l) := by
  have h1 := Form.holds_modFirebox d (fun f => { f with leases := f.leases ++ [l] }) h
  unfold State.restoreLease
  dsimp only
  split
  · exact Form.holds_enterArray _ _ h1
  · exact h1

theorem Form.onOut_execMsave {f : FX} (h : k.Holds s) : k.onOut (execMsave f s) := by
  refine Form.onOut_issueMatrix (fun u hu => Form.holds_withLease (fun u d l hu => Form.holds_orStop ?_ hu) hu) h
  split
  · exact Form.holds_accessTrap _ _ hu
  · rename_i hw
    exact Form.holds_modCtx _ (Form.holds_dropLease _ _ (Form.holds_unitWriteAt hu hw))

theorem Form.onOut_execMrest {f : FX} (h : k.Holds s) : k.onOut (execMrest f s) := by
  refine Form.onOut_issueMatrix (fun u hu => ?_) h
  extract_lets x d p
  split
  · exact Form.holds_withLease (fun _ _ _ hu => hu) hu
  · refine Form.holds_orStop ?_ hu
    split
    · exact Form.holds_modCtx _ hu
    · split
      · exact Form.holds_modCtx _ hu
      · split
        · exact Form.holds_accessTrap _ _ hu
        · rename_i hr
          have h1 := Form.holds_unitReadAt hu hr
          split
          · exact h1
          · extract_lets launch
            exact Form.holds_modCtx _ (Form.holds_restoreLease _ _ h1)

theorem Form.holds_endSelf (h : k.Holds s) : k.Holds s.endSelf.state := by
  have hdone : ∀ u, k.Holds u → k.Holds
      ((if u.ctx.hopped.isSome then u.releaseSteps u.runCore packageScope else u).endContext u.cur.1 u.cur.2) := by
    intro u hu
    refine Form.holds_endContext _ _ ?_
    split
    · exact Form.holds_releaseSteps _ _ hu
    · exact hu
  unfold State.endSelf
  dsimp only
  split
  · exact hdone _ h
  · split
    · split
      · exact Form.holds_resumeLease _ _ h
      · exact hdone _ (Form.holds_report _ h)
    · split
      · exact h
      · exact hdone _ h

theorem Form.onOut_execHend {f : SR} (h : k.Holds s) : k.onOut (execHend f s) := by
  refine Form.onOut_issue (fun u hu => ?_) h
  have hd := Form.holds_drainVector hu
  dsimp only
  split
  · exact Form.holds_endHandler hd
  · split
    · exact hd
    · exact Form.holds_endSelf hd

theorem Form.onOut_execMma {f : FX} (h : k.Holds s) : k.onOut (execMma f s) := by
  refine Form.onOut_issueMatrix (fun u hu => Form.holds_withRoom (fun u d l hu => ?_) hu) h
  split
  · exact hu
  · exact Form.holds_queueMatrix hu

theorem Form.onOut_execMmab {f : FX} (h : k.Holds s) : k.onOut (execMmab f s) := by
  refine Form.onOut_issueMatrix (fun u hu => Form.holds_withRoom (fun u d l hu => ?_) hu) h
  split
  · exact hu
  · exact Form.holds_orStop (Form.holds_queueMatrix hu) hu

theorem Form.onOut_execMwait {f : FX} (h : k.Holds s) : k.onOut (execMwait f s) := by
  refine Form.onOut_issueMatrix (fun u hu => Form.holds_withLease (fun u d l hu => ?_) hu) h
  split
  · exact hu
  · exact Form.holds_acquireSteps _ _ (Form.holds_modCtx _ (Form.holds_putLease _ _ hu))

theorem Form.onOut_execMfree {f : FX} (h : k.Holds s) : k.onOut (execMfree f s) := by
  refine Form.onOut_issueMatrix (fun u hu => Form.holds_withLease (fun u d l hu => ?_) hu) h
  split
  · exact hu
  · exact Form.holds_modCtx _ (Form.holds_dropLease _ _ hu)

end Sys2Proof.Machine

/-! The Firebox at work keeps the form (09 R197 to R217; 05 R103 to R110; 06 R138). -/
namespace Sys2Proof.Machine
open Sys2Proof Sys2Proof.Claims

variable {k : Form} {s t : State}

theorem Form.holds_readRow {d : DieId} {l : Lease} {g : Stage} {row : Nat} {v : List Nat} (h : k.Holds s)
    (e : s.readRow d l g row = .ok (v, t)) : k.Holds t := by
  unfold State.readRow at e
  dsimp only at e
  split at e
  · cases e
  · rename_i hr
    obtain ⟨-, rfl⟩ := Prod.mk.inj (Except.ok.inj e)
    exact Form.holds_unitReadAt h hr

theorem Form.holds_stopped {r : Ran} {d : DieId} {e : Stop} {pos : Nat} (h : k.Holds s) : k.Holds (r.stopped d s e pos).s := by
  unfold Ran.stopped
  dsimp only
  split
  · exact Form.holds_noteBad _ _ _ h
  · exact h

theorem Form.holds_readRows (d : DieId) (l : Lease) (n r : Nat) (g : Stage) (h : k.Holds s) :
    k.Holds (State.readRows d l n r s g).1 := by
  induction n generalizing r s g with
  | zero => exact h
  | succ n ih =>
    unfold State.readRows
    split
    · exact h
    · rename_i hr
      exact ih _ _ (Form.holds_readRow h hr)

theorem Form.holds_rereadRows (d : DieId) (l : Lease) (g : Stage) (rows : List (List Nat)) (r : Nat) (h : k.Holds s) :
    k.Holds (State.rereadRows d l g rows r s).1 := by
  induction rows generalizing r s with
  | nil => exact h
  | cons x xs ih =>
    unfold State.rereadRows
    dsimp only
    split
    · exact h
    · rename_i hr
      refine ih _ ?_
      split at hr
      · cases hr; exact h
      · exact Form.holds_readRow h hr

theorem Form.holds_refillStage (d : DieId) (l : Lease) (g : Option Stage) (h : k.Holds s) : k.Holds (s.refillStage d l g).1 := by
  unfold State.refillStage
  split
  · exact h
  · rename_i g
    have hr := Form.holds_rereadRows d l g g.data 0 h
    split
    · rename_i e; rw [e] at hr; exact hr
    · rename_i e; rw [e] at hr; exact hr

theorem Form.holds_refill (d : DieId) (l : Lease) (h : k.Holds s) : k.Holds (s.refill d l).1 := by
  unfold State.refill
  split
  · exact h
  · have ha := Form.holds_refillStage d l l.stageA h
    split
    · rename_i e; rw [e] at ha; exact ha
    · rename_i u _ e
      rw [e] at ha
      have hb := Form.holds_refillStage d l l.stageB ha
      split
      · rename_i e; rw [e] at hb; exact hb
      · rename_i e; rw [e] at hb; exact hb

theorem Form.holds_runStageLoad (d : DieId) (l : Lease) (c : MCmd) (ty : BitVec 5) (isA : Bool) (h : k.Holds s) :
    k.Holds (runStageLoad d s l c ty isA).s := by
  have hr := fun n r g => Form.holds_readRows d l n r g h
  unfold runStageLoad
  dsimp only
  split
  · exact hr _ _ _
  · exact Form.holds_stopped (hr _ _ _)

theorem Form.holds_runMma (d : DieId) (l : Lease) (c : MCmd) (f : FX) (h : k.Holds s) : k.Holds (runMma d s l c f).s := by
  unfold runMma
  dsimp only
  split <;> exact h

theorem Form.holds_readScales {d : DieId} {l : Lease} {p : Word} {blocks j n i : Nat} {v : List Nat} (h : k.Holds s)
    (e : State.readScales d l p blocks j n i s = .ok (v, t)) : k.Holds t := by
  induction n generalizing i s t v with
  | zero => cases e; exact h
  | succ n ih =>
    unfold State.readScales at e
    split at e
    · cases e
    · rename_i hr
      split at e
      · cases e
      · rename_i hs
        cases e
        exact ih (Form.holds_unitReadAt h hr) hs

theorem Form.holds_runBlocks (d : DieId) (c : MCmd) (f : FX) (accexp : Int) (b : State → Nat → Nat → Nat) (n j : Nat) {r : Ran}
    (h : k.Holds r.s) : k.Holds (runBlocks d c f accexp b n j r).s := by
  induction n generalizing j r with
  | zero => exact h
  | succ n ih =>
    unfold runBlocks
    dsimp only
    split
    · exact h
    · split
      · exact Form.holds_stopped h
      · rename_i ha
        have h1 := Form.holds_readScales h ha
        split
        · exact Form.holds_stopped h1
        · rename_i hb
          have h2 := Form.holds_readScales h1 hb
          split
          · exact Form.holds_modFirebox _ _ h2
          · exact ih _ h2

theorem Form.holds_runMmab (d : DieId) (l : Lease) (c : MCmd) (f : FX) (h : k.Holds s) : k.Holds (runMmab d s l c f).s := by
  unfold runMmab
  split
  · exact h
  · exact Form.holds_runBlocks _ _ _ _ _ _ _ (r := ⟨s, l, none⟩) h

theorem Form.holds_runRows (d : DieId) (c : MCmd) (f : FX) (n m : Nat) {r : Ran} (h : k.Holds r.s) :
    k.Holds (runRows d c f n m r).s := by
  induction n generalizing m r with
  | zero => exact h
  | succ n ih =>
    unfold runRows
    dsimp only
    split
    · exact Form.holds_stopped h
    · rename_i hw
      exact ih _ (Form.holds_unitWriteAt h hw)

theorem Form.holds_runMatrix (d : DieId) (l : Lease) (c : MCmd) (h : k.Holds s) : k.Holds (runMatrix d s l c).s := by
  unfold runMatrix
  split
  · exact h
  · exact Form.holds_runStageLoad _ _ _ _ _ h
  · exact Form.holds_runStageLoad _ _ _ _ _ h
  · exact Form.holds_runMma _ _ _ _ h
  · exact Form.holds_runMmab _ _ _ _ h
  · exact Form.holds_runRows _ _ _ _ _ (r := ⟨s, l, none⟩) h
  · exact h

theorem Form.holds_arbitrate (d : DieId) (h : k.Holds s) : k.Holds (s.arbitrate d) := by
  unfold State.arbitrate
  grind [! => Form.holds_grantArray]

theorem Form.onOut_execQuantumExpiry {die : DieId} (h : k.Holds s) : k.onOut (execQuantumExpiry die s) := by
  unfold execQuantumExpiry
  dsimp only [Form.onOut]
  split
  · exact h
  · split
    · exact h
    · split
      · exact Form.holds_grantArray _ _ (Form.holds_modFirebox _ _ h)
      · exact Form.holds_runFirebox _ (Form.holds_modFirebox _ _ h)

theorem Form.holds_commandBoundary (d : DieId) (l : Lease) (h : k.Holds s) : k.Holds (s.commandBoundary d l) := by
  unfold State.commandBoundary
  split
  · exact Form.holds_arbitrate _ (Form.holds_modFirebox _ _ h)
  · have h1 := Form.holds_putLease d l h
    dsimp only
    split
    · exact Form.holds_schedule _ h1
    · exact Form.holds_runFirebox _ h1

theorem Form.holds_holdFault (d : DieId) (l : Lease) (q : BitVec 8 × Word × Nat) (h : k.Holds s) :
    k.Holds (s.holdFault d l q) := by
  unfold State.holdFault
  grind [! => Form.holds_modFirebox, ! => Form.holds_putLease, ! => Form.holds_modCtxAt, ! => Form.holds_arbitrate, Form.holds_eq]

theorem Form.holds_runHead (d : DieId) (l : Lease) (c : MCmd) (h : k.Holds s) : k.Holds (s.runHead d l c) := by
  have hr := Form.holds_refill d l h
  unfold State.runHead
  split
  · rename_i e
    rw [e] at hr
    exact Form.holds_holdFault _ _ _ (Form.holds_stopped hr)
  · rename_i u m e
    rw [e] at hr
    have h1 := Form.holds_runMatrix d m c (Form.holds_modFirebox d (fun g => { g with stageOwner := some l.num }) hr)
    dsimp only
    split
    · exact Form.holds_holdFault _ _ _ h1
    · exact Form.holds_commandBoundary _ _ (Form.holds_modFirebox _ _ h1)

theorem Form.onOut_execFireboxCommandRun {die : DieId} (h : k.Holds s) : k.onOut (execFireboxCommandRun die s) := by
  unfold execFireboxCommandRun
  dsimp only [Form.onOut]
  split
  · exact h
  · split
    · exact Form.holds_commandBoundary _ _ h
    · split
      · exact Form.holds_schedule _ h
      · exact Form.holds_runHead _ _ _ h

theorem Form.onOut_execHobRefreshStart {die : DieId} (h : k.Holds s) : k.onOut (execHobRefreshStart die s) := by
  refine Form.holds_schedule _ ?_
  split
  · exact h
  · exact Form.holds_advanceTo _ h

theorem Form.onOut_execHobRefreshEnd {die : DieId} (h : k.Holds s) : k.onOut (execHobRefreshEnd die s) := by
  refine Form.holds_runFirebox _ ?_
  split
  · exact Form.holds_advanceTo _ h
  · exact h

end Sys2Proof.Machine

/-! Texture reads and ray queries keep the form (10 R238 to R249). -/
namespace Sys2Proof.Machine
open Sys2Proof Sys2Proof.Claims

variable {k : Form} {s t : State}

/-- A read keeps the form. -/
def Form.Reads {α : Type} (k : Form) (one : State → Except Stop (α × State)) : Prop :=
  ∀ u v u', k.Holds u → one u = .ok (v, u') → k.Holds u'

theorem Form.holds_texPiece {va n v : Nat} (h : k.Holds s) (e : s.texPiece va n = .ok (v, t)) : k.Holds t := by
  unfold State.texPiece at e
  dsimp only at e
  split at e
  · split at e
    · have h1 := Form.holds_plbCheck s.runCore s.ctx.domain va rightR h
      cases hr : (s.plbCheck s.runCore s.ctx.domain va rightR).2.l2Read (dieOf s.runCore) false false va n with
      | error x => rw [hr] at e; cases e
      | ok r =>
        rw [hr] at e
        obtain ⟨-, rfl⟩ := Prod.mk.inj (Except.ok.inj e)
        exact Form.holds_chargeRead _ _ _ (Form.holds_l2Read h1 hr)
    · cases e
  · cases e

theorem Form.holds_texRead {va n v : Nat} (h : k.Holds s) (e : s.texRead va n = .ok (v, t)) : k.Holds t :=
  Form.holds_spanRead (fun _ _ _ _ _ hu hr => Form.holds_texPiece hu hr) h e

theorem Form.holds_walkQuads {act : Nat → Bool} {one : State → Nat → Except Stop (Quad × State)}
    (hone : ∀ n, k.Reads (fun u => one u n)) (n e : Nat) {r : Walked4} (h : k.Holds r.s) :
      k.Holds (walkQuads act one n e r).s := by
  induction n generalizing e r with
  | zero => exact h
  | succ n ih =>
    unfold walkQuads
    split
    · split
      · rename_i hv
        exact ih _ (hone _ _ _ _ h hv)
      · exact h
    · exact ih _ h

theorem Form.holds_writeRun (x : Ctx) (ctl : VCtl) (vd : BitVec 6) (tag : BitVec 8) (vals stop : Nat) (h : k.Holds s) :
    k.Holds (s.writeRun x ctl vd tag vals stop) := by
  unfold State.writeRun
  dsimp only
  split
  · exact Form.holds_writeTag _ _ h
  · exact Form.holds_writeElems _ _ _ _ _ _ _ _ _ h

theorem Form.onOut_quadOp {i : Instr} {f : FV} {inputs : Nat} {tag1 : BitVec 8}
    {prepare : State → Word → Except Stop (State × (State → Nat → Except Stop (Quad × State)))}
    (hp : ∀ u p u' one, k.Holds u → prepare u p = .ok (u', one) → k.Holds u' ∧ ∀ n, k.Reads (fun v => one v n)) (h : k.Holds s) :
    k.onOut (s.quadOp i f inputs tag1 prepare) := by
  refine Form.onOut_issueVector (fun u hu => ?_) h
  refine iteInduction (motive := fun e : Effect => k.Holds e.state) (fun _ => hu) (fun _ => ?_)
  extract_lets act body r q write
  have hr : k.Holds r.s := by
    simp only [r]
    cases body with
    | none => exact hu
    | some e =>
      cases hone : prepare u (u.rs (f.aux.setWidth 6)) with
      | error x => exact hu
      | ok p =>
        obtain ⟨h1, h2⟩ := hp _ _ _ _ hu hone
        exact Form.holds_walkQuads h2 _ _ h1
  have hw : ∀ ctl stop, k.Holds (write ctl stop) := fun _ _ =>
    Form.holds_writeRun _ _ _ _ _ _ (Form.holds_writeRun _ _ _ _ _ _ (Form.holds_writeRun _ _ _ _ _ _
      (Form.holds_writeRun _ _ _ _ _ _ (Form.holds_enqueueVector _ _ _ _ hr))))
  clear_value write r
  split
  · exact hw _ _
  · exact Form.holds_noteStop _ _ (hw _ _)

theorem Form.reads_texelAt {d : Texture} {i j l : Option Nat} : k.Reads (fun s => s.texelAt d i j l) := by
  intro u v u' hu e
  dsimp only [State.texelAt] at e
  split at e
  · split at e
    · cases e
    · rename_i hr
      cases e
      exact Form.holds_texRead hu hr
  · cases e
    exact hu

theorem Form.reads_alongAxis {a : Axis} {get : State → Option Nat → Except Stop (Quad × State)} (hget : ∀ i, k.Reads
    (fun s => get s i)) :
    k.Reads (fun s => alongAxis a s get) := by
  intro u v u' hu e
  dsimp only [alongAxis] at e
  split at e
  · split at e
    · cases e
    · rename_i hp
      split at e
      · cases e
      · rename_i hq
        cases e
        exact hget _ _ _ _ (hget _ _ _ _ hu hp) hq
  · exact hget _ _ _ _ hu e

theorem Form.reads_sample {d : Texture} {x y z : Axis} : k.Reads (fun s => s.sample d x y z) :=
  Form.reads_alongAxis (fun _ => Form.reads_alongAxis (fun _ => Form.reads_alongAxis (fun _ => Form.reads_texelAt)))

theorem Form.reads_gatherTexels {d : Texture} {c : Nat} {x y z : Axis} : k.Reads (fun s => s.gatherTexels d c x y z) := by
  intro u v u' hu e
  dsimp only [State.gatherTexels] at e
  split at e
  · cases e
  · rename_i h0
    split at e
    · cases e
    · rename_i h1
      split at e
      · cases e
      · rename_i h2
        split at e
        · cases e
        · rename_i h3
          cases e
          exact Form.reads_texelAt _ _ _ (Form.reads_texelAt _ _ _ (Form.reads_texelAt _ _ _
            (Form.reads_texelAt _ _ _ hu h0) h1) h2) h3

theorem Form.reads_texElement {d : Texture} {linear : Bool} {a b c : Nat}
    {get : State → Axis → Axis → Axis → Except Stop (Quad × State)} (hget : ∀ x y z, k.Reads (fun s => get s x y z)) :
    k.Reads (fun s => s.texElement d linear a b c get) := by
  intro u v u' hu e
  dsimp only [State.texElement] at e
  split at e
  · cases e
    exact hu
  · split at e
    · obtain ⟨-, rfl⟩ := Prod.mk.inj (Except.ok.inj e)
      exact hu
    · exact hget _ _ _ _ _ _ hu e

theorem Form.reads_readTexture {p : Word} : k.Reads (fun s => s.readTexture p) := by
  intro u v u' hu e
  dsimp only [State.readTexture] at e
  split at e
  · cases e
  · split at e
    · cases e
    · split at e
      · cases e
      · rename_i hr
        split at e
        · cases e
          exact Form.holds_texRead hu hr
        · cases e

theorem Form.onOut_texOp {i : Instr} {f : FV} {linear : Bool} {get : Texture → State → Axis → Axis → Axis → Except Stop
    (Quad × State)}
    (hget : ∀ d x y z, k.Reads (fun s => get d s x y z)) (h : k.Holds s) : k.onOut (s.texOp i f linear get) := by
  refine Form.onOut_quadOp (fun u p u' one hu e => ?_) h
  split at e
  · cases e
  · rename_i hr
    cases e
    exact ⟨Form.reads_readTexture _ _ _ hu hr, fun n v q v' hv ev => Form.reads_texElement (hget _) _ _ _ hv ev⟩

theorem Form.reads_leafHits {ray : Ray} {n a : Nat} {best : Option Hit} : k.Reads (fun s => State.leafHits ray n a s best) := by
  induction n generalizing a best with
  | zero =>
    intro u v u' hu e
    cases e
    exact hu
  | succ n ih =>
    intro u v u' hu e
    dsimp only [State.leafHits] at e
    split at e
    · cases e
    · rename_i hr
      split at e
      · cases e
      · exact ih _ _ _ (Form.holds_texRead hu hr) e

theorem Form.reads_childHits {ray : Ray} {w : Nat} {down : Nat → State → Option Hit → Except Stop (Option Hit × State)}
    (hdown : ∀ a b, k.Reads (fun s => down a s b)) {n c : Nat} {best : Option Hit} :
    k.Reads (fun s => childHits ray w down n c s best) := by
  induction n generalizing c best with
  | zero =>
    intro u v u' hu e
    cases e
    exact hu
  | succ n ih =>
    intro u v u' hu e
    dsimp only [childHits] at e
    split at e
    · cases e
    · rename_i hhere
      refine ih _ _ _ ?_ e
      split at hhere
      · cases hhere
        exact hu
      · split at hhere
        · exact hdown _ _ _ _ _ hu hhere
        · exact Form.reads_leafHits _ _ _ hu hhere

theorem Form.reads_nodeHits {ray : Ray} {left a : Nat} {best : Option Hit} : k.Reads (fun s => nodeHits ray left a s best) := by
  induction left generalizing a best with
  | zero =>
    intro u v u' hu e
    cases e
  | succ left ih =>
    intro u v u' hu e
    dsimp only [nodeHits] at e
    split at e
    · cases e
    · split at e
      · cases e
      · rename_i hr
        split at e
        · cases e
        · exact Form.reads_childHits (fun _ _ => ih) _ _ _ (Form.holds_texRead hu hr) e

theorem Form.onOut_execRayq {f : FV} (h : k.Holds s) : k.onOut (execRayq f s) := by
  refine Form.onOut_quadOp (fun u p u' one hu e => ?_) h
  split at e
  · cases e
  · cases e
    refine ⟨hu, fun n v q v' hv ev => ?_⟩
    dsimp only at ev
    split at ev
    · cases ev
    · rename_i hn
      cases ev
      exact Form.reads_nodeHits _ _ _ hv hn

end Sys2Proof.Machine

/-! Operands and ends of commands and the copy engines keep the form (06 R112, R137; 15 R350 to R354; 18 R455). -/
namespace Sys2Proof.Machine
open Sys2Proof Sys2Proof.Claims

variable {k : Form} {s t : State}

/-- An access of a command keeps the form, done or stopped. -/
def Form.onAccess {α : Type} (k : Form) (get : α → State) : Access α → Prop
  | .ok x => k.Holds (get x)
  | .error e => k.Holds e.1

theorem Form.access_ok {α : Type} {get : α → State} {r : Access α} {x : α} (h : k.onAccess get r) (e : r = .ok x) :
    k.Holds (get x) := by
  rw [e] at h
  exact h

theorem Form.access_error {α : Type} {get : α → State} {r : Access α} {x : State × Verdict} (h : k.onAccess get r)
    (e : r = .error x) : k.Holds x.1 := by
  rw [e] at h
  exact h

theorem Form.holds_accessFault (c : Command) (e : Stop) (h : k.Holds s) : k.Holds (s.accessFault c e).1 := by
  unfold State.accessFault
  dsimp only
  split
  · exact Form.holds_noteBad _ _ _ h
  · exact h

theorem Form.onAccess_operandRead (c : Command) (need va n : Nat) (h : k.Holds s) :
    k.onAccess Prod.snd (s.operandRead c need va n) := by
  unfold State.operandRead
  split
  · exact h
  · exact h
  · split
    · rename_i e
      exact Form.holds_chargeRead _ _ _ (Form.holds_l2Read h e)
    · exact Form.holds_accessFault _ _ h

theorem Form.onAccess_operandWrite (c : Command) (va n v : Nat) (h : k.Holds s) : k.onAccess id (s.operandWrite c va n v) := by
  unfold State.operandWrite
  split
  · exact h
  · exact Form.holds_localWrite _ _ _ _ h
  · split
    · rename_i e
      exact Form.holds_l2Write h e
    · exact Form.holds_accessFault _ _ h

theorem Form.onAccess_readPieces (c : Command) (need fuel va n : Nat) (h : k.Holds s) :
    k.onAccess Prod.snd (State.readPieces c need fuel s va n) := by
  induction fuel generalizing s va n with
  | zero => exact h
  | succ fuel ih =>
    unfold State.readPieces
    split
    · exact h
    · have h1 := Form.onAccess_operandRead c need va (pieceLen va n) h
      split
      · rename_i e; rw [e] at h1; exact h1
      · rename_i v u e
        rw [e] at h1
        have h2 := ih (s := u) (va + pieceLen va n) (n - pieceLen va n) h1
        split
        · rename_i e; rw [e] at h2; exact h2
        · rename_i e; rw [e] at h2; exact h2

theorem Form.onAccess_writePieces (c : Command) (fuel va n v : Nat) (h : k.Holds s) :
    k.onAccess id (State.writePieces c fuel s va n v) := by
  induction fuel generalizing s va n v with
  | zero => exact h
  | succ fuel ih =>
    unfold State.writePieces
    split
    · exact h
    · have h1 := Form.onAccess_operandWrite c va (pieceLen va n) (v % 2 ^ (8 * pieceLen va n)) h
      split
      · rename_i e; rw [e] at h1; exact h1
      · rename_i e; rw [e] at h1; exact ih _ _ _ h1

theorem Form.onAccess_sourceRead (c : Command) (a : Int) (n : Nat) (h :
    k.Holds s) : k.onAccess Prod.snd (s.sourceRead c a n) := by
  unfold State.sourceRead
  split
  · exact h
  · exact Form.onAccess_readPieces _ _ _ _ _ h

theorem Form.onAccess_destWrite (c : Command) (a : Int) (n v : Nat) (h : k.Holds s) : k.onAccess id (s.destWrite c a n v) := by
  unfold State.destWrite
  split
  · exact h
  · exact Form.onAccess_writePieces _ _ _ _ _ h

theorem Form.holds_flushUnit (c : Command) (h : k.Holds s) : k.Holds (s.flushUnit c) := by
  refine Form.holds_writeBackAll _ (Form.holds_foldl (fun ln _ u hu => ?_) h)
  split
  · exact hu
  · exact Form.holds_charge _ _ _ hu

theorem Form.holds_endCommand (c : Command) (v : Verdict) (h : k.Holds s) : k.Holds (s.endCommand c v) :=
  Form.holds_popCommand _ _ (Form.holds_reply _ _ _ _ _ (Form.holds_flushUnit _ h))

theorem Form.holds_laterCommand (c : Command) (h : k.Holds s) : k.Holds (s.laterCommand c) :=
  Form.holds_deferTurn _ (Form.holds_modAgent _ _ _ h)

theorem Form.holds_pauseCommand (c : Command) (done aux1 aux2 : Nat) (words : List Nat) (h : k.Holds s) :
    k.Holds (s.pauseCommand c done aux1 aux2 words) := by
  refine Form.holds_laterCommand _ (Form.holds_modAgent _ _ _ ?_)
  split
  · exact h
  · exact Form.holds_flushUnit _ h

theorem Form.onOut_unless {c : Command} {stop : Option Verdict} {go : Unit → State} (hgo : k.Holds (go ())) (h : k.Holds s) :
    k.onOut (s.unless c stop go) := by
  unfold State.unless
  dsimp only [Form.onOut]
  split
  · exact Form.holds_endCommand _ _ h
  · exact hgo

theorem Form.holds_complete (c : Command) (v : Verdict) {r : Access State} (h : k.onAccess id r) :
    k.Holds (State.complete c v r) := by
  cases r with
  | ok u => exact Form.holds_endCommand _ _ h
  | error e => exact Form.holds_endCommand _ _ h

theorem Form.onAccess_copyBytes (c : Command) (fuel : Nat) (a b : Int) (n : Nat) (h : k.Holds s) :
    k.onAccess id (copyBytes c fuel s a b n) := by
  induction fuel generalizing s a b n with
  | zero => exact h
  | succ fuel ih =>
    unfold copyBytes
    split
    · exact h
    · have h1 := Form.onAccess_sourceRead c a (min n copyChunk) h
      split
      · rename_i e; rw [e] at h1; exact h1
      · rename_i v u e
        rw [e] at h1
        have h2 := Form.onAccess_destWrite (s := u) c b (min n copyChunk) v h1
        split
        · rename_i e; rw [e] at h2; exact h2
        · rename_i e; rw [e] at h2; exact ih _ _ _ h2

theorem Form.holds_copyRemote (c : Command) (value total : Nat) (piece : Nat → Int × Int × Nat) (h : k.Holds s) :
    k.Holds (s.copyRemote c value total piece) := by
  unfold State.copyRemote
  dsimp only
  split
  · exact Form.holds_endCommand _ _ h
  · split
    · exact Form.holds_endCommand _ _ h
    · rename_i status v data _ _ _
      split
      · exact Form.holds_endCommand _ _ h
      · have h1 := Form.onAccess_destWrite c (piece (s.agentOf c).done).2.1 (piece (s.agentOf c).done).2.2 data h
        split
        · rename_i e; rw [e] at h1; exact Form.holds_endCommand _ _ h1
        · rename_i e; rw [e] at h1; exact Form.holds_pauseCommand _ _ _ _ _ h1
    · split
      · exact Form.holds_laterCommand _ h
      · exact Form.holds_pauseCommand _ _ _ _ _ (Form.holds_sendFrame _ _ _ _ h)

theorem Form.onOut_execCpy {c : Command} (h : k.Holds s) : k.onOut (execCpy c s) := by
  unfold execCpy
  extract_lets m n a b live away
  refine Form.onOut_unless ?_ h
  split
  · exact Form.holds_copyRemote _ _ _ _ h
  · exact Form.holds_complete _ _ (Form.onAccess_copyBytes _ _ _ _ _ h)

theorem Form.onAccess_copyRows (c : Command) (bytes : Nat) (pa pb : Int) (n : Nat) (a b : Int) (h : k.Holds s) :
    k.onAccess id (copyRows c bytes pa pb n s a b) := by
  induction n generalizing s a b with
  | zero => exact h
  | succ n ih =>
    unfold copyRows
    have h1 := Form.onAccess_copyBytes c (bytes / copyChunk + 1) a b bytes h
    split
    · rename_i e; rw [e] at h1; exact h1
    · rename_i e; rw [e] at h1; exact ih _ _ h1

theorem Form.onOut_execCpy2d {c : Command} (h : k.Holds s) : k.onOut (execCpy2d c s) := by
  unfold execCpy2d
  extract_lets m bytes n a b pa pb per remote
  have hr : ∀ u, k.Holds (remote u) := fun _ => Form.holds_copyRemote _ _ _ _ h
  clear_value remote
  split
  · exact hr _
  · refine Form.onOut_unless ?_ h
    split
    · exact Form.holds_endCommand _ _ h
    · split
      · exact Form.holds_endCommand _ _ h
      · split
        · exact hr _
        · exact Form.holds_complete _ _ (Form.onAccess_copyRows _ _ _ _ _ _ _ h)

theorem Form.onAccess_fillBytes (c : Command) (pattern fuel : Nat) (b : Int) (n : Nat) (h : k.Holds s) :
    k.onAccess id (fillBytes c pattern fuel s b n) := by
  induction fuel generalizing s b n with
  | zero => exact h
  | succ fuel ih =>
    unfold fillBytes
    split
    · exact h
    · have h1 := Form.onAccess_destWrite c b (min n copyChunk) (repeatElem 64 pattern (copyChunk / 8)) h
      split
      · rename_i e; rw [e] at h1; exact h1
      · rename_i e; rw [e] at h1; exact ih _ _ h1

theorem Form.onOut_execCpyfill {c : Command} (h : k.Holds s) : k.onOut (execCpyfill c s) := by
  unfold execCpyfill
  exact Form.onOut_unless (Form.holds_complete _ _ (Form.onAccess_fillBytes _ _ _ _ _ h)) h

theorem Form.onAccess_decodeOne (c : Command) (w n : Nat) (a b : Int) (dir i : Nat) (h : k.Holds s) :
    k.onAccess id (decodeOne c w n a b dir i s) := by
  unfold decodeOne
  extract_lets off len bad
  have hbad : k.onAccess id bad := h
  clear_value bad
  split
  · exact hbad
  · have h1 := Form.onAccess_sourceRead c (a + off) len h
    split
    · rename_i e; rw [e] at h1; exact h1
    · rename_i v u e
      rw [e] at h1
      split
      · exact hbad
      · rename_i brick _
        have h2 := Form.onAccess_destWrite (s := u) c (b + 4096 * i) 4096 brick h1
        split
        · rename_i e; rw [e] at h2; exact h2
        · exact h1

theorem Form.onAccess_decodeBricks (c : Command) (w n : Nat) (a b : Int) (dir m i : Nat) (h : k.Holds s) :
    k.onAccess id (decodeBricks c w n a b dir m i s) := by
  induction m generalizing s i with
  | zero => exact h
  | succ m ih =>
    unfold decodeBricks
    have h1 := Form.onAccess_decodeOne c w n a b dir i h
    split
    · rename_i e; rw [e] at h1; exact h1
    · rename_i e; rw [e] at h1; exact ih _ h1

theorem Form.onOut_execCpydec {c : Command} (h : k.Holds s) : k.onOut (execCpydec c s) := by
  unfold execCpydec
  extract_lets m n codec a b
  refine Form.onOut_unless ?_ h
  have h1 := Form.onAccess_sourceRead c a (8 * n) h
  split
  · rename_i e; rw [e] at h1; exact Form.holds_endCommand _ _ h1
  · rename_i e
    rw [e] at h1
    split
    · exact Form.holds_endCommand _ _ h1
    · exact Form.holds_complete _ _ (Form.onAccess_decodeBricks _ _ _ _ _ _ _ _ h1)

theorem Form.holds_hobLoad (d : DieId) (o n v : Nat) (h : k.Holds s) : k.Holds (s.hobLoad d o n v) :=
  Form.holds_modFirebox _ _ (Form.holds_hobWrite _ _ _ _ h)

theorem Form.onAccess_loadBytes (c : Command) (fuel : Nat) (a : Int) (o n : Nat) (h : k.Holds s) :
    k.onAccess id (loadBytes c fuel s a o n) := by
  induction fuel generalizing s a o n with
  | zero => exact h
  | succ fuel ih =>
    unfold loadBytes
    split
    · exact h
    · have h1 := Form.onAccess_sourceRead c a (min n copyChunk) h
      split
      · rename_i e; rw [e] at h1; exact h1
      · rename_i e; rw [e] at h1; exact ih _ _ _ (Form.holds_hobLoad _ _ _ _ h1)

theorem Form.onOut_execWload {c : Command} (h : k.Holds s) : k.onOut (execWload c s) := by
  unfold execWload
  extract_lets m a o n started checks
  refine Form.onOut_unless ?_ h
  split
  · exact Form.holds_endCommand _ _ h
  · split
    · exact Form.holds_laterCommand _ h
    · have h1 := Form.holds_complete c (okValue n) (Form.onAccess_loadBytes c (n / copyChunk + 1) a o n h)
      split
      · exact h1
      · exact Form.holds_schedule _ h1

end Sys2Proof.Machine

/-! The rasteriser, the mesh distributor, the blend unit and the splat unit keep the form (10 R224 to R236; 11 R250 to R264). -/
namespace Sys2Proof.Machine
open Sys2Proof Sys2Proof.Claims

variable {k : Form} {s t : State}

theorem Form.holds_releaseTo (c : Command) (j : CoreId) (h : k.Holds s) : k.Holds (s.releaseTo c j) := by
  unfold State.releaseTo
  split
  · exact h
  · exact Form.holds_flushUnit _ h

theorem Form.holds_fillRecords (c : Command) (j : CoreId) (n : Nat) (left : List Nat) (h : k.Holds s) :
    k.Holds (fillRecords c j n left s).2 := by
  induction left generalizing s with
  | nil => exact h
  | cons v rest ih =>
    unfold fillRecords
    split
    · exact h
    · exact ih (Form.holds_fillSlot _ _ _ _ _ (Form.holds_releaseTo _ _ h))

theorem Form.holds_rastFrom (c : Command) (j : CoreId) (n block : Nat) (r : RasterState) (count fuel i done bad : Nat)
    (left : List Nat)
    (h : k.Holds s) : k.Holds (rastFrom c j n block r count fuel s i done bad left) := by
  induction fuel generalizing s i done bad left with
  | zero => exact h
  | succ fuel ih =>
    have hq := Form.holds_fillRecords c j n left h
    change k.Holds (if !s.holdsDomain j c.sender.domain then s.endCommand c rejected else _)
    split
    · exact Form.holds_endCommand _ _ h
    · dsimp only
      split
      · exact Form.holds_pauseCommand _ _ _ _ _ hq
      · split
        · exact Form.holds_endCommand _ _ hq
        · have hr := Form.onAccess_sourceRead c (pointerAddr c.msg.w2 + 64 * i) 64 hq
          split
          · rename_i e
            exact Form.holds_endCommand _ _ (Form.access_error hr e)
          · rename_i e
            split
            · exact ih _ _ _ _ (Form.access_ok hr e)
            · exact ih _ _ _ _ (Form.access_ok hr e)

theorem Form.holds_rastResume (c : Command) (block i done bad : Nat) (left : List Nat) (h : k.Holds s) :
    k.Holds (s.rastResume c block i done bad left) := by
  unfold State.rastResume
  split
  · exact Form.holds_rastFrom _ _ _ _ _ _ _ _ _ _ _ h
  · exact Form.holds_endCommand _ _ h

theorem Form.onOut_execRast {c : Command} (h : k.Holds s) : k.onOut (execRast c s) := by
  unfold execRast
  extract_lets m a
  split
  · dsimp only [Form.onOut]
    split
    · exact Form.holds_rastResume _ _ _ _ _ _ h
    · exact Form.holds_endCommand _ _ h
  · refine Form.onOut_unless ?_ h
    have hr := Form.onAccess_sourceRead c (pointerAddr m.w4) 64 h
    split
    · rename_i e
      exact Form.holds_endCommand _ _ (Form.access_error hr e)
    · rename_i e
      have h1 := Form.access_ok hr e
      split
      · exact Form.holds_endCommand _ _ h1
      · split
        · exact Form.holds_endCommand _ _ h1
        · split
          · exact Form.holds_endCommand _ _ h1
          · exact Form.holds_rastResume _ _ _ _ _ _ h1

theorem Form.holds_meshFrom (c : Command) (block : Nat) (cores : List CoreId) (count fuel i done : Nat) (h : k.Holds s) :
    k.Holds (meshFrom c block cores count fuel s i done) := by
  induction fuel generalizing s i done with
  | zero => exact h
  | succ fuel ih =>
    change k.Holds (if count ≤ i then s.endCommand c (okValue done) else _)
    split
    · exact Form.holds_endCommand _ _ h
    · have hr := Form.onAccess_sourceRead c (pointerAddr c.msg.w2 + 64 * i) 64 h
      split
      · rename_i e
        exact Form.holds_endCommand _ _ (Form.access_error hr e)
      · rename_i e
        have h1 := Form.access_ok hr e
        dsimp only
        split
        · exact ih _ _ (Form.holds_countMsgErr _ h1)
        · split
          · rename_i hu
            exact ih _ _ (Form.holds_toInbox (Form.holds_releaseTo _ _ h1) hu)
          · exact Form.holds_pauseCommand _ _ _ _ _ h1

theorem Form.onOut_execMesh {c : Command} (h : k.Holds s) : k.onOut (execMesh c s) := by
  unfold execMesh
  extract_lets m a count cores
  split
  · dsimp only [Form.onOut]
    split
    · exact Form.holds_meshFrom _ _ _ _ _ _ _ h
    · exact Form.holds_endCommand _ _ h
  · refine Form.onOut_unless ?_ h
    have hr := Form.onAccess_sourceRead c (pointerAddr m.w4) 64 h
    split
    · rename_i e
      exact Form.holds_endCommand _ _ (Form.access_error hr e)
    · rename_i e
      have h1 := Form.access_ok hr e
      split
      · exact Form.holds_endCommand _ _ h1
      · exact Form.holds_meshFrom _ _ _ _ _ _ _ h1

theorem Form.onAccess_blendElement (c : Command) (b : Blend) (rcd e : Nat) (h : k.Holds s) :
    k.onAccess id (blendElement c b rcd e s) := by
  unfold blendElement
  extract_lets px py za depth test
  have htest : k.onAccess Prod.snd test := by
    simp only [test]
    split
    · exact h
    · have hr := Form.onAccess_sourceRead c za 4 h
      split
      · rename_i e
        have h1 := Form.access_ok hr e
        exact h1
      · rename_i e
        have h1 := Form.access_error hr e
        exact h1
  clear_value test
  split
  · exact h
  · split
    · exact htest
    · exact htest
    · rename_i ca src _ _ v
      have hr := Form.onAccess_sourceRead (s := v) c ca b.texel htest
      split
      · rename_i e
        exact Form.access_error hr e
      · rename_i d u e
        have hw := Form.onAccess_destWrite (s := u) c ca b.texel (blendTexel b src d) (Form.access_ok hr e)
        split
        · rename_i e
          exact Form.access_error hw e
        · rename_i e
          split
          · exact Form.onAccess_destWrite _ _ _ _ (Form.access_ok hw e)
          · exact Form.access_ok hw e

theorem Form.onAccess_blendElements (c : Command) (b : Blend) (rcd n e : Nat) (h : k.Holds s) :
    k.onAccess id (blendElements c b rcd n e s) := by
  induction n generalizing s e with
  | zero => exact h
  | succ n ih =>
    unfold blendElements
    have h1 := Form.onAccess_blendElement c b rcd e h
    split
    · rename_i x
      exact Form.access_error h1 x
    · rename_i x
      exact ih _ (Form.access_ok h1 x)

theorem Form.holds_blendFrom (c : Command) (j : CoreId) (n : Nat) (words : List Nat) (b : Blend) (fuel done skipped : Nat)
    (h : k.Holds s) : k.Holds (blendFrom c j n words b fuel s done skipped) := by
  induction fuel generalizing s done skipped with
  | zero => exact h
  | succ fuel ih =>
    unfold blendFrom
    split
    · exact Form.holds_endCommand _ _ h
    · split
      · exact Form.holds_endCommand _ _ h
      · extract_lets r u rcd back
        split
        · exact Form.holds_pauseCommand _ _ _ _ _ h
        · have hu : k.Holds u := Form.holds_modL2 Form.onDie_discardClean (Form.holds_putRing _ _ _ h)
          have hback : ∀ v, k.Holds v → k.Holds (back v) := fun v hv => Form.holds_putRing _ _ _ hv
          clear_value back u
          split
          · exact ih _ _ (hback _ hu)
          · have he := Form.onAccess_blendElements c b rcd 16 0 hu
            split
            · rename_i e
              exact Form.holds_endCommand _ _ (hback _ (Form.access_error he e))
            · rename_i e
              exact ih _ _ (hback _ (Form.access_ok he e))

theorem Form.holds_blendResume (c : Command) (words : List Nat) (done skipped : Nat) (h : k.Holds s) :
    k.Holds (s.blendResume c words done skipped) := by
  unfold State.blendResume
  split
  · exact Form.holds_blendFrom _ _ _ _ _ _ _ _ h
  · exact Form.holds_endCommand _ _ h

theorem Form.onOut_execBlend {c : Command} (h : k.Holds s) : k.onOut (execBlend c s) := by
  unfold execBlend
  extract_lets m a slot
  split
  · exact Form.holds_blendResume _ _ _ _ h
  · refine Form.onOut_unless ?_ h
    have hr := Form.onAccess_sourceRead c (pointerAddr m.w3) 64 h
    split
    · rename_i e
      exact Form.holds_endCommand _ _ (Form.access_error hr e)
    · rename_i e
      have hv := Form.onAccess_sourceRead c (pointerAddr m.w4) 64 (Form.access_ok hr e)
      split
      · rename_i e
        exact Form.holds_endCommand _ _ (Form.access_error hv e)
      · rename_i e
        have h2 := Form.access_ok hv e
        split
        · exact Form.holds_endCommand _ _ h2
        · split
          · exact Form.holds_endCommand _ _ h2
          · exact Form.holds_blendResume _ _ _ _ h2

/-! ### The splat unit -/

theorem Form.holds_projectFrom (c : Command) (cam : Nat) (a b : Int) (n i kept bad : Nat) (h : k.Holds s) :
    k.Holds (projectFrom c cam a b n i s kept bad) := by
  induction n generalizing s i kept bad with
  | zero => exact Form.holds_endCommand _ _ h
  | succ n ih =>
    unfold projectFrom
    have hr := Form.onAccess_sourceRead c (a + 64 * i) 64 h
    split
    · rename_i e
      exact Form.holds_endCommand _ _ (Form.access_error hr e)
    · rename_i v u e
      extract_lets out
      have hw := Form.onAccess_destWrite (s := u) c (b + 48 * i) 48 (out.getD 0) (Form.access_ok hr e)
      split
      · rename_i e
        exact Form.holds_endCommand _ _ (Form.access_error hw e)
      · rename_i e
        exact ih _ _ _ (Form.access_ok hw e)

theorem Form.onOut_execSproj {c : Command} (h : k.Holds s) : k.onOut (execSproj c s) := by
  unfold execSproj
  extract_lets m n a b p xs
  clear_value xs p
  refine Form.onOut_unless ?_ h
  have hr := Form.onAccess_sourceRead c p 128 h
  split
  · rename_i e
    exact Form.holds_endCommand _ _ (Form.access_error hr e)
  · rename_i e
    have h1 := Form.access_ok hr e
    split
    · exact Form.holds_endCommand _ _ h1
    · exact Form.holds_projectFrom _ _ _ _ _ _ _ _ h1

theorem Form.onAccess_collectEntries (c : Command) (a : Int) (ntx nty n i : Nat) (acc : List Entry) (h : k.Holds s) :
    k.onAccess Prod.snd (collectEntries c a ntx nty n i s acc) := by
  induction n generalizing s i acc with
  | zero => exact h
  | succ n ih =>
    unfold collectEntries
    have hr := Form.onAccess_sourceRead c (a + 48 * i) 48 h
    split
    · rename_i e
      exact Form.access_error hr e
    · rename_i e
      exact ih _ _ (Form.access_ok hr e)

theorem Form.onOut_execSsort {c : Command} (h : k.Holds s) : k.onOut (execSsort c s) := by
  unfold execSsort
  extract_lets m n cap a b r
  refine Form.onOut_unless ?_ h
  have hr := Form.onAccess_sourceRead c r 16 h
  split
  · rename_i e
    exact Form.holds_endCommand _ _ (Form.access_error hr e)
  · rename_i hd u e
    have h1 := Form.access_ok hr e
    extract_lets ntx nty xs
    split
    · exact Form.holds_endCommand _ _ h1
    · have hc := Form.onAccess_collectEntries (s := u) c a ntx nty n 0 [] h1
      split
      · rename_i e
        exact Form.holds_endCommand _ _ (Form.access_error hc e)
      · rename_i es v e
        have h2 := Form.access_ok hc e
        split
        · exact Form.holds_endCommand _ _ h2
        · extract_lets sorted
          have hw := Form.onAccess_destWrite (s := v) c b (4 * es.length) (packList 32 (sorted.map (fun e => e.2))) h2
          split
          · rename_i e
            exact Form.holds_endCommand _ _ (Form.access_error hw e)
          · rename_i e
            exact Form.holds_complete _ _ (Form.onAccess_destWrite _ _ _ _ (Form.access_ok hw e))

theorem Form.onAccess_readLists (c : Command) (base : Int) (rs : List (Nat × Nat)) (acc : Nat) (h : k.Holds s) :
    k.onAccess Prod.snd (readLists c base rs s acc) := by
  induction rs generalizing s acc with
  | nil => exact h
  | cons r rest ih =>
    unfold readLists
    have hr := Form.onAccess_sourceRead c (base + 4 * r.1) (4 * (r.2 - r.1)) h
    split
    · rename_i e
      exact Form.access_error hr e
    · rename_i e
      exact ih _ (Form.access_ok hr e)

theorem Form.onAccess_readSplatTable (c : Command) (h : k.Holds s) : k.onAccess Prod.snd (s.readSplatTable c) := by
  unfold State.readSplatTable
  extract_lets m base
  split
  · exact h
  · have hr := Form.onAccess_sourceRead c base 16 h
    split
    · rename_i e
      exact Form.access_error hr e
    · rename_i hd u e
      have h1 := Form.access_ok hr e
      extract_lets w hh n
      split
      · exact h1
      · split
        · exact h1
        · have hr2 := Form.onAccess_sourceRead (s := u) c (base + 16) (8 * n) h1
          split
          · rename_i e
            exact Form.access_error hr2 e
          · rename_i tab v e
            have h2 := Form.access_ok hr2 e
            extract_lets ranges
            split
            · exact h2
            · split
              · exact h2
              · split
                · exact h2
                · have hl := Form.onAccess_readLists (s := v) c (pointerAddr m.w3) ranges 0 h2
                  split
                  · rename_i e
                    exact Form.access_error (x := _) hl e
                  · rename_i l x e
                    exact Form.access_ok (x := (l, x)) hl e

theorem Form.onAccess_readSplats (c : Command) (tab : SplatTable) (base : Int) (n j : Nat) (h : k.Holds s) :
    k.onAccess Prod.snd (readSplats c tab base n j s) := by
  induction n generalizing s j with
  | zero => exact h
  | succ n ih =>
    unfold readSplats
    have hr := Form.onAccess_sourceRead c (base + 48 * tab.entry j) 48 h
    split
    · rename_i e
      exact Form.access_error hr e
    · rename_i v u e
      have hs := ih (s := u) (j + 1) (Form.access_ok hr e)
      split
      · rename_i e
        exact Form.access_error (x := _) hs e
      · rename_i all x e
        exact Form.access_ok (x := (all, x)) hs e

theorem Form.onAccess_blendPixels (c : Command) (tab : SplatTable) (tcut : Nat) (img st : Int) (vs : List Nat) (px : List
    (Nat × Nat))
    (h : k.Holds s) : k.onAccess id (blendPixels c tab tcut img st vs px s) := by
  induction px generalizing s with
  | nil => exact h
  | cons xy rest ih =>
    obtain ⟨x, y⟩ := xy
    unfold blendPixels
    extract_lets p i
    have hw := Form.onAccess_destWrite c (img + 16 * i) 16 (packList 32 [p.r, p.g, p.b, subF oneF32 p.t]) h
    split
    · rename_i e
      exact Form.access_error hw e
    · rename_i u e
      have hw2 := Form.onAccess_destWrite (s := u) c (st + 8 * i) 8 (packList 32 [p.t, p.n]) (Form.access_ok hw e)
      split
      · rename_i e
        exact Form.access_error hw2 e
      · rename_i e
        exact ih (Form.access_ok hw2 e)

theorem Form.onAccess_blendTiles (c : Command) (tab : SplatTable) (tcut : Nat) (rcds img st : Int) (n i : Nat) (h : k.Holds s) :
    k.onAccess id (blendTiles c tab tcut rcds img st n i s) := by
  induction n generalizing s i with
  | zero => exact h
  | succ n ih =>
    unfold blendTiles
    extract_lets r
    have hr := Form.onAccess_readSplats c tab rcds (r.2 - r.1) r.1 h
    split
    · rename_i e
      exact Form.access_error hr e
    · rename_i vs u e
      have hp := Form.onAccess_blendPixels (s := u) c tab tcut img st vs (tab.pixels i) (Form.access_ok hr e)
      split
      · rename_i e
        exact Form.access_error hp e
      · rename_i e
        exact ih _ (Form.access_ok hp e)

theorem Form.onOut_execSblend {c : Command} (h : k.Holds s) : k.onOut (execSblend c s) := by
  unfold execSblend
  extract_lets m cut tcut
  refine Form.onOut_unless ?_ h
  have hr := Form.onAccess_readSplatTable c h
  split
  · rename_i e
    exact Form.holds_endCommand _ _ (Form.access_error hr e)
  · rename_i e
    have h1 := Form.access_ok hr e
    extract_lets area xs
    split
    · exact Form.holds_endCommand _ _ h1
    · exact Form.holds_complete _ _ (Form.onAccess_blendTiles _ _ _ _ _ _ _ _ h1)

theorem Form.onAccess_readTiles (c : Command) (tab : SplatTable) (rcds : Int) (rs : List (Nat × Nat)) (h : k.Holds s) :
    k.onAccess Prod.snd (readTiles c tab rcds rs s) := by
  induction rs generalizing s with
  | nil => exact h
  | cons r rest ih =>
    unfold readTiles
    have hr := Form.onAccess_readSplats c tab rcds (r.2 - r.1) r.1 h
    split
    · rename_i e
      exact Form.access_error hr e
    · rename_i vs u e
      have hs := ih (s := u) (Form.access_ok hr e)
      split
      · rename_i e
        exact Form.access_error (x := _) hs e
      · rename_i all x e
        exact Form.access_ok (x := (all, x)) hs e

theorem Form.onAccess_imageGradients (c : Command) (tab : SplatTable) (st grad : Int) (tiles : List (List Nat)) (n i : Nat)
    (acc : List (Nat × Gradient)) (h : k.Holds s) : k.onAccess Prod.snd (imageGradients c tab st grad tiles n i s acc) := by
  induction n generalizing s i acc with
  | zero => exact h
  | succ n ih =>
    unfold imageGradients
    have hp := Form.onAccess_sourceRead c (st + 8 * i) 8 h
    dsimp only
    split
    · rename_i e
      exact Form.access_error hp e
    · rename_i p u e
      have hg := Form.onAccess_sourceRead (s := u) c (grad + 16 * i) 16 (Form.access_ok hp e)
      split
      · rename_i e
        exact Form.access_error hg e
      · rename_i e
        exact ih _ _ (Form.access_ok hg e)

theorem Form.onAccess_writeGradients (c : Command) (out : Int) (acc : List (Nat × Gradient)) (n j : Nat) (h : k.Holds s) :
    k.onAccess id (writeGradients c out acc n j s) := by
  induction n generalizing s j with
  | zero => exact h
  | succ n ih =>
    unfold writeGradients
    have hw := Form.onAccess_destWrite c (out + 48 * j) 48
      (packList 32 (((acc.find? (fun p => p.1 == j)).map (fun p => p.2)).getD [])) h
    split
    · rename_i e
      exact Form.access_error hw e
    · rename_i e
      exact ih _ (Form.access_ok hw e)

theorem Form.onAccess_writeRanges (c : Command) (out : Int) (acc : List (Nat × Gradient)) (rs : List (Nat × Nat)) (h :
    k.Holds s) :
    k.onAccess id (writeRanges c out acc rs s) := by
  induction rs generalizing s with
  | nil => exact h
  | cons r rest ih =>
    unfold writeRanges
    have hw := Form.onAccess_writeGradients c out acc (r.2 - r.1) r.1 h
    split
    · rename_i e
      exact Form.access_error hw e
    · rename_i e
      exact ih (Form.access_ok hw e)

theorem Form.onOut_execSbwd {c : Command} (h : k.Holds s) : k.onOut (execSbwd c s) := by
  unfold execSbwd
  extract_lets m
  refine Form.onOut_unless ?_ h
  have hr := Form.onAccess_readSplatTable c h
  split
  · rename_i e
    exact Form.holds_endCommand _ _ (Form.access_error hr e)
  · rename_i tab u e
    have h1 := Form.access_ok hr e
    extract_lets area xs
    split
    · exact Form.holds_endCommand _ _ h1
    · have ht := Form.onAccess_readTiles (s := u) c tab (pointerAddr m.w4) tab.ranges h1
      split
      · rename_i e
        exact Form.holds_endCommand _ _ (Form.access_error ht e)
      · rename_i tiles v e
        have hi := Form.onAccess_imageGradients (s := v) c tab (pointerAddr m.w5) (pointerAddr m.w6) tiles area 0 []
          (Form.access_ok ht e)
        split
        · rename_i e
          exact Form.holds_endCommand _ _ (Form.access_error hi e)
        · rename_i e
          exact Form.holds_complete _ _ (Form.onAccess_writeRanges _ _ _ _ (Form.access_ok hi e))

end Sys2Proof.Machine

/-! Save images of groups keep the form (07 R164; 12 R281; 13 R303 to R307). -/
namespace Sys2Proof.Machine
open Sys2Proof Sys2Proof.Claims

variable {k : Form} {s t : State}

theorem Form.holds_poolTake {size v : Nat} (h : k.Holds s) (e : s.poolTake size = some (v, t)) : k.Holds t := by
  unfold State.poolTake at e
  dsimp only at e
  split at e
  · obtain ⟨-, rfl⟩ := Prod.mk.inj (Option.some.inj e)
    exact h
  · cases e

theorem Form.holds_poolGive (bases : List Nat) (h : k.Holds s) : k.Holds (s.poolGive bases) := h

theorem Form.holds_writeParts (base : Nat) (parts : List (Nat × Nat × Nat)) (h : k.Holds s) : k.Holds (s.writeParts base parts) :=
  Form.holds_foldl (fun _ _ _ hu => Form.holds_physWrite _ _ _ hu) h

theorem Form.onMem_copyRange {dst : List Host.Cell} (src : List Host.Cell) (a b n : Nat) (h : k.onMem dst) :
    k.onMem (copyRange src dst a b n) :=
  Form.onMem_foldl_writeByte (fun c : Host.Cell => c.1) (fun c => c.2) _ (Form.onMem_filter _ h)

theorem Form.holds_writeCoreImage (l : Launch) (gi : Nat) (g : Group) (c : CoreId) (base : Nat) (h : k.Holds s) :
    k.Holds (s.writeCoreImage l gi g c base) :=
  Form.holds_writeParts _ _ (Form.holds_writeParts _ _ (Form.holds_writeParts _ _
    (Form.holds_setMem (s := s) (Form.onMem_copyRange _ _ _ _ h.1.1) h)))

theorem Form.holds_settleCore (c : CoreId) (h : k.Holds s) : k.Holds (s.settleCore c) :=
  Form.holds_modL1 (Form.onCore_of_l1 rfl) h

theorem Form.holds_leaveCore (c : CoreId) (h : k.Holds s) : k.Holds (s.leaveCore c) :=
  Form.holds_modL1 (Form.onCore_of_l1 rfl)
    (Form.holds_foldl (fun _ _ _ hu => Form.holds_freeHopSlot _ _ (Form.holds_dropLease _ _ hu)) h)

theorem Form.holds_sendReports (launch : Nat) (h : k.Holds s) : k.Holds (s.sendReports launch) :=
  Form.holds_foldl (fun _ _ _ hu => Form.holds_foldl (fun _ _ _ hv => Form.holds_reportBarrier _ _ hv) hu) h

theorem Form.holds_saveCores {l : Launch} {gi : Nat} {g : Group} {cs : List CoreId} {v : List (CoreId × Nat)} (h : k.Holds s)
    (e : saveCores l gi g cs s = some (v, t)) : k.Holds t := by
  induction cs generalizing s t v with
  | nil => cases e; exact h
  | cons c cs ih =>
    unfold saveCores at e
    split at e
    · cases e
    · rename_i hp
      split at e
      · cases e
      · rename_i hs
        cases e
        exact ih (Form.holds_leaveCore _ (Form.holds_writeCoreImage _ _ _ _ _ (Form.holds_poolTake h hp))) hs

theorem Form.holds_saveGroup {l : Launch} {gi : Nat} {g : Group} (h : k.Holds s) (e : s.saveGroup l gi g = some t) :
    k.Holds t := by
  unfold State.saveGroup at e
  extract_lets cores s1 s2 s3 at e
  have h3 : k.Holds s3 :=
    Form.holds_foldl (fun _ _ _ hu => Form.holds_writeBackAll _ hu)
      (Form.holds_foldl (fun _ _ _ hu => Form.holds_settleCore _ hu) (Form.holds_sendReports _ h))
  split at e
  · cases e
  · rename_i hs
    cases e
    exact Form.holds_modGroup _ _ _ (Form.holds_saveCores h3 hs)

theorem Form.holds_setInboxes (c : CoreId) (inbox : Word) (h : k.Holds s) : k.Holds (s.setInboxes c inbox) :=
  Form.holds_foldl (fun _ _ _ hu => Form.holds_putRing _ _ _ (Form.holds_rejectUnread _ _ hu)) h

theorem Form.holds_restoreCtxLease (c : CoreId) (x : CtxId) (y : Ctx) (launch : Nat) (leased : Bool) (off : Nat) (h : k.Holds s) :
    k.Holds (s.restoreCtxLease c x y launch leased off).2.1 := by
  unfold State.restoreCtxLease
  dsimp only
  split
  · exact h
  · split
    · exact h
    · split
      · exact h
      · split
        · exact h
        · exact Form.holds_restoreLease _ _ h

theorem Form.holds_restoreCtxs (l : Launch) (p : Placement) (w : List (Nat × Word)) (c : CoreId) (leased : List CtxId)
    (base : Nat)
    (xs : List CtxId) (off : Nat) (h : k.Holds s) : k.Holds (restoreCtxs l p w c leased base xs s off) := by
  induction xs generalizing s off with
  | nil => exact h
  | cons x xs ih =>
    unfold restoreCtxs
    extract_lets here depth img ids src1 src2 y r phases u
    clear_value y
    have hr : k.Holds r.2.1 := Form.holds_restoreCtxLease _ _ _ _ _ _ h
    refine ih _ (Form.holds_startAt _ _ _ ?_)
    simp only [u]
    clear_value r
    split
    · exact hr
    · split
      · exact Form.holds_foldl (fun _ _ _ hv => Form.holds_putBarrier _ hv) hr
      · exact hr

theorem Form.holds_restoreBarriers (l : Launch) (g : Group) (gi : Nat) (c : CoreId) (base : Nat) (h : k.Holds s) :
    k.Holds (s.restoreBarriers l g gi c base) := by
  refine Form.holds_foldl (fun b _ u hu => ?_) h
  split
  · exact hu
  · exact Form.holds_putBarrier _ hu

theorem Form.holds_noteUse (arrival : Nat) (c : CoreId) (h : k.Holds s) : k.Holds (s.noteUse arrival c) := h

theorem Form.holds_restoreCore (l : Launch) (gi : Nat) (g : Group) (c : CoreId) (base : Nat) (h : k.Holds s) :
    k.Holds (s.restoreCore l gi g c base) := by
  unfold State.restoreCore
  extract_lets p w mask off s0 s1 s2 s3 s4 s5
  have h1 : k.Holds s1 := by
    simp only [s1]
    split
    · exact Form.holds_setInboxes _ _ (Form.holds_noteUse _ _ h)
    · exact Form.holds_noteUse _ _ h
  have h2 : k.Holds s2 := Form.holds_foldl (fun _ _ _ hu => Form.holds_putRing _ _ _ hu) h1
  have h3 : k.Holds s3 := Form.holds_setLmem (s := s2) (Form.onMem_copyRange _ _ _ _ h2.1.2.1) h2
  have h4 : k.Holds s4 := Form.holds_modCore (fun _ => rfl) (Form.holds_restoreBarriers _ _ _ _ _ h3)
  exact Form.holds_acquireSteps _ _ (Form.holds_restoreCtxs _ _ _ _ _ _ _ _ h4)

theorem Form.holds_restoreGroup (l : Launch) (gi : Nat) (g : Group) (images : List (CoreId × Nat)) (h : k.Holds s) :
    k.Holds (s.restoreGroup l gi g images) := by
  unfold State.restoreGroup
  split
  · exact Form.holds_schedule _ (Form.holds_report _ h)
  · exact Form.holds_modGroup _ _ _ (Form.holds_poolGive _
      (Form.holds_foldl (fun _ _ _ hu => Form.holds_restoreCore _ _ _ _ _ hu) h))

theorem Form.onOut_execGroupRestore {arrival group : Nat} (h : k.Holds s) : k.onOut (execGroupRestore arrival group s) := by
  unfold execGroupRestore
  dsimp only [Form.onOut]
  split
  · exact h
  · split
    · split
      · exact Form.holds_restoreGroup _ _ _ _ h
      · exact Form.holds_restoreGroup _ _ _ _ h
      · exact h
    · exact h

end Sys2Proof.Machine

/-! Launch records and their acceptance keep the form (12 R265 to R276; 16 R386). -/
namespace Sys2Proof.Machine
open Sys2Proof Sys2Proof.Claims

variable {k : Form} {s t : State}

theorem Form.holds_homeRead {domain : BitVec 16} {need va n v : Nat} (h : k.Holds s)
    (e : s.homeRead domain need va n = .ok (v, t)) :
    k.Holds t := by
  unfold State.homeRead at e
  split at e
  · split at e
    · cases e
    · split at e
      · cases e
      · rename_i l u hl
        have h1 := Form.holds_homeTranslate h hl
        have hg := Form.onGrain_leaf va (Form.onLeaf_homeTranslate h hl)
        dsimp only at e
        split at e
        · split at e
          · cases e
          · split at e
            · obtain ⟨-, rfl⟩ := Prod.mk.inj (Except.ok.inj e)
              exact h1
            · cases e
        · split at e
          · rename_i hf
            obtain ⟨-, rfl⟩ := Prod.mk.inj (Except.ok.inj e)
            exact Form.holds_homeFill h1 hf hg
          · cases e
  · cases e

theorem Form.holds_homeSpan {domain : BitVec 16} {va n v : Nat} (h : k.Holds s)
    (e : s.homeSpan domain va n = .ok (v, t)) : k.Holds t :=
  Form.holds_spanRead (fun _ _ _ _ _ hu hr => Form.holds_homeRead hu hr) h e

theorem Form.holds_reserveGroup (arrival gi x0 y0 : Nat) (h : k.Holds s) : k.Holds (s.reserveGroup arrival gi x0 y0) := by
  unfold State.reserveGroup
  extract_lets u
  have hu : k.Holds u := Form.holds_modGroup _ _ _ h
  split
  · exact hu
  · split
    · exact hu
    · exact Form.holds_foldl (fun _ _ _ hv => Form.holds_modCore (fun _ => rfl) hv) hu

theorem Form.holds_tryPlace {arrival ep gi : Nat} {g : Group} {x0 y0 : Nat} (h : k.Holds s)
    (e : s.tryPlace arrival ep gi g x0 y0 = some t) : k.Holds t := by
  unfold State.tryPlace at e
  dsimp only at e
  split at e
  · split at e
    · cases e
      exact Form.holds_reserveGroup _ _ _ _ h
    · cases e
  · cases e

theorem Form.holds_placeGroup {arrival ep gi : Nat} (h : k.Holds s) (e : s.placeGroup arrival ep gi = some t) : k.Holds t := by
  unfold State.placeGroup at e
  split at e
  · cases e
  · split at e
    · cases e
    · split at e
      · obtain ⟨p, _, hp⟩ := List.exists_of_findSome?_eq_some e
        exact Form.holds_tryPlace h hp
      · exact Form.holds_tryPlace h e
      · cases e

theorem Form.holds_placeGroups {arrival ep : Nat} {all : Bool} {gs v : List Nat} (h : k.Holds s)
    (e : State.placeGroups arrival ep all gs s = some (v, t)) : k.Holds t := by
  induction gs generalizing s t v with
  | nil => cases e; exact h
  | cons gi rest ih =>
    unfold State.placeGroups at e
    split at e
    · rename_i hp
      obtain ⟨r, hr, he⟩ := Option.map_eq_some_iff.mp e
      cases he
      exact ih (Form.holds_placeGroup h hp) hr
    · split at e
      · cases e
      · exact ih h e

theorem Form.holds_readArm {r a' : Record} {domain : BitVec 16} {a : Nat} (h : k.Holds s)
    (e : s.readArm r domain a = some (a', t)) :
    k.Holds t := by
  unfold State.readArm at e
  split at e
  · cases e
  · rename_i hr
    split at e
    · split at e
      · cases e
      · cases e
        exact Form.holds_homeSpan h hr
    · cases e

theorem Form.holds_readArms {r : Record} {domain : BitVec 16} {v : Record × Option Record} (h : k.Holds s)
    (e : s.readArms r domain = some (v, t)) : k.Holds t := by
  unfold State.readArms at e
  split at e
  · cases e
  · rename_i ha
    have h1 := Form.holds_readArm h ha
    split at e
    · cases e
      exact h1
    · split at e
      · rename_i hb
        cases e
        exact Form.holds_readArm h1 hb
      · cases e

theorem Form.holds_dropLaunch (arrival : Nat) (h : k.Holds s) : k.Holds (s.dropLaunch arrival) := h

theorem Form.holds_increment (arrival : Nat) (c : Counter) (h : k.Holds s) : k.Holds (s.increment arrival c) := by
  unfold State.increment
  dsimp only
  split
  · exact Form.holds_report _ h
  · split
    · rename_i hp
      exact Form.holds_mark _ _ _ (Form.holds_physWrite _ _ _ (Form.holds_atHome h hp))
    · exact Form.holds_report _ h

theorem Form.holds_makeEligible (arrival : Nat) (h : k.Holds s) : k.Holds (s.makeEligible arrival) :=
  Form.holds_schedule _ (Form.holds_modLaunch _ _ h)

theorem Form.holds_depTest {r : Record} {b : Bool} (h : k.Holds s) (e : s.depTest r = some (b, t)) : k.Holds t := by
  unfold State.depTest at e
  split at e
  · cases e
    exact h
  · split at e
    · rename_i hr
      cases e
      exact Form.holds_homeSpan h hr
    · cases e

theorem Form.holds_testPlain (l : Launch) (h : k.Holds s) : k.Holds (s.testPlain l) := by
  unfold State.testPlain
  split
  · exact Form.holds_report _ (Form.holds_dropLaunch _ h)
  · rename_i e
    exact Form.holds_makeEligible _ (Form.holds_depTest h e)
  · rename_i e
    exact Form.holds_deferTurn _ (Form.holds_depTest h e)

theorem Form.holds_chooseArm (l : Launch) (h : k.Holds s) : k.Holds (s.chooseArm l) := by
  unfold State.chooseArm
  dsimp only
  split
  · rename_i hr _
    have h1 := Form.holds_homeSpan h hr
    split
    · exact Form.holds_foldl (fun _ _ _ hu => Form.holds_increment _ _ hu) (Form.holds_dropLaunch _ h1)
    · exact Form.holds_testPlain _ (Form.holds_modLaunch _ _ h1)
  · exact Form.holds_report _ (Form.holds_dropLaunch _ h)

theorem Form.holds_testLaunch (l : Launch) (h : k.Holds s) : k.Holds (s.testLaunch l) := by
  unfold State.testLaunch
  split
  · split
    · exact Form.holds_report _ (Form.holds_dropLaunch _ h)
    · rename_i e
      exact Form.holds_chooseArm _ (Form.holds_depTest h e)
    · rename_i e
      exact Form.holds_deferTurn _ (Form.holds_depTest h e)
  · exact Form.holds_testPlain _ h

theorem Form.holds_accept {ls : List Launch} {n : Nat} (h : k.Holds s) : k.Holds { s with launches := ls, nextArrival := n } := h

theorem Form.holds_offer (v : Nat) (domain : BitVec 16) (pmax : Nat) (h : k.Holds s) : k.Holds (s.offer v domain pmax).2 := by
  unfold State.offer
  split
  · exact h
  · extract_lets arms
    rename_i r _
    have harms : ∀ two u, arms = some (two, u) → k.Holds u := by
      intro two u e
      simp only [arms] at e
      split at e
      · obtain ⟨p, hp, he⟩ := Option.map_eq_some_iff.mp e
        cases he
        exact Form.holds_readArms h hp
      · cases e
        exact h
    clear_value arms
    split
    · exact h
    · have hu := harms _ _ rfl
      split
      · exact hu
      · split
        · exact hu
        · exact Form.holds_testLaunch _ (Form.holds_accept hu)

theorem Form.holds_readRecord {a : Word} {v : Nat} (h : k.Holds s) (e : s.readRecord a = .ok (v, t)) : k.Holds t := by
  unfold State.readRecord at e
  split at e
  · cases e
  · exact Form.holds_spanRead (fun _ _ _ _ _ hu hr => Form.holds_load hu hr) h e

theorem Form.onOut_execLaunch {f : SR} (h : k.Holds s) : k.onOut (execLaunch f s) := by
  refine Form.onOut_issue (fun u hu => ?_) h
  dsimp only
  split
  · exact hu
  · have h1 := Form.holds_releaseSteps u.runCore packageScope (Form.holds_drainVector hu)
    refine Form.holds_orTrap (fun r e => ?_) h1
    have h2 := Form.holds_readRecord (v := r.1) (t := r.2) h1 e
    exact Form.holds_wi _ _ (Form.holds_offer _ _ _ h2)

theorem Form.onOut_execHostRingConsume {ring : Fin 16} (h : k.Holds s) : k.onOut (execHostRingConsume ring s) := by
  unfold execHostRingConsume
  dsimp only [Form.onOut]
  split
  · exact h
  · split
    · exact Form.holds_deferTurn _ h
    · split
      · exact Form.holds_changeRing _ _ h
      · rename_i hr
        have h1 := fun v d p => Form.holds_offer v d p (Form.holds_homeSpan h hr)
        split
        · exact Form.holds_changeRing _ _ (h1 _ _ _)
        · exact Form.holds_changeRing _ _ (h1 _ _ _)

theorem Form.onOut_execDependenceTest {arrival : Nat} (h : k.Holds s) : k.onOut (execDependenceTest arrival s) := by
  unfold execDependenceTest
  dsimp only [Form.onOut]
  split
  · split
    · exact h
    · exact Form.holds_testLaunch _ h
  · exact h

end Sys2Proof.Machine

/-! Selection, pre-emption and completion of launches keep the form (12 R277 to R284; 13 R303, R304). -/
namespace Sys2Proof.Machine
open Sys2Proof Sys2Proof.Claims

variable {k : Form} {s t : State}

theorem Form.holds_needSelection (h : k.Holds s) : k.Holds s.needSelection := by
  unfold State.needSelection
  split
  · exact h
  · exact Form.holds_schedule _ h

theorem Form.holds_laterSelection (h : k.Holds s) : k.Holds s.laterSelection := by
  unfold State.laterSelection
  split
  · exact h
  · exact Form.holds_deferTurn _ h

theorem Form.holds_startCore (l : Launch) (g : Group) (c : CoreId) (h : k.Holds s) : k.Holds (s.startCore l g c) := by
  unfold State.startCore
  extract_lets s1 s2 s3
  have h3 : k.Holds s3 := Form.holds_modCore (fun _ => rfl)
    (Form.holds_foldl (fun _ _ _ hu => Form.holds_putRing _ _ _ hu) (Form.holds_setInboxes _ _ (Form.holds_noteUse _ _ h)))
  clear_value s3
  split
  · exact Form.holds_acquireSteps _ _ (Form.holds_startAt _ _ _ h3)
  · exact h3

theorem Form.holds_startGroup (arrival gi : Nat) (h : k.Holds s) : k.Holds (s.startGroup arrival gi) := by
  unfold State.startGroup
  split
  · exact h
  · split
    · exact h
    · split
      · exact Form.holds_schedule _ h
      · exact Form.holds_foldl (fun _ _ _ hu => Form.holds_startCore _ _ _ hu) h

theorem Form.holds_stopUnits (us : List Unit_) (h : k.Holds s) : k.Holds (s.stopUnits us) :=
  Form.holds_foldl (fun _ _ _ hu => Form.holds_foldl (fun _ _ _ hv => Form.holds_modGroup _ _ _ hv) hu) h

theorem Form.holds_considerPreemption (l : Launch) (h : k.Holds s) : k.Holds (s.considerPreemption l) := by
  unfold State.considerPreemption
  dsimp only
  split
  · exact Form.holds_needSelection (Form.holds_stopUnits _ h)
  · exact Form.holds_laterSelection h

theorem Form.holds_modActive (cores : List CoreId) (f : Ctx → Ctx) (h : k.Holds s) : k.Holds (s.modActive cores f) :=
  Form.holds_foldl (fun _ _ _ hu => Form.holds_foldl (fun _ _ _ hv => Form.holds_modCtxAt _ _ _ hv) hu) h

theorem Form.holds_noticeTimers (cores : List CoreId) (h : k.Holds s) : k.Holds (s.noticeTimers cores) := by
  refine Form.holds_foldl (fun _ _ u hu => ?_) h
  split
  · exact Form.holds_schedule _ hu
  · exact hu

theorem Form.holds_progressStop (l : Launch) (gi : Nat) (g : Group) (h : k.Holds s) : k.Holds (s.progressStop l gi g) := by
  unfold State.progressStop
  extract_lets cores runOn u
  have hrun : ∀ v, k.Holds v → k.Holds (runOn v) := fun v hv => Form.holds_modActive _ _ hv
  have hu : k.Holds u := Form.holds_noticeTimers _ (Form.holds_modActive _ _ h)
  clear_value runOn u
  split
  · exact Form.holds_laterSelection h
  · split
    · exact Form.holds_laterSelection (hrun _ h)
    · split
      · split
        · rename_i e
          exact Form.holds_needSelection (Form.holds_saveGroup hu e)
        · exact Form.holds_modLaunch _ _ (hrun _ hu)
      · exact Form.holds_laterSelection hu

theorem Form.onOut_execLaunchSelection (h : k.Holds s) : k.onOut (execLaunchSelection s) := by
  unfold execLaunchSelection
  dsimp only [Form.onOut]
  split
  · exact Form.holds_progressStop _ _ _ h
  · split
    · exact h
    · split
      · rename_i e
        exact Form.holds_needSelection (Form.holds_foldl (fun _ _ _ hu => Form.holds_startGroup _ _ hu)
          (Form.holds_placeGroups h e))
      · exact Form.holds_considerPreemption _ h

theorem Form.onOut_execPreemptionNoticeTimeout {core : CoreId} {ctx : CtxId} (h : k.Holds s) :
    k.onOut (execPreemptionNoticeTimeout core ctx s) := by
  unfold execPreemptionNoticeTimeout
  dsimp only [Form.onOut]
  split
  · exact h
  · split
    · exact Form.holds_needSelection h
    · split
      · exact Form.holds_needSelection (Form.holds_modCtxAt _ _ _ h)
      · exact Form.holds_deferTurn _ h

theorem Form.onOut_execAgingStep (h : k.Holds s) : k.onOut (execAgingStep s) := by
  unfold execAgingStep
  dsimp only [Form.onOut]
  split
  · exact Form.holds_needSelection h
  · exact h

theorem Form.onOut_execOccupancySample (h : k.Holds s) : k.onOut (execOccupancySample s) := h

/-! ### Completion -/

theorem Form.holds_discardInbox (c : CoreId) (n : Nat) (h : k.Holds s) : k.Holds (s.discardInbox c n) :=
  Form.holds_putRing _ _ _ (Form.holds_rejectUnread _ _ h)

theorem Form.holds_discardInboxes (cores : List CoreId) (h : k.Holds s) : k.Holds (s.discardInboxes cores) :=
  Form.holds_foldl (fun _ _ _ hu => Form.holds_foldl (fun _ _ _ hv => Form.holds_discardInbox _ _ hv) hu) h

theorem Form.holds_performEverywhere (h : k.Holds s) : k.Holds s.performEverywhere :=
  Form.holds_foldl (fun _ _ _ hu => Form.holds_writeBackAll _ hu) h

/-- Barrier objects of the dies that are dropped keep the form. -/
theorem Form.holds_filterBars (p : BarObj → Bool) (h : k.Holds s) :
    k.Holds { s with dies := vmap s.dies (fun (d : Die) => { d with bars := d.bars.filter p }) } := by
  refine ⟨h.1, h.2.1, fun d => ?_⟩
  rw [getElem_vmap_fin]
  exact h.2.2 d

theorem Form.holds_freeGroup (l : Launch) (gi : Nat) (g : Group) (h : k.Holds s) : k.Holds (s.freeGroup l gi g) := by
  unfold State.freeGroup
  extract_lets cores s2 s4 inside s5
  have h2 : k.Holds s2 := Form.holds_foldl (fun _ _ _ hu => Form.holds_l1Clear _ hu) (Form.holds_performEverywhere h)
  have h4 : k.Holds s4 := Form.holds_foldl (fun _ _ _ hu => Form.holds_leaveCore _ hu) (Form.holds_discardInboxes _ h2)
  exact Form.holds_modGroup _ _ _ (Form.holds_filterBars _ h4)

theorem Form.holds_finishLaunch (arrival : Nat) (h : k.Holds s) : k.Holds (s.finishLaunch arrival) := by
  unfold State.finishLaunch
  split
  · exact h
  · split
    · split
      · exact Form.holds_deferTurn _ h
      · exact Form.holds_foldl (fun _ _ _ hu => Form.holds_increment _ _ hu) (Form.holds_dropLaunch _ (Form.holds_filterBars _
          (Form.holds_foldl (fun _ _ _ hu => Form.holds_l1Clear _ hu) (Form.holds_performEverywhere h))))
    · exact h

theorem Form.onOut_execGroupCompletion {arrival group : Nat} (h : k.Holds s) : k.onOut (execGroupCompletion arrival group s) := by
  unfold execGroupCompletion
  dsimp only [Form.onOut]
  split
  · exact h
  · split
    · exact h
    · refine iteInduction (motive := k.Holds) (fun _ => h) (fun _ => ?_)
      split
      · exact Form.holds_deferTurn _ h
      · exact Form.holds_needSelection (Form.holds_finishLaunch _ (Form.holds_freeGroup _ _ _ h))

theorem Form.holds_endGroup (arrival gi : Nat) (g : Group) (h : k.Holds s) : k.Holds (s.endGroup arrival gi g) := by
  unfold State.endGroup
  extract_lets u turn
  have hu : k.Holds u := Form.holds_foldl (fun _ _ _ hv => Form.holds_endContext _ _ hv) h
  split
  · exact hu
  · exact Form.holds_schedule _ hu

theorem Form.holds_endSaved (arrival gi : Nat) (g : Group) (images : List (CoreId × Nat)) (h : k.Holds s) :
    k.Holds (s.endSaved arrival gi g images) :=
  Form.holds_modGroup _ _ _ (Form.holds_discardInboxes _ (Form.holds_poolGive _ h))

theorem Form.onOut_execSupervisorEndLaunch {arrival : Nat} (h : k.Holds s) : k.onOut (execSupervisorEndLaunch arrival s) := by
  unfold execSupervisorEndLaunch
  dsimp only [Form.onOut]
  split
  · exact h
  · refine Form.holds_needSelection (Form.holds_finishLaunch _ (Form.holds_foldl (fun p _ u hu => ?_)
    (Form.holds_voidCounters _ h)))
    split
    · exact Form.holds_modGroup _ _ _ hu
    · exact Form.holds_endSaved _ _ _ _ hu
    · exact Form.holds_endGroup _ _ _ (Form.holds_modGroup _ _ _ (Form.holds_poolGive _ hu))
    · exact Form.holds_endGroup _ _ _ hu
    · exact Form.holds_endGroup _ _ _ hu
    · exact hu

end Sys2Proof.Machine

/-! The L2s and the Flue by themselves, and the clock's events, keep the form (01 R16 to R18; 06 R129; 07 R146, R154). -/
namespace Sys2Proof.Machine
open Sys2Proof Sys2Proof.Claims

variable {k : Form} {s t : State}

theorem Form.holds_setFlue {fl : List Packet} (h : k.Holds s) : k.Holds { s with flue := fl } := h

theorem Form.holds_inject (d d' : DieId) {ln : L2Line} (hl : k.onGrain ln.va ln.size) (h : k.Holds s) :
    k.Holds (s.inject d d' ln) :=
  Form.holds_putLine d (ln := { ln with valid := ln.valid ||| ln.dirty, dirty := 0, writers := [] }) hl
    (Form.holds_foldl (fun _ _ _ hu => Form.holds_schedule _ hu) (Form.holds_setFlue h))

theorem Form.onOut_execL2DirtyWriteback {die : DieId} {va : Nat} (h : k.Holds s) : k.onOut (execL2DirtyWriteback die va s) := by
  unfold execL2DirtyWriteback
  dsimp only [Form.onOut]
  split
  · exact h
  · rename_i e
    have hl := Form.onGrain_line h e
    split
    · exact h
    · split
      · exact Form.holds_writeBack _ hl h
      · exact Form.holds_inject _ _ hl (Form.holds_chargeLine _ _ h)

theorem Form.holds_retireMarker (d : DieId) (va : Nat) (h : k.Holds s) : k.Holds (s.retireMarker d va) := by
  unfold State.retireMarker
  split
  · exact h
  · exact Form.holds_modDie (fun _ => ⟨rfl, rfl⟩) (Form.holds_writeBackAll _ h)

theorem Form.onOut_execL2Eviction {die : DieId} {va : Nat} (h : k.Holds s) : k.onOut (execL2Eviction die va s) := by
  unfold execL2Eviction
  dsimp only [Form.onOut]
  split
  · exact h
  · rename_i e
    refine Form.holds_dropLine _ _ ?_
    split
    · exact Form.holds_retireMarker _ _ h
    · exact Form.holds_writeBack _ (Form.onGrain_line h e) h

theorem Form.onOut_execFluePacketAging {idx : Nat} (h : k.Holds s) : k.onOut (execFluePacketAging idx s) := by
  unfold execFluePacketAging
  dsimp only [Form.onOut]
  split
  · exact h
  · split <;> exact h

theorem Form.onOut_execFluePacketArrival {idx : Nat} (h : k.Holds s) : k.onOut (execFluePacketArrival idx s) := by
  unfold execFluePacketArrival
  dsimp only [Form.onOut]
  split
  · exact h
  · split
    · exact h
    · split
      · exact Form.holds_setFlue (Form.holds_deliver _ h)
      · exact Form.holds_schedule _ (Form.holds_setFlue h)

theorem Form.onOut_execFlueInjectionWindow (h : k.Holds s) : k.onOut (execFlueInjectionWindow s) := by
  refine ⟨h.1, h.2.1, fun d => ?_⟩
  simp only [Fin.getElem_fin, Vector.getElem_ofFn]
  exact h.2.2 d

theorem Form.holds_raiseClock (h : k.Holds s) : k.Holds s.raiseClock := h

end Sys2Proof.Machine

/-! Module reset, boot, attestation, the host's registers and the link keep the form (14 R309 to R312, R320, R321, R460). -/
namespace Sys2Proof.Machine
open Sys2Proof Sys2Proof.Claims

variable {k : Form} {s t : State}

theorem Form.onMem_nil : k.onMem [] := by
  cases k with
  | memories => rfl
  | lines => trivial

theorem Form.onCore_reset : k.onCore Core.reset := fun _ hl => absurd hl List.not_mem_nil

theorem Form.onDie_reset : k.onDie Die.reset :=
  ⟨fun _ hl => absurd hl List.not_mem_nil, fun _ he => absurd he List.not_mem_nil⟩

theorem Form.onOut_execModuleReset : k.onOut (execModuleReset s) := by
  refine ⟨⟨Form.onMem_nil, Form.onMem_nil, Form.onMem_nil, Form.onMem_nil⟩, fun c => ?_, fun d => ?_⟩
  · exact (Vector.getElem_replicate c.isLt).symm ▸ Form.onCore_reset
  · exact (Vector.getElem_replicate d.isLt).symm ▸ Form.onDie_reset

theorem Form.holds_bootError (code : Nat) (h : k.Holds s) : k.Holds (s.bootError code) := h

theorem Form.holds_startFirmware (entry : Word) (d : DieId) (h : k.Holds s) : k.Holds (s.startFirmware entry d) :=
  Form.holds_startAt _ _ _ (Form.holds_modDie (fun _ => ⟨rfl, rfl⟩) h)

/-- A boot block with the same staging SRAM keeps the form. -/
theorem Form.holds_setBoot {b : Boot} {p : Power} (hb : b.staging = s.boot.staging) (h : k.Holds s) :
    k.Holds { s with boot := b, power := p } :=
  ⟨⟨h.1.1, h.1.2.1, h.1.2.2.1, hb ▸ h.1.2.2.2⟩, h.2⟩

theorem Form.holds_load' (i : Config.ImageHeader) (image : List Byte) (h : k.Holds s) : k.Holds (s.load' i image) :=
  Form.holds_foldl (fun _ _ _ hu => Form.holds_startFirmware _ _ hu) (Form.holds_setBoot rfl h)

theorem Form.holds_bootGo (h : k.Holds s) : k.Holds s.bootGo := by
  unfold State.bootGo
  extract_lets i image
  split
  · exact h
  · split
    · exact Form.holds_bootError _ h
    · split
      · exact Form.holds_bootError _ h
      · split
        · exact Form.holds_bootError _ h
        · split
          · exact Form.holds_bootError _ h
          · exact Form.holds_load' _ _ h

theorem Form.holds_attestGo (h : k.Holds s) : k.Holds s.attestGo := by
  unfold State.attestGo
  extract_lets b nonce leaf body
  split
  · exact h
  · split <;> exact h

theorem Form.holds_setStaging {m : List Host.Cell} (hm : k.onMem m) (h : k.Holds s) :
    k.Holds { s with boot := { s.boot with staging := m } } :=
  ⟨⟨h.1.1, h.1.2.1, h.1.2.2.1, hm⟩, h.2⟩

theorem Form.holds_setNonce {n : BitVec 256} (h : k.Holds s) : k.Holds { s with boot := { s.boot with nonce := n } } := h

theorem Form.onMem_stage {m : List Host.Cell} (off : Nat) (bs : List Byte) (h : k.onMem m) : k.onMem (stage m off bs) := by
  induction bs generalizing m off with
  | nil => exact h
  | cons b bs ih =>
    unfold stage
    split
    · exact ih _ (Form.onMem_writeByte _ _ h)
    · exact h

theorem Form.holds_bar0Write (off v : Nat) (h : k.Holds s) : k.Holds (s.bar0Write off v) := by
  have hb : k.Holds (if v % 2 == 1 then s.bootGo else s) := iteInduction (fun _ => Form.holds_bootGo h) (fun _ => h)
  unfold State.bar0Write
  split
  · exact iteInduction (fun _ => Form.holds_writeRing _ _ _ h) (fun _ => h)
  · refine iteInduction (motive := k.Holds) (fun _ => ?_) (fun _ => ?_)
    · exact iteInduction (motive := k.Holds) (fun _ => Form.holds_attestGo hb) (fun _ => hb)
    · refine iteInduction (motive := k.Holds) (fun _ => ?_) (fun _ => ?_)
      · exact Form.holds_setNonce h
      · refine iteInduction (motive := k.Holds) (fun _ => ?_) (fun _ => h)
        exact Form.holds_setStaging (Form.onMem_writeN _ _ _ h.1.2.2.2) h

theorem Form.holds_flushHost (p : L2Line → Bool) (h : k.Holds s) : k.Holds (s.flushHost p) := by
  refine Form.holds_foldl (fun i _ u hu => ?_) h
  refine Form.holds_foldl (fun ln hln v hv => ?_) hu
  exact Form.holds_writeBack _ ((hu.2.2 _).1 ln (List.mem_of_mem_filter (List.mem_of_mem_filter hln))) hv

theorem Form.onCore_filterBoth {x : Core} (p : L1Line → Bool) (h : k.onCore x) :
    k.onCore { x with l1 := x.l1.filter p, icache := x.icache.filter p } :=
  fun ln hln => h ln (List.mem_of_mem_filter hln)

theorem Form.holds_setLink {a b : Bool} (h : k.Holds s) : k.Holds { s with linkUp := a, cxl := b } := h

theorem Form.holds_uncacheHost (keep : L1Line → Bool) (h : k.Holds s) : k.Holds { s with
    dies := vmap s.dies (fun d => { d with l2 := d.l2.filter (fun ln => ln.pa < Config.hostPhys) })
    cores := vmap s.cores (fun x => { x with l1 := x.l1.filter keep, icache := x.icache.filter keep }) } :=
  Form.holds_mapAll (fun _ hx => Form.onCore_filterBoth _ hx) (fun _ hx => Form.onDie_filter _ hx) h

theorem Form.onOut_execLinkNegotiation {cxl : Bool} (h : k.Holds s) : k.onOut (execLinkNegotiation cxl s) := by
  have hu := Form.holds_setLink (a := true) (b := cxl) (Form.holds_flushHost (fun _ => true) h)
  exact iteInduction (motive := k.Holds) (fun _ => hu) (fun _ => Form.holds_uncacheHost _ hu)

theorem Form.onOut_execHostSnoop {addr : Nat} (h : k.Holds s) : k.onOut (execHostSnoop addr s) := Form.holds_flushHost _ h

end Sys2Proof.Machine

/-! The aperture, scale-out, failures and power keep the form (14 R311 to R316, R322, R324). -/
namespace Sys2Proof.Machine
open Sys2Proof Sys2Proof.Claims

variable {k : Form} {s t : State}

/-! ### The aperture -/

theorem Form.holds_hostFault (off : Nat) (h : k.Holds s) : k.Holds (s.hostFault off) := h

theorem Form.holds_noteHome (va : Nat) (h : k.Holds s) : k.Holds (s.noteHome va) := by
  unfold State.noteHome
  split
  · split
    · exact Form.holds_dropBad _ _ (Form.holds_report _ h)
    · exact h
  · exact h

theorem Form.holds_answer {l : List (Option (List Byte))} (h : k.Holds s) : k.Holds { s with hostReads := l } := h

theorem Form.onOut_execHostApertureRead {off len : Nat} (h : k.Holds s) : k.onOut (execHostApertureRead off len s) := by
  unfold execHostApertureRead
  dsimp only [Form.onOut]
  split
  · exact Form.holds_answer (Form.holds_hostFault _ h)
  · split
    · rename_i e
      exact Form.holds_answer (Form.holds_homeSpan h e)
    · exact Form.holds_answer (Form.holds_noteHome _ h)
    · exact Form.holds_answer (Form.holds_hostFault _ h)

/-- The grains of a leaf from the one of an address up lie on their boundaries. -/
theorem Form.onGrain_leafAt {l : Leaf} (va i : Nat)
    (h : k.onLeaf l) : k.onGrain (va / l.grain * l.grain + i * l.grain) l.grain := by
  cases k with
  | memories => trivial
  | lines =>
    simp only [Form.onLeaf, leafOk, Bool.and_eq_true] at h
    simp only [Form.onGrain, grainOk, h.1.1, ← Nat.add_mul, Nat.mul_mod_left, beq_self_eq_true, Bool.and_self]

theorem Form.holds_hostStore {l : Leaf} (va : Nat) (bytes : List Byte) (hl : k.onLeaf l) (h : k.Holds s) :
    k.Holds (s.hostStore l va bytes) := by
  refine Form.holds_physWrite _ _ _ (Form.holds_foldl (fun i _ u hu => ?_) h)
  dsimp only
  split
  · split
    · rename_i e
      exact Form.holds_homeFill hu e (Form.onGrain_leafAt _ _ hl)
    · exact Form.holds_report _ hu
  · exact hu

theorem Form.onLeaf_hostLeaf {va : Nat} {l : Leaf} (h : k.Holds s) (e : s.hostLeaf va = some l) : k.onLeaf l := by
  unfold State.hostLeaf at e
  split at e
  · split at e
    · split at e
      · rename_i hl
        split at e
        · cases e
          exact Form.onLeaf_homeTranslate h hl
        · cases e
      · cases e
    · cases e
  · cases e

theorem Form.holds_holdWrite (off : Nat) (bytes : List Byte) (owner : Bool) (h : k.Holds s) :
    k.Holds (s.holdWrite off bytes owner) := by
  unfold State.holdWrite
  dsimp only
  split <;> exact h

theorem Form.holds_hostWrite {off : Nat} {bytes : List Byte} (h : k.Holds s) (e : s.hostWrite off bytes = some t) :
    k.Holds t := by
  unfold State.hostWrite at e
  dsimp only at e
  split at e
  · cases e
    exact Form.holds_hostFault _ h
  · rename_i hl
    split at e
    · cases e
      exact Form.holds_hostStore _ _ (Form.onLeaf_hostLeaf h hl) h
    · split at e
      · cases e
        exact Form.holds_holdWrite _ _ _ h
      · cases e

theorem Form.holds_setPosted {ps : List Posted} (h : k.Holds s) : k.Holds { s with posted := ps } := h

theorem Form.holds_setStaged {ps : List Posted} (off : Nat) (bs : List Byte) (h : k.Holds s) :
    k.Holds { s with posted := ps, boot := { s.boot with staging := stage s.boot.staging off bs } } :=
  Form.holds_setPosted (s := { s with boot := { s.boot with staging := stage s.boot.staging off bs } })
    (Form.holds_setStaging (Form.onMem_stage _ _ h.1.2.2.2) h)

theorem Form.holds_takePosted (fuel : Nat) (h : k.Holds s) : k.Holds (State.takePosted fuel s) := by
  induction fuel generalizing s with
  | zero => exact h
  | succ fuel ih =>
    unfold State.takePosted
    split
    · exact h
    · split
      · exact ih (Form.holds_bar0Write _ _ (Form.holds_setPosted h))
      · exact h
    · split
      · exact ih (Form.holds_setStaged _ _ h)
      · exact h
    · dsimp only
      split
      · rename_i e
        exact ih (Form.holds_hostWrite (Form.holds_setPosted h) e)
      · exact h

theorem Form.holds_drainLink (h : k.Holds s) : k.Holds s.drainLink := Form.holds_takePosted _ h

theorem Form.holds_hostPost (p : Posted) (h : k.Holds s) : k.Holds (s.hostPost p) := Form.holds_drainLink (Form.holds_setPosted h)

theorem Form.holds_setHeld {ws : List HeldWrite} (h : k.Holds s) : k.Holds { s with heldWrites := ws } := h

theorem Form.holds_freeHeld (fuel : Nat) (h : k.Holds s) : k.Holds (State.freeHeld fuel s) := by
  induction fuel generalizing s with
  | zero => exact h
  | succ fuel ih =>
    unfold State.freeHeld
    split
    · exact h
    · dsimp only
      split
      · exact ih (Form.holds_hostFault _ (Form.holds_setHeld h))
      · rename_i hl
        split
        · exact ih (Form.holds_hostStore _ _ (Form.onLeaf_hostLeaf h hl) (Form.holds_setHeld h))
        · split
          · exact h
          · exact Form.holds_report _ (Form.holds_setHeld h)

theorem Form.holds_releaseWrites (h : k.Holds s) : k.Holds s.releaseWrites := Form.holds_drainLink (Form.holds_freeHeld _ h)

theorem Form.holds_denyHeld {ws : List HeldWrite} {b : BellowsRegs} (h : k.Holds s) :
    k.Holds { s with heldWrites := ws, bregs := b } := h

theorem Form.onOut_execHeldHostWriteRelease {idx : Nat} {granted : Bool} (h : k.Holds s) :
    k.onOut (execHeldHostWriteRelease idx granted s) := by
  unfold execHeldHostWriteRelease
  dsimp only [Form.onOut]
  split
  · exact h
  · split
    · exact Form.holds_releaseWrites h
    · exact Form.holds_releaseWrites (Form.holds_denyHeld h)

theorem Form.onOut_execRegisterWrite {addr : Nat} {value : Word} (h : k.Holds s) : k.onOut (execRegisterWrite addr value s) := by
  refine iteInduction (motive := k.Holds) (fun _ => Form.holds_hostPost _ h) (fun _ => ?_)
  split
  · exact Form.holds_fwWrite _ _ _ _ h
  · exact Form.holds_bellowsWrite _ _ h
  · exact h

/-! ### Scale-out -/

theorem Form.holds_serveSource (src cls : Nat) (die : DieId) (inst : Fin 8) (p : Sender) (addr len : Nat) (h : k.Holds s) :
    k.Holds (s.serveSource src cls die inst p addr len) := by
  unfold State.serveSource
  dsimp only
  have hr := fun c => Form.onAccess_sourceRead c addr len h
  split
  · rename_i e
    exact Form.holds_sendFrame _ _ _ _ (Form.access_ok (hr _) e)
  · rename_i e
    exact Form.holds_sendFrame _ _ _ _ (Form.access_error (hr _) e)

theorem Form.holds_deliverFrame {src cls : Nat} {b : FrameBody} (h : k.Holds s) (e : s.deliverFrame src cls b = some t) :
    k.Holds t := by
  unfold State.deliverFrame at e
  split at e
  · exact Form.holds_deliverTo h e
  · dsimp only at e
    split at e
    · rename_i hr
      cases e
      exact Form.holds_putReply h hr
    · cases e
      exact Form.holds_report _ (Form.holds_countMsgErr _ h)
  · cases e
    exact h
  · cases e
    exact Form.holds_serveSource _ _ _ _ _ _ _ h
  · cases e
    exact Form.holds_modAgent _ _ _ h

theorem Form.holds_setFrames {fs : List Frame} (h : k.Holds s) : k.Holds { s with txFrames := fs } := h

theorem Form.holds_ackStream (dst cls n : Nat) (h : k.Holds s) : k.Holds (s.ackStream dst cls n) := Form.holds_setFrames h

theorem Form.holds_acknowledge (f : Frame) (h : k.Holds s) : k.Holds (s.acknowledge f) := by
  unfold State.acknowledge
  split
  · split
    · exact h
    · dsimp only
      split
      · exact Form.holds_setFrames h
      · exact Form.holds_ackStream _ _ _ (Form.holds_setFrames h)
  · exact h

theorem Form.holds_sendAck (src cls n : Nat) (h : k.Holds s) : k.Holds (s.sendAck src cls n) := Form.holds_setFrames h

theorem Form.holds_setRxSeq {r : List (Nat × Nat × Nat)} (h : k.Holds s) : k.Holds { s with rxSeq := r } := h

theorem Form.holds_takeFrame {f : Frame} (h : k.Holds s) (e : s.takeFrame f = some t) : k.Holds t := by
  unfold State.takeFrame at e
  dsimp only at e
  split at e
  · cases e
    exact h
  · split at e
    · cases e
      exact Form.holds_ackStream _ _ _ h
    · split at e
      · cases e
        split
        · exact Form.holds_sendAck _ _ _ h
        · exact h
      · obtain ⟨u, hu, rfl⟩ := Option.map_eq_some_iff.mp e
        exact Form.holds_sendAck _ _ _ (Form.holds_setRxSeq (Form.holds_deliverFrame (Form.holds_acknowledge _ h) hu))

theorem Form.holds_setAgenda {a : List Turn} (h : k.Holds s) : k.Holds { s with agenda := a } := h

theorem Form.onOut_execScaleoutFrameReceive {port : Fin 8} {frame : Frame} (h : k.Holds s) :
    k.onOut (execScaleoutFrameReceive port frame s) := by
  unfold execScaleoutFrameReceive
  extract_lets event best own
  have hown : k.Holds own := by
    simp only [own]
    split
    · rename_i e
      exact Form.holds_takeFrame h e
    · exact Form.holds_deferTurn _ h
  clear_value own best event
  refine iteInduction (motive := k.Holds) (fun _ => hown) (fun _ => ?_)
  split
  · rename_i e
    exact Form.holds_takeFrame (Form.holds_setAgenda h) e
  · exact hown

theorem Form.holds_dropFrame (f : Frame) (h : k.Holds s) : k.Holds (s.dropFrame f) := h

theorem Form.onOut_execScaleoutDeliveryTimeout {idx : Nat} (h : k.Holds s) : k.onOut (execScaleoutDeliveryTimeout idx s) := by
  unfold execScaleoutDeliveryTimeout
  dsimp only [Form.onOut]
  split
  · exact h
  · rename_i f _
    have h1 := Form.holds_report (.noRoute f.dst) (Form.holds_dropFrame f h)
    split
    · exact h
    · split
      · exact Form.holds_reply _ _ _ _ _ h1
      · exact Form.holds_countMsgErr _ h1
      · exact h1

theorem Form.onOut_execGoBackNRetransmission {src dst cls : Nat} (h : k.Holds s) :
    k.onOut (execGoBackNRetransmission src dst cls s) := Form.holds_setFrames h

/-! ### Power -/

theorem Form.holds_setPower {p : Power} (h : k.Holds s) : k.Holds { s with power := p } := h

theorem Form.holds_tripOff (h : k.Holds s) : k.Holds s.tripOff := by
  unfold State.tripOff
  split
  · exact h
  · exact Form.holds_setPower (Form.holds_report _ h)

theorem Form.holds_throttleDown (h : k.Holds s) : k.Holds s.throttleDown := by
  unfold State.throttleDown
  split <;> exact h

theorem Form.holds_setInput {mv : Nat} (h : k.Holds s) : k.Holds { s with inputMv := mv } := h

theorem Form.onOut_execPowerInputChange {millivolts : Nat} (h : k.Holds s) : k.onOut (execPowerInputChange millivolts s) := by
  have hu := Form.holds_tripOff (Form.holds_setInput (mv := millivolts) h)
  unfold execPowerInputChange
  dsimp only
  split
  · exact Form.holds_setPower hu
  · split
    · exact hu
    · split
      · exact Form.onOut_execModuleReset
      · exact Form.holds_setInput h

end Sys2Proof.Machine

/-! Every instruction, command and event, and so every step, keeps the form (02 R24, R30, R39). -/
namespace Sys2Proof.Machine
open Sys2Proof Sys2Proof.Claims

variable {k : Form} {s t : State}

theorem Form.holds_wake (c : CoreId) (x : CtxId) (h : k.Holds s) : k.Holds (s.wake c x) := by
  unfold State.wake
  split
  · split
    · exact Form.holds_modCtxAt _ _ _ h
    · exact h
  · exact h

theorem Form.onOut_execSetvlcReread {core : CoreId} {ctx : CtxId} (h : k.Holds s) : k.onOut (execSetvlcReread core ctx s) := by
  unfold execSetvlcReread
  dsimp only [Form.onOut]
  split
  · exact Form.holds_wake _ _ h
  · exact h

theorem Form.onOut_exec (i : Instr) (h : k.Holds s) : k.onOut (exec i s) :=
  match i with
  | .add f => show k.onOut (execAdd f s) from Form.onOut_arith2 h
  | .addI f => show k.onOut (execAddI f s) from Form.onOut_issue (fun _ hu => Form.holds_modCtx _ (Form.holds_ws _ _ _ hu)) h
  | .sub f => show k.onOut (execSub f s) from Form.onOut_arith2 h
  | .mul f => show k.onOut (execMul f s) from Form.onOut_arith2 h
  | .mulh f => show k.onOut (execMulh f s) from Form.onOut_alu2 h
  | .div f => show k.onOut (execDiv f s) from Form.onOut_issue (fun _ hu => Form.holds_wi _ _ hu) h
  | .rem f => show k.onOut (execRem f s) from Form.onOut_issue (fun _ hu => Form.holds_wi _ _ hu) h
  | .and f => show k.onOut (execAnd f s) from Form.onOut_alu2 h
  | .andI f => show k.onOut (execAndI f s) from Form.onOut_aluI h
  | .or f => show k.onOut (execOr f s) from Form.onOut_alu2 h
  | .orI f => show k.onOut (execOrI f s) from Form.onOut_aluI h
  | .xor f => show k.onOut (execXor f s) from Form.onOut_alu2 h
  | .xorI f => show k.onOut (execXorI f s) from Form.onOut_aluI h
  | .shl f => show k.onOut (execShl f s) from Form.onOut_alu2 h
  | .shlI f => show k.onOut (execShlI f s) from Form.onOut_aluI h
  | .shr f => show k.onOut (execShr f s) from Form.onOut_alu2 h
  | .shrI f => show k.onOut (execShrI f s) from Form.onOut_aluI h
  | .sra f => show k.onOut (execSra f s) from Form.onOut_alu2 h
  | .sraI f => show k.onOut (execSraI f s) from Form.onOut_aluI h
  | .cmp f => show k.onOut (execCmp f s) from Form.onOut_issue (fun _ hu => Form.holds_compare hu) h
  | .cmpI f => show k.onOut (execCmpI f s) from Form.onOut_issue (fun _ hu => Form.holds_compare hu) h
  | .min f => show k.onOut (execMin f s) from Form.onOut_minMax h
  | .max f => show k.onOut (execMax f s) from Form.onOut_minMax h
  | .clz f => show k.onOut (execClz f s) from Form.onOut_alu1 h
  | .ctz f => show k.onOut (execCtz f s) from Form.onOut_alu1 h
  | .popc f => show k.onOut (execPopc f s) from Form.onOut_alu1 h
  | .brev f => show k.onOut (execBrev f s) from Form.onOut_alu1 h
  | .ext f => show k.onOut (execExt f s) from Form.onOut_alu2 h
  | .ins f => show k.onOut (execIns f s) from Form.onOut_issue (fun _ hu => Form.holds_ws _ _ _ hu) h
  | .mov f => show k.onOut (execMov f s) from Form.onOut_issue (fun _ hu => Form.holds_modCtx _ (Form.holds_ws _ _ _ hu)) h
  | .sel f => show k.onOut (execSel f s) from Form.onOut_issue (fun _ hu => Form.holds_ws _ _ _ hu) h
  | .fma f => show k.onOut (execFma f s) from Form.onOut_issue (fun _ hu => Form.holds_rounded (fun _ =>
    Form.holds_wsFlags _ _ _ hu) hu) h
  | .fdiv f => show k.onOut (execFdiv f s) from Form.onOut_issue (fun _ hu => Form.holds_rounded (fun _ =>
    Form.holds_wiFlags _ _ hu) hu) h
  | .fsqrt f => show k.onOut (execFsqrt f s) from Form.onOut_issue (fun _ hu => Form.holds_rounded (fun _ =>
    Form.holds_wiFlags _ _ hu) hu) h
  | .fcvt f => show k.onOut (execFcvt f s) from Form.onOut_issue (fun _ hu => Form.holds_rounded (fun _ => Form.holds_orFlags _
    (Form.holds_ws _ _ _ hu)) hu) h
  | .padd f => show k.onOut (execPadd f s) from Form.onOut_issue (fun _ hu => Form.holds_padd hu) h
  | .paddI f => show k.onOut (execPaddI f s) from Form.onOut_issue (fun _ hu => Form.holds_padd hu) h
  | .pmake f => show k.onOut (execPmake f s) from Form.onOut_alu2 h
  | .ptag f => show k.onOut (execPtag f s) from Form.onOut_alu1 h
  | .li f => show k.onOut (execLi f s) from Form.onOut_issue (fun _ hu => Form.holds_ws _ _ _ hu) h
  | .lih f => show k.onOut (execLih f s) from Form.onOut_issue (fun _ hu => Form.holds_ws _ _ _ hu) h
  | .br f => show k.onOut (execBr f s) from Form.onOut_issue (fun _ hu => hu) h
  | .jal f => show k.onOut (execJal f s) from Form.onOut_issue (fun _ hu => Form.holds_modCtx _ (Form.holds_ws _ _ _ hu)) h
  | .jr f => show k.onOut (execJr f s) from Form.onOut_execJr h
  | .subbr f => show k.onOut (execSubbr f s) from Form.onOut_issue (fun _ hu => Form.holds_modCtx _ (Form.holds_ws _ _ _ hu)) h
  | .setvl f => show k.onOut (execSetvl f s) from Form.onOut_issue (fun _ hu => Form.holds_ws _ _ _ (Form.holds_grantVl _
    (Form.holds_drainVector hu))) h
  | .setvlc f => show k.onOut (execSetvlc f s) from Form.onOut_execSetvlc h
  | .trap f => show k.onOut (execTrap f s) from Form.onOut_issue (fun _ hu => hu) h
  | .eret f => show k.onOut (execEret f s) from Form.onOut_execEret h
  | .wfe f => show k.onOut (execWfe f s) from Form.onOut_execWfe h
  | .hstart f => show k.onOut (execHstart f s) from Form.onOut_execHstart h
  | .hjoin f => show k.onOut (execHjoin f s) from Form.onOut_execHjoin h
  | .hend f => show k.onOut (execHend f s) from Form.onOut_execHend h
  | .hkill f => show k.onOut (execHkill f s) from Form.onOut_execHkill h
  | .launch f => show k.onOut (execLaunch f s) from Form.onOut_execLaunch h
  | .hbind f => show k.onOut (execHbind f s) from Form.onOut_execHbind h
  | .ecall f => show k.onOut (execEcall f s) from Form.onOut_issue (fun _ hu => hu) h
  | .ld f => show k.onOut (execLd f s) from Form.onOut_execLd h
  | .st f => show k.onOut (execSt f s) from Form.onOut_execSt h
  | .ldacq f => show k.onOut (execLdacq f s) from Form.onOut_execLdacq h
  | .strel f => show k.onOut (execStrel f s) from Form.onOut_execStrel h
  | .amo f => show k.onOut (execAmo f s) from Form.onOut_issue (fun _ hu => Form.holds_amoEffect hu) h
  | .amocas f => show k.onOut (execAmocas f s) from Form.onOut_issue (fun _ hu => Form.holds_amoEffect hu) h
  | .fence f => show k.onOut (execFence f s) from Form.onOut_execFence h
  | .vdrain f => show k.onOut (execVdrain f s) from Form.onOut_issue (fun _ hu => Form.holds_drainVector hu) h
  | .bara f => show k.onOut (execBara f s) from Form.onOut_execBara h
  | .barw f => show k.onOut (execBarw f s) from Form.onOut_execBarw h
  | .abegin f => show k.onOut (execAbegin f s) from Form.onOut_execAbegin h
  | .aend f => show k.onOut (execAend f s) from Form.onOut_execAend h
  | .aabort f => show k.onOut (execAabort f s) from Form.onOut_execAabort h
  | .msg f => show k.onOut (execMsg f s) from Form.onOut_execMsg h
  | .reply f => show k.onOut (execReply f s) from Form.onOut_execReply h
  | .notify f => show k.onOut (execNotify f s) from Form.onOut_execNotify h
  | .cbres f => show k.onOut (execCbres f s) from Form.onOut_execCbres h
  | .cbput f => show k.onOut (execCbput f s) from Form.onOut_execCbput h
  | .cbget f => show k.onOut (execCbget f s) from Form.onOut_execCbget h
  | .cbfree f => show k.onOut (execCbfree f s) from Form.onOut_execCbfree h
  | .csrr f => show k.onOut (execCsrr f s) from Form.onOut_execCsrr h
  | .csrw f => show k.onOut (execCsrw f s) from Form.onOut_execCsrw h
  | .plbinv f => show k.onOut (execPlbinv f s) from Form.onOut_execPlbinv h
  | .pinv f => show k.onOut (execPinv f s) from Form.onOut_execPinv h
  | .cflush f => show k.onOut (execCflush f s) from Form.onOut_execCflush h
  | .hop f => show k.onOut (execHop f s) from Form.onOut_execHop h
  | .handoff f => show k.onOut (execHandoff f s) from Form.onOut_execHandoff h
  | .pmig f => show k.onOut (execPmig f s) from Form.onOut_execPmig h
  | .vadd f => show k.onOut (execVadd f s) from Form.onOut_elementsV h
  | .vsub f => show k.onOut (execVsub f s) from Form.onOut_elementsV h
  | .vmul f => show k.onOut (execVmul f s) from Form.onOut_elementsV h
  | .vmulh f => show k.onOut (execVmulh f s) from Form.onOut_elementsV h
  | .vmac f => show k.onOut (execVmac f s) from Form.onOut_elementsV h
  | .vmin f => show k.onOut (execVmin f s) from Form.onOut_elementsV h
  | .vmax f => show k.onOut (execVmax f s) from Form.onOut_elementsV h
  | .vand f => show k.onOut (execVand f s) from Form.onOut_elementsV h
  | .vor f => show k.onOut (execVor f s) from Form.onOut_elementsV h
  | .vxor f => show k.onOut (execVxor f s) from Form.onOut_elementsV h
  | .vshl f => show k.onOut (execVshl f s) from Form.onOut_elementsV h
  | .vshr f => show k.onOut (execVshr f s) from Form.onOut_elementsV h
  | .vsra f => show k.onOut (execVsra f s) from Form.onOut_elementsV h
  | .vcmp f => show k.onOut (execVcmp f s) from Form.onOut_vectorOp (fun _ _ _ hu => Form.holds_writeMaskBody _ _ _ _
    (Form.holds_queueMask _ _ _ _ _ hu)) h
  | .vmerge f => show k.onOut (execVmerge f s) from Form.onOut_vectorOp (fun _ _ _ hu => Form.holds_writeBody _ _ _ _ _ _ _
    (Form.holds_enqueueVector _ _ _ _ hu)) h
  | .vmov f => show k.onOut (execVmov f s) from Form.onOut_elementsV1 h
  | .vaddS f => show k.onOut (execVaddS f s) from Form.onOut_elementsS h
  | .vsubS f => show k.onOut (execVsubS f s) from Form.onOut_elementsS h
  | .vmulS f => show k.onOut (execVmulS f s) from Form.onOut_elementsS h
  | .vmulhS f => show k.onOut (execVmulhS f s) from Form.onOut_elementsS h
  | .vmacS f => show k.onOut (execVmacS f s) from Form.onOut_elementsS h
  | .vminS f => show k.onOut (execVminS f s) from Form.onOut_elementsS h
  | .vmaxS f => show k.onOut (execVmaxS f s) from Form.onOut_elementsS h
  | .vandS f => show k.onOut (execVandS f s) from Form.onOut_elementsS h
  | .vorS f => show k.onOut (execVorS f s) from Form.onOut_elementsS h
  | .vxorS f => show k.onOut (execVxorS f s) from Form.onOut_elementsS h
  | .vshlS f => show k.onOut (execVshlS f s) from Form.onOut_elementsS h
  | .vshrS f => show k.onOut (execVshrS f s) from Form.onOut_elementsS h
  | .vsraS f => show k.onOut (execVsraS f s) from Form.onOut_elementsS h
  | .vcmpS f => show k.onOut (execVcmpS f s) from Form.onOut_vectorOp (fun _ _ _ hu => Form.holds_writeMaskBody _ _ _ _
    (Form.holds_queueMask _ _ _ _ _ hu)) h
  | .vmovS f => show k.onOut (execVmovS f s) from Form.onOut_vectorOp (fun _ _ _ hu => Form.holds_writeBody _ _ _ _ _ _ _
    (Form.holds_queueVector _ _ _ _ _ _ hu)) h
  | .vslide f => show k.onOut (execVslide f s) from Form.onOut_execVslide h
  | .vperm f => show k.onOut (execVperm f s) from Form.onOut_execVperm h
  | .viota f => show k.onOut (execViota f s) from Form.onOut_vectorOp (fun _ _ _ hu => Form.holds_writeBody _ _ _ _ _ _ _
    (Form.holds_queueVector _ _ _ _ _ _ hu)) h
  | .vext f => show k.onOut (execVext f s) from Form.onOut_vectorTyped (fun _ _ _ hu => Form.holds_modCtx _ (Form.holds_wi _ _
    (Form.holds_enqueueVector _ _ _ _ hu))) h
  | .vins f => show k.onOut (execVins f s) from Form.onOut_execVins h
  | .vred f => show k.onOut (execVred f s) from Form.onOut_execVred h
  | .vdotb f => show k.onOut (execVdotb f s) from Form.onOut_execVdotb h
  | .vcvt f => show k.onOut (execVcvt f s) from Form.onOut_execVcvt h
  | .vfmt f => show k.onOut (execVfmt f s) from Form.onOut_vectorOp (fun _ _ _ hu => Form.holds_writeBody _ _ _ _ _ _ _
    (Form.holds_queueVector _ _ _ _ _ _ hu)) h
  | .vfma f => show k.onOut (execVfma f s) from Form.onOut_vectorOp (fun _ _ _ hu => Form.holds_vrounded (fun _ =>
    Form.holds_writeBody _ _ _ _ _ _ _ (Form.holds_queueVector _ _ _ _ _ _ hu)) hu) h
  | .vfdiv f => show k.onOut (execVfdiv f s) from Form.onOut_elementsV h
  | .vfsqrt f => show k.onOut (execVfsqrt f s) from Form.onOut_elementsV1 h
  | .vfest f => show k.onOut (execVfest f s) from Form.onOut_elementsV1 h
  | .vfexp2 f => show k.onOut (execVfexp2 f s) from Form.onOut_elementsV1 h
  | .vflog2 f => show k.onOut (execVflog2 f s) from Form.onOut_elementsV1 h
  | .vfsin f => show k.onOut (execVfsin f s) from Form.onOut_elementsV1 h
  | .vfclass f => show k.onOut (execVfclass f s) from Form.onOut_vectorOp (fun _ _ _ hu => Form.holds_writeBody _ _ _ _ _ _ _
    (Form.holds_queueVector _ _ _ _ _ _ hu)) h
  | .vld f => show k.onOut (execVld f s) from Form.onOut_vectorLoad h
  | .vlds f => show k.onOut (execVlds f s) from Form.onOut_vectorLoad h
  | .vldx f => show k.onOut (execVldx f s) from Form.onOut_vectorLoad h
  | .vldff f => show k.onOut (execVldff f s) from Form.onOut_vectorLoad h
  | .vst f => show k.onOut (execVst f s) from Form.onOut_vectorStore h
  | .vsts f => show k.onOut (execVsts f s) from Form.onOut_vectorStore h
  | .vstx f => show k.onOut (execVstx f s) from Form.onOut_vectorStore h
  | .kld f => show k.onOut (execKld f s) from Form.onOut_execKld h
  | .kst f => show k.onOut (execKst f s) from Form.onOut_execKst h
  | .klog f => show k.onOut (execKlog f s) from Form.onOut_maskOp (fun _ hu => Form.holds_modCtx _ hu) h
  | .kmov f => show k.onOut (execKmov f s) from Form.onOut_execKmov h
  | .kpush f => show k.onOut (execKpush f s) from Form.onOut_execKpush h
  | .kpop f => show k.onOut (execKpop f s) from Form.onOut_execKpop h
  | .kelse f => show k.onOut (execKelse f s) from Form.onOut_execKelse h
  | .kcnt f => show k.onOut (execKcnt f s) from Form.onOut_maskOp (fun _ hu => Form.holds_wi _ _ hu) h
  | .kfirst f => show k.onOut (execKfirst f s) from Form.onOut_maskOp (fun _ hu => Form.holds_wi _ _ hu) h
  | .kbr f => show k.onOut (execKbr f s) from Form.onOut_maskOp (fun _ hu => hu) h
  | .mlease f => show k.onOut (execMlease f s) from Form.onOut_execMlease h
  | .mfree f => show k.onOut (execMfree f s) from Form.onOut_execMfree h
  | .mtile f => show k.onOut (execMtile f s) from Form.onOut_issueMatrix (fun _ hu => Form.holds_withLease (fun _ _ _ hu =>
    Form.holds_wi _ _ (Form.holds_modCtx _ hu)) hu) h
  | .mshape f => show k.onOut (execMshape f s) from Form.onOut_issueMatrix (fun _ hu => Form.holds_wi _ _ hu) h
  | .mzero f => show k.onOut (execMzero f s) from Form.onOut_execMzero h
  | .mlda f => show k.onOut (execMlda f s) from Form.onOut_stageLoad h
  | .mldb f => show k.onOut (execMldb f s) from Form.onOut_stageLoad h
  | .mma f => show k.onOut (execMma f s) from Form.onOut_execMma h
  | .mmab f => show k.onOut (execMmab f s) from Form.onOut_execMmab h
  | .mout f => show k.onOut (execMout f s) from Form.onOut_execMout h
  | .mwait f => show k.onOut (execMwait f s) from Form.onOut_execMwait h
  | .msave f => show k.onOut (execMsave f s) from Form.onOut_execMsave h
  | .mrest f => show k.onOut (execMrest f s) from Form.onOut_execMrest h
  | .tex f => show k.onOut (execTex f s) from Form.onOut_texOp (fun _ _ _ _ => Form.reads_sample) h
  | .texg f => show k.onOut (execTexg f s) from Form.onOut_texOp (fun _ _ _ _ => Form.reads_gatherTexels) h
  | .rayq f => show k.onOut (execRayq f s) from Form.onOut_execRayq h
  | .cpy c => show k.onOut (execCpy c s) from Form.onOut_execCpy h
  | .cpy2d c => show k.onOut (execCpy2d c s) from Form.onOut_execCpy2d h
  | .cpyfill c => show k.onOut (execCpyfill c s) from Form.onOut_execCpyfill h
  | .cpydec c => show k.onOut (execCpydec c s) from Form.onOut_execCpydec h
  | .wload c => show k.onOut (execWload c s) from Form.onOut_execWload h
  | .rast c => show k.onOut (execRast c s) from Form.onOut_execRast h
  | .mesh c => show k.onOut (execMesh c s) from Form.onOut_execMesh h
  | .blend c => show k.onOut (execBlend c s) from Form.onOut_execBlend h
  | .sproj c => show k.onOut (execSproj c s) from Form.onOut_execSproj h
  | .ssort c => show k.onOut (execSsort c s) from Form.onOut_execSsort h
  | .sblend c => show k.onOut (execSblend c s) from Form.onOut_execSblend h
  | .sbwd c => show k.onOut (execSbwd c s) from Form.onOut_execSbwd h
  | .inboxMessage d => show k.onOut (execInboxMessage d s) from Form.onOut_execInboxMessage h
  | .handlerMessage m sender => show k.onOut (execHandlerMessage m sender s) from Form.onOut_execHandlerMessage h
  | .messageAccept core ctx => show k.onOut (execMessageAccept core ctx s) from Form.onOut_execMessageAccept h
  | .handlerInvocation core => show k.onOut (execHandlerInvocation core s) from Form.onOut_execHandlerInvocation h
  | .handlerOverrun core => show k.onOut (execHandlerOverrun core s) from Form.onOut_execHandlerOverrun h
  | .contextWake core ctx => show k.onOut (execContextWake core ctx s) from Form.holds_wake _ _ h
  | .setvlcReread core ctx => show k.onOut (execSetvlcReread core ctx s) from Form.onOut_execSetvlcReread h
  | .barrierDieReport die obj => show k.onOut (execBarrierDieReport die obj s) from Form.onOut_execBarrierDieReport h
  | .regionLengthAbort core ctx => show k.onOut (execRegionLengthAbort core ctx s) from Form.holds_modCtxAt _ _ _ h
  | .vectorAdmission core => show k.onOut (execVectorAdmission core s) from Form.holds_admitOne _ h
  | .arrayGrant die => show k.onOut (execArrayGrant die s) from Form.holds_arbitrate _ h
  | .quantumExpiry die => show k.onOut (execQuantumExpiry die s) from Form.onOut_execQuantumExpiry h
  | .fireboxCommandRun die => show k.onOut (execFireboxCommandRun die s) from Form.onOut_execFireboxCommandRun h
  | .hobRefreshStart die => show k.onOut (execHobRefreshStart die s) from Form.onOut_execHobRefreshStart h
  | .hobRefreshEnd die => show k.onOut (execHobRefreshEnd die s) from Form.onOut_execHobRefreshEnd h
  | .l2DirtyWriteback die va => show k.onOut (execL2DirtyWriteback die va s) from Form.onOut_execL2DirtyWriteback h
  | .l2Eviction die va => show k.onOut (execL2Eviction die va s) from Form.onOut_execL2Eviction h
  | .hopArrival core ctx => show k.onOut (execHopArrival core ctx s) from Form.onOut_execHopArrival h
  | .fluePacketAging idx => show k.onOut (execFluePacketAging idx s) from Form.onOut_execFluePacketAging h
  | .flueInjectionWindow => show k.onOut (execFlueInjectionWindow s) from Form.onOut_execFlueInjectionWindow h
  | .hostRingConsume ring => show k.onOut (execHostRingConsume ring s) from Form.onOut_execHostRingConsume h
  | .ringTailWrite ring tail => show k.onOut (execRingTailWrite ring tail s) from Form.holds_hostPost _ h
  | .ringReset ring => show k.onOut (execRingReset ring s) from Form.holds_hostPost _ h
  | .ringSkip ring => show k.onOut (execRingSkip ring s) from Form.holds_hostPost _ h
  | .ringResume ring => show k.onOut (execRingResume ring s) from Form.holds_hostPost _ h
  | .ringConfigWrite ring off value => show k.onOut (execRingConfigWrite ring off value s) from Form.holds_changeRing _ _ h
  | .dependenceTest arrival => show k.onOut (execDependenceTest arrival s) from Form.onOut_execDependenceTest h
  | .launchSelection => show k.onOut (execLaunchSelection s) from Form.onOut_execLaunchSelection h
  | .preemptionNoticeTimeout core ctx => show k.onOut (execPreemptionNoticeTimeout core ctx s) from
    Form.onOut_execPreemptionNoticeTimeout h
  | .groupRestore arrival group => show k.onOut (execGroupRestore arrival group s) from Form.onOut_execGroupRestore h
  | .agingStep => show k.onOut (execAgingStep s) from Form.onOut_execAgingStep h
  | .occupancySample => show k.onOut (execOccupancySample s) from Form.onOut_execOccupancySample h
  | .groupCompletion arrival group => show k.onOut (execGroupCompletion arrival group s) from Form.onOut_execGroupCompletion h
  | .supervisorEndLaunch arrival => show k.onOut (execSupervisorEndLaunch arrival s) from Form.onOut_execSupervisorEndLaunch h
  | .nqheadWrite die value => show k.onOut (execNqheadWrite die value s) from Form.holds_modDie (fun _ => ⟨rfl, rfl⟩) h
  | .vdmapWrite value => show k.onOut (execVdmapWrite value s) from Form.holds_writeVdmap _ h
  | .registerWrite addr value => show k.onOut (execRegisterWrite addr value s) from Form.onOut_execRegisterWrite h
  | .hostApertureRead off len => show k.onOut (execHostApertureRead off len s) from Form.onOut_execHostApertureRead h
  | .hostApertureWrite off bytes => show k.onOut (execHostApertureWrite off bytes s) from Form.holds_hostPost _ h
  | .heldHostWriteRelease idx granted => show k.onOut (execHeldHostWriteRelease idx granted s) from
    Form.onOut_execHeldHostWriteRelease h
  | .hostSnoop addr => show k.onOut (execHostSnoop addr s) from Form.onOut_execHostSnoop h
  | .moduleReset => show k.onOut (execModuleReset s) from Form.onOut_execModuleReset
  | .bootgo => show k.onOut (execBootgo s) from Form.holds_hostPost _ h
  | .attest => show k.onOut (execAttest s) from Form.holds_hostPost _ h
  | .scaleoutFrameReceive port frame => show k.onOut (execScaleoutFrameReceive port frame s) from
    Form.onOut_execScaleoutFrameReceive h
  | .scaleoutDeliveryTimeout idx => show k.onOut (execScaleoutDeliveryTimeout idx s) from Form.onOut_execScaleoutDeliveryTimeout h
  | .heartbeatMiss die => show k.onOut (execHeartbeatMiss die s) from Form.holds_report _ h
  | .linkLoss link => show k.onOut (execLinkLoss link s) from Form.holds_report _ h
  | .powerInputChange millivolts => show k.onOut (execPowerInputChange millivolts s) from Form.onOut_execPowerInputChange h
  | .junctionThrottle => show k.onOut (execJunctionThrottle s) from Form.holds_throttleDown h
  | .powerAverageExceed => show k.onOut (execPowerAverageExceed s) from Form.holds_throttleDown h
  | .junctionTrip => show k.onOut (execJunctionTrip s) from Form.holds_tripOff h
  | .unassignedOp word => show k.onOut (execUnassignedOp word s) from Form.holds_trapAt _ _ _ _ h
  | .instructionFetch cause addr => show k.onOut (execInstructionFetch cause addr s) from Form.onOut_execInstructionFetch h
  | .fluePacketArrival idx => show k.onOut (execFluePacketArrival idx s) from Form.onOut_execFluePacketArrival h
  | .linkNegotiation cxl => show k.onOut (execLinkNegotiation cxl s) from Form.onOut_execLinkNegotiation h
  | .goBackNRetransmission src dst cls => show k.onOut (execGoBackNRetransmission src dst cls s) from
    Form.onOut_execGoBackNRetransmission h
  | .stagingSramWrite off bytes => show k.onOut (execStagingSramWrite off bytes s) from Form.holds_hostPost _ h

/-! ### Turns -/

theorem Form.holds_holdBack (c : CoreId) (h : k.Holds s) : k.Holds (s.holdBack c) := by
  refine Form.holds_foldl (fun p _ u hu => ?_) h
  dsimp only
  split
  · exact Form.holds_modCtxAt _ _ _ hu
  · exact hu

theorem Form.holds_wakeAll (c : CoreId) (h : k.Holds s) : k.Holds (s.wakeAll c) :=
  Form.holds_holdBack _ (Form.holds_admitDue _ (Form.holds_foldl (fun _ _ _ hu => Form.holds_wake _ _ hu) h))

theorem Form.holds_setCur {p : CoreId × CtxId} (h : k.Holds s) : k.Holds { s with cur := p } := h

theorem Form.holds_select (c : CoreId) (p : CoreId × CtxId) (h : k.Holds s) : k.Holds (s.select c p) :=
  Form.holds_modCore (fun x => by split <;> rfl) (Form.holds_setCur h)

theorem Form.holds_boundary (h : k.Holds s) (e : s.boundary = some t) : k.Holds t := by
  unfold State.boundary at e
  split at e
  · cases e
    exact Form.holds_endContext _ _ h
  · split at e
    · cases e
      exact Form.holds_takeTrap _ _ _ (Form.holds_modCtx _ h)
    · dsimp only at e
      split at e
      · cases e
        exact Form.holds_modCtx _ (Form.holds_takeTrap _ _ _ h)
      · cases e

theorem Form.onOut_limited {d : DieId} {domain : BitVec 16} {stalled : State} {o : Out} (hs : k.Holds stalled) (ho : k.onOut o) :
    k.onOut (s.limited d domain stalled o) := by
  cases o with
  | next u =>
    change k.Holds (if s.overLimit u d domain then stalled else u)
    exact iteInduction (fun _ => hs) (fun _ => ho)
  | fault _ => trivial
  | refused _ => trivial

theorem Form.onOut_stepContext (h : k.Holds s) : k.onOut (stepContext s) := by
  unfold stepContext
  split
  · exact Form.onOut_exec _ h
  · rename_i e
    have h1 := Form.holds_fetch h e
    split
    · exact Form.onOut_exec _ h1
    · split
      · exact Form.onOut_exec _ h1
      · exact Form.onOut_exec _ h1

theorem Form.onOut_stepCore (c : CoreId) (h : k.Holds s) : k.onOut (stepCore c s) := by
  unfold stepCore
  split
  · exact Form.holds_advanceTo _ h
  · exact Form.onOut_limited (Form.holds_modCtxAt _ _ _ h) (Form.onOut_exec _ h)
  · rename_i p _
    have h1 := Form.holds_select c p h
    dsimp only
    split
    · rename_i e
      exact Form.holds_boundary h1 e
    · exact Form.onOut_limited (Form.holds_modCtx _ h1) (Form.onOut_stepContext h1)

theorem Form.onOut_stepAgent (d : DieId) (n : Fin 8) (h : k.Holds s) : k.onOut (stepAgent d n s) := by
  unfold stepAgent
  split
  · exact h
  · exact Form.onOut_limited (Form.holds_deferTurn _ h) (Form.onOut_exec _ h)
  · rename_i e
    exact Form.onOut_limited (Form.holds_deferTurn _ h) (Form.holds_headCommand h e)

theorem Form.holds_setFocus {c : CoreId} (h : k.Holds s) : k.Holds { s with focus := c } := h

theorem Form.onOut_step (h : k.Holds s) : k.onOut (step s) := by
  unfold step
  split
  · split
    · exact Form.holds_setPower h
    · trivial
  · split
    · exact Form.holds_raiseClock h
    · split
      · rename_i i rest _
        exact Form.onOut_exec i (Form.holds_setAgenda (a := rest) h)
      · rename_i d n rest _
        exact Form.onOut_stepAgent d n (Form.holds_setAgenda (a := rest) h)
      · rename_i c rest _
        have h1 := Form.holds_setAgenda (a := rest) h
        have h2 := Form.holds_wakeAll c h1
        exact Form.onOut_stepCore c h2
      · have h1 := Form.holds_setFocus (c := s.nextFocus) h
        have h2 := Form.holds_wakeAll s.focus h1
        exact Form.onOut_stepCore s.focus h2

theorem Form.holds_step (h : k.Holds s) (e : step s = .next t) : k.Holds t := by
  have hs := Form.onOut_step h
  rw [e] at hs
  exact hs

/-- Settles O59: the form of the memories, by the walk through every instruction, command and event. -/
theorem stepKeepsCanonical : Obligations.StepKeepsCanonical := by
  intro s t h e
  exact (Form.holds_memories t).mp (Form.holds_step ((Form.holds_memories s).mpr h) e)

/-- Settles O60: the form of the lines and the cached leaves, by the same walk. -/
theorem cacheLinesKept : Obligations.CacheLinesKept := by
  intro s t h e
  exact (Form.holds_lines t).mp (Form.holds_step ((Form.holds_lines s).mpr h) e)

end Sys2Proof.Machine

/-! Scalar accesses of the local window (06 R119; 16 R387, R388; 17 R424, R425). -/
namespace Sys2Proof.Machine
open Sys2Proof Sys2Proof.Claims

/-! ### Loaded bytes (03 R55) -/

theorem szBytes_eq_accessBytes (sz : BitVec 3) : szBytes sz = accessBytes sz := rfl

/-- The model extends loaded bytes as 03 R55 says. -/
theorem szExtend_eq_loaded (sz : BitVec 3) (v : Nat) : szExtend sz v = loaded sz v := by
  have hpos : 0 < 8 * accessBytes sz := Nat.mul_pos (by decide) (Nat.two_pow_pos _)
  unfold szExtend loaded
  by_cases h : 4 ≤ sz.toNat
  · rw [if_pos h, if_neg (by omega), szBytes_eq_accessBytes, intVal_signed _ _ hpos, BitVec.signExtend]
  · rw [if_neg h, if_pos (by omega)]

/-! ### The window -/

/-- The window is no register block: an access to it is the same in every mode (06 R111, R458). -/
theorem State.loadC_window {s : State} {a o : Nat} (serve : Serve) (remote : Bool) (n : Nat) (h : windowOffset a = some o) :
    s.loadC serve remote a n = .ok (readN s.lmem (localCell s o) n, s) := by
  unfold State.loadC
  rw [regionOf_window h]
  exact State.load_window serve remote n h

/-- A store to the local window writes the home core's local memory and changes nothing else. -/
theorem State.storeC_window {s : State} {a o : Nat} (remote : Bool) (n v : Nat) (h : windowOffset a = some o) :
    s.storeC remote a n v = .ok { s with lmem := writeN s.lmem (localCell s o) n v } := by
  unfold State.storeC State.store
  rw [regionOf_window h]
  rfl

/-- A releasing store to the local window writes after its release steps. -/
theorem State.storeRelease_window {s : State} {a o : Nat} (scope : Word) (remote : Bool) (n v : Nat) (h : windowOffset a = some o) :
    s.storeRelease scope remote a n v = .ok { s.releaseSteps s.runCore scope with
      lmem := writeN (s.releaseSteps s.runCore scope).lmem (localCell (s.releaseSteps s.runCore scope) o) n v } := by
  unfold State.storeRelease
  rw [State.storeC_window _ _ _ h]
  dsimp only
  rw [State.storeC_window _ _ _ h, regionOf_window h]

theorem wroteBytes_writeN (m : List Host.Cell) (a n v : Nat) : wroteBytes m (writeN m a n v) a n v :=
  fun h x => readByte_writeN a n v x h

theorem localCell_of_cur {s t : State} (h : t.cur = s.cur) (o : Nat) : localCell t o = localCell s o := by
  rw [localCell, localCell, h]

/-! ### Contexts through write-backs and writes of local memory -/

theorem State.onlyWriteBacks_releaseSteps (s : State) (c : CoreId) (scope : Word) : s.onlyWriteBacks (s.releaseSteps c scope) := by
  unfold State.releaseSteps
  split
  · exact s.onlyWriteBacks_writeBackAll _
  · exact s.onlyWriteBacks_refl

theorem State.releaseSteps_within {s : State} {c : CoreId} {scope : Word} (h : scopeBeyond scope (dieOf c) = false) :
    s.releaseSteps c scope = s := by
  rw [State.releaseSteps, h]
  rfl

/-- A change of local memory commutes with what only changes a context. -/
theorem State.onlyContext_setLmem {s t : State} (m : List Host.Cell) (h : s.onlyContext t) :
    ({ s with lmem := m } : State).onlyContext { t with lmem := m } := by
  obtain ⟨ho, hc, hx⟩ := h
  refine ⟨?_, hc, hx⟩
  unfold State.sameOutside at ho ⊢
  rw [ho]

/-- What only changes a context, after a write of local memory. -/
theorem State.onlyContext_wroteLmem {s u t : State} {m : List Host.Cell} (hu : s.onlyContext u)
    (ht : ({ u with lmem := m } : State).onlyContext t) : ({ s with lmem := t.lmem } : State).onlyContext t := by
  have hm : t.lmem = m := by rw [ht.1]
  rw [hm]
  exact State.onlyContext_trans (State.onlyContext_setLmem m hu) ht

/-! ### The instructions -/

/-- What issue must know of the four instructions. -/
def ldMeta (f : SM) : Meta := { srcs := [f.base], dst := some f.ds, tagging := .own }
def stMeta (f : SM) : Meta := { srcs := [f.base, f.ds], tagging := .own }
def ldacqMeta (f : SM) : Meta := { srcs := [f.base, f.sc], dst := some f.ds, forbid := some 10 }
def strelMeta (f : SM) : Meta := { srcs := [f.base, f.ds, f.sc], forbid := some 10 }

/-- The cell of an offset is the same where the own part of an instruction runs. -/
theorem localCell_atIssue (s : State) (srcs : List (BitVec 6)) (o : Nat) : localCell (s.atIssue srcs) o = localCell s o :=
  localCell_of_cur (s.cur_atIssue srcs) o

section
variable {s : State} {f : SM} {a o : Nat} (ha : addressOf (s.reg f.base) f.off.toInt (accessBytes f.sz) = .ok a)
  (ho : windowOffset a = some o)
include ha ho

theorem ld_window (h : s.executes f.ctl [f.base] (some f.ds) 0) :
    ∃ t, exec (.ld f) s = .next t ∧ s.scalarDone t f.ds (loaded f.sz (readN s.lmem (localCell s o) (accessBytes f.sz))) 0 := by
  refine State.issue_wi s (.ld f) f.ctl (ldMeta f) _ f.ds _ 0 (by simp) h (Mode.allows_program _) (.inl rfl) ?_
  rw [State.orFlags_zero, State.rs_atIssue s _ h.1 h.2.1, szBytes_eq_accessBytes, orTrap_memAddr_ok _ ha,
    if_neg (by simp [State.inRegion_atIssue s _ h.1]), State.pathC_ok _ fun remote => State.loadC_window .l1 remote _ ho,
    State.lmem_atIssue, localCell_atIssue, szExtend_eq_loaded]

theorem st_window (h : s.executes f.ctl [f.base, f.ds] none 0) :
    ∃ t, exec (.st f) s = .next t ∧ wroteBytes s.lmem t.lmem (localCell s o) (accessBytes f.sz) (s.reg f.ds).toNat ∧
      contextMovedOn s t ∧ ({ s with lmem := t.lmem }).onlyContext t := by
  obtain ⟨body, hexec, hbody⟩ : ∃ body, exec (.st f) s = s.issue (.st f) f.ctl (stMeta f) body ∧
      body (s.atIssue (allSources f.ctl (stMeta f))) = .next { s.atIssue (allSources f.ctl (stMeta f)) with
        lmem := writeN s.lmem (localCell s o) (accessBytes f.sz) (s.reg f.ds).toNat } := by
    refine ⟨_, rfl, ?_⟩
    rw [State.rs_atIssue s _ h.1 h.2.1, State.rs_atIssue s _ h.1 h.2.1, szBytes_eq_accessBytes, orTrap_memAddr_ok _ ha,
      if_neg (by simp [State.inRegion_atIssue s _ h.1]), State.pathC_ok _ fun remote => State.storeC_window remote _ _ ho,
      State.lmem_atIssue, localCell_atIssue]
  obtain ⟨t, ht, hmoved, hut⟩ := State.issue_movesOn (i := .st f) (m := stMeta f) (by simp) h (Mode.allows_program _) (.inl rfl) hbody rfl
  have hlmem : t.lmem = writeN s.lmem (localCell s o) (accessBytes f.sz) (s.reg f.ds).toNat := by rw [hut.1]
  exact ⟨t, hexec.trans ht, by rw [hlmem]; exact wroteBytes_writeN _ _ _ _, hmoved,
    State.onlyContext_wroteLmem (s.onlyContext_atIssue _) hut⟩

/-- The load comes before the acquire, which discards cached copies alone. -/
theorem ldacq_window (hs : scopeOk (s.reg f.sc) = true) (h : s.executes f.ctl [f.base, f.sc] (some f.ds) 0) :
    ∃ t, exec (.ldacq f) s = .next t ∧
      contextWrote s t f.ds (loaded f.sz (readN s.lmem (localCell s o) (accessBytes f.sz))) ∧ othersKept s t ∧
      s.sameBytes t ∧ (scopeKind (s.reg f.sc) ≠ 0 → (t.coreAt s.runCore).l1 = []) := by
  obtain ⟨b, hb⟩ : ∃ b, b = s.atIssue (allSources f.ctl (ldacqMeta f)) := ⟨_, rfl⟩
  obtain ⟨v, hv⟩ : ∃ v, v = loaded f.sz (readN s.lmem (localCell s o) (accessBytes f.sz)) := ⟨_, rfl⟩
  obtain ⟨body, hexec, hbody⟩ : ∃ body, exec (.ldacq f) s = s.issue (.ldacq f) f.ctl (ldacqMeta f) body ∧
      body b = .next ((b.acquireSteps b.runCore (s.reg f.sc)).wi f.ds v) := by
    refine ⟨_, rfl, ?_⟩
    have hrs : ∀ r, b.rs r = s.reg r := fun r => by rw [hb]; exact State.rs_atIssue s _ h.1 h.2.1 r
    simp only [hrs, hs, szBytes_eq_accessBytes]
    rw [orTrap_memAddr_ok _ ha, State.pathC_ok _ fun remote => State.loadC_window _ remote _ ho, hb, State.lmem_atIssue,
      localCell_atIssue, szExtend_eq_loaded, hv]
    rfl
  rw [← hv]
  have hsb : s.onlyContext b := by rw [hb]; exact s.onlyContext_atIssue _
  have hrun : b.runCore = s.runCore := by rw [hb]; exact s.runCore_atIssue _ h.1
  rw [hb] at hbody
  obtain ⟨t, ht, hwrote, hut⟩ := State.issue_writes (i := .ldacq f) (m := ldacqMeta f) (by simp) h (Mode.allows_program _) (.inl rfl) hbody
    (d := f.ds) (v := v) ⟨_, by rw [State.ctx_wi, State.ctx_acquireSteps]⟩
  rw [← hb] at hut
  have hct := State.onlyContext_trans (State.onlyContext_wi _ f.ds v) hut
  refine ⟨t, hexec.trans ht, hwrote, ?_, ?_, fun hk => ?_⟩
  · refine othersKept_trans (State.onlyContext_othersKept hsb) (State.onlyContext_cur hsb) ?_
    exact othersKept_trans (othersKept_of_ctxAt fun d x => b.ctxAt_acquireSteps _ d _ x) (b.cur_acquireSteps _ _)
      (State.onlyContext_othersKept hct)
  · exact State.sameBytes_trans (State.sameBytes_trans (State.onlyContext_bytes hsb) (b.sameBytes_acquireSteps _ _))
      (State.onlyContext_bytes hct)
  · rw [Core.sameShared_l1 (hct.2.1 s.runCore), ← hrun]
    exact b.l1_acquireSteps _ hk

/-- The store comes after its release steps, which write no local memory. -/
theorem strel_window (hs : scopeOk (s.reg f.sc) = true) (hw : s.systemWait (s.reg f.sc) = false)
    (h : s.executes f.ctl [f.base, f.ds, f.sc] none 0) :
    ∃ t, exec (.strel f) s = .next t ∧ wroteBytes s.lmem t.lmem (localCell s o) (accessBytes f.sz) (s.reg f.ds).toNat ∧
      contextMovedOn s t ∧ othersKept s t ∧
      (scopeBeyond (s.reg f.sc) s.runDie = false → ({ s with lmem := t.lmem }).onlyContext t) := by
  obtain ⟨b, hb⟩ : ∃ b, b = s.atIssue (allSources f.ctl (strelMeta f)) := ⟨_, rfl⟩
  obtain ⟨r, hr⟩ : ∃ r, r = b.releaseSteps b.runCore (s.reg f.sc) := ⟨_, rfl⟩
  have hsb : s.onlyContext b := by rw [hb]; exact s.onlyContext_atIssue _
  have hbr : b.onlyWriteBacks r := by rw [hr]; exact b.onlyWriteBacks_releaseSteps _ _
  have hcur : r.cur = s.cur := (State.onlyWriteBacks_cur hbr).trans (State.onlyContext_cur hsb)
  have hlm : r.lmem = s.lmem := by rw [hbr.1, hb]; exact s.lmem_atIssue _
  obtain ⟨body, hexec, hbody⟩ : ∃ body, exec (.strel f) s = s.issue (.strel f) f.ctl (strelMeta f) body ∧
      body b = .next { r with lmem := writeN s.lmem (localCell s o) (accessBytes f.sz) (s.reg f.ds).toNat } := by
    refine ⟨_, rfl, ?_⟩
    have hrs : ∀ r, b.rs r = s.reg r := fun r => by rw [hb]; exact State.rs_atIssue s _ h.1 h.2.1 r
    have hwait : b.systemWait (s.reg f.sc) = false := by
      rw [← hw]
      unfold State.systemWait State.remoteOut
      rw [hsb.1]
    simp only [hrs, hs, szBytes_eq_accessBytes]
    rw [orTrap_memAddr_ok _ ha, State.pathC_ok _ fun remote => State.storeRelease_window _ remote _ _ ho, ← hr, hlm,
      localCell_of_cur hcur, hwait]
    rfl
  rw [hb] at hbody
  obtain ⟨t, ht, hmoved, hut⟩ := State.issue_movesOn (i := .strel f) (m := strelMeta f) (by simp) h (Mode.allows_program _) (.inl rfl) hbody
    ((State.ctx_of_ctxAt (State.onlyWriteBacks_cur hbr) fun c x => State.onlyWriteBacks_ctxAt hbr c x).trans (congrArg State.ctx hb))
  have hlmem : t.lmem = writeN s.lmem (localCell s o) (accessBytes f.sz) (s.reg f.ds).toNat := by rw [hut.1]
  refine ⟨t, hexec.trans ht, by rw [hlmem]; exact wroteBytes_writeN _ _ _ _, hmoved, ?_, fun hd => ?_⟩
  · refine othersKept_trans (State.onlyContext_othersKept hsb) (State.onlyContext_cur hsb) ?_
    exact othersKept_trans (othersKept_of_ctxAt fun c x => State.onlyWriteBacks_ctxAt hbr c x) (State.onlyWriteBacks_cur hbr)
      fun c x hc => hut.2.2 c x hc
  · have hbd : scopeBeyond (s.reg f.sc) (dieOf b.runCore) = false := by rw [hb, s.runCore_atIssue _ h.1]; exact hd
    rw [hr, State.releaseSteps_within hbd] at hut
    exact State.onlyContext_wroteLmem hsb hut

end

/-- Settles O16: the four accesses, each by the cell that the window names. -/
theorem localAccesses : Obligations.LocalAccesses := by
  unfold Obligations.LocalAccesses
  intro s f a o _ ha ho
  exact ⟨ld_window ha ho, st_window ha ho, ldacq_window ha ho, strel_window ha ho⟩

end Sys2Proof.Machine

/-! A CPY of another package that its copy engine has started (14 R316; 15 R351). -/
namespace Sys2Proof.Machine
open Sys2Proof Sys2Proof.Claims

/-- A started CPY of another package that waits for the bytes it has asked for goes on later: its checks were made at its start. -/
theorem execCpy_waits {c : Command} {s : State} (hremote : c.sender.remote = true) (hagent : s.agentOf c = ⟨[c], true, 0, 1, 0, []⟩)
    (hn : 0 < c.msg.w4.toNat) (hplace : pointerAddr c.msg.w2 = 0) : exec (.cpy c) s = .next (s.laterCommand c) := by
  have hpiece : outside (0 : Int) (min copyChunk c.msg.w4.toNat) = none := by
    have : min copyChunk c.msg.w4.toNat ≤ 512 := Nat.min_le_left 512 _
    refine if_neg ?_
    simp only [Bool.and_eq_true, Bool.or_eq_true, decide_eq_true_eq]
    omega
  have htotal : ¬ (c.msg.w4.toNat + copyChunk - 1) / copyChunk ≤ 0 := by
    unfold copyChunk
    omega
  change execCpy c s = _
  unfold execCpy State.unless State.copyRemote copyPiece
  simp [hremote, hagent, hplace, hpiece, htotal]

theorem State.queueOf_laterCommand (s : State) (c : Command) : queueOf (s.laterCommand c) c.die c.inst = queueOf s c.die c.inst := by
  have hdie : (s.laterCommand c).dieAt c.die = (s.modAgent c.die c.inst (fun a => { a with started := true })).dieAt c.die := rfl
  unfold queueOf
  rw [hdie, State.modAgent, State.dieAt_modDie_self]
  simp

/-! ### A copy of more than 2^40 bytes that has been started -/

/-- A CPY of 2^40 + 1 bytes from a context of another package. -/
def longCopy : Command :=
  ⟨⟨0, 0, 0, 0, 0x10000000001, 0, 0, 0⟩, ⟨1, 0, 0, 0, none, true⟩, 0, 0, []⟩

/-- Copy engine 0 of die 0 has started it and asked its package for the first piece. -/
def longCopyStarted : State := State.reset.modAgent 0 0 (fun _ => ⟨[longCopy], true, 0, 1, 0, []⟩)

theorem agentOf_longCopyStarted : longCopyStarted.agentOf longCopy = ⟨[longCopy], true, 0, 1, 0, []⟩ := by
  change ((State.reset.modDie 0 _).dieAt 0).agents[(0 : Fin 8)] = _
  rw [State.dieAt_modDie_self]
  simp

/-- Refutes O46: its last clause gives BADCMD to every CPY of more than 2^40 bytes, started or not, and BADCMD takes the command from
its queue. The checks of a CPY of another package are made at its start: once started it stays in its queue until its bytes come. -/
theorem not_copies : ¬ Obligations.Copies := by
  unfold Obligations.Copies
  rintro ⟨-, -, -, -, -, hcommands⟩
  obtain ⟨-, hlong, -, -, hend⟩ := hcommands longCopy longCopyStarted
  have hqueue : queueOf longCopyStarted longCopy.die longCopy.inst = [longCopy] := congrArg Agent.queue agentOf_longCopyStarted
  have hsame : longCopyStarted.laterCommand longCopy = longCopyStarted.endCommand longCopy (2, 0) :=
    Host.Outcome.next.inj ((execCpy_waits rfl agentOf_longCopyStarted (by decide) (by decide)).symm.trans (hlong (by decide)))
  obtain ⟨hpopped, -⟩ := hend 2 0
  rw [← hsame, State.queueOf_laterCommand, hqueue] at hpopped
  exact absurd hpopped (by simp)

end Sys2Proof.Machine

/-! What the memory system changes when it serves an access or a reply: the dies but for the messages that they hold, memory and the
reports, but no context and no queue of a core (06 R126 to R133; 08 R173, R176; 13 R295). -/
namespace Sys2Proof.Machine
open Sys2Proof Sys2Proof.Claims

/-! ### Changes outside the cores -/

/-- From `s` to `t` no core has changed, no held message of a die and no register of the Bellows; reports may have been added. -/
def State.onlyHomes (s t : State) : Prop :=
  t = { s with
    agenda := t.agenda, dies := t.dies, mem := t.mem, lmem := t.lmem, weak := t.weak, rewritten := t.rewritten, flue := t.flue
    launches := t.launches, txFrames := t.txFrames, txSeq := t.txSeq, notes := t.notes } ∧
  (∀ d, (t.dieAt d).held = (s.dieAt d).held) ∧ ∃ l, t.notes = s.notes ++ l

theorem State.onlyHomes_refl (s : State) : s.onlyHomes s := ⟨rfl, fun _ => rfl, [], (List.append_nil _).symm⟩

theorem State.onlyHomes_trans {s t u : State} (a : s.onlyHomes t) (b : t.onlyHomes u) : s.onlyHomes u := by
  obtain ⟨ha, hda, l, hl⟩ := a
  obtain ⟨hb, hdb, m, hm⟩ := b
  refine ⟨?_, fun d => (hdb d).trans (hda d), l ++ m, by rw [hm, hl, List.append_assoc]⟩
  rw [hb, ha]

theorem State.onlyHomes_foldl {α : Type} {f : State → α → State} (h : ∀ (s : State) x, s.onlyHomes (f s x)) (l : List α) (s : State) :
    s.onlyHomes (l.foldl f s) := by
  induction l generalizing s with
  | nil => exact s.onlyHomes_refl
  | cons x l ih => exact State.onlyHomes_trans (h s x) (ih _)

theorem State.onlyHomes_ite {s t u : State} {p : Prop} [Decidable p] (ht : s.onlyHomes t) (hu : s.onlyHomes u) :
    s.onlyHomes (if p then t else u) := by
  split
  · exact ht
  · exact hu

theorem State.onlyHomes_cores {s t : State} (h : s.onlyHomes t) : t.cores = s.cores := by rw [h.1]

theorem State.onlyHomes_cur {s t : State} (h : s.onlyHomes t) : t.cur = s.cur := by rw [h.1]

theorem State.onlyHomes_coreAt {s t : State} (h : s.onlyHomes t) (c : CoreId) : t.coreAt c = s.coreAt c := by
  rw [State.coreAt, State.onlyHomes_cores h, State.coreAt]

theorem State.onlyHomes_ctxAt {s t : State} (h : s.onlyHomes t) (c : CoreId) (x : CtxId) : t.ctxAt c x = s.ctxAt c x := by
  rw [State.ctxAt, State.onlyHomes_coreAt h, State.ctxAt]

/-- A change that leaves every die as it is. -/
theorem State.onlyHomes_of_dies {s t : State} (h : t = { s with
      agenda := t.agenda, mem := t.mem, lmem := t.lmem, weak := t.weak, rewritten := t.rewritten, flue := t.flue
      launches := t.launches, txFrames := t.txFrames, txSeq := t.txSeq }) : s.onlyHomes t :=
  ⟨by rw [h], fun d => by rw [h]; rfl, [], by rw [h]; exact (List.append_nil _).symm⟩

theorem State.onlyHomes_modDie (s : State) (d : DieId) (f : Die → Die) (h : ∀ x, (f x).held = x.held) : s.onlyHomes (s.modDie d f) := by
  refine ⟨rfl, fun e => ?_, [], (List.append_nil _).symm⟩
  rw [State.dieAt_modDie]
  split
  · rename_i he
    rw [h, he]
  · rfl

theorem State.onlyHomes_report (s : State) (n : Note) : s.onlyHomes (s.report n) := ⟨rfl, fun _ => rfl, [n], rfl⟩

theorem State.onlyHomes_physWrite (s : State) (pa n v : Nat) : s.onlyHomes (s.physWrite pa n v) := State.onlyHomes_of_dies rfl

theorem State.onlyHomes_localWrite (s : State) (c : CoreId) (o n v : Nat) : s.onlyHomes (s.localWrite c o n v) := State.onlyHomes_of_dies rfl

@[simp] theorem Die.held_putLine (d : Die) (ln : L2Line) : (d.putLine ln).held = d.held := by
  unfold Die.putLine
  split <;> rfl

theorem State.onlyHomes_charge (s : State) (d : DieId) (domain : BitVec 16) (n : Nat) : s.onlyHomes (s.charge d domain n) :=
  State.onlyHomes_ite (s.onlyHomes_modDie d _ fun _ => rfl) s.onlyHomes_refl

/-! ### Write-backs -/

theorem State.onlyHomes_physMasked (s : State) (pa n mask v : Nat) : s.onlyHomes (s.physMasked pa n mask v) :=
  State.onlyHomes_of_dies rfl

theorem State.onlyHomes_setFlue (s : State) (ps : List Packet) : s.onlyHomes { s with flue := ps } := State.onlyHomes_of_dies rfl

theorem State.onlyHomes_drainFlue (s : State) (d : DieId) : s.onlyHomes (s.drainFlue d) := by
  unfold State.drainFlue
  exact State.onlyHomes_trans (State.onlyHomes_foldl (fun t p => t.onlyHomes_physMasked _ _ _ _) _ s) (State.onlyHomes_setFlue _ _)

theorem State.onlyHomes_writeBack (s : State) (d : DieId) (ln : L2Line) : s.onlyHomes (s.writeBack d ln) := by
  unfold State.writeBack
  refine State.onlyHomes_ite s.onlyHomes_refl ?_
  refine State.onlyHomes_trans (s.onlyHomes_drainFlue d) (State.onlyHomes_trans (t := (s.drainFlue d).chargeLine d ln) ?_ ?_)
  · unfold State.chargeLine
    split
    · exact State.onlyHomes_charge _ _ _ _
    · exact State.onlyHomes_refl _
  · exact State.onlyHomes_trans (State.onlyHomes_physMasked _ ln.pa ln.size ln.dirty ln.data)
      (State.onlyHomes_modDie _ d _ fun x => x.held_putLine _)

theorem State.onlyHomes_writeBackAll (s : State) (d : DieId) : s.onlyHomes (s.writeBackAll d) :=
  State.onlyHomes_trans (s.onlyHomes_drainFlue d) (State.onlyHomes_foldl (fun t ln => t.onlyHomes_writeBack d ln) _ _)

/-! ### Translation and fills (06 R128 to R133) -/

theorem State.onlyHomes_correctRuns (s : State) (runs : List (Nat × Nat)) : s.onlyHomes (s.correctRuns runs) := by
  refine State.onlyHomes_ite s.onlyHomes_refl (State.onlyHomes_foldl (fun t r => ?_) runs s)
  split
  · exact State.onlyHomes_ite t.onlyHomes_refl (State.onlyHomes_trans (t := { t with weak := _ })
      (State.onlyHomes_of_dies rfl) (State.onlyHomes_modDie _ _ _ fun _ => rfl))
  · exact t.onlyHomes_refl

theorem State.onlyHomes_setHot (s : State) (d : DieId) (l : Leaf) (hot : Nat) (queued : Bool) : s.onlyHomes (s.setHot d l hot queued) :=
  s.onlyHomes_modDie d _ fun _ => rfl

theorem State.onlyHomes_writeHot (s : State) (l : Leaf) : s.onlyHomes (s.writeHot l) := State.onlyHomes_of_dies rfl

theorem State.onlyHomes_tlbInsert (s : State) (d : DieId) (slice : Nat) (l : Leaf) : s.onlyHomes (s.tlbInsert d slice l) := by
  have hforget : ∀ t : State, t.onlyHomes t.forgetRewritten := fun t =>
    State.onlyHomes_ite t.onlyHomes_refl (State.onlyHomes_of_dies rfl)
  have hgive : ∀ k : Leaf, s.onlyHomes (s.giveUpLeaf d k) := fun k => State.onlyHomes_ite (s.onlyHomes_writeHot k) s.onlyHomes_refl
  unfold State.tlbInsert
  dsimp only
  refine State.onlyHomes_ite (s.onlyHomes_modDie d _ fun _ => rfl) ?_
  split
  · rename_i old _
    refine State.onlyHomes_trans (State.onlyHomes_trans (hgive old.leaf) ?_) (hforget _)
    exact State.onlyHomes_modDie _ d _ fun _ => rfl
  · exact s.onlyHomes_refl

theorem State.onlyHomes_translate {s t : State} {d : DieId} {va : Nat} {l : Leaf} (h : s.translate d va = some (l, t)) :
    s.onlyHomes t := by
  unfold State.translate at h
  dsimp only at h
  split at h
  · cases h; exact s.onlyHomes_refl
  · split at h
    · cases h
    · cases h
      exact State.onlyHomes_trans (s.onlyHomes_correctRuns _) (State.onlyHomes_tlbInsert _ _ _ _)

theorem State.onlyHomes_crossing (s : State) (d : DieId) (l : Leaf) (va hot : Nat) : s.onlyHomes (s.crossing d l va hot) := by
  unfold State.crossing
  refine State.onlyHomes_ite ?_ (s.onlyHomes_modDie d _ fun _ => rfl)
  refine State.onlyHomes_trans (State.onlyHomes_trans ?_ (State.onlyHomes_setHot _ d l hot true)) (State.onlyHomes_writeHot _ _)
  exact State.onlyHomes_trans (State.onlyHomes_trans (s.onlyHomes_physWrite _ _ _) (State.onlyHomes_physWrite _ _ _ _))
    (State.onlyHomes_modDie _ d _ fun _ => rfl)

theorem State.onlyHomes_countFill (s : State) (d : DieId) (va : Nat) : s.onlyHomes (s.countFill d va) := by
  unfold State.countFill
  split
  · exact s.onlyHomes_refl
  · rename_i l t h
    have hhot := State.onlyHomes_trans (State.onlyHomes_translate h) (t.onlyHomes_setHot d l (min (l.hot + 1) 255) l.queued)
    exact State.onlyHomes_ite (State.onlyHomes_trans hhot (State.onlyHomes_crossing _ _ _ _ _)) hhot

theorem State.onlyHomes_homeFill {s t : State} {h : DieId} {va pa size codec n : Nat} {owner : Bool}
    (hf : s.homeFill h va pa size codec owner = some (n, t)) : s.onlyHomes t := by
  unfold State.homeFill at hf
  dsimp only at hf
  split at hf
  · cases hf
  · split at hf
    · cases hf
    · split at hf
      · cases hf
        exact s.onlyHomes_correctRuns _
      · cases hf
        exact State.onlyHomes_trans (State.onlyHomes_trans (s.onlyHomes_correctRuns _) (State.onlyHomes_countFill _ _ _))
          (State.onlyHomes_modDie _ _ _ fun x => x.held_putLine _)

/-! ### Reads and writes at an L2 -/

theorem State.onlyHomes_miss {s t : State} {d : DieId} {remote : Bool} {va : Nat} {l : Leaf} (h : s.miss d remote va = .ok (l, t)) :
    s.onlyHomes t := by
  unfold State.miss at h
  split at h
  · cases h
  · rename_i ht
    have := State.onlyHomes_translate ht
    split at h
    · split at h
      · cases h
      · cases h; exact this
    · cases h; exact this

theorem State.onlyHomes_l2Read {s t : State} {d : DieId} {remote fresh : Bool} {va n v : Nat}
    (h : s.l2Read d remote fresh va n = .ok (v, t)) : s.onlyHomes t := by
  have hput : ∀ (u : State) (ln : L2Line), u.onlyHomes (u.modDie d (fun x => x.putLine ln)) := fun u ln =>
    u.onlyHomes_modDie d _ fun x => x.held_putLine _
  unfold State.l2Read at h
  extract_lets bad take fill at h
  have hbad : bad ≠ .ok (v, t) := by simp [bad]
  have hfill : ∀ q, fill q = .ok (v, t) → s.onlyHomes t := by
    intro q hq
    simp only [fill] at hq
    split at hq
    · cases hq
    · rename_i l s1 hmiss
      have h1 := State.onlyHomes_miss hmiss
      split at hq
      · split at hq
        · exact absurd hq hbad
        · split at hq
          · exact absurd hq hbad
          · split at hq
            · cases hq; exact State.onlyHomes_trans h1 (hput _ _)
            · cases hq; exact h1
      · split at hq
        · split at hq
          · rename_i hf
            cases hq
            exact State.onlyHomes_trans h1 (State.onlyHomes_homeFill hf)
          · exact absurd hq hbad
        · split at hq
          · rename_i hf
            cases hq
            exact State.onlyHomes_trans (State.onlyHomes_trans (State.onlyHomes_trans h1 (State.onlyHomes_drainFlue _ _))
              (State.onlyHomes_homeFill hf)) (hput _ _)
          · exact absurd hq hbad
  split at h
  · split at h
    · split at h
      · exact absurd h hbad
      · split at h
        · cases h; exact s.onlyHomes_correctRuns _
        · exact absurd h hbad
    · split at h
      · exact absurd h hbad
      · split at h
        · cases h
          exact State.onlyHomes_ite s.onlyHomes_refl (s.onlyHomes_modDie d _ fun _ => rfl)
        · exact hfill () h
  · exact hfill () h

theorem State.onlyHomes_l2Write {s t : State} {d : DieId} {remote : Bool} {writer : Option (CoreId × CtxId)} {va n v : Nat}
    (h : s.l2Write d remote writer va n v = .ok t) : s.onlyHomes t := by
  have hput : ∀ (u : State) (ln : L2Line), u.onlyHomes (u.modDie d (fun x => x.putLine ln)) := fun u ln =>
    u.onlyHomes_modDie d _ fun x => x.held_putLine _
  unfold State.l2Write at h
  split at h
  · split at h
    · cases h
    · split at h
      · cases h
      · split at h
        · split at h
          · cases h
          · cases h
            exact State.onlyHomes_trans (s.onlyHomes_correctRuns _) (State.onlyHomes_physWrite _ _ _ _)
        · cases h; exact hput _ _
  · split at h
    · cases h
    · rename_i l s1 htr
      have h1 := State.onlyHomes_translate htr
      dsimp only at h
      split at h
      · cases h
      · split at h
        · cases h
        · split at h
          · cases h
            exact State.onlyHomes_trans h1 (State.onlyHomes_ite (hput _ _) (State.onlyHomes_physWrite _ _ _ _))
          · split at h
            · split at h
              · rename_i hfill
                cases h
                exact State.onlyHomes_trans h1 (State.onlyHomes_trans (State.onlyHomes_homeFill hfill) (State.onlyHomes_physWrite _ _ _ _))
              · cases h
            · split at h
              · cases h
              · cases h; exact State.onlyHomes_trans h1 (hput _ _)

/-! ### Replies and reports (08 R173, R174; 14 R322) -/

theorem State.onlyHomes_mark (s : State) (c : CoreId) (scope : Word) (va : Nat) : s.onlyHomes (s.mark c scope va) := by
  unfold State.mark
  split
  · exact s.onlyHomes_modDie _ _ fun _ => rfl
  · exact s.onlyHomes_refl

theorem State.onlyHomes_releaseWrite {s t : State} {d : DieId} {va n v : Nat} (h : s.releaseWrite d va n v = .ok t) : s.onlyHomes t := by
  unfold State.releaseWrite at h
  split at h
  · cases h
  · rename_i s1 hw
    have h1 : s.onlyHomes s1 := State.onlyHomes_trans (s.onlyHomes_writeBackAll d) (State.onlyHomes_l2Write hw)
    cases h
    refine State.onlyHomes_trans h1 (State.onlyHomes_trans ?_ (State.onlyHomes_mark _ _ _ _))
    split
    · exact State.onlyHomes_ite s1.onlyHomes_refl (s1.onlyHomes_writeBack d _)
    · exact s1.onlyHomes_refl

theorem State.onlyHomes_putReply {s t : State} {d : DieId} {p : Sender} {a : Nat} {w0 w1 : Word} (h : s.putReply d p a w0 w1 = some t) :
    s.onlyHomes t := by
  unfold State.putReply at h
  dsimp only at h
  split at h
  · split at h
    · cases h; exact s.onlyHomes_localWrite _ _ _ _
    · cases h
  · split at h
    · cases h; exact s.onlyHomes_localWrite _ _ _ _
    · cases h
  · split at h
    · split at h
      · rename_i hw
        cases h
        exact State.onlyHomes_releaseWrite hw
      · cases h
    · cases h
  · cases h

theorem State.onlyHomes_chargeReply (s : State) (d : DieId) (p : Sender) (a : Nat) : s.onlyHomes (s.chargeReply d p a) := by
  unfold State.chargeReply
  split
  · exact State.onlyHomes_ite (s.onlyHomes_charge _ _ _) s.onlyHomes_refl
  · exact State.onlyHomes_ite s.onlyHomes_refl (s.onlyHomes_charge _ _ _)

theorem State.onlyHomes_countMsgErr (s : State) (d : DieId) : s.onlyHomes (s.countMsgErr d) := s.onlyHomes_modDie d _ fun _ => rfl

theorem State.onlyHomes_sendFrame (s : State) (c : CoreId) (dst cls : Nat) (b : FrameBody) : s.onlyHomes (s.sendFrame c dst cls b) :=
  State.onlyHomes_of_dies rfl

theorem State.onlyHomes_reply (s : State) (d : DieId) (p : Sender) (m : Message) (status : Nat) (value : Word) :
    s.onlyHomes (s.reply d p m status value) := by
  have hback := s.onlyHomes_writeBackAll d
  unfold State.reply
  dsimp only
  refine State.onlyHomes_ite (State.onlyHomes_ite s.onlyHomes_refl (State.onlyHomes_trans hback (State.onlyHomes_countMsgErr _ _)))
    (State.onlyHomes_ite (State.onlyHomes_trans hback (State.onlyHomes_sendFrame _ _ _ _ _)) (State.onlyHomes_trans hback ?_))
  split
  · rename_i hput
    exact State.onlyHomes_trans (State.onlyHomes_putReply hput) (State.onlyHomes_chargeReply _ _ _ _)
  · exact State.onlyHomes_trans (State.onlyHomes_countMsgErr _ _) (State.onlyHomes_report _ _)

theorem State.onlyHomes_dropBad (s : State) (d : DieId) (pa : Nat) : s.onlyHomes (s.dropBad d pa) := by
  have hhome : s.onlyHomes (match s.homeOf pa with
      | some h => s.modDie h (fun x => { x with l2 := x.l2.filter (fun ln => !(ln.home && (decide (ln.pa ≤ pa) && decide (pa < ln.pa + ln.size)))) })
      | none => s) := by
    split
    · exact s.onlyHomes_modDie _ _ fun _ => rfl
    · exact s.onlyHomes_refl
  exact State.onlyHomes_trans hhome (State.onlyHomes_ite (State.onlyHomes_refl _) (State.onlyHomes_modDie _ d _ fun _ => rfl))

theorem State.onlyHomes_failLaunches (s : State) (d : DieId) : s.onlyHomes (s.failLaunches d) :=
  State.onlyHomes_foldl (fun t a => State.onlyHomes_trans (t.onlyHomes_report (.launchFailed a)) (State.onlyHomes_of_dies rfl)) _ s

theorem State.onlyHomes_noteBad (s : State) (d : DieId) (domain : BitVec 16) (va : Nat) : s.onlyHomes (s.noteBad d domain va) := by
  have h1 : s.onlyHomes (((s.report (.uncorrectable d.val (s.badPlace d domain va))).failLaunches d).dropBad d (s.badPlace d domain va)) :=
    State.onlyHomes_trans (State.onlyHomes_trans (s.onlyHomes_report _) (State.onlyHomes_failLaunches _ d)) (State.onlyHomes_dropBad _ _ _)
  unfold State.noteBad
  dsimp only
  split
  · exact State.onlyHomes_trans h1 (State.onlyHomes_report _ _)
  · exact h1

end Sys2Proof.Machine

/-! What a core's accesses change, and the standard handlers that make them (06 R116 to R126; 08 R181). -/
namespace Sys2Proof.Machine
open Sys2Proof Sys2Proof.Claims

/-! ### Accesses of a core -/

/-- From `s` to `t` the cores have changed in their PLBs and L1s alone, and all else as the memory system changes it. -/
def State.onlyAccesses (s t : State) : Prop :=
  t = { s with
    cores := t.cores
    agenda := t.agenda, dies := t.dies, mem := t.mem, lmem := t.lmem, weak := t.weak, rewritten := t.rewritten, flue := t.flue
    launches := t.launches, txFrames := t.txFrames, txSeq := t.txSeq, notes := t.notes } ∧
  (∀ d, (t.dieAt d).held = (s.dieAt d).held) ∧ (∃ l, t.notes = s.notes ++ l) ∧
    ∀ c, t.coreAt c = { s.coreAt c with plb := (t.coreAt c).plb, l1 := (t.coreAt c).l1 }

theorem State.onlyAccesses_of_onlyHomes {s t : State} (h : s.onlyHomes t) : s.onlyAccesses t :=
  ⟨by rw [h.1], h.2.1, h.2.2, fun c => by rw [State.onlyHomes_coreAt h]⟩

theorem State.onlyAccesses_refl (s : State) : s.onlyAccesses s := State.onlyAccesses_of_onlyHomes s.onlyHomes_refl

theorem State.onlyAccesses_trans {s t u : State} (a : s.onlyAccesses t) (b : t.onlyAccesses u) : s.onlyAccesses u := by
  obtain ⟨ha, hda, ⟨l, hl⟩, hca⟩ := a
  obtain ⟨hb, hdb, ⟨m, hm⟩, hcb⟩ := b
  refine ⟨?_, fun d => (hdb d).trans (hda d), ⟨l ++ m, by rw [hm, hl, List.append_assoc]⟩, fun c => by rw [hcb, hca]⟩
  rw [hb, ha]

theorem State.onlyAccesses_modCore (s : State) (c : CoreId) (f : Core → Core)
    (h : ∀ k : Core, f k = { k with plb := (f k).plb, l1 := (f k).l1 }) : s.onlyAccesses (s.modCore c f) := by
  refine ⟨rfl, fun _ => rfl, ⟨[], (List.append_nil _).symm⟩, fun d => ?_⟩
  rw [State.coreAt_modCore]
  split
  · rename_i hd
    rw [hd]
    exact h _
  · rfl

theorem State.onlyAccesses_hqueue {s t : State} (h : s.onlyAccesses t) (c : CoreId) : (t.coreAt c).hqueue = (s.coreAt c).hqueue := by
  rw [h.2.2.2 c]

theorem State.onlyAccesses_held {s t : State} (h : s.onlyAccesses t) (d : DieId) : (t.dieAt d).held = (s.dieAt d).held := h.2.1 d

theorem State.onlyAccesses_plbCheck (s : State) (c : CoreId) (domain : BitVec 16) (va need : Nat) :
    s.onlyAccesses (s.plbCheck c domain va need).2 := by
  unfold State.plbCheck
  dsimp only
  split
  · exact s.onlyAccesses_refl
  · split
    · refine State.onlyAccesses_trans (State.onlyAccesses_of_onlyHomes (s.onlyHomes_correctRuns (s.tableRuns (dieOf c) domain))) ?_
      dsimp only
      exact State.onlyAccesses_modCore _ _ _ fun _ => rfl
    · exact s.onlyAccesses_refl

theorem State.onlyAccesses_l1Fill (s : State) (c : CoreId) (va : Nat) : s.onlyAccesses (s.l1Fill c va) := by
  unfold State.l1Fill
  split
  · exact s.onlyAccesses_modCore _ _ fun _ => rfl
  · exact s.onlyAccesses_refl

theorem State.onlyHomes_chargeRead (s : State) (d : DieId) (domain : BitVec 16) (far : Bool) : s.onlyHomes (s.chargeRead d domain far) :=
  State.onlyHomes_ite (s.onlyHomes_charge _ _ _) s.onlyHomes_refl

theorem State.onlyAccesses_load {s t : State} {serve : Serve} {remote : Bool} {va n v : Nat} (h : s.load serve remote va n = .ok (v, t)) :
    s.onlyAccesses t := by
  unfold State.load at h
  dsimp only at h
  split at h
  · cases h; exact s.onlyAccesses_refl
  · have hplb := s.onlyAccesses_plbCheck s.runCore s.ctx.domain va rightR
    split at h
    · cases h
    · split at h
      · cases h; exact hplb
      · split at h
        · cases h
        · rename_i hread
          have hread := State.onlyAccesses_trans hplb (State.onlyAccesses_of_onlyHomes (State.onlyHomes_l2Read hread))
          have hserved := fun far => State.onlyAccesses_trans hread (State.onlyAccesses_of_onlyHomes
            (State.onlyHomes_chargeRead _ (dieOf s.runCore) s.ctx.domain far))
          cases h
          split
          · exact State.onlyAccesses_trans (hserved _) (State.onlyAccesses_l1Fill _ _ _)
          · exact hserved _
  · cases h

theorem State.onlyAccesses_store {s t : State} {remote : Bool} {va n v : Nat} (h : s.store remote va n v = .ok t) : s.onlyAccesses t := by
  unfold State.store at h
  dsimp only at h
  split at h
  · cases h; exact State.onlyAccesses_of_onlyHomes (s.onlyHomes_localWrite _ _ _ _)
  · have hplb := s.onlyAccesses_plbCheck s.runCore s.ctx.domain va rightW
    split at h
    · cases h
    · split at h
      · cases h
      · rename_i hwrite
        cases h
        exact State.onlyAccesses_trans (State.onlyAccesses_trans hplb (State.onlyAccesses_of_onlyHomes (State.onlyHomes_l2Write hwrite)))
          (State.onlyAccesses_modCore _ _ _ fun _ => rfl)
  · cases h

theorem State.onlyAccesses_acquireSteps (s : State) (c : CoreId) (scope : Word) : s.onlyAccesses (s.acquireSteps c scope) := by
  have hclear : s.onlyAccesses (if scopeKind scope == 0 then s else s.l1Clear c) := by
    split
    · exact s.onlyAccesses_refl
    · exact s.onlyAccesses_modCore _ _ fun _ => rfl
  unfold State.acquireSteps
  dsimp only
  split
  · exact State.onlyAccesses_trans hclear (State.onlyAccesses_of_onlyHomes (State.onlyHomes_modDie _ _ _ fun _ => rfl))
  · exact hclear

/-! ### Standard handlers (08 R181) -/

theorem State.onlyAccesses_stdUpdate {s t : State} {va n v : Nat} {op : Nat → Nat} (h : s.stdUpdate va n op = .ok (v, t)) :
    s.onlyAccesses t := by
  unfold State.stdUpdate at h
  split at h
  · cases h
  · rename_i hload
    split at h
    · cases h
    · rename_i hstore
      cases h
      exact State.onlyAccesses_trans (State.onlyAccesses_load hload) (State.onlyAccesses_store hstore)

/-- The state in which a step of a standard handler has ended, if not that in which it began. -/
def StdResult.state (begun : State) : StdResult → State
  | .done s _ => s
  | .trapped s _ _ => s
  | .misaligned _ => begun
  | .badCommand => begun

theorem State.onlyAccesses_stdLoop (s b : State) (size : Nat) (op : Nat → Nat → Nat) (left t src : Nat) (hb : b.onlyAccesses s) :
    b.onlyAccesses ((s.stdLoop size op left t src).state b) := by
  induction left generalizing s t src with
  | zero => exact hb
  | succ left ih =>
    unfold State.stdLoop
    split
    · exact hb
    · exact hb
    · rename_i hload
      have h1 := State.onlyAccesses_trans hb (State.onlyAccesses_load (by split at hload; exact hload; cases hload))
      split
      · exact h1
      · exact h1
      · rename_i hupdate
        exact ih _ _ _ (State.onlyAccesses_trans h1 (State.onlyAccesses_stdUpdate hupdate))

theorem State.onlyAccesses_stdWord (s : State) (size va : Nat) (op : Nat → Nat) : s.onlyAccesses ((s.stdWord size va op).state s) := by
  unfold State.stdWord
  split
  · rename_i hupdate
    exact State.onlyAccesses_stdUpdate hupdate
  · exact s.onlyAccesses_refl
  · exact s.onlyAccesses_refl

theorem State.onlyAccesses_stdHandler (s : State) (n : Nat) (m : Message) : s.onlyAccesses ((s.stdHandler n m).state s) := by
  have hr := s.onlyAccesses_refl
  unfold State.stdHandler
  extract_lets t size e src
  split
  · split
    · exact hr
    · split
      · exact hr
      · exact s.onlyAccesses_stdWord _ _ _
  · split
    · exact hr
    · split
      · exact hr
      · split
        · exact hr
        · split
          · exact hr
          · exact s.onlyAccesses_stdLoop s _ _ _ _ _ hr

theorem State.hqueue_modCtxAt (s : State) (c d : CoreId) (x : CtxId) (f : Ctx → Ctx) :
    ((s.modCtxAt c x f).coreAt d).hqueue = (s.coreAt d).hqueue := by
  unfold State.modCtxAt
  rw [State.coreAt_modCore]
  split
  · rename_i h; rw [h]
  · rfl

/-- The end of an invocation leaves the queues of the cores. -/
theorem State.hqueue_endInvocation (s : State) (c d : CoreId) : ((s.endInvocation c).coreAt d).hqueue = (s.coreAt d).hqueue := by
  unfold State.endInvocation
  rw [State.hqueue_modCtxAt, State.coreAt_modCore]
  split
  · rename_i h; rw [h]
  · rfl

/-- A standard handler has run to its end: the invocation and the handler context have ended, and the queues are as before. -/
theorem State.runStd_ends (s : State) (c : CoreId) (d : Delivery) (n : Nat) :
    ((s.runStd c d n).coreAt c).hqueue = (s.coreAt c).hqueue ∧ ((s.runStd c d n).coreAt c).inv = none ∧
      ((s.runStd c d n).ctxAt c handlerCtx).status = .ended ∧ ∀ e, ((s.runStd c d n).dieAt e).held = (s.dieAt e).held := by
  obtain ⟨b, hb⟩ : ∃ b, b = ({ s with cur := (c, handlerCtx) } : State).startAt c handlerCtx (Ctx.start 0 0 0 0 d.sender.domain 0 0) := ⟨_, rfl⟩
  obtain ⟨t, ht⟩ : ∃ t, t = b.acquireSteps c packageScope := ⟨_, rfl⟩
  have hbt : b.onlyAccesses t := by rw [ht]; exact b.onlyAccesses_acquireSteps c packageScope
  have hreply : ∀ (r : State) k v, r.onlyAccesses (r.reply (dieOf c) d.sender d.msg k v) := fun r k v =>
    State.onlyAccesses_of_onlyHomes (r.onlyHomes_reply _ _ _ _ _)
  obtain ⟨u, hu, hrun⟩ : ∃ u, t.onlyAccesses u ∧ s.runStd c d n = u.endInvocation c := by
    refine ⟨_, ?_, by unfold State.runStd; rw [← hb, ← ht]⟩
    have hstd := t.onlyAccesses_stdHandler n d.msg
    cases hres : t.stdHandler n d.msg with
    | done r v =>
      rw [hres] at hstd
      exact State.onlyAccesses_trans hstd (hreply r _ _)
    | trapped q k a =>
      rw [hres] at hstd
      have hnote : q.onlyAccesses (if k = 0x08 then q.noteBad (dieOf c) d.sender.domain a else q) :=
        State.onlyAccesses_of_onlyHomes (State.onlyHomes_ite (q.onlyHomes_noteBad _ _ _) q.onlyHomes_refl)
      exact State.onlyAccesses_trans (State.onlyAccesses_trans hstd hnote) (State.onlyAccesses_trans (hreply _ _ _)
        (State.onlyAccesses_of_onlyHomes (State.onlyHomes_report _ _)))
    | misaligned a => exact hreply t _ _
    | badCommand => exact hreply t _ _
  have hbu := State.onlyAccesses_trans hbt hu
  obtain ⟨hinv, hstatus, -, -⟩ := u.endInvocation_ends c
  rw [hrun]
  refine ⟨?_, hinv, hstatus, fun e => ?_⟩
  · rw [State.hqueue_endInvocation, State.onlyAccesses_hqueue hbu, hb]
    exact State.hqueue_modCtxAt _ _ _ _ _
  · exact (State.onlyAccesses_held hbu e).trans (by rw [hb]; rfl)

end Sys2Proof.Machine

/-! Messages that reach an inbox, a home core or a handler context, and messages that a destination accepts (06 R125; 08 R171 to R180;
02 R29). -/
namespace Sys2Proof.Machine
open Sys2Proof Sys2Proof.Claims

/-! ### A slot filled for a sender (06 R122, R125) -/

/-- The writer of a slot after which all reserved slots are published fills the ring by one. -/
theorem Ring.publish_reserve {r : Ring} (h : r.res = []) (p : Option Sender) :
    (r.reserve none p).publish ((r.reserve none p).res.length - 1) = ringFilledBy r p := by
  unfold Ring.publish Ring.reserve Ring.settle ringFilledBy
  cases p <;> simp [h, Ring.slots]

theorem messageNumber_eq (m : Message) :
    [m.w0, m.w1, m.w2, m.w3, m.w4, m.w5, m.w6, m.w7].foldr (fun w acc => w.toNat + 2 ^ 64 * acc) 0 = messageNumber m := by
  have hpow : ∀ k, (2 : Nat) ^ (64 * k) = (2 ^ 64) ^ k := pow_mul 2 64
  simp only [List.foldr, messageNumber, hpow 2, hpow 3, hpow 4, hpow 5, hpow 6, hpow 7]
  generalize (2 : Nat) ^ 64 = b
  ring

theorem Message.cmd_eq (m : Message) : m.cmd = (m.w0.extractLsb' 56 8).toNat := bits_eq_extractLsb' m.w0 rfl

theorem msgClass_eq (m : Message) : msgClass m = classOf m := by
  simp [msgClass, classOf, bits, Nat.shiftRight_eq_div_pow]

/-! ### Inboxes -/

theorem State.toInbox_eq (s : State) (p : Sender) (c : CoreId) (m : Message) : s.toInbox p c m =
    let r := (s.coreAt c).rings[(Fin.ofNat 8 (classOf m))]
    if isReserved c = true ∨ (s.coreAt c).placed = none then some (s.reply (dieOf c) p m 5 0)
    else if r.free = 0 then none
    else if m.w0.extractLsb' 56 8 ≠ 0x80 then some (s.reply (dieOf c) p m 2 0)
    else some (s.fillSlot c (classOf m) (some p) 64 (messageNumber m)) := by
  have hcmd : (m.cmd != 0x80) = decide (m.w0.extractLsb' 56 8 ≠ 0x80) := by
    rw [Message.cmd_eq, Bool.eq_iff_iff]
    simp [← BitVec.toNat_inj]
  unfold State.toInbox
  rw [messageNumber_eq, msgClass_eq, hcmd]
  simp [State.ringAt]

theorem State.fillSlot_frame (s : State) (c : CoreId) (n : Nat) (p : Option Sender) (k v : Nat) :
    (s.fillSlot c n p k v).lmem =
        writeN s.lmem (localKey c ((s.ringAt c n).base + (s.ringAt c n).wridx * 2 ^ (s.ringAt c n).szlog)) k v ∧
      (s.fillSlot c n p k v).mem = s.mem ∧ (s.fillSlot c n p k v).dies = s.dies :=
  ⟨rfl, rfl, rfl⟩

theorem State.cores_fillSlot {s : State} {c : CoreId} {n : Nat} (h : (s.ringAt c n).res = []) (p : Option Sender) (k v : Nat) :
    (s.fillSlot c n p k v).cores =
      s.cores.set c { s.coreAt c with rings := (s.coreAt c).rings.set (Fin.ofNat 8 n) (ringFilledBy (s.ringAt c n) p) } := by
  unfold State.fillSlot
  dsimp only
  rw [Ring.publish_reserve h]
  rfl

/-- INBOX_MESSAGE (06 R125; 08 R171). -/
theorem inboxMessage_arrives (d : Delivery) (s : State) :
    let r := (s.coreAt d.core).rings[(Fin.ofNat 8 (classOf d.msg))]
    ∃ t, exec (.inboxMessage d) s = .next t ∧
      if isReserved d.core = true ∨ (s.coreAt d.core).placed = none then t = s.reply (dieOf d.core) d.sender d.msg 5 0
      else if r.free = 0 then t = s.deferTurn (.event (.inboxMessage d))
      else if d.msg.w0.extractLsb' 56 8 ≠ 0x80 then t = s.reply (dieOf d.core) d.sender d.msg 2 0
      else wroteBytes s.lmem t.lmem (localKey d.core (r.base + r.wridx * 2 ^ r.szlog)) 64 (messageNumber d.msg) ∧
        t.mem = s.mem ∧ t.dies = s.dies ∧ (r.res = [] → t.cores =
          s.cores.set d.core { s.coreAt d.core with
            rings := (s.coreAt d.core).rings.set (Fin.ofNat 8 (classOf d.msg)) (ringFilledBy r (some d.sender)) }) := by
  intro r
  have hexec : exec (.inboxMessage d) s = .next (match s.toInbox d.sender d.core d.msg with
    | some t => t
    | none => s.deferTurn (.event (.inboxMessage d))) := rfl
  have hinbox := s.toInbox_eq d.sender d.core d.msg
  refine ⟨_, hexec, ?_⟩
  dsimp only at hinbox
  rw [hinbox]
  split
  · rfl
  · split
    · rfl
    · split
      · rfl
      · obtain ⟨hlmem, hmem, hdies⟩ := s.fillSlot_frame d.core (classOf d.msg) (some d.sender) 64 (messageNumber d.msg)
        exact ⟨by rw [hlmem]; exact wroteBytes_writeN _ _ _ _, hmem, hdies, fun h => State.cores_fillSlot h _ _ _⟩

/-! ### Handler messages (08 R175, R176) -/

/-- HANDLER_MESSAGE whose home core is known. -/
theorem handlerMessage_arrives {m : Message} {p : Sender} {s : State} {c : CoreId} {cmd : Nat} (hcmd : m.cmd = cmd) (hp : pointerOk m.w2 = true)
    (hc : s.homeCore (if p.remote then 0 else dieOf p.core) p.domain (m.w2.toNat % 2 ^ 52) = .ok c) :
    ∃ t, exec (.handlerMessage m p) s = .next t ∧
      if 32 ≤ (s.coreAt c).hqueue.length then t = s.deferTurn (.event (.handlerMessage m p))
      else if cmd < 0x40 ∨ 0x7F < cmd then t = s.reply (dieOf c) p m 2 0
      else match (s.dieAt (dieOf c)).bindings[(Fin.ofNat 64 (cmd - 0x40))] with
        | some _ => t = s.setCore c { s.coreAt c with hqueue := (s.coreAt c).hqueue ++ [⟨m, p, c⟩] }
        | none =>
          if (s.dieAt (dieOf c)).heldFor (cmd - 0x40) < 64 then
            (t.dieAt (dieOf c)).held = (s.dieAt (dieOf c)).held ++ [⟨m, p, c⟩] ∧ t.cores = s.cores ∧ t.mem = s.mem
          else t = s.reply (dieOf c) p m 1 (BitVec.ofNat 64 (cmd - 0x40)) := by
  have hexec : exec (.handlerMessage m p) s = .next (match s.toHandler (if p.remote then 0 else dieOf p.core) p m with
    | some t => t
    | none => s.deferTurn (.event (.handlerMessage m p))) := rfl
  have hhome : (if pointerOk m.w2 then s.homeCore (if p.remote then 0 else dieOf p.core) p.domain (pointerAddr m.w2) else .error 0x05) =
      .ok c := by rw [if_pos hp]; exact hc
  refine ⟨_, hexec, ?_⟩
  unfold State.toHandler handlerNumber
  dsimp only
  rw [hhome]
  simp only [hcmd]
  by_cases hfull : 32 ≤ (s.coreAt c).hqueue.length
  · rw [if_pos hfull, if_pos hfull]
  · by_cases hbad : cmd < 0x40 ∨ 0x7F < cmd
    · rw [if_neg hfull, if_pos hbad, if_neg hfull, if_pos (by simpa using hbad)]
    · rw [if_neg hfull, if_neg hbad, if_neg hfull, if_neg (by simpa using hbad)]
      cases hb : (s.dieAt (dieOf c)).bindings[(Fin.ofNat 64 (cmd - 0x40))] with
      | some b => rfl
      | none =>
        dsimp only
        split
        · exact ⟨by rw [State.dieAt_modDie_self], rfl, rfl⟩
        · rfl

/-! ### The start of an invocation (08 R176 to R178) -/

/-- The message that the handler context takes: the oldest of the lowest class. -/
theorem lowestClass_eq {before after : List Delivery} {d : Delivery} (hall : ∀ e ∈ before ++ d :: after, classOf e.msg < 4)
    (hbefore : ∀ e ∈ before, classOf d.msg < classOf e.msg) (hafter : ∀ e ∈ after, classOf d.msg ≤ classOf e.msg) :
    lowestClass (before ++ d :: after) = some d := by
  have hd : classOf d.msg < 4 := hall d (by simp)
  have hnone : ∀ k, k < classOf d.msg → (before ++ d :: after).find? (fun e => msgClass e.msg == k) = none := by
    intro k hk
    refine List.find?_eq_none.2 fun e he => ?_
    rw [msgClass_eq]
    rcases List.mem_append.1 he with hb | ha
    · have := hbefore e hb
      simp only [beq_iff_eq]
      omega
    · rcases List.mem_cons.1 ha with rfl | ha
      · simp only [beq_iff_eq]
        omega
      · have := hafter e ha
        simp only [beq_iff_eq]
        omega
  have hsome : (before ++ d :: after).find? (fun e => msgClass e.msg == classOf d.msg) = some d := by
    rw [List.find?_append, List.find?_eq_none.2 fun e he => ?_]
    · simp [msgClass_eq]
    · have := hbefore e he
      rw [msgClass_eq]
      simp only [beq_iff_eq]
      omega
  unfold lowestClass
  by_cases h0 : classOf d.msg = 0
  · rw [← h0, hsome]
  · rw [hnone 0 (by omega)]
    by_cases h1 : classOf d.msg = 1
    · rw [← h1, hsome]
    · rw [hnone 1 (by omega)]
      by_cases h2 : classOf d.msg = 2
      · rw [← h2, hsome]
      · rw [hnone 2 (by omega)]
        cases before with
        | nil => rfl
        | cons e es =>
          have h4 := hall e (by simp)
          have hlt := hbefore e (by simp)
          omega

theorem erase_of_before {before after : List Delivery} {d : Delivery} (hbefore : ∀ e ∈ before, classOf d.msg < classOf e.msg) :
    (before ++ d :: after).erase d = before ++ after := by
  rw [List.erase_append_right _ fun h => Nat.lt_irrefl _ (hbefore d h), List.erase_cons_head]

/-- With no message held, none is released. -/
theorem State.releaseHeld_nil {s : State} {d : DieId} (h : (s.dieAt d).held = []) : s.releaseHeld d = s := by
  unfold State.releaseHeld
  rw [h]
  rfl

/-- The registers of the handler context at the start of an invocation (08 R178). -/
theorem handlerStart_fields (b : Binding) (svec : Word) (d : Delivery) :
    let y := handlerStart b svec d
    y.s[2] = 0 ∧ y.s[4] = d.msg.w0 ∧ y.s[5] = d.msg.w1 ∧ y.s[6] = d.msg.w2 ∧ y.s[7] = d.msg.w3 ∧ y.s[8] = d.msg.w4 ∧
      y.s[9] = d.msg.w5 ∧ y.s[10] = d.msg.w6 ∧ y.s[11] = d.msg.w7 ∧ y.s[13] = d.sender.domain.setWidth 64 := by
  refine ⟨?_, ?_, ?_, ?_, ?_, ?_, ?_, ?_, ?_, ?_⟩ <;> simp [handlerStart, Ctx.start]

/-- The new invocation of a binding without a standard handler (08 R178). -/
def State.invoke (s : State) (c : CoreId) (d : Delivery) (b : Binding) (n : Nat) : State :=
  ((s.modCore c (fun x => { x with inv := some ⟨d.msg, d.sender, n, 0, false⟩ })).startAt c handlerCtx
    (handlerStart b (s.dieAt (dieOf c)).fw.svec d)).acquireSteps c packageScope

theorem State.inv_modCtxAt (s : State) (c d : CoreId) (x : CtxId) (f : Ctx → Ctx) :
    ((s.modCtxAt c x f).coreAt d).inv = (s.coreAt d).inv := by
  unfold State.modCtxAt
  rw [State.coreAt_modCore]
  split
  · rename_i h; rw [h]
  · rfl

/-- An acquire leaves the invocation of a core. -/
theorem State.inv_acquireSteps (s : State) (c d : CoreId) (scope : Word) : ((s.acquireSteps c scope).coreAt d).inv = (s.coreAt d).inv := by
  rw [(s.onlyAccesses_acquireSteps c scope).2.2.2 d]

theorem State.invoke_starts (s : State) (c : CoreId) (d : Delivery) (b : Binding) (n : Nat) :
    let t := s.invoke c d b n
    (t.coreAt c).hqueue = (s.coreAt c).hqueue ∧ (t.coreAt c).inv = some ⟨d.msg, d.sender, n, 0, false⟩ ∧
      (∀ e x, (e, x) ≠ (c, handlerCtx) → t.ctxAt e x = s.ctxAt e x) ∧ s.sameBytes t ∧
      t.ctxAt c handlerCtx = { handlerStart b (s.dieAt (dieOf c)).fw.svec d with waitFrom := s.cycle } ∧ (t.coreAt c).l1 = [] ∧
      ∀ e, (t.dieAt e).held = (s.dieAt e).held := by
  intro t
  obtain ⟨q, hq⟩ : ∃ q, q = s.modCore c (fun x => { x with inv := some ⟨d.msg, d.sender, n, 0, false⟩ }) := ⟨_, rfl⟩
  obtain ⟨u, hu⟩ : ∃ u, u = q.startAt c handlerCtx (handlerStart b (s.dieAt (dieOf c)).fw.svec d) := ⟨_, rfl⟩
  have ht : t = u.acquireSteps c packageScope := by rw [hu, hq]; rfl
  have hqx : ∀ e x, q.ctxAt e x = s.ctxAt e x := fun e x => by
    rw [hq]
    exact s.ctxAt_modCore c e x _ fun _ => rfl
  have hux : ∀ e x, u.ctxAt e x = if e = c ∧ x = handlerCtx then
      { handlerStart b (s.dieAt (dieOf c)).fw.svec d with waitFrom := s.cycle } else s.ctxAt e x := fun e x => by
    rw [hu, State.startAt, State.ctxAt_modCtxAt, hqx, hq]
    rfl
  rw [ht]
  refine ⟨?_, ?_, fun e x he => ?_, fun x => ?_, ?_, u.l1_acquireSteps c (by decide), fun e => ?_⟩
  · rw [State.onlyAccesses_hqueue (u.onlyAccesses_acquireSteps c packageScope), hu, State.startAt, State.hqueue_modCtxAt, hq,
      State.coreAt_modCore_self]
  · rw [State.inv_acquireSteps, hu, State.startAt, State.inv_modCtxAt, hq, State.coreAt_modCore_self]
  · rw [State.ctxAt_acquireSteps, hux, if_neg fun h => he (Prod.ext h.1 h.2)]
  · have := u.sameBytes_acquireSteps c packageScope x
    rw [hu, hq] at this ⊢
    exact this
  · rw [State.ctxAt_acquireSteps, hux, if_pos ⟨rfl, rfl⟩]
  · rw [State.onlyAccesses_held (u.onlyAccesses_acquireSteps c packageScope), hu, hq]
    rfl

/-- HANDLER_INVOCATION of the message that the handler context takes. -/
theorem handlerInvocation_takes {c : CoreId} {s : State} {d : Delivery} {before after : List Delivery} {n : Nat} (hinv : (s.coreAt c).inv = none)
    (hq : (s.coreAt c).hqueue = before ++ d :: after) (hall : ∀ e ∈ (s.coreAt c).hqueue, classOf e.msg < 4)
    (hbefore : ∀ e ∈ before, classOf d.msg < classOf e.msg) (hafter : ∀ e ∈ after, classOf d.msg ≤ classOf e.msg)
    (hheld : (s.dieAt (dieOf c)).held = []) (hn : handlerNumber d.msg = n) :
    let s' := s.setCore c { s.coreAt c with hqueue := before ++ after }
    exec (.handlerInvocation c) s = .next (match (s.dieAt (dieOf c)).bindings[(Fin.ofNat 64 n)] with
      | none => s'.reply (dieOf c) d.sender d.msg 1 (BitVec.ofNat 64 n)
      | some b => match b.std with
        | some i => s'.runStd c d i
        | none => s'.invoke c d b n) := by
  subst hn
  intro s'
  have hexec : exec (.handlerInvocation c) s = execHandlerInvocation c s := rfl
  have herase : s.modCore c (fun x => { x with hqueue := x.hqueue.erase d }) = s' := by
    unfold State.modCore
    dsimp only
    rw [hq, erase_of_before hbefore]
  have hheld' : (s'.dieAt (dieOf c)).held = [] := hheld
  have htake : lowestClass (s.coreAt c).hqueue = some d := by
    rw [hq] at hall ⊢
    exact lowestClass_eq hall hbefore hafter
  rw [hexec]
  unfold execHandlerInvocation
  dsimp only
  rw [hinv, htake]
  dsimp only
  rw [herase]
  cases hb : (s.dieAt (dieOf c)).bindings[(Fin.ofNat 64 (handlerNumber d.msg))] with
  | none =>
    dsimp only
    rw [State.releaseHeld_nil (((s'.onlyHomes_reply _ _ _ _ _).2.1 _).trans hheld')]
  | some b =>
    dsimp only
    cases hstd : b.std with
    | some i =>
      dsimp only
      rw [State.releaseHeld_nil (((s'.runStd_ends c d i).2.2.2 _).trans hheld')]
    | none =>
      dsimp only
      obtain ⟨-, -, -, -, -, -, hkept⟩ := s'.invoke_starts c d b (handlerNumber d.msg)
      exact congrArg Host.Outcome.next (State.releaseHeld_nil ((hkept _).trans hheld'))

/-! ### A trap in the handler context (08 R180) -/

/-- A trap in the handler context ends its invocation, whether its message is answered or not. -/
theorem State.handlerTrap_ends {s : State} {v : Invocation} (hv : (s.coreAt s.cur.1).inv = some v) (cause : BitVec 8) (w : Word) :
    ((s.handlerTrap cause w).coreAt s.cur.1).inv = none ∧ ((s.handlerTrap cause w).ctxAt s.cur.1 handlerCtx).status = .ended ∧
      ∃ l, (s.handlerTrap cause w).notes = s.notes ++ l ++ [.handlerTrap s.cur.1.val cause s.ctx.pc v.number] := by
  obtain ⟨r, hr⟩ : ∃ r, r = if (v.replied && v.msg.rr) = true then s
    else s.reply (dieOf s.cur.1) v.sender v.msg 4 (faultValue cause w) := ⟨_, rfl⟩
  have hsr : s.onlyHomes r := by rw [hr]; exact State.onlyHomes_ite s.onlyHomes_refl (s.onlyHomes_reply _ _ _ _ _)
  have htrap : s.handlerTrap cause w = (r.endInvocation s.cur.1).report (.handlerTrap s.cur.1.val cause s.ctx.pc v.number) := by
    unfold State.handlerTrap
    dsimp only
    rw [hv, hr]
  obtain ⟨hinv, hstatus, -, -⟩ := r.endInvocation_ends s.cur.1
  obtain ⟨l, hl⟩ := hsr.2.2
  rw [htrap]
  exact ⟨hinv, hstatus, l, congrArg (fun m : List Note => m ++ [.handlerTrap s.cur.1.val cause s.ctx.pc v.number]) hl⟩

/-- A trap of an instruction of the handler context, where only the books of issue have changed. -/
theorem State.invocationEnded_trapAt {s u : State} (hs : s.onlyContext u) (hx : ∃ a b, u.ctx = { s.ctx with sinceHop := a, midWait := b })
    (hr : s.inRegion = false) (hh : s.inHandler = true) (hv : ((s.coreAt s.cur.1).inv).isSome = true) (stall : BitVec 3) (c : BitVec 8)
    (w : Word) : invocationEnded s (u.trapAt stall c w none) c := by
  obtain ⟨a, b, hx⟩ := hx
  obtain ⟨v, hv⟩ := Option.isSome_iff_exists.1 hv
  have hcur := State.onlyContext_cur hs
  obtain ⟨k, hk⟩ := State.inv_of hs hv
  have hur : u.inRegion = false := by
    have := State.region_none hr
    simp only [State.inRegion, hx, this, Option.isSome_none]
  have huh : u.inHandler = true := (State.inHandler_of_cur hcur).trans hh
  have ht : u.trapAt stall c w none = (u.handlerTrap c w).advanceTo (u.cycle + 1) := by
    simp [State.trapAt, State.takeTrap, hur, huh]
  have hpc : u.ctx.pc = s.ctx.pc := by rw [hx]
  have hnotes : u.notes = s.notes := by rw [hs.1]
  rw [← hcur] at hk
  obtain ⟨hinv, hstatus, l, hl⟩ := State.handlerTrap_ends hk c w
  rw [hcur] at hinv hstatus
  rw [hcur, hpc, hnotes] at hl
  refine ⟨v, hv, ?_, ?_, l, ?_⟩ <;> rw [ht]
  · rw [State.coreAt_advanceTo]; exact hinv
  · rw [State.ctxAt_advanceTo]; exact hstatus
  · rw [State.notes_advanceTo]; exact hl

/-- An own part that traps before any effect, in any context outside regions. -/
theorem State.issue_trapsHere {s : State} {i : Instr} {ctl : SCtl} {m : Meta} {body : State → Effect} {c : BitVec 8} {v : Word}
    (hi : ∀ f, i ≠ .aend f) (h : s.executes ctl m.srcs m.dst m.lam) (hp : s.ctx.mode.allows m.priv = true)
    (hm : m.handler = true) (hv : s.inHandler = true → ((s.coreAt s.cur.1).inv).isSome = true)
    (hb : body (s.atIssue (allSources ctl m)) = .trap (s.atIssue (allSources ctl m)) c v) :
    ∃ t, s.issue i ctl m body = .next t ∧ trapsHere s t c v := by
  have hends : s.issue i ctl m body = .next ((s.atIssue (allSources ctl m)).trapAt ctl.stall c v none) :=
    State.issue_ends hi h hp (.inl hm) hb (by simp) (by simp)
  have hs := s.onlyContext_atIssue (allSources ctl m)
  have hx : ∃ a b, (s.atIssue (allSources ctl m)).ctx = { s.ctx with sinceHop := a, midWait := b } := ⟨_, _, State.ctx_atIssue s _ h.1⟩
  refine ⟨_, hends, ?_⟩
  unfold trapsHere
  by_cases hh : s.inHandler = true
  · rw [if_pos hh]
    exact State.invocationEnded_trapAt hs hx h.1 hh (hv hh) ctl.stall c v
  · rw [if_neg hh]
    have hf : s.inHandler = false := Bool.eq_false_iff.2 hh
    exact State.trapTaken_trapAt hs hx h.1 hf ctl.stall c v none

/-- HANDLER_OVERRUN (02 R29). -/
theorem handlerOverrun_ends {c : CoreId} {s : State} (hr : (s.ctxAt c handlerCtx).region = none) (hv : ((s.coreAt c).inv).isSome = true) :
    ∃ t, exec (.handlerOverrun c) s = .next t ∧ invocationEnded { s with cur := (c, handlerCtx) } t 0x0F := by
  obtain ⟨v, hv⟩ := Option.isSome_iff_exists.1 hv
  have hregion : ({ s with cur := (c, handlerCtx) } : State).inRegion = false := by
    change (s.ctxAt c handlerCtx).region.isSome = false
    rw [hr]
    rfl
  have htrap : ∀ w, ({ s with cur := (c, handlerCtx) } : State).takeTrap 0x0F w none =
      ({ s with cur := (c, handlerCtx) } : State).handlerTrap 0x0F w := fun w => by
    unfold State.takeTrap
    rw [if_neg (by simp [hregion]), if_pos (by rfl)]
  obtain ⟨hinv, hstatus, l, hl⟩ := State.handlerTrap_ends (s := { s with cur := (c, handlerCtx) }) hv 0x0F
    (addrWord (match (s.coreAt c).inv with
      | some v => v.number
      | none => 0))
  exact ⟨_, rfl, by rw [htrap]; exact ⟨v, hv, hinv, hstatus, l, hl⟩⟩

/-! ### Acceptance (08 R171) -/

theorem State.cur_toHandler {s t : State} {d : DieId} {p : Sender} {m : Message} (h : s.toHandler d p m = some t) : t.cur = s.cur := by
  unfold State.toHandler at h
  dsimp only at h
  split at h
  · cases h; exact s.cur_reply _ _ _ _ _
  · split at h
    · cases h
    · split at h
      · cases h; exact s.cur_reply _ _ _ _ _
      · split at h
        · split at h
          · cases h; rfl
          · cases h; exact s.cur_reply _ _ _ _ _
        · cases h; rfl

theorem State.cur_fillSlot (s : State) (c : CoreId) (n : Nat) (p : Option Sender) (k v : Nat) : (s.fillSlot c n p k v).cur = s.cur := rfl

theorem State.cur_toInbox {s t : State} {p : Sender} {c : CoreId} {m : Message} (h : s.toInbox p c m = some t) : t.cur = s.cur := by
  unfold State.toInbox at h
  dsimp only at h
  split at h
  · cases h; exact s.cur_reply _ _ _ _ _
  · split at h
    · cases h
    · split at h
      · cases h; exact s.cur_reply _ _ _ _ _
      · rw [← Option.some.inj h]
        exact s.cur_fillSlot _ _ _ _ _

theorem State.cur_toAgent {s t : State} {v : DieId} {n : Fin 8} {p : Sender} {m : Message} (h : s.toAgent v n p m = some t) :
    t.cur = s.cur := by
  unfold State.toAgent at h
  dsimp only at h
  split at h
  · cases h
  · cases h
    split <;> rfl

theorem State.cur_deliverTo {s t : State} {d : DieId} {p : Sender} {k w : Nat} {m : Message} (h : s.deliverTo d p k w m = some t) :
    t.cur = s.cur := by
  unfold State.deliverTo at h
  split at h
  · exact State.cur_toInbox h
  · split at h
    · exact State.cur_toHandler h
    · exact State.cur_toAgent h

/-- Sending leaves the choice of the executing context. -/
theorem State.cur_send {s t : State} {p : Sender} {dest : Word} {m : Message} (h : s.send p dest m = some t) : t.cur = s.cur := by
  unfold State.send at h
  dsimp only at h
  split at h
  · exact State.cur_deliverTo h
  · split at h
    · exact State.cur_deliverTo h
    · split at h
      · cases h
      · cases h; rfl

/-- The flits of a message change nothing but what stands against allowances. -/
theorem State.chargeSend_frame (s : State) (scope : Word) :
    s.onlyHomes (s.chargeSend scope) ∧ s.sameBytes (s.chargeSend scope) := by
  refine ⟨State.onlyHomes_ite (s.onlyHomes_charge _ _ _) s.onlyHomes_refl, ?_⟩
  unfold State.chargeSend State.charge
  split
  · split
    · exact fun _ => ⟨rfl, rfl, rfl⟩
    · exact fun _ => ⟨rfl, rfl, rfl⟩
  · exact fun _ => ⟨rfl, rfl, rfl⟩

/-- MESSAGE_ACCEPT for a waiting MSG. -/
theorem messageAccept_sends {c : CoreId} {x : CtxId} {s u : State} {dest : Word} {m : Message} (hu : u = { s with cur := (c, x) })
    (hw : (s.ctxAt c x).status = .waiting .accept) (hm : (s.ctxAt c x).outMsg = some (dest, m)) :
    ∃ t, exec (.messageAccept c x) s = .next t ∧
      if u.systemWait (u.sendScope dest m) = true then t = s
      else match (u.releaseSteps u.runCore (u.sendScope dest m)).send u.sender dest m with
      | none => t = s
      | some v => v.sameBytes t ∧ t.ctxAt c x = { v.ctxAt c x with
          status := .live, outMsg := none, pc := (v.ctxAt c x).pc + 8, waitFrom := max s.cycle (v.ctxAt c x).nextIssue } := by
  have hux : u.ctx = s.ctxAt c x := by rw [hu]; rfl
  have hexec : exec (.messageAccept c x) s = .next (match u.sendReleased dest m with
      | some v => v.modCtx (fun y => { y with status := .live, outMsg := none, pc := y.pc + 8, waitFrom := max u.cycle y.nextIssue })
      | none => s) := by
    rw [← hux] at hw hm
    change execMessageAccept c x s = _
    unfold execMessageAccept
    rw [← hu]
    dsimp only
    rw [hw, hm] <;> rfl
  refine ⟨_, hexec, ?_⟩
  unfold State.sendReleased
  dsimp only
  by_cases hwait : u.systemWait (u.sendScope dest m) = true
  · rw [if_pos hwait, if_pos hwait]
  · rw [if_neg hwait, if_neg hwait]
    cases hsend : (u.releaseSteps u.runCore (u.sendScope dest m)).send u.sender dest m with
    | none => rfl
    | some v =>
      obtain ⟨hcharged, hbytes⟩ := v.chargeSend_frame (u.sendScope dest m)
      have hcur : (v.chargeSend (u.sendScope dest m)).cur = (c, x) := by
        rw [State.onlyHomes_cur hcharged, State.cur_send hsend, State.onlyWriteBacks_cur (u.onlyWriteBacks_releaseSteps _ _), hu]
      refine ⟨hbytes, ?_⟩
      change ((v.chargeSend _).modCtxAt _ _ _).ctxAt c x = _
      rw [hcur, State.ctxAt_modCtxAt_self, State.onlyHomes_ctxAt hcharged, hu]

/-- Settles O28: inboxes, home cores, invocations, their overrun, and acceptance. -/
theorem messageEvents : Obligations.MessageEvents := by
  unfold Obligations.MessageEvents
  refine ⟨fun d s _ => inboxMessage_arrives d s, fun m p s c hp hc => handlerMessage_arrives (Message.cmd_eq m) hp hc,
    fun c s d before after hinv hq hall hbefore hafter hheld _ _ => ?_, fun c s hr hv => handlerOverrun_ends hr hv,
    fun c x s dest m hw hm => messageAccept_sends rfl hw hm⟩
  refine ⟨_, handlerInvocation_takes hinv hq hall hbefore hafter hheld (congrArg (· - 0x40) (Message.cmd_eq d.msg)), ?_⟩
  cases hb : (s.dieAt (dieOf c)).bindings[(Fin.ofNat 64 ((d.msg.w0.extractLsb' 56 8).toNat - 0x40))] with
  | none => rfl
  | some b =>
    dsimp only
    cases hstd : b.std with
    | some i =>
      obtain ⟨hqueue, hended, hstatus, -⟩ := (s.setCore c { s.coreAt c with hqueue := before ++ after }).runStd_ends c d i
      rw [if_neg (by simp)]
      exact ⟨hqueue.trans (by simp), hended, hstatus⟩
    | none =>
      obtain ⟨hqueue, hnew, hothers, hbytes, hx, hl1, -⟩ := (s.setCore c { s.coreAt c with hqueue := before ++ after }).invoke_starts c d b
        ((d.msg.w0.extractLsb' 56 8).toNat - 0x40)
      rw [if_pos rfl]
      have hothers' : ∀ e x, (e, x) ≠ (c, handlerCtx) →
          ((s.setCore c { s.coreAt c with hqueue := before ++ after }).invoke c d b _).ctxAt e x = s.ctxAt e x := fun e x he =>
        (hothers e x he).trans (s.ctxAt_modCore c e x (fun k => { k with hqueue := before ++ after }) fun _ => rfl)
      obtain ⟨h2, h4, h5, h6, h7, h8, h9, h10, h11, h13⟩ := handlerStart_fields b (s.dieAt (dieOf c)).fw.svec d
      dsimp only
      rw [hx]
      exact ⟨hqueue.trans (by simp), hnew, hothers', hbytes, rfl, rfl, rfl, rfl, rfl, rfl, h2, h4, h5, h6, h7, h8, h9, h10, h11, h13, hl1⟩

end Sys2Proof.Machine

/-! Circular buffers: reserving, publishing, taking and returning slots (06 R122 to R125; 15 R343 to R346). -/
namespace Sys2Proof.Machine
open Sys2Proof Sys2Proof.Claims

/-! ### Instructions that are illegal in the handler context (08 R178) -/

/-- An instruction that the handler context may not execute ends its invocation. -/
theorem State.issue_handlerIllegal {s : State} {i : Instr} {ctl : SCtl} {m : Meta} (body : State → Effect) (hi : ∀ f, i ≠ .aend f)
    (h : s.executes ctl m.srcs m.dst m.lam) (hp : s.ctx.mode.allows m.priv = true) (hm : m.handler = false) (hh : s.inHandler = true)
    (hv : ((s.coreAt s.cur.1).inv).isSome = true) : ∃ t, s.issue i ctl m body = .next t ∧ invocationEnded s t 0x01 := by
  obtain ⟨a, ha⟩ : ∃ a, a = s.atIssue (allSources ctl m) := ⟨_, rfl⟩
  have hah : a.inHandler = true := by rw [ha]; exact (State.inHandler_of_cur (s.cur_atIssue _)).trans hh
  have har : a.inRegion = false := by rw [ha]; exact s.inRegion_atIssue _ h.1
  have hguarded : a.guarded i m body = a.guarded i { m with handler := true } (fun t => .trap t 0x01 (encode i)) := by
    unfold State.guarded
    rw [if_pos (by simp [hm, hah]), if_neg (by simp), har]
    cases m.forbid <;> cases m.tagging <;> rfl
  have hattempt : a.attempt i ctl m body = a.attempt i ctl { m with handler := true } (fun t => .trap t 0x01 (encode i)) := by
    have hsources : allSources ctl { m with handler := true } = allSources ctl m := rfl
    unfold State.attempt State.underGuard
    rw [State.region_none har, hsources]
    dsimp only
    rw [hguarded]
  obtain ⟨t, ht, htrap⟩ := State.issue_trapsHere (i := i) (m := { m with handler := true }) (body := fun t => .trap t 0x01 (encode i)) hi h hp
    rfl (fun _ => hv) rfl
  refine ⟨t, ?_, by rwa [trapsHere, if_pos hh] at htrap⟩
  rw [State.issue_outside h.1] at ht ⊢
  rw [← ha, hattempt, ha]
  exact ht

/-! ### The rings of a core -/

theorem Core.sameShared_rings {a b : Core} (h : a.sameShared b) : b.rings = a.rings := by rw [h.1]

theorem State.rings_of {s t : State} (h : s.onlyContext t) (c : CoreId) : (t.coreAt c).rings = (s.coreAt c).rings :=
  Core.sameShared_rings (h.2.1 c)

theorem State.ringAt_val (s : State) (n : Fin 8) : s.ringAt s.runCore n.val = ringOf s n :=
  congrArg (fun i : Fin 8 => (s.coreAt s.runCore).rings[i]) (Fin.ext (Nat.mod_eq_of_lt n.isLt))

/-- What an instruction finds of the ring that it names. -/
theorem State.ringAt_atIssue {s : State} {n : Fin 8} (srcs : List (BitVec 6)) (hr : s.inRegion = false) :
    (s.atIssue srcs).ringAt (s.atIssue srcs).runCore n.val = ringOf s n := by
  rw [State.ringAt_val, ringOf, ringOf, State.rings_of (s.onlyContext_atIssue srcs), s.runCore_atIssue srcs hr]

theorem State.rings_putRing (s : State) (c d : CoreId) (n : Fin 8) (r : Ring) :
    ((s.putRing c n.val r).coreAt d).rings = if d = c then (s.coreAt c).rings.set n r else (s.coreAt d).rings := by
  unfold State.putRing State.setRing
  rw [State.coreAt_modCore]
  split
  · exact congrArg (fun i : Fin 8 => (s.coreAt c).rings.set i r) (Fin.ext (Nat.mod_eq_of_lt n.isLt))
  · rfl

theorem State.ctxAt_putRing (s : State) (c d : CoreId) (n : Nat) (r : Ring) (x : CtxId) : (s.putRing c n r).ctxAt d x = s.ctxAt d x :=
  s.ctxAt_modCore c d x _ fun _ => rfl

theorem State.ctx_putRing (s : State) (c : CoreId) (n : Nat) (r : Ring) : (s.putRing c n r).ctx = s.ctx :=
  State.ctx_of_ctxAt rfl fun d x => s.ctxAt_putRing c d n r x

/-- Only the ring that is replaced changes among the rings. -/
theorem onlyRing_putRing {s a : State} (h : ∀ c, (a.coreAt c).rings = (s.coreAt c).rings) (n : Fin 8) (r : Ring) :
    onlyRing s (a.putRing s.runCore n.val r) n r := by
  refine ⟨?_, fun c hc => ?_⟩
  · rw [State.rings_putRing, if_pos rfl, h]
  · rw [State.rings_putRing, if_neg hc, h]

theorem onlyRing_of_rings {s w t : State} {n : Fin 8} {r : Ring} (h : onlyRing s w n r) (ht : ∀ c, (t.coreAt c).rings = (w.coreAt c).rings) :
    onlyRing s t n r := ⟨(ht _).trans h.1, fun c hc => (ht c).trans (h.2 c hc)⟩

theorem ringOf_of_onlyRing {s t : State} {n : Fin 8} {r : Ring} (h : onlyRing s t n r) (hrun : t.runCore = s.runCore) : ringOf t n = r := by
  rw [ringOf, hrun, h.1]
  simp

theorem Ring.slotAddr_eq (r : Ring) (i : Nat) : r.slotAddr i = slotAddress r i := by
  unfold Ring.slotAddr slotAddress Ring.slotOff
  rw [← Nat.add_assoc]
  rfl

/-- A context that has not hopped runs on its home core. -/
theorem State.runCore_home {s : State} (h : s.ctx.hopped = none) : s.runCore = s.cur.1 := by
  unfold State.runCore
  rw [h]
  rfl

/-! ### CBRES (06 R122; 15 R346) -/

/-- What issue must know of CBRES and CBGET, of CBFREE, and of CBPUT. -/
def takesSlotMeta (f : SI) : Meta := { dst := some f.dst, handler := false, forbid := some 10 }
def cbfreeMeta : Meta := { forbid := some 10 }
def cbputMeta (f : SI) : Meta := { srcs := [f.sa], forbid := some 10 }

section
variable {s : State} {f : SI} {n : Fin 8} (hn : f.imm.toNat = n.val)
include hn

theorem cbres_part {a : State} (hr : s.inRegion = false) (ha : a = s.atIssue (allSources f.ctl (takesSlotMeta f))) :
    ∃ body, exec (.cbres f) s = s.issue (.cbres f) f.ctl (takesSlotMeta f) body ∧ body a =
      if s.ctx.hopped.isSome = true ∨ n.val < 4 then illegal a (.cbres f)
      else if (ringOf s n).free = 0 then .wait a (.ringFree n.val)
      else .next (((a.putRing s.runCore n.val ((ringOf s n).reserve (some s.cur.2) none)).modCtx (fun x =>
        { x with reserv := x.reserv ++ [(n.val, (ringOf s n).wridx)] })).wi f.dst (slotAddress (ringOf s n) (ringOf s n).wridx)) := by
  have hidx : f.imm.toNat % 8 = n.val := by rw [hn]; exact Nat.mod_eq_of_lt n.isLt
  have hring : a.ringAt a.runCore n.val = ringOf s n := by rw [ha]; exact State.ringAt_atIssue _ hr
  have hhop : a.ctx.hopped = s.ctx.hopped := by rw [ha, State.ctx_atIssue s _ hr]
  have hrun : a.runCore = s.runCore := by rw [ha]; exact s.runCore_atIssue _ hr
  have hcur : a.cur = s.cur := by rw [ha]; exact s.cur_atIssue _
  refine ⟨_, rfl, ?_⟩
  dsimp only
  rw [hidx, hring, hhop, hrun, hcur, Ring.slotAddr_eq]
  simp

/-- CBRES takes the next slot of a ring that has a free one. -/
theorem cbres_reserves (h : s.executes f.ctl [] (some f.dst) 0) (hh : s.inHandler = false) (hhop : s.ctx.hopped = none) (h4 : 4 ≤ n.val)
    (hfree : 0 < (ringOf s n).free) :
    let r := ringOf s n
    ∃ t, exec (.cbres f) s = .next t ∧
      onlyRing s t n { r with
        wridx := (r.wridx + 1) % 2 ^ r.cntlog, free := r.free - 1, res := r.res ++ [⟨false, some s.cur.2, none⟩] } ∧
      s.sameBytes t ∧ othersKept s t ∧ t.ctx.reserv = s.ctx.reserv ++ [(n.val, r.wridx)] ∧
      t.ctx.s = regsAfter s.ctx.s f.dst (slotAddress r r.wridx) ∧ t.ctx.fcsr = s.ctx.fcsr ∧ t.ctx.pc = s.ctx.pc + 8 := by
  intro r
  obtain ⟨a, ha⟩ : ∃ a, a = s.atIssue (allSources f.ctl (takesSlotMeta f)) := ⟨_, rfl⟩
  obtain ⟨p, hp⟩ : ∃ p, p = a.putRing s.runCore n.val (r.reserve (some s.cur.2) none) := ⟨_, rfl⟩
  obtain ⟨u, hu⟩ : ∃ u, u = p.modCtx (fun x => { x with reserv := x.reserv ++ [(n.val, r.wridx)] }) := ⟨_, rfl⟩
  obtain ⟨body, hexec, hpart⟩ := cbres_part hn h.1 ha
  rw [if_neg (by simp [hhop]; omega), if_neg (by omega), ← hp, ← hu] at hpart
  have hsa : s.onlyContext a := by rw [ha]; exact s.onlyContext_atIssue _
  have hca := State.onlyContext_cur hsa
  have hcp : p.cur = s.cur := by rw [hp]; exact hca
  have hpw : p.onlyContext (u.wi f.dst (slotAddress r r.wridx)) := by
    rw [hu]
    exact State.onlyContext_trans (State.onlyContext_modCtx p _) (State.onlyContext_wi _ _ _)
  have hwx : (u.wi f.dst (slotAddress r r.wridx)).ctx = { s.ctx with
      sinceHop := s.ctx.sinceHop + 1, midWait := none, reserv := s.ctx.reserv ++ [(n.val, r.wridx)]
      s := regsAfter s.ctx.s f.dst (slotAddress r r.wridx), pend := (u.wi f.dst (slotAddress r r.wridx)).ctx.pend } := by
    rw [State.ctx_wi, hu, State.ctx_modCtx, hp, State.ctx_putRing, ha, State.ctx_atIssue s _ h.1]
  obtain ⟨t, ht, hwt, k, hx⟩ := State.issue_completes (i := .cbres f) (m := takesSlotMeta f) (by simp) h (Mode.allows_program _) (.inr hh)
    ((congrArg body ha.symm).trans hpart) (by rw [State.inRegion, hwx]; exact h.1)
  have hpt := State.onlyContext_trans hpw hwt
  rw [hwx] at hx
  refine ⟨t, hexec.trans ht, ?_, ?_, ?_, ?_, ?_, ?_, ?_⟩
  · have := onlyRing_putRing (State.rings_of hsa) n (r.reserve (some s.cur.2) none)
    rw [← hp] at this
    exact onlyRing_of_rings this (State.rings_of hpt)
  · exact State.sameBytes_trans (State.onlyContext_bytes hsa) (State.sameBytes_trans (t := p) (by rw [hp]; exact fun _ => ⟨rfl, rfl, rfl⟩)
      (State.onlyContext_bytes hpt))
  · refine othersKept_trans (State.onlyContext_othersKept hsa) (State.onlyContext_cur hsa) (othersKept_trans (t := p)
      (othersKept_of_ctxAt fun c x => by rw [hp]; exact a.ctxAt_putRing _ _ _ _ _) (hcp.trans (State.onlyContext_cur hsa).symm)
      (State.onlyContext_othersKept hpt))
  all_goals rw [hx]

theorem cbres_traps (h : s.executes f.ctl [] (some f.dst) 0) (hh : s.inHandler = false) (hbad : s.ctx.hopped.isSome = true ∨ n.val < 4) :
    ∃ t, exec (.cbres f) s = .next t ∧ s.trapTaken t none 0x01 (encode (.cbres f)) := by
  obtain ⟨body, hexec, hpart⟩ := cbres_part hn h.1 rfl
  rw [if_pos hbad] at hpart
  obtain ⟨t, ht, htrap⟩ := State.issue_traps (i := .cbres f) (m := takesSlotMeta f) (by simp) h (Mode.allows_program _) hh hpart
  exact ⟨t, hexec.trans ht, htrap⟩

theorem cbres_waits (h : s.executes f.ctl [] (some f.dst) 0) (hh : s.inHandler = false) (hhop : s.ctx.hopped = none) (h4 : 4 ≤ n.val)
    (hfree : (ringOf s n).free = 0) : ∃ t, exec (.cbres f) s = .next t ∧ waitsFor s t (.ringFree n.val) := by
  obtain ⟨body, hexec, hpart⟩ := cbres_part hn h.1 rfl
  rw [if_neg (by simp [hhop]; omega), if_pos hfree] at hpart
  obtain ⟨t, ht, hw⟩ := State.issue_waits (i := .cbres f) (m := takesSlotMeta f) (by simp) h (Mode.allows_program _) (.inr hh) hpart
    (State.onlyContext_refl _) rfl
  exact ⟨t, hexec.trans ht, hw⟩

/-! ### CBGET (06 R122; 08 R173; 15 R344) -/

theorem cbget_part {a : State} (hr : s.inRegion = false) (ha : a = s.atIssue (allSources f.ctl (takesSlotMeta f))) :
    ∃ body, exec (.cbget f) s = s.issue (.cbget f) f.ctl (takesSlotMeta f) body ∧ body a =
      if s.ctx.hopped.isSome = true then illegal a (.cbget f)
      else if (ringOf s n).filled = 0 then .wait a (.ringFilled n.val)
      else .next ((((a.answerTaken s.runCore (ringOf s n)).putRing s.runCore n.val (ringOf s n).take).acquireSteps s.runCore packageScope).wi
        f.dst (slotAddress (ringOf s n) (ringOf s n).rdidx)) := by
  have hidx : f.imm.toNat % 8 = n.val := by rw [hn]; exact Nat.mod_eq_of_lt n.isLt
  have hring : a.ringAt a.runCore n.val = ringOf s n := by rw [ha]; exact State.ringAt_atIssue _ hr
  have hhop : a.ctx.hopped = s.ctx.hopped := by rw [ha, State.ctx_atIssue s _ hr]
  have hrun : a.runCore = s.runCore := by rw [ha]; exact s.runCore_atIssue _ hr
  refine ⟨_, rfl, ?_⟩
  dsimp only
  rw [hidx, hring, hhop, hrun, Ring.slotAddr_eq]
  simp

end

/-- The answer to the message of a slot changes no core. -/
theorem State.onlyHomes_answerTaken (s : State) (c : CoreId) (r : Ring) : s.onlyHomes (s.answerTaken c r) := by
  unfold State.answerTaken
  split
  · exact s.onlyHomes_refl
  · exact State.onlyHomes_ite (s.onlyHomes_reply _ _ _ _ _) s.onlyHomes_refl

/-- The message that CBGET finds in a slot. -/
theorem State.readMessage_eq {s a : State} (hc : s.runCore = s.cur.1) (ha : a.lmem = s.lmem) (o : Nat) :
    a.readMessage s.runCore o = messageAt s o := by
  unfold State.readMessage messageAt State.localRead localCell
  rw [ha, hc]

/-- The word that answers an inbox message with OK (08 R173; 06 R125). -/
theorem replyWord_inbox {m : Message} (h : m.w0.extractLsb' 56 8 = 0x80) :
    (replyWord m 0).toNat + (0 : Word).toNat * 2 ^ 64 = m.w0.toNat % 2 ^ 32 * 2 ^ 32 + 0x80 * 2 ^ 16 := by
  have hcmd : m.cmd = 0x80 := by rw [Message.cmd_eq, h]; rfl
  have hlow : bits m.w0 31 0 = m.w0.toNat % 2 ^ 32 := by simp [bits]
  unfold replyWord
  rw [hcmd, hlow, BitVec.toNat_ofNat, Nat.mod_eq_of_lt (by omega)]
  simp

section
variable {s : State} {f : SI} {n : Fin 8} (hn : f.imm.toNat = n.val)
include hn

/-- CBGET takes the oldest filled slot, and acquires. -/
theorem cbget_takes (h : s.executes f.ctl [] (some f.dst) 0) (hh : s.inHandler = false) (hhop : s.ctx.hopped = none)
    (hfilled : 0 < (ringOf s n).filled) :
    let r := ringOf s n
    ∃ t, exec (.cbget f) s = .next t ∧
      let m := messageAt s (r.base + r.rdidx * 2 ^ r.szlog)
      onlyRing s t n { r with
        rdidx := (r.rdidx + 1) % 2 ^ r.cntlog, filled := r.filled - 1, taken := r.taken + 1, senders := r.senders.drop 1 } ∧
      othersKept s t ∧ contextWrote s t f.dst (slotAddress r r.rdidx) ∧ (t.coreAt s.runCore).l1 = [] ∧
      (r.senders = [] ∨ m.rr = false → s.sameBytes t) ∧
      (∀ p, r.senders.head? = some p → m.rr = true → m.w0.extractLsb' 56 8 = 0x80 → p.remote = false →
        m.w1 = BitVec.ofNat 64 Config.localBase → s.holdsSender p = true →
        wroteBytes s.lmem t.lmem (localKey p.core 0) 16 (m.w0.toNat % 2 ^ 32 * 2 ^ 32 + 0x80 * 2 ^ 16)) := by
  intro r
  obtain ⟨a, ha⟩ : ∃ a, a = s.atIssue (allSources f.ctl (takesSlotMeta f)) := ⟨_, rfl⟩
  obtain ⟨q, hq⟩ : ∃ q, q = a.answerTaken s.runCore r := ⟨_, rfl⟩
  obtain ⟨p, hp⟩ : ∃ p, p = q.putRing s.runCore n.val r.take := ⟨_, rfl⟩
  obtain ⟨u, hu⟩ : ∃ u, u = p.acquireSteps s.runCore packageScope := ⟨_, rfl⟩
  obtain ⟨body, hexec, hpart⟩ := cbget_part hn h.1 ha
  rw [if_neg (by simp [hhop]), if_neg (by omega), ← hq, ← hp, ← hu] at hpart
  have hsa : s.onlyContext a := by rw [ha]; exact s.onlyContext_atIssue _
  have hca := State.onlyContext_cur hsa
  have haq : a.onlyHomes q := by rw [hq]; exact a.onlyHomes_answerTaken _ _
  have hpx : ∀ c x, p.ctxAt c x = a.ctxAt c x := fun c x => by rw [hp, State.ctxAt_putRing, State.onlyHomes_ctxAt haq]
  have hqc := State.onlyHomes_cur haq
  have hpc : p.cur = a.cur := by rw [hp]; exact hqc
  have hux : ∀ c x, u.ctxAt c x = a.ctxAt c x := fun c x => by rw [hu, State.ctxAt_acquireSteps, hpx]
  have huc : u.cur = a.cur := by rw [hu, State.cur_acquireSteps, hpc]
  have hctx : u.ctx = a.ctx := State.ctx_of_ctxAt huc hux
  obtain ⟨t, ht, hwrote, hwt⟩ := State.issue_writes (i := .cbget f) (m := takesSlotMeta f) (by simp) h (Mode.allows_program _) (.inr hh)
    ((congrArg body ha.symm).trans hpart) (d := f.dst) (v := slotAddress r r.rdidx) ⟨_, by rw [State.ctx_wi, hctx, ha]⟩
  have hut := State.onlyContext_trans (u.onlyContext_wi f.dst (slotAddress r r.rdidx)) hwt
  have hqt : q.sameBytes t := State.sameBytes_trans (t := p) (by rw [hp]; exact fun _ => ⟨rfl, rfl, rfl⟩) (State.sameBytes_trans (t := u)
    (by rw [hu]; exact p.sameBytes_acquireSteps _ _) (State.onlyContext_bytes hut))
  have hlmem : t.lmem = q.lmem := by
    rw [hut.1, hu, hp]
    unfold State.acquireSteps
    dsimp only
    split <;> split <;> rfl
  have hread : a.readMessage s.runCore (r.slotOff r.rdidx) = messageAt s (r.base + r.rdidx * 2 ^ r.szlog) :=
    State.readMessage_eq (State.runCore_home hhop) (by rw [ha]; exact s.lmem_atIssue _) _
  refine ⟨t, hexec.trans ht, ?_, ?_, hwrote, ?_, fun hquiet => ?_, fun o ho hrr hcmd hloc hw1 hholds => ?_⟩
  · have hput := onlyRing_putRing (s := s) (a := q) (fun c => by rw [State.onlyHomes_coreAt haq, State.rings_of hsa]) n r.take
    rw [← hp] at hput
    refine onlyRing_of_rings hput fun c => ?_
    rw [State.rings_of hut, hu, (p.onlyAccesses_acquireSteps _ _).2.2.2 c]
  · exact othersKept_trans (State.onlyContext_othersKept hsa) hca (othersKept_trans (othersKept_of_ctxAt hux) huc
      (State.onlyContext_othersKept hut))
  · rw [Core.sameShared_l1 (hut.2.1 s.runCore), hu]
    exact p.l1_acquireSteps _ (by decide)
  · have hqa : q = a := by
      rw [hq, State.answerTaken]
      rcases hquiet with hnone | hrr
      · rw [show r.senders = [] from hnone]
      · split
        · rfl
        · dsimp only
          rw [hread, hrr]
          rfl
    rw [hqa] at hqt
    exact State.sameBytes_trans (State.onlyContext_bytes hsa) hqt
  · obtain ⟨rest, hrest⟩ : ∃ rest, r.senders = o :: rest := by
      cases hs : r.senders with
      | nil => rw [hs] at ho; cases ho
      | cons x xs => rw [hs] at ho; cases ho; exact ⟨xs, rfl⟩
    have hanswer : q = a.reply (dieOf s.runCore) o (messageAt s (r.base + r.rdidx * 2 ^ r.szlog)) 0 0 := by
      rw [hq, State.answerTaken, hrest]
      dsimp only
      rw [hread, hrr]
      rfl
    have hwindow : windowOffset ((messageAt s (r.base + r.rdidx * 2 ^ r.szlog)).w1.toNat % 2 ^ 52) = some 0 := by
      rw [hw1]
      decide
    have ha' : a.holdsSender o = true := (State.holdsSender_of (State.placed_of hsa) _).trans hholds
    rw [hlmem, hanswer, State.lmem_reply_window hrr hloc hwindow ha' (by decide), replyWord_inbox hcmd,
      show a.lmem = s.lmem by rw [ha]; exact s.lmem_atIssue _]
    exact wroteBytes_writeN _ _ _ _

theorem cbget_traps (h : s.executes f.ctl [] (some f.dst) 0) (hh : s.inHandler = false) (hbad : s.ctx.hopped.isSome = true) :
    ∃ t, exec (.cbget f) s = .next t ∧ s.trapTaken t none 0x01 (encode (.cbget f)) := by
  obtain ⟨body, hexec, hpart⟩ := cbget_part hn h.1 rfl
  rw [if_pos hbad] at hpart
  obtain ⟨t, ht, htrap⟩ := State.issue_traps (i := .cbget f) (m := takesSlotMeta f) (by simp) h (Mode.allows_program _) hh hpart
  exact ⟨t, hexec.trans ht, htrap⟩

theorem cbget_waits (h : s.executes f.ctl [] (some f.dst) 0) (hh : s.inHandler = false) (hhop : s.ctx.hopped = none)
    (hempty : (ringOf s n).filled = 0) : ∃ t, exec (.cbget f) s = .next t ∧ waitsFor s t (.ringFilled n.val) := by
  obtain ⟨body, hexec, hpart⟩ := cbget_part hn h.1 rfl
  rw [if_neg (by simp [hhop]), if_pos hempty] at hpart
  obtain ⟨t, ht, hw⟩ := State.issue_waits (i := .cbget f) (m := takesSlotMeta f) (by simp) h (Mode.allows_program _) (.inr hh) hpart
    (State.onlyContext_refl _) rfl
  exact ⟨t, hexec.trans ht, hw⟩

/-! ### CBFREE (06 R122; 15 R343) -/

theorem cbfree_part {a : State} (hr : s.inRegion = false) (ha : a = s.atIssue (allSources f.ctl cbfreeMeta)) :
    ∃ body, exec (.cbfree f) s = s.issue (.cbfree f) f.ctl cbfreeMeta body ∧ body a =
      if s.ctx.hopped.isSome = true ∨ (ringOf s n).taken = 0 then illegal a (.cbfree f)
      else .next (a.putRing s.runCore n.val (ringOf s n).giveBack) := by
  have hidx : f.imm.toNat % 8 = n.val := by rw [hn]; exact Nat.mod_eq_of_lt n.isLt
  have hring : a.ringAt a.runCore n.val = ringOf s n := by rw [ha]; exact State.ringAt_atIssue _ hr
  have hhop : a.ctx.hopped = s.ctx.hopped := by rw [ha, State.ctx_atIssue s _ hr]
  have hrun : a.runCore = s.runCore := by rw [ha]; exact s.runCore_atIssue _ hr
  refine ⟨_, rfl, ?_⟩
  dsimp only
  rw [hidx, hring, hhop, hrun]
  simp

/-- CBFREE returns the oldest taken slot. -/
theorem cbfree_returns (h : s.executes f.ctl [] none 0) (hhop : s.ctx.hopped = none) (htaken : 0 < (ringOf s n).taken) :
    let r := ringOf s n
    ∃ t, exec (.cbfree f) s = .next t ∧ onlyRing s t n { r with taken := r.taken - 1, free := r.free + 1 } ∧ s.sameBytes t ∧
      othersKept s t ∧ contextMovedOn s t := by
  intro r
  obtain ⟨a, ha⟩ : ∃ a, a = s.atIssue (allSources f.ctl cbfreeMeta) := ⟨_, rfl⟩
  obtain ⟨p, hp⟩ : ∃ p, p = a.putRing s.runCore n.val r.giveBack := ⟨_, rfl⟩
  obtain ⟨body, hexec, hpart⟩ := cbfree_part hn h.1 ha
  rw [if_neg (by simp [hhop]; omega), ← hp] at hpart
  have hsa : s.onlyContext a := by rw [ha]; exact s.onlyContext_atIssue _
  obtain ⟨t, ht, hmoved, hpt⟩ := State.issue_movesOn (i := .cbfree f) (m := cbfreeMeta) (by simp) h (Mode.allows_program _) (.inl rfl)
    ((congrArg body ha.symm).trans hpart) (by rw [hp, State.ctx_putRing, ha])
  refine ⟨t, hexec.trans ht, ?_, ?_, ?_, hmoved⟩
  · have hput := onlyRing_putRing (State.rings_of hsa) n r.giveBack
    rw [← hp] at hput
    exact onlyRing_of_rings hput (State.rings_of hpt)
  · exact State.sameBytes_trans (State.onlyContext_bytes hsa) (State.sameBytes_trans (t := p) (by rw [hp]; exact fun _ => ⟨rfl, rfl, rfl⟩)
      (State.onlyContext_bytes hpt))
  · refine othersKept_trans (State.onlyContext_othersKept hsa) (State.onlyContext_cur hsa) (othersKept_trans (t := p)
      (othersKept_of_ctxAt fun c x => by rw [hp]; exact a.ctxAt_putRing _ _ _ _ _) (by rw [hp]; rfl) (State.onlyContext_othersKept hpt))

theorem cbfree_traps (h : s.executes f.ctl [] none 0) (hv : s.inHandler = true → ((s.coreAt s.cur.1).inv).isSome = true)
    (hbad : s.ctx.hopped.isSome = true ∨ (ringOf s n).taken = 0) :
    ∃ t, exec (.cbfree f) s = .next t ∧ trapsHere s t 0x01 (encode (.cbfree f)) := by
  obtain ⟨body, hexec, hpart⟩ := cbfree_part hn h.1 rfl
  rw [if_pos hbad] at hpart
  obtain ⟨t, ht, htrap⟩ := State.issue_trapsHere (i := .cbfree f) (m := cbfreeMeta) (by simp) h (Mode.allows_program _) rfl hv hpart
  exact ⟨t, hexec.trans ht, htrap⟩

/-! ### CBPUT (06 R122, R124; 15 R345) -/

/-- CBPUT of a ring that is no inbox, by a context that has not hopped: the publishing form, or the filling one. -/
theorem cbput_part {a : State} (h : s.executes f.ctl [f.sa] none 0) (ha : a = s.atIssue (allSources f.ctl (cbputMeta f))) :
    ∃ body, exec (.cbput f) s = s.issue (.cbput f) f.ctl (cbputMeta f) body ∧ body a =
      if s.ctx.hopped.isSome = true ∨ n.val < 4 then illegal a (.cbput f)
      else if f.sa = 0 then a.cbputPublish f n.val else a.cbputFill f n.val := by
  have hidx : f.imm.toNat % 8 = n.val := by rw [hn]; exact Nat.mod_eq_of_lt n.isLt
  have hhop : a.ctx.hopped = s.ctx.hopped := by rw [ha, State.ctx_atIssue s _ h.1]
  refine ⟨_, rfl, ?_⟩
  dsimp only
  rw [hidx, hhop]
  simp

theorem cbput_refused (h : s.executes f.ctl [f.sa] none 0) (hv : s.inHandler = true → ((s.coreAt s.cur.1).inv).isSome = true)
    (hbad : s.ctx.hopped.isSome = true ∨ n.val < 4) : ∃ t, exec (.cbput f) s = .next t ∧ trapsHere s t 0x01 (encode (.cbput f)) := by
  obtain ⟨body, hexec, hpart⟩ := cbput_part hn h rfl
  rw [if_pos hbad] at hpart
  obtain ⟨t, ht, htrap⟩ := State.issue_trapsHere (i := .cbput f) (m := cbputMeta f) (by simp) h (Mode.allows_program _) rfl hv hpart
  exact ⟨t, hexec.trans ht, htrap⟩

end

section
variable {s : State} {f : SI} {n : Fin 8}

/-- The filling form: what its own part answers. -/
theorem cbputFill_eq {a : State} (h : s.executes f.ctl [f.sa] none 0) (ha : a = s.atIssue (allSources f.ctl (cbputMeta f)))
    (hhop : s.ctx.hopped = none) :
    a.cbputFill f n.val =
      let r := ringOf s n
      let at_ := (s.reg f.sa).toNat
      if at_ % 8 ≠ 0 then .trap a 0x04 (s.reg f.sa)
      else if ¬ (0xFFF0000000000 ≤ at_ ∧ at_ + 2 ^ r.szlog ≤ 0xFFF0000060000) then .trap a 0x05 (s.reg f.sa)
      else if r.free = 0 then if s.inHandler = true then illegal a (.cbput f) else .wait a (.ringFree n.val)
      else .next (a.fillSlot s.runCore n.val none (2 ^ r.szlog) (readN s.lmem (localCell s (at_ - 0xFFF0000000000)) (2 ^ r.szlog))) := by
  have hring : a.ringAt a.runCore n.val = ringOf s n := by rw [ha]; exact State.ringAt_atIssue _ h.1
  have hrun : a.runCore = s.runCore := by rw [ha]; exact s.runCore_atIssue _ h.1
  have hrs : a.rs f.sa = s.reg f.sa := by rw [ha]; exact State.rs_atIssue s _ h.1 h.2.1 _
  have hhandler : a.inHandler = s.inHandler := by rw [ha]; exact State.inHandler_of_cur (s.cur_atIssue _)
  have hlmem : a.lmem = s.lmem := by rw [ha]; exact s.lmem_atIssue _
  have hread : ∀ o k, a.localRead s.runCore o k = readN s.lmem (localCell s o) k := fun o k => by
    rw [State.localRead, hlmem, State.runCore_home hhop, localCell]
  unfold State.cbputFill
  dsimp only
  rw [hring, hrs, hrun, hhandler, hread]
  have hinside : ((s.reg f.sa).toNat < Config.localBase || Config.localBase + Config.localBytes < (s.reg f.sa).toNat + 2 ^ (ringOf s n).szlog) =
      decide (¬ (0xFFF0000000000 ≤ (s.reg f.sa).toNat ∧ (s.reg f.sa).toNat + 2 ^ (ringOf s n).szlog ≤ 0xFFF0000060000)) := by
    rw [Bool.eq_iff_iff]
    simp only [Bool.or_eq_true, decide_eq_true_eq]
    unfold Config.localBase Config.localBytes
    omega
  rw [hinside]
  simp only [bne_iff_ne, decide_eq_true_eq, beq_iff_eq]
  rfl

/-- The publishing form: what its own part answers. -/
theorem cbputPublish_eq {a : State} (h : s.executes f.ctl [f.sa] none 0) (ha : a = s.atIssue (allSources f.ctl (cbputMeta f))) :
    a.cbputPublish f n.val = match s.ctx.reserv.find? (fun p => p.1 == n.val) with
      | none => illegal a (.cbput f)
      | some p => .next ((a.putRing s.runCore n.val ((ringOf s n).publish ((ringOf s n).place p.2))).modCtx (fun x =>
        { x with reserv := x.reserv.erase p })) := by
  have hring : a.ringAt a.runCore n.val = ringOf s n := by rw [ha]; exact State.ringAt_atIssue _ h.1
  have hrun : a.runCore = s.runCore := by rw [ha]; exact s.runCore_atIssue _ h.1
  have hreserv : a.ctx.reserv = s.ctx.reserv := by rw [ha, State.ctx_atIssue s _ h.1]
  unfold State.cbputPublish
  dsimp only
  rw [hring, hrun, hreserv] <;> rfl

end

/-- The only reserved slot, once published, is filled. -/
theorem Ring.publish_only {r : Ring} (h : r.res.length = 1) : (r.publish 0).filled = r.filled + 1 ∧ (r.publish 0).res = [] := by
  obtain ⟨q, hq⟩ := List.length_eq_one_iff.1 h
  unfold Ring.publish Ring.settle
  simp [hq]

/-- The first reserved slot follows the filled ones. -/
theorem Ring.place_first {r : Ring} {slot : Nat} (h : (r.rdidx + r.filled) % 2 ^ r.cntlog = slot) :
    r.place slot = 0 := by
  unfold Ring.place Ring.slots
  rw [h, Nat.add_sub_cancel_left]
  exact Nat.mul_mod_left 2 _

section
variable {s : State} {f : SI} {n : Fin 8} (hn : f.imm.toNat = n.val) (h : s.executes f.ctl [f.sa] none 0)
  (hv : s.inHandler = true → ((s.coreAt s.cur.1).inv).isSome = true) (hhop : s.ctx.hopped = none) (h4 : 4 ≤ n.val)
include hn h hv hhop h4

/-- CBPUT from the local window traps, waits, or fills the next slot. -/
theorem cbput_fills (hsa : f.sa ≠ 0) :
    let r := ringOf s n
    let a := (s.reg f.sa).toNat
    let inside := 0xFFF0000000000 ≤ a ∧ a + 2 ^ r.szlog ≤ 0xFFF0000060000
    (a % 8 ≠ 0 → ∃ t, exec (.cbput f) s = .next t ∧ trapsHere s t 0x04 (s.reg f.sa)) ∧
    (a % 8 = 0 → ¬ inside → ∃ t, exec (.cbput f) s = .next t ∧ trapsHere s t 0x05 (s.reg f.sa)) ∧
    (a % 8 = 0 → inside → r.free = 0 → ∃ t, exec (.cbput f) s = .next t ∧
      if s.inHandler = true then invocationEnded s t 0x01 else waitsFor s t (.ringFree n.val)) ∧
    (a % 8 = 0 → inside → 0 < r.free → ∃ t, exec (.cbput f) s = .next t ∧
      wroteBytes s.lmem t.lmem (localCell s (r.base + r.wridx * 2 ^ r.szlog)) (2 ^ r.szlog)
        (readN s.lmem (localCell s (a - 0xFFF0000000000)) (2 ^ r.szlog)) ∧
      (∀ x, readByte t.mem x = readByte s.mem x) ∧ contextMovedOn s t ∧ othersKept s t ∧
      (ringOf t n).wridx = (r.wridx + 1) % 2 ^ r.cntlog ∧ (ringOf t n).free = r.free - 1 ∧
      (r.res = [] → (ringOf t n).filled = r.filled + 1 ∧ (ringOf t n).res = [])) := by
  intro r at_ inside
  obtain ⟨a, ha⟩ : ∃ a, a = s.atIssue (allSources f.ctl (cbputMeta f)) := ⟨_, rfl⟩
  obtain ⟨body, hexec, hpart⟩ := cbput_part hn h ha
  rw [if_neg (by simp [hhop]; omega), if_neg hsa, cbputFill_eq h ha hhop] at hpart
  dsimp only at hpart
  have hp := Mode.allows_program s.ctx.mode
  refine ⟨fun h8 => ?_, fun h8 hout => ?_, fun h8 hin hfree => ?_, fun h8 hin hfree => ?_⟩
  · rw [if_pos h8, ha] at hpart
    obtain ⟨t, ht, htrap⟩ := State.issue_trapsHere (i := .cbput f) (m := cbputMeta f) (by simp) h hp rfl hv hpart
    exact ⟨t, hexec.trans ht, htrap⟩
  · rw [if_neg (not_not.2 h8), if_pos hout, ha] at hpart
    obtain ⟨t, ht, htrap⟩ := State.issue_trapsHere (i := .cbput f) (m := cbputMeta f) (by simp) h hp rfl hv hpart
    exact ⟨t, hexec.trans ht, htrap⟩
  · rw [if_neg (not_not.2 h8), if_neg (not_not.2 hin), if_pos hfree, ha] at hpart
    by_cases hh : s.inHandler = true
    · rw [if_pos hh] at hpart
      obtain ⟨t, ht, htrap⟩ := State.issue_trapsHere (i := .cbput f) (m := cbputMeta f) (by simp) h hp rfl hv hpart
      rw [trapsHere, if_pos hh] at htrap
      exact ⟨t, hexec.trans ht, by rwa [if_pos hh]⟩
    · rw [if_neg hh] at hpart
      obtain ⟨t, ht, hw⟩ := State.issue_waits (i := .cbput f) (m := cbputMeta f) (by simp) h hp (.inl rfl) hpart (State.onlyContext_refl _) rfl
      exact ⟨t, hexec.trans ht, by rwa [if_neg hh]⟩
  · rw [if_neg (not_not.2 h8), if_neg (not_not.2 hin), if_neg (Nat.ne_of_gt hfree)] at hpart
    obtain ⟨v, hval⟩ : ∃ v, v = readN s.lmem (localCell s (at_ - 0xFFF0000000000)) (2 ^ r.szlog) := ⟨_, rfl⟩
    obtain ⟨w, hw⟩ : ∃ w, w = a.fillSlot s.runCore n.val none (2 ^ r.szlog) v := ⟨_, rfl⟩
    replace hpart : body a = .next w := by rw [hw, hval]; exact hpart
    have hoa : s.onlyContext a := by rw [ha]; exact s.onlyContext_atIssue _
    have hwx : ∀ c x, w.ctxAt c x = a.ctxAt c x := fun c x => by rw [hw]; exact State.ctxAt_putRing _ _ _ _ _ _
    have hwc : w.cur = a.cur := by rw [hw]; rfl
    have hring : a.ringAt s.runCore n.val = r := by
      rw [ha, ← s.runCore_atIssue (allSources f.ctl (cbputMeta f)) h.1]
      exact State.ringAt_atIssue _ h.1
    obtain ⟨hlmem, hmem, hdies⟩ := a.fillSlot_frame s.runCore n.val none (2 ^ r.szlog) v
    rw [← hw, hring] at hlmem
    rw [← hw] at hmem
    obtain ⟨t, ht, hmoved, hwt⟩ := State.issue_movesOn (i := .cbput f) (m := cbputMeta f) (by simp) h hp (.inl rfl)
      ((congrArg body ha.symm).trans hpart) (by rw [State.ctx_of_ctxAt hwc hwx, ha])
    have hput : onlyRing s w n ((r.reserve none none).publish ((r.reserve none none).res.length - 1)) := by
      have := onlyRing_putRing (s := s) (a := a.localWrite s.runCore (r.slotOff r.wridx) (2 ^ r.szlog) v)
        (fun c => State.rings_of hoa c) n
        ((r.reserve none none).publish ((r.reserve none none).res.length - 1))
      rw [hw, State.fillSlot, hring]
      exact this
    have hafter : ringOf t n = (r.reserve none none).publish ((r.reserve none none).res.length - 1) :=
      ringOf_of_onlyRing (onlyRing_of_rings hput (State.rings_of hwt))
        (State.runCore_of ((State.onlyContext_cur hwt).trans (hwc.trans (State.onlyContext_cur hoa))) (Ctx.onlyScalars_hopped hmoved.1))
    refine ⟨t, hexec.trans ht, ?_, ?_, hmoved, ?_, ?_, ?_, fun hres => ?_⟩
    · rw [hwt.1, hlmem, show a.lmem = s.lmem by rw [ha]; exact s.lmem_atIssue _, State.runCore_home hhop, hval]
      exact wroteBytes_writeN _ _ _ _
    · intro x
      rw [(State.onlyContext_bytes hwt x).1, hmem]
      exact (State.onlyContext_bytes hoa x).1
    · exact othersKept_trans (State.onlyContext_othersKept hoa) (State.onlyContext_cur hoa) (othersKept_trans (othersKept_of_ctxAt hwx) hwc
        (State.onlyContext_othersKept hwt))
    · rw [hafter]
      rfl
    · rw [hafter]
      rfl
    · rw [hafter, Ring.publish_reserve hres]
      exact ⟨rfl, rfl⟩

/-- CBPUT of a reservation publishes its slot; without one it is illegal. -/
theorem cbput_publishes (hsa : f.sa = 0) :
    let r := ringOf s n
    (s.ctx.reserv.find? (fun p => p.1 == n.val) = none →
      ∃ t, exec (.cbput f) s = .next t ∧ trapsHere s t 0x01 (encode (.cbput f))) ∧
    (∀ slot, s.ctx.reserv.find? (fun p => p.1 == n.val) = some (n.val, slot) →
      ∃ t, exec (.cbput f) s = .next t ∧ s.sameBytes t ∧ othersKept s t ∧ t.ctx.reserv = s.ctx.reserv.erase (n.val, slot) ∧
        t.ctx.s = s.ctx.s ∧ t.ctx.pc = s.ctx.pc + 8 ∧
        (r.res.length = 1 → (r.rdidx + r.filled) % 2 ^ r.cntlog = slot → slot < 2 ^ r.cntlog →
          (ringOf t n).filled = r.filled + 1 ∧ (ringOf t n).res = [])) := by
  intro r
  obtain ⟨a, ha⟩ : ∃ a, a = s.atIssue (allSources f.ctl (cbputMeta f)) := ⟨_, rfl⟩
  obtain ⟨body, hexec, hpart⟩ := cbput_part hn h ha
  rw [if_neg (by simp [hhop]; omega), if_pos hsa, cbputPublish_eq h ha] at hpart
  refine ⟨fun hnone => ?_, fun slot hsome => ?_⟩
  · rw [hnone, ha] at hpart
    obtain ⟨t, ht, htrap⟩ := State.issue_trapsHere (i := .cbput f) (m := cbputMeta f) (by simp) h (Mode.allows_program _) rfl hv hpart
    exact ⟨t, hexec.trans ht, htrap⟩
  · rw [hsome] at hpart
    dsimp only at hpart
    obtain ⟨q, hq⟩ : ∃ q, q = a.putRing s.runCore n.val (r.publish (r.place slot)) := ⟨_, rfl⟩
    rw [← hq] at hpart
    have hoa : s.onlyContext a := by rw [ha]; exact s.onlyContext_atIssue _
    have hca := State.onlyContext_cur hoa
    have hqx : ∀ c x, q.ctxAt c x = a.ctxAt c x := fun c x => by rw [hq, State.ctxAt_putRing]
    have hqc : q.cur = a.cur := by rw [hq]; rfl
    have hqw := State.onlyContext_modCtx q (fun x => { x with reserv := x.reserv.erase (n.val, slot) })
    have hwx : (q.modCtx (fun x => { x with reserv := x.reserv.erase (n.val, slot) })).ctx =
        { s.ctx with sinceHop := s.ctx.sinceHop + 1, midWait := none, reserv := s.ctx.reserv.erase (n.val, slot) } := by
      rw [State.ctx_modCtx, State.ctx_of_ctxAt hqc hqx, ha, State.ctx_atIssue s _ h.1]
    obtain ⟨t, ht, hwt, k, hx⟩ := State.issue_completes (i := .cbput f) (m := cbputMeta f) (by simp) h (Mode.allows_program _) (.inl rfl)
      ((congrArg body ha.symm).trans hpart) (by rw [State.inRegion, hwx]; exact h.1)
    have hqt := State.onlyContext_trans hqw hwt
    rw [hwx] at hx
    refine ⟨t, hexec.trans ht, ?_, ?_, ?_, ?_, ?_, fun hone hfirst _ => ?_⟩
    · exact State.sameBytes_trans (State.onlyContext_bytes hoa) (State.sameBytes_trans (t := q) (by rw [hq]; exact fun _ => ⟨rfl, rfl, rfl⟩)
        (State.onlyContext_bytes hqt))
    · exact othersKept_trans (State.onlyContext_othersKept hoa) hca (othersKept_trans (othersKept_of_ctxAt hqx) hqc
        (State.onlyContext_othersKept hqt))
    · rw [hx]
    · rw [hx]
    · rw [hx]
    · have hput := onlyRing_putRing (State.rings_of hoa) n (r.publish (r.place slot))
      rw [← hq] at hput
      rw [ringOf_of_onlyRing (onlyRing_of_rings hput (State.rings_of hqt))
        (State.runCore_of ((State.onlyContext_cur hqt).trans (hqc.trans hca)) (by rw [hx])), Ring.place_first hfirst]
      exact Ring.publish_only hone

end

/-- CBRES and CBGET are illegal in the handler context. -/
theorem cbres_cbget_handler {s : State} {f : SI} (hv : s.inHandler = true → ((s.coreAt s.cur.1).inv).isSome = true)
    (h : s.executes f.ctl [] (some f.dst) 0) (hh : s.inHandler = true) :
    (∃ t, exec (.cbres f) s = .next t ∧ invocationEnded s t 0x01) ∧ ∃ t, exec (.cbget f) s = .next t ∧ invocationEnded s t 0x01 :=
  ⟨State.issue_handlerIllegal (i := .cbres f) (m := takesSlotMeta f) _ (by simp) h (Mode.allows_program _) rfl hh (hv hh),
    State.issue_handlerIllegal (i := .cbget f) (m := takesSlotMeta f) _ (by simp) h (Mode.allows_program _) rfl hh (hv hh)⟩

/-- Settles O26: the four instructions of the circular buffers, each by what its own part answers at its ring. -/
theorem circularBuffers : Obligations.CircularBuffers := by
  unfold Obligations.CircularBuffers
  intro s f n hn hr hv r
  refine ⟨cbres_cbget_handler hv, fun h hh => ⟨cbres_reserves hn h hh, cbres_traps hn h hh, cbres_waits hn h hh, cbget_takes hn h hh,
    cbget_traps hn h hh, cbget_waits hn h hh⟩, fun h => ⟨cbfree_returns hn h, cbfree_traps hn h hv⟩, fun h => ⟨cbput_refused hn h hv,
    cbput_fills hn h hv, cbput_publishes hn h hv⟩⟩

end Sys2Proof.Machine

/-! PLBINV, PINV, HANDOFF and PMIG: what stays cached, where a stack's home goes, and how a page moves (06 R118, R139, R140; 13 R297;
16 R366; 17 R411, R412, R414). -/
namespace Sys2Proof.Machine
open Sys2Proof Sys2Proof.Claims

/-! ### Changes that keep every context -/

/-- From `s` to `t` no context has changed, no byte of a local memory, no register of the Bellows and no home of a stack. -/
def State.keepsContexts (s t : State) : Prop :=
  t.cur = s.cur ∧ (∀ c x, t.ctxAt c x = s.ctxAt c x) ∧ t.lmem = s.lmem ∧ t.bregs = s.bregs ∧ t.owners = s.owners

theorem State.keepsContexts_refl (s : State) : s.keepsContexts s := ⟨rfl, fun _ _ => rfl, rfl, rfl, rfl⟩

theorem State.keepsContexts_trans {s t u : State} (a : s.keepsContexts t) (b : t.keepsContexts u) : s.keepsContexts u := by
  obtain ⟨hc, hx, hl, hb, ho⟩ := a
  obtain ⟨hc', hx', hl', hb', ho'⟩ := b
  exact ⟨hc'.trans hc, fun c x => (hx' c x).trans (hx c x), hl'.trans hl, hb'.trans hb, ho'.trans ho⟩

theorem State.keepsContexts_of_writeBacks {s t : State} (h : s.onlyWriteBacks t) : s.keepsContexts t := by
  refine ⟨State.onlyWriteBacks_cur h, State.onlyWriteBacks_ctxAt h, State.onlyWriteBacks_lmem h, ?_, ?_⟩ <;> rw [h.1]

theorem State.keepsContexts_ctx {s t : State} (h : s.keepsContexts t) : t.ctx = s.ctx := State.ctx_of_ctxAt h.1 h.2.1

theorem State.keepsContexts_drainVector (s : State) : s.keepsContexts s.drainVector := by
  obtain ⟨h, hx⟩ := s.drainVector_frame
  exact ⟨State.onlyContext_cur h, hx, by rw [h.1], by rw [h.1], by rw [h.1]⟩

theorem State.keepsContexts_performAll (s : State) : s.keepsContexts s.performAll :=
  State.keepsContexts_trans s.keepsContexts_drainVector (State.keepsContexts_of_writeBacks (State.onlyWriteBacks_writeBackAll _ _))

/-- An own part that keeps every context. -/
theorem State.issue_keepsContexts {s w : State} {i : Instr} {ctl : SCtl} {m : Meta} {body : State → Effect} (hi : ∀ f, i ≠ .aend f)
    (h : s.executes ctl m.srcs m.dst m.lam) (hp : s.ctx.mode.allows m.priv = true) (hh : m.handler = true ∨ s.inHandler = false)
    (hb : body (s.atIssue (allSources ctl m)) = .next w) (hw : (s.atIssue (allSources ctl m)).keepsContexts w) :
    ∃ t, s.issue i ctl m body = .next t ∧ contextMovedOn s t ∧ othersKept s t ∧ t.lmem = s.lmem ∧ w.onlyContext t := by
  obtain ⟨t, ht, hmoved, hwt⟩ := State.issue_movesOn hi h hp hh hb (State.keepsContexts_ctx hw)
  have ha := s.onlyContext_atIssue (allSources ctl m)
  refine ⟨t, ht, hmoved, ?_, ?_, hwt⟩
  · exact othersKept_trans (State.onlyContext_othersKept ha) (State.onlyContext_cur ha)
      (othersKept_trans (othersKept_of_ctxAt hw.2.1) hw.1 (State.onlyContext_othersKept hwt))
  · rw [hwt.1, hw.2.2.1]
    exact s.lmem_atIssue _

/-- An own part that is tried again: the instruction waits where it stands. -/
theorem State.issue_retries {s : State} {i : Instr} {ctl : SCtl} {m : Meta} {body : State → Effect} {w : Bounded} (hi : ∀ f, i ≠ .aend f)
    (h : s.executes ctl m.srcs m.dst m.lam) (hp : s.ctx.mode.allows m.priv = true) (hh : m.handler = true ∨ s.inHandler = false)
    (hb : body (s.atIssue (allSources ctl m)) = .retry (s.atIssue (allSources ctl m)) w) :
    ∃ t, s.issue i ctl m body = .next t ∧ s.onlyContext t ∧ s.sameBytes t ∧ t.ctx.midWait = some w ∧ t.ctx.pc = s.ctx.pc ∧ t.ctx.s = s.ctx.s := by
  obtain ⟨a, ha⟩ : ∃ a, a = s.atIssue (allSources ctl m) := ⟨_, rfl⟩
  rw [← ha] at hb
  refine ⟨_, State.issue_ends hi h hp hh ((congrArg body ha.symm).trans hb) (by simp) (by simp), ?_⟩
  have ho : s.onlyContext ((Effect.retry a w).finish ctl.stall) := State.onlyContext_trans (by rw [ha]; exact s.onlyContext_atIssue _)
    (State.onlyContext_trans a.onlyContext_notIssued (State.onlyContext_retire_modCtx _ _ _))
  have hx : ∃ p q, ((Effect.retry a w).finish ctl.stall).ctx =
      { s.ctx with sinceHop := s.ctx.sinceHop + 1 - 1, midWait := some w, nextIssue := p, waitFrom := q } := by
    unfold Effect.finish
    rw [State.ctx_retire, State.ctx_modCtx, State.ctx_notIssued, ha, State.ctx_atIssue s _ h.1]
    exact ⟨_, _, rfl⟩
  obtain ⟨p, q, hx⟩ := hx
  refine ⟨ho, State.onlyContext_bytes ho, ?_, ?_, ?_⟩ <;> rw [hx]

/-- Commands are out at issue as before it. -/
theorem State.commandsPending_of {s t : State} (h : s.onlyContext t) : t.commandsPending = s.commandsPending := by
  have hc := State.onlyContext_cur h
  have hd : t.dies = s.dies := by rw [h.1]
  have hf : t.txFrames = s.txFrames := by rw [h.1]
  unfold State.commandsPending State.accessesOut State.matrixOut State.commandsOut State.remoteOut State.lease State.dieAt
  rw [hc, hd, hf]

/-! ### PLBINV (17 R412) -/

/-- What issue must know of PLBINV, of PINV and PMIG, and of HANDOFF. -/
def plbinvMeta (f : SR) : Meta := { srcs := [f.sa], priv := .supervisor, forbid := some 10 }
def pinvMeta (f : SR) : Meta := { srcs := [f.sa, f.sb], priv := .supervisor, forbid := some 10 }
def handoffMeta (f : SR) : Meta := { srcs := [f.sa], priv := .firmware, forbid := some 10 }

theorem Core.sameShared_plb {a b : Core} (h : a.sameShared b) : b.plb = a.plb := by rw [h.1]

/-- A core drops the entries of its PLB that it does not keep. -/
def State.dropPlb (s : State) (keep : PlbEntry → Bool) : State := s.modCore s.runCore (fun k => { k with plb := k.plb.filter keep })

theorem State.keepsContexts_dropPlb (s : State) (keep : PlbEntry → Bool) : s.keepsContexts (s.dropPlb keep) :=
  ⟨rfl, fun c x => s.ctxAt_modCore _ c x _ fun _ => rfl, rfl, rfl, rfl⟩

/-- PLBINV when it has its operand drops entries of the core's PLB. -/
theorem plbinv_drops {f : SR} {s : State} {keep : PlbEntry → Bool} {body : State → Effect} (h : s.executes f.ctl [f.sa] none 0)
    (hh : s.inHandler = false) (hm : s.ctx.mode ≠ .program) (hexec : exec (.plbinv f) s = s.issue (.plbinv f) f.ctl (plbinvMeta f) body)
    (hpart : body (s.atIssue (allSources f.ctl (plbinvMeta f))) = .next ((s.atIssue (allSources f.ctl (plbinvMeta f))).dropPlb keep)) :
    ∃ t, exec (.plbinv f) s = .next t ∧ contextMovedOn s t ∧ othersKept s t ∧ s.sameBytes t ∧ t.dies = s.dies ∧
      (t.coreAt s.runCore).plb = (s.coreAt s.runCore).plb.filter keep := by
  obtain ⟨a, ha⟩ : ∃ a, a = s.atIssue (allSources f.ctl (plbinvMeta f)) := ⟨_, rfl⟩
  have hsa : s.onlyContext a := by rw [ha]; exact s.onlyContext_atIssue _
  have hrun : a.runCore = s.runCore := by rw [ha]; exact s.runCore_atIssue _ h.1
  obtain ⟨t, ht, hmoved, hothers, -, hwt⟩ := State.issue_keepsContexts (i := .plbinv f) (m := plbinvMeta f) (by simp) h (Mode.allows_supervisor hm)
    (.inr hh) hpart (State.keepsContexts_dropPlb _ _)
  rw [← ha] at hwt
  refine ⟨t, hexec.trans ht, hmoved, hothers, ?_, ?_, ?_⟩
  · exact State.sameBytes_trans (State.onlyContext_bytes hsa) (State.sameBytes_trans (t := a.dropPlb keep) (fun _ => ⟨rfl, rfl, rfl⟩)
      (State.onlyContext_bytes hwt))
  · rw [hwt.1]
    change a.dies = s.dies
    rw [hsa.1]
  · rw [Core.sameShared_plb (hwt.2.1 _), State.dropPlb, hrun, State.coreAt_modCore, if_pos rfl, Core.sameShared_plb (hsa.2.1 _)]

/-- PLBINV of every entry, of a domain's, or illegal. -/
theorem plbinv_invalidates {f : SR} {s : State} (h : s.executes f.ctl [f.sa] none 0) (hh : s.inHandler = false) (hm : s.ctx.mode ≠ .program) :
    ∃ t, exec (.plbinv f) s = .next t ∧
      if f.sa ≠ 0 ∧ 2 ^ 16 ≤ (s.reg f.sa).toNat then s.trapTaken t none 0x01 (encode (.plbinv f))
      else contextMovedOn s t ∧ othersKept s t ∧ s.sameBytes t ∧ t.dies = s.dies ∧
        (t.coreAt s.runCore).plb =
          if f.sa = 0 then [] else (s.coreAt s.runCore).plb.filter (fun e => e.domain != (s.reg f.sa).setWidth 16) := by
  have hrs : (s.atIssue (allSources f.ctl (plbinvMeta f))).rs f.sa = s.reg f.sa := State.rs_atIssue s _ h.1 h.2.1 _
  obtain ⟨body, hexec, hpart⟩ : ∃ body, exec (.plbinv f) s = s.issue (.plbinv f) f.ctl (plbinvMeta f) body ∧
      body (s.atIssue (allSources f.ctl (plbinvMeta f))) =
        if f.sa = 0 then .next ((s.atIssue (allSources f.ctl (plbinvMeta f))).dropPlb fun _ => false)
        else if 2 ^ 16 ≤ (s.reg f.sa).toNat then illegal (s.atIssue (allSources f.ctl (plbinvMeta f))) (.plbinv f)
        else .next ((s.atIssue (allSources f.ctl (plbinvMeta f))).dropPlb fun e => e.domain != (s.reg f.sa).setWidth 16) := by
    refine ⟨_, rfl, ?_⟩
    dsimp only
    rw [hrs]
    rfl
  by_cases h0 : f.sa = 0
  · rw [if_pos h0] at hpart
    obtain ⟨t, ht, hmoved, hothers, hbytes, hdies, hplb⟩ := plbinv_drops h hh hm hexec hpart
    refine ⟨t, ht, ?_⟩
    rw [if_neg (by simp [h0]), if_pos h0]
    exact ⟨hmoved, hothers, hbytes, hdies, by simpa using hplb⟩
  · rw [if_neg h0] at hpart
    by_cases hbig : 2 ^ 16 ≤ (s.reg f.sa).toNat
    · rw [if_pos hbig] at hpart
      obtain ⟨t, ht, htrap⟩ := State.issue_traps (i := .plbinv f) (m := plbinvMeta f) (by simp) h (Mode.allows_supervisor hm) hh hpart
      refine ⟨t, hexec.trans ht, ?_⟩
      rwa [if_pos ⟨h0, hbig⟩]
    · rw [if_neg hbig] at hpart
      obtain ⟨t, ht, hkept⟩ := plbinv_drops h hh hm hexec hpart
      refine ⟨t, ht, ?_⟩
      rwa [if_neg fun hc => hbig hc.2, if_neg h0]

/-! ### What the invalidations drop on each die (06 R139; 13 R297) -/

/-- What a step establishes at its die, and every step keeps at the other dies, holds of a die of the list after the steps. -/
theorem foldl_dies {P : DieId → State → Prop} {f : State → DieId → State} (hat : ∀ s d, P d (f s d))
    (hkeep : ∀ s d e, d ≠ e → P d s → P d (f s e)) {l : List DieId} {d : DieId} (h : d ∈ l) (s : State) : P d (l.foldl f s) := by
  have hall : ∀ (l : List DieId) (s : State), P d s → P d (l.foldl f s) := fun l => by
    induction l with
    | nil => exact fun _ h => h
    | cons e es ih =>
      intro s h
      by_cases he : d = e
      · exact ih _ (by rw [← he]; exact hat s d)
      · exact ih _ (hkeep s d e he h)
  induction l generalizing s with
  | nil => cases h
  | cons e es ih =>
    rcases List.mem_cons.1 h with rfl | hrest
    · exact hall es _ (hat s d)
    · exact ih hrest (f s e)

theorem mem_allDies (d : DieId) : d ∈ allDies := by
  unfold allDies
  exact List.mem_map.2 ⟨d.val, List.mem_range.2 d.isLt, Fin.ext (Nat.mod_eq_of_lt d.isLt)⟩

/-- What PINV and HANDOFF do at one die: its copies reach the home, and its lines go. -/
def State.dropGrainsAt (hit : L2Line → Bool) (s : State) (d : DieId) : State :=
  (((s.dieAt d).l2.filter (fun ln => hit ln && !ln.home)).foldl (fun v ln => v.writeBack d ln) (s.drainFlue d)).modDie d
    (fun x => { x with l2 := x.l2.filter (fun ln => !hit ln) })

theorem State.dropGrains_eq (s : State) (hit : L2Line → Bool) : s.dropGrains hit = allDies.foldl (State.dropGrainsAt hit) s := rfl

/-- What they do at one die with its leaves. -/
def State.dropLeavesAt (hit : Leaf → Bool) (writeHot : Bool) (s : State) (d : DieId) : State :=
  (if writeHot = true then ((s.dieAt d).tlb.filter (fun e => hit e.leaf)).foldl (fun v e => v.giveUpLeaf d e.leaf) s else s).modDie d
    (fun x => { x with tlb := x.tlb.filter (fun e => !hit e.leaf) })

theorem State.dropLeaves_eq (s : State) (hit : Leaf → Bool) (writeHot : Bool) :
    s.dropLeaves hit writeHot = (allDies.foldl (State.dropLeavesAt hit writeHot) s).forgetRewritten := rfl

theorem State.dies_drainFlue (s : State) (d : DieId) : (s.drainFlue d).dies = s.dies := by
  have hone : ∀ (s : State) (p : Packet), (s.deliver p).dies = s.dies := fun s p => by
    unfold State.deliver State.physMasked
    rfl
  have hfold : ∀ (ps : List Packet) (s : State), (ps.foldl State.deliver s).dies = s.dies := fun ps => by
    induction ps with
    | nil => exact fun _ => rfl
    | cons p ps ih => exact fun s => by rw [List.foldl_cons, ih, hone]
  exact hfold _ s

/-- A write-back changes the caches of its own die alone. -/
theorem State.l2_writeBack_other (s : State) {d e : DieId} (h : d ≠ e) (ln : L2Line) :
    ((s.writeBack e ln).dieAt d).l2 = (s.dieAt d).l2 := by
  unfold State.writeBack
  split
  · rfl
  · dsimp only
    rw [State.dieAt_modDie, if_neg h]
    change (((s.drainFlue e).chargeLine e ln).dieAt d).l2 = _
    rw [State.l2_chargeLine, State.dieAt, State.dies_drainFlue]
    rfl

theorem State.l2_foldl_writeBack_other {d e : DieId} (h : d ≠ e) (lines : List L2Line) (s : State) :
    ((lines.foldl (fun v ln => v.writeBack e ln) s).dieAt d).l2 = (s.dieAt d).l2 := by
  induction lines generalizing s with
  | nil => rfl
  | cons ln rest ih => exact (ih _).trans (s.l2_writeBack_other h ln)

/-- No line that `hit` names is left on a die. -/
theorem State.dropGrains_l2 (s : State) (hit : L2Line → Bool) (d : DieId) : ∀ ln ∈ ((s.dropGrains hit).dieAt d).l2, hit ln = false := by
  rw [State.dropGrains_eq]
  refine foldl_dies (P := fun d t => ∀ ln ∈ (t.dieAt d).l2, hit ln = false) (fun t d ln hln => ?_) (fun t d e hde h ln hln => ?_)
    (mem_allDies d) s
  · rw [State.dropGrainsAt, State.dieAt_modDie_self] at hln
    simpa using (List.mem_filter.1 hln).2
  · rw [State.dropGrainsAt, State.dieAt_modDie, if_neg hde, State.l2_foldl_writeBack_other hde, State.dieAt, State.dies_drainFlue] at hln
    exact h ln hln

theorem State.dies_giveUpLeaf (s : State) (d : DieId) (l : Leaf) : (s.giveUpLeaf d l).dies = s.dies := by
  unfold State.giveUpLeaf
  split <;> rfl

theorem State.dies_foldl_giveUpLeaf (d : DieId) (es : List TlbEntry) (s : State) :
    (es.foldl (fun v e => v.giveUpLeaf d e.leaf) s).dies = s.dies := by
  induction es generalizing s with
  | nil => rfl
  | cons e rest ih => exact (ih _).trans (s.dies_giveUpLeaf d e.leaf)

theorem State.dies_forgetRewritten (s : State) : s.forgetRewritten.dies = s.dies := by
  unfold State.forgetRewritten
  split <;> rfl

/-- The dies after the leaves of one die have been given up. -/
theorem State.dies_giveUp (s : State) (d : DieId) (es : List TlbEntry) (writeHot : Bool) :
    (if writeHot = true then es.foldl (fun v e => v.giveUpLeaf d e.leaf) s else s).dies = s.dies := by
  split
  · exact s.dies_foldl_giveUpLeaf d es
  · rfl

/-- No leaf that `hit` names is left on a die. -/
theorem State.dropLeaves_tlb (s : State) (hit : Leaf → Bool) (writeHot : Bool) (d : DieId) :
    ∀ e ∈ ((s.dropLeaves hit writeHot).dieAt d).tlb, hit e.leaf = false := by
  rw [State.dropLeaves_eq, State.dieAt, State.dies_forgetRewritten]
  refine foldl_dies (P := fun d t => ∀ e ∈ (t.dieAt d).tlb, hit e.leaf = false) (fun t d e he => ?_) (fun t d x hdx h e he => ?_)
    (mem_allDies d) s
  · rw [State.dropLeavesAt, State.dieAt_modDie_self] at he
    simpa using (List.mem_filter.1 he).2
  · rw [State.dropLeavesAt, State.dieAt_modDie, if_neg hdx, State.dieAt, State.dies_giveUp] at he
    exact h e he

theorem State.l2_dropLeavesAt (hit : Leaf → Bool) (writeHot : Bool) (s : State) (d e : DieId) :
    ((s.dropLeavesAt hit writeHot e).dieAt d).l2 = (s.dieAt d).l2 := by
  have hdies : ∀ x, (if writeHot = true then ((s.dieAt e).tlb.filter (fun e => hit e.leaf)).foldl (fun v x => v.giveUpLeaf e x.leaf) s
      else s).dieAt x = s.dieAt x := fun x => by rw [State.dieAt, State.dies_giveUp]; rfl
  rw [State.dropLeavesAt, State.dieAt_modDie, hdies, hdies]
  split
  · rename_i hde
    rw [hde]
  · rfl

/-- The leaves go, and no line with them. -/
theorem State.dropLeaves_l2 (s : State) (hit : Leaf → Bool) (writeHot : Bool) (d : DieId) :
    ((s.dropLeaves hit writeHot).dieAt d).l2 = (s.dieAt d).l2 := by
  rw [State.dropLeaves_eq, State.dieAt, State.dies_forgetRewritten]
  generalize allDies = l
  induction l generalizing s with
  | nil => rfl
  | cons e es ih => exact (ih _).trans (State.l2_dropLeavesAt hit writeHot s d e)

theorem State.onlyWriteBacks_dropGrains (s : State) (hit : L2Line → Bool) : s.onlyWriteBacks (s.dropGrains hit) := by
  rw [State.dropGrains_eq]
  refine State.onlyWriteBacks_foldl (fun t d => ?_) _ s
  exact State.onlyWriteBacks_trans (State.onlyWriteBacks_trans (t.onlyWriteBacks_drainFlue d)
    (State.onlyWriteBacks_foldl (fun u ln => u.onlyWriteBacks_writeBack d ln) _ _)) (State.onlyWriteBacks_modDie _ _ _ fun _ => rfl)

theorem State.onlyWriteBacks_giveUpLeaf (s : State) (d : DieId) (l : Leaf) : s.onlyWriteBacks (s.giveUpLeaf d l) := by
  unfold State.giveUpLeaf
  split
  · exact ⟨rfl, fun _ => rfl⟩
  · exact s.onlyWriteBacks_refl

theorem State.onlyWriteBacks_forgetRewritten (s : State) : s.onlyWriteBacks s.forgetRewritten := by
  unfold State.forgetRewritten
  split
  · exact s.onlyWriteBacks_refl
  · exact ⟨rfl, fun _ => rfl⟩

theorem State.onlyWriteBacks_dropLeaves (s : State) (hit : Leaf → Bool) (writeHot : Bool) :
    s.onlyWriteBacks (s.dropLeaves hit writeHot) := by
  rw [State.dropLeaves_eq]
  refine State.onlyWriteBacks_trans (State.onlyWriteBacks_foldl (fun t d => ?_) _ s) (State.onlyWriteBacks_forgetRewritten _)
  refine State.onlyWriteBacks_trans ?_ (State.onlyWriteBacks_modDie _ _ _ fun _ => rfl)
  split
  · exact State.onlyWriteBacks_foldl (fun u (e : TlbEntry) => u.onlyWriteBacks_giveUpLeaf d e.leaf) _ _
  · exact t.onlyWriteBacks_refl

/-! ### PINV (13 R297; 17 R411) -/

/-- The L1 lines of a core that hold no byte of a range. -/
def Core.dropL1 (k : Core) (lo hi : Nat) : Core :=
  { k with
    l1 := k.l1.filter (fun ln => !(decide (lo < ln.va + ln.size) && decide (ln.va < hi)))
    icache := k.icache.filter (fun ln => !(decide (lo < ln.va + ln.size) && decide (ln.va < hi))) }

theorem Core.not_mem_dropL1 (k : Core) (lo hi : Nat) :
    ∀ ln ∈ (k.dropL1 lo hi).l1 ++ (k.dropL1 lo hi).icache, ¬ (lo < ln.va + ln.size ∧ ln.va < hi) := by
  intro ln hln
  have hkept : (!(decide (lo < ln.va + ln.size) && decide (ln.va < hi))) = true := by
    rcases List.mem_append.1 hln with hl | hl
    · exact (List.mem_filter.1 hl).2
    · exact (List.mem_filter.1 hl).2
  simpa [imp_iff_not_or] using hkept

theorem State.coreAt_mapCores (s : State) (f : Core → Core) (c : CoreId) : State.coreAt { s with cores := vmap s.cores f } c = f (s.coreAt c) :=
  getElem_vmap_fin s.cores f c

theorem State.coreAt_dropL1Range (s : State) (lo hi : Nat) (c : CoreId) : (s.dropL1Range lo hi).coreAt c = (s.coreAt c).dropL1 lo hi :=
  s.coreAt_mapCores (fun k => k.dropL1 lo hi) c

theorem State.dieAt_dropL1Range (s : State) (lo hi : Nat) (d : DieId) : (s.dropL1Range lo hi).dieAt d = s.dieAt d := by
  unfold State.dropL1Range
  exact congrArg (fun v : Vector Die 8 => v[d]) rfl

theorem State.keepsContexts_dropL1Range (s : State) (lo hi : Nat) : s.keepsContexts (s.dropL1Range lo hi) := by
  have hcore := s.coreAt_dropL1Range lo hi
  unfold State.dropL1Range at hcore ⊢
  refine ⟨rfl, fun c x => ?_, rfl, rfl, rfl⟩
  rw [State.ctxAt, hcore]
  rfl

/-- Granting a held write changes no core, no die and no memory. -/
theorem State.grantHeld_frame (s : State) (lo hi : Nat) :
    s.keepsContexts (s.grantHeld lo hi) ∧ (s.grantHeld lo hi).cores = s.cores ∧ (s.grantHeld lo hi).dies = s.dies := by
  unfold State.grantHeld
  split
  · exact ⟨s.keepsContexts_refl, rfl, rfl⟩
  · exact ⟨⟨rfl, fun _ _ => rfl, rfl, rfl, rfl⟩, rfl, rfl⟩

theorem State.keepsContexts_invalidate (s : State) (lo hi : Nat) : s.keepsContexts (s.invalidate lo hi) :=
  State.keepsContexts_trans (State.keepsContexts_of_writeBacks (s.onlyWriteBacks_dropGrains _)) (State.keepsContexts_trans
    (State.keepsContexts_dropL1Range _ lo hi) (State.keepsContexts_trans (State.keepsContexts_of_writeBacks
      (State.onlyWriteBacks_dropLeaves _ _ true)) (State.grantHeld_frame _ lo hi).1))

/-- The two parts of PINV before held writes are granted: the grains of the caches and the L1 lines, then the leaves. -/
def State.dropRange (s : State) (lo hi : Nat) : State := (s.dropGrains (fun ln => lo ≤ ln.va && ln.va < hi)).dropL1Range lo hi
def Leaf.meets (lo hi : Nat) (l : Leaf) : Bool := decide (lo < l.vbase + l.size) && decide (l.vbase < hi)

theorem State.invalidate_eq (s : State) (lo hi : Nat) :
    s.invalidate lo hi = ((s.dropRange lo hi).dropLeaves (Leaf.meets lo hi) true).grantHeld lo hi := rfl

/-- Nothing of a range that PINV invalidates is left in a cache of a die. -/
theorem State.invalidate_dies (s : State) (lo hi : Nat) (d : DieId) :
    (∀ ln ∈ ((s.invalidate lo hi).dieAt d).l2, ¬ (lo ≤ ln.va ∧ ln.va < hi)) ∧
      ∀ e ∈ ((s.invalidate lo hi).dieAt d).tlb, ¬ (lo < e.leaf.vbase + e.leaf.size ∧ e.leaf.vbase < hi) := by
  have hdie : (s.invalidate lo hi).dieAt d = ((s.dropRange lo hi).dropLeaves (Leaf.meets lo hi) true).dieAt d := by
    rw [State.invalidate_eq, State.dieAt, (State.grantHeld_frame _ lo hi).2.2]
    rfl
  rw [hdie]
  refine ⟨fun ln hln => ?_, fun e he => ?_⟩
  · rw [State.dropLeaves_l2, State.dropRange, State.dieAt_dropL1Range] at hln
    have := s.dropGrains_l2 (fun ln => lo ≤ ln.va && ln.va < hi) d ln hln
    simpa using this
  · have := State.dropLeaves_tlb _ (Leaf.meets lo hi) true d e he
    simpa [Leaf.meets] using this

/-- Nothing of a range that PINV invalidates is left in an L1 of a core. -/
theorem State.invalidate_cores (s : State) (lo hi : Nat) (c : CoreId) :
    ∀ ln ∈ ((s.invalidate lo hi).coreAt c).l1 ++ ((s.invalidate lo hi).coreAt c).icache, ¬ (lo < ln.va + ln.size ∧ ln.va < hi) := by
  have hcore : (s.invalidate lo hi).coreAt c = ((s.dropGrains (fun ln => lo ≤ ln.va && ln.va < hi)).coreAt c).dropL1 lo hi := by
    rw [State.invalidate_eq, State.coreAt, (State.grantHeld_frame _ lo hi).2.1,
      State.onlyWriteBacks_cores (State.onlyWriteBacks_dropLeaves _ _ true)]
    exact State.coreAt_dropL1Range _ lo hi c
  rw [hcore]
  exact Core.not_mem_dropL1 _ lo hi

theorem Core.sameShared_icache {a b : Core} (h : a.sameShared b) : b.icache = a.icache := by rw [h.1]

/-- PINV of its range, or of all of memory. -/
theorem pinv_invalidates {f : SR} {s : State} (h : s.executes f.ctl [f.sa, f.sb] none 0) (hh : s.inHandler = false)
    (hm : s.ctx.mode ≠ .program) :
    let p := (s.reg f.sa).toNat
    let n := (s.reg f.sb).toNat
    let lo := if n = 0 then 0 else p * 65536
    let hi := if n = 0 then 2 ^ 52 else (p + n) * 65536
    ∃ t, exec (.pinv f) s = .next t ∧
      if 2 ^ 36 ≤ p ∨ (n ≠ 0 ∧ 2 ^ 36 < p + n) then s.trapTaken t none 0x01 (encode (.pinv f))
      else if s.commandsPending = true then
        s.onlyContext t ∧ s.sameBytes t ∧ t.ctx.midWait = some (.accesses true true true false true) ∧
          t.ctx.pc = s.ctx.pc ∧ t.ctx.s = s.ctx.s
      else contextMovedOn s t ∧ othersKept s t ∧ (∀ x, readByte t.lmem x = readByte s.lmem x) ∧
        (∀ d, (∀ ln ∈ (t.dieAt d).l2, ¬ (lo ≤ ln.va ∧ ln.va < hi)) ∧
          ∀ e ∈ (t.dieAt d).tlb, ¬ (lo < e.leaf.vbase + e.leaf.size ∧ e.leaf.vbase < hi)) ∧
        ∀ c, ∀ ln ∈ (t.coreAt c).l1 ++ (t.coreAt c).icache, ¬ (lo < ln.va + ln.size ∧ ln.va < hi) := by
  intro p n lo hi
  obtain ⟨a, ha⟩ : ∃ a, a = s.atIssue (allSources f.ctl (pinvMeta f)) := ⟨_, rfl⟩
  have hrs : ∀ r, a.rs r = s.reg r := fun r => by rw [ha]; exact State.rs_atIssue s _ h.1 h.2.1 _
  have hpending : a.commandsPending = s.commandsPending := by rw [ha]; exact State.commandsPending_of (s.onlyContext_atIssue _)
  have hallows : s.ctx.mode.allows (pinvMeta f).priv = true := Mode.allows_supervisor hm
  obtain ⟨body, hexec, hpart⟩ : ∃ body, exec (.pinv f) s = s.issue (.pinv f) f.ctl (pinvMeta f) body ∧ body a =
      if 2 ^ 36 ≤ p ∨ (n ≠ 0 ∧ 2 ^ 36 < p + n) then illegal a (.pinv f)
      else if s.commandsPending = true then .retry a (.accesses true true true false true)
      else .next (a.performAll.invalidate lo hi) := by
    refine ⟨_, rfl, ?_⟩
    dsimp only
    rw [hrs, hrs, hpending]
    by_cases hn : n = 0
    · simp [lo, hi, n, p, show (s.reg f.sb).toNat = 0 from hn]
    · simp [lo, hi, n, p, show ¬ (s.reg f.sb).toNat = 0 from hn]
  split_ifs at hpart ⊢ with hbad hwait
  · rw [ha] at hpart
    obtain ⟨t, ht, htrap⟩ := State.issue_traps (i := .pinv f) (m := pinvMeta f) (by simp) h hallows hh hpart
    exact ⟨t, hexec.trans ht, htrap⟩
  · rw [ha] at hpart
    obtain ⟨t, ht, hw⟩ := State.issue_retries (i := .pinv f) (m := pinvMeta f) (by simp) h hallows (.inr hh) hpart
    exact ⟨t, hexec.trans ht, hw⟩
  · have hkeeps : a.keepsContexts (a.performAll.invalidate lo hi) :=
      State.keepsContexts_trans a.keepsContexts_performAll (State.keepsContexts_invalidate _ lo hi)
    rw [ha] at hpart hkeeps
    obtain ⟨t, ht, hmoved, hothers, hlmem, hwt⟩ := State.issue_keepsContexts (i := .pinv f) (m := pinvMeta f) (by simp) h hallows (.inr hh)
      hpart hkeeps
    refine ⟨t, hexec.trans ht, hmoved, hothers, fun x => by rw [hlmem], fun d => ?_, fun c => ?_⟩
    · rw [State.dieAt_of _ _ hwt]
      exact State.invalidate_dies _ lo hi d
    · rw [Core.sameShared_l1 (hwt.2.1 c), Core.sameShared_icache (hwt.2.1 c)]
      exact State.invalidate_cores _ lo hi c

/-! ### HANDOFF (06 R139; 16 R366) -/

/-- An open region that tracks a location whose home changes is told so. -/
def Ctx.movedBy (tracks : Region → Bool) (x : Ctx) : Ctx :=
  { x with region := x.region.map (fun r => { r with moved := r.moved || tracks r }) }

theorem Ctx.movedBy_none {x : Ctx} (h : x.region = none) (tracks : Region → Bool) : x.movedBy tracks = x := by
  have hmap : x.region.map (fun r => { r with moved := r.moved || tracks r }) = x.region := by rw [h]; rfl
  exact congrArg (fun q => { x with region := q }) hmap

theorem Ctx.movedBy_never (x : Ctx) : x.movedBy (fun _ => false) = x := by
  have hmap : x.region.map (fun r => { r with moved := r.moved || false }) = x.region := by
    cases x.region with
    | none => rfl
    | some r => exact congrArg some (congrArg (fun b => { r with moved := b }) (Bool.or_false _))
  exact congrArg (fun q => { x with region := q }) hmap

/-- One answer serves for the region that a context has. -/
theorem Ctx.movedBy_bool (tracks : Region → Bool) (x : Ctx) :
    ∃ b, x.movedBy tracks = { x with region := x.region.map (fun r => { r with moved := r.moved || b }) } := by
  unfold Ctx.movedBy
  cases x.region with
  | none => exact ⟨false, rfl⟩
  | some r => exact ⟨tracks r, rfl⟩

/-- From `s` to `t` no byte of a local memory and no register of the Bellows has changed, no core but for its contexts, and no context
but that its open region may have been told of a home that changed. -/
def State.movesRegions (s t : State) : Prop :=
  t.cur = s.cur ∧ t.lmem = s.lmem ∧ t.dies = s.dies ∧ t.owners = s.owners ∧ t.mem = s.mem ∧
    ∃ tracks, ∀ c x, t.ctxAt c x = (s.ctxAt c x).movedBy tracks

/-- Moving regions changes nothing else. -/
theorem State.moveRegions_moves (s : State) (hit : Leaf → Bool) : s.movesRegions (s.moveRegions hit) := by
  have hmap : ∀ (tracks : Region → Bool) (k : Core → Core), (∀ y, (k y).ctxs = vmap y.ctxs (Ctx.movedBy tracks)) →
      s.movesRegions { s with cores := vmap s.cores k } := fun tracks k hk => by
    refine ⟨rfl, rfl, rfl, rfl, rfl, tracks, fun c x => ?_⟩
    rw [State.ctxAt, State.coreAt_mapCores, hk]
    exact getElem_vmap_fin _ _ x
  exact hmap _ _ fun _ => rfl

/-- The state that HANDOFF leaves before homes change: writes in flight, copies and leaves have gone. -/
def State.cleared (s : State) (i : Nat) : State :=
  ((allDies.foldl (fun t d => t.drainFlue d) s).dropGrains (fun ln => s.inStack i ln.pa)).dropLeaves (fun l => s.inStack i l.frame) true

theorem State.inStack_of {s t : State} (h : t.bregs = s.bregs) (i pa : Nat) : t.inStack i pa = s.inStack i pa := by
  unfold State.inStack
  rw [h]

theorem State.onlyWriteBacks_drainAll (s : State) : s.onlyWriteBacks (allDies.foldl (fun t d => t.drainFlue d) s) :=
  State.onlyWriteBacks_foldl (fun t d => t.onlyWriteBacks_drainFlue d) _ s

theorem State.onlyWriteBacks_cleared (s : State) (i : Nat) : s.onlyWriteBacks (s.cleared i) :=
  State.onlyWriteBacks_trans s.onlyWriteBacks_drainAll (State.onlyWriteBacks_trans (State.onlyWriteBacks_dropGrains _ _)
    (State.onlyWriteBacks_dropLeaves _ _ true))

/-- Nothing of a stack is left in the caches of a die. -/
theorem State.cleared_dies (s : State) (i : Nat) (d : DieId) :
    (∀ ln ∈ ((s.cleared i).dieAt d).l2, s.inStack i ln.pa = false) ∧ ∀ e ∈ ((s.cleared i).dieAt d).tlb, s.inStack i e.leaf.frame = false := by
  refine ⟨fun ln hln => ?_, fun e he => State.dropLeaves_tlb _ (fun l => s.inStack i l.frame) true d e he⟩
  rw [State.cleared, State.dropLeaves_l2] at hln
  exact State.dropGrains_l2 _ (fun ln => s.inStack i ln.pa) d ln hln

/-- The die that takes over a stack: the other one of its two. -/
def nextOwner (i : Nat) (old : DieId) : DieId := if old.val == i then Fin.ofNat 8 (i + 1) else Fin.ofNat 8 i

/-- The stack passes to its other die, with its markers, and open regions are told. -/
def State.passOn (s : State) (i : Nat) : State :=
  let old := s.owners[(Fin.ofNat 8 i)]
  let moved := (s.dieAt old).markers.filter (s.markerIn i)
  let s4 := s.modDie old (fun x => { x with markers := x.markers.filter (fun m => !moved.contains m) })
  let s5 := s4.modDie (nextOwner i old) (fun x => { x with markers := moved ++ x.markers })
  ({ s5 with owners := s5.owners.set (Fin.ofNat 8 i) (nextOwner i old) }).moveRegions (fun l => s5.inStack i l.frame)

theorem State.handOver_eq (s : State) (i : Nat) : s.handOver i = (s.cleared i).passOn i := by
  obtain ⟨u, hu⟩ : ∃ u, u = allDies.foldl (fun t d => t.drainFlue d) s := ⟨_, rfl⟩
  have hsu : s.onlyWriteBacks u := by rw [hu]; exact s.onlyWriteBacks_drainAll
  have hbregs : ∀ {t : State}, s.onlyWriteBacks t → t.bregs = s.bregs := fun h => by rw [h.1]
  have hlines : (fun ln : L2Line => u.inStack i ln.pa) = fun ln => s.inStack i ln.pa := funext fun ln => State.inStack_of (hbregs hsu) _ _
  have hleaves : (fun l : Leaf => (u.dropGrains fun ln => s.inStack i ln.pa).inStack i l.frame) = fun l => s.inStack i l.frame :=
    funext fun l => State.inStack_of (hbregs (State.onlyWriteBacks_trans hsu (State.onlyWriteBacks_dropGrains u _))) _ _
  rw [State.cleared, ← hu, ← hleaves, ← hlines, hu]
  rfl

/-- A change of a die's markers keeps its caches. -/
theorem State.caches_markers (s : State) (d e : DieId) (g : Die → List Marker) :
    ((s.modDie d (fun x => { x with markers := g x })).dieAt e).l2 = (s.dieAt e).l2 ∧
      ((s.modDie d (fun x => { x with markers := g x })).dieAt e).tlb = (s.dieAt e).tlb := by
  rw [State.dieAt_modDie]
  split
  · rename_i hed
    rw [hed]
    exact ⟨rfl, rfl⟩
  · exact ⟨rfl, rfl⟩

theorem State.caches_passMarkers (s : State) (old new d : DieId) (g g' : Die → List Marker) :
    let s5 := (s.modDie old (fun x => { x with markers := g x })).modDie new (fun x => { x with markers := g' x })
    (s5.dieAt d).l2 = (s.dieAt d).l2 ∧ (s5.dieAt d).tlb = (s.dieAt d).tlb := by
  obtain ⟨hl, ht⟩ := s.caches_markers old d g
  obtain ⟨hl', ht'⟩ := (s.modDie old (fun x => { x with markers := g x })).caches_markers new d g'
  exact ⟨hl'.trans hl, ht'.trans ht⟩

/-- What passes on changes: the home of the stack, and what regions are told. -/
theorem State.passOn_frame (s : State) (i : Nat) :
    (s.passOn i).cur = s.cur ∧ (s.passOn i).lmem = s.lmem ∧
      (s.passOn i).owners = s.owners.set (Fin.ofNat 8 i) (nextOwner i s.owners[(Fin.ofNat 8 i)]) ∧
      (∃ tracks, ∀ c x, (s.passOn i).ctxAt c x = (s.ctxAt c x).movedBy tracks) ∧
      ∀ d, ((s.passOn i).dieAt d).l2 = (s.dieAt d).l2 ∧ ((s.passOn i).dieAt d).tlb = (s.dieAt d).tlb := by
  let old := s.owners[(Fin.ofNat 8 i)]
  let moved := (s.dieAt old).markers.filter (s.markerIn i)
  let s5 := (s.modDie old (fun x => { x with markers := x.markers.filter (fun m => !moved.contains m) })).modDie (nextOwner i old)
    (fun x => { x with markers := moved ++ x.markers })
  obtain ⟨hcur, hlmem, hdies, howners, -, tracks, hctx⟩ := State.moveRegions_moves
    ({ s5 with owners := s5.owners.set (Fin.ofNat 8 i) (nextOwner i old) }) (fun l => s5.inStack i l.frame)
  refine ⟨hcur, hlmem, howners, ⟨tracks, hctx⟩, fun d => ?_⟩
  have hdie : (s.passOn i).dieAt d = s5.dieAt d := congrArg (fun v : Vector Die 8 => v[d]) hdies
  rw [hdie]
  exact s.caches_passMarkers old (nextOwner i old) d (fun x => x.markers.filter (fun m => !moved.contains m)) (fun x => moved ++ x.markers)

theorem State.clear_owners (s : State) (i : Nat) : (s.cleared i).owners = s.owners := by
  rw [(s.onlyWriteBacks_cleared i).1]

/-- HANDOFF of a stack, when no command of its context is out. -/
theorem State.handOver_frame (s : State) (i : Nat) :
    (s.handOver i).cur = s.cur ∧ (s.handOver i).lmem = s.lmem ∧
      (s.handOver i).owners = s.owners.set (Fin.ofNat 8 i) (nextOwner i s.owners[(Fin.ofNat 8 i)]) ∧
      (∃ tracks, ∀ c x, (s.handOver i).ctxAt c x = (s.ctxAt c x).movedBy tracks) ∧
      ∀ d, (∀ ln ∈ ((s.handOver i).dieAt d).l2, s.inStack i ln.pa = false) ∧
        ∀ e ∈ ((s.handOver i).dieAt d).tlb, s.inStack i e.leaf.frame = false := by
  rw [State.handOver_eq]
  obtain ⟨hcur, hlmem, howners, ⟨tracks, hctx⟩, hdies⟩ := (s.cleared i).passOn_frame i
  have hclear := s.onlyWriteBacks_cleared i
  refine ⟨hcur.trans (State.onlyWriteBacks_cur hclear), hlmem.trans (State.onlyWriteBacks_lmem hclear), ?_,
    ⟨tracks, fun c x => by rw [hctx, State.onlyWriteBacks_ctxAt hclear]⟩, fun d => ?_⟩
  · rw [howners, State.clear_owners]
  · rw [(hdies d).1, (hdies d).2]
    exact s.cleared_dies i d

/-- HANDOFF, refused, waiting for its context's commands, or done. -/
theorem handoff_moves {f : SR} {s : State} (h : s.executes f.ctl [f.sa] none 0) (hh : s.inHandler = false) (hm : s.ctx.mode = .firmware) :
    let i := (s.reg f.sa).toNat
    ∃ t, exec (.handoff f) s = .next t ∧
      if 7 < i ∨ (s.runDie.val ≠ i ∧ s.runDie.val ≠ (i + 1) % 8) then s.trapTaken t none 0x01 (encode (.handoff f))
      else if s.commandsPending = true then
        s.onlyContext t ∧ s.sameBytes t ∧ t.ctx.midWait = some (.accesses true true true false true) ∧
          t.ctx.pc = s.ctx.pc ∧ t.ctx.s = s.ctx.s
      else contextMovedOn s t ∧ othersMoved s t ∧ (∀ x, readByte t.lmem x = readByte s.lmem x) ∧
        (∀ j : DieId, t.owners[j] =
          if j.val = i then (if (s.owners[j]).val = i then Fin.ofNat 8 (i + 1) else Fin.ofNat 8 i) else s.owners[j]) ∧
        ∀ d, (∀ ln ∈ (t.dieAt d).l2, s.inStack i ln.pa = false) ∧ ∀ e ∈ (t.dieAt d).tlb, s.inStack i e.leaf.frame = false := by
  intro i
  obtain ⟨a, ha⟩ : ∃ a, a = s.atIssue (allSources f.ctl (handoffMeta f)) := ⟨_, rfl⟩
  have hsa : s.onlyContext a := by rw [ha]; exact s.onlyContext_atIssue _
  have hrs : a.rs f.sa = s.reg f.sa := by rw [ha]; exact State.rs_atIssue s _ h.1 h.2.1 _
  have hdie : a.runDie = s.runDie := by rw [ha]; exact congrArg dieOf (s.runCore_atIssue _ h.1)
  have hpending : a.commandsPending = s.commandsPending := State.commandsPending_of hsa
  have hallows : s.ctx.mode.allows (handoffMeta f).priv = true := by rw [hm]; rfl
  obtain ⟨body, hexec, hpart⟩ : ∃ body, exec (.handoff f) s = s.issue (.handoff f) f.ctl (handoffMeta f) body ∧ body a =
      if 7 < i ∨ (s.runDie.val ≠ i ∧ s.runDie.val ≠ (i + 1) % 8) then illegal a (.handoff f)
      else if s.commandsPending = true then .retry a (.accesses true true true false true)
      else .next (a.performAll.handOver i) := by
    refine ⟨_, rfl, ?_⟩
    dsimp only
    rw [hrs, hdie, hpending]
    simp [i]
  split_ifs at hpart ⊢ with hbad hwait
  · rw [ha] at hpart
    obtain ⟨t, ht, htrap⟩ := State.issue_traps (i := .handoff f) (m := handoffMeta f) (by simp) h hallows hh hpart
    exact ⟨t, hexec.trans ht, htrap⟩
  · rw [ha] at hpart
    obtain ⟨t, ht, hw⟩ := State.issue_retries (i := .handoff f) (m := handoffMeta f) (by simp) h hallows (.inr hh) hpart
    exact ⟨t, hexec.trans ht, hw⟩
  · obtain ⟨hcur, hlmem, howners, ⟨tracks, hctx⟩, hdies⟩ := a.performAll.handOver_frame i
    obtain ⟨hcurp, hctxp, hlmemp, hbregsp, hownersp⟩ := a.keepsContexts_performAll
    have hwctx : ∀ c x, (a.performAll.handOver i).ctxAt c x = (a.ctxAt c x).movedBy tracks := fun c x => by rw [hctx, hctxp]
    have hwcur : (a.performAll.handOver i).cur = a.cur := hcur.trans hcurp
    have hregion : a.ctx.region = none := by rw [ha]; exact State.region_atIssue s _ h.1
    have hwx : (a.performAll.handOver i).ctx = a.ctx := by
      rw [State.ctx_eq_ctxAt, hwcur, hwctx, ← State.ctx_eq_ctxAt]
      exact Ctx.movedBy_none hregion tracks
    obtain ⟨t, ht, hmoved, hwt⟩ := State.issue_movesOn (i := .handoff f) (m := handoffMeta f) (by simp) h hallows (.inr hh)
      ((congrArg body ha.symm).trans hpart) (by rw [hwx, ha])
    refine ⟨t, hexec.trans ht, hmoved, fun c x hcx => ?_, fun y => ?_, fun j => ?_, fun d => ?_⟩
    · have hca := State.onlyContext_cur hsa
      obtain ⟨b, hb⟩ := (s.ctxAt c x).movedBy_bool tracks
      refine ⟨b, ?_⟩
      rw [State.onlyContext_ctxAt hwt (by rw [hwcur, hca]; exact hcx), hwctx, State.onlyContext_ctxAt hsa hcx, hb]
    · rw [hwt.1, hlmem, hlmemp, ha, s.lmem_atIssue]
    · have hso : s.owners = a.owners := by rw [hsa.1]
      have hidx : ∀ j : DieId, j.val = i ↔ j = Fin.ofNat 8 i := fun j => by
        have hi : i % 8 = i := Nat.mod_eq_of_lt (by omega)
        rw [Fin.ext_iff, Fin.val_ofNat, hi]
      rw [show t.owners = (a.performAll.handOver i).owners by rw [hwt.1], howners, hownersp, ← hso]
      by_cases hj : j.val = i
      · rw [if_pos hj, (hidx j).1 hj, nextOwner]
        simp
      · rw [if_neg hj]
        exact Vector.getElem_set_ne _ _ fun e => hj ((hidx j).2 (Fin.ext e.symm))
    · have hstack : ∀ pa, a.performAll.inStack i pa = s.inStack i pa := fun pa =>
        State.inStack_of (hbregsp.trans (by rw [hsa.1])) i pa
      rw [State.dieAt_of _ _ hwt]
      simpa only [hstack] using hdies d

/-! ### What a page's new frame holds (06 R140) -/

/-- A byte that no cell lists is zero. -/
theorem readByte_unlisted {m : List Host.Cell} {x : Nat} (h : ∀ c ∈ m, c.1 ≠ x) : readByte m x = 0 := by
  induction m with
  | nil => rfl
  | cons c m ih =>
    have hc : x ≠ c.1 := fun e => h c (by simp) e.symm
    rw [readByte, if_neg hc, ih fun d hd => h d (List.mem_cons_of_mem _ hd)]
    simp

/-- The cells of a moved range, written one by one: a byte of the new range reads as its origin, unless that lists none. -/
theorem readByte_movedCells {m t : List Host.Cell} {lo : Nat} (src dst n x : Nat) (hm : cellsAbove lo m = true) (ht : memoryWf t = true)
    (hx : dst ≤ x ∧ x < dst + n) :
    readByte ((movedCells m src dst n).foldl (fun t c => writeByte t c.1 c.2) t) x =
      if readByte m (x - dst + src) = 0 then readByte t x else readByte m (x - dst + src) := by
  induction m generalizing lo t with
  | nil => rfl
  | cons c m ih =>
    obtain ⟨a, b⟩ := c
    simp only [cellsAbove, Bool.and_eq_true, decide_eq_true_eq, bne_iff_ne] at hm
    obtain ⟨⟨-, hb⟩, hrest⟩ := hm
    have hread : readByte ((a, b) :: m) (x - dst + src) = if x - dst + src = a then b else readByte m (x - dst + src) := by
      rw [readByte]
      split_ifs with he hlt
      · rfl
      · exact (readByte_below hrest (by omega)).symm
      · rfl
    by_cases hin : src ≤ a ∧ a < src + n
    · have hcells : movedCells ((a, b) :: m) src dst n = (a - src + dst, b) :: movedCells m src dst n := by
        simp [movedCells, hin]
      rw [hcells, List.foldl_cons, ih hrest (memoryWf_writeByte _ _ ht), hread, readByte_writeByte _ _ _ ht]
      by_cases he : x - dst + src = a
      · rw [if_pos (show x = a - src + dst by omega), if_pos he, he, readByte_below hrest (Nat.lt_succ_self a), if_pos rfl, if_neg hb]
      · rw [if_neg (show ¬ x = a - src + dst by omega), if_neg he]
    · have hcells : movedCells ((a, b) :: m) src dst n = movedCells m src dst n := by
        unfold movedCells
        rw [List.filter_cons_of_neg (by simpa using hin)]
      have hne : ¬ x - dst + src = a := by omega
      rw [hcells, ih hrest ht, hread, if_neg hne]

/-- A copied frame reads as its origin. -/
theorem State.readByte_copyFrame {s : State} (h : memoryWf s.mem = true) (src dst n k : Nat) (hk : k < n) :
    readByte (s.copyFrame src dst n).mem (dst + k) = readByte s.mem (src + k) := by
  have hnone : readByte (s.mem.filter (fun c => !(dst ≤ c.1 && c.1 < dst + n))) (dst + k) = 0 :=
    readByte_unlisted fun c hc e => by
      have := (List.mem_filter.1 hc).2
      simp only [Bool.not_eq_true', Bool.and_eq_false_iff, decide_eq_false_iff_not] at this
      omega
  have hmoved := readByte_movedCells (m := s.mem) (t := s.mem.filter (fun c => !(dst ≤ c.1 && c.1 < dst + n))) src dst n (dst + k) h
    (memoryWf_filter _ h) (by omega)
  rw [hnone, show dst + k - dst + src = src + k by omega] at hmoved
  refine hmoved.trans ?_
  split
  · rename_i h0
    exact h0.symm
  · rfl

theorem State.memoryWf_copyFrame {s : State} (h : memoryWf s.mem = true) (src dst n : Nat) : memoryWf (s.copyFrame src dst n).mem = true :=
  memoryWf_foldl_writeByte (fun c : Host.Cell => c.1) (fun c => c.2) _ (memoryWf_filter _ h)

/-! ### A quiet package: no cached line, no marker, no write-back in flight -/

/-- No line is cached and nothing is in flight, and memory is `m`. -/
def quietWith (m : List Host.Cell) (s : State) : Prop := s.mem = m ∧ s.flue = [] ∧ ∀ d, (s.dieAt d).l2 = []

theorem State.drainFlue_quiet {s : State} (h : s.flue = []) (d : DieId) : s.drainFlue d = s := by
  unfold State.drainFlue
  dsimp only
  rw [h, List.filter_nil, List.foldl_nil, h, List.filter_nil, ← h]

theorem quietWith_dropGrainsAt {m : List Host.Cell} {s : State} (h : quietWith m s) (hit : L2Line → Bool) (d : DieId) :
    quietWith m (s.dropGrainsAt hit d) := by
  obtain ⟨hm, hf, hl⟩ := h
  have hstep : s.dropGrainsAt hit d = s.modDie d (fun x => { x with l2 := x.l2.filter (fun ln => !hit ln) }) := by
    rw [State.dropGrainsAt, hl d, State.drainFlue_quiet hf]
    rfl
  rw [hstep]
  refine ⟨hm, hf, fun e => ?_⟩
  rw [State.dieAt_modDie]
  split
  · change ((s.dieAt d).l2.filter _) = []
    rw [hl d]
    rfl
  · exact hl e

theorem quietWith_dropGrains {m : List Host.Cell} {s : State} (h : quietWith m s) (hit : L2Line → Bool) : quietWith m (s.dropGrains hit) := by
  rw [State.dropGrains_eq]
  generalize allDies = l
  induction l generalizing s with
  | nil => exact h
  | cons d ds ih => exact ih (quietWith_dropGrainsAt h hit d)

theorem quietWith_settleMarkers {m : List Host.Cell} {s : State} (h : quietWith m s) (hmark : ∀ d, (s.dieAt d).markers = []) (d : DieId)
    (lo hi : Nat) : quietWith m (s.settleMarkers d lo hi) := by
  have hstep : s.settleMarkers d lo hi =
      s.modDie d (fun x => { x with markers := x.markers.filter (fun m => !(lo ≤ m.grain && m.grain < hi)) }) := by
    rw [State.settleMarkers, hmark d]
    rfl
  rw [hstep]
  exact ⟨h.1, h.2.1, fun e => (s.caches_markers d e _).1.trans (h.2.2 e)⟩

/-! ### PMIG (06 R140; 17 R414) -/

/-- The page that moves is settled at its old home: no marker of its grains and no cached grain is left. -/
def State.settled (s : State) (l : Leaf) : State :=
  (match s.homeOf l.frame with
    | some h => s.settleMarkers h l.vbase (l.vbase + l.size)
    | none => s).dropGrains (fun ln => l.covers ln.va)

theorem State.onlyWriteBacks_settleMarkers (s : State) (d : DieId) (lo hi : Nat) : s.onlyWriteBacks (s.settleMarkers d lo hi) :=
  State.onlyWriteBacks_trans (State.onlyWriteBacks_foldl (fun t (m : Marker) => t.onlyWriteBacks_writeBackAll m.die) _ s)
    (State.onlyWriteBacks_modDie _ d (fun x => { x with markers := x.markers.filter (fun m => !(lo ≤ m.grain && m.grain < hi)) })
      fun _ => rfl)

theorem State.onlyWriteBacks_settled (s : State) (l : Leaf) : s.onlyWriteBacks (s.settled l) := by
  unfold State.settled
  split
  · exact State.onlyWriteBacks_trans (s.onlyWriteBacks_settleMarkers _ _ _) (State.onlyWriteBacks_dropGrains _ _)
  · exact s.onlyWriteBacks_dropGrains _

theorem State.quietWith_settled {s : State} (h : quietWith s.mem s) (hmark : ∀ d, (s.dieAt d).markers = []) (l : Leaf) :
    quietWith s.mem (s.settled l) := by
  unfold State.settled
  split
  · exact quietWith_dropGrains (quietWith_settleMarkers h hmark _ _ _) _
  · exact quietWith_dropGrains h _

theorem State.mem_correctRuns (s : State) (runs : List (Nat × Nat)) : (s.correctRuns runs).mem = s.mem := by
  have hone : ∀ (s : State) (d : DieId) (pa n : Nat), (s.correct d pa n).mem = s.mem := fun s d pa n => by
    unfold State.correct
    dsimp only
    split <;> rfl
  unfold State.correctRuns
  split
  · rfl
  · clear * - hone
    induction runs generalizing s with
    | nil => rfl
    | cons r rs ih =>
      rw [List.foldl_cons, ih]
      split
      · exact hone _ _ _ _
      · rfl

/-- The page has a new frame, and its entry says so. -/
def State.reframed (s : State) (l : Leaf) (dst : Nat) : State :=
  let t := s.copyFrame l.frame dst l.size
  (t.physWrite l.pte 8 (migratedEntry (t.phys l.pte 8) dst)).physWrite (l.pte + 8) 8 ((tierOf dst).getD 0)

/-- A page that moves: it is settled, regions may be told and errors corrected, its frame is copied, and its leaves go. -/
theorem State.migrate_ok {s u : State} {l : Leaf} {dst : Nat} (h : s.migrate l dst = .ok u) :
    ∃ (v : State) (tracks : Region → Bool), v.cur = s.cur ∧ (∀ c x, v.ctxAt c x = (s.ctxAt c x).movedBy tracks) ∧ v.mem = (s.settled l).mem ∧
      u = (v.reframed l dst).dropLeaves (fun o => o.pte == l.pte) false := by
  have hsettled := s.onlyWriteBacks_settled l
  have hmoved : ∀ w, w = (if (s.settled l).homeOf l.frame == (s.settled l).homeOf dst then s.settled l
      else (s.settled l).moveRegions (fun o => o.pte == l.pte)) →
      ∃ tracks, w.cur = s.cur ∧ (∀ c x, w.ctxAt c x = (s.ctxAt c x).movedBy tracks) ∧ w.mem = (s.settled l).mem := fun w hw => by
    rw [hw]
    split
    · refine ⟨fun _ => false, State.onlyWriteBacks_cur hsettled, fun c x => ?_, rfl⟩
      rw [State.onlyWriteBacks_ctxAt hsettled, Ctx.movedBy_never]
    · obtain ⟨hcur, -, -, -, hmem, tracks, hctx⟩ := (s.settled l).moveRegions_moves (fun o => o.pte == l.pte)
      exact ⟨tracks, hcur.trans (State.onlyWriteBacks_cur hsettled), fun c x => by rw [hctx, State.onlyWriteBacks_ctxAt hsettled], hmem⟩
  unfold State.migrate at h
  extract_lets s1 s2 s3 s4 w0 s5 at h
  split at h
  · cases h
  · obtain ⟨tracks, hcur, hctx, hmem⟩ := hmoved _ rfl
    have hhomes := State.onlyHomes_correctRuns (if (s.settled l).homeOf l.frame == (s.settled l).homeOf dst then s.settled l
      else (s.settled l).moveRegions (fun o => o.pte == l.pte)) [(l.frame, l.size)]
    refine ⟨s3, tracks, (State.onlyHomes_cur hhomes).trans hcur, fun c x => (State.onlyHomes_ctxAt hhomes c x).trans (hctx c x),
      (State.mem_correctRuns _ _).trans hmem, (Except.ok.inj h).symm⟩

theorem State.walk_of {s t : State} (hm : t.mem = s.mem) (hb : t.bad = s.bad) (va n table : Nat) : t.walk va n table = s.walk va n table := by
  induction n generalizing table with
  | zero => rfl
  | succ n ih =>
    unfold State.walk State.phys State.isBad
    rw [hm, hb]
    dsimp only
    rw [ih]

theorem State.notPresent_sound {s : State} (h : s.bad = []) (d : DieId) (va : Nat) : (s.notPresent d va).cause.1 = 0x06 := by
  have hnone : s.firstBad (s.walkRuns va 4 (s.dieAt d).fw.ptbase) = none := by
    unfold State.firstBad
    simp [h]
  unfold State.notPresent
  rw [hnone]
  rfl

/-- An own part after which no region is open completes with nothing in a register. -/
theorem State.issue_done {s u : State} {i : Instr} {ctl : SCtl} {m : Meta} {body : State → Effect} (hi : ∀ f, i ≠ .aend f)
    (h : s.executes ctl m.srcs m.dst m.lam) (hp : s.ctx.mode.allows m.priv = true) (hh : m.handler = true ∨ s.inHandler = false)
    (hb : body (s.atIssue (allSources ctl m)) = .next u) (hu : u.inRegion = false) :
    ∃ t, s.issue i ctl m body = .next t ∧ u.scalarDone t 0 0 0 := by
  refine ⟨_, State.issue_next s i ctl m body u hi h hp hh hb (.inr hu), ?_⟩
  have ho := u.onlyContext_finish_next ctl.stall
  have hx := u.ctx_finish_next ctl.stall
  refine ⟨ho, State.onlyContext_bytes ho, ?_, ?_, ?_, ?_⟩ <;> rw [hx]
  · rfl
  · rfl
  · simp

/-- Giving up leaves without a write back changes no byte. -/
theorem State.mem_dropLeaves (s : State) (hit : Leaf → Bool) : (s.dropLeaves hit false).mem = s.mem := by
  have hforget : ∀ t : State, t.forgetRewritten.mem = t.mem := fun t => by
    unfold State.forgetRewritten
    split <;> rfl
  rw [State.dropLeaves_eq, hforget]
  generalize allDies = l
  induction l generalizing s with
  | nil => rfl
  | cons d ds ih => exact ih _

/-- A page's entry does not lie in its new frame: the frame reads as the old one. -/
theorem State.readByte_reframed {s : State} {l : Leaf} {dst : Nat} (h : memoryWf s.mem = true) (hpte : l.pte + 16 ≤ dst ∨ dst + l.size ≤ l.pte)
    {k : Nat} (hk : k < l.size) : readByte (s.reframed l dst).mem (dst + k) = readByte s.mem (l.frame + k) := by
  have hcopy := s.memoryWf_copyFrame h l.frame dst l.size
  have hmem : (s.reframed l dst).mem = writeN (writeN (s.copyFrame l.frame dst l.size).mem l.pte 8
      (migratedEntry ((s.copyFrame l.frame dst l.size).phys l.pte 8) dst)) (l.pte + 8) 8 ((tierOf dst).getD 0) := by
    unfold State.reframed State.physWrite
    rfl
  rw [hmem, readByte_writeN _ _ _ _ (memoryWf_writeN _ _ _ hcopy), if_neg (by omega), readByte_writeN _ _ _ _ hcopy, if_neg (by omega)]
  exact s.readByte_copyFrame h l.frame dst l.size k hk

theorem State.keepsContexts_setMem (s : State) (m : List Host.Cell) (l : List Nat) : s.keepsContexts { s with mem := m, rewritten := l } :=
  ⟨rfl, fun _ _ => rfl, rfl, rfl, rfl⟩

theorem State.keepsContexts_reframed (s : State) (l : Leaf) (dst : Nat) : s.keepsContexts (s.reframed l dst) :=
  State.keepsContexts_trans (State.keepsContexts_setMem s _ s.rewritten) (State.keepsContexts_trans (State.keepsContexts_setMem _ _ _)
    (State.keepsContexts_setMem _ _ _))

/-- A migrated page's contexts: those of before, but for what open regions are told; and no leaf of it is left. -/
theorem State.migrate_frame {s u : State} {l : Leaf} {dst : Nat} (hu : s.migrate l dst = .ok u) :
    u.cur = s.cur ∧ (∃ tracks, ∀ c x, u.ctxAt c x = (s.ctxAt c x).movedBy tracks) ∧ ∀ d, ∀ e ∈ (u.dieAt d).tlb, e.leaf.pte ≠ l.pte := by
  obtain ⟨v, tracks, hcur, hctx, -, hafter⟩ := State.migrate_ok hu
  have hvu : (v.reframed l dst).onlyWriteBacks u := by rw [hafter]; exact State.onlyWriteBacks_dropLeaves _ _ _
  have hv := v.keepsContexts_reframed l dst
  refine ⟨(State.onlyWriteBacks_cur hvu).trans (hv.1.trans hcur), ⟨tracks, fun c x => ?_⟩, fun d e he => ?_⟩
  · rw [State.onlyWriteBacks_ctxAt hvu, hv.2.1, hctx]
  · rw [hafter] at he
    simpa using State.dropLeaves_tlb _ (fun o => o.pte == l.pte) false d e he

/-- In a quiet package a migrated page's new frame holds its bytes. -/
theorem State.readByte_migrate {s u : State} {l : Leaf} {dst k : Nat} (hu : s.migrate l dst = .ok u) (hwf : memoryWf s.mem = true)
    (hquiet : ∀ d, (s.dieAt d).l2 = [] ∧ (s.dieAt d).markers = []) (hflue : s.flue = [])
    (hpte : l.pte + 16 ≤ dst ∨ dst + l.size ≤ l.pte) (hk : k < l.size) : readByte u.mem (dst + k) = readByte s.mem (l.frame + k) := by
  obtain ⟨v, -, -, -, hmem, hafter⟩ := State.migrate_ok hu
  have hvmem : v.mem = s.mem := hmem.trans (State.quietWith_settled ⟨rfl, hflue, fun d => (hquiet d).1⟩ (fun d => (hquiet d).2) l).1
  rw [hafter, State.mem_dropLeaves, State.readByte_reframed (by rw [hvmem]; exact hwf) hpte hk, hvmem]

section
variable {f : SR} {s : State} (h : s.executes f.ctl [f.sa, f.sb] none 0) (hh : s.inHandler = false) (hm : s.ctx.mode ≠ .program)
include h

/-- What PMIG's own part answers: for an address beyond 52 bits, a page that is not present, a frame off its boundary, and a page that
may move. -/
theorem pmig_part {a : State} (ha : a = s.atIssue (allSources f.ctl (pinvMeta f))) :
    ∃ body, exec (.pmig f) s = s.issue (.pmig f) f.ctl (pinvMeta f) body ∧
      (2 ^ 52 ≤ (s.reg f.sa).toNat → body a = illegal a (.pmig f)) ∧
      ((s.reg f.sa).toNat < 2 ^ 52 → s.walk (s.reg f.sa).toNat 4 (s.dieAt s.runDie).fw.ptbase = none →
        body a = a.accessTrap (a.notPresent a.runDie (s.reg f.sa).toNat).cause.1 (s.reg f.sa)) ∧
      ∀ l, (s.reg f.sa).toNat < 2 ^ 52 → s.walk (s.reg f.sa).toNat 4 (s.dieAt s.runDie).fw.ptbase = some l →
        ((s.reg f.sb).toNat % l.size ≠ 0 → body a = .trap a 0x04 (s.reg f.sb)) ∧
        ∀ u, (s.reg f.sb).toNat % l.size = 0 → inOneUnit (s.reg f.sb).toNat l.size = true → (s.reg f.sb).toNat < 2 ^ 52 →
          a.migrate l (s.reg f.sb).toNat = .ok u → body a = .next u := by
  have hsa : s.onlyContext a := by rw [ha]; exact s.onlyContext_atIssue _
  have hrs : ∀ r, a.rs r = s.reg r := fun r => by rw [ha]; exact State.rs_atIssue s _ h.1 h.2.1 _
  have hdie : a.runDie = s.runDie := by rw [ha]; exact congrArg dieOf (s.runCore_atIssue _ h.1)
  have hwalk : a.walk (s.reg f.sa).toNat 4 (a.dieAt a.runDie).fw.ptbase = s.walk (s.reg f.sa).toNat 4 (s.dieAt s.runDie).fw.ptbase := by
    rw [State.walk_of (s := s) (by rw [hsa.1]) (by rw [hsa.1]), State.dieAt_of _ _ hsa, hdie]
  refine ⟨_, rfl, ?_⟩
  dsimp only
  rw [hrs, hrs, hwalk]
  refine ⟨fun hva => if_pos hva, fun hva hnone => ?_, fun l hva hsome => ⟨fun hdst => ?_, fun u hdst hunit hin hu => ?_⟩⟩
  · rw [if_neg (Nat.not_le.2 hva), hnone]
  · rw [if_neg (Nat.not_le.2 hva), hsome]
    exact if_pos (by simpa using hdst)
  · rw [if_neg (Nat.not_le.2 hva), hsome]
    dsimp only
    rw [if_neg (by simpa using hdst), if_neg (by simpa [hunit] using hin), hu]

include hh hm

theorem pmig_beyond (hva : 2 ^ 52 ≤ (s.reg f.sa).toNat) : ∃ t, exec (.pmig f) s = .next t ∧ s.trapTaken t none 0x01 (encode (.pmig f)) := by
  obtain ⟨body, hexec, hbeyond, -⟩ := pmig_part h rfl
  have hpart := hbeyond hva
  obtain ⟨t, ht, htrap⟩ := State.issue_traps (i := .pmig f) (m := pinvMeta f) (by simp) h (Mode.allows_supervisor hm) hh hpart
  exact ⟨t, hexec.trans ht, htrap⟩

theorem pmig_absent (hva : (s.reg f.sa).toNat < 2 ^ 52) (hwalk : s.walk (s.reg f.sa).toNat 4 (s.dieAt s.runDie).fw.ptbase = none)
    (hbad : s.bad = []) : ∃ t, exec (.pmig f) s = .next t ∧ s.trapTaken t none 0x06 (s.reg f.sa) := by
  obtain ⟨body, hexec, -, habsent, -⟩ := pmig_part h rfl
  have hpart := habsent hva hwalk
  have hbad' : (s.atIssue (allSources f.ctl (pinvMeta f))).bad = [] := by rw [(s.onlyContext_atIssue _).1]; exact hbad
  rw [State.notPresent_sound hbad', State.accessTrap, if_neg (by decide)] at hpart
  obtain ⟨t, ht, htrap⟩ := State.issue_traps (i := .pmig f) (m := pinvMeta f) (by simp) h (Mode.allows_supervisor hm) hh hpart
  exact ⟨t, hexec.trans ht, htrap⟩

variable {l : Leaf}

theorem pmig_misaligned (hva : (s.reg f.sa).toNat < 2 ^ 52) (hwalk : s.walk (s.reg f.sa).toNat 4 (s.dieAt s.runDie).fw.ptbase = some l)
    (hdst : (s.reg f.sb).toNat % l.size ≠ 0) : ∃ t, exec (.pmig f) s = .next t ∧ s.trapTaken t none 0x04 (s.reg f.sb) := by
  obtain ⟨body, hexec, -, -, hpresent⟩ := pmig_part h rfl
  have hpart := (hpresent l hva hwalk).1 hdst
  obtain ⟨t, ht, htrap⟩ := State.issue_traps (i := .pmig f) (m := pinvMeta f) (by simp) h (Mode.allows_supervisor hm) hh hpart
  exact ⟨t, hexec.trans ht, htrap⟩

/-- PMIG of a page that may move to its new frame. -/
theorem pmig_moves {u : State} (hva : (s.reg f.sa).toNat < 2 ^ 52)
    (hwalk : s.walk (s.reg f.sa).toNat 4 (s.dieAt s.runDie).fw.ptbase = some l) (hdst : (s.reg f.sb).toNat % l.size = 0)
    (hunit : inOneUnit (s.reg f.sb).toNat l.size = true) (hin : (s.reg f.sb).toNat < 2 ^ 52)
    (hu : (issued s f.ctl [f.sa, f.sb]).migrate l (s.reg f.sb).toNat = .ok u) :
    ∃ t, exec (.pmig f) s = .next t ∧ u.scalarDone t 0 0 0 ∧ (∀ d, ∀ e ∈ (t.dieAt d).tlb, e.leaf.pte ≠ l.pte) ∧
      (memoriesWf s = true → (∀ d, (s.dieAt d).l2 = [] ∧ (s.dieAt d).markers = []) → s.flue = [] →
        (l.pte + 16 ≤ (s.reg f.sb).toNat ∨ (s.reg f.sb).toNat + l.size ≤ l.pte) →
        ∀ k < l.size, readByte t.mem ((s.reg f.sb).toNat + k) = readByte s.mem (l.frame + k)) := by
  obtain ⟨a, ha⟩ : ∃ a, a = s.atIssue (allSources f.ctl (pinvMeta f)) := ⟨_, rfl⟩
  have hsa : s.onlyContext a := by rw [ha]; exact s.onlyContext_atIssue _
  obtain ⟨body, hexec, -, -, hpresent⟩ := pmig_part h ha
  have hissued : issued s f.ctl [f.sa, f.sb] = a := by
    rw [ha, issued, allSources]
    cases f.ctl.guard <;> rfl
  rw [hissued] at hu
  have hpart := (hpresent l hva hwalk).2 u hdst hunit hin hu
  obtain ⟨huc, ⟨tracks, hux⟩, htlb⟩ := State.migrate_frame hu
  have hregion : u.ctx.region = none := by
    have hnone : a.ctx.region = none := by rw [ha]; exact State.region_atIssue s _ h.1
    rw [State.ctx_eq_ctxAt, huc, hux, ← State.ctx_eq_ctxAt, Ctx.movedBy_none hnone]
    exact hnone
  obtain ⟨t, ht, hdone⟩ := State.issue_done (i := .pmig f) (m := pinvMeta f) (by simp) h (Mode.allows_supervisor hm) (.inr hh)
    ((congrArg body ha.symm).trans hpart) (by rw [State.inRegion, hregion]; rfl)
  obtain ⟨hut, hbytes, -⟩ := id hdone
  refine ⟨t, hexec.trans ht, hdone, fun d e he => htlb d e (by rwa [State.dieAt_of _ _ hut] at he), fun hwf hquiet hflue hpte k hk => ?_⟩
  have hwfm : memoryWf s.mem = true := by
    unfold memoriesWf at hwf
    simp only [Bool.and_eq_true] at hwf
    exact hwf.1.1.1
  have hmem : a.mem = s.mem := by rw [hsa.1]
  have hflue' : a.flue = [] := by rw [hsa.1]; exact hflue
  rw [(hbytes _).1, State.readByte_migrate hu (by rwa [hmem]) (fun d => by rw [State.dieAt_of _ _ hsa]; exact hquiet d) hflue' hpte hk, hmem]

end

/-- Settles O33: each of the four instructions by what its own part answers. -/
theorem invalidations : Obligations.Invalidations := by
  unfold Obligations.Invalidations
  refine ⟨fun f s h hh hm => plbinv_invalidates h hh hm, fun f s h hh hm => pinv_invalidates h hh hm,
    fun f s h hh hm => handoff_moves h hh hm, fun f s h hh hm => ⟨pmig_beyond h hh hm, pmig_absent h hh hm,
      fun l hva hwalk hdst => pmig_misaligned h hh hm hva hwalk hdst,
      fun l u hva hwalk hdst hunit hin hu => pmig_moves h hh hm hva hwalk hdst hunit hin hu⟩⟩

end Sys2Proof.Machine

/-! The host: its reads and writes through the aperture, held writes, snoops and the link; module reset, boot and attestation (06 R130;
14 R309 to R314, R320, R321, R460). -/
namespace Sys2Proof.Machine
open Sys2Proof Sys2Proof.Claims

/-! ### Bytes of numbers -/

theorem bytesOf_eq (v n : Nat) : bytesOf v n = bytesLE v n := by
  unfold bytesOf bytesLE
  refine List.map_congr_left fun i _ => ?_
  rw [Nat.shiftRight_eq_div_pow, Nat.pow_mul]

/-- The number whose little-endian bytes are a list's. -/
def numberOf (bytes : List Byte) : Nat := bytes.foldr (fun b m => b.toNat + 256 * m) 0

theorem numberOf_byte (bytes : List Byte) (k : Nat) : BitVec.ofNat 8 (numberOf bytes / 256 ^ k) = bytes.getD k 0 := by
  induction bytes generalizing k with
  | nil => simp [numberOf]
  | cons b bs ih =>
    have hb := b.isLt
    have hcons : numberOf (b :: bs) = b.toNat + 256 * numberOf bs := rfl
    cases k with
    | zero =>
      rw [hcons]
      apply BitVec.eq_of_toNat_eq
      simpa using hb
    | succ k =>
      have hdiv : numberOf (b :: bs) / 256 ^ (k + 1) = numberOf bs / 256 ^ k := by
        rw [hcons, Nat.pow_succ, Nat.mul_comm (256 ^ k), ← Nat.div_div_eq_div_mul]
        congr 1
        omega
      rw [hdiv, ih]
      simp

/-- Bytes written as a number read back. -/
theorem readByte_writeN_bytes {m : List Host.Cell} (h : memoryWf m = true) (a : Nat) (bytes : List Byte) {k : Nat} (hk : k < bytes.length) :
    readByte (writeN m a bytes.length (numberOf bytes)) (a + k) = bytes.getD k 0 := by
  rw [readByte_writeN _ _ _ _ h, if_pos (by omega), Nat.add_sub_cancel_left, numberOf_byte]

/-! ### Fills keep memory canonical -/

/-- From `s` to `t` a canonical memory stays canonical. -/
def State.keepsWf (s t : State) : Prop := memoryWf s.mem = true → memoryWf t.mem = true

theorem State.keepsWf_refl (s : State) : s.keepsWf s := id

theorem State.keepsWf_trans {s t u : State} (a : s.keepsWf t) (b : t.keepsWf u) : s.keepsWf u := fun h => b (a h)

theorem State.keepsWf_of_mem {s t : State} (h : t.mem = s.mem) : s.keepsWf t := fun hm => by rwa [h]

theorem State.keepsWf_ite {s t u : State} {p : Prop} [Decidable p] (ht : s.keepsWf t) (hu : s.keepsWf u) :
    s.keepsWf (if p then t else u) := by
  split
  · exact ht
  · exact hu

theorem State.keepsWf_foldl {α : Type} {f : State → α → State} (h : ∀ (s : State) x, s.keepsWf (f s x)) (l : List α) (s : State) :
    s.keepsWf (l.foldl f s) := by
  induction l generalizing s with
  | nil => exact s.keepsWf_refl
  | cons x xs ih => exact State.keepsWf_trans (h s x) (ih _)

theorem State.keepsWf_modDie (s : State) (d : DieId) (f : Die → Die) : s.keepsWf (s.modDie d f) := State.keepsWf_of_mem rfl

theorem State.keepsWf_physWrite (s : State) (pa n v : Nat) : s.keepsWf (s.physWrite pa n v) := memoryWf_writeN pa n v

theorem State.keepsWf_writeHot (s : State) (l : Leaf) : s.keepsWf (s.writeHot l) :=
  fun h => memoryWf_writeN _ _ _ (memoryWf_writeN _ _ _ h)

theorem State.keepsWf_tlbInsert (s : State) (d : DieId) (slice : Nat) (l : Leaf) : s.keepsWf (s.tlbInsert d slice l) := by
  have hforget : ∀ t : State, t.keepsWf t.forgetRewritten := fun t =>
    State.keepsWf_ite t.keepsWf_refl (State.keepsWf_of_mem rfl)
  have hgive : ∀ k : Leaf, s.keepsWf (s.giveUpLeaf d k) := fun k => State.keepsWf_ite (s.keepsWf_writeHot k) s.keepsWf_refl
  unfold State.tlbInsert
  dsimp only
  refine State.keepsWf_ite (State.keepsWf_of_mem rfl) ?_
  split
  · rename_i old _
    refine State.keepsWf_trans (State.keepsWf_trans (hgive old.leaf) ?_) (hforget _)
    exact State.keepsWf_modDie _ d _
  · exact s.keepsWf_refl

theorem State.keepsWf_translate {s t : State} {d : DieId} {va : Nat} {l : Leaf} (h : s.translate d va = some (l, t)) : s.keepsWf t := by
  unfold State.translate at h
  dsimp only at h
  split at h
  · cases h; exact s.keepsWf_refl
  · split at h
    · cases h
    · cases h
      exact State.keepsWf_trans (State.keepsWf_of_mem (s.mem_correctRuns _)) (State.keepsWf_tlbInsert _ _ _ _)

theorem State.keepsWf_crossing (s : State) (d : DieId) (l : Leaf) (va hot : Nat) : s.keepsWf (s.crossing d l va hot) := by
  unfold State.crossing
  refine State.keepsWf_ite ?_ (s.keepsWf_modDie d _)
  refine State.keepsWf_trans (State.keepsWf_trans ?_ (State.keepsWf_modDie _ d _)) (State.keepsWf_writeHot _ _)
  exact State.keepsWf_trans (State.keepsWf_trans (s.keepsWf_physWrite _ _ _) (State.keepsWf_physWrite _ _ _ _)) (State.keepsWf_modDie _ d _)

theorem State.keepsWf_countFill (s : State) (d : DieId) (va : Nat) : s.keepsWf (s.countFill d va) := by
  unfold State.countFill
  split
  · exact s.keepsWf_refl
  · rename_i l t h
    have hhot : s.keepsWf (t.setHot d l (min (l.hot + 1) 255) l.queued) :=
      State.keepsWf_trans (State.keepsWf_translate h) (t.keepsWf_modDie d _)
    exact State.keepsWf_ite (State.keepsWf_trans hhot (State.keepsWf_crossing _ _ _ _ _)) hhot

theorem State.keepsWf_homeFill {s t : State} {h : DieId} {va pa size codec n : Nat} {owner : Bool}
    (hf : s.homeFill h va pa size codec owner = some (n, t)) : s.keepsWf t := by
  have hruns : ∀ runs, s.keepsWf (s.correctRuns runs) := fun runs => State.keepsWf_of_mem (s.mem_correctRuns runs)
  unfold State.homeFill at hf
  dsimp only at hf
  split at hf
  · cases hf
  · split at hf
    · cases hf
    · split at hf
      · cases hf
        exact hruns _
      · cases hf
        exact State.keepsWf_trans (State.keepsWf_trans (hruns _) (State.keepsWf_countFill _ _ _)) (State.keepsWf_modDie _ _ _)

/-! ### A host write at the homes (14 R313) -/

/-- The home of one grain of a host write has it in its L2, or reports that it cannot. -/
def State.hostFill (l : Leaf) (g : Nat) (s : State) (i : Nat) : State :=
  match s.homeOf (l.pa (g + i * l.grain)) with
  | some h =>
    match s.homeFill h (g + i * l.grain) (l.pa (g + i * l.grain)) l.grain 0 l.owner with
    | some (_, w) => w
    | none => s.report (.uncorrectable h.val (l.pa (g + i * l.grain)))
  | none => s

theorem State.hostStore_eq (s : State) (l : Leaf) (va : Nat) (bytes : List Byte) :
    s.hostStore l va bytes = ((List.range ((va + bytes.length - va / l.grain * l.grain + l.grain - 1) / l.grain)).foldl
      (State.hostFill l (va / l.grain * l.grain)) s).physWrite (l.pa va) bytes.length (numberOf bytes) := rfl

theorem State.hostFill_frame (l : Leaf) (g : Nat) (s : State) (i : Nat) : s.onlyHomes (s.hostFill l g i) ∧ s.keepsWf (s.hostFill l g i) := by
  unfold State.hostFill
  split
  · split
    · rename_i hf
      exact ⟨State.onlyHomes_homeFill hf, State.keepsWf_homeFill hf⟩
    · exact ⟨s.onlyHomes_report _, State.keepsWf_of_mem rfl⟩
  · exact ⟨s.onlyHomes_refl, s.keepsWf_refl⟩

/-- A host write changes no core and no register, and its bytes are in memory. -/
theorem State.hostStore_frame (s : State) (l : Leaf) (va : Nat) (bytes : List Byte) :
    s.onlyHomes (s.hostStore l va bytes) ∧
      (memoryWf s.mem = true → ∀ k < bytes.length, readByte (s.hostStore l va bytes).mem (l.pa va + k) = bytes.getD k 0) := by
  rw [State.hostStore_eq]
  refine ⟨State.onlyHomes_trans (State.onlyHomes_foldl (fun t i => (State.hostFill_frame l _ t i).1) _ s) (State.onlyHomes_physWrite _ _ _ _),
    fun h k hk => ?_⟩
  exact readByte_writeN_bytes (State.keepsWf_foldl (fun t i => (State.hostFill_frame l _ t i).2) _ s h) _ _ hk

/-! ### HOST_APERTURE_READ (14 R311, R313; 06 R130) -/

theorem State.hostFault_failed (s : State) (off : Nat) : hostAccessFailed s (s.hostFault off) off :=
  ⟨rfl, rfl, rfl, rfl, fun _ => ⟨rfl, rfl, rfl⟩⟩

theorem hostAccessFailed_answered {s t : State} {off : Nat} (h : hostAccessFailed s t off) (r : List (Option (List Byte))) :
    hostAccessFailed s { t with hostReads := r } off := h

/-- A grain that leaves its L2 changes the dies alone. -/
theorem State.dropBad_eq (s : State) (d : DieId) (pa : Nat) : ∃ dies, s.dropBad d pa = { s with dies := dies } := by
  have hdrop : ∀ (t : State) (p : Prop) [Decidable p] (f : Die → Die), (∃ dies, t = { s with dies := dies }) →
      ∃ dies, (if p then t else t.modDie d f) = { s with dies := dies } := fun t p _ f ht => by
    obtain ⟨dies, hdies⟩ := ht
    split
    · exact ⟨dies, hdies⟩
    · exact ⟨_, by rw [hdies]; rfl⟩
  unfold State.dropBad
  refine hdrop _ _ _ ?_
  split
  · exact ⟨_, rfl⟩
  · exact ⟨s.dies, rfl⟩

/-- The home's report of an uncorrectable grain: the reports and the dies change. -/
theorem State.noteHome_eq (s : State) (va : Nat) : ∃ dies notes, s.noteHome va = { s with dies := dies, notes := notes } := by
  unfold State.noteHome
  split
  · split
    · rename_i pa _ _ h _
      obtain ⟨dies, hdies⟩ := (s.report (.uncorrectable h.val pa)).dropBad_eq h pa
      exact ⟨dies, _, hdies⟩
    · exact ⟨s.dies, s.notes, rfl⟩
  · exact ⟨s.dies, s.notes, rfl⟩

/-- What is reported of a grain that the tables let the host read. -/
theorem State.notes_noteHome {s w : State} {va : Nat} {l : Leaf} {h : DieId} (hc : s.tableCheck 0 s.bregs.apdom va rightR = true)
    (ht : s.homeTranslate va = some (l, w)) (hh : s.homeOf (l.pa va) = some h) :
    (s.noteHome va).notes = s.notes ++ [.uncorrectable h.val (l.pa va)] := by
  have hplace : s.hostBadPlace va = some (l.pa va) := by
    unfold State.hostBadPlace
    rw [hc, ht]
    rfl
  obtain ⟨dies, hdies⟩ := (s.report (.uncorrectable h.val (l.pa va))).dropBad_eq h (l.pa va)
  unfold State.noteHome
  rw [hplace]
  dsimp only
  rw [hh]
  dsimp only
  rw [hdies]
  rfl

/-- The state with the answer to a host read. -/
def State.answerRead (s : State) (r : Option (List Byte)) : State := { s with hostReads := s.hostReads ++ [r] }

/-- A read that fails at an uncorrectable grain, and one that fails otherwise. -/
theorem hostApertureRead_error {off len : Nat} {s : State} {e : Stop} (hen : s.bregs.apen = true)
    (he : s.homeSpan s.bregs.apdom (s.bregs.apbase + off) len = .error e) :
    exec (.hostApertureRead off len) s = .next (if e.cause.1 = 0x08 then (s.noteHome e.cause.2.toNat).answerRead none
      else (s.hostFault off).answerRead none) := by
  change execHostApertureRead off len s = _
  unfold execHostApertureRead
  dsimp only
  rw [hen, he]
  split
  · rename_i h
    cases h
  · split
    · rename_i h
      cases h
    · rename_i a h
      cases h
      exact rfl
    · rename_i hne h
      cases h
      rw [if_neg]
      · rfl
      · intro hc
        cases e with
        | trap c v => exact hne v (congrArg (fun c => Stop.trap c v) hc)
        | remote a va => exact absurd hc (by change ¬ ((0x05 : BitVec 8) = 0x08); decide)

/-- HOST_APERTURE_READ: refused, failed, or answered. -/
theorem hostApertureRead_answers (off len : Nat) (s : State) : ∃ t, exec (.hostApertureRead off len) s = .next t ∧
    if s.bregs.apen = false then hostAccessFailed s t off ∧ t.hostReads = s.hostReads ++ [none]
    else match s.homeSpan s.bregs.apdom (s.bregs.apbase + off) len with
      | .ok (v, u) => t = { u with hostReads := u.hostReads ++ [some (bytesLE v len)] }
      | .error e =>
        t.hostReads = s.hostReads ++ [none] ∧ s.sameBytes t ∧ t.cores = s.cores ∧
          if e.cause.1 = 0x08 then t.bregs = s.bregs ∧ ∀ l w h,
            s.tableCheck 0 s.bregs.apdom e.cause.2.toNat rightR = true → s.homeTranslate e.cause.2.toNat = some (l, w) →
            s.homeOf (l.pa e.cause.2.toNat) = some h → t.notes = s.notes ++ [.uncorrectable h.val (l.pa e.cause.2.toNat)]
          else hostAccessFailed s t off := by
  have hfail := s.hostFault_failed off
  have hanswered : hostAccessFailed s ((s.hostFault off).answerRead none) off := hostAccessFailed_answered hfail _
  cases hen : s.bregs.apen with
  | false =>
    refine ⟨(s.hostFault off).answerRead none, ?_, ?_⟩
    · change execHostApertureRead off len s = _
      unfold execHostApertureRead
      rw [hen]
      rfl
    · rw [if_pos rfl]
      exact ⟨hanswered, rfl⟩
  | true =>
    simp only [Bool.true_eq_false, if_false]
    cases hspan : s.homeSpan s.bregs.apdom (s.bregs.apbase + off) len with
    | ok p =>
      obtain ⟨v, u⟩ := p
      refine ⟨u.answerRead (some (bytesOf v len)), ?_, ?_⟩
      · change execHostApertureRead off len s = _
        unfold execHostApertureRead
        rw [hen, hspan]
        rfl
      · rw [bytesOf_eq]
        rfl
    | error e =>
      refine ⟨_, hostApertureRead_error hen hspan, ?_⟩
      dsimp only
      by_cases hbad : e.cause.1 = 0x08
      · rw [if_pos hbad, if_pos hbad]
        obtain ⟨dies, notes, hnote⟩ := s.noteHome_eq e.cause.2.toNat
        refine ⟨?_, ?_, ?_, ?_, fun l w h hc ht hh => State.notes_noteHome (w := w) hc ht hh⟩
        · rw [hnote]; rfl
        · rw [hnote]; exact fun _ => ⟨rfl, rfl, rfl⟩
        · rw [hnote]; rfl
        · rw [hnote]; rfl
      · rw [if_neg hbad, if_neg hbad]
        exact ⟨rfl, hanswered.2.2.2.2, rfl, hanswered⟩

/-! ### What the link delivers (14 R313) -/

theorem State.posted_eta {s : State} (h : s.posted = []) : { s with posted := [] } = s :=
  congrArg (fun q => { s with posted := q }) h.symm

theorem State.drainLink_nil {s : State} (h : s.posted = []) : s.drainLink = s := State.takePosted_nil _ h

theorem postedFuel_one (p : Posted) : ∃ k, postedFuel [p] = k + 1 := by
  cases p with
  | aperture off bytes => exact ⟨bytes.length / 65536 + 2, by simp [postedFuel]; omega⟩
  | register off v => exact ⟨1, rfl⟩
  | staging off bytes => exact ⟨1, rfl⟩

section
variable {s : State} (h : s.posted = [])
include h

/-- The link brings one posted write to an empty link. -/
theorem State.hostPost_one (p : Posted) : ∃ k, s.hostPost p = State.takePosted (k + 1) { s with posted := [p] } := by
  obtain ⟨k, hk⟩ := postedFuel_one p
  refine ⟨k, ?_⟩
  unfold State.hostPost State.drainLink
  rw [h, List.nil_append, hk]

section
variable {off : Nat} {bytes : List Byte} (hlen : bytes.length ≤ 65536 - (s.bregs.apbase + off) % 65536)
include hlen

/-- An aperture write within one page is taken, or stays on the link. -/
theorem State.hostPost_aperture {r : Option State} (hw : s.hostWrite off bytes = r) (hr : ∀ t, r = some t → t.posted = []) :
    s.hostPost (.aperture off bytes) = r.getD { s with posted := [.aperture off bytes] } := by
  obtain ⟨k, hk⟩ := State.hostPost_one h (.aperture off bytes)
  rw [hk]
  unfold State.takePosted
  dsimp only
  rw [if_pos hlen, List.take_of_length_le hlen, State.posted_eta h, hw]
  cases r with
  | none => rfl
  | some t => exact State.takePosted_nil k (hr t rfl)

end

/-- A write to the staging SRAM waits behind held writes. -/
theorem State.hostPost_stagingWaits (hheld : s.heldWrites ≠ []) (off : Nat) (bytes : List Byte) :
    s.hostPost (.staging off bytes) = { s with posted := [.staging off bytes] } := by
  obtain ⟨k, hk⟩ := State.hostPost_one h (.staging off bytes)
  rw [hk]
  unfold State.takePosted
  exact if_neg (by simpa using hheld)

variable (hheld : s.heldWrites = [])
include hheld

/-- A register write is performed. -/
theorem State.hostPost_performs {off : Nat} {v : Word} {t : State} (hw : s.bar0Write off v.toNat = t) (ht : t.posted = []) :
    s.hostPost (.register off v) = t := by
  rw [State.hostPost_register off v h, if_pos hheld, hw, State.takePosted_nil 1 ht]

/-- A write to the staging SRAM is performed. -/
theorem State.hostPost_staging (off : Nat) (bytes : List Byte) :
    s.hostPost (.staging off bytes) = { s with boot := { s.boot with staging := stage s.boot.staging off bytes } } := by
  obtain ⟨k, hk⟩ := State.hostPost_one h (.staging off bytes)
  rw [hk]
  unfold State.takePosted
  dsimp only
  rw [if_pos (by rw [hheld]; rfl), State.takePosted_nil k rfl]
  exact congrArg (fun q => { s with posted := q, boot := { s.boot with staging := stage s.boot.staging off bytes } }) h.symm

end

/-! ### HOST_APERTURE_WRITE (14 R311, R313, R314) -/

theorem State.hostWrite_refused {s : State} {off : Nat} (h : s.hostLeaf (s.bregs.apbase + off) = none) (bytes : List Byte) :
    s.hostWrite off bytes = some (s.hostFault off) := by
  unfold State.hostWrite
  dsimp only
  rw [h]

theorem State.hostWrite_leaf {s : State} {off : Nat} {l : Leaf} (h : s.hostLeaf (s.bregs.apbase + off) = some l) (bytes : List Byte) :
    s.hostWrite off bytes =
      if l.owner = true ∧ s.heldWrites = [] then some (s.hostStore l (s.bregs.apbase + off) bytes)
      else if s.heldWrites.length < 64 then some (s.holdWrite off bytes l.owner)
      else none := by
  unfold State.hostWrite
  dsimp only
  rw [h]
  simp

/-- A held write with the report of it. -/
theorem State.holdWrite_eq (s : State) (off : Nat) (bytes : List Byte) (owner : Bool) :
    s.holdWrite off bytes owner = { s with
      heldWrites := s.heldWrites ++ [⟨off, bytes, !owner, false⟩]
      notes := s.notes ++ if owner = true then [] else [.heldHostWrite off] } := by
  unfold State.holdWrite
  cases owner with
  | false => rfl
  | true =>
    have hnotes : s.notes ++ (if true = true then [] else [.heldHostWrite off]) = s.notes := by simp
    rw [hnotes]
    rfl

theorem hostApertureWrite_performs {off : Nat} {bytes : List Byte} {s : State}
    (hlen : bytes.length ≤ 65536 - (s.bregs.apbase + off) % 65536) (hposted : s.posted = []) :
    let va := s.bregs.apbase + off
    ∃ t, exec (.hostApertureWrite off bytes) s = .next t ∧
      match s.hostLeaf va with
      | none => hostAccessFailed s t off
      | some l =>
        if l.owner = true ∧ s.heldWrites = [] then t.heldWrites = [] ∧ t.cores = s.cores ∧
          (memoryWf s.mem = true → ∀ k < bytes.length, readByte t.mem (l.pa va + k) = bytes.getD k 0)
        else if s.heldWrites.length < 64 then
          t = { s with
            heldWrites := s.heldWrites ++ [⟨off, bytes, !l.owner, false⟩]
            notes := s.notes ++ if l.owner = true then [] else [.heldHostWrite off] }
        else t = { s with posted := [.aperture off bytes] } := by
  intro va
  cases hleaf : s.hostLeaf va with
  | none =>
    have hpost := State.hostPost_aperture hposted hlen (State.hostWrite_refused hleaf bytes) fun t ht => by cases ht; exact hposted
    exact ⟨_, congrArg Host.Outcome.next hpost, s.hostFault_failed off⟩
  | some l =>
    have hwrite := State.hostWrite_leaf hleaf bytes
    dsimp only
    by_cases hnow : l.owner = true ∧ s.heldWrites = []
    · rw [if_pos hnow] at hwrite
      obtain ⟨honly, hbytes⟩ := s.hostStore_frame l va bytes
      have hpost := State.hostPost_aperture hposted hlen hwrite fun t ht => by cases ht; rw [honly.1]; exact hposted
      refine ⟨_, congrArg Host.Outcome.next hpost, ?_⟩
      rw [if_pos hnow]
      refine ⟨?_, State.onlyHomes_cores honly, hbytes⟩
      change (s.hostStore l va bytes).heldWrites = []
      rw [honly.1]
      exact hnow.2
    · rw [if_neg hnow] at hwrite
      by_cases hroom : s.heldWrites.length < 64
      · rw [if_pos hroom] at hwrite
        have hpost := State.hostPost_aperture hposted hlen hwrite fun t ht => by cases ht; rw [s.holdWrite_eq]; exact hposted
        refine ⟨_, congrArg Host.Outcome.next hpost, ?_⟩
        rw [if_neg hnow, if_pos hroom]
        exact s.holdWrite_eq off bytes l.owner
      · rw [if_neg hroom] at hwrite
        have hpost := State.hostPost_aperture hposted hlen hwrite fun t ht => by cases ht
        refine ⟨_, congrArg Host.Outcome.next hpost, ?_⟩
        rw [if_neg hnow, if_neg hroom]
        rfl

/-! ### HELD_HOST_WRITE_RELEASE (14 R313, R314) -/

theorem State.freeHeld_nil {s : State} (h : s.heldWrites = []) (n : Nat) : State.freeHeld n s = s := by
  cases n with
  | zero => rfl
  | succ n =>
    unfold State.freeHeld
    rw [h]

theorem State.releaseWrites_nil {s : State} (hposted : s.posted = []) (h : s.heldWrites = []) : s.releaseWrites = s := by
  unfold State.releaseWrites
  rw [State.freeHeld_nil h, State.drainLink_nil hposted]

section
variable {n : Nat} {s : State} {h : HeldWrite} {rest : List HeldWrite} (hposted : s.posted = []) (hheld : s.heldWrites = h :: rest)

theorem heldRelease_none (hn : s.heldWrites.length ≤ n) (granted : Bool) : exec (.heldHostWriteRelease n granted) s = .next s := by
  change execHeldHostWriteRelease n granted s = _
  unfold execHeldHostWriteRelease
  rw [List.getElem?_eq_none hn]

theorem heldRelease_granted (hn : n < s.heldWrites.length) : exec (.heldHostWriteRelease n true) s = .next s.releaseWrites := by
  change execHeldHostWriteRelease n true s = _
  unfold execHeldHostWriteRelease
  rw [List.getElem?_eq_getElem hn]
  rfl

include hposted hheld

/-- The only held write, declined. -/
theorem heldRelease_denied (hrest : rest = []) : exec (.heldHostWriteRelease 0 false) s = .next { s with
    heldWrites := [], bregs := { s.bregs with hdeny := min (s.bregs.hdeny + 1) (2 ^ 32 - 1) } } := by
  change execHeldHostWriteRelease 0 false s = _
  unfold execHeldHostWriteRelease
  rw [hheld, hrest]
  exact congrArg Host.Outcome.next (State.releaseWrites_nil hposted rfl)

/-- One step of performing held writes, and what follows it. -/
theorem State.releaseWrites_refused (hleaf : s.hostLeaf (s.bregs.apbase + h.off) = none) (hrest : rest = []) :
    s.releaseWrites = ({ s with heldWrites := [] } : State).hostFault h.off := by
  unfold State.releaseWrites State.freeHeld
  rw [hheld, hrest]
  dsimp only
  rw [hleaf]
  dsimp only
  rw [State.freeHeld_nil rfl]
  exact State.drainLink_nil hposted

variable {l : Leaf} (hleaf : s.hostLeaf (s.bregs.apbase + h.off) = some l)
include hleaf

theorem State.releaseWrites_performs (hown : l.owner = true) (hready : h.ready = true ∨ h.noted = false) (hrest : rest = []) :
    s.releaseWrites = ({ s with heldWrites := [] } : State).hostStore l (s.bregs.apbase + h.off) h.bytes := by
  have honly := (({ s with heldWrites := [] } : State).hostStore_frame l (s.bregs.apbase + h.off) h.bytes).1
  unfold State.releaseWrites State.freeHeld
  rw [hheld, hrest]
  dsimp only
  rw [hleaf]
  dsimp only
  rw [if_pos (by rw [hown]; rcases hready with hr | hr <;> simp [hr]), State.freeHeld_nil (by rw [honly.1])]
  exact State.drainLink_nil (by rw [honly.1]; exact hposted)

theorem State.releaseWrites_notes (hown : l.owner = false) (hnoted : h.noted = false) :
    s.releaseWrites = { s with heldWrites := { h with noted := true } :: rest, notes := s.notes ++ [.heldHostWrite h.off] } := by
  unfold State.releaseWrites State.freeHeld
  rw [hheld]
  dsimp only
  rw [hleaf]
  dsimp only
  rw [if_neg (by simp [hown]), if_neg (by simp [hown, hnoted])]
  exact State.drainLink_nil hposted

theorem State.releaseWrites_waits (hnoted : h.noted = true) (hnot : l.owner = false ∨ h.ready = false) : s.releaseWrites = s := by
  unfold State.releaseWrites State.freeHeld
  rw [hheld]
  dsimp only
  rw [hleaf]
  dsimp only
  rw [if_neg (by rcases hnot with hx | hx <;> simp [hx, hnoted]), if_pos (by simp [hnoted])]
  exact State.drainLink_nil hposted

end

/-- HELD_HOST_WRITE_RELEASE: of no write, of one that is declined, and with ownership granted. -/
theorem heldHostWriteRelease_releases (n : Nat) (s : State) (h : HeldWrite) (rest : List HeldWrite) (hposted : s.posted = [])
    (hheld : s.heldWrites = h :: rest) :
    let va := s.bregs.apbase + h.off
    (s.heldWrites.length ≤ n → ∀ granted, exec (.heldHostWriteRelease n granted) s = .next s) ∧
    (rest = [] → exec (.heldHostWriteRelease 0 false) s = .next { s with
      heldWrites := [], bregs := { s.bregs with hdeny := min (s.bregs.hdeny + 1) (2 ^ 32 - 1) } }) ∧
    (n < s.heldWrites.length → ∃ t, exec (.heldHostWriteRelease n true) s = .next t ∧
      match s.hostLeaf va with
      | none => rest = [] → hostAccessFailed s t h.off ∧ t.heldWrites = []
      | some l =>
        (l.owner = true → h.ready = true ∨ h.noted = false → rest = [] → t.heldWrites = [] ∧ t.cores = s.cores ∧
          (memoryWf s.mem = true → ∀ k < h.bytes.length, readByte t.mem (l.pa va + k) = h.bytes.getD k 0)) ∧
        (l.owner = false → h.noted = false →
          t = { s with heldWrites := { h with noted := true } :: rest, notes := s.notes ++ [.heldHostWrite h.off] }) ∧
        (h.noted = true → l.owner = false ∨ h.ready = false → t = s)) := by
  intro va
  refine ⟨heldRelease_none, heldRelease_denied hposted hheld, fun hn => ⟨_, heldRelease_granted hn, ?_⟩⟩
  cases hleaf : s.hostLeaf va with
  | none =>
    intro hrest
    rw [State.releaseWrites_refused hposted hheld hleaf hrest]
    exact ⟨⟨rfl, rfl, rfl, rfl, fun _ => ⟨rfl, rfl, rfl⟩⟩, rfl⟩
  | some l =>
    refine ⟨fun hown hready hrest => ?_, State.releaseWrites_notes hposted hheld hleaf, State.releaseWrites_waits hposted hheld hleaf⟩
    rw [State.releaseWrites_performs hposted hheld hleaf hown hready hrest]
    obtain ⟨honly, hbytes⟩ := ({ s with heldWrites := [] } : State).hostStore_frame l va h.bytes
    have hcores := State.onlyHomes_cores honly
    refine ⟨?_, hcores, hbytes⟩
    rw [honly.1]

/-! ### Flushing host lines (14 R309, R312) -/

/-- One die writes back its copies of host memory that satisfy a test. -/
def State.flushAt (p : L2Line → Bool) (s : State) (d : DieId) : State :=
  ((s.dieAt d).hostLines.filter p).foldl (fun u ln => u.writeBack d ln) s

theorem State.flushHost_eq (s : State) (p : L2Line → Bool) : s.flushHost p = allDies.foldl (State.flushAt p) s := by
  rw [allDies, List.foldl_map]
  rfl

theorem State.onlyWriteBacks_flushHost (s : State) (p : L2Line → Bool) : s.onlyWriteBacks (s.flushHost p) := by
  rw [State.flushHost_eq]
  exact State.onlyWriteBacks_foldl (fun t d => State.onlyWriteBacks_foldl (fun u ln => u.onlyWriteBacks_writeBack d ln) _ t) _ s

/-- What putting a line leaves of a die's lines: those of other grains. -/
theorem Die.of_mem_putLine {x : Die} {ln o : L2Line} (h : o ∈ (x.putLine ln).l2) : o = ln ∨ o ∈ x.l2 ∧ o.va ≠ ln.va := by
  unfold Die.putLine at h
  split at h
  · obtain ⟨q, hq, e⟩ := List.mem_map.1 h
    by_cases hva : q.va = ln.va
    · rw [if_pos (by simp [hva])] at e
      exact .inl e.symm
    · rw [if_neg (by simp [hva])] at e
      subst e
      exact .inr ⟨hq, hva⟩
  · rename_i hnone
    rcases List.mem_append.1 h with ho | ho
    · refine .inr ⟨ho, fun hva => hnone (List.any_eq_true.2 ⟨o, ho, by simp [hva]⟩)⟩
    · exact .inl (List.mem_singleton.1 ho)

/-- A line of a die that is still dirty after a write-back was there before, and is another one. -/
theorem State.of_mem_writeBack {s : State} {d : DieId} {ln o : L2Line} (h : o ∈ ((s.writeBack d ln).dieAt d).l2) (ho : o.dirty ≠ 0) :
    o ∈ (s.dieAt d).l2 ∧ o ≠ ln := by
  by_cases hclean : ln.dirty = 0
  · rw [s.writeBack_clean d hclean] at h
    exact ⟨h, fun e => ho (by rw [e, hclean])⟩
  · unfold State.writeBack at h
    rw [if_neg (by simpa using hclean)] at h
    dsimp only at h
    rw [State.dieAt_modDie_self] at h
    rcases Die.of_mem_putLine h with rfl | ⟨hmem, hva⟩
    · exact absurd rfl ho
    · change o ∈ (((s.drainFlue d).chargeLine d ln).dieAt d).l2 at hmem
      rw [State.l2_chargeLine, State.dieAt, State.dies_drainFlue] at hmem
      exact ⟨hmem, fun e => hva (by rw [e])⟩

/-- Once every dirty line of a kind has been written back, none is dirty. -/
theorem State.foldl_writeBack_clean {d : DieId} {q : L2Line → Prop} {lines : List L2Line} {s : State}
    (h : ∀ o ∈ (s.dieAt d).l2, q o → o.dirty ≠ 0 → o ∈ lines) :
    ∀ o ∈ ((lines.foldl (fun u ln => u.writeBack d ln) s).dieAt d).l2, q o → o.dirty = 0 := by
  induction lines generalizing s with
  | nil => exact fun o ho hq => by_contra fun hd => List.not_mem_nil (h o ho hq hd)
  | cons ln rest ih =>
    refine ih fun o ho hq hd => ?_
    obtain ⟨hmem, hne⟩ := State.of_mem_writeBack ho hd
    exact (List.mem_cons.1 (h o hmem hq hd)).resolve_left hne

/-- No flushed host line is dirty. -/
theorem State.flushHost_clean (s : State) (p : L2Line → Bool) (d : DieId) :
    ∀ ln ∈ ((s.flushHost p).dieAt d).l2, Config.hostPhys ≤ ln.pa ∧ p ln = true → ln.dirty = 0 := by
  rw [State.flushHost_eq]
  refine foldl_dies (P := fun d t => ∀ ln ∈ (t.dieAt d).l2, Config.hostPhys ≤ ln.pa ∧ p ln = true → ln.dirty = 0)
    (fun t d => State.foldl_writeBack_clean fun o ho hq _ => ?_) (fun t d e hde h ln hln => ?_) (mem_allDies d) s
  · exact List.mem_filter.2 ⟨List.mem_filter.2 ⟨ho, decide_eq_true hq.1⟩, hq.2⟩
  · rw [State.l2_foldl_writeBack_other hde] at hln
    exact h ln hln

theorem State.foldl_flushAt_none {p : L2Line → Bool} {l : List DieId} {s : State} (h : ∀ e ∈ l, (s.dieAt e).hostLines.filter p = []) :
    l.foldl (State.flushAt p) s = s := by
  induction l with
  | nil => rfl
  | cons e es ih =>
    have hone : State.flushAt p s e = s := by
      rw [State.flushAt, h e (by simp)]
      rfl
    rw [List.foldl_cons, hone]
    exact ih fun x hx => h x (List.mem_cons_of_mem _ hx)

/-- The only line that satisfies the test is the only one written back. -/
theorem State.foldl_flushAt_one {p : L2Line → Bool} {l : List DieId} {s : State} {d : DieId} {ln : L2Line} (hd : d ∈ l) (hl : l.Nodup)
    (h : ∀ e, (s.dieAt e).hostLines.filter p = if e = d then [ln] else []) : l.foldl (State.flushAt p) s = s.writeBack d ln := by
  induction l with
  | nil => cases hd
  | cons e es ih =>
    obtain ⟨hnot, hes⟩ := List.nodup_cons.1 hl
    rw [List.foldl_cons]
    by_cases hed : e = d
    · have hone : State.flushAt p s e = s.writeBack d ln := by
        rw [State.flushAt, h e, if_pos hed, hed]
        rfl
      rw [hone]
      refine State.foldl_flushAt_none fun x hx => ?_
      have hxd : x ≠ d := fun hxd => hnot (by rw [hed, ← hxd]; exact hx)
      rw [Die.hostLines, s.l2_writeBack_other hxd, ← Die.hostLines, h x, if_neg hxd]
    · have hone : State.flushAt p s e = s := by
        rw [State.flushAt, h e, if_neg hed]
        rfl
      rw [hone]
      exact ih ((List.mem_cons.1 hd).resolve_left (Ne.symm hed)) hes

theorem nodup_allDies : allDies.Nodup := by decide

/-- HOST_SNOOP (14 R312; 06 R130). -/
theorem hostSnoop_flushes (a : Nat) (s : State) : ∃ t, exec (.hostSnoop a) s = .next t ∧ t.cores = s.cores ∧ t.lmem = s.lmem ∧
    (∀ d, ∀ ln ∈ (t.dieAt d).l2, holdsHost ln (Config.hostPhys + a) = true → ln.dirty = 0) ∧
    ∀ d ln, lineSound s d ln → ln.dirty ≠ 0 →
      (∀ e, (s.dieAt e).l2.filter (fun o => holdsHost o (Config.hostPhys + a)) = if e = d then [ln] else []) →
      merged (s.drainFlue d).mem t.mem ln := by
  obtain ⟨p, hp⟩ : ∃ p, p = fun ln : L2Line => decide (ln.pa ≤ Config.hostPhys + a) && decide (Config.hostPhys + a < ln.pa + ln.size) :=
    ⟨_, rfl⟩
  have hback := s.onlyWriteBacks_flushHost p
  have htest : ∀ ln : L2Line, holdsHost ln (Config.hostPhys + a) = (decide (Config.hostPhys ≤ ln.pa) && p ln) := fun ln => by
    rw [hp, holdsHost, Bool.and_assoc]
  refine ⟨s.flushHost p, by rw [hp]; rfl, State.onlyWriteBacks_cores hback, State.onlyWriteBacks_lmem hback, fun d ln hln hholds => ?_,
    fun d ln hsound hdirty hone => ?_⟩
  · rw [htest, Bool.and_eq_true, decide_eq_true_eq] at hholds
    exact s.flushHost_clean p d ln hln hholds
  · have hlines : ∀ e, (s.dieAt e).hostLines.filter p = if e = d then [ln] else [] := fun e => by
      rw [← hone e, Die.hostLines, List.filter_filter]
      exact List.filter_congr fun o _ => by rw [htest, Bool.and_comm]
    rw [State.flushHost_eq, State.foldl_flushAt_one (mem_allDies d) nodup_allDies hlines]
    obtain ⟨-, -, hmask, hwf⟩ := hsound
    exact State.merged_writeBack hwf hmask hdirty

/-! ### LINK_NEGOTIATION (14 R309, R312) -/

theorem State.inHost_of {s t : State} (hm : t.mem = s.mem) (hb : t.bad = s.bad) (hf : (t.dieAt 0).fw = (s.dieAt 0).fw) (va : Nat) :
    t.inHost va = s.inHost va := by
  unfold State.inHost
  rw [State.walk_of hm hb, hf]

/-- The state with the link up. -/
def State.linked (s : State) (cxl : Bool) : State := { s.flushHost (fun _ => true) with linkUp := true, cxl := cxl }

theorem State.linked_frame (s : State) (cxl : Bool) : (s.linked cxl).dies = (s.flushHost (fun _ => true)).dies ∧
    (s.linked cxl).cores = s.cores ∧ (s.linked cxl).linkUp = true ∧ (s.linked cxl).cxl = cxl := by
  have hcores := State.onlyWriteBacks_cores (s.onlyWriteBacks_flushHost (fun _ => true))
  unfold State.linked
  generalize s.flushHost (fun _ => true) = w at hcores ⊢
  exact ⟨rfl, hcores, rfl, rfl⟩

/-- The lines of a die and of a core that hold no host memory. -/
def Die.dropHost (d : Die) : Die := { d with l2 := d.l2.filter (fun ln => ln.pa < Config.hostPhys) }
def Core.dropHost (inHost : Nat → Bool) (k : Core) : Core :=
  { k with l1 := k.l1.filter (fun ln => !inHost ln.va), icache := k.icache.filter (fun ln => !inHost ln.va) }

/-- As a plain endpoint, no host line stays in a cache. -/
def State.dropHost (s : State) : State := { s with dies := vmap s.dies Die.dropHost, cores := vmap s.cores (Core.dropHost s.inHost) }

theorem State.dieAt_dropHost (s : State) (d : DieId) : s.dropHost.dieAt d = (s.dieAt d).dropHost := getElem_vmap_fin s.dies Die.dropHost d

theorem State.coreAt_dropHost (s : State) (c : CoreId) : s.dropHost.coreAt c = (s.coreAt c).dropHost s.inHost :=
  getElem_vmap_fin s.cores (Core.dropHost s.inHost) c

theorem Die.not_mem_dropHost (d : Die) : ∀ ln ∈ d.dropHost.l2, ¬ Config.hostPhys ≤ ln.pa := fun _ hln =>
  Nat.not_le.2 (of_decide_eq_true (List.mem_filter.1 hln).2)

theorem Core.mem_dropHost (k : Core) (inHost : Nat → Bool) :
    (k.dropHost inHost).ctxs = k.ctxs ∧ (∀ ln, ln ∈ (k.dropHost inHost).l1 ↔ ln ∈ k.l1 ∧ inHost ln.va = false) ∧
      ∀ ln, ln ∈ (k.dropHost inHost).icache ↔ ln ∈ k.icache ∧ inHost ln.va = false := by
  refine ⟨rfl, fun ln => ?_, fun ln => ?_⟩
  · change ln ∈ k.l1.filter _ ↔ _
    simp
  · change ln ∈ k.icache.filter _ ↔ _
    simp

theorem State.dropHost_frame (s : State) : s.dropHost.mem = s.mem ∧ s.dropHost.bad = s.bad ∧ s.dropHost.linkUp = s.linkUp ∧
    s.dropHost.cxl = s.cxl := by
  unfold State.dropHost
  exact ⟨rfl, rfl, rfl, rfl⟩

theorem State.inHost_dropHost (s : State) : s.dropHost.inHost = s.inHost := by
  obtain ⟨hmem, hbad, -, -⟩ := s.dropHost_frame
  exact funext (State.inHost_of hmem hbad (by rw [State.dieAt_dropHost]; rfl))

theorem State.dropHost_cores {s t : State} (h : t.cores = s.cores) (c : CoreId) :
    (t.dropHost.coreAt c).ctxs = (s.coreAt c).ctxs ∧
      (∀ ln, ln ∈ (t.dropHost.coreAt c).l1 ↔ ln ∈ (s.coreAt c).l1 ∧ t.dropHost.inHost ln.va = false) ∧
      ∀ ln, ln ∈ (t.dropHost.coreAt c).icache ↔ ln ∈ (s.coreAt c).icache ∧ t.dropHost.inHost ln.va = false := by
  have hcore : t.coreAt c = s.coreAt c := congrArg (fun v : Vector Core 512 => v[c]) h
  rw [State.coreAt_dropHost, hcore, State.inHost_dropHost]
  exact Core.mem_dropHost _ _

theorem linkNegotiation_eq (cxl : Bool) (s : State) :
    exec (.linkNegotiation cxl) s = .next (if cxl = true then s.linked cxl else (s.linked cxl).dropHost) := by
  change execLinkNegotiation cxl s = _
  unfold execLinkNegotiation State.dropHost
  rfl

theorem linkNegotiation_flushes (cxl : Bool) (s : State) :
    ∃ t, exec (.linkNegotiation cxl) s = .next t ∧ t.linkUp = true ∧ t.cxl = cxl ∧
      (∀ d, ∀ ln ∈ (t.dieAt d).l2, Config.hostPhys ≤ ln.pa → cxl = true ∧ ln.dirty = 0) ∧ (cxl = true → t.cores = s.cores) ∧
      (cxl = false → ∀ c, (t.coreAt c).ctxs = (s.coreAt c).ctxs ∧
        (∀ ln, ln ∈ (t.coreAt c).l1 ↔ ln ∈ (s.coreAt c).l1 ∧ t.inHost ln.va = false) ∧
        ∀ ln, ln ∈ (t.coreAt c).icache ↔ ln ∈ (s.coreAt c).icache ∧ t.inHost ln.va = false) := by
  obtain ⟨hdies, hcores, hup, hcxl⟩ := s.linked_frame cxl
  cases cxl with
  | true =>
    refine ⟨s.linked true, by rw [linkNegotiation_eq, if_pos rfl], hup, hcxl, fun d ln hln hpa => ⟨rfl, ?_⟩, fun _ => hcores,
      fun hf => absurd hf (by decide)⟩
    rw [State.dieAt, hdies] at hln
    exact s.flushHost_clean (fun _ => true) d ln hln ⟨hpa, rfl⟩
  | false =>
    obtain ⟨-, -, hup', hcxl'⟩ := (s.linked false).dropHost_frame
    refine ⟨(s.linked false).dropHost, by rw [linkNegotiation_eq, if_neg (by decide)], hup'.trans hup, hcxl'.trans hcxl,
      fun d ln hln hpa => ?_, fun hf => absurd hf (by decide), fun _ c => State.dropHost_cores hcores c⟩
    rw [State.dieAt_dropHost] at hln
    exact absurd hpa (Die.not_mem_dropHost _ ln hln)

/-! ### MODULE_RESET (14 R320, R324) -/

theorem moduleReset_resets (s : State) : ∃ t, exec .moduleReset s = .next t ∧ t.cores = State.reset.cores ∧ t.dies = State.reset.dies ∧
    t.rings = State.reset.rings ∧ t.bregs = State.reset.bregs ∧ t.launches = [] ∧ t.agenda = [] ∧ t.flue = [] ∧
    t.boot.bstate = 1 ∧ t.boot.berr = 0 ∧ t.boot.fusedSvn = s.boot.fusedSvn ∧
    t.inputMv = s.inputMv ∧ t.power = if s.inputMv < 40000 ∨ 60000 < s.inputMv then .off else .boot := by
  refine ⟨_, rfl, rfl, rfl, rfl, rfl, rfl, rfl, rfl, rfl, rfl, rfl, rfl, ?_⟩
  dsimp only
  simp only [Bool.or_eq_true, decide_eq_true_eq]

/-! ### BOOTGO (14 R320, R460) -/

/-- The context of a die's firmware when it starts. -/
def startsFirmware (entry : Word) (d : DieId) (s : State) : Prop :=
  ∃ w, s.ctxAt (firmwareCore d) 0 = { firmwareStart entry d with waitFrom := w }

theorem firmwareCore_injective : ∀ d e : DieId, firmwareCore d = firmwareCore e → d = e := by decide

theorem State.startsFirmware_at (s : State) (entry : Word) (d : DieId) : startsFirmware entry d (s.startFirmware entry d) := by
  refine ⟨s.cycle, ?_⟩
  unfold State.startFirmware State.startAt
  rw [State.ctxAt_modCtxAt]
  exact if_pos ⟨rfl, rfl⟩

theorem State.startsFirmware_other {s : State} {entry : Word} {d e : DieId} (hde : d ≠ e) (h : startsFirmware entry d s) :
    startsFirmware entry d (s.startFirmware entry e) := by
  obtain ⟨w, hw⟩ := h
  refine ⟨w, ?_⟩
  unfold State.startFirmware State.startAt
  rw [State.ctxAt_modCtxAt]
  exact (if_neg fun hc => hde (firmwareCore_injective d e hc.1)).trans hw

/-- The boot block after LOAD of an image. -/
def Boot.loaded (b : Boot) (h : Config.ImageHeader) (image : List Byte) : Boot :=
  { b with
    bstate := 4, berr := 0, measurement := shake256 image, boots := b.boots + 1, leaf := 0
    fusedSvn := if h.commit then max b.fusedSvn h.svn else b.fusedSvn }

theorem State.load'_eq (s : State) (h : Config.ImageHeader) (image : List Byte) :
    s.load' h image = allDies.foldl (fun t d => t.startFirmware h.entry d)
      { s with boot := s.boot.loaded h image, power := if s.power = .boot then .run else s.power } := by
  rw [allDies, List.foldl_map]
  rfl

/-- After LOAD the firmware of every die starts; cores, dies, the boot block and the power state have changed. -/
theorem State.load'_frame (s : State) (h : Config.ImageHeader) (image : List Byte) :
    (∃ cores dies, s.load' h image = { s with
      cores := cores, dies := dies, boot := s.boot.loaded h image, power := if s.power = .boot then .run else s.power }) ∧
      ∀ d, startsFirmware h.entry d (s.load' h image) := by
  rw [State.load'_eq]
  refine ⟨?_, fun d => foldl_dies (P := startsFirmware h.entry) (fun t d => t.startsFirmware_at h.entry d)
    (fun _ _ _ hde hd => State.startsFirmware_other hde hd) (mem_allDies d) _⟩
  have hfold : ∀ (l : List DieId) (t : State), ∃ cores dies, l.foldl (fun t d => t.startFirmware h.entry d) t =
      { t with cores := cores, dies := dies } := fun l => by
    induction l with
    | nil => exact fun t => ⟨t.cores, t.dies, rfl⟩
    | cons d ds ih =>
      intro t
      obtain ⟨cores, dies, hds⟩ := ih (t.startFirmware h.entry d)
      exact ⟨cores, dies, hds⟩
  exact hfold _ _

theorem State.bootGo_stays {s : State} (h : s.boot.bstate ≠ 1) : s.bootGo = s := by
  unfold State.bootGo
  exact if_pos (by simpa using h)

section
variable {s : State} (h : s.boot.bstate = 1)
include h

/-- BOOTGO in WAIT, by the first check that the staged image fails. -/
theorem State.bootGo_checks : s.bootGo = match bootFailure s with
    | some code => s.bootError code
    | none => s.load' (Config.imageHeader s.boot.staging) (stagedImage s) := by
  have himage : (List.range (min (Config.imageHeader s.boot.staging).length stagingBytes)).map (readByte s.boot.staging) = stagedImage s := by
    unfold stagedImage stagingBytes
    rfl
  unfold State.bootGo bootFailure
  dsimp only
  rw [himage]
  generalize shake256 (Config.imageHeader s.boot.staging).publicKey = key
  generalize xmssVerify _ _ _ = verified
  generalize Config.loadOk _ = loads
  simp only [h, bne_self_eq_false, Bool.false_eq_true, if_false, bne_iff_ne, Bool.not_eq_true', ne_eq]
  split_ifs <;> rfl

end

theorem State.bar0Write_boot (s : State) : s.bar0Write 0x10000 (1 : Word).toNat = s.bootGo ∧ s.bar0Write 0x10000 (2 : Word).toNat = s.attestGo := by
  have hring : Machine.ringAt 0x10000 = none := by decide
  unfold State.bar0Write
  rw [hring]
  exact ⟨rfl, rfl⟩

/-- The state in which firmware starts (14 R460). -/
theorem firmwareStart_fields {entry : Word} {d : DieId} {s : State} (h : startsFirmware entry d s) :
    let x := s.ctxAt (firmwareCore d) 0
    x.status = .live ∧ x.pc = entry ∧ x.mode = .firmware ∧ x.s[4] = BitVec.ofNat 64 d.val ∧ x.vl = 0 ∧ x.domain = 0 := by
  obtain ⟨w, hw⟩ := h
  dsimp only
  rw [hw]
  refine ⟨rfl, rfl, rfl, ?_, rfl, rfl⟩
  exact Vector.getElem_set_self _

theorem bootgo_boots (s : State) (hposted : s.posted = []) (hheld : s.heldWrites = []) : ∃ t, exec .bootgo s = .next t ∧
    if s.boot.bstate ≠ 1 then t = s
    else match bootFailure s with
      | some code => t = { s with boot := { s.boot with bstate := 1, berr := code } }
      | none =>
        let h := Config.imageHeader s.boot.staging
        t.boot.bstate = 4 ∧ t.boot.berr = 0 ∧ t.boot.measurement = shake256 (stagedImage s) ∧
        t.boot.fusedSvn = (if h.commit = true then max s.boot.fusedSvn h.svn else s.boot.fusedSvn) ∧
        (s.power = .boot → t.power = .run) ∧ t.launches = s.launches ∧ s.sameBytes t ∧
        ∀ d : DieId, let x := t.ctxAt (firmwareCore d) 0
          x.status = .live ∧ x.pc = h.entry ∧ x.mode = .firmware ∧ x.s[4] = BitVec.ofNat 64 d.val ∧ x.vl = 0 ∧ x.domain = 0 := by
  have hpost : ∀ {t : State}, s.bootGo = t → t.posted = [] → exec .bootgo s = .next t := fun ht hp =>
    congrArg Host.Outcome.next (State.hostPost_performs hposted hheld ((State.bar0Write_boot s).1.trans ht) hp)
  by_cases hwait : s.boot.bstate = 1
  · have hchecks := State.bootGo_checks hwait
    cases hfail : bootFailure s with
    | some code =>
      rw [hfail] at hchecks
      refine ⟨s.bootError code, hpost hchecks hposted, ?_⟩
      rw [if_neg (not_not.2 hwait)]
      rfl
    | none =>
      rw [hfail] at hchecks
      obtain ⟨⟨cores, dies, hload⟩, hstarts⟩ := s.load'_frame (Config.imageHeader s.boot.staging) (stagedImage s)
      refine ⟨_, hpost hchecks (by rw [hload]; exact hposted), ?_⟩
      rw [if_neg (not_not.2 hwait)]
      have hctx := fun d => firmwareStart_fields (hstarts d)
      refine ⟨?_, ?_, ?_, ?_, fun hp => ?_, ?_, ?_, hctx⟩
      all_goals rw [hload]
      · rfl
      · rfl
      · rfl
      · rfl
      · exact if_pos hp
      · exact fun _ => ⟨rfl, rfl, rfl⟩
  · refine ⟨s, hpost (State.bootGo_stays hwait) hposted, ?_⟩
    rw [if_pos hwait]

/-! ### ATTEST (14 R321) -/

/-- What a report holds before its signature. -/
def State.reportBody (s : State) : List Byte :=
  bytesLE s.boot.nonce.toNat 32 ++ s.boot.measurement ++ bytesLE s.boot.fusedSvn 8 ++ bytesLE s.bregs.pkgno 8 ++
    bytesLE ((s.boot.boots - 1) * 256 + s.boot.leaf) 8

/-- A request for a report: outside RUN, with no leaf left, and answered. -/
theorem State.attestGo_eq (s : State) :
    s.attestGo = if s.boot.bstate ≠ 4 then s
      else if 256 ≤ s.boot.leaf ∨ 4096 < s.boot.boots then { s with boot := { s.boot with berr := 5 } }
      else { s with boot := { s.boot with
        leaf := s.boot.leaf + 1
        report := s.reportBody ++ Config.attestSignature s.reportBody ((s.boot.boots - 1) * 256 + s.boot.leaf) } } := by
  have hbody : (List.range 32).map (fun i => BitVec.ofNat 8 (s.boot.nonce.toNat >>> (8 * i))) ++ s.boot.measurement ++
      bytesOf s.boot.fusedSvn 8 ++ bytesOf s.bregs.pkgno 8 ++ bytesOf ((s.boot.boots - 1) * 256 + s.boot.leaf) 8 = s.reportBody := by
    rw [State.reportBody, ← bytesOf_eq, ← bytesOf_eq, ← bytesOf_eq, ← bytesOf_eq]
    rfl
  unfold State.attestGo
  dsimp only
  rw [hbody]
  simp only [bne_iff_ne, Bool.or_eq_true, decide_eq_true_eq]

theorem attest_reports (s : State) (hposted : s.posted = []) (hheld : s.heldWrites = []) : ∃ t, exec .attest s = .next t ∧
    if s.boot.bstate ≠ 4 then t = s
    else if 256 ≤ s.boot.leaf ∨ 4096 < s.boot.boots then t = { s with boot := { s.boot with berr := 5 } }
    else t = { s with boot := { s.boot with leaf := s.boot.leaf + 1, report := t.boot.report } } ∧
      ∃ signature, t.boot.report = bytesLE s.boot.nonce.toNat 32 ++ s.boot.measurement ++ bytesLE s.boot.fusedSvn 8 ++
        bytesLE s.bregs.pkgno 8 ++ bytesLE ((s.boot.boots - 1) * 256 + s.boot.leaf) 8 ++ signature := by
  have hgo := s.attestGo_eq
  have hpost : s.attestGo.posted = [] → exec .attest s = .next s.attestGo := fun hp =>
    congrArg Host.Outcome.next (State.hostPost_performs hposted hheld (State.bar0Write_boot s).2 hp)
  refine ⟨s.attestGo, hpost ?_, ?_⟩
  · rw [hgo]
    split_ifs <;> exact hposted
  · rw [hgo]
    split_ifs
    · rfl
    · rfl
    · exact ⟨rfl, _, rfl⟩

/-! ### The staging SRAM (14 R310, R320) -/

/-- Staged bytes read back; none lies above the end of the SRAM. -/
theorem readByte_stage {m : List Host.Cell} (h : memoryWf m = true) (off : Nat) (bytes : List Byte) (x : Nat) :
    readByte (stage m off bytes) x =
      if off ≤ x ∧ x < off + bytes.length ∧ x < stagingBytes then bytes.getD (x - off) 0 else readByte m x := by
  induction bytes generalizing m off with
  | nil =>
    rw [if_neg fun hc => absurd hc.2.1 (Nat.not_lt.2 hc.1)]
    rfl
  | cons b bs ih =>
    unfold stage
    by_cases hend : off < stagingBytes
    · rw [if_pos hend, ih (memoryWf_writeByte _ _ h), readByte_writeByte _ _ _ h, List.length_cons]
      by_cases hx : x = off
      · rw [if_neg (by omega), if_pos hx, if_pos (by omega), hx, Nat.sub_self]
        rfl
      · rw [if_neg hx]
        by_cases hin : off ≤ x ∧ x < off + (bs.length + 1) ∧ x < stagingBytes
        · rw [if_pos (by omega), if_pos hin, show x - off = (x - (off + 1)) + 1 by omega]
          rfl
        · rw [if_neg (by omega), if_neg hin]
    · rw [if_neg hend, if_neg (by omega)]

theorem staging_waits (s : State) (off : Nat) (bytes : List Byte) (hposted : s.posted = []) (hheld : s.heldWrites ≠ []) :
    exec (.stagingSramWrite off bytes) s = .next { s with posted := [.staging off bytes] } ∧
    exec .bootgo s = .next { s with posted := [.register 0x10000 1] } ∧
    exec .attest s = .next { s with posted := [.register 0x10000 2] } :=
  ⟨congrArg Host.Outcome.next (State.hostPost_stagingWaits hposted hheld off bytes),
    congrArg Host.Outcome.next (State.hostPost_waits 0x10000 1 hposted hheld),
    congrArg Host.Outcome.next (State.hostPost_waits 0x10000 2 hposted hheld)⟩

theorem staging_writes (s : State) (off : Nat) (bytes : List Byte) (hwf : memoryWf s.boot.staging = true) (hposted : s.posted = [])
    (hheld : s.heldWrites = []) :
    ∃ t, exec (.stagingSramWrite off bytes) s = .next t ∧ t = { s with boot := { s.boot with staging := t.boot.staging } } ∧
      ∀ x, readByte t.boot.staging x = if off ≤ x ∧ x < off + bytes.length ∧ x < 0x800000 then bytes.getD (x - off) 0
        else readByte s.boot.staging x :=
  ⟨_, congrArg Host.Outcome.next (State.hostPost_staging hposted hheld off bytes), rfl, readByte_stage hwf off bytes⟩

/-- Settles O53: the host's accesses through the aperture, the link, and boot, each by what it does to what it names. -/
theorem hostAndBoot : Obligations.HostAndBoot := by
  unfold Obligations.HostAndBoot
  exact ⟨hostApertureRead_answers, fun _ _ _ _ hlen hposted => hostApertureWrite_performs hlen hposted, heldHostWriteRelease_releases,
    hostSnoop_flushes, linkNegotiation_flushes, moduleReset_resets, bootgo_boots, attest_reports, fun off bytes s => staging_waits s off bytes,
    fun off bytes s => staging_writes s off bytes⟩

end Sys2Proof.Machine
